-- ==== Sys2Proof/Word.lean ====
section
/-! DEFINITION. The word types of the MB2960, the field structures of its seven instruction formats (R26 to R38), and
the names of the units in which steps happen. Words are little-endian in memory (R7). -/

namespace Sys2Proof

/-- A byte of memory (R7). -/
abbrev Byte := BitVec 8
/-- A 32-bit register, or a lane of one (R44). -/
abbrev Word := BitVec 32
/-- A 64-bit register or pair (R44). -/
abbrev DWord := BitVec 64
/-- A bit for each lane of a warp; bits at and above W are zero (R61). -/
abbrev Mask := BitVec 64
/-- An instruction word (R7, R26). -/
abbrev IWord := BitVec 96

/-- Sparse data by number: sorted by key, no key twice, no entry equal to the value an unlisted key has. -/
abbrev FMap (α : Type) := List (Nat × α)

/-- Format V (R31) with the common header (R26). -/
structure VFmt where
  wait  : BitVec 12 := 0
  dist  : BitVec 4 := 1
  dst   : BitVec 9 := 0
  sa    : BitVec 9 := 0
  sb    : BitVec 9 := 0
  sc    : BitVec 9 := 0
  post  : BitVec 4 := 15
  guard : BitVec 5 := 0
  uni   : BitVec 3 := 0
  sdst  : BitVec 1 := 0
  round : BitVec 3 := 0
  type  : BitVec 4 := 0
  sat   : BitVec 2 := 0
  func  : BitVec 12 := 0
  deriving DecidableEq, Repr

/-- Format S (R33) with the common header. -/
structure SFmt where
  wait  : BitVec 12 := 0
  dist  : BitVec 4 := 1
  dst   : BitVec 9 := 0
  sa    : BitVec 9 := 0
  imm   : BitVec 32 := 0
  post  : BitVec 4 := 15
  type  : BitVec 4 := 0
  subop : BitVec 4 := 0
  vec   : BitVec 1 := 0
  rsv   : BitVec 7 := 0
  deriving DecidableEq, Repr

/-- Format M (R34) with the common header. -/
structure MFmt where
  wait   : BitVec 12 := 0
  dist   : BitVec 4 := 1
  data   : BitVec 9 := 0
  base   : BitVec 9 := 0
  offset : BitVec 20 := 0
  space  : BitVec 3 := 0
  obj    : BitVec 10 := 0
  height : BitVec 2 := 0
  width  : BitVec 2 := 0
  size   : BitVec 3 := 2
  post   : BitVec 4 := 15
  guard  : BitVec 5 := 0
  mode   : BitVec 3 := 0
  deriving DecidableEq, Repr

/-- Format A (R35) with the common header. -/
structure AFmt where
  wait  : BitVec 12 := 0
  dist  : BitVec 4 := 1
  dst   : BitVec 9 := 0
  addr  : BitVec 9 := 0
  opb   : BitVec 9 := 0
  opc   : BitVec 9 := 0
  space : BitVec 3 := 0
  scope : BitVec 3 := 0
  order : BitVec 3 := 0
  post  : BitVec 4 := 15
  guard : BitVec 5 := 0
  ident : BitVec 10 := 0
  size  : BitVec 3 := 0
  rsv   : BitVec 3 := 0
  deriving DecidableEq, Repr

/-- Format X (R36) with the common header. -/
structure XFmt where
  wait  : BitVec 12 := 0
  dist  : BitVec 4 := 1
  obj   : BitVec 10 := 0
  slota : BitVec 5 := 0
  slotb : BitVec 5 := 0
  acc   : BitVec 3 := 0
  pa    : BitVec 9 := 0
  pb    : BitVec 9 := 0
  post  : BitVec 4 := 15
  fmta  : BitVec 4 := 0
  fmtb  : BitVec 4 := 0
  prov  : BitVec 7 := 0
  func  : BitVec 10 := 0
  deriving DecidableEq, Repr

/-- Format B (R37) with the common header. -/
structure BFmt where
  wait    : BitVec 12 := 0
  dist    : BitVec 4 := 1
  loff    : BitVec 26 := 0
  tslot   : BitVec 3 := 0
  cond    : BitVec 9 := 0
  trailer : BitVec 12 := 0
  guard   : BitVec 5 := 0
  kind    : BitVec 3 := 0
  func    : BitVec 12 := 0
  deriving DecidableEq, Repr

/-- Format T (R38) with the common header. -/
structure TFmt where
  wait    : BitVec 12 := 0
  dist    : BitVec 4 := 1
  trailer : BitVec 12 := 0
  dst     : BitVec 9 := 0
  sa      : BitVec 9 := 0
  sysreg  : BitVec 12 := 0
  post    : BitVec 4 := 15
  imm     : BitVec 24 := 0
  deriving DecidableEq, Repr

/-- The bits of an instruction whose opcode is unassigned (R39). -/
structure UFmt where
  op   : BitVec 10 := 0x3FF
  bits : BitVec 86 := 0
  deriving DecidableEq, Repr

/-- A split of the machine: the group it belongs to (the model's number of the resident group), its warp within the
group and its entry of the warp's split table (R165). -/
structure SplitRef where
  gid : Nat
  wid : Nat
  ent : Nat
  deriving DecidableEq, Repr

/-- A host read in the mailbox windows of BAR0: the window, the offset in it and the length (R325). -/
structure BoxRead where
  mbx : Nat
  off : Nat
  len : Nat
  deriving DecidableEq, Repr

/-- The kinds of place at which an access to memory is performed (R147, R223). -/
inductive UnitKind where
  | bench | shop | yard | glazier | capacity | host | peer | switch
  deriving DecidableEq, Repr

/-- One place: a bench by core number, a shop by die × 12 + cluster, a yard or a capacity-tier controller by die, a
glazier by pseudo-channel, a peer by device number; the host and the switches are number 0. -/
structure UnitRef where
  kind : UnitKind
  num  : Nat
  deriving DecidableEq, Repr

/-- The read-modify-write operations of the atomic block (R145). -/
inductive AtomOp where
  | add | umin | umax | smin | smax | and | or | xor | exch | cas | fadd | fmin | fmax | ld | st
  deriving DecidableEq, Repr

end Sys2Proof
end

