-- ==== Sys2Proof/Machine/Num.lean ====
section
/-! DEFINITION. The number formats to the last bit (R43 to R59): exact values, the decoding of each format, the one rounding
(R55), the conversion to each format with its STICKY bits (R50, R68, R70), totalOrder (R57) and the noise (R58). -/

namespace Sys2Proof.Machine

/-- An exact value: a NaN, an infinity, or (−1)^neg × m × 2^e; a zero keeps its sign. -/
inductive Val where
  | nan
  | inf (neg : Bool)
  | fin (neg : Bool) (m : Nat) (e : Int)
  deriving DecidableEq, Repr

/-- The rounding modes of R55; stochastic rounding carries its noise z and the noise's width n (R58). -/
inductive Rnd where
  | rne | rz | rd | ru
  | sr (z n : Nat)
  deriving DecidableEq, Repr

/-! ## STICKY bits (R68) -/

def stInx : Word := 0x001
def stUnf : Word := 0x002
def stOvf : Word := 0x004
def stDz : Word := 0x008
def stInv : Word := 0x010
def stNan : Word := 0x020
def stIdz : Word := 0x040
def stIsat : Word := 0x080
def stSat8 : Word := 0x100
def stNv8 : Word := 0x200

/-- The bit mask b when p holds, else none. -/
def stIf (p : Bool) (b : Word) : Word := if p then b else 0

namespace Val

def isNan : Val → Bool
  | nan => true
  | _ => false

def isZero : Val → Bool
  | fin _ 0 _ => true
  | _ => false

def isInf : Val → Bool
  | inf _ => true
  | _ => false

def isNeg : Val → Bool
  | nan => false
  | inf n => n
  | fin n _ _ => n

def neg : Val → Val
  | nan => nan
  | inf n => inf (!n)
  | fin n m e => fin (!n) m e

/-- |x|. -/
def abs : Val → Val
  | nan => nan
  | inf _ => inf false
  | fin _ m e => fin false m e

/-- An integer as an exact value. -/
def ofInt (i : Int) : Val := fin (i < 0) i.natAbs 0

/-- The exact product. 0 × ∞ is a NaN (R83). -/
def mul : Val → Val → Val
  | nan, _ => nan
  | _, nan => nan
  | inf a, inf b => inf (a != b)
  | inf a, fin b m _ => if m = 0 then nan else inf (a != b)
  | fin a m _, inf b => if m = 0 then nan else inf (a != b)
  | fin a m e, fin b n f => fin (a != b) (m * n) (e + f)

/-- x scaled to the exponent f ≤ its own: its signed integer multiple of 2^f. -/
def scaledInt (neg : Bool) (m : Nat) (e f : Int) : Int :=
  let v : Int := (m * 2 ^ (e - f).toNat : Nat)
  if neg then -v else v

/-- The exact sum; rd chooses the sign of an exact zero from operands of opposite sign (R83). -/
def add (rd : Bool) : Val → Val → Val
  | nan, _ => nan
  | _, nan => nan
  | inf a, inf b => if a = b then inf a else nan
  | inf a, fin _ _ _ => inf a
  | fin _ _ _, inf b => inf b
  | fin a m e, fin b n f =>
    if m = 0 ∧ n = 0 then (if a = b then fin a 0 0 else fin rd 0 0)
    else if m = 0 then fin b n f
    else if n = 0 then fin a m e
    else
      let g := if e ≤ f then e else f
      let s := scaledInt a m e g + scaledInt b n f g
      if s = 0 then fin rd 0 0 else fin (s < 0) s.natAbs g

/-- The order of two finite values: −1, 0 or 1 as x is less than, equal to or greater than y. -/
def cmpFin (a : Bool) (m : Nat) (e : Int) (b : Bool) (n : Nat) (f : Int) : Int :=
  let g := if e ≤ f then e else f
  let x := scaledInt a m e g
  let y := scaledInt b n f g
  if x < y then -1 else if x = y then 0 else 1

/-- x ≤ y for finite values. -/
def leFin : Val → Val → Bool
  | fin a m e, fin b n f => cmpFin a m e b n f ≤ 0
  | _, _ => false

end Val

/-! ## Rounding (R55) -/

/-- Whether a magnitude between a and the next b, rem/den of the way, goes to b. -/
def roundUp (r : Rnd) (neg odd : Bool) (rem den : Nat) : Bool :=
  if rem = 0 then false
  else match r with
    | .rne => if 2 * rem = den then odd else den < 2 * rem
    | .rz => false
    | .rd => neg
    | .ru => !neg
    | .sr z n => z < rem * 2 ^ n / den

/-- The number of bits of m. -/
def bitLen (m : Nat) : Nat := if m = 0 then 0 else Nat.log2 m + 1

/-- m × 2^e rounded to a multiple of 2^q: the multiple, and whether that is inexact. -/
def roundAt (r : Rnd) (neg : Bool) (m : Nat) (e q : Int) : Nat × Bool :=
  if q ≤ e then (m * 2 ^ (e - q).toNat, false)
  else
    let den := 2 ^ (q - e).toNat
    let a := m / den
    let rem := m % den
    (if roundUp r neg (a % 2 = 1) rem den then a + 1 else a, rem != 0)

/-- A floating-point grid: mb mantissa bits, and the exponent q0 of its smallest subnormal. -/
structure Grid where
  mb : Nat
  q0 : Int
  deriving DecidableEq, Repr

/-- The exponent of the last place at m × 2^e on a grid, with an unbounded exponent range upward (R55). -/
def Grid.ulp (g : Grid) (m : Nat) (e : Int) : Int :=
  let q := e + bitLen m - (g.mb + 1)
  if q < g.q0 then g.q0 else q

/-- The magnitude code of a rounded magnitude: codes continue upward past the largest finite value (R55). -/
def Grid.round (g : Grid) (r : Rnd) (neg : Bool) (m : Nat) (e : Int) : Nat × Bool :=
  if m = 0 then (0, false)
  else
    let q := g.ulp m e
    let (k, inx) := roundAt r neg m e q
    ((q - g.q0).toNat * 2 ^ g.mb + k, inx)

/-- Whether a nonzero value is tiny: rounded with an unbounded exponent range it lies below the smallest normal (R68). -/
def Grid.tiny (g : Grid) (r : Rnd) (neg : Bool) (m : Nat) (e : Int) : Bool :=
  if m = 0 then false
  else
    let q := e + bitLen m - (g.mb + 1)
    let (k, _) := roundAt r neg m e q
    -- k × 2^q < 2^(q0 + mb)
    Val.cmpFin false k q false 1 (g.q0 + g.mb) < 0

/-- The value of a magnitude code of a grid. -/
def Grid.value (g : Grid) (neg : Bool) (code : Nat) : Val :=
  let x := code / 2 ^ g.mb
  let f := code % 2 ^ g.mb
  if x = 0 then .fin neg f g.q0 else .fin neg (2 ^ g.mb + f) (g.q0 + (x - 1 : Nat))

/-! ## The four wide formats (R45) -/

/-- A wide format: exponent bits and mantissa bits; the width is 1 + eb + mb. -/
structure Wide where
  eb : Nat
  mb : Nat
  deriving DecidableEq, Repr

def f32 : Wide := ⟨8, 23⟩
def bf16 : Wide := ⟨8, 7⟩
def f16 : Wide := ⟨5, 10⟩
def f24 : Wide := ⟨8, 15⟩

def Wide.grid (w : Wide) : Grid := ⟨w.mb, 1 - (2 ^ (w.eb - 1) - 1 : Nat) - w.mb⟩
/-- The code of +∞. -/
def Wide.infCode (w : Wide) : Nat := (2 ^ w.eb - 1) * 2 ^ w.mb
/-- The canonical NaN (R45, R47). -/
def Wide.nanCode (w : Wide) : Nat := w.infCode + 2 ^ (w.mb - 1)
def Wide.signBit (w : Wide) : Nat := 2 ^ (w.eb + w.mb)

/-- The exact value of an encoding (R45). -/
def Wide.decode (w : Wide) (x : Nat) : Val :=
  let neg : Bool := w.signBit ≤ x % (2 * w.signBit)
  let mag := x % w.signBit
  if mag = w.infCode then .inf neg
  else if w.infCode < mag then .nan
  else w.grid.value neg mag

/-- Overflow by IEEE 754 in the mode (R83): the magnitude code. -/
def Wide.overflow (w : Wide) (r : Rnd) (neg : Bool) : Nat :=
  match r with
  | .rne => w.infCode
  | .rz => w.infCode - 1
  | .rd => if neg then w.infCode else w.infCode - 1
  | .ru => if neg then w.infCode - 1 else w.infCode
  | .sr _ _ => w.infCode

/-- An exact value rounded once to a wide format: its encoding and the STICKY bits of a rounded result (R55, R70, R83). -/
def Wide.encode (w : Wide) (r : Rnd) (v : Val) : Nat × Word :=
  match v with
  | .nan => (w.nanCode, stNan)
  | .inf neg => ((if neg then w.signBit else 0) + w.infCode, 0)
  | .fin neg m e =>
    let s := if neg then w.signBit else 0
    let (code, inx) := w.grid.round r neg m e
    if w.infCode ≤ code then (s + w.overflow r neg, stOvf ||| stInx)
    else (s + code, stIf inx stInx ||| stIf (inx && w.grid.tiny r neg m e) stUnf)

/-! ## Narrow formats (R48, R49, R50) -/

/-- The 8-bit and 4-bit members by family and tag. -/
inductive Narrow where
  | e4m3 | e5m2 | int8 | e3m4 | e2m1 | e1m2 | int4 | e3m0
  deriving DecidableEq, Repr

def narrow8 (tag : Nat) : Narrow :=
  match tag % 4 with
  | 0 => .e4m3 | 1 => .e5m2 | 2 => .int8 | _ => .e3m4

def narrow4 (tag : Nat) : Narrow :=
  match tag % 4 with
  | 0 => .e2m1 | 1 => .e1m2 | 2 => .int4 | _ => .e3m0

def Narrow.bits : Narrow → Nat
  | .e4m3 | .e5m2 | .int8 | .e3m4 => 8
  | .e2m1 | .e1m2 | .int4 | .e3m0 => 4

/-- The grid of a floating-point member with mantissa bits. -/
def Narrow.grid : Narrow → Grid
  | .e4m3 => ⟨3, -9⟩
  | .e5m2 => ⟨2, -16⟩
  | .e3m4 => ⟨4, -6⟩
  | .e2m1 => ⟨1, -1⟩
  | .e1m2 => ⟨2, -2⟩
  | _ => ⟨0, 0⟩

/-- The magnitude code of the largest finite value. -/
def Narrow.maxCode : Narrow → Nat
  | .e4m3 => 0x7E
  | .e5m2 => 0x7B
  | .e3m4 => 0x6F
  | .int8 => 127
  | .e2m1 | .e1m2 | .e3m0 | .int4 => 7

/-- E3M0: code 0 is zero, code c ≥ 1 is 2^(c−3). -/
def e3m0Value (neg : Bool) (c : Nat) : Val := if c = 0 then .fin neg 0 0 else .fin neg 1 ((c : Int) - 3)

/-- The signed value of the low n bits of x. -/
def signedOf (n x : Nat) : Int :=
  let y := x % 2 ^ n
  if y < 2 ^ (n - 1) then y else (y : Int) - 2 ^ n

/-- The low n bits of an integer, as a number. -/
def wrapTo (n : Nat) (i : Int) : Nat := (i % (2 ^ n : Nat)).toNat

/-- The magnitude of the special value that S selects (R52), in quarters; none for S = 0 and 8. -/
def specialQuarters (s : Nat) : Option Nat :=
  match s % 8 with
  | 1 => some 1 | 2 => some 3 | 3 => some 10 | 4 => some 14 | 5 => some 20 | 6 => some 32 | 7 => some 48
  | _ => none

/-- The exact value of a narrow code, S being the header's special field (R48, R49, R52). E2M1's code 0b1000 with S 0 or 8 is zero; the
spec does not give its sign, and +0 is the model's choice (log 108). -/
def Narrow.decode (k : Narrow) (s : Nat) (x : Nat) : Val :=
  match k with
  | .e4m3 =>
    let m := x % 128
    if m = 127 then .nan else k.grid.value (128 ≤ x % 256) m
  | .e5m2 =>
    let m := x % 128
    if m = 0x7C then .inf (128 ≤ x % 256) else if 0x7C < m then .nan else k.grid.value (128 ≤ x % 256) m
  | .e3m4 =>
    let m := x % 128
    k.grid.value (128 ≤ x % 256) (if 0x70 ≤ m then 0x6F else m)
  | .int8 => Val.ofInt (signedOf 8 x)
  | .int4 => Val.ofInt (signedOf 4 x)
  | .e3m0 => e3m0Value (8 ≤ x % 16) (x % 8)
  | .e1m2 => k.grid.value (8 ≤ x % 16) (x % 8)
  | .e2m1 =>
    if x % 16 = 8 then
      match specialQuarters s with
      | some q => .fin (8 ≤ s % 16) q (-2)
      | none => .fin false 0 0
    else k.grid.value (8 ≤ x % 16) (x % 8)

/-- The magnitude code of a nonzero value on the grid of E3M0, and whether it is inexact (R55). -/
def e3m0Round (r : Rnd) (neg : Bool) (m : Nat) (e : Int) : Nat × Bool :=
  if m = 0 then (0, false)
  else
    -- 2^t ≤ m × 2^e < 2^(t+1)
    let t := e + bitLen m - 1
    if t < -2 then
      -- between 0 and 0.25
      let (_, inx) := roundAt r neg m e (-2)
      let den := 2 ^ (-2 - e).toNat
      (if roundUp r neg false (m % den) den then 1 else 0, inx)
    else if e ≤ t then
      let den := 2 ^ (t - e).toNat
      let rem := m - den
      let c := (t + 3).toNat
      (if roundUp r neg (c % 2 = 1) rem den then c + 1 else c, rem != 0)
    else ((t + 3).toNat, false)

/-- A nonzero value is tiny for E3M0, whose smallest normal magnitude is 0.25: rounded to a power of two with an unbounded exponent range
it lies below that (R68). -/
def e3m0Tiny (r : Rnd) (neg : Bool) (m : Nat) (e : Int) : Bool :=
  let t := e + bitLen m - 1
  m != 0 && (t < -3 || (t = -3 && !(e ≤ t && roundUp r neg false (m - 2 ^ (t - e).toNat) (2 ^ (t - e).toNat))))

/-- The code of a conversion to a narrow format and its STICKY bits, under fp8sat (R50, R51, R70). An overflow's result differs from the
exact one, so it is inexact (R68, log 32). -/
def Narrow.encode (k : Narrow) (sat : Bool) (r : Rnd) (v : Val) : Nat × Word :=
  match k with
  | .int8 | .int4 =>
    let n := k.bits
    let hi : Int := 2 ^ (n - 1) - 1
    let lo : Int := -(2 ^ (n - 1))
    match v with
    | .nan => (0, stInv)
    | .inf neg => (wrapTo n (if neg then lo else hi), stSat8)
    | .fin neg m e =>
      let (a, inx) := roundAt r neg m e 0
      let i : Int := if neg then -a else a
      let c := if i < lo then lo else if hi < i then hi else i
      (wrapTo n c, stIf (i != c) stSat8 ||| stIf inx stInx)
  | .e4m3 | .e5m2 =>
    let s (neg : Bool) : Nat := if neg then 128 else 0
    match v with
    | .nan => (if k = .e4m3 then 0x7F else 0x7E, stNan)
    | .inf neg =>
      if sat then (s neg + k.maxCode, stSat8)
      else if k = .e4m3 then (0x7F, stNv8 ||| stNan) else (s neg + 0x7C, 0)
    | .fin neg m e =>
      let (c, inx) := k.grid.round r neg m e
      if k.maxCode < c then
        if sat then (s neg + k.maxCode, stSat8 ||| stInx)
        else (if k = .e4m3 then 0x7F else 0x7E, stNv8 ||| stNan ||| stInx)
      else (s neg + c, stIf inx stInx ||| stIf (inx && k.grid.tiny r neg m e) stUnf)
  | .e3m4 =>
    match v with
    | .nan => (0, stInv)
    | .inf neg => ((if neg then 128 else 0) + k.maxCode, stSat8)
    | .fin neg m e =>
      let (c, inx) := k.grid.round r neg m e
      let s := if neg then 128 else 0
      if k.maxCode < c then (s + k.maxCode, stSat8 ||| stInx)
      else (s + c, stIf inx stInx ||| stIf (inx && k.grid.tiny r neg m e) stUnf)
  | .e2m1 | .e1m2 | .e3m0 =>
    let put (neg : Bool) (c : Nat) : Nat := if c = 0 then 0 else (if neg then 8 else 0) + c
    match v with
    | .nan => (0, stInv)
    | .inf neg => (put neg k.maxCode, stSat8)
    | .fin neg m e =>
      let (c, inx) := if k = .e3m0 then e3m0Round r neg m e else k.grid.round r neg m e
      if k.maxCode < c then (put neg k.maxCode, stSat8 ||| stInx)
      else
        let tiny := if k = .e3m0 then e3m0Tiny r neg m e else k.grid.tiny r neg m e
        (put neg c, stIf inx stInx ||| stIf (inx && tiny) stUnf)

/-! ## Integer conversion (R91) -/

/-- A value converted to an n-bit integer: rounded, then clamped; isat when clamped, inv for a NaN (R70, R91). -/
def toIntBits (n : Nat) (signed : Bool) (r : Rnd) (v : Val) : Nat × Word :=
  let hi : Int := if signed then 2 ^ (n - 1) - 1 else 2 ^ n - 1
  let lo : Int := if signed then -(2 ^ (n - 1)) else 0
  match v with
  | .nan => (0, stInv)
  | .inf neg => (wrapTo n (if neg then lo else hi), stIsat)
  | .fin neg m e =>
    let (a, inx) := roundAt r neg m e 0
    let i : Int := if neg then -a else a
    let c := if i < lo then lo else if hi < i then hi else i
    (wrapTo n c, stIf (i != c) stIsat ||| stIf inx stInx)

/-! ## totalOrder (R57) -/

/-- The key of an encoding of width w; keys compare as unsigned numbers. -/
def orderKey (w x : Nat) : Nat :=
  if 2 ^ (w - 1) ≤ x then 2 ^ w - 1 - x else x + 2 ^ (w - 1)

/-! ## Stochastic-rounding noise (R58) -/

structure Quad where
  a : Nat
  b : Nat
  c : Nat
  d : Nat
  deriving DecidableEq, Repr

/-- One round of Philox4x32. -/
def philoxRound (q : Quad) (k0 k1 : Nat) : Quad :=
  let p0 := 0xD2511F53 * q.a
  let p1 := 0xCD9E8D57 * q.c
  { a := (p1 / 2 ^ 32) ^^^ q.b ^^^ k0, b := p1 % 2 ^ 32, c := (p0 / 2 ^ 32) ^^^ q.d ^^^ k1, d := p0 % 2 ^ 32 }

def philoxRounds : Nat → Quad → Nat → Nat → Quad
  | 0, q, _, _ => q
  | n + 1, q, k0, k1 =>
    philoxRounds n (philoxRound q k0 k1) ((k0 + 0x9E3779B9) % 2 ^ 32) ((k1 + 0xBB67AE85) % 2 ^ 32)

/-- philox4x32_7 of the split's DIX and the lane under the warp's SEED. -/
def noiseWords (dix seed : DWord) (lane : Nat) : Quad :=
  philoxRounds 7 ⟨dix.toNat % 2 ^ 32, dix.toNat / 2 ^ 32, lane, 0⟩ (seed.toNat % 2 ^ 32) (seed.toNat / 2 ^ 32)

def Quad.get (q : Quad) (i : Nat) : Nat :=
  match i with
  | 0 => q.a | 1 => q.b | 2 => q.c | _ => q.d

/-- The noise of element e of E rounded elements in a lane. -/
def noiseOf (dix seed : DWord) (lane total e : Nat) : Rnd :=
  let q := noiseWords dix seed lane
  if total ≤ 4 then .sr (q.get e) 32
  else
    let y := q.get (e / 2)
    .sr (if e % 2 = 0 then y % 2 ^ 16 else y / 2 ^ 16) 16

end Sys2Proof.Machine
end

