-- ==== Sys2Proof/Machine/SpecFn.lean ====
section
/-! DEFINITION. The eight special functions (R87 to R89) as exact values for the one rounding of R55. A result that is not a
dyadic number is given by a dyadic stand-in that lies strictly between the same two neighbours of every grid of R45 and of
every midpoint of such a grid, so that it rounds as the function's value does, in each of the modes RNE, RZ, RD and RU.
The stand-in is 2k + 1 halves of the last place of a fixed-point enclosure (k, k + 1) of the value, narrow enough that no
grid value or midpoint lies inside it (log 9). -/

namespace Sys2Proof.Machine

/-- The stand-in for a value that lies strictly between k × 2^e and (k + 1) × 2^e. -/
def between (neg : Bool) (k : Nat) (e : Int) : Val := .fin neg (2 * k + 1) (e - 1)

/-- The floor of the square root, by bits from the highest (fuel is the number of bits left). -/
def isqrtGo : Nat → Nat → Nat → Nat
  | 0, _, acc => acc
  | n + 1, x, acc =>
    let c := acc + 2 ^ n
    isqrtGo n x (if c * c ≤ x then c else acc)

def isqrt (x : Nat) : Nat := isqrtGo (bitLen x / 2 + 1) x 0

/-- num/den as an exact value or its stand-in, with at least 64 bits. -/
def quotVal (neg : Bool) (num den : Nat) : Val :=
  let g := 64 + bitLen den
  let n := num * 2 ^ g
  if n % den = 0 then .fin neg (n / den) (-(g : Int)) else between neg (n / den) (-(g : Int))

/-- 1/x for finite nonzero x. -/
def rcpVal (neg : Bool) (m : Nat) (e : Int) : Val :=
  match quotVal neg 1 m with
  | .fin s k f => .fin s k (f - e)
  | v => v

/-- √(m × 2^e), m > 0. -/
def sqrtVal (m : Nat) (e : Int) : Val :=
  -- m × 2^e = n × 2^(2h) with n of at least 128 bits
  let odd := e % 2
  let n := m * 2 ^ odd.toNat * 2 ^ 128
  let h := (e - odd) / 2 - 64
  let r := isqrt n
  if r * r = n then .fin false r h else between false r h

/-- 1/√(m × 2^e), m > 0. -/
def rsqrtVal (m : Nat) (e : Int) : Val :=
  -- 1/√(n × 2^(2h)) = √(2^(2g)/n) × 2^(−h−g)
  let odd := e % 2
  let n := m * 2 ^ odd.toNat
  let h := (e - odd) / 2
  let g := 96 + bitLen n
  let q := 2 ^ (2 * g) / n
  let r := isqrt q
  if r * r * n = 2 ^ (2 * g) then .fin false r (-h - g) else between false r (-h - g)

/-! ## Fixed-point series: every function below works at scale 2^G and is within a few units of the last place -/

/-- The product of two fixed-point numbers. -/
def fmul (g : Nat) (a b : Int) : Int := a * b / 2 ^ g

/-- Σ (1/n)^(2k+1)/(2k+1), alternating when alt, at scale 2^g: artanh(1/n) or arctan(1/n). -/
def atanSum (alt : Bool) (n : Nat) : Nat → Nat → Int → Int → Int
  | 0, _, _, acc => acc
  | fuel + 1, k, t, acc =>
    let s : Int := if alt && k % 2 = 1 then -(t / (2 * k + 1 : Nat)) else t / (2 * k + 1 : Nat)
    if t = 0 then acc else atanSum alt n fuel (k + 1) (t / (n * n : Nat)) (acc + s)

/-- ln 2 = 2 artanh(1/3) at scale 2^g. -/
def ln2Fix (g : Nat) : Int := 2 * atanSum false 3 (g + 40) 0 (2 ^ (g + 32) / 3) 0 / 2 ^ 32

/-- π = 16 arctan(1/5) − 4 arctan(1/239) at scale 2^g (Machin). -/
def piFix (g : Nat) : Int :=
  (16 * atanSum true 5 (g + 40) 0 (2 ^ (g + 32) / 5) 0 - 4 * atanSum true 239 (g + 40) 0 (2 ^ (g + 32) / 239) 0) / 2 ^ 32

/-- Σ r^k/k! at scale 2^g, for |r| ≤ 1. -/
def expSum (g : Nat) (r : Int) : Nat → Nat → Int → Int → Int
  | 0, _, _, acc => acc
  | fuel + 1, k, t, acc =>
    if t = 0 || t = -1 then acc else
      let t' := fmul g t r / (k + 1 : Nat)
      expSum g r fuel (k + 1) t' (acc + t')

/-- e^r at scale 2^g, for |r| ≤ 1. -/
def expFix (g : Nat) (r : Int) : Int := expSum g r (g + 8) 0 (2 ^ g) (2 ^ g)

/-- Σ (−1)^k r^(2k+s)/(2k+s)! at scale 2^g: the sine for s = 1, the cosine for s = 0. -/
def sinSum (g : Nat) (r2 : Int) (s : Nat) : Nat → Nat → Int → Int → Int
  | 0, _, _, acc => acc
  | fuel + 1, k, t, acc =>
    if t = 0 then acc else
      let t' := fmul g t r2 / ((2 * k + s + 1) * (2 * k + s + 2) : Nat)
      sinSum g r2 s fuel (k + 1) t' (if k % 2 = 0 then acc - t' else acc + t')

/-- A positive fixed-point number within 2^slack units of the last place, as the stand-in of the value it approximates.
The low bits that the error can touch are dropped with the neighbours kept apart. -/
def fixVal (neg : Bool) (x : Int) (slack : Nat) (g : Int) : Val :=
  between neg (x.toNat / 2 ^ slack) (slack - g)

/-- The numerator m × 2^(e+g) of a finite value at scale 2^g, rounded down. -/
def toFix (m : Nat) (e : Int) (g : Nat) : Nat :=
  let k := e + g
  if 0 ≤ k then m * 2 ^ k.toNat else m / 2 ^ (-k).toNat

/-- 2^x for a finite x that is not an integer, |x| < 2^10. -/
def exp2Val (neg : Bool) (m : Nat) (e : Int) : Val :=
  -- x = n + f with 0 < f < 1
  let g : Nat := 320 + (-e).toNat
  let x : Int := if neg then -(toFix m e g : Int) else toFix m e g
  let n := x / 2 ^ g
  let f := x - n * 2 ^ g
  let y := expFix g (fmul g f (ln2Fix g))
  match fixVal false y 40 g with
  | .fin s k q => .fin s k (q + n)
  | v => v

/-- log₂(m × 2^e) for a positive value that is not a power of 2. -/
def log2Val (m : Nat) (e : Int) : Val :=
  let g : Nat := 320
  -- m × 2^e = u × 2^n with 1 < u < 2
  let l := bitLen m - 1
  let n := e + l
  let u : Int := m * 2 ^ (g - l)
  -- ln u = 2 artanh((u − 1)/(u + 1))
  let z := (u - 2 ^ g) * 2 ^ g / (u + 2 ^ g)
  let z2 := fmul g z z
  let s := (List.range 200).foldl (fun (acc : Int × Int) k =>
    (acc.1 + acc.2 / (2 * k + 1 : Nat), fmul g acc.2 z2)) ((0 : Int), z)
  let lnu := 2 * s.1
  let y := n * 2 ^ g + lnu * 2 ^ g / ln2Fix g
  fixVal (y < 0) (if y < 0 then -y else y) 60 g

/-- tanh(m × 2^e), m > 0. -/
def tanhVal (neg : Bool) (m : Nat) (e : Int) : Val :=
  let g : Nat := 200 + 4 * (-e).toNat
  let x := toFix m e g
  -- tanh x = 1 − 2/(e^(2x) + 1); beyond 64 the value lies within 2^−180 of 1
  if 64 * 2 ^ g ≤ x then between neg (2 ^ 180 - 1) (-180)
  else
    let y : Int := 2 * x
    let l2 := ln2Fix g
    let n := y / l2
    let r := y - n * l2
    let ex := expFix g r * 2 ^ n.toNat
    let t : Int := 2 ^ g - 2 * 2 ^ g * 2 ^ g / (ex + 2 ^ g)
    fixVal neg t 80 g

/-- The argument in turns reduced: ⌊4f⌋ and the rest f − ⌊4f⌋/4 at scale 2^g, for f = |x| mod 1 (R89). -/
def turnParts (m : Nat) (e : Int) (g : Nat) : Nat × Nat :=
  let f := toFix m e g % 2 ^ g
  (4 * f / 2 ^ g, f % 2 ^ (g - 2))

/-- sin(2πt) at scale 2^g, for t in (0, 1/4) given at scale 2^g. -/
def sinTurn (g t : Nat) : Int :=
  let r := fmul g (2 * piFix g) t
  sinSum g (fmul g r r) 1 (g + 8) 0 r r

/-- cos(2πt) at scale 2^g, for t in (0, 1/4). -/
def cosTurn (g t : Nat) : Int :=
  let r := fmul g (2 * piFix g) t
  sinSum g (fmul g r r) 0 (g + 8) 0 (2 ^ g) (2 ^ g)

/-- sin(2πx) for a finite x, with the zeros of R88. -/
def sinVal (neg : Bool) (m : Nat) (e : Int) : Val :=
  let g : Nat := 256 + 2 * (-e).toNat
  let (q, t) := turnParts m e g
  let s := neg != (2 ≤ q)
  if q % 2 = 0 then
    if t = 0 then .fin neg 0 0 else fixVal s (sinTurn g t) 60 g
  else
    if t = 0 then .fin s 1 0 else fixVal s (cosTurn g t) 60 g

/-- cos(2πx) for a finite x, with the zeros of R88. -/
def cosVal (m : Nat) (e : Int) : Val :=
  let g : Nat := 256 + 2 * (-e).toNat
  let (q, t) := turnParts m e g
  let s : Bool := q = 1 || q = 2
  if q % 2 = 0 then
    if t = 0 then .fin s 1 0 else fixVal s (cosTurn g t) 60 g
  else
    if t = 0 then .fin false 0 0 else fixVal s (sinTurn g t) 60 g

/-- Which special function (R88). -/
inductive SpecOp where
  | rcp | rsqrt | sqrt | exp2 | log2 | sin | cos | tanh
  deriving DecidableEq, Repr

/-- The integer that a finite value is, when it is one. -/
def asInt (neg : Bool) (m : Nat) (e : Int) : Option Int :=
  let v : Option Nat :=
    if 0 ≤ e then some (m * 2 ^ e.toNat)
    else if m % 2 ^ (-e).toNat = 0 then some (m / 2 ^ (-e).toNat) else none
  v.map fun k => if neg then -(k : Int) else k

/-- The exact value of a special function, or its stand-in, and the STICKY bits decided apart from rounding (R88). A value
of 2^a outside every format's range is given by a power of 2 that overflows or lies below every subnormal in the same way. -/
def specEval (op : SpecOp) (v : Val) : Val × Word :=
  match v with
  | .nan => (.nan, 0)
  | .inf neg =>
    match op with
    | .rcp => (.fin neg 0 0, 0)
    | .rsqrt => if neg then (.nan, stInv) else (.fin false 0 0, 0)
    | .sqrt | .log2 => if neg then (.nan, stInv) else (.inf false, 0)
    | .exp2 => if neg then (.fin false 0 0, 0) else (.inf false, 0)
    | .sin | .cos => (.nan, stInv)
    | .tanh => (.fin neg 1 0, 0)
  | .fin neg m e =>
    match op with
    | .rcp => if m = 0 then (.inf neg, stDz) else (rcpVal neg m e, 0)
    | .rsqrt =>
      if m = 0 then (.inf neg, stDz) else if neg then (.nan, stInv) else (rsqrtVal m e, 0)
    | .sqrt =>
      if m = 0 then (.fin neg 0 0, 0) else if neg then (.nan, stInv) else (sqrtVal m e, 0)
    | .exp2 =>
      if m = 0 then (.fin false 1 0, 0)
      else match asInt neg m e with
        | some i => (.fin false 1 (if i < -4096 then -4096 else if 4096 < i then 4096 else i), 0)
        | none =>
          if 1024 * 2 ^ (-e).toNat ≤ m then
            (if neg then between false 1 (-4096) else between false 1 4096, 0)
          else (exp2Val neg m e, 0)
    | .log2 =>
      if m = 0 then (.inf true, stDz)
      else if neg then (.nan, stInv)
      else if m = 2 ^ (bitLen m - 1) then
        let i := e + (bitLen m - 1)
        (.fin (i < 0) i.natAbs 0, 0)
      else (log2Val m e, 0)
    | .sin => (sinVal neg m e, 0)
    | .cos => (cosVal m e, 0)
    | .tanh => if m = 0 then (.fin neg 0 0, 0) else (tanhVal neg m e, 0)

/-- A special function at an operand, rounded once to its type: the encoding and the STICKY bits (R87, R88). -/
def specRound (w : Wide) (op : SpecOp) (r : Rnd) (x : Nat) : Nat × Word :=
  let (v, s) := specEval op (w.decode x)
  let (c, t) := w.encode r v
  (c, s ||| t)

end Sys2Proof.Machine
end

