-- ==== Sys2Proof/Syntax.lean ====
section
/-! DEFINITION. The abstract form of what the MB2960 does in one step: one constructor for each row of
spec/opcode_table.json. The rows of the opcode map carry the fields of their format as they stand in the 96-bit word; the
rows that are events of the machine (spec/95) carry the unit they happen in and what the outside world supplies. -/

namespace Sys2Proof

/-- One constructor per row of the table of operations and events. -/
inductive Instr where
  /-- R20. No operation that counts toward its run and may post a flag. -/
  | nop (f : TFmt)
  /-- R19. Ends a run, with a trailer mask naming the flags left in flight. -/
  | seal (f : TFmt)
  /-- R188. Traps SOFTWARE with a 16-bit code, with EPC set to the next program counter. -/
  | trap (f : TFmt)
  /-- R188. Traps BREAKPOINT with a 16-bit code, with EPC set to the next program counter. -/
  | trapBkpt (f : TFmt)
  /-- R337. Returns from a handler, restoring the trap frame and popping the registers pushed at entry. -/
  | tret (f : TFmt)
  /-- R189. Reads a system register into a scalar register or even pair. -/
  | sysrd (f : TFmt)
  /-- R71. Reads STICKY once earlier fixed-latency write-backs have landed; traps DETERMINISM with several splits in deterministic mode. -/
  | sysrdSticky (f : TFmt)
  /-- R302. Reads the warp's logical clock; traps DETERMINISM when the warp has more than one split. -/
  | sysrdLclk (f : TFmt)
  /-- R189. Writes a system register that has no behaviour of its own, effective for the next instruction. -/
  | syswr (f : TFmt)
  /-- R189. Writes EXM ANDed with the split's held mask. -/
  | syswrExm (f : TFmt)
  /-- R71. Writes STICKY, ORing in contributions that land in the same cycle or later. -/
  | syswrSticky (f : TFmt)
  /-- R56. Writes FPCTL, storing rnd values 5 to 7 as 0; takes effect for the writer's next instruction and later instructions of other splits. -/
  | syswrFpctl (f : TFmt)
  /-- R188. Appends a 64-byte bench message to a mailbox's outbound ring, or reports it full. -/
  | mbxsend (f : TFmt)
  /-- R188. Moves the oldest inbound mailbox message to the bench, or reports the ring empty. -/
  | mbxrecv (f : TFmt)
  /-- R289. Hands a TCB to the dispatcher, checking it and assigning a task identifier as a release at .dev scope. -/
  | spawn (f : TFmt)
  /-- R188. Appends a 16-byte record to an event queue, or reports it full. -/
  | evput (f : TFmt)
  /-- R188. Takes the oldest record of an event queue into s(d) to s(d+3), with a status in s(d+4). -/
  | evget (f : TFmt)
  /-- R188. Completes when the warp's LCLK is no greater than that of any unretired warp of its group. -/
  | lsync (f : TFmt)
  /-- R188. Writes a user-mark record, with a code and a scalar value, to the core's Scrivener ring. -/
  | logmk (f : TFmt)
  /-- R74. Moves an immediate to a register. -/
  | smovi (f : SFmt)
  /-- R74. Adds an immediate, wrapping or saturating. -/
  | saddi (f : SFmt)
  /-- R74. Subtracts an immediate, wrapping or saturating. -/
  | ssubi (f : SFmt)
  /-- R74. Multiplies by an immediate, giving the low bits, a saturated result or the high bits. -/
  | smuli (f : SFmt)
  /-- R74. ANDs a register with an immediate. -/
  | sandi (f : SFmt)
  /-- R74. ORs a register with an immediate. -/
  | sori (f : SFmt)
  /-- R74. XORs a register with an immediate. -/
  | sxori (f : SFmt)
  /-- R74. Shifts left by an immediate count, shifting in zeros. -/
  | sshli (f : SFmt)
  /-- R74. Shifts right by an immediate count, arithmetically or logically by type. -/
  | sshri (f : SFmt)
  /-- R74. Compares a register with an immediate and writes 1 or 0. -/
  | scmpi (f : SFmt)
  /-- R74. Gives the smaller of a register and an immediate. -/
  | smini (f : SFmt)
  /-- R74. Gives the larger of a register and an immediate. -/
  | smaxi (f : SFmt)
  /-- R74. Computes a 64-bit address, a plus a scaled sign-extended immediate. -/
  | slea (f : SFmt)
  /-- R74. Counts leading zeros. -/
  | sclz (f : SFmt)
  /-- R74. Counts trailing zeros. -/
  | sctz (f : SFmt)
  /-- R74. Counts set bits. -/
  | spopc (f : SFmt)
  /-- R74. Reverses the bits of a register. -/
  | sbrev (f : SFmt)
  /-- R74. Reverses the bytes of a register. -/
  | sbswap (f : SFmt)
  /-- R74. Sign-extends or zero-extends a narrow value to 32 bits. -/
  | sext (f : SFmt)
  /-- R75. Returns an identity value of the warp selected by an immediate. -/
  | sident (f : SFmt)
  /-- R77. Integer add per used element, wrapping or saturating. -/
  | vaddInteger (f : VFmt)
  /-- R77. Integer subtract. -/
  | vsubInteger (f : VFmt)
  /-- R77. Integer multiply. -/
  | vmulInteger (f : VFmt)
  /-- R77. High half of an integer product. -/
  | vmulhi (f : VFmt)
  /-- R77. Integer multiply-add. -/
  | vmad (f : VFmt)
  /-- R77. Integer minimum. -/
  | vminInteger (f : VFmt)
  /-- R77. Integer maximum. -/
  | vmaxInteger (f : VFmt)
  /-- R77. Integer absolute value. -/
  | vabsInteger (f : VFmt)
  /-- R77. Integer negation. -/
  | vnegInteger (f : VFmt)
  /-- R77. Bitwise AND. -/
  | vand (f : VFmt)
  /-- R77. Bitwise OR. -/
  | vor (f : VFmt)
  /-- R77. Bitwise XOR. -/
  | vxor (f : VFmt)
  /-- R77. Bitwise a AND NOT b. -/
  | vandn (f : VFmt)
  /-- R77. Shift left by a per-element count. -/
  | vshl (f : VFmt)
  /-- R77. Shift right, arithmetic or logical by type. -/
  | vshr (f : VFmt)
  /-- R78. Integer compare of each active lane into a predicate. -/
  | vcmpInteger (f : VFmt)
  /-- R78. Selects a or b per lane by a predicate. -/
  | vsel (f : VFmt)
  /-- R77. Copies a bit for bit. -/
  | vmov (f : VFmt)
  /-- R79. Integer quotient, rounded toward zero, with zero-divisor handling. -/
  | vdiv (f : VFmt)
  /-- R79. Integer remainder with the sign of the dividend. -/
  | vrem (f : VFmt)
  /-- R81. Four-way 8-bit dot product added to a 32-bit value. -/
  | vdot4 (f : VFmt)
  /-- R77. Per-lane count of leading zeros. -/
  | vclz (f : VFmt)
  /-- R77. Per-lane count of set bits. -/
  | vpopc (f : VFmt)
  /-- R77. Per-lane bit reversal. -/
  | vbrev (f : VFmt)
  /-- R80. Bit-field extract. -/
  | vbfx (f : VFmt)
  /-- R80. Bit-field insert. -/
  | vbfi (f : VFmt)
  /-- R77. Writes each lane's number. -/
  | vlaneid (f : VFmt)
  /-- R78. Logic on predicates. -/
  | vqop (f : VFmt)
  /-- R84. Floating-point add, rounded once. -/
  | vaddFloat (f : VFmt)
  /-- R84. Floating-point subtract. -/
  | vsubFloat (f : VFmt)
  /-- R84. Floating-point multiply. -/
  | vmulFloat (f : VFmt)
  /-- R84. Fused multiply-add. -/
  | vfma (f : VFmt)
  /-- R84. Fused multiply-subtract. -/
  | vfms (f : VFmt)
  /-- R84. Negated fused multiply-add. -/
  | vfnma (f : VFmt)
  /-- R85. Lesser operand under totalOrder. -/
  | vminFloat (f : VFmt)
  /-- R85. Greater operand under totalOrder. -/
  | vmaxFloat (f : VFmt)
  /-- R85. Floating-point compare under totalOrder into a predicate. -/
  | vcmpFloat (f : VFmt)
  /-- R84. Clears the sign. -/
  | vabsFloat (f : VFmt)
  /-- R84. Inverts the sign. -/
  | vnegFloat (f : VFmt)
  /-- R86. Writes a one-hot class mask of the operand. -/
  | vfclass (f : VFmt)
  /-- R86. Two-way 16-bit dot product into f32, rounded once. -/
  | vfdot2 (f : VFmt)
  /-- R84. Computes a times 2 to the power b. -/
  | vfscale (f : VFmt)
  /-- R86. Rounds to an integral value. -/
  | vfrint (f : VFmt)
  /-- R84. Gives the magnitude of a with the sign of b. -/
  | vfcopysign (f : VFmt)
  /-- R88. Correctly rounded reciprocal. -/
  | vrcp (f : VFmt)
  /-- R88. Correctly rounded reciprocal square root. -/
  | vrsqrt (f : VFmt)
  /-- R88. Correctly rounded square root. -/
  | vsqrt (f : VFmt)
  /-- R88. Correctly rounded 2 to the power a. -/
  | vexp2 (f : VFmt)
  /-- R88. Correctly rounded base-2 logarithm. -/
  | vlog2 (f : VFmt)
  /-- R89. Sine of an argument in turns, with exact reduction. -/
  | vsin (f : VFmt)
  /-- R89. Cosine of an argument in turns, with exact reduction. -/
  | vcos (f : VFmt)
  /-- R88. Correctly rounded hyperbolic tangent. -/
  | vtanh (f : VFmt)
  /-- R91. Converts elements between formats in same-width, narrowing or widening form. -/
  | vcvt (f : VFmt)
  /-- R93. Quantises 24 values per lane into a scale block with its header. -/
  | vqblk (f : VFmt)
  /-- R96. Converts to a narrow format, setting aside outliers above THR in a bf16 side list. -/
  | vqcvt (f : VFmt)
  /-- R98. Moves values between lanes by index, up, down or xor. -/
  | vshfl (f : VFmt)
  /-- R99. Exchanges adjacent lanes or halves, optionally negating the even member. -/
  | vpswap (f : VFmt)
  /-- R100. Broadcasts one lane's value to every active lane or to a scalar. -/
  | vbcast (f : VFmt)
  /-- R101. Ballot, any, all or count of a predicate over the active lanes into a scalar. -/
  | vvote (f : VFmt)
  /-- R102. Inclusive or exclusive prefix over the active lanes in lane order. -/
  | vscan (f : VFmt)
  /-- R103. Reduces the warp by a tree fixed by the warp width. -/
  | vred (f : VFmt)
  /-- R109. Claims a range of operand slots. -/
  | mclaim (f : XFmt)
  /-- R109. Frees a range of operand slots. -/
  | mfree (f : XFmt)
  /-- R110. Starts filling a slot from the bench, making it LOADING. -/
  | mfill (f : XFmt)
  /-- R117. Enqueues a dense tile product into an accumulator tile. -/
  | mma (f : XFmt)
  /-- R117. Enqueues a 12-of-24 sparse tile product into an accumulator tile. -/
  | mmas (f : XFmt)
  /-- R114. Sets a tile to +0, optionally clearing its counters. -/
  | mzero (f : XFmt)
  /-- R114. Loads a tile from the bench. -/
  | maccld (f : XFmt)
  /-- R114. Stores a tile to the bench, converted. -/
  | maccst (f : XFmt)
  /-- R125. Commits or discards a provisional tile by a predicate register. -/
  | mresolve (f : XFmt)
  /-- R130. Writes the array status record to the bench, optionally clearing counters. -/
  | mstat (f : XFmt)
  /-- R137. Loads bytes or a register block from a space. -/
  | ld (f : MFmt)
  /-- R138. Stores bytes of each active lane, into a bank or the store buffer. -/
  | st (f : MFmt)
  /-- R142. Moves a byte range between levels through the copy engine. -/
  | tmov (f : MFmt)
  /-- R144. Clears the valid bits of a bench range. -/
  | bvclr (f : MFmt)
  /-- R144. Sets the valid bits of a bench range. -/
  | bvset (f : MFmt)
  /-- R144. Tests valid bits into a predicate. -/
  | bvtst (f : MFmt)
  /-- R145. Atomic integer add. -/
  | atomAdd (f : AFmt)
  /-- R145. Atomic unsigned minimum. -/
  | atomUmin (f : AFmt)
  /-- R145. Atomic unsigned maximum. -/
  | atomUmax (f : AFmt)
  /-- R145. Atomic signed minimum. -/
  | atomSmin (f : AFmt)
  /-- R145. Atomic signed maximum. -/
  | atomSmax (f : AFmt)
  /-- R145. Atomic AND. -/
  | atomAnd (f : AFmt)
  /-- R145. Atomic OR. -/
  | atomOr (f : AFmt)
  /-- R145. Atomic XOR. -/
  | atomXor (f : AFmt)
  /-- R145. Atomic exchange. -/
  | atomExch (f : AFmt)
  /-- R149. Atomic compare and swap, with only the lowest lane per address comparing. -/
  | atomCas (f : AFmt)
  /-- R150. Atomic f32 add rounded under RNE. -/
  | atomFadd (f : AFmt)
  /-- R150. Atomic minimum under totalOrder. -/
  | atomFmin (f : AFmt)
  /-- R150. Atomic maximum under totalOrder. -/
  | atomFmax (f : AFmt)
  /-- R145. Atomic load. -/
  | atomLd (f : AFmt)
  /-- R145. Non-returning atomic store. -/
  | atomSt (f : AFmt)
  /-- R154. Holds later memory-type instructions until earlier accesses complete at a scope. -/
  | fence (f : AFmt)
  /-- R155. Arrives at a group or crew barrier and waits for the phase to complete. -/
  | barsync (f : AFmt)
  /-- R155. Arrives at a barrier as a release without waiting. -/
  | bararv (f : AFmt)
  /-- R158. Initialises a phase barrier word. -/
  | pbinit (f : AFmt)
  /-- R158. Arrives on a phase barrier word with a byte count, flipping it when due. -/
  | pbarv (f : AFmt)
  /-- R158. Adds to a phase barrier word's byte count without arriving. -/
  | pbtx (f : AFmt)
  /-- R158. Waits until a phase barrier word's phase differs from a parity. -/
  | pbwait (f : AFmt)
  /-- R160. Compares a word and sleeps on its waiter list if equal. -/
  | waitq (f : AFmt)
  /-- R160. Removes and completes the oldest waiters on an address. -/
  | wake (f : AFmt)
  /-- R163. Pushes a value into a queue or hands it to the oldest waiter. -/
  | qpush (f : AFmt)
  /-- R163. Pops a queue entry, or reports the queue empty. -/
  | qpop (f : AFmt)
  /-- R163. Pops a queue entry or waits on the queue's waiter list. -/
  | qpopw (f : AFmt)
  /-- R167. Uniform branch, always or on a scalar condition. -/
  | bra (f : BFmt)
  /-- R167. Divides a split by a predicate into a frame and two splits, or serialises. -/
  | bsplit (f : BFmt)
  /-- R168. Divides a split by matching a selector against the keys of a case line. -/
  | switch (f : BFmt)
  /-- R169. Parks a split in its matching frame or advances its serial record. -/
  | join (f : BFmt)
  /-- R172. Indirect branch with a target per lane. -/
  | brx (f : BFmt)
  /-- R173. Pushes registers and a link word, slides the window and transfers. -/
  | call (f : BFmt)
  /-- R173. Indirect call through a scalar pair. -/
  | callx (f : BFmt)
  /-- R174. Pops each lane's link word, restores the window and returns. -/
  | ret (f : BFmt)
  /-- R174. Rewrites the target of the top link word of each active lane. -/
  | lnkw (f : BFmt)
  /-- R171. Retires the split's held lanes from frames and records. -/
  | exit (f : BFmt)
  /-- R179. Copies a byte range to the bench, a slot or a draft, optionally with a follow-on matrix command. -/
  | cpy (f : XFmt)
  /-- R180. Copies indexed rows of a published view. -/
  | gather (f : XFmt)
  /-- R181. Performs a collective among a peer set into a draft. -/
  | coll (f : XFmt)
  /-- R182. Opens a reduction window on the home device. -/
  | rwinOpen (f : XFmt)
  /-- R182. Closes a reduction window as a release at .dom. -/
  | rwinClose (f : XFmt)
  /-- R183. Has the glaziers reduce k buffers into a draft by a fixed tree. -/
  | rstream (f : XFmt)
  /-- R184. Requests the swap of an object's published and draft mappings. -/
  | publish (f : XFmt)
  /-- R185. Submits a draw or pass on a render target. -/
  | rast (f : XFmt)
  /-- R185. Posts a fragment packet per active lane to its glazier. -/
  | fpost (f : XFmt)
  /-- R185. Closes the remaining pixels of an entry per active lane. -/
  | fnull (f : XFmt)
  /-- R186. Reads texels of a published view, nearest or bilinear. -/
  | sample (f : XFmt)
  /-- R187. Method program: loads a record, payload or identity word. -/
  | mld (f : VFmt)
  /-- R187. Method program: stages a record word. -/
  | mst (f : VFmt)
  /-- R187. Method program: discards a lane's staged words. -/
  | mkill (f : VFmt)
  /-- R187. Method program: writes the staged words of surviving lanes in one step. -/
  | mend (f : VFmt)
  /-- R15. A program counter enters a fetch line, which is checked in order before any instruction runs. -/
  | lineEntry (r : SplitRef)
  /-- R11. A line whose parity fails is fetched once more and rechecked, writing a parity record. -/
  | lineRefetch (r : SplitRef)
  /-- R198. Each cycle a free issue port binds the least recently bound ready split whose next instruction can issue. -/
  | portBind (core bay : Nat)
  /-- R23. A fixed-latency result, its predicate and its STICKY contributions land 6 cycles after issue. -/
  | fixedLatencyWriteback (gid wid id : Nat)
  /-- R21. A long-latency instruction completes, writing its registers and decrementing its flag count. -/
  | longLatencyCompletion (gid wid id : Nat)
  /-- R137. All registers of a load are written in the cycle its last byte arrives and its flag completes. -/
  | loadCompletion (gid wid id : Nat)
  /-- R110. A fill completes, making the slot READY, setting its toggle estimate and completing its flag. -/
  | mfillCompletion (core id : Nat)
  /-- R128. The array starts the eligible queue head with the lowest charge, charging the budget. -/
  | matrixCommandStart (core : Nat)
  /-- R123. A finished subtile is verified by residue checksums and written, or rerun once. -/
  | subtileCheck (core err : Nat)
  /-- R119. A tile command completes, updating counters and its flag and raising deferred traps. -/
  | matrixCommandCompletion (core : Nat)
  /-- R125. After discarded provisional commands finish, the tile is restored from its snapshot. -/
  | mresolveRestore (core queue : Nat)
  /-- R120. A pending deferred trap is taken at the issuing split's next run boundary. -/
  | deferredTrapDelivery (gid idx : Nat)
  /-- R155. A barrier phase completes when its count arrives, completing every waiter's flag. -/
  | barrierPhaseCompletion (crew : Bool) (uid bar : Nat)
  /-- R159. The copy engine subtracts landed bytes from a named barrier word as a release. -/
  | engineBytesLand (core id beats : Nat)
  /-- R178. When a command's data has landed, its completion word, event record and flag follow in order. -/
  | engineCommandCompletion (core id : Nat)
  /-- R179. When a CPY's operand has landed, its follow-on enters matrix queue 4 after state checks. -/
  | followOnEnqueue (core id : Nat)
  /-- R347. A group's buffered mem atoms drain into the die's write buffer at a commit point. -/
  | storeBufferCommit (gid : Nat)
  /-- R244. A write leaves its write-buffer bank in order and is performed at its place. -/
  | writeBufferDrain (die bank : Nat)
  /-- R216. A glazier serves a whole request, sectors together, from its queue. -/
  | glazierRequestService (u : UnitRef) (idx : Nat)
  /-- R246. An atomic executes at its place in arrival order and returns the prior value. -/
  | atomicExecution (u : UnitRef) (idx : Nat)
  /-- R311. A translation miss walks the tables of its ASID and caches valid entries. -/
  | pageWalk (die asid va : Nat)
  /-- R203. A parked split becomes ready with its saved run when an invalidation or restore covers its fault. -/
  | parkedSplitResume (r : SplitRef)
  /-- R336. After outstanding loads complete, a split saves its trap frame and enters its handler. -/
  | trapEntry (r : SplitRef)
  /-- R207. A group retires when its warps, commands, deferred traps and store buffer are done. -/
  | groupRetire (gid : Nat)
  /-- R291. A task's last retirement frees keys, releases successors, clears its state and records it. -/
  | taskRetire (key : Nat)
  /-- R296. The dispatcher places a granted task's next group on the best eligible core. -/
  | groupPlacement (key : Nat)
  /-- R390. A multi-group crew is placed whole on one cluster in one step. -/
  | crewPlacement (key : Nat)
  /-- R292. A held event record is appended once its queue has room. -/
  | eventRecordAppend (part queue : Nat)
  /-- R260. The raster units bin a draw into work items, write parameters, send entries and spawn the fragment task. -/
  | rasterBinning (die id : Nat)
  /-- R261. An expectation entry is appended to a tile's owning glazier once its store has room. -/
  | expectationEntryAppend (die id : Nat)
  /-- R187. A glazier fetches and validates a method program the first time it is named after a table change. -/
  | methodValidation (pc asid obj method : Nat)
  /-- R267. A glazier accepts a fragment lane when it can apply or store it. -/
  | packetAccept (gid id lane : Nat)
  /-- R266. An eligible packet or pass entry runs its method indivisibly on a pixel and closes it. -/
  | methodApplication (pc entry pixel : Nat)
  /-- R184. Once earlier draft writes and entries are applied, the mappings swap device-wide. -/
  | publishSwap (id : Nat)
  /-- R183. A glazier reads the source atoms and writes one destination atom of a stream reduction. -/
  | streamReductionAtom (core id atom : Nat)
  /-- R181. Matched members of a peer set complete a collective into their drafts. -/
  | collectiveCompletion (core id : Nat) (peers : List (List Byte))
  /-- R247. A member's atomic inside an open reduction window is merged in the Tercon switches. -/
  | switchMerge (window rank : Nat) (op : AtomOp) (size addr value : Nat)
  /-- R247. When every member has closed, the merged values are delivered to the home glazier. -/
  | reductionWindowDelivery (window : Nat)
  /-- R342. A crew is ended: issue stops, loads drain, the store buffer rolls back and resources free. -/
  | groupEnd (crew : Nat)
  /-- R349. When both redundant members reach a commit point their store signatures are compared. -/
  | signatureCompare (gid : Nat)
  /-- R346. A late transition stalls the unit and repeats the cycle at half clock. -/
  | shadowLatchReplay (core : Nat)
  /-- R353. A stack's critical-temperature signal stops its glaziers performing requests. -/
  | forcedSelfRefreshEntry (stack : Nat)
  /-- R353. On exit, the held requests are performed in order. -/
  | forcedSelfRefreshExit (stack : Nat)
  /-- R353. After 2^24 cycles held reads complete as poison and held writes are dropped. -/
  | selfRefreshTimeout (stack : Nat)
  /-- R374. A die crossing a junction threshold has its matrix budget or clock halved or restored. -/
  | thermalThreshold (die temp : Nat)
  /-- R360. A core of a freeze set writes its marker and freezes its ring after its predecessor. -/
  | coreFreeze (event : Nat)
  /-- R361. The trust unit builds, redacts, signs and stores the capsules of a fatal event. -/
  | capsuleSeal (event : Nat)
  /-- R325. A host 64-byte write appends a message to an inbound ring, or is dropped and counted. -/
  | mailboxInboundWrite (fn mbx off : Nat) (data : List Byte)
  /-- R325. A host read removes and returns the oldest outbound message as a .sys acquire. -/
  | mailboxOutboundRead (fn : Nat) (mbx : BoxRead)
  /-- R325. A host read returns pending counts and the overrun count; the bytes after them are zero. -/
  | mailboxStatusRead (fn : Nat) (mbx : BoxRead)
  /-- R324. A host read through BAR2 is translated or windowed and served. -/
  | bar2HostRead (fn off len : Nat)
  /-- R324. A host write through BAR2 is translated or windowed and performed. -/
  | bar2HostWrite (fn off : Nat) (data : List Byte)
  /-- R324. A host PCIe AtomicOp through BAR2 executes at the target's glazier. -/
  | bar2HostAtomic (fn off : Nat) (op : AtomOp) (size val cmp : Nat)
  /-- R324. Sets the BAR2 window base for function 0 for later requests. -/
  | apwinWrite (v : DWord)
  /-- R320. Starts a translation invalidation of an ASID or a page range. -/
  | trinvWrite (v : DWord)
  /-- R318. Starts saving a task's crews into the context area. -/
  | preemptWrite (v : DWord)
  /-- R318. A crew's issued work drains, its store buffer commits and its state is saved. -/
  | preemptSaveComplete (key : Nat)
  /-- R321. Starts restoring a saved task's crews by placement. -/
  | restoreWrite (v : DWord)
  /-- R320. Writes a device control block register that has no behaviour of its own. -/
  | controlBlockWrite (off : Nat) (v : DWord)
  /-- R286. Mailbox kind 1: spawns the TCB at the address and replies. -/
  | dallumSpawn (part mbx : Nat)
  /-- R286. Mailbox kind 2: declares a frame range dead. -/
  | declareDead (part mbx : Nat)
  /-- R286. Mailbox kind 3: declares a frame range live. -/
  | declareLive (part mbx : Nat)
  /-- R218. A dead declaration takes effect at a glazier once earlier accesses are performed. -/
  | liveMapUpdate (pc : Nat)
  /-- R286. Mailbox kind 4: forwards an event queue's records to the mailbox, or stops. -/
  | forwardEventQueue (part mbx : Nat)
  /-- R286. A message of unknown kind or with nonzero unused bytes gets status 0xFF. -/
  | mailboxInvalidMessage (part mbx : Nat)
  /-- R292. Dallum answers a declare-dead or declare-live record from queue 255. -/
  | dallumServiceRequest (part : Nat)
  /-- R365. Mailbox kind 0x10: lists visible capsules. -/
  | listCapsules (part mbx : Nat)
  /-- R365. Mailbox kind 0x11: copies a capsule range to an address. -/
  | copyCapsule (part mbx : Nat)
  /-- R365. Mailbox kind 0x12: releases a capsule from the store. -/
  | releaseCapsule (part mbx : Nat)
  /-- R365. Mailbox kind 0x13: writes a signed attestation report with a nonce. -/
  | attest (part mbx : Nat)
  /-- R365. Mailbox kind 0x14: copies the identity and intermediate certificates. -/
  | copyCertificates (part mbx : Nat)
  /-- R365. Mailbox kind 0x15: reports stage and units in service. -/
  | serviceStatus (part mbx : Nat)
  /-- R371. A readmission self-test of 2^22 cycles passes or fails the core. -/
  | coreSelfTest (core : Nat) (pass : Bool)
  /-- R370. Atoms of a pseudo-channel move between its array and the reserve, each at one place at a time. -/
  | pseudoChannelMigration (pc atom : Nat)
  /-- R39. An instruction whose opcode is unassigned in its block, or lies in 0x200 to 0x3FF, traps ILLEGAL_INSTR with reason 1. -/
  | unassignedOpcode (f : UFmt)
  /-- R356. At the first free cycle after records were lost, the core writes the count as a lost-records record. -/
  | lostRecords (core : Nat)
  /-- R218. A glazier's periodic DRAM row refresh, skipped for a row only while every frame in it is dead. -/
  | refresh (pc row : Nat)
  /-- R129. Every 1,024 cycles a new budget window begins with its charge reset. -/
  | budgetWindowStart
  /-- R359. Dallum failing to answer the watchdog for 2^30 cycles is a device fatal event. -/
  | dallumWatchdogExpiry
  /-- R358. The low 32 bits of the cycle count wrap and a time record is written. -/
  | cycleCountWrap
  /-- R312. An invalidation completes once cached entries, walks and affected accesses are done. -/
  | invalidationComplete
  /-- R371. Kind 0x20: retires a core, forced by pre-emption or after its groups retire. -/
  | retireCore
  /-- R371. Kind 0x21: readmits a core after a self-test. -/
  | readmitCore
  /-- R370. Kind 0x22: migrates, retrains and migrates back a pseudo-channel. -/
  | recalibratePseudoChannel
  /-- R370. Kind 0x23: migrates a pseudo-channel into the remap reserve for good. -/
  | retirePseudoChannel
  /-- R369. Kind 0x24: readmits a pseudo-channel. -/
  | readmitPseudoChannel
  /-- R371. Kind 0x25: sets a Tercon port's lanes or removes it from the route masks. -/
  | setPortLanes
  /-- R369. Kind 0x27: stages a Dallum image into the inactive slot. -/
  | stageImage
  /-- R372. Kind 0x28: hands over to the inactive Dallum image with a handover block. -/
  | handover
  /-- R372. A new image not ready within 2^30 cycles is replaced by the old one. -/
  | handoverTimeout
  /-- R367. Kind 0x29: verifies and installs or stages a signed configuration block. -/
  | installConfiguration
  /-- R368. After reset, the boot ROM starts the best valid Dallum image and rings clear. -/
  | reset
  /-- R364. A reset request waits for capsules under way to be sealed, or a bound. -/
  | resetRequest
  /-- R373. Dallum moves the device to stage 2 in one cycle and announces it on its mailboxes. -/
  | fullService
  /-- R359. An uncorrectable error in control-core memory is a device fatal event that freezes every core in service, with core 0 as origin. -/
  | controlCoreMemoryError
  /-- R364. A reset request that has waited 2^32 arithmetic cycles for capsules under way proceeds without them. -/
  | resetWaitExpiry
  deriving DecidableEq, Repr

end Sys2Proof
end

