-- ==== Sys2Proof/WellFormed.lean ====
section
/-! DEFINITION. Which terms of Instr are instructions and events of the machine: the rows that share an opcode are told
apart by a field (R74, R182, R188, R189), an unassigned opcode is one that R39 and the class chapters leave unassigned, and
an event names units that exist (R2, R3). -/

namespace Sys2Proof

/-- The opcodes that the class chapters give to an instruction (R39, R74, R77, R84, R88, R90 to R103, R104, R135, R145,
R152, R165, R176, R187, R188). -/
def opAssigned (op : Nat) : Bool :=
  op ≤ 0x00C || (0x020 ≤ op && op ≤ 0x02F) || (0x040 ≤ op && op ≤ 0x05B) || (0x080 ≤ op && op ≤ 0x08F) ||
  (0x0C0 ≤ op && op ≤ 0x0C7) || (0x0E0 ≤ op && op ≤ 0x0E2) || (0x100 ≤ op && op ≤ 0x105) ||
  (0x120 ≤ op && op ≤ 0x129) || (0x140 ≤ op && op ≤ 0x145) || (0x160 ≤ op && op ≤ 0x16E) ||
  (0x180 ≤ op && op ≤ 0x18B) || (0x1A0 ≤ op && op ≤ 0x1A9) || (0x1C0 ≤ op && op ≤ 0x1C9) ||
  (0x1E0 ≤ op && op ≤ 0x1E3)

/-- A place that exists (R2). -/
def UnitRef.wf (u : UnitRef) : Bool :=
  match u.kind with
  | .bench => u.num < 384
  | .shop => u.num < 48
  | .yard => u.num < 4
  | .glazier => u.num < 512
  | .capacity => u.num < 4
  | .host => u.num = 0
  | .peer => u.num < 1024
  | .switch => u.num = 0

/-- A split-table entry that can exist (R190, R165). -/
def SplitRef.wf (r : SplitRef) : Bool := r.wid < 32 && r.ent < 16
/-- The windows of 256 bytes in a function's BAR0: 2 MiB in function 0, else the mailboxes of a partition (R324). -/
def bar0Windows (fn : Nat) : Nat := if fn = 0 then 8192 else 256

/-- Instr.wf i: i is what some instruction word decodes to, or an event at units that exist. -/
def Instr.wf : Instr → Bool
  | .nop _ => true
  | .seal _ => true
  | .trap f => !f.imm.getLsbD 23
  | .trapBkpt f => f.imm.getLsbD 23
  | .tret _ => true
  | .sysrd f => f.sysreg ≠ 7 && f.sysreg ≠ 3
  | .sysrdSticky f => f.sysreg = 7
  | .sysrdLclk f => f.sysreg = 3
  | .syswr f => f.sysreg ≠ 0 && f.sysreg ≠ 7 && f.sysreg ≠ 5
  | .syswrExm f => f.sysreg = 0
  | .syswrSticky f => f.sysreg = 7
  | .syswrFpctl f => f.sysreg = 5
  | .mbxsend _ => true
  | .mbxrecv _ => true
  | .spawn _ => true
  | .evput _ => true
  | .evget _ => true
  | .lsync _ => true
  | .logmk _ => true
  | .smovi _ => true
  | .saddi _ => true
  | .ssubi _ => true
  | .smuli _ => true
  | .sandi _ => true
  | .sori _ => true
  | .sxori _ => true
  | .sshli _ => true
  | .sshri _ => true
  | .scmpi _ => true
  | .smini _ => true
  | .smaxi _ => true
  | .slea _ => true
  | .sclz f => f.subop ≠ 1 && f.subop ≠ 2 && f.subop ≠ 3 && f.subop ≠ 4
  | .sctz f => f.subop = 1
  | .spopc f => f.subop = 2
  | .sbrev f => f.subop = 3
  | .sbswap f => f.subop = 4
  | .sext _ => true
  | .sident _ => true
  | .vaddInteger _ => true
  | .vsubInteger _ => true
  | .vmulInteger _ => true
  | .vmulhi _ => true
  | .vmad _ => true
  | .vminInteger _ => true
  | .vmaxInteger _ => true
  | .vabsInteger _ => true
  | .vnegInteger _ => true
  | .vand _ => true
  | .vor _ => true
  | .vxor _ => true
  | .vandn _ => true
  | .vshl _ => true
  | .vshr _ => true
  | .vcmpInteger _ => true
  | .vsel _ => true
  | .vmov _ => true
  | .vdiv _ => true
  | .vrem _ => true
  | .vdot4 _ => true
  | .vclz _ => true
  | .vpopc _ => true
  | .vbrev _ => true
  | .vbfx _ => true
  | .vbfi _ => true
  | .vlaneid _ => true
  | .vqop _ => true
  | .vaddFloat _ => true
  | .vsubFloat _ => true
  | .vmulFloat _ => true
  | .vfma _ => true
  | .vfms _ => true
  | .vfnma _ => true
  | .vminFloat _ => true
  | .vmaxFloat _ => true
  | .vcmpFloat _ => true
  | .vabsFloat _ => true
  | .vnegFloat _ => true
  | .vfclass _ => true
  | .vfdot2 _ => true
  | .vfscale _ => true
  | .vfrint _ => true
  | .vfcopysign _ => true
  | .vrcp _ => true
  | .vrsqrt _ => true
  | .vsqrt _ => true
  | .vexp2 _ => true
  | .vlog2 _ => true
  | .vsin _ => true
  | .vcos _ => true
  | .vtanh _ => true
  | .vcvt _ => true
  | .vqblk _ => true
  | .vqcvt _ => true
  | .vshfl _ => true
  | .vpswap _ => true
  | .vbcast _ => true
  | .vvote _ => true
  | .vscan _ => true
  | .vred _ => true
  | .mclaim _ => true
  | .mfree _ => true
  | .mfill _ => true
  | .mma _ => true
  | .mmas _ => true
  | .mzero _ => true
  | .maccld _ => true
  | .maccst _ => true
  | .mresolve _ => true
  | .mstat _ => true
  | .ld _ => true
  | .st _ => true
  | .tmov _ => true
  | .bvclr _ => true
  | .bvset _ => true
  | .bvtst _ => true
  | .atomAdd _ => true
  | .atomUmin _ => true
  | .atomUmax _ => true
  | .atomSmin _ => true
  | .atomSmax _ => true
  | .atomAnd _ => true
  | .atomOr _ => true
  | .atomXor _ => true
  | .atomExch _ => true
  | .atomCas _ => true
  | .atomFadd _ => true
  | .atomFmin _ => true
  | .atomFmax _ => true
  | .atomLd _ => true
  | .atomSt _ => true
  | .fence _ => true
  | .barsync _ => true
  | .bararv _ => true
  | .pbinit _ => true
  | .pbarv _ => true
  | .pbtx _ => true
  | .pbwait _ => true
  | .waitq _ => true
  | .wake _ => true
  | .qpush _ => true
  | .qpop _ => true
  | .qpopw _ => true
  | .bra _ => true
  | .bsplit _ => true
  | .switch _ => true
  | .join _ => true
  | .brx _ => true
  | .call _ => true
  | .callx _ => true
  | .ret _ => true
  | .lnkw _ => true
  | .exit _ => true
  | .cpy _ => true
  | .gather _ => true
  | .coll _ => true
  | .rwinOpen f => !f.func.getLsbD 0
  | .rwinClose f => f.func.getLsbD 0
  | .rstream _ => true
  | .publish _ => true
  | .rast _ => true
  | .fpost _ => true
  | .fnull _ => true
  | .sample _ => true
  | .mld _ => true
  | .mst _ => true
  | .mkill _ => true
  | .mend _ => true
  | .lineEntry r => r.wf
  | .lineRefetch r => r.wf
  | .portBind core bay => core < 384 && bay < 4
  | .fixedLatencyWriteback _ wid _ => wid < 32
  | .longLatencyCompletion _ wid _ => wid < 32
  | .loadCompletion _ wid _ => wid < 32
  | .mfillCompletion core _ => core < 384
  | .matrixCommandStart core => core < 384
  | .subtileCheck core _ => core < 384
  | .matrixCommandCompletion core => core < 384
  | .mresolveRestore core queue => core < 384 && queue < 5
  | .deferredTrapDelivery _ _ => true
  | .barrierPhaseCompletion _ _ _ => true
  | .engineBytesLand core _ _ => core < 384
  | .engineCommandCompletion core _ => core < 384
  | .followOnEnqueue core _ => core < 384
  | .storeBufferCommit _ => true
  | .writeBufferDrain die bank => die < 4 && bank < 16
  | .glazierRequestService u _ => u.wf
  | .atomicExecution u _ => u.wf
  | .pageWalk die asid _ => die < 4 && asid < 4096
  | .parkedSplitResume r => r.wf
  | .trapEntry r => r.wf
  | .groupRetire _ => true
  | .taskRetire _ => true
  | .groupPlacement _ => true
  | .crewPlacement _ => true
  | .eventRecordAppend part queue => part < 16 && queue < 256
  | .rasterBinning die _ => die < 4
  | .expectationEntryAppend die _ => die < 4
  | .methodValidation pc asid obj method => pc < 512 && asid < 4096 && obj < 1024 && method < 16
  | .packetAccept _ _ lane => lane < 64
  | .methodApplication pc _ pixel => pc < 512 && pixel < 64
  | .publishSwap _ => true
  | .streamReductionAtom core _ _ => core < 384
  | .collectiveCompletion core _ _ => core < 384
  | .switchMerge _ _ _ size _ _ => (size = 4 || size = 8)
  | .reductionWindowDelivery _ => true
  | .groupEnd _ => true
  | .signatureCompare _ => true
  | .shadowLatchReplay core => core < 384
  | .forcedSelfRefreshEntry stack => stack < 8
  | .forcedSelfRefreshExit stack => stack < 8
  | .selfRefreshTimeout stack => stack < 8
  | .thermalThreshold die _ => die < 4
  | .coreFreeze _ => true
  | .capsuleSeal _ => true
  | .mailboxInboundWrite fn mbx _ _ => fn < 17 && mbx < bar0Windows fn && !(fn = 0 && mbx = 4096)
  | .mailboxOutboundRead fn mbx => fn < 17 && mbx.mbx < bar0Windows fn && mbx.len ≤ 256
  | .mailboxStatusRead fn mbx => fn < 17 && mbx.mbx < bar0Windows fn && mbx.len ≤ 256
  | .bar2HostRead fn _ _ => fn < 17
  | .bar2HostWrite fn _ _ => fn < 17
  | .bar2HostAtomic fn _ op size _ _ => fn < 17 && (op = .add || op = .exch || op = .cas) && (size = 4 || size = 8)
  | .apwinWrite _ => true
  | .trinvWrite _ => true
  | .preemptWrite _ => true
  | .preemptSaveComplete _ => true
  | .restoreWrite _ => true
  | .controlBlockWrite _ _ => true
  | .dallumSpawn part mbx => part < 16 && mbx < 256
  | .declareDead part mbx => part < 16 && mbx < 256
  | .declareLive part mbx => part < 16 && mbx < 256
  | .liveMapUpdate pc => pc < 512
  | .forwardEventQueue part mbx => part < 16 && mbx < 256
  | .mailboxInvalidMessage part mbx => part < 16 && mbx < 256
  | .dallumServiceRequest part => part < 16
  | .listCapsules part mbx => part < 16 && mbx < 256
  | .copyCapsule part mbx => part < 16 && mbx < 256
  | .releaseCapsule part mbx => part < 16 && mbx < 256
  | .attest part mbx => part < 16 && mbx < 256
  | .copyCertificates part mbx => part < 16 && mbx < 256
  | .serviceStatus part mbx => part < 16 && mbx < 256
  | .coreSelfTest core _ => core < 384
  | .pseudoChannelMigration pc _ => pc < 512
  | .unassignedOpcode f => !opAssigned f.op.toNat
  | .lostRecords core => core < 384
  | .refresh pc _ => pc < 512
  | .budgetWindowStart => true
  | .dallumWatchdogExpiry => true
  | .cycleCountWrap => true
  | .invalidationComplete => true
  | .retireCore => true
  | .readmitCore => true
  | .recalibratePseudoChannel => true
  | .retirePseudoChannel => true
  | .readmitPseudoChannel => true
  | .setPortLanes => true
  | .stageImage => true
  | .handover => true
  | .handoverTimeout => true
  | .installConfiguration => true
  | .reset => true
  | .resetRequest => true
  | .fullService => true
  | .controlCoreMemoryError => true
  | .resetWaitExpiry => true

end Sys2Proof
end

