-- ==== Sys2Proof/Decode.lean ====
section
/-! DEFINITION. The decoder of the 96-bit instruction word (R7, R26 to R40) and, after it, the encoder. Every 96-bit word
decodes: an opcode that no class chapter assigns decodes to UNASSIGNED_OPCODE, whose meaning is the trap of R39. A field
that an instruction does not allow is no matter of decoding here: the instruction's meaning raises the trap of R41. -/

namespace Sys2Proof

/-- The one way a list of bytes is not an instruction: it holds fewer than twelve (R9). -/
inductive DecodeError where
  | tooShort
  deriving DecidableEq, Repr

/-- The fields of format V (R31) in a word. -/
def vOf (w : IWord) : VFmt :=
  { wait := w.extractLsb' 74 12, dist := w.extractLsb' 70 4, dst := w.extractLsb' 61 9,
    sa := w.extractLsb' 52 9, sb := w.extractLsb' 43 9, sc := w.extractLsb' 34 9,
    post := w.extractLsb' 30 4, guard := w.extractLsb' 25 5, uni := w.extractLsb' 22 3,
    sdst := w.extractLsb' 21 1, round := w.extractLsb' 18 3, type := w.extractLsb' 14 4,
    sat := w.extractLsb' 12 2, func := w.extractLsb' 0 12 }

/-- The fields of format S (R33) in a word. -/
def sOf (w : IWord) : SFmt :=
  { wait := w.extractLsb' 74 12, dist := w.extractLsb' 70 4, dst := w.extractLsb' 61 9,
    sa := w.extractLsb' 52 9, imm := w.extractLsb' 20 32, post := w.extractLsb' 16 4,
    type := w.extractLsb' 12 4, subop := w.extractLsb' 8 4, vec := w.extractLsb' 7 1,
    rsv := w.extractLsb' 0 7 }

/-- The fields of format M (R34) in a word. -/
def mOf (w : IWord) : MFmt :=
  { wait := w.extractLsb' 74 12, dist := w.extractLsb' 70 4, data := w.extractLsb' 61 9,
    base := w.extractLsb' 52 9, offset := w.extractLsb' 32 20, space := w.extractLsb' 29 3,
    obj := w.extractLsb' 19 10, height := w.extractLsb' 17 2, width := w.extractLsb' 15 2,
    size := w.extractLsb' 12 3, post := w.extractLsb' 8 4, guard := w.extractLsb' 3 5,
    mode := w.extractLsb' 0 3 }

/-- The fields of format A (R35) in a word. -/
def aOf (w : IWord) : AFmt :=
  { wait := w.extractLsb' 74 12, dist := w.extractLsb' 70 4, dst := w.extractLsb' 61 9,
    addr := w.extractLsb' 52 9, opb := w.extractLsb' 43 9, opc := w.extractLsb' 34 9,
    space := w.extractLsb' 31 3, scope := w.extractLsb' 28 3, order := w.extractLsb' 25 3,
    post := w.extractLsb' 21 4, guard := w.extractLsb' 16 5, ident := w.extractLsb' 6 10,
    size := w.extractLsb' 3 3, rsv := w.extractLsb' 0 3 }

/-- The fields of format X (R36) in a word. -/
def xOf (w : IWord) : XFmt :=
  { wait := w.extractLsb' 74 12, dist := w.extractLsb' 70 4, obj := w.extractLsb' 60 10,
    slota := w.extractLsb' 55 5, slotb := w.extractLsb' 50 5, acc := w.extractLsb' 47 3,
    pa := w.extractLsb' 38 9, pb := w.extractLsb' 29 9, post := w.extractLsb' 25 4,
    fmta := w.extractLsb' 21 4, fmtb := w.extractLsb' 17 4, prov := w.extractLsb' 10 7,
    func := w.extractLsb' 0 10 }

/-- The fields of format B (R37) in a word. -/
def bOf (w : IWord) : BFmt :=
  { wait := w.extractLsb' 74 12, dist := w.extractLsb' 70 4, loff := w.extractLsb' 44 26,
    tslot := w.extractLsb' 41 3, cond := w.extractLsb' 32 9, trailer := w.extractLsb' 20 12,
    guard := w.extractLsb' 15 5, kind := w.extractLsb' 12 3, func := w.extractLsb' 0 12 }

/-- The fields of format T (R38) in a word. -/
def tOf (w : IWord) : TFmt :=
  { wait := w.extractLsb' 74 12, dist := w.extractLsb' 70 4, trailer := w.extractLsb' 58 12,
    dst := w.extractLsb' 49 9, sa := w.extractLsb' 40 9, sysreg := w.extractLsb' 28 12,
    post := w.extractLsb' 24 4, imm := w.extractLsb' 0 24 }

/-- The bits of an instruction that has no format of its own (R39). -/
def uOf (w : IWord) : UFmt := { op := w.extractLsb' 86 10, bits := w.extractLsb' 0 86 }

/-- The instruction that a 96-bit word holds, by its opcode (R39). -/
def decodeWord (w : IWord) : Instr :=
  match (w.extractLsb' 86 10).toNat with
  | 0x000 => .nop (tOf w)
  | 0x001 => .seal (tOf w)
  | 0x002 =>
    if w.getLsbD 23 then .trapBkpt (tOf w) else .trap (tOf w)
  | 0x003 => .tret (tOf w)
  | 0x004 =>
    let f := tOf w
    if f.sysreg = 7 then .sysrdSticky f else if f.sysreg = 3 then .sysrdLclk f else .sysrd f
  | 0x005 =>
    let f := tOf w
    if f.sysreg = 0 then .syswrExm f else if f.sysreg = 7 then .syswrSticky f
    else if f.sysreg = 5 then .syswrFpctl f else .syswr f
  | 0x006 => .mbxsend (tOf w)
  | 0x007 => .mbxrecv (tOf w)
  | 0x008 => .spawn (tOf w)
  | 0x009 => .evput (tOf w)
  | 0x00A => .evget (tOf w)
  | 0x00B => .lsync (tOf w)
  | 0x00C => .logmk (tOf w)
  | 0x020 => .smovi (sOf w)
  | 0x021 => .saddi (sOf w)
  | 0x022 => .ssubi (sOf w)
  | 0x023 => .smuli (sOf w)
  | 0x024 => .sandi (sOf w)
  | 0x025 => .sori (sOf w)
  | 0x026 => .sxori (sOf w)
  | 0x027 => .sshli (sOf w)
  | 0x028 => .sshri (sOf w)
  | 0x029 => .scmpi (sOf w)
  | 0x02A => .smini (sOf w)
  | 0x02B => .smaxi (sOf w)
  | 0x02C => .slea (sOf w)
  | 0x02D =>
    let f := sOf w
    if f.subop = 1 then .sctz f else if f.subop = 2 then .spopc f else if f.subop = 3 then .sbrev f
    else if f.subop = 4 then .sbswap f else .sclz f
  | 0x02E => .sext (sOf w)
  | 0x02F => .sident (sOf w)
  | 0x040 => .vaddInteger (vOf w)
  | 0x041 => .vsubInteger (vOf w)
  | 0x042 => .vmulInteger (vOf w)
  | 0x043 => .vmulhi (vOf w)
  | 0x044 => .vmad (vOf w)
  | 0x045 => .vminInteger (vOf w)
  | 0x046 => .vmaxInteger (vOf w)
  | 0x047 => .vabsInteger (vOf w)
  | 0x048 => .vnegInteger (vOf w)
  | 0x049 => .vand (vOf w)
  | 0x04A => .vor (vOf w)
  | 0x04B => .vxor (vOf w)
  | 0x04C => .vandn (vOf w)
  | 0x04D => .vshl (vOf w)
  | 0x04E => .vshr (vOf w)
  | 0x04F => .vcmpInteger (vOf w)
  | 0x050 => .vsel (vOf w)
  | 0x051 => .vmov (vOf w)
  | 0x052 => .vdiv (vOf w)
  | 0x053 => .vrem (vOf w)
  | 0x054 => .vdot4 (vOf w)
  | 0x055 => .vclz (vOf w)
  | 0x056 => .vpopc (vOf w)
  | 0x057 => .vbrev (vOf w)
  | 0x058 => .vbfx (vOf w)
  | 0x059 => .vbfi (vOf w)
  | 0x05A => .vlaneid (vOf w)
  | 0x05B => .vqop (vOf w)
  | 0x080 => .vaddFloat (vOf w)
  | 0x081 => .vsubFloat (vOf w)
  | 0x082 => .vmulFloat (vOf w)
  | 0x083 => .vfma (vOf w)
  | 0x084 => .vfms (vOf w)
  | 0x085 => .vfnma (vOf w)
  | 0x086 => .vminFloat (vOf w)
  | 0x087 => .vmaxFloat (vOf w)
  | 0x088 => .vcmpFloat (vOf w)
  | 0x089 => .vabsFloat (vOf w)
  | 0x08A => .vnegFloat (vOf w)
  | 0x08B => .vfclass (vOf w)
  | 0x08C => .vfdot2 (vOf w)
  | 0x08D => .vfscale (vOf w)
  | 0x08E => .vfrint (vOf w)
  | 0x08F => .vfcopysign (vOf w)
  | 0x0C0 => .vrcp (vOf w)
  | 0x0C1 => .vrsqrt (vOf w)
  | 0x0C2 => .vsqrt (vOf w)
  | 0x0C3 => .vexp2 (vOf w)
  | 0x0C4 => .vlog2 (vOf w)
  | 0x0C5 => .vsin (vOf w)
  | 0x0C6 => .vcos (vOf w)
  | 0x0C7 => .vtanh (vOf w)
  | 0x0E0 => .vcvt (vOf w)
  | 0x0E1 => .vqblk (vOf w)
  | 0x0E2 => .vqcvt (vOf w)
  | 0x100 => .vshfl (vOf w)
  | 0x101 => .vpswap (vOf w)
  | 0x102 => .vbcast (vOf w)
  | 0x103 => .vvote (vOf w)
  | 0x104 => .vscan (vOf w)
  | 0x105 => .vred (vOf w)
  | 0x120 => .mclaim (xOf w)
  | 0x121 => .mfree (xOf w)
  | 0x122 => .mfill (xOf w)
  | 0x123 => .mma (xOf w)
  | 0x124 => .mmas (xOf w)
  | 0x125 => .mzero (xOf w)
  | 0x126 => .maccld (xOf w)
  | 0x127 => .maccst (xOf w)
  | 0x128 => .mresolve (xOf w)
  | 0x129 => .mstat (xOf w)
  | 0x140 => .ld (mOf w)
  | 0x141 => .st (mOf w)
  | 0x142 => .tmov (mOf w)
  | 0x143 => .bvclr (mOf w)
  | 0x144 => .bvset (mOf w)
  | 0x145 => .bvtst (mOf w)
  | 0x160 => .atomAdd (aOf w)
  | 0x161 => .atomUmin (aOf w)
  | 0x162 => .atomUmax (aOf w)
  | 0x163 => .atomSmin (aOf w)
  | 0x164 => .atomSmax (aOf w)
  | 0x165 => .atomAnd (aOf w)
  | 0x166 => .atomOr (aOf w)
  | 0x167 => .atomXor (aOf w)
  | 0x168 => .atomExch (aOf w)
  | 0x169 => .atomCas (aOf w)
  | 0x16A => .atomFadd (aOf w)
  | 0x16B => .atomFmin (aOf w)
  | 0x16C => .atomFmax (aOf w)
  | 0x16D => .atomLd (aOf w)
  | 0x16E => .atomSt (aOf w)
  | 0x180 => .fence (aOf w)
  | 0x181 => .barsync (aOf w)
  | 0x182 => .bararv (aOf w)
  | 0x183 => .pbinit (aOf w)
  | 0x184 => .pbarv (aOf w)
  | 0x185 => .pbtx (aOf w)
  | 0x186 => .pbwait (aOf w)
  | 0x187 => .waitq (aOf w)
  | 0x188 => .wake (aOf w)
  | 0x189 => .qpush (aOf w)
  | 0x18A => .qpop (aOf w)
  | 0x18B => .qpopw (aOf w)
  | 0x1A0 => .bra (bOf w)
  | 0x1A1 => .bsplit (bOf w)
  | 0x1A2 => .switch (bOf w)
  | 0x1A3 => .join (bOf w)
  | 0x1A4 => .brx (bOf w)
  | 0x1A5 => .call (bOf w)
  | 0x1A6 => .callx (bOf w)
  | 0x1A7 => .ret (bOf w)
  | 0x1A8 => .lnkw (bOf w)
  | 0x1A9 => .exit (bOf w)
  | 0x1C0 => .cpy (xOf w)
  | 0x1C1 => .gather (xOf w)
  | 0x1C2 => .coll (xOf w)
  | 0x1C3 =>
    let f := xOf w
    if f.func.getLsbD 0 then .rwinClose f else .rwinOpen f
  | 0x1C4 => .rstream (xOf w)
  | 0x1C5 => .publish (xOf w)
  | 0x1C6 => .rast (xOf w)
  | 0x1C7 => .fpost (xOf w)
  | 0x1C8 => .fnull (xOf w)
  | 0x1C9 => .sample (xOf w)
  | 0x1E0 => .mld (vOf w)
  | 0x1E1 => .mst (vOf w)
  | 0x1E2 => .mkill (vOf w)
  | 0x1E3 => .mend (vOf w)
  | _ => .unassignedOpcode (uOf w)

/-- The number that a list of bytes holds, lowest byte first (R7). -/
def natOfBytes : List Byte → Nat
  | [] => 0
  | b :: bs => b.toNat + 256 * natOfBytes bs

/-- The low n bytes of a number, lowest first (R7). -/
def bytesOfNat : Nat → Nat → List Byte
  | 0, _ => []
  | n + 1, v => BitVec.ofNat 8 v :: bytesOfNat n (v / 256)

/-- decode bs: the instruction of the first twelve bytes, and the bytes after them (R9). -/
def decode (bs : List Byte) : Except DecodeError (Instr × List Byte) :=
  if bs.length < 12 then .error .tooShort
  else .ok (decodeWord (BitVec.ofNat 96 (natOfBytes (bs.take 12))), bs.drop 12)

/-- The instruction that the decoder reads from an instruction whose bits are w: the bits above nbits are zero. -/
def decodeTableWord (nbits w : Nat) : Option Instr :=
  match decode (bytesOfNat 12 (w % 2 ^ nbits)) with
  | .ok (i, _) => some i
  | .error _ => none

/-- A word of format V (R31). -/
def vWord (op : BitVec 10) (f : VFmt) : IWord :=
  op ++ f.wait ++ f.dist ++ f.dst ++ f.sa ++ f.sb ++ f.sc ++ f.post ++ f.guard ++ f.uni ++ f.sdst ++ f.round ++ f.type ++ f.sat ++ f.func

/-- A word of format S (R33). -/
def sWord (op : BitVec 10) (f : SFmt) : IWord :=
  op ++ f.wait ++ f.dist ++ f.dst ++ f.sa ++ f.imm ++ f.post ++ f.type ++ f.subop ++ f.vec ++ f.rsv

/-- A word of format M (R34). -/
def mWord (op : BitVec 10) (f : MFmt) : IWord :=
  op ++ f.wait ++ f.dist ++ f.data ++ f.base ++ f.offset ++ f.space ++ f.obj ++ f.height ++ f.width ++ f.size ++ f.post ++ f.guard ++ f.mode

/-- A word of format A (R35). -/
def aWord (op : BitVec 10) (f : AFmt) : IWord :=
  op ++ f.wait ++ f.dist ++ f.dst ++ f.addr ++ f.opb ++ f.opc ++ f.space ++ f.scope ++ f.order ++ f.post ++ f.guard ++ f.ident ++ f.size ++ f.rsv

/-- A word of format X (R36). -/
def xWord (op : BitVec 10) (f : XFmt) : IWord :=
  op ++ f.wait ++ f.dist ++ f.obj ++ f.slota ++ f.slotb ++ f.acc ++ f.pa ++ f.pb ++ f.post ++ f.fmta ++ f.fmtb ++ f.prov ++ f.func

/-- A word of format B (R37). -/
def bWord (op : BitVec 10) (f : BFmt) : IWord :=
  op ++ f.wait ++ f.dist ++ f.loff ++ f.tslot ++ f.cond ++ f.trailer ++ f.guard ++ f.kind ++ f.func

/-- A word of format T (R38). -/
def tWord (op : BitVec 10) (f : TFmt) : IWord :=
  op ++ f.wait ++ f.dist ++ f.trailer ++ f.dst ++ f.sa ++ f.sysreg ++ f.post ++ f.imm

/-- A word whose opcode is unassigned (R39). -/
def uWord (f : UFmt) : IWord := f.op ++ f.bits

/-- The word of an instruction; an event of the machine has none. -/
def encode : Instr → Option IWord
  | .nop f => some (tWord 0x000 f)
  | .seal f => some (tWord 0x001 f)
  | .trap f => some (tWord 0x002 f)
  | .trapBkpt f => some (tWord 0x002 f)
  | .tret f => some (tWord 0x003 f)
  | .sysrd f => some (tWord 0x004 f)
  | .sysrdSticky f => some (tWord 0x004 f)
  | .sysrdLclk f => some (tWord 0x004 f)
  | .syswr f => some (tWord 0x005 f)
  | .syswrExm f => some (tWord 0x005 f)
  | .syswrSticky f => some (tWord 0x005 f)
  | .syswrFpctl f => some (tWord 0x005 f)
  | .mbxsend f => some (tWord 0x006 f)
  | .mbxrecv f => some (tWord 0x007 f)
  | .spawn f => some (tWord 0x008 f)
  | .evput f => some (tWord 0x009 f)
  | .evget f => some (tWord 0x00A f)
  | .lsync f => some (tWord 0x00B f)
  | .logmk f => some (tWord 0x00C f)
  | .smovi f => some (sWord 0x020 f)
  | .saddi f => some (sWord 0x021 f)
  | .ssubi f => some (sWord 0x022 f)
  | .smuli f => some (sWord 0x023 f)
  | .sandi f => some (sWord 0x024 f)
  | .sori f => some (sWord 0x025 f)
  | .sxori f => some (sWord 0x026 f)
  | .sshli f => some (sWord 0x027 f)
  | .sshri f => some (sWord 0x028 f)
  | .scmpi f => some (sWord 0x029 f)
  | .smini f => some (sWord 0x02A f)
  | .smaxi f => some (sWord 0x02B f)
  | .slea f => some (sWord 0x02C f)
  | .sclz f => some (sWord 0x02D f)
  | .sctz f => some (sWord 0x02D f)
  | .spopc f => some (sWord 0x02D f)
  | .sbrev f => some (sWord 0x02D f)
  | .sbswap f => some (sWord 0x02D f)
  | .sext f => some (sWord 0x02E f)
  | .sident f => some (sWord 0x02F f)
  | .vaddInteger f => some (vWord 0x040 f)
  | .vsubInteger f => some (vWord 0x041 f)
  | .vmulInteger f => some (vWord 0x042 f)
  | .vmulhi f => some (vWord 0x043 f)
  | .vmad f => some (vWord 0x044 f)
  | .vminInteger f => some (vWord 0x045 f)
  | .vmaxInteger f => some (vWord 0x046 f)
  | .vabsInteger f => some (vWord 0x047 f)
  | .vnegInteger f => some (vWord 0x048 f)
  | .vand f => some (vWord 0x049 f)
  | .vor f => some (vWord 0x04A f)
  | .vxor f => some (vWord 0x04B f)
  | .vandn f => some (vWord 0x04C f)
  | .vshl f => some (vWord 0x04D f)
  | .vshr f => some (vWord 0x04E f)
  | .vcmpInteger f => some (vWord 0x04F f)
  | .vsel f => some (vWord 0x050 f)
  | .vmov f => some (vWord 0x051 f)
  | .vdiv f => some (vWord 0x052 f)
  | .vrem f => some (vWord 0x053 f)
  | .vdot4 f => some (vWord 0x054 f)
  | .vclz f => some (vWord 0x055 f)
  | .vpopc f => some (vWord 0x056 f)
  | .vbrev f => some (vWord 0x057 f)
  | .vbfx f => some (vWord 0x058 f)
  | .vbfi f => some (vWord 0x059 f)
  | .vlaneid f => some (vWord 0x05A f)
  | .vqop f => some (vWord 0x05B f)
  | .vaddFloat f => some (vWord 0x080 f)
  | .vsubFloat f => some (vWord 0x081 f)
  | .vmulFloat f => some (vWord 0x082 f)
  | .vfma f => some (vWord 0x083 f)
  | .vfms f => some (vWord 0x084 f)
  | .vfnma f => some (vWord 0x085 f)
  | .vminFloat f => some (vWord 0x086 f)
  | .vmaxFloat f => some (vWord 0x087 f)
  | .vcmpFloat f => some (vWord 0x088 f)
  | .vabsFloat f => some (vWord 0x089 f)
  | .vnegFloat f => some (vWord 0x08A f)
  | .vfclass f => some (vWord 0x08B f)
  | .vfdot2 f => some (vWord 0x08C f)
  | .vfscale f => some (vWord 0x08D f)
  | .vfrint f => some (vWord 0x08E f)
  | .vfcopysign f => some (vWord 0x08F f)
  | .vrcp f => some (vWord 0x0C0 f)
  | .vrsqrt f => some (vWord 0x0C1 f)
  | .vsqrt f => some (vWord 0x0C2 f)
  | .vexp2 f => some (vWord 0x0C3 f)
  | .vlog2 f => some (vWord 0x0C4 f)
  | .vsin f => some (vWord 0x0C5 f)
  | .vcos f => some (vWord 0x0C6 f)
  | .vtanh f => some (vWord 0x0C7 f)
  | .vcvt f => some (vWord 0x0E0 f)
  | .vqblk f => some (vWord 0x0E1 f)
  | .vqcvt f => some (vWord 0x0E2 f)
  | .vshfl f => some (vWord 0x100 f)
  | .vpswap f => some (vWord 0x101 f)
  | .vbcast f => some (vWord 0x102 f)
  | .vvote f => some (vWord 0x103 f)
  | .vscan f => some (vWord 0x104 f)
  | .vred f => some (vWord 0x105 f)
  | .mclaim f => some (xWord 0x120 f)
  | .mfree f => some (xWord 0x121 f)
  | .mfill f => some (xWord 0x122 f)
  | .mma f => some (xWord 0x123 f)
  | .mmas f => some (xWord 0x124 f)
  | .mzero f => some (xWord 0x125 f)
  | .maccld f => some (xWord 0x126 f)
  | .maccst f => some (xWord 0x127 f)
  | .mresolve f => some (xWord 0x128 f)
  | .mstat f => some (xWord 0x129 f)
  | .ld f => some (mWord 0x140 f)
  | .st f => some (mWord 0x141 f)
  | .tmov f => some (mWord 0x142 f)
  | .bvclr f => some (mWord 0x143 f)
  | .bvset f => some (mWord 0x144 f)
  | .bvtst f => some (mWord 0x145 f)
  | .atomAdd f => some (aWord 0x160 f)
  | .atomUmin f => some (aWord 0x161 f)
  | .atomUmax f => some (aWord 0x162 f)
  | .atomSmin f => some (aWord 0x163 f)
  | .atomSmax f => some (aWord 0x164 f)
  | .atomAnd f => some (aWord 0x165 f)
  | .atomOr f => some (aWord 0x166 f)
  | .atomXor f => some (aWord 0x167 f)
  | .atomExch f => some (aWord 0x168 f)
  | .atomCas f => some (aWord 0x169 f)
  | .atomFadd f => some (aWord 0x16A f)
  | .atomFmin f => some (aWord 0x16B f)
  | .atomFmax f => some (aWord 0x16C f)
  | .atomLd f => some (aWord 0x16D f)
  | .atomSt f => some (aWord 0x16E f)
  | .fence f => some (aWord 0x180 f)
  | .barsync f => some (aWord 0x181 f)
  | .bararv f => some (aWord 0x182 f)
  | .pbinit f => some (aWord 0x183 f)
  | .pbarv f => some (aWord 0x184 f)
  | .pbtx f => some (aWord 0x185 f)
  | .pbwait f => some (aWord 0x186 f)
  | .waitq f => some (aWord 0x187 f)
  | .wake f => some (aWord 0x188 f)
  | .qpush f => some (aWord 0x189 f)
  | .qpop f => some (aWord 0x18A f)
  | .qpopw f => some (aWord 0x18B f)
  | .bra f => some (bWord 0x1A0 f)
  | .bsplit f => some (bWord 0x1A1 f)
  | .switch f => some (bWord 0x1A2 f)
  | .join f => some (bWord 0x1A3 f)
  | .brx f => some (bWord 0x1A4 f)
  | .call f => some (bWord 0x1A5 f)
  | .callx f => some (bWord 0x1A6 f)
  | .ret f => some (bWord 0x1A7 f)
  | .lnkw f => some (bWord 0x1A8 f)
  | .exit f => some (bWord 0x1A9 f)
  | .cpy f => some (xWord 0x1C0 f)
  | .gather f => some (xWord 0x1C1 f)
  | .coll f => some (xWord 0x1C2 f)
  | .rwinOpen f => some (xWord 0x1C3 f)
  | .rwinClose f => some (xWord 0x1C3 f)
  | .rstream f => some (xWord 0x1C4 f)
  | .publish f => some (xWord 0x1C5 f)
  | .rast f => some (xWord 0x1C6 f)
  | .fpost f => some (xWord 0x1C7 f)
  | .fnull f => some (xWord 0x1C8 f)
  | .sample f => some (xWord 0x1C9 f)
  | .mld f => some (vWord 0x1E0 f)
  | .mst f => some (vWord 0x1E1 f)
  | .mkill f => some (vWord 0x1E2 f)
  | .mend f => some (vWord 0x1E3 f)
  | .lineEntry _ => none
  | .lineRefetch _ => none
  | .portBind _ _ => none
  | .fixedLatencyWriteback _ _ _ => none
  | .longLatencyCompletion _ _ _ => none
  | .loadCompletion _ _ _ => none
  | .mfillCompletion _ _ => none
  | .matrixCommandStart _ => none
  | .subtileCheck _ _ => none
  | .matrixCommandCompletion _ => none
  | .mresolveRestore _ _ => none
  | .deferredTrapDelivery _ _ => none
  | .barrierPhaseCompletion _ _ _ => none
  | .engineBytesLand _ _ _ => none
  | .engineCommandCompletion _ _ => none
  | .followOnEnqueue _ _ => none
  | .storeBufferCommit _ => none
  | .writeBufferDrain _ _ => none
  | .glazierRequestService _ _ => none
  | .atomicExecution _ _ => none
  | .pageWalk _ _ _ => none
  | .parkedSplitResume _ => none
  | .trapEntry _ => none
  | .groupRetire _ => none
  | .taskRetire _ => none
  | .groupPlacement _ => none
  | .crewPlacement _ => none
  | .eventRecordAppend _ _ => none
  | .rasterBinning _ _ => none
  | .expectationEntryAppend _ _ => none
  | .methodValidation _ _ _ _ => none
  | .packetAccept _ _ _ => none
  | .methodApplication _ _ _ => none
  | .publishSwap _ => none
  | .streamReductionAtom _ _ _ => none
  | .collectiveCompletion _ _ _ => none
  | .switchMerge _ _ _ _ _ _ => none
  | .reductionWindowDelivery _ => none
  | .groupEnd _ => none
  | .signatureCompare _ => none
  | .shadowLatchReplay _ => none
  | .forcedSelfRefreshEntry _ => none
  | .forcedSelfRefreshExit _ => none
  | .selfRefreshTimeout _ => none
  | .thermalThreshold _ _ => none
  | .coreFreeze _ => none
  | .capsuleSeal _ => none
  | .mailboxInboundWrite _ _ _ _ => none
  | .mailboxOutboundRead _ _ => none
  | .mailboxStatusRead _ _ => none
  | .bar2HostRead _ _ _ => none
  | .bar2HostWrite _ _ _ => none
  | .bar2HostAtomic _ _ _ _ _ _ => none
  | .apwinWrite _ => none
  | .trinvWrite _ => none
  | .preemptWrite _ => none
  | .preemptSaveComplete _ => none
  | .restoreWrite _ => none
  | .controlBlockWrite _ _ => none
  | .dallumSpawn _ _ => none
  | .declareDead _ _ => none
  | .declareLive _ _ => none
  | .liveMapUpdate _ => none
  | .forwardEventQueue _ _ => none
  | .mailboxInvalidMessage _ _ => none
  | .dallumServiceRequest _ => none
  | .listCapsules _ _ => none
  | .copyCapsule _ _ => none
  | .releaseCapsule _ _ => none
  | .attest _ _ => none
  | .copyCertificates _ _ => none
  | .serviceStatus _ _ => none
  | .coreSelfTest _ _ => none
  | .pseudoChannelMigration _ _ => none
  | .unassignedOpcode f => some (uWord f)
  | .lostRecords _ => none
  | .refresh _ _ => none
  | .budgetWindowStart => none
  | .dallumWatchdogExpiry => none
  | .cycleCountWrap => none
  | .invalidationComplete => none
  | .retireCore => none
  | .readmitCore => none
  | .recalibratePseudoChannel => none
  | .retirePseudoChannel => none
  | .readmitPseudoChannel => none
  | .setPortLanes => none
  | .stageImage => none
  | .handover => none
  | .handoverTimeout => none
  | .installConfiguration => none
  | .reset => none
  | .resetRequest => none
  | .fullService => none
  | .controlCoreMemoryError => none
  | .resetWaitExpiry => none

/-- The bytes of an instruction in memory, lowest address first (R7, R9). -/
def encodeBytes (i : Instr) : List Byte :=
  match encode i with
  | some w => bytesOfNat 12 w.toNat
  | none => []

end Sys2Proof
end

