-- ==== Sys2Proof/Config.lean ====
section
/-! DEFINITION. What an implementation fixes and the manual does not give. Each constant has no body: no proof can see its
value, and what is proved holds whatever it is (log 3, log 7, log 8). -/

namespace Sys2Proof.Config

/-- A value that the spec leaves open, by the counter of free values (log 3). -/
opaque freeValue : Nat → BitVec 64

/-- What TVAL holds where a rule names a trap and states no TVAL for it, by the cycle and the opcode (log 3). -/
opaque unstatedTval : Nat → Nat → BitVec 64

/-- What the trust unit's one-time storage holds from manufacture on: the seed of the identity key (R363; log 7). -/
opaque oneTimeSeed : Vector Byte 32

/-- ML-DSA-44 KeyGen: the public and the private key of a seed (R363; log 7). -/
opaque mlDsaKeyGen : Vector Byte 32 → Vector Byte 1312 × Vector Byte 2560

/-- The ML-DSA-44 signature of a digest by a private key (R361, R363; log 7). -/
opaque mlDsaSign : Vector Byte 2560 → List Byte → Vector Byte 2420

/-- Whether a signature of a digest verifies under a public key (R366, R367; log 7). -/
opaque mlDsaVerify : List Byte → List Byte → List Byte → Bool

/-- Zilward's root key (R368) and provisioning key (R367), whose digests are in the ROM (log 7). -/
opaque rootKey : Vector Byte 1312
opaque provisioningKey : Vector Byte 1312

/-- SHA3-256 of the boot ROM (R365; log 7). -/
opaque bootRomDigest : Vector Byte 32

/-- The identity certificate and Zilward's intermediate certificate, DER-encoded (R365; log 7). -/
opaque certificates : List Byte

/-- The store signature of a redundant member: a 64-bit function of the buffered atoms with their masks and addresses and
of the commit point's own operands (R349; log 7). -/
opaque storeSignature : List (Nat × Byte) → List Nat → BitVec 64

/-- The length of a Dallum image in memory, from its first 64 bytes (R369; log 7). -/
opaque imageLength : List Byte → Nat

/-- The format version of the handover block that a Dallum image writes, and the body that it writes at a cycle (R372; log 7). -/
opaque handoverFormat : List Byte → Nat
opaque handoverBody : List Byte → Nat → List Byte

/-- Whether a Dallum image accepts a handover block (R372; log 7). -/
opaque acceptsHandover : List Byte → List Byte → Bool

/-- Whether a unit fails its training or test in bring-up, by the counter of free values, the kind (0 a pseudo-channel, 1 a link of the
capacity tier, 2 a Tercon port) and the number (R373; log 137). -/
opaque trainingFails : Nat → Nat → Nat → Bool

/-- The 64 KiB frames that have bytes in a DRAM row of a pseudo-channel (R218; log 8). -/
opaque rowFrames : Nat → Nat → List Nat

/-- The DRAM row of its pseudo-channel in which a byte of HBM lies, by its physical address (R216; log 8). -/
opaque rowOf : Nat → Nat

/-- Whether another device's owner map refuses an access to its HBM: the device, the address there, the partition, a write (R323, R327;
log 123). -/
opaque peerRefuses : Nat → Nat → Nat → Bool → Bool

end Sys2Proof.Config
end

