-- ==== Sys2Proof/Machine/State.lean ====
section
/-! DEFINITION. The state of the MB2960 as plain data: everything the manual gives the machine, with the moves still to come
(log 2). Registers, flags and units that hold their placement value are not listed; every accessor supplies that value. -/

namespace Sys2Proof.Machine

/-! ## Splits and warps (chapters 01, 02, 07, 08, 19) -/

/-- Whose step is being taken: nobody's, a split's, or a method program's on a glazier (R187). -/
inductive Agent where
  | idle
  | split (r : SplitRef)
  | method (pc : Nat)
  deriving DecidableEq, Repr

/-- A bypass latch (R24): its kind, its lanes (one for a scalar), and the cycle from which a source may read it. -/
structure Latch where
  vec   : Bool
  vals  : List Word
  ready : Nat
  deriving DecidableEq, Repr

/-- A run (R17): instructions so far, the program counter of the first, latches b0 first, and the flags posted. -/
structure Run where
  count   : Nat := 0
  start   : DWord := 0
  latches : List Latch := []
  posted  : BitVec 12 := 0
  broken  : Bool := false                 -- the pair whose second is next breaks a rule with its first (R12, R201)
  deriving DecidableEq, Repr

/-- An entry of the synchronised-with table (R235). -/
structure SyncEntry where
  bench  : Bool
  writer : Nat
  count  : Nat
  deriving DecidableEq, Repr

/-- An atom that an atomic has read, noted for the next acquire fence of its lanes (R235): the atomic's number, and the lanes that have
had no such fence since. -/
structure Noted where
  id    : Nat
  lanes : Mask
  entry : SyncEntry
  deriving DecidableEq, Repr

/-- A trap to take: its code, the bits of CAUSE above the code, TVAL, EPC, and whether it is deferred (R333). -/
structure TrapInfo where
  cause    : Nat
  upper    : BitVec 24 := 0
  tval     : DWord := 0
  epc      : DWord := 0
  deferred : Bool := false
  note     : Option (Nat × Nat × Nat) := none   -- a Scrivener record to write with it: kind, payload, physical address
  offs     : Bool := false             -- TVAL is an offset in a bench, a shop or a yard, no virtual address (R354)
  core     : Nat := 0                  -- of a deferred trap, the core on which its operation ran (R345)
  deriving DecidableEq, Repr

/-- A trap frame (R337). floors gives each lane's stack depth after the entry's pushes (R174, R336). -/
structure TrapFrame where
  pc     : DWord
  held   : Mask
  exm    : Mask
  dix    : DWord
  wb     : Nat
  frame  : Option Nat
  chain  : List Nat
  preds  : FMap Mask
  run    : Option Run
  slide  : Nat
  floors : FMap Nat
  deriving DecidableEq, Repr

/-- A split (R165, R195, R206). lastIssue is 16 + the cycle of the last issue, 0 before any. READY, BOUND, PARKED and HANDLER are read off bound, parked and handler. -/
structure Split where
  pc        : DWord := 0
  held      : Mask := 0
  exm       : Mask := 0
  dix       : DWord := 0
  wb        : Nat := 0
  frame     : Option Nat := none
  chain     : List Nat := []
  bound     : Option Nat := none
  parked    : Option DWord := none
  handler   : Option Nat := none
  cause     : Word := 0
  tval      : DWord := 0
  epc       : DWord := 0
  run       : Run := {}
  nextIssue : Nat := 0
  lastIssue : Nat := 0
  lastBind  : Nat := 0
  prio      : Bool := false
  second    : Bool := false
  line      : Option DWord := none
  text      : List Byte := []
  via       : Option DWord := none
  trap      : Option TrapInfo := none
  noWatch   : Bool := false
  fenceRel  : Option Nat := none          -- the scope of a release fence whose release is still to come (R226)
  deriving DecidableEq, Repr

/-- A frame: the record of a divergence that has not reconverged (R167, R169). arrivals holds, for each split that has parked, its
lanes and the program counter after its JOIN: resume is that of the arrival with expect's lowest lane (log 26). -/
structure Frame where
  token      : Byte
  wb         : Nat
  expect     : Mask
  arrived    : Mask := 0
  arrivedExm : Mask := 0
  arrivals   : List (Mask × DWord) := []
  dixmax     : DWord := 0
  parent     : Option Nat := none
  handler    : Option Nat := none
  fenceRel   : Option Nat := none        -- the scope of a release fence of the splits that have parked (R224, R226)
  deriving DecidableEq, Repr

/-- An entry of the split table that is not free (R165). -/
inductive Entry where
  | split (x : Split)
  | frame (f : Frame)
  deriving DecidableEq, Repr

/-- One group of a divided split (R170): via is the transfer that its program counter is an explicit target of (R13); fall says that it
falls through to the second slot of a pair whose first is the dividing instruction (R12). -/
structure SGroup where
  held : Mask
  exm  : Mask
  pc   : DWord
  via  : Option DWord := none
  fall : Bool := false
  deriving DecidableEq, Repr

/-- A serial record (R170). reached and reachedExm are the lanes of the groups that have reached the JOIN; again says that
the same JOIN is evaluated once more after it (a record of BRX or RET). -/
structure SerialRec where
  rest       : List SGroup
  held       : Mask
  exm        : Mask
  dix        : DWord
  dixmax     : DWord := 0
  token      : Option Byte := none
  wb         : Nat := 0
  again      : Bool := false
  reached    : Mask := 0
  reachedExm : Mask := 0
  joinPc     : DWord := 0               -- the program counter after the JOIN that groups have reached
  deriving DecidableEq, Repr

/-- A register write that has not landed (R23): lanes of a physical vector register, a scalar register, or lanes of a
predicate. -/
inductive RegWrite where
  | vec (phys : Nat) (mask : Mask) (vals : List Word)
  | sca (i : Nat) (val : Word)
  | pred (k : Nat) (mask bits : Mask)
  deriving DecidableEq, Repr

/-- What an outstanding operation waits for. -/
inductive PendKind where
  | fixed                                  -- FIXED_LATENCY_WRITEBACK at its cycle (R23)
  | long                                   -- LONG_LATENCY_COMPLETION at its cycle
  | load                                   -- LOAD_COMPLETION when every piece has arrived (R137)
  | atomic (rets : Bool)                   -- when every lane's operation has been performed (R146)
  | store (space : Nat)                    -- ST and TMOV whose bytes are in place
  | fence (order scope commit : Nat)       -- R154
  | commit (c : Nat)                       -- when the commit has been performed
  | barrier (crew : Bool) (bar : Nat)      -- R155
  | pbwait (addr : Nat) (parity : Bool)    -- R158
  | waiter (u : UnitRef) (addr : Nat)      -- R160, R163
  | posts                                  -- FPOST and FNULL: lanes not yet accepted (R267)
  | lsync                                  -- R188
  | spawn (tcb commit reg : Nat)           -- R188: the commit first, then the TCB is handed over
  | engine                                 -- a matrix, copy-engine or engine command completes it
  deriving DecidableEq, Repr

/-- Where a loaded value goes: n bytes from key on, to a lane of a physical vector register or to a scalar register. -/
structure LoadItem where
  key    : Nat
  n      : Nat
  sx     : Bool := false
  scalar : Bool := false
  reg    : Nat
  lane   : Nat := 0
  deriving DecidableEq, Repr

/-- An outstanding operation of a warp (R21, R23). left counts the pieces at work in other units. -/
structure Pend where
  id     : Nat
  kind   : PendKind
  ent    : Nat
  lanes  : Mask
  kin    : Mask := 0                   -- the lanes whose earlier operations precede it in program order (R224)
  due    : Nat := 0
  left   : Nat := 0
  flag   : Option Nat := none
  writes : List RegWrite := []
  sticky : Word := 0
  items  : List LoadItem := []
  got    : FMap Byte := []
  bad    : Option DWord := none
  offs   : Bool := false               -- bad is an offset in a bench, a shop or a yard
  dead   : Option DWord := none
  acq    : Bool := false
  cover  : Option Nat := none          -- the commit that takes what TMOVs before it still put into the store buffer (R148, R154, R225)
  reads  : Bool := false               -- a load or a returning atomic in a scratchpad, for which an acquire fence waits (R154)
  view   : Option (Nat × Nat × Nat) := none  -- the published copy that a load reads: object, address, length (R249)
  hold   : Option Nat := none          -- a scratchpad space that the split's accesses wait for
  twin   : Option (Nat × Nat) := none  -- the other member's group and operation (R350)
  sync   : Bool := false               -- a synchronising operation of deterministic mode (R302)
  deriving DecidableEq, Repr

/-- The tag of a scalar register in deterministic mode (R196): an entry, or a frame's entry marked closed. -/
structure Tag where
  entry  : Option Nat
  closed : Bool
  deriving DecidableEq, Repr

/-- A warp (R61, R189, R194, R206). -/
structure Warp where
  width    : Nat := 32
  nregs    : Nat := 16
  bay      : Nat := 0
  slot     : Nat := 0
  vregs    : FMap Word := []           -- physical register × 64 + lane; zero at placement
  preds    : FMap Mask := []
  sregs    : FMap Word := []
  flags    : FMap Nat := []
  table    : FMap Entry := []
  records  : FMap SerialRec := []
  tframes  : FMap TrapFrame := []
  seed     : DWord := 0
  fpctl    : Word := 0
  thr      : Word := 0x7F800000
  sticky   : Word := 0
  landed   : Word := 0                 -- what landed in STICKY in this cycle (R71)
  trapbase : DWord := 0
  mbx      : Option Nat := none        -- the mailbox last named, which MBXSTAT describes
  depth    : FMap Nat := []            -- bytes on each lane's stack
  spill    : Nat := 0                  -- spill base in the task's yard allocation
  tags     : FMap Tag := []
  relCount : Nat := 0
  sync     : List SyncEntry := []
  pend     : List Pend := []
  noted    : List Noted := []          -- what its atomics have read, for acquire fences to come (R235)
  issued   : Nat := 0                  -- instructions issued, counted for a redundant pair (R349)
  retired  : Bool := false
  deriving DecidableEq, Repr

/-! ## Groups, crews, tasks (chapters 05, 06, 08, 10, 16, 19) -/

/-- The stamp of a 32-byte atom (R233), with what makes it current (R238): the task and the allocation's phase. -/
structure Stamp where
  writer : Nat
  count  : Nat
  task   : Nat
  phase  : Nat
  deriving DecidableEq, Repr

/-- An arrival at a barrier (R156). -/
structure Arrival where
  gid   : Nat
  wid   : Nat
  lanes : Mask
  cnt   : Nat
  deriving DecidableEq, Repr

/-- A barrier (R155): the count given with the first arrival of the open phase (0: every member), and the arrivals. -/
structure Barrier where
  govern  : Option Nat := none
  splits  : List Arrival := []         -- lanes whose splits have issued an arrival in the open phase
  arrived : List Arrival := []         -- warps, or groups (wid 0), that have arrived, with their release counts
  phase  : Nat := 0
  deriving DecidableEq, Repr

/-- An operand slot (R108, R111): state code, readers, physical slot, toggle estimate. -/
structure Slot where
  state    : Nat := 0
  readers  : Nat := 0
  estimate : Nat := 0
  phys     : Nat := 0
  deriving DecidableEq, Repr

/-- A tile (R112, R124): state code, recorded predicate register, counters. -/
structure Tile where
  state : Nat := 0
  pred  : Nat := 0
  ovf   : Nat := 0
  nan   : Nat := 0
  deriving DecidableEq, Repr

/-- A deferred trap (R120, R341): the operation that raised it (R339, R340), the lanes of its split at issue and, while provisional, the
tile it waits on. -/
structure Deferred where
  wid   : Nat
  pid   : Nat
  lanes : Mask
  info  : TrapInfo
  tile  : Option Nat := none
  deriving DecidableEq, Repr

/-- A buffered byte of the store buffer (R347), with its virtual address and the count of R233 at the store's issue. -/
structure SbByte where
  val   : Byte
  va    : Nat
  unit  : UnitRef
  count : Nat
  deriving DecidableEq, Repr

/-- One lane's operation of an atomic: the place's address, the virtual address, operand and second operand. -/
structure AtomLane where
  lane : Nat
  addr : Nat
  va   : Nat
  b    : Nat
  c    : Nat
  deriving DecidableEq, Repr

/-- An atomic on its way to its place (R145 to R149). -/
structure AtomSpec where
  op    : AtomOp
  size  : Nat
  rets  : Bool
  acq   : Bool
  rel   : Bool
  lanes : List AtomLane
  count : Nat
  deriving DecidableEq, Repr

/-- An effect held until retirement in deterministic mode (R304). -/
inductive Held where
  | atomic (parts : List (UnitRef × AtomSpec))
  | publish (obj : Nat)
  | spawn (tcb : Nat)
  deriving DecidableEq, Repr

/-- A write in a die's write buffer, or taken by a commit and waiting for room there (R244). -/
structure WbEntry where
  u     : UnitRef
  bank  : Nat
  bytes : FMap SbByte
  atom  : Option AtomSpec := none
  gid   : Nat
  pid   : Option (Nat × Nat) := none   -- warp and operation it completes
  cid   : Nat
  task  : Nat
  group : Nat
  cmd   : Bool := false                -- a command's write, which belongs to no commit
  agent : Option (Nat × Mask) := none  -- the warp and the lanes of the split that made the commit (R245)
  deriving DecidableEq, Repr

/-- A resident group (R190, R206). member: 0 alone, 1 leader, 2 trailer (R348). -/
structure Group where
  task      : Nat
  index     : Nat
  core      : Nat
  crew      : Nat
  member    : Nat := 0
  pair      : Option Nat := none
  nwarps    : Nat := 1
  benchBase : Nat := 0
  benchSize : Nat := 0
  spillSlot : Nat := 0
  slotCount : Nat := 0
  slots     : FMap Slot := []
  tileCount : Nat := 0
  tileBase  : Nat := 0
  tiles     : FMap Tile := []
  barCount  : Nat := 0
  bars      : FMap Barrier := []
  sbuf      : FMap SbByte := []
  draining  : List WbEntry := []
  held      : List Held := []
  relCount  : Nat := 0
  deferred  : List Deferred := []
  benchPhase : Nat := 0
  stopped   : Bool := false            -- issues nothing: saving, ending or at a compare point
  pbOpen    : FMap (List SyncEntry) := []  -- by barrier word: who arrived or counted bytes in its phase (R235)
  pbDone    : FMap (List SyncEntry) := []  -- and in the phase before
  atCommit  : Option (List Nat) := none -- a redundant member at its commit point (R349)
  commitBy  : Option (Nat × Nat) := none   -- the warp and the entry whose instruction is the commit point
  agreed    : Bool := false                -- the pair's signatures matched there: that instruction may issue (R350)
  forced    : Bool := false                -- that commit point is no instruction of its own (R312, R318, R347)
  differs   : Option Nat := none           -- the cycle in which they differed (R377)
  ckBase    : Nat := 0                     -- a redundant leader's checkpoint area in its die's yard (R348)
  ckSize    : Nat := 0
  placed    : Option Nat := none           -- the cycle of its placement
  deriving DecidableEq, Repr

/-- A resident crew (R192, R343). -/
structure Crew where
  task     : Nat
  groups   : List Nat
  cluster  : Nat
  shopBase : Nat := 0
  shopSize : Nat := 0
  bars     : FMap Barrier := []
  phase    : Nat := 0
  exposed  : Bool := false
  relaunch : Nat := 0
  ending   : Option Nat := none        -- the cause that ends it (R342)
  again    : Bool := false             -- ended for relaunch
  deriving DecidableEq, Repr

inductive MKind where
  | mma | mmas | mzero | maccld | maccst | mresolve
  deriving DecidableEq, Repr

/-- A matrix command (R126). -/
structure MCmd where
  id     : Nat
  kind   : MKind
  gid    : Nat
  wid    : Nat
  lanes  : Mask
  flag   : Option Nat
  slotA  : Nat := 0                    -- physical slots and tile
  slotB  : Nat := 0
  lslotA : Nat := 0                    -- the group's numbers
  lslotB : Nat := 0
  tile   : Nat := 0
  fmta   : Nat := 0
  fmtb   : Nat := 0
  z      : Bool := false
  rows   : Nat := 128
  cols   : Nat := 128
  kext   : Nat := 0
  prov   : Bool := false
  first  : Bool := false               -- the first provisional command of its tile (R124)
  clear  : Bool := false
  addr   : Nat := 0
  pitch  : Nat := 0
  form   : Nat := 0
  rnd    : Nat := 0
  ovtrap : Bool := false
  warn   : Bool := false
  commit : Bool := false
  snap   : Bool := false               -- a discard that has a snapshot to restore
  needs  : List Nat := []              -- fills of its slots that had not completed at its issue
  pid    : Nat := 0                    -- the operation it completes
  count  : Nat := 0
  sub    : Nat := 0                    -- next subtile
  ovfs   : List (Nat × Nat) := []      -- elements that overflowed, row and column, of the subtiles written
  nans   : Nat := 0
  reran  : Bool := false
  fatal  : Option Nat := none
  badMask : Option Nat := none
  ends   : Nat := 0                    -- the cycle its subtiles count from, then that of its completion
  passed : Nat := 0                    -- commands started ahead of it while it was an eligible head (R128)
  deriving DecidableEq, Repr

/-- The kinds of copy-engine and engine command. -/
inductive EKind where
  | tmov | mfill | cpy | gather | coll | rwinOpen | rwinClose | rstream | rast | publish | sample
  deriving DecidableEq, Repr

/-- A command of the copy engine or of another engine (R142, R177 to R186). pos counts the bytes moved, or is 1 once the command
has done its work; stage counts the signals of R178 given; of a GATHER, total is the bytes of a row and hdrA the index list. -/
structure ECmd where
  id     : Nat
  kind   : EKind
  gid    : Nat
  wid    : Nat
  lanes  : Mask
  pid    : Nat
  obj    : Nat := 0
  entry  : List Byte := []             -- the object entry as read at issue (R313)
  block  : List Byte := []
  src    : Nat := 0                    -- source space: 0 bench, 1 shop, 2 yard, 3 mem, 4 published view
  dst    : Nat := 0                    -- destination: 0 to 3 as spaces, 4 draft, 5 slot
  srcA   : Nat := 0
  dstA   : Nat := 0
  hdrA   : Nat := 0
  hdrLen : Nat := 0
  len    : Nat := 0
  pitch  : Nat := 0
  slot   : Nat := 0
  lslot  : Nat := 0
  fmta   : Nat := 0
  sp     : Bool := false
  pos    : Nat := 0
  view   : Option Nat := none          -- the published address fixed at the first beat (R249)
  follow : Option Nat := none          -- a follow-on's 96-bit word
  count  : Nat := 0
  warn   : Bool := false
  fault  : Option TrapInfo := none
  part   : Nat := 0
  asid   : Nat := 0
  total  : Nat := 0
  cid    : Nat := 0
  stage  : Nat := 0
  due    : Nat := 0                    -- a fill lands no earlier
  blk    : Nat := 0                    -- the bench address of its command block
  needs  : List Nat := []              -- readers of its slot that had not completed at its issue (R108)
  unw    : Option Nat := none          -- the lowest unwritten bench address that it has read in warning mode (R212)
  bad    : Option Nat := none          -- the lowest poisoned address that it has read (R344)
  deriving DecidableEq, Repr

/-- A saved crew (R319): its groups, their warps by the group's position, the bytes and stamps of their units, all at addresses
relative to their allocations. -/
structure Saved where
  crew   : Crew
  groups : List Group
  warps  : List (Nat × Nat × Warp)
  bytes  : FMap Byte
  stamps : FMap Stamp := []
  cmds   : List (Nat × MCmd) := []     -- matrix commands that have not completed, with their queues
  moves  : List ECmd := []             -- TMOVs that a forced commit point has stopped (R347)
  deriving DecidableEq, Repr

/-- Where a task stands between its spawn and its retirement (R289 to R298). -/
inductive TaskStage where
  | waiting        -- its predecessor count is not zero
  | locks          -- queued, waiting for its keys (R294)
  | granted        -- with the dispatcher
  | done
  deriving DecidableEq, Repr

/-- A task (R287): the TCB as it was checked, and what has become of its groups. -/
structure Task where
  tid      : Nat
  part     : Nat
  asid     : Nat
  tcb      : Nat
  image    : List Byte
  stage    : TaskStage := .waiting
  order    : Nat := 0                  -- its place in grant order
  next     : Nat := 0                  -- lowest group not placed
  redo     : List Nat := []            -- groups to be placed anew (R343)
  redoFrom : List Nat := []            -- clusters to avoid in that: group × 64 + cluster
  redoCnt  : FMap Nat := []
  retired  : Nat := 0
  nextRet  : Nat := 0
  yard     : FMap Nat := []            -- allocation base on each die
  spills   : FMap Nat := []            -- die × 1024 + slot in use: the group
  yardPhase : Nat := 0
  ended    : Option Nat := none
  saved    : List Saved := []
  savedYard : FMap Byte := []
  savedStamps : FMap Stamp := []
  ctx      : Nat := 0                  -- the context area that holds it
  ctxLen   : Nat := 0                  -- the bytes that its context takes there (R319)
  succs    : List Nat := []            -- TCB addresses of the successors that it released
  saving   : Bool := false
  checkpt  : FMap Saved := []          -- by group: the last checkpoint of a redundant pair (R350)
  mism     : FMap Nat := []            -- and its successive mismatches (R352)
  after    : List Nat := []            -- tasks that retired before it in the chain of its predecessors (R270)
  keysFrom : List Nat := []            -- tasks that freed a key that it was granted (R270)
  deriving DecidableEq, Repr

/-! ## Matrix array and copy engine (chapters 05, 07) -/

/-- A core (R3, R126, R129, R356). -/
structure Core where
  queues  : FMap (List MCmd) := []
  running : Option (Nat × MCmd) := none
  arrayFrom : Nat := 0                 -- the first cycle in which the array can start a command (R126)
  finishing : List MCmd := []          -- off the array, completion pending
  used    : Nat := 0
  engine  : List ECmd := []
  ports   : FMap SplitRef := []        -- bay × 2 + port
  busy    : FMap (Nat × Nat) := []     -- bay × 16 + unit: the cycle up to which a 64-lane warp holds it, and that warp (R61)
  ring    : List (BitVec 128) := []    -- newest first
  lost    : Nat := 0
  ringAt  : Option Nat := none         -- the cycle in which a record was last stored
  frozen  : Option Nat := none         -- the fatal event that froze it
  replays : Nat := 0
  recent  : List Nat := []             -- cycles of the replays of the last 2^20 cycles
  stall   : Nat := 0                   -- the cycle up to which a replay stalls it (R346)
  owes    : Bool := false              -- the ring has resumed and its lost record is still to come (R360)
  retiring : Bool := false
  deriving DecidableEq, Repr

/-! ## Glaziers and the other places (chapters 06, 09, 12) -/

/-- A piece of a read: where its bytes go among the operation's bytes, and where they come from. -/
structure Piece where
  key  : Nat
  addr : Nat
  va   : Nat
  n    : Nat
  deriving DecidableEq, Repr

/-- A waiting or queue instruction on its way to a mem address (R160, R163). -/
inductive SyncOp where
  | waitq (size val : Nat)
  | wake (n : Nat)
  | qpush (val : Nat)
  | qpop
  | qpopw
  deriving DecidableEq, Repr

structure SyncReq where
  op   : SyncOp
  addr : Nat
  va   : Nat
  reg  : Nat
  count : Nat                          -- the counts that its unit held at issue (R233)
  ring : Nat := 0                      -- the bytes from va on that it may read (R163, R225)
  deriving DecidableEq, Repr

/-- A request at a place (R140, R216): a read of pieces, an atomic, or a waiting or queue instruction. -/
structure Req where
  gid    : Nat
  wid    : Nat
  pid    : Nat
  pieces : List Piece := []
  atom   : Option AtomSpec := none
  sync   : Option SyncReq := none
  after  : Option Nat := none          -- a commit that must be performed first
  part   : Nat := 0
  sectors : Nat := 0                   -- how many sectors it moves (R140)
  arrived : Option Nat := none         -- the number of its arrival; none while its core's send queue holds it (R217, R246)
  passed : Nat := 0                    -- younger requests started ahead of it (R216)
  deriving DecidableEq, Repr

/-- A sleeping split (R160, R163). queue: it waits in QPOPW. -/
structure Waiter where
  addr  : Nat
  gid   : Nat
  wid   : Nat
  pid   : Nat
  reg   : Nat
  queue : Bool
  deriving DecidableEq, Repr

/-- An expectation entry (R261). -/
structure ExpEntry where
  id     : Nat
  asid   : Nat
  obj    : Nat
  tx     : Nat
  ty     : Nat
  seq    : Nat
  mask   : BitVec 64
  got    : BitVec 64 := 0              -- pixels that have received their packet
  closed : BitVec 64 := 0
  method : Nat
  cls    : Nat
  who    : Nat × Nat × Nat × Mask     -- the RAST's group, warp, operation and lanes
  stamp  : Option Stamp := none        -- that of the RAST's writes (R233)
  deriving DecidableEq, Repr

/-- A held packet (R264, R267). -/
structure Packet where
  entry   : Nat
  pixel   : Nat
  cover   : Nat
  method  : Nat
  payload : List Word
  gid     : Nat
  wid     : Nat
  pid     : Nat
  lanes   : Mask
  stamp   : Option Stamp := none       -- that of the posting split's writes (R233)
  deriving DecidableEq, Repr

/-- A method program as validated (R187): none when it is invalid, with the program counter to report. -/
structure Method where
  asid   : Nat
  obj    : Nat
  num    : Nat
  cls    : Nat
  prog   : List Instr
  pcs    : List DWord
  entry  : List Byte                   -- the object entry at its validation (R256)
  bad    : Option DWord := none
  deriving DecidableEq, Repr

/-- A run of a method program on one pixel (R187). -/
structure MethodRun where
  lanes   : Mask                       -- existing samples
  exm     : Mask
  killed  : Mask := 0
  vregs   : FMap Word := []            -- register × 64 + lane
  preds   : FMap Mask := []
  run     : Run := {}
  words   : List Word := []            -- draft record words, sample × 4 + word
  payload : List Word := []
  pos     : Nat := 0                   -- x | y << 16
  seq     : Nat := 0
  staged  : FMap Word := []            -- sample × 4 + word
  ended   : Bool := false
  deriving DecidableEq, Repr

/-- A declaration that is still to take effect at a glazier (R218): its number, the frame, whether it makes it live, the requests that
came before it, and whether a write has revived the frame since, so that the share becomes zeros (R220). -/
structure Declared where
  id     : Nat
  frame  : Nat
  live   : Bool
  before : List Nat
  zeros  : Bool := false
  deriving DecidableEq, Repr

/-- A glazier (R216, R267), or the queue of another place. -/
structure Glazier where
  queue   : List Req := []
  waiters : List Waiter := []
  entries : List ExpEntry := []
  packets : List Packet := []
  methods : List Method := []
  deadReq : List Declared := []        -- declarations to take effect, oldest first
  row     : Option Nat := none         -- the DRAM row that is open (R216)
  refreshed : FMap Nat := []           -- cycle of each row's last refresh
  away    : Nat := 0                   -- 0 own array; 1 moving to the reserve; 2 there; 3 moving back; 4 there for good
  moved   : List Nat := []             -- atoms that the migration under way has moved
  applied : Option Nat := none         -- the cycle in which it last applied a fragment-pixel operation (R6)
  deriving DecidableEq, Repr

/-- A lane's fragment packet not yet accepted (R267). -/
structure Post where
  gid     : Nat
  wid     : Nat
  pid     : Nat
  lanes   : Mask
  lane    : Nat
  asid    : Nat
  obj     : Nat
  null    : Bool
  x       : Nat
  y       : Nat
  seq     : Nat
  cover   : Nat
  method  : Nat
  payload : List Word
  pc      : Nat                        -- the owning glazier
  stamp   : Option Stamp := none       -- that of the posting split's writes (R233)
  deriving DecidableEq, Repr

/-- The last RAST of a target (R270): its task, group index, warp, operation and post flag; aware gives the lanes of each warp whose split
comes after a wait on that flag, via the barriers (false) and phase barrier words (true) whose phase holds an arrival that does. -/
structure RastNote where
  task  : Nat
  index : Nat
  wid   : Nat
  pid   : Nat
  flag  : Option Nat
  aware : FMap Mask := []
  via   : List (Bool × Nat × Nat) := []
  deriving DecidableEq, Repr

/-- A draw or pass with the raster units (R260, R261). items are (primitive, tile x, tile y, coverage bytes). -/
structure Draw where
  id     : Nat
  cmd    : ECmd
  asid   : Nat
  obj    : Nat
  die    : Nat
  method : Nat
  cls    : Nat
  binned : Bool := false
  todo   : List ExpEntry := []
  deriving DecidableEq, Repr

/-! ## Partitions, engines across devices, control (chapters 07, 11, 16, 17, 20) -/

structure Mailbox where
  inbound  : List (List Byte × Bool) := []  -- message, and whether function 0 wrote it
  outbound : List (List Byte) := []
  overrun  : Nat := 0
  deriving DecidableEq, Repr

/-- A partition's mailboxes and event queues (R285, R292). -/
structure Partition where
  boxes    : FMap Mailbox := []
  queues   : FMap (List (BitVec 128)) := []
  heldRecs : FMap (List (BitVec 128)) := []
  forward  : FMap (Nat × Nat) := []    -- event queue: mailbox and tag
  nextTid  : Nat := 1
  requests : List (BitVec 128 × Nat) := []   -- service requests on queue 255 with the requester's task
  deriving DecidableEq, Repr

/-- A reduction window (R182, R247). -/
structure Window where
  id      : Nat
  tag     : Nat
  asid    : Nat
  peerSet : Nat
  base    : Nat
  len     : Nat
  part    : Nat
  members : List Nat                   -- ranks that have opened
  closedR : List Nat := []             -- ranks whose close has been counted
  merged  : List (Nat × AtomOp × Nat × Nat) := []  -- address, operation, size, value
  clash   : Option Nat := none
  local_  : Option Nat := none         -- this device's rank
  ranks   : Nat := 1                   -- the members of its peer set
  ready   : Bool := false              -- this device's member's open has completed, and it has issued its close (R247)
  closing : Bool := false
  deriving DecidableEq, Repr

/-- A PUBLISH that has arrived (R184, R249). -/
structure Publish where
  id    : Nat
  asid  : Nat
  obj   : Nat
  part  : Nat
  cmd   : Option ECmd
  deriving DecidableEq, Repr

/-- A cached leaf of a die's clusters (R311): the cluster number (die × 12 + c), the ASID, the page and its level. -/
structure Tlb where
  cluster : Nat
  asid    : Nat
  page    : Nat
  level   : Nat
  leaf    : DWord
  deriving DecidableEq, Repr

/-- An invalidation under way (R312): accesses with a lower number than start are waited for. -/
structure Inval where
  asid  : Nat
  whole : Bool
  first : Nat
  pages : Nat
  start : Nat
  also  : List Nat := []               -- commits of redundant pairs that began for it (R312, R347)
  deriving DecidableEq, Repr

/-- A fatal event (R359 to R361). -/
structure Fatal where
  id     : Nat
  cycle  : Nat
  device : Bool
  origin : Nat
  task   : Nat
  part   : Nat
  cause  : Nat
  todo   : List Nat                    -- cores still to freeze, in order
  frozen : List (Nat × Nat × List (BitVec 128)) := []  -- core, marker cycle, records oldest first
  seq    : Nat
  deriving DecidableEq, Repr

structure Capsule where
  seq   : Nat
  hyper : Bool
  part  : Nat
  bytes : List Byte
  deriving DecidableEq, Repr

/-- The configuration block in force (R366), by what its sections set (log 6). -/
structure Conf where
  device   : Nat := 0
  ascbBase : Nat := 0
  asidBase : FMap Nat := []
  asidNum  : FMap Nat := []
  keyBase  : FMap Nat := []
  keyNum   : FMap Nat := []
  clusters : FMap Nat := []            -- partition × 4 + die: cluster mask
  dallum   : List (Nat × Nat) := []    -- mailboxes assigned to Dallum
  owners   : FMap Nat := []            -- 2 MiB region of HBM: owner byte
  tier     : FMap Nat := []            -- 1 GiB region of the capacity tier: owner byte
  ports    : FMap Nat := []            -- Tercon port: partition mask
  links    : FMap Nat := []            -- expander link: partition mask
  routes   : FMap Nat := []            -- destination: port mask
  outCores : List Nat := []
  outChannels : List Nat := []
  outPorts : List Nat := []
  errBases : FMap DWord := []
  exempt   : List Nat := []
  budget   : Nat := 4096
  hotHalf  : Nat := 95
  hotBack  : Nat := 90
  clkHalf  : Nat := 110
  clkBack  : Nat := 100
  version  : Nat := 0
  minDallum : Nat := 0
  owner    : List (List Byte) := []
  signers  : List (List Byte) := []
  digest   : List Byte := List.replicate 32 0   -- with no block in force: zero (log 7)
  deriving DecidableEq, Repr, Inhabited

/-- What the sections of a configuration body set: the manual gives the sections, not their layout (R366, log 6). -/
opaque confOf : List Byte → Conf

/-- A Dallum image (R368). -/
structure Image where
  version : Nat := 0
  bytes   : List Byte := []
  sig     : List Byte := []
  key     : List Byte := []
  deriving DecidableEq, Repr, Inhabited

/-- The parts of an image as it is staged: the manual does not give its format (R369; log 7). -/
opaque imageOf : List Byte → Image

/-- What a service request under way waits for (R369 to R372). -/
inductive Service where
  | retire (core : Nat) (forced : Bool)
  | selfTest (core ends : Nat)
  | migrate (pc kind step : Nat)       -- kind: the request's mailbox kind
  | handover (started : Nat) (old : Nat) (block : List Byte)   -- the handover block that the old image has written
  deriving DecidableEq, Repr

/-- The state of the machine. -/
structure State where
  -- the model's own fields (log 2, log 3)
  agenda   : List Instr := []          -- the moves still to come in this cycle
  plan     : List (Bool × List Instr) := []  -- of each coming cycle: the moves from outside, and whether they are the only ones
  issuing  : List SplitRef := []
  woken    : List SplitRef := []       -- parked splits whose fault an invalidation or a restore has resolved (R335)
  cur      : Agent := .idle
  fresh    : Nat := 0
  free     : Nat := 0
  hostOut  : List (List Byte) := []    -- what host reads returned, newest first
  -- the package
  cycle    : Nat := 0
  stage    : Nat := 0
  mem      : List Host.Cell := []
  poison   : List Nat := []            -- poisoned atoms (address / 32), rising
  soft     : List Nat := []            -- atoms with an error that the next read corrects (R344)
  deadFr   : FMap (BitVec 64) := []    -- dead frames, each with the glaziers of its stack at which it is dead (R218)
  stamps   : FMap Stamp := []
  tlb      : List Tlb := []
  warps    : FMap Warp := []           -- group × 32 + warp
  groups   : FMap Group := []
  crews    : FMap Crew := []
  tasks    : FMap Task := []
  cores    : FMap Core := []
  wbanks   : FMap (List WbEntry) := [] -- die × 16 + bank
  places   : FMap Glazier := []        -- glaziers by number, then the other places
  keys     : FMap Nat := []            -- key number: the task that holds it
  lockWait : FMap (List Nat) := []     -- each die's waiting list
  posts    : List Post := []
  draws    : List Draw := []
  lastRast : FMap RastNote := []       -- target (ASID × 1024 + object): its last RAST (R270)
  tables   : FMap (List Byte) := []    -- target: its method table as the glaziers have read it (R256)
  publishes : List Publish := []
  windows  : List Window := []
  method   : Option MethodRun := none
  parts    : FMap Partition := []
  svcQueue : List (Nat × Nat) := []    -- mailboxes with service requests, in arrival order
  service  : Option (Service × Nat × Nat × List Byte) := none  -- with the mailbox and the request
  -- the device control block and the aperture
  traddr   : DWord := 0
  invals   : List Inval := []
  ctxbase  : DWord := 0
  preempt  : Option Nat := none
  preFail  : Bool := false
  restore  : Option Nat := none
  resFail  : Bool := false
  wpaddr   : DWord := 0
  wpctl    : DWord := 0
  errq     : FMap DWord := []          -- partition p at p; the physical log at 16
  apwin    : DWord := 0
  -- heat and self-refresh
  refresh  : FMap Nat := []            -- stack in forced self-refresh: since when
  halfBudget : List Nat := []          -- dies whose matrix budget is halved
  halfClock  : List Nat := []
  badStacks  : List Nat := []          -- stacks retired (R370)
  reports    : List Nat := []          -- stacks reported to Dallum (R353)
  timedOut   : List Nat := []          -- stacks whose self-refresh has lasted too long (R353)
  hostHeld   : List Instr := []        -- host accesses held by a stack in self-refresh, oldest first (R353)
  lanesOut : FMap Nat := []            -- Tercon port lanes set by service
  -- trust and service
  conf     : Conf := {}
  block    : List Byte := []           -- the configuration block in force
  staged   : Option (List Byte) := none
  counter  : Nat := 0                  -- replay-protected configuration version
  oneTime  : Vector Byte 32 := Config.oneTimeSeed   -- the trust unit's one-time storage (R363)
  svcWaits : List (Nat × Nat × List Byte) := []   -- recalibrations that wait for their stack: mailbox and message (R370)
  tested   : List Nat := []            -- cores that have passed their self-test since reset (R373)
  images   : FMap Image := []
  active   : Nat := 0
  capsules : List Capsule := []
  capSeq   : Nat := 0
  dropped  : Nat := 0
  fatals   : List Fatal := []
  waiting  : List Fatal := []          -- fatal events that wait for a ring
  resetReq : Option Nat := none
  watchdog : Nat := 0                  -- control-core cycles since Dallum last answered
  deriving DecidableEq, Repr

/-- The machine right after reset (R129, R218, R324, R356, R373): nothing is placed, memory lists nothing, every frame is
live, the rings and registers of the control block are clear (log 1, log 5, log 6). -/
def State.reset : State := {}

/-- Reasons for which the machine stops. -/
inductive Fault where
  /-- Raised by every instruction row when no split (and, for MLD to MEND, no method run) is issuing. Safe: the machine
  executes an instruction only for a split that a port issues. -/
  | noIssuer
  deriving DecidableEq, Repr

/-- Reasons for which a step has no meaning. -/
inductive Refusal where
  /-- Raised by exec for a row without a meaning, by its mnemonic. Safe. -/
  | notModelled (mnemonic : String)
  deriving DecidableEq, Repr

end Sys2Proof.Machine
end

