-- ==== Sys2Proof/Machine/Base.lean ====
section
/-! DEFINITION. Sparse maps, memory and its regions, the accessors of the state's units, TCB and object-entry fields, the
translation of virtual addresses (R308 to R311), the access tables (R323) and the records of the Scrivener (R356 to R358). -/

namespace Sys2Proof.Machine

/-! ## Sparse maps -/

/-- The value of a key; d where the key is not listed. -/
def fget {α : Type} (d : α) (k : Nat) : FMap α → α
  | [] => d
  | (a, v) :: t => if a = k then v else fget d k t

/-- The map with a key's value changed; setting a key to d unlists it, so equal maps are equal lists. -/
def fset {α : Type} [DecidableEq α] (d : α) (k : Nat) (v : α) : FMap α → FMap α
  | [] => if v = d then [] else [(k, v)]
  | (a, x) :: t =>
    if a < k then (a, x) :: fset d k v t
    else if a = k then (if v = d then t else (k, v) :: t)
    else (if v = d then (a, x) :: t else (k, v) :: (a, x) :: t)

/-- The listed value of a key. -/
def flook {α : Type} (k : Nat) : FMap α → Option α
  | [] => none
  | (a, v) :: t => if a = k then some v else flook k t

/-- The map with a key listed at a value. -/
def fput {α : Type} (k : Nat) (v : α) : FMap α → FMap α
  | [] => [(k, v)]
  | (a, x) :: t =>
    if a < k then (a, x) :: fput k v t
    else if a = k then (k, v) :: t
    else (k, v) :: (a, x) :: t

/-- The map without a key. -/
def fdel {α : Type} (k : Nat) (m : FMap α) : FMap α := m.filter (fun p => p.1 != k)

/-- The map with a listed key's value changed by f. -/
def fmod {α : Type} (k : Nat) (f : α → α) (m : FMap α) : FMap α := m.map (fun p => if p.1 = k then (p.1, f p.2) else p)

/-- A rising list of numbers as a set. -/
def sins (k : Nat) : List Nat → List Nat
  | [] => [k]
  | a :: t => if a < k then a :: sins k t else if a = k then a :: t else k :: a :: t

def sdel (k : Nat) (l : List Nat) : List Nat := l.filter (· != k)

/-! ## Memory (R7): one list of bytes for every region, address and byte -/

/-- What a byte that nothing has written reads as, in every region (log 1). -/
def memDefault : Byte := 0

/-- The canonical form: addresses strictly rising, and no entry equal to what an unlisted address reads as. -/
def Memory.wf : List Host.Cell → Bool
  | [] => true
  | [(_, v)] => v != memDefault
  | (a, v) :: (b, w) :: t => v != memDefault && a < b && Memory.wf ((b, w) :: t)

/-- The byte at an address. -/
def rdByte (m : List Host.Cell) (a : Nat) : Byte := fget memDefault a m

/-- Memory with one byte written. -/
def wrByte (m : List Host.Cell) (a : Nat) (v : Byte) : List Host.Cell := fset memDefault a v m

/-! A ganged frame's bytes have addresses of their own, from gangBase on; cell gives the byte that holds one (R213, R214; log 61). -/

def gangBase : Nat := 2 ^ 40
/-- In ganged mode 4 bytes go to each side of a channel's pair in turn, and a side's 256 bytes lie where independent mode has them. -/
def cell (a : Nat) : Nat :=
  if gangBase ≤ a ∧ a < 2 * gangBase then (a - gangBase) / 512 * 512 + a / 4 % 2 * 256 + a % 512 / 8 * 4 + a % 4 else a

/-- n bytes from an address, lowest first. -/
def rdBytes (m : List Host.Cell) (a n : Nat) : List Byte := (List.range n).map fun i => rdByte m (cell (a + i))

/-- Memory with bytes written from an address on. -/
def wrBytes (m : List Host.Cell) (a : Nat) : List Byte → List Host.Cell
  | [] => m
  | b :: bs => wrBytes (wrByte m (cell a) b) (a + 1) bs

/-- The number that a list of bytes holds, lowest first (R7). -/
def bytesNat : List Byte → Nat
  | [] => 0
  | b :: bs => b.toNat + 256 * bytesNat bs

/-- The low n bytes of a number, lowest first (R7). -/
def natBytes : Nat → Nat → List Byte
  | 0, _ => []
  | n + 1, v => BitVec.ofNat 8 v :: natBytes n (v / 256)

/-- The number in n bytes of memory, little-endian (R7). -/
def rdNat (m : List Host.Cell) (a n : Nat) : Nat := bytesNat (rdBytes m a n)

/-- The number in bytes lo to lo+n−1 of a structure held as bytes. -/
def fieldNat (bs : List Byte) (lo n : Nat) : Nat := bytesNat ((bs.drop lo).take n)

/-- Bits [hi:lo] of a number. -/
def bitsOf (x hi lo : Nat) : Nat := x / 2 ^ lo % 2 ^ (hi - lo + 1)

/-- The lesser of two numbers that may be absent. -/
def least (a b : Option Nat) : Option Nat :=
  match a, b with
  | some x, some y => some (min x y)
  | some x, none => some x
  | none, y => y
/-- The greater of two numbers that may be absent. -/
def most (a b : Option Nat) : Option Nat :=
  match a, b with
  | some x, some y => some (max x y)
  | some x, none => some x
  | none, y => y
/-- The numbers i to i+n−1. -/
def upFrom (i n : Nat) : List Nat := (List.range n).map (i + ·)
/-- Bit i of a number. -/
def bitOf (x i : Nat) : Bool := x / 2 ^ i % 2 = 1

/-! The regions of memory: each unit's bytes lie from a base of its own. -/

def region : Nat := 2 ^ 64
def hbmKey (pa : Nat) : Nat := pa
/-- An address of a ganged frame. -/
def gangKey (pa : Nat) : Nat := gangBase + pa
/-- The physical address that a key of device memory names. -/
def paOf (key : Nat) : Nat := key % gangBase
def tierKey (a : Nat) : Nat := region + a
def hostKey (a : Nat) : Nat := 2 * region + a
def peerKey (dev a : Nat) : Nat := 3 * region + dev * 2 ^ 52 + a
def benchKey (core off : Nat) : Nat := 4 * region + core * 2 ^ 19 + off
def shopKey (cluster off : Nat) : Nat := 5 * region + cluster * 2 ^ 22 + off
def yardKey (die off : Nat) : Nat := 6 * region + die * 2 ^ 27 + off
/-- A slot's 12 KiB of data, then its side store (R107). -/
def slotKey (core slot off : Nat) : Nat := 7 * region + (core * 32 + slot) * 2 ^ 14 + off
/-- A tile's element as its 32-bit word (R46, R112). -/
def tileKey (core tile row col : Nat) : Nat := 8 * region + ((core * 64 + tile) * 16384 + row * 128 + col) * 4
/-- The valid bit of a bench word, as a byte 0 or 1 (R143). -/
def validKey (core word : Nat) : Nat := 9 * region + core * 2 ^ 17 + word

/-! ## Units of the state -/

def State.wr (s : State) (a : Nat) (bs : List Byte) : State := { s with mem := wrBytes s.mem a bs }

def State.core (s : State) (c : Nat) : Core := (flook c s.cores).getD {}
def State.setCore (s : State) (c : Nat) (v : Core) : State := { s with cores := fput c v s.cores }
def State.warp? (s : State) (gid wid : Nat) : Option Warp := flook (gid * 32 + wid) s.warps
def State.setWarp (s : State) (gid wid : Nat) (w : Warp) : State := { s with warps := fput (gid * 32 + wid) w s.warps }
def State.group? (s : State) (g : Nat) : Option Group := flook g s.groups
def State.setGroup (s : State) (g : Nat) (v : Group) : State := { s with groups := fput g v s.groups }
def State.modGroup (s : State) (g : Nat) (f : Group → Group) : State := { s with groups := fmod g f s.groups }
def State.modCrew (s : State) (c : Nat) (f : Crew → Crew) : State := { s with crews := fmod c f s.crews }
def State.modTask (s : State) (t : Nat) (f : Task → Task) : State := { s with tasks := fmod t f s.tasks }
def State.modWarp (s : State) (gid wid : Nat) (f : Warp → Warp) : State :=
  { s with warps := fmod (gid * 32 + wid) f s.warps }
def State.modCore (s : State) (c : Nat) (f : Core → Core) : State := s.setCore c (f (s.core c))
def State.part (s : State) (p : Nat) : Partition := (flook p s.parts).getD {}
def State.setPart (s : State) (p : Nat) (v : Partition) : State := { s with parts := fput p v s.parts }

/-- The number of a place among the queues of the state: glaziers first (R2). -/
def unitIndex (u : UnitRef) : Nat :=
  match u.kind with
  | .glazier => u.num
  | .bench => 1000 + u.num
  | .shop => 2000 + u.num
  | .yard => 3000 + u.num
  | .capacity => 4000 + u.num
  | .host => 5000
  | .switch => 5001
  | .peer => 6000 + u.num

def State.place (s : State) (u : UnitRef) : Glazier := (flook (unitIndex u) s.places).getD {}
def State.setPlace (s : State) (u : UnitRef) (v : Glazier) : State := { s with places := fput (unitIndex u) v s.places }
def State.modPlace (s : State) (u : UnitRef) (f : Glazier → Glazier) : State := s.setPlace u (f (s.place u))

/-- The die, the cluster of the package (die × 12 + c) and the place of a core (R2). -/
def coreDie (c : Nat) : Nat := c / 96
def coreCluster (c : Nat) : Nat := c / 8

/-- The ASID, partition and flags of a group's task (R287, R288). -/
def State.taskOf (s : State) (g : Group) : Option Task := flook g.task s.tasks

/-- A field of a TCB by its lowest bit and width (R287). -/
def tcbField (t : List Byte) (lo w : Nat) : Nat := fieldNat t (lo / 8) ((lo % 8 + w + 7) / 8) / 2 ^ (lo % 8) % 2 ^ w
def Task.field (t : Task) (lo w : Nat) : Nat := tcbField t.image lo w
def Task.flag (t : Task) (i : Nat) : Bool := bitOf (t.field 432 16) i
def Task.determ (t : Task) : Bool := t.flag 0
def Task.race (t : Task) : Bool := t.flag 1
def Task.strict (t : Task) : Bool := t.flag 2
def Task.control (t : Task) : Bool := t.flag 3
def Task.redundant (t : Task) : Bool := t.flag 4

/-- A task flag of a group, false when the task is unknown. -/
def State.gflag (s : State) (g : Group) (f : Task → Bool) : Bool := ((s.taskOf g).map f).getD false

/-! ## Stamps (R233, R238) -/

/-- The region of a memory key: 0 HBM, 1 capacity tier, 2 host, 3 peers, 4 bench, 5 shop, 6 yard. -/
def keyRegion (key : Nat) : Nat := key / region
/-- The atoms that bytes lie in. -/
def atomsOf (key n : Nat) : List Nat := if n = 0 then [] else upFrom (key / 32) ((key + n - 1) / 32 - key / 32 + 1)

/-- The current phase of a key's allocation, as seen by a group (R238). -/
def State.phaseOf (s : State) (g : Group) (key : Nat) : Nat :=
  match keyRegion key with
  | 4 => g.benchPhase
  | 5 => ((flook g.crew s.crews).map (·.phase)).getD 0
  | _ => 0

/-- The counts of a warp and of its group, as one number. -/
def cntOf (w : Warp) (g : Group) : Nat := w.relCount % 256 * 256 + g.relCount % 256

/-- The stamp of a write by a warp with the counts it held at issue (R233). -/
def State.stampFor (s : State) (gid wid cnt key : Nat) : Option Stamp :=
  match s.group? gid with
  | some g =>
    some (if keyRegion key = 4 then ⟨wid, cnt / 256, g.task, g.benchPhase⟩ else ⟨g.index % 65536, cnt % 256, g.task, s.phaseOf g key⟩)
  | none => none

/-- The ECC atoms whose error is one of the byte at a key: 32 bytes, and in a ganged frame both halves of 64 (R213, R215, R344). -/
def eccAtoms (key : Nat) : List Nat :=
  if gangBase ≤ key ∧ key < 2 * gangBase then [cell (key / 64 * 64) / 32, cell (key / 64 * 64 + 4) / 32] else [key / 32]
/-- The ECC atoms that bytes cover whole. -/
def coveredAtoms (key n : Nat) : List Nat :=
  (atomsOf key n).flatMap fun a =>
    if gangBase ≤ key ∧ key < 2 * gangBase then
      (if key ≤ a / 2 * 64 && a / 2 * 64 + 64 ≤ key + n then eccAtoms (a * 32) else [])
    else if key ≤ a * 32 && a * 32 + 32 ≤ key + n then [a] else []
/-- The sector that a byte lies in: 64 bytes in a ganged frame, in the capacity tier and in host memory, else 32 (R140, R215, R217). -/
def sectorOf (key : Nat) : Nat :=
  if (gangBase ≤ key ∧ key < 2 * gangBase) || keyRegion key = 1 || keyRegion key = 2 then key / 64 * 2 else key / 32

/-- The atoms that name bytes of an atom of HBM in the other way, ganged or not: what is written by the one is stamped for the other
(R213, R233). -/
def aliasAtoms (a : Nat) : List Nat :=
  if gangBase ≤ a * 32 ∧ a * 32 < 2 * gangBase then eccAtoms (a * 32)
  else if keyRegion (a * 32) = 0 then
    let g := (gangBase + a * 32 / 512 * 512 + a * 32 % 256 / 4 * 8) / 32
    [g, g + 1]
  else []

/-- Bytes put in their place: a fully covered poisoned atom becomes sound, and the atoms take the writer's stamp; only HBM and the
scratchpads hold stamps (R233, R344). -/
def State.put (s : State) (key : Nat) (bs : List Byte) (st : Option Stamp) : State :=
  let stamped := keyRegion key = 0 || (4 ≤ keyRegion key && keyRegion key ≤ 6)
  let t := s.wr key bs
  { t with
    poison := t.poison.filter fun a => !(coveredAtoms key bs.length).contains a,
    soft := t.soft.filter fun a => !(coveredAtoms key bs.length).contains a,
    stamps := match st with
      | some x => if stamped then (atomsOf key bs.length).foldl (fun m a => fput a x ((aliasAtoms a).foldl (fun m b => fdel b m) m)) t.stamps else t.stamps
      | none => t.stamps }

/-- A fresh number, and the state that has used it. -/
def State.newId (s : State) : Nat × State := (s.fresh, { s with fresh := s.fresh + 1 })

/-! ## Records of the Scrivener (R356 to R358) -/

/-- A record (R357). -/
def scrivRecord (payload : DWord) (cycle asid part warp split kind : Nat) : BitVec 128 :=
  payload ++ BitVec.ofNat 32 cycle ++ BitVec.ofNat 12 asid ++ BitVec.ofNat 4 part ++ BitVec.ofNat 6 warp ++
    BitVec.ofNat 4 split ++ BitVec.ofNat 6 kind

/-- A record offered to a core's ring: stored, or only counted when the cycle is taken or the ring is frozen (R356, R360). -/
def State.scriv (s : State) (core : Nat) (rec : BitVec 128) : State :=
  s.modCore core fun c =>
    if c.frozen.isSome || c.owes || c.ringAt = some s.cycle then { c with lost := c.lost + 1 }
    else { c with ring := (rec :: c.ring).take 8192, ringAt := some s.cycle }

/-- A record of a warp's event, with the warp's task (R357). -/
def State.scrivWarp (s : State) (gid wid ent kind : Nat) (payload : DWord) : State :=
  match s.group? gid, s.warp? gid wid with
  | some g, some w =>
    match s.taskOf g with
    | some t => s.scriv g.core (scrivRecord payload s.cycle t.asid t.part (w.bay * 16 + w.slot) ent kind)
    | none => s
  | _, _ => s

/-- A record that names a group (R378): no warp, no split. -/
def State.scrivGroup (s : State) (g : Group) (kind : Nat) (payload : DWord) : State :=
  match s.taskOf g with
  | some t => s.scriv g.core (scrivRecord payload s.cycle t.asid t.part 0x3F 0xF kind)
  | none => s

/-- A record without a task (R358). -/
def State.scrivBare (s : State) (core kind : Nat) (payload : DWord) : State :=
  s.scriv core (scrivRecord payload s.cycle 0 0 0x3F 0xF kind)

/-! ## Translation (R307 to R311) -/

/-- What an access needs (R310). -/
inductive Need where
  | read | write | both | exec
  deriving DecidableEq, Repr

/-- The outcome of a walk: a leaf and its level, no valid leaf, or a malformed entry at a physical address (R309). -/
inductive Walk where
  | leaf (entry level : Nat)
  | absent
  | malformed (pa : Nat)
  deriving DecidableEq, Repr

/-- The 64 bytes of an address space's control block (R307). -/
def State.ascb (s : State) (asid : Nat) : List Byte := rdBytes s.mem (hbmKey (s.conf.ascbBase + 64 * asid)) 64

/-- The ASCB is valid, well formed, and its tables lie in this device's HBM (R307). -/
def State.ascbOk (s : State) (asid : Nat) : Bool :=
  let b := s.ascb asid
  let peers := fieldNat b 48 8
  let objs := fieldNat b 40 8
  let root := fieldNat b 32 8
  fieldNat b 56 8 = 0 && fieldNat b 2 30 = 0 && fieldNat b 1 1 < 16 && fieldNat b 0 1 = 1 &&
    root < 2 ^ 39 && root % 8192 = 0 && objs < 2 ^ 39 && objs % 65536 = 0 && peers < 2 ^ 39 && peers % 16 = 0

/-- The size in bytes of the table at a level (R308). -/
def tableSize : Nat → Nat
  | 4 => 8192 | 3 => 4096 | 2 => 4096 | 1 => 2048 | _ => 256

/-- The index of an address at a level (R308). -/
def levelIndex (level va : Nat) : Nat :=
  match level with
  | 4 => bitsOf va 56 47 | 3 => bitsOf va 46 38 | 2 => bitsOf va 37 29 | 1 => bitsOf va 28 21 | _ => bitsOf va 20 16

/-- The size of the page that a leaf at a level maps (R308). -/
def pageBits : Nat → Nat
  | 2 => 29 | 1 => 21 | _ => 16

/-- A leaf entry breaks no rule of R309. -/
def leafOk (e level : Nat) : Bool :=
  let target := bitsOf e 55 52
  let frame := bitsOf e 51 16 * 65536
  level ≤ 2 && bitsOf e 63 56 = 0 && target ≤ 3 && frame % 2 ^ pageBits level = 0 &&
    (target = 3 || bitsOf e 15 6 = 0) && (target = 0 || (!bitOf e 5 && !bitOf e 4)) &&
    !(bitOf e 4 && bitOf e 3) && (target != 0 || frame < 2 ^ 39) && (target != 1 || frame < 2 ^ 42)

/-- The walk from a table at a level downward (R308, R309). -/
def walkFrom (m : List Host.Cell) (va : Nat) : Nat → Nat → Walk
  | table, level + 1 =>
    let pa := table + 8 * levelIndex level va
    let e := rdNat m (hbmKey pa) 8
    if !bitOf e 0 then .absent
    else if bitOf e 1 then (if leafOk e level then .leaf e level else .malformed pa)
    else
      let next := bitsOf e 51 8 * 256
      if level = 0 || bitsOf e 63 52 != 0 || bitsOf e 7 2 != 0 || 2 ^ 39 ≤ next || next % tableSize (level - 1) != 0
      then .malformed pa
      else walkFrom m va next level
  | _, 0 => .absent

/-- The walk of an address in an address space. -/
def State.walk (s : State) (asid va : Nat) : Walk :=
  if s.ascbOk asid then walkFrom s.mem va (fieldNat (s.ascb asid) 32 8) 5 else .absent

/-- The leaf for an address: a cached one if the cluster holds one, else the walk's (R311). -/
def State.leafOf (s : State) (cluster asid va : Nat) : Walk :=
  match s.tlb.find? fun t => t.cluster = cluster && t.asid = asid && t.page = va / 2 ^ pageBits t.level with
  | some t => .leaf t.leaf.toNat t.level
  | none => s.walk asid va

/-- A translated address: the place, its address there as a memory key, and ganged mode. -/
structure Xlat where
  unit : UnitRef
  key  : Nat
  gang : Bool
  deriving DecidableEq, Repr

/-- The address at the target. -/
def Xlat.addr (x : Xlat) : Nat :=
  match x.unit.kind with
  | .glazier => paOf x.key
  | .peer => x.key % 2 ^ 52
  | _ => x.key % region

/-- The pseudo-channel at which a byte of HBM is reached: in independent mode that which holds it (R213), in ganged mode the even one of
the pair that holds it (R215). -/
def hbmChannel (pa : Nat) (gang : Bool) : Nat :=
  bitsOf pa 38 36 * 64 + bitsOf pa 13 9 * 2 + (if gang then 0 else bitsOf pa 8 8)

/-- The place of an address under a leaf (R147, R213, R309, R326, R327). -/
def leafXlat (e level va : Nat) : Xlat :=
  let a := bitsOf e 51 16 * 65536 / 2 ^ pageBits level * 2 ^ pageBits level + va % 2 ^ pageBits level
  match bitsOf e 55 52 with
  | 0 => ⟨⟨.glazier, hbmChannel a (bitOf e 5)⟩, if bitOf e 5 then gangKey a else hbmKey a, bitOf e 5⟩
  | 1 => ⟨⟨.capacity, bitsOf a 13 12⟩, tierKey a, false⟩
  | 2 => ⟨⟨.host, 0⟩, hostKey a, false⟩
  | _ => ⟨⟨.peer, bitsOf e 15 6⟩, peerKey (bitsOf e 15 6) a, false⟩

/-- A leaf grants what an access needs (R310). -/
def leafGrants (e : Nat) : Need → Bool
  | .read => bitOf e 2
  | .write => bitOf e 3
  | .both => bitOf e 2 && bitOf e 3
  | .exec => bitOf e 4

/-- An owner-map byte grants a partition's access (R323). -/
def ownerGrants (b part : Nat) (need : Need) : Bool :=
  bitOf b 7 && (bitsOf b 3 0 = part || (bitOf b 6 && (need = .read || need = .exec)))

/-- The link that a capacity-tier address uses: bit 14 names it when both are in service, else it is the one that remains (R326). -/
def State.linkOf (s : State) (a : Nat) : Option Nat :=
  match flook 0 s.conf.links, flook 1 s.conf.links with
  | some x, some y => some (if bitOf a 14 then y else x)
  | some x, none => some x
  | none, y => y

/-- The partition masks of the ports that lead to a device and are in service, lowest first (R327, R371). -/
def State.routeTo (s : State) (dev : Nat) : List Nat :=
  (List.range 64).filterMap fun p =>
    if bitOf (fget 0 dev s.conf.routes) p && !s.conf.outPorts.contains p && flook p s.lanesOut != some 0 then some (fget 0 p s.conf.ports) else none
/-- That of the port which a request to an address there uses: the (b mod c)-th of c, for bank b = A[9:6] (R244, R327; log 123). -/
def State.portTo (s : State) (dev a : Nat) : Option Nat :=
  let l := s.routeTo dev
  l[a / 64 % 16 % l.length]?

/-- The access tables grant a partition's request at a place (R323, R370, R373). -/
def State.granted (s : State) (part : Nat) (x : Xlat) (need : Need) : Bool :=
  match x.unit.kind with
  | .glazier =>
    let pa := paOf x.key
    !s.badStacks.contains (pa / 2 ^ 36) && (2 ≤ s.stage || pa / 2 ^ 36 = 0) && pa % 2 ^ 36 < 0xFC0000000 &&
      ownerGrants (fget 0 (pa / 2 ^ 21) s.conf.owners) part need
  | .capacity =>
    2 ≤ s.stage && ownerGrants (fget 0 ((x.key - region) / 2 ^ 30) s.conf.tier) part need && ((s.linkOf (x.key - region)).map (bitOf · part)).getD false
  | .peer => 2 ≤ s.stage && ((s.portTo x.unit.num x.addr).map (bitOf · part)).getD false
  | _ => true

/-- The outcome of a translation: a place, or the trap cause it raises (R310, R333). -/
inductive Xres where
  | ok (x : Xlat)
  | fault
  | denied
  deriving DecidableEq, Repr

/-- An address as a master of a partition reaches it (R310, R323). -/
def State.xlate (s : State) (cluster asid part va : Nat) (need : Need) : Xres :=
  if 2 ^ 57 ≤ va then .denied
  else match s.leafOf cluster asid va with
    | .leaf e level =>
      if !leafGrants e need then .denied
      else
        let x := leafXlat e level va
        if s.granted part x need then .ok x else .denied
    | _ => .fault

/-! ## Objects (R313 to R316) -/

/-- The 64 bytes of an object's entry (R313). -/
def State.objEntry (s : State) (asid obj : Nat) : List Byte :=
  rdBytes s.mem (hbmKey (fieldNat (s.ascb asid) 40 8 + 64 * obj)) 64

def objPub (e : List Byte) : Nat := fieldNat e 0 8
def objDraft (e : List Byte) : Nat := fieldNat e 8 8
def objHeaders (e : List Byte) : Nat := fieldNat e 16 8
def objMeta (e : List Byte) : Nat := fieldNat e 24 8
def objFormat (e : List Byte) : Nat := fieldNat e 32 4
def objKeyWord (e : List Byte) : Nat := fieldNat e 36 4
def objExtent (e : List Byte) (k : Nat) : Nat := fieldNat e (40 + 2 * k) 2 + 1
/-- Stride k, for k from 1 to 4, in bytes (R314). -/
def objStride (e : List Byte) (k : Nat) : Nat := fieldNat e 50 14 / 2 ^ (28 * (k - 1)) % 2 ^ 28 * 16
def objClass (e : List Byte) : Nat := bitsOf (objFormat e) 31 28
def objType (e : List Byte) : Nat := bitsOf (objFormat e) 27 24
def objKeyed (e : List Byte) : Bool := bitOf (objKeyWord e) 30
def objSamples (e : List Byte) : Nat := 2 ^ bitsOf (objFormat e) 17 16
def objRw (e : List Byte) : Nat := 2 ^ bitsOf (objFormat e) 19 18

/-- The bits of an element of a type code (R32). -/
def typeBits : Nat → Nat
  | 2 | 3 | 9 | 10 => 16
  | 4 | 5 | 12 => 8
  | 6 | 7 => 64
  | 13 => 4
  | _ => 32

/-- N of 24 of a block-scaled object: 24 when dense (R54, R315). -/
def objKept (e : List Byte) : Nat :=
  match bitsOf (objFormat e) 21 20 with
  | 0 => 24 | 1 => 6 | 2 => 12 | _ => 18

/-- Bytes of one block of a block-scaled object (R53, R316). -/
def objBlockBytes (e : List Byte) : Nat :=
  if bitsOf (objFormat e) 23 22 = 1 then objKept e / 2 else objKept e

/-- The entry is valid: every field within R314 to R316. -/
def objValid (e : List Byte) : Bool :=
  let f := objFormat e
  let kw := objKeyWord e
  bitOf kw 31 && bitsOf kw 29 16 = 0 && (!objKeyed e || objDraft e = 0) && bitsOf f 11 0 = 0 && !bitOf f 14 &&
  match objClass e with
  | 0 =>
    objType e < 14 && bitsOf f 23 16 = 0 && (objType e = 12 || objType e = 13 || bitsOf f 13 12 = 0) &&
      (!bitOf f 15 || (objType e = 1 || objType e = 3 || objType e = 5 || objType e = 7))
  | 1 =>
    bitsOf f 27 24 = 0 && bitsOf f 23 22 < 3 && (bitsOf f 21 20 = 0 || bitsOf f 23 22 != 2) && bitsOf f 19 12 = 0 &&
      objExtent e 0 % 24 = 0
  | 2 =>
    objType e < 14 && bitsOf f 23 20 = 0 && bitsOf f 19 18 < 3 && bitsOf f 13 12 = 0 &&
      (!bitOf f 15 || (objType e = 1 || objType e = 3 || objType e = 5 || objType e = 7)) &&
      objExtent e 0 ≤ 16384 && objExtent e 1 ≤ 16384 && objExtent e 2 = 1 && objExtent e 3 = 1 && objExtent e 4 = 1 &&
      fieldNat e 50 14 = 0
  | _ => false

/-- The end of an object's image (R316). -/
def objEnd (e : List Byte) : Nat :=
  let far := (objExtent e 1 - 1) * objStride e 1 + (objExtent e 2 - 1) * objStride e 2 +
    (objExtent e 3 - 1) * objStride e 3 + (objExtent e 4 - 1) * objStride e 4
  match objClass e with
  | 0 => far + (objExtent e 0 * typeBits (objType e) + 7) / 8
  | 1 => far + objExtent e 0 / 24 * objBlockBytes e
  | _ => 16384 * objSamples e * objRw e *
      ((((objExtent e 0 + 7) / 8) * ((objExtent e 1 + 7) / 8) + 63) / 64)

/-! ## Error records (R354, R355) -/

/-- A 32-byte error record. -/
def errorRecord (addr cycle task group detail asid part cause kind : Nat) : List Byte :=
  natBytes 1 kind ++ natBytes 1 cause ++ natBytes 2 (part % 16 + asid % 4096 * 16) ++ natBytes 4 detail ++
    natBytes 4 group ++ natBytes 4 task ++ natBytes 8 cycle ++ natBytes 8 addr

/-- A record appended to a ring whose header lies at a key: the record, then the tail; a full ring counts it (R355). -/
def State.ringAppend (s : State) (key : Nat → Option Nat) (log2cap : Nat) (rec : List Byte) : State :=
  match key 0, key 8, key 16 with
  | some kt, some kh, some kd =>
    let tail := rdNat s.mem kt 8
    let head := rdNat s.mem kh 8
    if 2 ^ log2cap ≤ (tail + 2 ^ 64 - head) % 2 ^ 64 then s.put kd (natBytes 8 (rdNat s.mem kd 8 + 1)) none
    else match key (64 + 32 * (tail % 2 ^ log2cap)) with
      | some kr => (s.put kr rec none).put kt (natBytes 8 (tail + 1)) none
      | none => s
  | _, _, _ => s

/-- A record of the physical log only (R355). -/
def State.logRecord (s : State) (addr task group detail asid part cause kind : Nat) : State :=
  let reg := (fget 0 16 s.errq).toNat
  let cap := bitsOf reg 4 0
  if 4 ≤ cap && cap ≤ 16 then
    s.ringAppend (fun o => some (hbmKey (bitsOf reg 56 12 * 4096 + o))) cap
      (errorRecord addr s.cycle task group detail asid part cause kind)
  else s

/-- The physical address of a virtual one for the log; 0 where there is none (R354, R355). -/
def State.physOf (s : State) (asid addr : Nat) : Nat :=
  match s.walk asid addr with
  | .leaf e l => if addr = 0 then 0 else (leafXlat e l addr).addr
  | _ => 0

/-- The glaziers of its stack at which a physical address is dead with its frame include the one that holds it (R218). -/
def State.deadCell (s : State) (pa : Nat) : Bool := (fget 0 (pa / 65536) s.deadFr).getLsbD (hbmChannel pa false % 64)

/-- The byte at a key is one of a dead frame. -/
def State.deadAt (s : State) (key : Nat) : Bool := keyRegion key = 0 && s.deadCell (cell key)

/-- What a read of bytes found: the bytes, the lowest poisoned and the lowest dead address (R219, R344), and where a command read them. -/
structure Found where
  bytes : List Byte
  bad   : Option Nat := none
  dead  : Option Nat := none
  from_ : List (UnitRef × Nat × Nat) := []
  deriving DecidableEq, Repr

/-- Bytes read at their place: zero where dead or poisoned. -/
def State.found (s : State) (key va n : Nat) : Found :=
  let isDead : Nat → Bool := fun i => s.deadAt (key + i)
  let isBad : Nat → Bool := fun i => !isDead i && (eccAtoms (key + i)).any s.poison.contains
  { bytes := (List.range n).map fun i => if isDead i || isBad i then 0 else rdByte s.mem (cell (key + i)),
    bad := ((List.range n).find? isBad).map (va + ·), dead := ((List.range n).find? isDead).map (va + ·) }

/-- An error that a read corrects is counted in the physical log, and is gone; a dead byte has none (R219, R344). -/
def State.correct (s : State) (key n : Nat) : State :=
  if s.soft = [] then s
  else
    let hit := s.soft.filter fun a => !(keyRegion (a * 32) = 0 && s.deadCell (a * 32)) && (List.range n).any fun i => (eccAtoms (key + i)).contains a
    hit.foldl (fun s a => s.logRecord (if a * 32 < gangBase then a * 32 else 0) 0 0xFFFFFFFF 0 0 0 0 8)
      { s with soft := s.soft.filter fun a => !hit.contains a }

/-- A record of a partition's event: to its virtual error queue with the virtual address and local numbers, and to the physical log (R355). -/
def State.errRecord (s : State) (part asid addr task group detail cause kind : Nat) : State :=
  let base := fget 0 part s.conf.asidBase
  let reg := (fget 0 part s.errq).toNat
  let cap := bitsOf reg 4 0
  let s1 := s.logRecord (s.physOf asid addr) task group detail asid part cause kind
  if fget 0 part s.conf.asidNum = 0 || cap < 4 || 16 < cap then s1
  else
    s1.ringAppend (fun o => match s1.walk base (bitsOf reg 56 12 * 4096 + o) with
        | .leaf e l => some (leafXlat e l (bitsOf reg 56 12 * 4096 + o)).key
        | _ => none) cap
      (errorRecord addr s.cycle task group detail (asid - base) part cause kind)

end Sys2Proof.Machine
end

