-- ==== Sys2Proof/Machine/Operands.lean ====
section
/-! DEFINITION. The operand forms: source, destination, guard and block fields (R27 to R30), latches (R24), elements of packed
types (R43, R44, R65), and for formats V and S the encodings that trap (R31 to R33, R41, R63 to R66, R73, R76) and the value
of a whole instruction over the lanes (R61, R62, R64). -/

namespace Sys2Proof

/-! The fields of formats V and S that the operand forms use by name (R31, R33). -/

def VFmt.uniA (f : VFmt) : Bool := f.uni.getLsbD 2
def VFmt.uniB (f : VFmt) : Bool := f.uni.getLsbD 1
def VFmt.uniC (f : VFmt) : Bool := f.uni.getLsbD 0
def VFmt.isScalar (f : VFmt) : Bool := f.sdst = 1
def VFmt.t (f : VFmt) : Nat := f.type.toNat
def VFmt.count (f : VFmt) : Nat := f.func.toNat / 256
def SFmt.t (f : SFmt) : Nat := f.type.toNat
def SFmt.isVec (f : SFmt) : Bool := f.vec = 1
/-- The extended immediate (R73): sign-extended for the signed types. -/
def SFmt.k (f : SFmt) : Int := if f.t < 8 && f.t % 2 = 0 then f.imm.toInt else f.imm.toNat

end Sys2Proof

namespace Sys2Proof.Machine

/-! ## Fields (R27) -/

def fLatch (x : BitVec 9) : Bool := x.getLsbD 8
def fIdx (x : BitVec 9) : Nat := x.toNat % 256
def dIdx (x : BitVec 9) : Nat := x.toNat / 2
def dNowb (x : BitVec 9) : Bool := x.getLsbD 0
/-- An extent code (R27). -/
def extent (x : BitVec 2) : Nat := 2 ^ x.toNat
/-- The registers of a block (R30). -/
def blockRegs (b h w : Nat) : List Nat := (List.range h).flatMap fun i => upFrom (b + 16 * i) w

/-- A mask with the low n bits set. -/
def lowMask (n : Nat) : Mask := BitVec.ofNat 64 (2 ^ n - 1)
/-- The numbers of the set bits below 64. -/
def bitsSet (m : Mask) : List Nat := (List.range 64).filter (m.getLsbD ·)
/-- The number of the lowest set bit; 64 when there is none. -/
def lowestBit (m : Mask) : Nat := ((bitsSet m).head?).getD 64
/-- The number of set bits. -/
def popCount (m : Mask) : Nat := (bitsSet m).length
/-- The mask of the numbers below 64 that satisfy p. -/
def maskOf (p : Nat → Bool) : Mask := BitVec.ofNat 64 ((List.range 64).foldl (fun a i => if p i then a + 2 ^ i else a) 0)

/-! ## The registers that an instruction reads (R24, R29, R61) -/

/-- What the evaluation of an instruction over lanes reads: a warp's and a split's registers, or a method run's (R187). -/
structure Env where
  lanes   : Nat
  exm     : Mask
  nregs   : Nat
  wb      : Nat
  vregs   : FMap Word
  preds   : FMap Mask
  sregs   : FMap Word
  latches : List Latch
  dix     : DWord
  seed    : DWord
  fpctl   : Word
  thr     : Word
  deriving DecidableEq, Repr

/-- The physical register of a window index (R173). -/
def Env.phys (e : Env) (i : Nat) : Nat := (e.wb + i) % e.nregs
def Env.vec (e : Env) (i lane : Nat) : Word := fget 0 (e.phys i * 64 + lane) e.vregs
def Env.sca (e : Env) (i : Nat) : Word := fget 0 i e.sregs
def Env.pred (e : Env) (k : Nat) : Mask := fget 0 k e.preds
/-- A latch's value for a lane (R24). -/
def Env.latch (e : Env) (j lane : Nat) : Word :=
  match e.latches[j]? with
  | some l => if l.vec then l.vals.getD lane 0 else l.vals.getD 0 0
  | none => 0

/-- A vector-or-scalar source of a lane (R63). -/
def Env.src (e : Env) (x : BitVec 9) (uni : Bool) (lane : Nat) : Word :=
  if fLatch x then e.latch (fIdx x % 8) lane else if uni then e.sca (fIdx x) else e.vec (fIdx x) lane
/-- A scalar source. -/
def Env.ssrc (e : Env) (x : BitVec 9) : Word := e.src x true 0
/-- An even pair, the low half in the even register (R44). -/
def Env.src64 (e : Env) (x : BitVec 9) (uni : Bool) (lane : Nat) : Nat :=
  if uni then (e.sca (fIdx x)).toNat + 2 ^ 32 * (e.sca (fIdx x + 1)).toNat
  else (e.vec (fIdx x) lane).toNat + 2 ^ 32 * (e.vec (fIdx x + 1) lane).toNat

/-- The guard's lanes (R27, R28). -/
def Env.guard (e : Env) (g : BitVec 5) : Mask :=
  if g.getLsbD 4 then (if g.getLsbD 3 then ~~~ (e.pred (g.toNat % 8)) else e.pred (g.toNat % 8)) else BitVec.allOnes 64
/-- The active lanes (R28, R62). -/
def Env.active (e : Env) (g : BitVec 5) : Mask := e.exm &&& e.guard g &&& lowMask e.lanes

/-! ## Encodings that trap (R41): each fault with its reason -/

/-- The faults an encoding could have: whether each is present, and its reason. -/
abbrev Ck := List (Bool × Nat)

/-- The lowest reason of the faults present. -/
def lowest : Ck → Option Nat
  | [] => none
  | (b, r) :: t =>
    match lowest t with
    | none => if b then some r else none
    | some q => if b && r < q then some r else some q

def ckPost (p : BitVec 4) : Ck := [(12 ≤ p.toNat && p.toNat ≤ 14, 5)]
def ckGuard (g : BitVec 5) : Ck := [(!g.getLsbD 4 && g != 0, 5)]
/-- A latch field (R24, R27). -/
def ckLatch (e : Env) (x : BitVec 9) (scalar : Bool) : Ck :=
  [(fIdx x / 8 != 0, 2), (e.latches.length ≤ fIdx x % 8, 4),
   (scalar && ((e.latches[fIdx x % 8]?).map (·.vec)).getD false, 4)]
/-- A vector source, or a latch of either kind. -/
def ckV1 (e : Env) (x : BitVec 9) : Ck := if fLatch x then ckLatch e x false else [(e.nregs ≤ fIdx x, 3)]
/-- A scalar source, or a scalar latch. -/
def ckS1 (e : Env) (x : BitVec 9) : Ck := if fLatch x then ckLatch e x true else [(63 < fIdx x, 3)]
/-- A latch where none is allowed; its bits [7:3] must be zero all the same (R27). -/
def ckNoLatch (x : BitVec 9) : Ck := [(fIdx x / 8 != 0, 2), (true, 4)]
/-- An aligned range of n vector registers; a latch cannot name one. -/
def ckVn (e : Env) (x : BitVec 9) (align n : Nat) : Ck :=
  if fLatch x then ckNoLatch x else [(fIdx x % align != 0, 3), (e.nregs < fIdx x + n, 3)]
/-- An aligned range of n scalar registers. -/
def ckSn (x : BitVec 9) (align n : Nat) : Ck :=
  if fLatch x then ckNoLatch x else [(fIdx x % align != 0, 3), (64 < fIdx x + n, 3)]
/-- A destination of n vector or scalar registers. -/
def ckVd (e : Env) (x : BitVec 9) (align n : Nat) : Ck :=
  [(dIdx x % align != 0, 3), (e.nregs < dIdx x + n, 3)]
def ckSd (x : BitVec 9) (align n : Nat) : Ck := [(dIdx x % align != 0, 3), (64 < dIdx x + n, 3)]
/-- A destination that may not suppress its write-back (R25). -/
def ckWb (x : BitVec 9) : Ck := [(dNowb x, 2)]
def ckZero (b : Bool) : Ck := [(!b, 2)]

/-! ## Types and elements (R32, R43 to R46, R65) -/

/-- P: the elements of a register (R65, R90). -/
def packOf (t : Nat) : Nat :=
  match typeBits t with
  | 16 => 2 | 8 => 4 | 4 => 8 | _ => 1
def is64 (t : Nat) : Bool := t = 6 || t = 7
/-- A signed integer type. -/
def isSigned (t : Nat) : Bool := t < 8 && t % 2 = 0
/-- The wide float format of a type code. -/
def wideOf (t : Nat) : Wide :=
  match t with
  | 9 => bf16 | 10 => f16 | 11 => f24 | _ => f32
def isWide (t : Nat) : Bool := 8 ≤ t && t ≤ 11

/-- Element k of a register or pair (R44, R46). -/
def elemGet (t x k : Nat) : Nat := if t = 11 then x / 256 % 2 ^ 24 else x / 2 ^ (typeBits t * k) % 2 ^ typeBits t
/-- An element placed as element k of a register. -/
def elemPut (t k v : Nat) : Nat := if t = 11 then v % 2 ^ 24 * 256 else v % 2 ^ typeBits t * 2 ^ (typeBits t * k)

/-- The value of one element, with STICKY bits: from its number and the elements of A, B and C. -/
abbrev ElemOp := Nat → Nat → Nat → Nat → Nat × Word

/-- The used count's number of elements (R65). -/
def usedOf (t count : Nat) : Nat := if count = 0 then packOf t else count

/-- A lane's value: the operation on each used element, A's element elsewhere (R65, R76). -/
def elemwise (t count : Nat) (op : ElemOp) (a b c : Nat) : Nat × Word :=
  (List.range (packOf t)).foldl (fun (acc : Nat × Word) k =>
    let (v, st) := if k < usedOf t count then op k (elemGet t a k) (elemGet t b k) (elemGet t c k)
      else (elemGet t a k, 0)
    (acc.1 + elemPut t k v, acc.2 ||| st)) (0, 0)

/-- An integer element as an exact integer. -/
def intOf (t x : Nat) : Int := if isSigned t then signedOf (typeBits t) x else (x % 2 ^ typeBits t : Nat)
/-- An exact result wrapped or, with sat, clamped to its type (R74, R76). -/
def intRes (t : Nat) (sat : Bool) (i : Int) : Nat × Word :=
  let w := typeBits t
  let hi : Int := if isSigned t then 2 ^ (w - 1) - 1 else 2 ^ w - 1
  let lo : Int := if isSigned t then -(2 ^ (w - 1)) else 0
  if sat then
    let c := if i < lo then lo else if hi < i then hi else i
    (wrapTo w c, stIf (i != c) stIsat)
  else (wrapTo w i, 0)

/-- A shift of a w-bit value; counts of w or more give 0 or all sign bits. -/
def shlBits (w x k : Nat) : Nat := if w ≤ k then 0 else x * 2 ^ k % 2 ^ w
def shrBits (t x k : Nat) : Nat :=
  let w := typeBits t
  let k := if w ≤ k then w else k
  if isSigned t then wrapTo w (signedOf w x / (2 ^ k : Nat)) else x % 2 ^ w / 2 ^ k

/-- The six conditions on an order (R74, R78). -/
def condOf (c : Nat) (lt eq : Bool) : Bool :=
  match c with
  | 0 => eq | 1 => !eq | 2 => lt | 3 => lt || eq | 4 => !(lt || eq) | _ => !lt

/-- Count of leading zeros, of trailing zeros, of set bits; bit and byte reversal of a 32-bit word (R74, R77). -/
def clz32 (x : Nat) : Nat := 32 - bitLen x
def ctz32 (x : Nat) : Nat := ((List.range 32).find? (fun i => bitOf x i)).getD 32
def popc32 (x : Nat) : Nat := ((List.range 32).filter (fun i => bitOf x i)).length
def brev32 (x : Nat) : Nat := (List.range 32).foldl (fun a i => if bitOf x i then a + 2 ^ (31 - i) else a) 0
def bswap32 (x : Nat) : Nat := bytesNat (natBytes 4 x).reverse

/-! ## Rounding (R55, R56, R58) -/

/-- The rounding code in force: FPCTL's for code 5. -/
def Env.rcode (e : Env) (r : BitVec 3) : Nat := if r.toNat = 5 then e.fpctl.toNat % 8 else r.toNat
/-- The mode of a lane's element k of total rounded elements. -/
def Env.mode (e : Env) (r : BitVec 3) (lane total k : Nat) : Rnd :=
  match e.rcode r with
  | 1 => .rz | 2 => .rd | 3 => .ru
  | 4 => noiseOf e.dix e.seed lane total k
  | _ => .rne
def Rnd.isRd : Rnd → Bool
  | .rd => true
  | _ => false
def Env.fp8sat (e : Env) : Bool := e.fpctl.getLsbD 3

/-! ## The result of an instruction over lanes -/

/-- What an instruction writes: vector registers (by window index), scalar registers and predicates, its result for the
latches, its STICKY bits and its latency. -/
structure VOut where
  vecs   : List (Nat × Mask × List Word) := []
  scas   : List (Nat × Word) := []
  preds  : List (Nat × Mask × Mask) := []
  latch  : Option (Bool × List Word) := none
  sticky : Word := 0
  delay  : Nat := 6
  deriving DecidableEq, Repr

/-- The lanes' values under a mask, zero elsewhere, with the STICKY bits of the active lanes. -/
def laneVals (lanes : Nat) (mask : Mask) (g : Nat → Nat × Word) : List Nat × Word :=
  let r := (List.range lanes).map fun l => if mask.getLsbD l then g l else (0, 0)
  (r.map (·.1), r.foldl (fun a x => a ||| x.2) 0)

def toWords (l : List Nat) : List Word := l.map (BitVec.ofNat 32)
def hiWords (l : List Nat) : List Word := l.map fun x => BitVec.ofNat 32 (x / 2 ^ 32)

/-- The latency of a long form in a warp of some width (R66). -/
def longer (lanes n : Nat) : Nat := if lanes = 64 then n + 1 else n

/-! ## Format V -/

/-- What a V instruction allows: the number of sources it reads, its types, whether sat may be 1, whether it uses the round
field, the func bits it uses beside the used count, and whether it has a used count and a scalar form (R31, R63 to R65). -/
structure VOpts where
  n      : Nat
  types  : List Nat
  sat    : Bool := false
  rnd    : Bool := false
  func   : Nat := 0
  cnt    : Bool := true
  scalar : Bool := true
  dpred  : Bool := false
  long   : Bool := false
  extra  : Ck := []
  deriving DecidableEq, Repr


/-- The latch that a field names holds a vector (R24). -/
def Env.vecLatch (e : Env) (x : BitVec 9) : Bool := ((e.latches[fIdx x % 8]?).map (·.vec)).getD false

/-- One source of format V. A scalar operation's sources are scalar registers and scalar latches, and any other form of it is a
fault of reason 2 (R64). -/
def ckVsrc (e : Env) (used wide scalar : Bool) (x : BitVec 9) (uni : Bool) : Ck :=
  if !used then [(x != 0 || uni, 2)]
  else if fLatch x then
    ([(uni, 2), (wide, 4), (scalar && e.vecLatch x, 2)] : Ck) ++ ckLatch e x scalar
  else if uni then (if wide then ckSn x 2 2 else ckS1 e x)
  else ([(scalar, 2)] : Ck) ++ (if wide then ckVn e x 2 2 else ckV1 e x)

/-- The encodings of format V that trap (R31, R32, R41, R63 to R66, R76). A 64-bit type code makes pairs of the registers (R44, R66)
whether or not the instruction accepts the type: the lowest reason of the faults is reported (log 105). -/
def ckV (e : Env) (f : VFmt) (o : VOpts) : Ck :=
  let wide := is64 f.t
  let sop := f.isScalar && o.scalar
  ckPost f.post ++ ckGuard f.guard ++
  ([(6 ≤ f.round.toNat, 5), (!o.rnd && f.round != 0, 2), (!o.types.contains f.t, 5),
   (!(f.sat = 0 || (o.sat && f.sat = 1)), 2),
   (f.func.toNat &&& (4095 - (o.func ||| (if o.cnt then 0xF00 else 0))) != 0, 2),
   (o.cnt && packOf f.t ≤ f.count && f.count != 0, 2),
   (f.isScalar && !o.scalar, 2), (sop && f.guard != 0, 2),
   ((wide || o.long || o.dpred) && dNowb f.dst, 2)] : Ck) ++
  (if o.dpred then ([(7 < dIdx f.dst, 3)] : Ck)
   else if f.isScalar then (if wide then ckSd f.dst 2 2 else ckSd f.dst 1 1)
   else (if wide then ckVd e f.dst 2 2 else ckVd e f.dst 1 1)) ++
  ckVsrc e (1 ≤ o.n) wide sop f.sa f.uniA ++ ckVsrc e (2 ≤ o.n) wide sop f.sb f.uniB ++
  ckVsrc e (3 ≤ o.n) wide sop f.sc f.uniC ++ o.extra

/-- Source A, B or C of a lane as a number, a pair for the 64-bit types. -/
def Env.va (e : Env) (f : VFmt) (lane : Nat) : Nat :=
  if is64 f.t then e.src64 f.sa f.uniA lane else (e.src f.sa f.uniA lane).toNat
def Env.vb (e : Env) (f : VFmt) (lane : Nat) : Nat :=
  if is64 f.t then e.src64 f.sb f.uniB lane else (e.src f.sb f.uniB lane).toNat
def Env.vc (e : Env) (f : VFmt) (lane : Nat) : Nat :=
  if is64 f.t then e.src64 f.sc f.uniC lane else (e.src f.sc f.uniC lane).toNat

/-- The result of an instruction that acts in the lanes of a mask: with no active lane it writes nothing and completes 6 cycles after
issue, whatever its latency otherwise (R62, log 106). -/
def VOut.inLanes (m : Mask) (o : VOut) : VOut := if m = 0 then { o with vecs := [], scas := [], preds := [], delay := 6 } else o

/-- An instruction's result from a value for each lane: a scalar operation executes once as lane 0 (R64). -/
def vResult (e : Env) (f : VFmt) (long : Option Nat) (g : Nat → Nat × Word) : VOut :=
  let wide := is64 f.t
  let delay := match long with
    | some n => longer e.lanes n
    | none => if wide then longer e.lanes 8 else 6
  let slow := wide || long.isSome
  if f.isScalar then
    let (v, st) := g 0
    { scas := if dNowb f.dst then [] else (dIdx f.dst, BitVec.ofNat 32 v) ::
        (if wide then [(dIdx f.dst + 1, BitVec.ofNat 32 (v / 2 ^ 32))] else []),
      latch := if slow then none else some (false, [BitVec.ofNat 32 v]), sticky := st, delay := delay }
  else
    let m := e.active f.guard
    let (vs, st) := laneVals e.lanes m g
    VOut.inLanes m
      { vecs := if dNowb f.dst then [] else (dIdx f.dst, m, toWords vs) ::
          (if wide then [(dIdx f.dst + 1, m, hiWords vs)] else []),
        latch := if slow then none else some (true, toWords vs), sticky := st, delay := delay }

/-- An elementwise instruction (R76). -/
def vElem (e : Env) (f : VFmt) (op : Nat → ElemOp) : VOut :=
  vResult e f none fun l => elemwise f.t f.count (op l) (e.va f l) (e.vb f l) (e.vc f l)

/-- A predicate result (R78). -/
def vPred (e : Env) (f : VFmt) (g : Nat → Bool) : VOut :=
  let m := e.active f.guard
  VOut.inLanes m
    { preds := [(dIdx f.dst, m, maskOf fun l => m.getLsbD l && g l)],
      delay := if is64 f.t then longer e.lanes 8 else 6 }

/-- A V instruction: what it allows and what it computes. -/
structure VOp where
  opts : VOpts
  eval : Env → VOut

/-! ## Format S (R33, R73) -/


/-- What an S instruction allows: its types, subops, whether it takes source A and the immediate, and whether its result is
one 32-bit register for every type. -/
structure SOpts where
  types : List Nat
  subs  : List Nat := [0]
  src   : Bool := true
  imm   : Bool := true
  one   : Bool := false
  extra : Ck := []
  deriving DecidableEq, Repr

/-- The encodings of format S that trap (R33, R41, R73). -/
def ckS (e : Env) (f : SFmt) (o : SOpts) : Ck :=
  let wide := is64 f.t
  ckPost f.post ++
  ([(f.rsv != 0, 2), (!o.types.contains f.t, 5), (!o.subs.contains f.subop.toNat, 2), (!o.imm && f.imm != 0, 2),
   (!o.src && f.sa != 0, 2), (wide && dNowb f.dst, 2)] : Ck) ++
  (if wide && !o.one then (if f.isVec then ckVd e f.dst 2 2 else ckSd f.dst 2 2)
   else (if f.isVec then ckVd e f.dst 1 1 else ckSd f.dst 1 1)) ++
  (if !o.src then []
   else if wide then (if f.isVec then ckVn e f.sa 2 2 else ckSn f.sa 2 2)
   else (if f.isVec then ckV1 e f.sa else ckS1 e f.sa)) ++ o.extra

/-- Source A of a lane. -/
def Env.sA (e : Env) (f : SFmt) (lane : Nat) : Nat :=
  if is64 f.t then e.src64 f.sa (!f.isVec) lane else (e.src f.sa (!f.isVec) lane).toNat

/-- An S instruction's result: once, or in each lane of EXM (R73). -/
def sResult (e : Env) (f : SFmt) (one : Bool) (g : Nat → Nat × Word) : VOut :=
  let wide := is64 f.t
  let two := wide && !one
  let delay := if wide then longer e.lanes 8 else 6
  if f.isVec then
    let m := e.exm &&& lowMask e.lanes
    let (vs, st) := laneVals e.lanes m fun l => g (e.sA f l)
    VOut.inLanes m
      { vecs := if dNowb f.dst then [] else (dIdx f.dst, m, toWords vs) ::
          (if two then [(dIdx f.dst + 1, m, hiWords vs)] else []),
        latch := if wide then none else some (true, toWords vs), sticky := st, delay := delay }
  else
    let (v, st) := g (e.sA f 0)
    { scas := if dNowb f.dst then [] else (dIdx f.dst, BitVec.ofNat 32 v) ::
        (if two then [(dIdx f.dst + 1, BitVec.ofNat 32 (v / 2 ^ 32))] else []),
      latch := if wide then none else some (false, [BitVec.ofNat 32 v]), sticky := st, delay := delay }

end Sys2Proof.Machine
end

