-- ==== Sys2Proof/Machine/Flags.lean ====
section
/-! DEFINITION. STICKY (R68 to R71) and the completion flags (R21). -/

namespace Sys2Proof.Machine

/-- The bits of STICKY that exist (R68). -/
def stickyMask : Word := 0x3FF

/-- Contributions land: ORed into STICKY (R71). -/
def Warp.land (w : Warp) (st : Word) : Warp :=
  { w with sticky := w.sticky ||| (st &&& stickyMask), landed := w.landed ||| (st &&& stickyMask) }

/-- The pending count of a flag (R21). -/
def Warp.flag (w : Warp) (k : Nat) : Nat := fget 0 k w.flags
/-- A post: the count rises when the instruction issues. -/
def Warp.post (w : Warp) (k : Option Nat) : Warp :=
  match k with
  | some k => { w with flags := fset 0 k (w.flag k + 1) w.flags }
  | none => w
/-- A completion: the count falls. -/
def Warp.unpost (w : Warp) (k : Option Nat) : Warp :=
  match k with
  | some k => { w with flags := fset 0 k (w.flag k - 1) w.flags }
  | none => w

/-- Every flag of a wait mask is set (R21, R22). -/
def Warp.waitOk (w : Warp) (m : BitVec 12) : Bool := (List.range 12).all fun k => !m.getLsbD k || w.flag k = 0

/-- The flag that a post field names (R27). -/
def postFlag (p : BitVec 4) : Option Nat := if p.toNat < 12 then some p.toNat else none
/-- A flag as a bit of a trailer mask. -/
def flagBit (k : Option Nat) : BitVec 12 :=
  match k with
  | some k => BitVec.ofNat 12 (2 ^ k)
  | none => 0

end Sys2Proof.Machine
end

