-- ==== Sys2Proof/Machine/Profile.lean ====
section
/-! DEFINITION. For each instruction the header it carries (R26, R27) and the registers and latches it reads and writes (R29,
R30, R63, R66, R133, R136, R146, R153, R165, R177, R188): what the checks of pairs (R12), outstanding writes (R23), tags
(R196) and issue conflicts (R199) look at. Generated by the format tables of the chapters. -/

namespace Sys2Proof.Machine

/-- The header of an instruction, its post field and its trailer; events have opcode 0x400. -/
structure Head where
  op      : Nat := 0x400
  wait    : BitVec 12 := 0
  dist    : Nat := 1
  post    : BitVec 4 := 15
  trailer : BitVec 12 := 0
  ends    : Bool := false              -- it ends its run (R18)
  scalar  : Bool := false              -- a scalar operation (R64), or format S with vec = 0
  slow    : Bool := false              -- one register, but long-latency (R73)
  deriving DecidableEq, Repr

/-- The registers and latches an instruction uses: vector, block, scalar and predicate registers and latches that it reads,
vector, scalar and predicate registers that it writes. Vector registers are window indices. blk holds those that use no bank in the
issue cycle: of block sources, and those that a call pushes (R173, R199). nw counts destinations whose write-back is suppressed (R25). -/
structure Uses where
  vr : List Nat := []
  blk : List Nat := []
  sr : List Nat := []
  pr : List Nat := []
  lr : List Nat := []
  vw : List Nat := []
  sw : List Nat := []
  pw : List Nat := []
  nw : Nat := 0
  deriving DecidableEq, Repr

def Uses.plus (a b : Uses) : Uses :=
  ⟨a.vr ++ b.vr, a.blk ++ b.blk, a.sr ++ b.sr, a.pr ++ b.pr, a.lr ++ b.lr, a.vw ++ b.vw, a.sw ++ b.sw, a.pw ++ b.pw, a.nw + b.nw⟩

structure Profile where
  head : Head := {}
  uses : Uses := {}
  deriving DecidableEq, Repr

/-- A source field of n registers, scalar ones when uni. -/
def uSrc (x : BitVec 9) (uni : Bool) (n : Nat) : Uses :=
  if fLatch x then { lr := [fIdx x % 8] } else if uni then { sr := upFrom (fIdx x) n } else { vr := upFrom (fIdx x) n }
def uDst (x : BitVec 9) (sca : Bool) (n : Nat) : Uses :=
  if dNowb x then { nw := n } else if sca then { sw := upFrom (dIdx x) n } else { vw := upFrom (dIdx x) n }
def uGuard (g : BitVec 5) : Uses := if g.getLsbD 4 then { pr := [g.toNat % 8] } else {}
def uIf (b : Bool) (u : Uses) : Uses := if b then u else {}

def hV (op : Nat) (f : VFmt) : Head := { op := op, wait := f.wait, dist := f.dist.toNat, post := f.post, scalar := f.isScalar }
def hS (op : Nat) (f : SFmt) : Head := { op := op, wait := f.wait, dist := f.dist.toNat, post := f.post, scalar := !f.isVec }
def hM (op : Nat) (f : MFmt) : Head := { op := op, wait := f.wait, dist := f.dist.toNat, post := f.post }
def hA (op : Nat) (f : AFmt) : Head := { op := op, wait := f.wait, dist := f.dist.toNat, post := f.post }
def hX (op : Nat) (f : XFmt) : Head := { op := op, wait := f.wait, dist := f.dist.toNat, post := f.post }
def hB (op : Nat) (f : BFmt) : Head :=
  { op := op, wait := f.wait, dist := f.dist.toNat, trailer := f.trailer, ends := true }
def hT (op : Nat) (f : TFmt) (ends : Bool) : Head :=
  { op := op, wait := f.wait, dist := f.dist.toNat, post := f.post, trailer := f.trailer, ends := ends }
/-- The header of a word whose opcode is unassigned. -/
def hU (f : UFmt) : Head := { op := f.op.toNat, wait := f.bits.extractLsb' 74 12, dist := (f.bits.extractLsb' 70 4).toNat }

/-- The sources of format V, the first n of them, with the guard (R31). -/
def uVsrc (f : VFmt) (n : Nat) : Uses :=
  let k := if is64 f.t then 2 else 1
  (uGuard f.guard).plus ((uIf (1 ≤ n) (uSrc f.sa f.uniA k)).plus
    ((uIf (2 ≤ n) (uSrc f.sb f.uniB k)).plus (uIf (3 ≤ n) (uSrc f.sc f.uniC k))))
def uVdst (f : VFmt) : Uses := uDst f.dst f.isScalar (if is64 f.t then 2 else 1)
def pV (op : Nat) (f : VFmt) (n : Nat) : Profile := ⟨hV op f, (uVsrc f n).plus (uVdst f)⟩
/-- A predicate destination (R78). -/
def pVp (op : Nat) (f : VFmt) (n : Nat) : Profile := ⟨hV op f, (uVsrc f n).plus { pw := [dIdx f.dst] }⟩
def pVsel (op : Nat) (f : VFmt) : Profile := ⟨hV op f, ((uVsrc f 2).plus (uVdst f)).plus { pr := [f.func.toNat % 8] }⟩
/-- The sources that an operation of VQOP reads (R78). -/
def readsQa (k : Nat) : Bool := k ≤ 4 || k = 7
def readsQb (k : Nat) : Bool := k ≤ 3
def pVqop (op : Nat) (f : VFmt) : Profile :=
  let k := f.func.toNat % 8
  ⟨hV op f, ((uGuard f.guard).plus { pw := [dIdx f.dst] }).plus
    ((uIf (readsQa k) { pr := [fIdx f.sa] }).plus (uIf (readsQb k) { pr := [fIdx f.sb] }))⟩
/-- VCVT reads three sources in its narrowing form (R90). -/
def pVcvt (op : Nat) (f : VFmt) : Profile := pV op f (if packOf (f.func.toNat / 16 % 16) < packOf f.t then 3 else 1)
/-- VQBLK reads and writes ranges; its sources are no register block, so each counts at its bank (R92, R199; log 132). -/
def pVqblk (op : Nat) (f : VFmt) : Profile :=
  ⟨hV op f, (uGuard f.guard).plus
    { vr := upFrom (fIdx f.sa) (if f.t = 9 then 12 else 24), vw := upFrom (dIdx f.dst) (if f.func.getLsbD 2 then 4 else 7) }⟩
/-- VQCVT writes a predicate, the destination and the side list (R96). -/
def pVqcvt (op : Nat) (f : VFmt) : Profile :=
  ⟨hV op f, (uGuard f.guard).plus (((uSrc f.sa f.uniA 1).plus (uSrc f.sc f.uniC 1)).plus
    { vw := [dIdx f.dst, fIdx f.sb], pw := [f.func.toNat / 16 % 8] })⟩
/-- VVOTE reads a predicate; a ballot of 64 lanes writes a pair (R101). -/
def pVvote (op : Nat) (f : VFmt) (lanes : Nat) : Profile :=
  ⟨hV op f, (uGuard f.guard).plus
    ((uDst f.dst true (if lanes = 64 && f.func.toNat % 4 = 0 then 2 else 1)).plus { pr := [fIdx f.sa] })⟩
/-- A cross-lane instruction that may write a scalar from a vector source (R100, R103). -/
def pVx (op : Nat) (f : VFmt) (n : Nat) : Profile := ⟨{ hV op f with scalar := false }, (uVsrc f n).plus (uVdst f)⟩

def pS (op : Nat) (f : SFmt) (src one : Bool) : Profile :=
  let k := if is64 f.t then 2 else 1
  ⟨{ hS op f with slow := one && is64 f.t }, (uIf src (uSrc f.sa (!f.isVec) k)).plus (uDst f.dst (!f.isVec) (if one then 1 else k))⟩

/-- The registers of a size code (R136). -/
def sizeRegs (size : Nat) : Nat := if size = 3 then 2 else if size = 4 then 4 else 1
/-- An address base of format M (R133). -/
def uBase (f : MFmt) : Uses := uSrc f.base (f.mode.getLsbD 2) (if f.space = 3 then 2 else 1)
def dataRegs (f : MFmt) (i : Nat) : List Nat :=
  if f.height = 0 && f.width = 0 then upFrom i (sizeRegs f.size.toNat) else blockRegs i (extent f.height) (extent f.width)
def pLd (op : Nat) (f : MFmt) : Profile :=
  ⟨hM op f, (uGuard f.guard).plus ((uBase f).plus
    (if f.mode.getLsbD 1 then { sw := upFrom (dIdx f.data) (sizeRegs f.size.toNat) } else { vw := dataRegs f (dIdx f.data) }))⟩
def pSt (op : Nat) (f : MFmt) : Profile :=
  ⟨hM op f, (uGuard f.guard).plus ((uBase f).plus
    (if f.height = 0 && f.width = 0 then uSrc f.data (f.mode.getLsbD 1) (sizeRegs f.size.toNat)
     else { blk := dataRegs f (fIdx f.data) }))⟩
def pTmov (op : Nat) (f : MFmt) : Profile :=
  ⟨hM op f, (uSrc f.data true (if f.mode = 3 then 2 else 1)).plus (uSrc f.base true (if f.space = 3 then 2 else 1))⟩
def pBv (op : Nat) (f : MFmt) : Profile := ⟨hM op f, (uSrc f.data true 1).plus (uSrc f.base true 1)⟩
def pBvtst (op : Nat) (f : MFmt) : Profile :=
  ⟨hM op f, (uGuard f.guard).plus ((uBase f).plus { pw := [dIdx f.data] })⟩

/-- An atomic of format A with b and c operands (R146). -/
def pAtom (op : Nat) (f : AFmt) (b c : Bool) : Profile :=
  let k := if f.size = 3 then 2 else 1
  ⟨hA op f, (uGuard f.guard).plus ((uSrc f.addr false (if f.space = 3 then 2 else 1)).plus
    ((uIf b (uSrc f.opb false k)).plus ((uIf c (uSrc f.opc false k)).plus (uIf (!dNowb f.dst) (uDst f.dst false k)))))⟩
/-- A synchronisation instruction: address and operand as scalars, n destination scalars (R153). -/
def pSync (op : Nat) (f : AFmt) (a b : Bool) (bn n : Nat) : Profile :=
  ⟨hA op f, (uIf a (uSrc f.addr true (if f.space = 3 then 2 else 1))).plus
    ((uIf b (uSrc f.opb true bn)).plus (uDst f.dst true n))⟩

def pX (op : Nat) (f : XFmt) (a b : Bool) : Profile := ⟨hX op f, (uIf a (uSrc f.pa true 1)).plus (uIf b (uSrc f.pb true 1))⟩
def pFpost (op : Nat) (f : XFmt) (pay : Bool) : Profile :=
  ⟨hX op f, { vr := upFrom (fIdx f.pa) 2 ++ (if pay then upFrom (fIdx f.pb) (f.func.toNat % 8 + 1) else []) }⟩
def pSample (op : Nat) (f : XFmt) : Profile := ⟨hX op f, { vr := upFrom (fIdx f.pa) 2, vw := upFrom (fIdx f.pb) 4 }⟩

def pB (op : Nat) (f : BFmt) (u : Uses) : Profile := ⟨hB op f, u⟩
/-- The slide of a call, in registers (R173). -/
def slideOf (f : BFmt) : Nat := 16 * (f.func.toNat % 16)

/-- The system registers of 64 bits (R189). -/
def sysWide (lanes n : Nat) : Bool := n = 2 || n = 3 || n = 4 || n = 9 || n = 10 || n = 11 || (n = 0 && lanes = 64)
def sysRegs (lanes : Nat) (f : TFmt) : Nat := if sysWide lanes f.sysreg.toNat then 2 else 1

/-- The profile of an instruction in a warp of some width; an event has none. -/
def profile (lanes : Nat) : Instr → Profile
  | .nop f => ⟨hT 0x000 f false, {}⟩
  | .seal f => ⟨hT 0x001 f true, {}⟩
  | .trap f => ⟨hT 0x002 f true, {}⟩
  | .trapBkpt f => ⟨hT 0x002 f true, {}⟩
  | .tret f => ⟨hT 0x003 f true, {}⟩
  | .sysrd f => ⟨hT 0x004 f false, uDst f.dst true (sysRegs lanes f)⟩
  | .sysrdSticky f => ⟨hT 0x004 f false, uDst f.dst true 1⟩
  | .sysrdLclk f => ⟨hT 0x004 f false, uDst f.dst true 2⟩
  | .syswr f => ⟨hT 0x005 f false, uSrc f.sa true (sysRegs lanes f)⟩
  | .syswrExm f => ⟨hT 0x005 f false, uSrc f.sa true (sysRegs lanes f)⟩
  | .syswrSticky f => ⟨hT 0x005 f false, uSrc f.sa true 1⟩
  | .syswrFpctl f => ⟨hT 0x005 f false, uSrc f.sa true 1⟩
  | .mbxsend f => ⟨hT 0x006 f false, (uSrc f.sa true 1).plus (uDst f.dst true 1)⟩
  | .mbxrecv f => ⟨hT 0x007 f false, (uSrc f.sa true 1).plus (uDst f.dst true 1)⟩
  | .spawn f => ⟨hT 0x008 f false, (uSrc f.sa true 2).plus (uDst f.dst true 1)⟩
  | .evput f => ⟨hT 0x009 f false, (uSrc f.sa true 4).plus (uDst f.dst true 1)⟩
  | .evget f => ⟨hT 0x00A f false, uDst f.dst true 5⟩
  | .lsync f => ⟨hT 0x00B f false, {}⟩
  | .logmk f => ⟨hT 0x00C f false, uSrc f.sa true 1⟩
  | .smovi f => pS 0x020 f false false
  | .saddi f => pS 0x021 f true false
  | .ssubi f => pS 0x022 f true false
  | .smuli f => pS 0x023 f true false
  | .sandi f => pS 0x024 f true false
  | .sori f => pS 0x025 f true false
  | .sxori f => pS 0x026 f true false
  | .sshli f => pS 0x027 f true false
  | .sshri f => pS 0x028 f true false
  | .scmpi f => pS 0x029 f true true
  | .smini f => pS 0x02A f true false
  | .smaxi f => pS 0x02B f true false
  | .slea f => pS 0x02C f true false
  | .sclz f => pS 0x02D f true false
  | .sctz f => pS 0x02D f true false
  | .spopc f => pS 0x02D f true false
  | .sbrev f => pS 0x02D f true false
  | .sbswap f => pS 0x02D f true false
  | .sext f => pS 0x02E f true false
  | .sident f => pS 0x02F f false false
  | .vaddInteger f => pV 0x040 f 2
  | .vsubInteger f => pV 0x041 f 2
  | .vmulInteger f => pV 0x042 f 2
  | .vmulhi f => pV 0x043 f 2
  | .vmad f => pV 0x044 f 3
  | .vminInteger f => pV 0x045 f 2
  | .vmaxInteger f => pV 0x046 f 2
  | .vabsInteger f => pV 0x047 f 1
  | .vnegInteger f => pV 0x048 f 1
  | .vand f => pV 0x049 f 2
  | .vor f => pV 0x04A f 2
  | .vxor f => pV 0x04B f 2
  | .vandn f => pV 0x04C f 2
  | .vshl f => pV 0x04D f 2
  | .vshr f => pV 0x04E f 2
  | .vcmpInteger f => pVp 0x04F f 2
  | .vsel f => pVsel 0x050 f
  | .vmov f => pV 0x051 f 1
  | .vdiv f => pV 0x052 f 2
  | .vrem f => pV 0x053 f 2
  | .vdot4 f => pV 0x054 f 3
  | .vclz f => pV 0x055 f 1
  | .vpopc f => pV 0x056 f 1
  | .vbrev f => pV 0x057 f 1
  | .vbfx f => pV 0x058 f 1
  | .vbfi f => pV 0x059 f 2
  | .vlaneid f => pV 0x05A f 0
  | .vqop f => pVqop 0x05B f
  | .vaddFloat f => pV 0x080 f 2
  | .vsubFloat f => pV 0x081 f 2
  | .vmulFloat f => pV 0x082 f 2
  | .vfma f => pV 0x083 f 3
  | .vfms f => pV 0x084 f 3
  | .vfnma f => pV 0x085 f 3
  | .vminFloat f => pV 0x086 f 2
  | .vmaxFloat f => pV 0x087 f 2
  | .vcmpFloat f => pVp 0x088 f 2
  | .vabsFloat f => pV 0x089 f 1
  | .vnegFloat f => pV 0x08A f 1
  | .vfclass f => pV 0x08B f 1
  | .vfdot2 f => pV 0x08C f 3
  | .vfscale f => pV 0x08D f 2
  | .vfrint f => pV 0x08E f 1
  | .vfcopysign f => pV 0x08F f 2
  | .vrcp f => pV 0x0C0 f 1
  | .vrsqrt f => pV 0x0C1 f 1
  | .vsqrt f => pV 0x0C2 f 1
  | .vexp2 f => pV 0x0C3 f 1
  | .vlog2 f => pV 0x0C4 f 1
  | .vsin f => pV 0x0C5 f 1
  | .vcos f => pV 0x0C6 f 1
  | .vtanh f => pV 0x0C7 f 1
  | .vcvt f => pVcvt 0x0E0 f
  | .vqblk f => pVqblk 0x0E1 f
  | .vqcvt f => pVqcvt 0x0E2 f
  | .vshfl f => pVx 0x100 f (if f.func.toNat % 8 = 0 then 2 else 1)
  | .vpswap f => pVx 0x101 f 1
  | .vbcast f => pVx 0x102 f 1
  | .vvote f => pVvote 0x103 f lanes
  | .vscan f => pVx 0x104 f 1
  | .vred f => pVx 0x105 f 1
  | .mclaim f => pX 0x120 f false false
  | .mfree f => pX 0x121 f false false
  | .mfill f => pX 0x122 f true (f.fmta != 8)
  | .mma f => pX 0x123 f (f.func.getLsbD 1) false
  | .mmas f => pX 0x124 f (f.func.getLsbD 1) false
  | .mzero f => pX 0x125 f false false
  | .maccld f => pX 0x126 f true true
  | .maccst f => pX 0x127 f true true
  | .mresolve f => pX 0x128 f false false
  | .mstat f => pX 0x129 f true false
  | .ld f => pLd 0x140 f
  | .st f => pSt 0x141 f
  | .tmov f => pTmov 0x142 f
  | .bvclr f => pBv 0x143 f
  | .bvset f => pBv 0x144 f
  | .bvtst f => pBvtst 0x145 f
  | .atomAdd f => pAtom 0x160 f true false
  | .atomUmin f => pAtom 0x161 f true false
  | .atomUmax f => pAtom 0x162 f true false
  | .atomSmin f => pAtom 0x163 f true false
  | .atomSmax f => pAtom 0x164 f true false
  | .atomAnd f => pAtom 0x165 f true false
  | .atomOr f => pAtom 0x166 f true false
  | .atomXor f => pAtom 0x167 f true false
  | .atomExch f => pAtom 0x168 f true false
  | .atomCas f => pAtom 0x169 f true true
  | .atomFadd f => pAtom 0x16A f true false
  | .atomFmin f => pAtom 0x16B f true false
  | .atomFmax f => pAtom 0x16C f true false
  | .atomLd f => pAtom 0x16D f false false
  | .atomSt f => pAtom 0x16E f true false
  | .fence f => pSync 0x180 f false false 1 0
  | .barsync f => pSync 0x181 f false (f.size = 1) 1 0
  | .bararv f => pSync 0x182 f false (f.size = 1) 1 0
  | .pbinit f => pSync 0x183 f true true 1 0
  | .pbarv f => pSync 0x184 f true true 1 1
  | .pbtx f => pSync 0x185 f true true 1 0
  | .pbwait f => pSync 0x186 f true true 1 0
  | .waitq f => pSync 0x187 f true true (if f.size = 3 then 2 else 1) 1
  | .wake f => pSync 0x188 f true true 1 1
  | .qpush f => pSync 0x189 f true true 1 1
  | .qpop f => pSync 0x18A f true false 1 2
  | .qpopw f => pSync 0x18B f true false 1 2
  | .bra f => pB 0x1A0 f (uIf (f.kind != 0) (uSrc f.cond true 1))
  | .bsplit f => pB 0x1A1 f { pr := [fIdx f.cond] }
  | .switch f => pB 0x1A2 f (uSrc f.cond false 1)
  | .join f => pB 0x1A3 f {}
  | .brx f => pB 0x1A4 f (uSrc f.cond false 2)
  | .call f => pB 0x1A5 f { blk := upFrom 0 (slideOf f) }
  | .callx f => pB 0x1A6 f ((uSrc f.cond true 2).plus { blk := upFrom 0 (slideOf f) })
  | .ret f => pB 0x1A7 f {}
  | .lnkw f => pB 0x1A8 f (uSrc f.cond false 2)
  | .exit f => pB 0x1A9 f {}
  | .cpy f => pX 0x1C0 f true false
  | .gather f => pX 0x1C1 f true true
  | .coll f => pX 0x1C2 f true true
  | .rwinOpen f => pX 0x1C3 f true false
  | .rwinClose f => pX 0x1C3 f true false
  | .rstream f => pX 0x1C4 f true false
  | .publish f => pX 0x1C5 f false false
  | .rast f => pX 0x1C6 f true false
  | .fpost f => pFpost 0x1C7 f true
  | .fnull f => pFpost 0x1C8 f false
  | .sample f => pSample 0x1C9 f
  | .mld f => ⟨hV 0x1E0 f, {}⟩
  | .mst f => ⟨hV 0x1E1 f, {}⟩
  | .mkill f => ⟨hV 0x1E2 f, {}⟩
  | .mend f => ⟨hV 0x1E3 f, {}⟩
  | .unassignedOpcode f => ⟨hU f, {}⟩
  | _ => {}

end Sys2Proof.Machine
end

