-- ==== Sys2Proof/Machine/Address.lean ====
section
/-! DEFINITION. The addresses that memory instructions and atomics form (R34, R35, R132, R133, R136, R146), and the places to which those
of mem make requests (R140, R217). -/

namespace Sys2Proof.Machine

/-! ## The fields of format M (R34, R133, R136) -/

def mBlock (f : MFmt) : Bool := f.height != 0 || f.width != 0
def mSize (f : MFmt) : Nat := 2 ^ f.size.toNat
/-- The bytes that one lane moves. -/
def mLane (f : MFmt) : Nat := if mBlock f then 4 * extent f.height * extent f.width else mSize f
/-- A scalar base (R133). -/
def mUni (f : MFmt) : Bool := f.mode.getLsbD 2
/-- Scalar data (R136). -/
def mSca (f : MFmt) : Bool := f.mode.getLsbD 1

/-- The address of a lane: modulo 2^64 for mem, modulo 2^32 elsewhere (R132). -/
def mAddr (e : Env) (f : MFmt) (lane : Nat) : Nat :=
  if f.space = 3 then (e.src64 f.base (mUni f) lane + (f.offset.signExtend 64).toNat) % 2 ^ 64
  else ((e.src f.base (mUni f) lane).toNat + (f.offset.signExtend 32).toNat) % 2 ^ 32

/-- The lanes that move data: once for scalar data (R136). -/
def mLanes (e : Env) (f : MFmt) : List Nat := if mSca f then [0] else bitsSet (e.active f.guard)

/-! ## The fields of format A (R35, R146) -/

def aBytes (f : AFmt) : Nat := 2 ^ f.size.toNat
/-- The address of a lane. -/
def aAddr (e : Env) (f : AFmt) (lane : Nat) : Nat :=
  if f.space = 3 then e.src64 f.addr false lane else (e.src f.addr false lane).toNat

/-! ## Requests (R140, R217) -/

/-- Bytes from an address as pieces of at most step bytes; a piece that would cross a 64 KiB page is cut into bytes. -/
def cut (va n step : Nat) : List (Nat × Nat) :=
  ((List.range (n / step)).map (· * step)).flatMap fun o =>
    if (va + o) % 65536 + step ≤ 65536 then [(o, step)] else (List.range step).map fun b => (o + b, 1)

/-- What an instruction accesses in mem or in an object: the addresses, with how many bytes from each, in pieces of a size. -/
def memSpans (s : State) (e : Env) (asid : Nat) : Instr → List (Nat × Nat × Nat)
  | .ld f => of f (if f.space = 4 then objPub (s.objEntry asid f.obj.toNat) else 0)
  | .st f =>
    let entry := s.objEntry asid f.obj.toNat
    of f (if f.space != 4 then 0 else if objKeyed entry then objPub entry else objDraft entry)
  | .atomAdd f | .atomUmin f | .atomUmax f | .atomSmin f | .atomSmax f | .atomAnd f | .atomOr f | .atomXor f | .atomExch f
  | .atomCas f | .atomFadd f | .atomFmin f | .atomFmax f | .atomLd f | .atomSt f =>
    let base := if f.space = 4 then objPub (s.objEntry asid f.ident.toNat) else 0
    if f.space.toNat < 3 then [] else (bitsSet (e.active f.guard)).map fun l => (base + aAddr e f l, aBytes f, aBytes f)
  | .waitq f | .wake f | .qpush f | .qpop f | .qpopw f => if f.space = 3 then [(e.src64 f.addr true 0, 4, 4)] else []
  | _ => []
where
  of (f : MFmt) (base : Nat) : List (Nat × Nat × Nat) :=
    if f.space.toNat < 3 then [] else (mLanes e f).map fun l => (base + mAddr e f l, mLane f, if mBlock f then 4 else mSize f)

/-- The number of places that an instruction's bytes lie at: the core sends one request to each. -/
def requestCount (s : State) (cluster asid : Nat) (l : List (Nat × Nat × Nat)) : Nat :=
  (l.foldl (fun (a : List UnitRef) x => (cut x.1 x.2.1 x.2.2).foldl (fun a p =>
    match s.leafOf cluster asid (x.1 + p.1) with
    | .leaf e level =>
      let u := (leafXlat e level (x.1 + p.1)).unit
      if a.contains u then a else u :: a
    | _ => a) a) []).length

end Sys2Proof.Machine
end

