-- ==== Sys2Proof/Machine/Ops.lean ====
section
/-! DEFINITION. The operations that every instruction shares: the issuing split, the text it runs (R9 to R15), the conditions of
issue (R12, R21, R22, R24), the issue of an instruction (R17, R18, R41, R59), its writes (R23 to R25), taking an exception
(R333 to R341) with the return beside it (R337), and the ending of crews and tasks (R342, R343). -/

namespace Sys2Proof.Machine

/-! ## The issuing split -/

/-- The split whose instruction is taken, with what it belongs to. -/
structure Issuer where
  ref   : SplitRef
  grp   : Group
  warp  : Warp
  split : Split
  task  : Task
  deriving DecidableEq, Repr

def Warp.split? (w : Warp) (e : Nat) : Option Split :=
  match flook e w.table with
  | some (.split x) => some x
  | _ => none

def State.splitAt (s : State) (r : SplitRef) : Option Split :=
  match s.warp? r.gid r.wid with
  | some w => w.split? r.ent
  | none => none

/-- The issuer for a split reference. -/
def State.issuerOf (s : State) (r : SplitRef) : Option Issuer :=
  match s.group? r.gid, s.warp? r.gid r.wid with
  | some g, some w =>
    match s.taskOf g, w.split? r.ent with
    | some t, some x => some ⟨r, g, w, x, t⟩
    | _, _ => none
  | _, _ => none

def State.issuer (s : State) : Option Issuer :=
  match s.cur with
  | .split r => s.issuerOf r
  | _ => none

def Issuer.env (c : Issuer) : Env :=
  { lanes := c.warp.width, exm := c.split.exm, nregs := c.warp.nregs, wb := c.split.wb, vregs := c.warp.vregs,
    preds := c.warp.preds, sregs := c.warp.sregs, latches := c.split.run.latches, dix := c.split.dix, seed := c.warp.seed,
    fpctl := c.warp.fpctl, thr := c.warp.thr }

def Entry.modSplit (f : Split → Split) : Entry → Entry
  | .split x => .split (f x)
  | e => e

def State.modSplit (s : State) (r : SplitRef) (f : Split → Split) : State :=
  s.modWarp r.gid r.wid fun w => { w with table := fmod r.ent (Entry.modSplit f) w.table }

def Issuer.die (c : Issuer) : Nat := coreDie c.grp.core
def Issuer.cluster (c : Issuer) : Nat := coreCluster c.grp.core
/-- The profile of an instruction where a split issues it: MRESOLVE of a provisional tile reads the register recorded there (R125). -/
def Issuer.profile (c : Issuer) (i : Instr) : Profile :=
  let p := Sys2Proof.Machine.profile c.warp.width i
  match i with
  | .mresolve f =>
    let t := (flook f.acc.toNat c.grp.tiles).getD {}
    if t.state = 1 then { p with uses := p.uses.plus { sr := [t.pred] } } else p
  | _ => p

/-! ## Program counters and lines (R9 to R14) -/

def lineOf (pc : DWord) : DWord := pc &&& ~~~ 63#64
def slotOf (pc : DWord) : Nat := pc.toNat % 8
/-- A program counter that R14 calls invalid. -/
def pcBad (pc : DWord) : Bool := 2 ^ 57 ≤ pc.toNat || pc.toNat / 8 % 8 != 0 || 4 < pc.toNat % 8
/-- The next program counter by fall-through (R14). -/
def nextPc (pc : DWord) : DWord := if slotOf pc < 4 then pc + 1 else (lineOf pc + 64) &&& (0x1FFFFFFFFFFFFFF#64)

def lineWord (text : List Byte) : Nat := fieldNat text 60 4
/-- The instruction in a slot (R9). -/
def instrAt (text : List Byte) (slot : Nat) : Instr := decodeWord (BitVec.ofNat 96 (fieldNat text (12 * slot) 12))
/-- The parity field agrees with the text (R10). -/
def parityOk (text : List Byte) : Bool :=
  (List.range 16).all fun k =>
    bitOf (lineWord text) (16 + k) =
      ((List.range 30).foldl (fun b i => b != bitOf (bytesNat (text.take 60)) (30 * k + i)) false)
/-- Check 4 of R15: reserved bits zero and no two adjacent template bits. -/
def lineWordOk (text : List Byte) : Bool :=
  let w := lineWord text
  bitsOf w 15 9 = 0 && !(bitOf w 5 && bitOf w 6) && !(bitOf w 6 && bitOf w 7) && !(bitOf w 7 && bitOf w 8)
def targetBit (text : List Byte) (slot : Nat) : Bool := bitOf (lineWord text) slot
/-- A slot and the next are a pair (R10, R12). -/
def pairBit (text : List Byte) (slot : Nat) : Bool := slot < 4 && bitOf (lineWord text) (5 + slot)

/-- The split has entered the line that holds its program counter. -/
def Split.entered (x : Split) : Bool := x.line = some (lineOf x.pc)
/-- The split stands at a new program counter, in a line it must enter. via names the transfer that makes it an explicit
target (R13). -/
def Split.goto (x : Split) (pc : DWord) (via : Option DWord) : Split :=
  { x with pc := pc, line := none, text := [], via := via, second := false }
/-- The split goes on as one group of a division, under its masks (R170). -/
def Split.take (x : Split) (g : SGroup) : Split := { x.goto g.pc g.via with held := g.held, exm := g.exm, second := g.fall }
/-- The split falls through to the next program counter. -/
def Split.fall (x : Split) : Split :=
  if slotOf x.pc < 4 then { x with pc := nextPc x.pc } else x.goto (nextPc x.pc) none

/-! ## Units (R199) and pairs (R12, R201) -/

inductive Res where
  | vec | sca | sfu | xl | mem | eng | br
  deriving DecidableEq, Repr

/-- The units an instruction uses (R199). -/
def unitsOf (h : Head) : List Res :=
  if h.op < 0x002 then []
  else if h.op < 0x020 then [.br]
  else if h.op < 0x040 then (if h.scalar then [.sca] else [.vec])
  else if h.op < 0x0C0 then (if h.scalar then [.sca] else [.vec])
  else if h.op < 0x0E0 then (if h.scalar then [.sfu, .sca] else [.sfu])
  else if h.op < 0x100 then (if h.scalar then [.sca] else [.vec])
  else if h.op < 0x120 then [.xl]
  else if h.op < 0x140 then [.eng]
  else if h.op < 0x1A0 then [.mem]
  else if h.op < 0x1C0 then [.br]
  else if h.op < 0x1E0 then [.eng]
  else []

/-- A unit that a 64-lane warp holds for two cycles (R61, R199). -/
def Res.isLane : Res → Bool
  | .vec | .sfu | .xl => true
  | _ => false
def laneUnit (h : Head) : Bool := (unitsOf h).any Res.isLane
def Res.code : Res → Nat
  | .vec => 0 | .sca => 1 | .sfu => 2 | .xl => 3 | .mem => 4 | .eng => 5 | .br => 6

/-- Together two instructions need more of a resource than there is; share: their vector lanes are disjoint (R199, R200). -/
def exceeds (share : Bool) (a b : Profile) : Bool :=
  ((unitsOf a.head).any fun u => (unitsOf b.head).contains u && !(share && u = .vec)) ||
  ((List.range 4).any fun k => 4 < ((a.uses.vr ++ b.uses.vr).filter (· % 4 = k)).length) ||
  4 < a.uses.sr.length + b.uses.sr.length

/-- An opcode block of fixed latency (R39). -/
def fixedBlock (op : Nat) : Bool := (0x020 ≤ op && op < 0x0C0) || (0x0E0 ≤ op && op < 0x120)
/-- A result-producing instruction (R24). -/
def producing (p : Profile) : Bool :=
  fixedBlock p.head.op && !p.head.slow && p.uses.pw = [] && p.uses.vw.length + p.uses.sw.length + p.uses.nw = 1

def meets (a b : List Nat) : Bool := a.any b.contains

/-- The pair breaks a rule of R12 or R201 at its second instruction b. -/
def pairBroken (lanes : Nat) (a b : Profile) : Bool :=
  a.head.ends || b.head.dist != 0 ||
  meets b.uses.vr a.uses.vw || meets b.uses.blk a.uses.vw || meets b.uses.sr a.uses.sw || meets b.uses.pr a.uses.pw ||
  (producing a && b.uses.lr.contains 0) || ((postFlag a.head.post).isSome && (postFlag b.head.post).isSome) ||
  exceeds false a b || (lanes = 64 && laneUnit a.head)

/-- The first instruction of the pair whose second the split stands at. -/
def Issuer.pairFirst (c : Issuer) : Option Instr :=
  if c.split.second then some (instrAt c.split.text (slotOf c.split.pc - 1)) else none

/-! ## Conditions of issue -/

/-- An operation of the matrix-transfer instructions (R154). -/
def matrixTransfer (op : Nat) : Bool := op = 0x122 || op = 0x126 || op = 0x127 || op = 0x129
/-- The instructions that a FENCE holds (R154). -/
def fenceHolds (op : Nat) : Bool := (0x140 ≤ op && op < 0x1A0) || (0x1C0 ≤ op && op < 0x1E0) || matrixTransfer op
/-- The matrix commands that enter a queue (R126). -/
def queuesMatrix (op : Nat) : Bool := (0x123 ≤ op && op ≤ 0x128)
/-- The synchronising operations of deterministic mode: the synchronisation block, and atomics on the bench (R302). -/
def isSyncOp (op : Nat) (space : Option Nat) : Bool := (0x180 ≤ op && op < 0x1A0) || (space = some 0 && 0x160 ≤ op && op < 0x180)

def isFence : PendKind → Bool
  | .fence _ _ _ => true
  | _ => false
def isFixed : PendKind → Bool
  | .fixed => true
  | _ => false
/-- The lanes whose operations precede, in program order, what a split of lanes m issues: its own and, in a serial record, those of the
record's other groups (R224). -/
def Warp.kinOf (w : Warp) (m : Mask) : Mask := w.records.foldl (fun a p => if p.2.held &&& m != 0 then a ||| p.2.held else a) m
/-- An outstanding operation that precedes the split's next instruction in program order (R224). -/
def Issuer.pends (c : Issuer) (p : Pend → Bool) : Bool := c.warp.pend.any fun q => q.lanes &&& c.warp.kinOf c.split.held != 0 && p q

/-- The space that a memory, atomic or synchronisation instruction names (R34, R35). -/
def memSpace : Instr → Option Nat
  | .ld f | .st f | .tmov f | .bvclr f | .bvset f | .bvtst f => some f.space.toNat
  | .atomAdd f | .atomUmin f | .atomUmax f | .atomSmin f | .atomSmax f | .atomAnd f | .atomOr f | .atomXor f | .atomExch f
  | .atomCas f | .atomFadd f | .atomFmin f | .atomFmax f | .atomLd f | .atomSt f
  | .pbinit f | .pbarv f | .pbtx f | .pbwait f | .waitq f | .wake f | .qpush f | .qpop f | .qpopw f => some f.space.toNat
  | _ => none

/-- The least DIX of the warp's live splits (R302). -/
def Warp.lclk (w : Warp) : Nat :=
  w.table.foldl (fun a p => match p.2 with
    | .split x => if x.dix.toNat < a then x.dix.toNat else a
    | .frame _ => a) (2 ^ 64)

/-- An access of a split that has not been performed: a release waits for it (R148, R226). -/
def isAccess : PendKind → Bool
  | .load | .atomic _ | .store _ => true
  | _ => false

/-- The synchronisation instructions that are releases and act where they issue (R226). -/
def releasing : Instr → Bool
  | .barsync _ | .bararv _ | .pbarv _ => true
  | .wake f | .qpush f => f.space != 3
  | _ => false

/-- An outstanding operation that an instruction of its split waits for: a fence, an acquire's atomic, a scratchpad atomic still to be
performed; for a release, an access (R22, R148, R154, R226). -/
def holdsIssue (h : Head) (i : Instr) (q : Pend) : Bool :=
  (fenceHolds h.op && (isFence q.kind || q.acq || (q.hold.isSome && (q.hold = memSpace i || h.op = 0x142 || (memSpace i).isNone)))) ||
    (releasing i && isAccess q.kind)

/-- The operations of a warp that an instruction of a split waits for: those whose flag it names, and those that hold it (R21, R22). -/
def Warp.waitsFor (w : Warp) (x : Split) (i : Instr) : List Pend :=
  let h := (profile w.width i).head
  w.pend.filter fun q => (q.flag.map fun k => h.wait.getLsbD k).getD false || (q.lanes &&& w.kinOf x.held != 0 && holdsIssue h i q)

/-- A split waits only for the completion of synchronising operations that it has issued (R302). -/
def Warp.onlySyncs (w : Warp) (x : Split) : Bool :=
  let l := w.waitsFor x (instrAt x.text (slotOf x.pc)) ++
    (if pairBit x.text (slotOf x.pc) then w.waitsFor x (instrAt x.text (slotOf x.pc + 1)) else [])
  x.parked.isNone && x.trap.isNone && x.entered && l != [] && l.all fun q => q.sync && q.lanes &&& w.kinOf x.held != 0

/-- The keys of a warp's live splits, but for one entry: DIX, warp index, lowest held lane; a split that only waits for its
own synchronising operations has none (R302). -/
def Warp.clocks (w : Warp) (wid : Nat) (skip : Option Nat) : List (Nat × Nat × Nat) :=
  w.table.filterMap fun p => match p.2 with
    | .split x => if skip = some p.1 || w.onlySyncs x then none else some (x.dix.toNat, wid, lowestBit x.held)
    | .frame _ => none

def keyLt (a b : Nat × Nat × Nat) : Bool :=
  a.1 < b.1 || (a.1 = b.1 && (a.2.1 < b.2.1 || (a.2.1 = b.2.1 && a.2.2 < b.2.2)))

/-- The warps of a group with their indices. -/
def State.warpsOf (s : State) (gid : Nat) : List (Nat × Warp) :=
  (s.warps.filter fun p => p.1 / 32 = gid).map fun p => (p.1 % 32, p.2)

/-- In deterministic mode a synchronising operation has the least key of the group (R302). -/
def Issuer.syncTurn (c : Issuer) (s : State) : Bool :=
  let k := (c.split.dix.toNat, c.ref.wid, lowestBit c.split.held)
  (s.warpsOf c.ref.gid).all fun p =>
    p.2.retired || (p.2.clocks p.1 (if p.1 = c.ref.wid then some c.ref.ent else none)).all (keyLt k)

/-- The requests that stand in a core's send queue (R217). -/
def State.sendLoad (s : State) (core : Nat) : Nat :=
  s.places.foldl (fun a p => a + (p.2.queue.filter fun r => r.arrived.isNone && (s.group? r.gid).map (·.core) = some core).length) 0
/-- The core's send queue of 512 lacks room for all the requests that an instruction will make (R217). -/
def Issuer.noRoom (c : Issuer) (s : State) (i : Instr) : Bool :=
  let q := s.sendLoad c.grp.core
  q != 0 && 512 < q + requestCount s c.cluster c.task.asid (memSpans s c.env c.task.asid i)

/-- A matrix command of a warp that has not completed: in a queue, running or finishing, a fill, or the follow-on of a copy (R115, R130). -/
def State.warpMatrix (s : State) (core gid wid : Nat) : Bool :=
  let k := s.core core
  let mine : MCmd → Bool := fun m => m.gid = gid && m.wid = wid
  k.queues.any (fun q => q.2.any mine) || (k.running.any fun q => mine q.2) ||
  k.finishing.any mine || (k.engine.any fun e => e.gid = gid && e.wid = wid && (e.follow.isSome || e.kind = .mfill))

/-- The holds that belong to units and instructions (R22): the fence, an acquire's atomic, STICKY, a full matrix queue, MSTAT,
the send queue, and the order of deterministic mode. -/
def unitHolds (h : Head) (i : Instr) (c : Issuer) (s : State) : Bool :=
  c.pends (holdsIssue h i) ||
  (match i with
    | .sysrdSticky _ => c.warp.pend.any fun q => isFixed q.kind
    | .mstat _ => s.warpMatrix c.grp.core c.ref.gid c.ref.wid
    | _ => false) ||
  (queuesMatrix h.op && 4 ≤ ((flook c.warp.bay (s.core c.grp.core).queues).getD []).length) ||
  c.noRoom s i ||
  (c.task.determ && isSyncOp h.op (memSpace i) && !c.syncTurn s)

/-- A range covers a page of a size (R312). -/
def Inval.covers (v : Inval) (asid va n : Nat) : Bool :=
  v.asid = asid && (v.whole || (va < v.first + v.pages * 65536 && v.first < va + n))
/-- The address space of a group's task. -/
def State.asidOf (s : State) (gid : Nat) : Nat := (((s.group? gid).bind s.taskOf).map (·.asid)).getD 0
/-- The groups of an ASID whose store buffers hold writes that an invalidation covers. -/
def State.coveredBuffers (s : State) (v : Inval) : List (Nat × Group) :=
  s.groups.filter fun p => p.2.sbuf.any fun b => keyRegion b.1 < 4 && v.covers (s.asidOf p.1) b.2.va 1
/-- An invalidation under way covers what a group or the other member of its pair has buffered: a commit point of both (R312, R347). -/
def State.summoned (s : State) (gid : Nat) : Bool :=
  s.invals.any fun v => (s.coveredBuffers v).any fun p => p.1 = gid || p.2.pair = some gid

/-- The other member of the pair has issued more, or stands at a commit point. -/
def Issuer.behind (c : Issuer) (s : State) : Bool :=
  match c.grp.pair.bind fun p => (s.group? p).bind fun h => (s.warp? p 0).map fun w => (h, w) with
  | some (h, w) => c.warp.issued < w.issued || h.atCommit.isSome
  | none => false

/-- A pair that has agreed resumes with the instruction it agreed on, the leader first (R350). -/
def Issuer.resumes (c : Issuer) (s : State) (p : Nat) : Bool :=
  !(c.grp.agreed && c.grp.commitBy.isSome) ||
    (c.grp.commitBy = some (c.ref.wid, c.ref.ent) && (c.grp.member = 1 || !(((s.group? p).map (·.agreed)).getD false)))

/-- A redundant member may issue; the second of a pair goes with its first (R12, R349). One that an invalidation summons stops, where both have issued as much (R347; log 97). -/
def pairTurn (c : Issuer) (s : State) : Bool :=
  match c.grp.pair with
  | none => true
  | some p =>
    match s.warp? p 0 with
    | none => true
    | some w => c.resumes s p && (c.split.second ||
      ((if c.grp.member = 1 then c.warp.issued < w.issued + 4096 else c.warp.issued ≤ w.issued) && (c.behind s || !s.summoned c.ref.gid)))

/-! Deferred traps (R120, R341). -/

/-- The splits of a warp. -/
def Warp.splits (w : Warp) : List (Nat × Split) :=
  w.table.filterMap fun p => match p.2 with
    | .split x => some (p.1, x)
    | .frame _ => none

/-- The lanes of a warp that have not exited: those of splits, of frames and of serial records. -/
def Warp.lanesLeft (w : Warp) : Mask :=
  let t := w.table.foldl (fun m p => match p.2 with
    | .split x => m ||| x.held
    | .frame f => m ||| f.expect) 0
  w.records.foldl (fun m p => p.2.rest.foldl (fun m g => m ||| g.held) (m ||| p.2.reached)) t

/-- The lane to which a deferred trap is delivered: the issuing split's lowest that has not exited. -/
def Deferred.lane (d : Deferred) (w : Warp) : Option Nat := (bitsSet (d.lanes &&& w.lanesLeft)).head?

/-- The split that holds a lane. -/
def Warp.holder (w : Warp) (lane : Nat) : Option (Nat × Split) := w.splits.find? fun p => p.2.held.getLsbD lane

/-- A trap of an operation issued before the split's handler was entered is held until the TRET. -/
def Deferred.waitsFor (d : Deferred) (x : Split) : Bool :=
  match x.handler with
  | some h => d.pid < h
  | none => false

/-- The split stands at a run boundary with a deferred trap to take before its next instruction issues. -/
def Issuer.trapDue (c : Issuer) : Bool :=
  c.split.run.count = 0 && !c.split.second && c.grp.deferred.any fun d =>
    d.tile.isNone && d.wid = c.ref.wid && !d.waitsFor c.split && ((d.lane c.warp).map c.split.held.getLsbD).getD false

/-- A split of a task that is being saved has come to the place where it stops (R318). -/
def Issuer.saved (c : Issuer) (s : State) : Bool :=
  c.task.saving && c.split.handler.isNone && !c.split.second && (c.split.bound.isNone || c.split.run.count = 0) && !c.behind s

/-- The split is not stopped, parked, trapping or ending, and its group is not being saved at this run boundary; of a pair, both members
come to the same one (R318, R349). -/
def Issuer.live (c : Issuer) (s : State) : Bool :=
  !c.grp.stopped && c.grp.atCommit.isNone && c.split.parked.isNone && c.split.trap.isNone && !c.trapDue && c.split.entered &&
  !c.saved s &&
  ((flook c.grp.crew s.crews).map (·.ending.isNone)).getD true && pairTurn c s

/-- The flag of the follow-on that a CPY or GATHER names in its command block, which rises with the copy's issue (R179). -/
def Issuer.followFlag (c : Issuer) (s : State) : Instr → Option Nat
  | .cpy f | .gather f =>
    if f.func.getLsbD 4 then
      match decodeWord (BitVec.ofNat 96 (rdNat s.mem (benchKey c.grp.core (c.grp.benchBase + (c.env.ssrc f.pa).toNat + 32)) 12)) with
      | .mma x | .mmas x => postFlag x.post
      | _ => none
    else none
  | _ => none
/-- The flags whose counts rise where an instruction issues (R21). -/
def Issuer.posts (c : Issuer) (s : State) (i : Instr) : List Nat := (postFlag (c.profile i).head.post).toList ++ (c.followFlag s i).toList

/-- The conditions of R21, R22 and R24 apart from the distance, with the latches that the instruction would find and the flags that the
first of its pair posts beside it. -/
def canGo (i : Instr) (c : Issuer) (latches : List Latch) (beside : List Nat) (s : State) : Bool :=
  let p := c.profile i
  let up := beside ++ c.posts s i
  c.warp.waitOk p.head.wait &&
  ((c.posts s i).all fun k => c.warp.flag k + (up.filter (· = k)).length ≤ 63) &&
  (p.uses.lr.all fun j => match latches[j]? with
    | some l => l.ready ≤ s.cycle
    | none => true) &&
  !unitHolds p.head i c s

/-- The split stands at the first instruction of a pair (R12). -/
def Issuer.startsPair (c : Issuer) : Bool := !c.split.second && pairBit c.split.text (slotOf c.split.pc)
/-- The second instruction of the pair that starts at the split's program counter, if the pair is sound. -/
def Issuer.partner (c : Issuer) (i : Instr) : Option Instr :=
  let x := c.split
  if c.startsPair then
    let b := instrAt x.text (slotOf x.pc + 1)
    if pairBroken c.warp.width (c.profile i) (c.profile b) then none else some b
  else none

/-- The latches after an instruction of the split has issued: a result-producing one enters them four cycles later (R24). -/
def Issuer.latchesAfter (c : Issuer) (i : Instr) (s : State) : List Latch :=
  if producing (c.profile i) then ⟨false, [], s.cycle + 4⟩ :: c.split.run.latches else c.split.run.latches

/-- An instruction of the split can issue in this cycle (R12, R21, R22, R24, R61). -/
def canIssue (i : Instr) (c : Issuer) (s : State) : Bool :=
  c.live s &&
  (c.split.second ||
    (c.split.lastIssue + (c.profile i).head.dist ≤ s.cycle + 16 && c.split.nextIssue ≤ s.cycle && canGo i c c.split.run.latches [] s &&
      (match c.partner i with
        | some b => canGo b c (c.latchesAfter i s) (c.posts s i) s
        | none => true)))

/-! ## Runs and ports (R17, R18, R25, R197) -/

/-- A split leaves its port. -/
def State.unbind (s : State) (r : SplitRef) : State :=
  match s.issuerOf r with
  | some c =>
    (s.modSplit r fun x => { x with bound := none, prio := false }).modCore c.grp.core fun k =>
      { k with ports := k.ports.filter fun p => p.2 != r }
  | none => s

/-- A run ends: latches, count and posted flags are cleared and the port is freed (R18, R25, R197). -/
def State.endRun (s : State) (r : SplitRef) : State := (s.unbind r).modSplit r fun x => { x with run := {} }

/-! ## Issue -/

/-- The split after the issue of an instruction: DIX, the run, the next program counter (R17, R22, R59, R61). The second of a pair is
tried in the same cycle; where the pair breaks a rule, the trap is taken there (R12). -/
def Split.advance (x : Split) (p : Profile) (lanes cycle : Nat) (firstOfPair : Bool) : Split :=
  let run := { x.run with
    count := x.run.count + 1, start := if x.run.count = 0 then x.pc else x.run.start,
    posted := x.run.posted ||| flagBit (postFlag p.head.post),
    broken := firstOfPair && pairBroken lanes p (profile lanes (instrAt x.text (slotOf x.pc + 1))) }
  let y := { x.fall with dix := x.dix + 1, run := if p.head.ends then {} else run, lastIssue := cycle + 16,
                         nextIssue := if lanes = 64 && laneUnit p.head then cycle + 2 else cycle + 1, noWatch := false }
  { y with second := firstOfPair, prio := false }

/-! Which splits come after a wait on the flag of a target's last RAST (R270). -/

def RastNote.knows (n : RastNote) (wid : Nat) (lanes : Mask) : Bool := fget 0 wid n.aware &&& lanes != 0
def RastNote.learn (n : RastNote) (wid : Nat) (lanes : Mask) : RastNote := { n with aware := fset 0 wid (fget 0 wid n.aware ||| lanes) n.aware }
def State.modRasts (s : State) (gid : Nat) (f : RastNote → RastNote) : State :=
  { s with lastRast := match s.group? gid with
      | none => s.lastRast
      | some g => s.lastRast.map fun (p : Nat × RastNote) => if p.2.task = g.task && p.2.index = g.index then (p.1, f p.2) else p }
/-- A phase as the group names it: a phase barrier word by its place in the bench (R157). -/
def Group.phaseName (g : Group) (at_ : Bool × Nat × Nat) : Bool × Nat × Nat :=
  if at_.1 then (true, at_.2.1 - benchKey g.core g.benchBase, at_.2.2) else at_

/-- An instruction issues that waits on the flag, once it has completed; so do those after it. -/
def State.noteWait (s : State) (i : Instr) (c : Issuer) : State :=
  s.modRasts c.ref.gid fun n =>
    if n.knows c.ref.wid c.split.held ||
      (n.wid = c.ref.wid && (n.flag.map fun k => (c.profile i).head.wait.getLsbD k).getD false && !c.warp.pend.any (·.id = n.pid))
    then n.learn c.ref.wid c.split.held else n
/-- Such a split arrives at a barrier of its group or at a phase barrier word, in a phase. -/
def State.noteArrival (s : State) (c : Issuer) (at_ : Bool × Nat × Nat) : State :=
  let p := c.grp.phaseName at_
  s.modRasts c.ref.gid fun n => if n.knows c.ref.wid c.split.held then { n with via := p :: n.via.filter (· != p) } else n
/-- A split passes a phase. -/
def State.notePass (s : State) (gid wid : Nat) (lanes : Mask) (at_ : Bool × Nat × Nat) : State :=
  s.modRasts gid fun n => if n.via.contains (((s.group? gid).map (·.phaseName at_)).getD at_) then n.learn wid lanes else n

/-- The state after an instruction has issued and before its effect (R17, R21, R59, R270, R349). -/
def advance (i : Instr) (c : Issuer) (s : State) : State :=
  let p := c.profile i
  let s1 := (s.noteWait i c).modWarp c.ref.gid c.ref.wid fun w => { w.post (postFlag p.head.post) with issued := w.issued + 1 }
  let s2 := if p.head.ends then s1.unbind c.ref else s1
  let s3 := s2.modSplit c.ref fun x => x.advance p c.warp.width s.cycle c.startsPair
  if c.warp.width = 64 && laneUnit p.head then
    s3.modCore c.grp.core fun k =>
      { k with busy := (unitsOf p.head).foldl (fun b u =>
          if u.isLane then fput (c.warp.bay * 16 + u.code) (s.cycle + 1, c.ref.gid * 32 + c.ref.wid) b else b) k.busy }
  else s3

/-- The trap of an encoding (R41). -/
def illegal (i : Instr) (c : Issuer) (reason : Nat) : TrapInfo :=
  { cause := 0x01, tval := BitVec.ofNat 64 ((c.profile i).head.op * 16 + reason), epc := c.split.pc }
/-- A precise trap of the issuing instruction. -/
def Issuer.precise (c : Issuer) (cause : Nat) (tval : Nat) : TrapInfo :=
  { cause := cause, tval := BitVec.ofNat 64 tval, epc := c.split.pc }

/-- The faults common to all instructions: the pair, as it stood when its first issued and as it stands (R12, R201), and the trailer (R18). -/
def ckCommon (i : Instr) (c : Issuer) : Ck :=
  let p := c.profile i
  [((match c.pairFirst with
      | some a => c.split.run.broken || pairBroken c.warp.width (c.profile a) p
      | none => false), 6),
   (p.head.ends && c.split.run.posted &&& ~~~ p.head.trailer != 0, 7)]

/-- The registers that an operation has still to write: physical vector registers, scalar registers, predicates (R23). -/
def Pend.targets (q : Pend) : List Nat × List Nat × List Nat :=
  let w := q.writes.foldl (fun (a : List Nat × List Nat × List Nat) x => match x with
    | .vec p _ _ => (p :: a.1, a.2.1, a.2.2)
    | .sca i _ => (a.1, i :: a.2.1, a.2.2)
    | .pred k _ _ => (a.1, a.2.1, k :: a.2.2)) ([], [], [])
  q.items.foldl (fun a x => if x.scalar then (a.1, x.reg :: a.2.1, a.2.2) else (x.reg :: a.1, a.2.1, a.2.2)) w

/-- In deterministic mode, a read of a register with an outstanding long-latency write (R23, R78). -/
def readsPending (i : Instr) (c : Issuer) : Bool :=
  let u := (c.profile i).uses
  let e := c.env
  c.warp.pend.any fun q =>
    !isFixed q.kind &&
    (let t := q.targets
     (q.lanes &&& c.split.held != 0 && meets ((u.vr ++ u.blk).map e.phys) t.1) || meets u.sr t.2.1 ||
       (q.lanes &&& c.split.held != 0 && meets u.pr t.2.2))

/-- The frames from one outward (R167). -/
def frameChain (w : Warp) : Nat → Option Nat → List Nat
  | 0, _ => []
  | _, none => []
  | n + 1, some f =>
    match flook f w.table with
    | some (.frame fr) => f :: frameChain w n fr.parent
    | _ => []
/-- The frames on a split's chain, those saved at a trap's entry included. -/
def Warp.framesOf (w : Warp) (x : Split) : List Nat :=
  frameChain w 16 x.frame ++
    (match x.handler with
      | some h => match flook h w.tframes with
        | some fr => frameChain w 16 fr.frame
        | none => []
      | none => [])

/-- A tag allows the split at an entry to access its register (R196). -/
def tagOk (c : Issuer) : Option Tag → Bool
  | none => true
  | some t =>
    match t.entry with
    | none => false
    | some e => e = c.ref.ent || (!t.closed && (c.warp.framesOf c.split).contains e)

/-- The warp holds a single split and no frame (R196). -/
def Warp.alone (w : Warp) : Bool := w.table.length ≤ 1

/-- The scalar registers of an instruction in deterministic mode (R196). -/
def tagsOk (i : Instr) (c : Issuer) : Bool :=
  let u := (c.profile i).uses
  c.warp.alone || (u.sr ++ u.sw).all fun k => tagOk c (flook k c.warp.tags)

/-- The tags after an instruction (R196). -/
def State.tagWrites (s : State) (i : Instr) (c : Issuer) : State :=
  if c.task.determ then
    s.modWarp c.ref.gid c.ref.wid fun w =>
      if w.alone then { w with tags := [] }
      else { w with tags := (c.profile i).uses.sw.foldl (fun m k => fput k ⟨some c.ref.ent, false⟩ m) w.tags }
  else s

/-! ## Register writes and completion (R21, R23, R68) -/

def Warp.write (w : Warp) : RegWrite → Warp
  | .vec p m vs => { w with vregs := (bitsSet m).foldl (fun r l => fset 0 (p * 64 + l) (vs.getD l 0) r) w.vregs }
  | .sca i v => { w with sregs := fset 0 i v w.sregs }
  | .pred k m b => { w with preds := fset 0 k ((fget 0 k w.preds &&& ~~~ m) ||| (b &&& m)) w.preds }

/-- An operation completes: its writes land, its STICKY bits are ORed in, its flag's count falls. -/
def Warp.finish (w : Warp) (q : Pend) : Warp :=
  { ((q.writes.foldl Warp.write w).land q.sticky).unpost q.flag with pend := w.pend.filter (·.id != q.id) }

def Warp.pend? (w : Warp) (id : Nat) : Option Pend := w.pend.find? (·.id = id)
/-- The lanes whose earlier operations precede operation id, which some lanes issued (R224). -/
def Warp.kin (w : Warp) (lanes : Mask) (id : Nat) : Mask := ((w.pend? id).map (·.kin)).getD (w.kinOf lanes)

/-- An outstanding operation of the issuing split; its number is the state's next (State.newId). -/
def State.addPend (s : State) (c : Issuer) (i : Instr) (q : Pend) : State :=
  let q := { q with id := s.fresh, ent := c.ref.ent, lanes := c.split.held, kin := c.warp.kinOf c.split.held, flag := postFlag (c.profile i).head.post,
                    sync := isSyncOp (c.profile i).head.op (memSpace i) }
  { s with fresh := s.fresh + 1 }.modWarp c.ref.gid c.ref.wid fun w => { w with pend := w.pend ++ [q] }

/-- An operation that completes n cycles after issue, with writes known at issue. -/
def State.later (s : State) (c : Issuer) (i : Instr) (n : Nat) (writes : List RegWrite) : State :=
  s.addPend c i { id := 0, kind := .long, ent := 0, lanes := 0, due := s.cycle + n, writes := writes }

def VOut.writes (o : VOut) (e : Env) : List RegWrite :=
  (o.vecs.map fun x => .vec (e.phys x.1) x.2.1 x.2.2) ++ (o.scas.map fun x => .sca x.1 x.2) ++
    (o.preds.map fun x => .pred x.1 x.2.1 x.2.2)

/-- An output of a fixed-latency block that takes six cycles and is not a pair of registers lands as fixed-latency writes do; every
other one completes as a long-latency operation (R23, R78, R101). -/
def outKind (op : Nat) (o : VOut) : PendKind := if fixedBlock op && o.delay = 6 && o.scas.length ≤ 1 then .fixed else .long

/-- The result of an instruction over lanes: its writes land after its latency; a result-producing one enters the latches
four cycles after issue (R23, R24). -/
def applyOut (i : Instr) (c : Issuer) (o : VOut) (s : State) : State :=
  let s1 := s.addPend c i { id := 0, kind := outKind (c.profile i).head.op o, ent := 0, lanes := 0, due := s.cycle + o.delay,
                            writes := o.writes c.env, sticky := o.sticky }
  match o.latch with
  | some (v, vs) =>
    s1.modSplit c.ref fun x => { x with run := { x.run with latches := (⟨v, vs, s.cycle + 4⟩ :: x.run.latches).take 8 } }
  | none => s1

/-! ## Fatal events and endings (R342, R343, R359) -/

/-- A fatal event: its freeze set in freeze order, the origin first where the set holds it, as that of a device event holds only cores in
service; it waits while a ring of the set is frozen (R359, R360). -/
def State.fatal (s : State) (device : Bool) (origin task part cause : Nat) (others : List Nat) : State :=
  let todo := (if device && !others.contains origin then [] else [origin]) ++ (others.foldl (fun a k => sins k a) []).filter (· != origin)
  let f : Fatal := { id := s.fresh, cycle := s.cycle, device := device, origin := origin, task := task, part := part,
                     cause := cause, todo := todo, seq := 0 }
  let busy := todo.any fun k => (s.core k).frozen.isSome || s.fatals.any (fun g => g.todo.contains k)
  if busy then { s with fresh := s.fresh + 1, waiting := s.waiting ++ [f] }
  else { s with fresh := s.fresh + 1, fatals := s.fatals ++ [f] }

/-- The cores that hold a group of a task. -/
def State.coresOfTask (s : State) (key : Nat) : List Nat := (s.groups.filter fun p => p.2.task = key).map (·.2.core)

/-- A task ends by error: every crew of it is to be ended, a record of kind 6 with CAUSE is written, and a fatal event begins (R342, R354,
R359). -/
def endTaskByError (s : State) (g : Group) (causeWord : Nat) : State :=
  match s.taskOf g with
  | none => s
  | some t =>
    if t.ended.isSome then s
    else
      let cause := causeWord % 256
      let s1 := s.modTask g.task fun t => { t with ended := some cause }
      let s2 := { s1 with crews := s1.crews.map fun (p : Nat × Crew) =>
        if p.2.task = g.task && p.2.ending.isNone then (p.1, { p.2 with ending := some cause, again := false })
        else if p.2.task = g.task then (p.1, { p.2 with again := false }) else p }
      let s3 := s2.errRecord t.part t.asid 0 t.tid g.index causeWord cause 6
      s3.fatal false g.core t.tid t.part cause (s3.coresOfTask g.task)

/-- A crew ends through ECC_UNCORRECTABLE or CHECKSUM_FATAL: it is relaunched while it is not exposed, at most twice, else its
task ends by error; both are deferred, which CAUSE says (R333, R343 to R345). -/
def relaunchOrEnd (s : State) (g : Group) (cause : Nat) : State :=
  match flook g.crew s.crews with
  | none => s
  | some k =>
    if k.ending.isSome then s
    else if !k.exposed && k.relaunch < 2 then s.modCrew g.crew fun k => { k with ending := some cause, again := true }
    else endTaskByError s g (256 + cause)

def doubleFault (s : State) (g : Group) : State := endTaskByError s g 0x30

/-! ## Lane stacks (R173, R175) -/

/-- L, and the address and the key of a byte of a lane's stack in the yard. -/
def Task.stack (t : Task) : Nat := t.field 544 32
def Issuer.stackAddr (c : Issuer) (lane off : Nat) : Nat := c.warp.spill + 16384 + lane * c.task.stack + off
def Issuer.stackKey (c : Issuer) (lane off : Nat) : Nat := yardKey c.die (fget 0 c.die c.task.yard + c.stackAddr lane off)
/-- n bytes of a lane's stack as RET and TRET read them, and LNKW: zero where poisoned (R344). -/
def Issuer.popped (c : Issuer) (s : State) (lane off n : Nat) : Nat := bytesNat (s.found (c.stackKey lane off) (c.stackAddr lane off) n).bytes
def Issuer.depth (c : Issuer) (lane : Nat) : Nat := fget 0 lane c.warp.depth
/-- v0 to v(n−1) of a lane as bytes, lowest index first. -/
def Issuer.regBytes (c : Issuer) (n lane : Nat) : List Byte :=
  (List.range n).flatMap fun j => natBytes 4 (c.env.vec j lane).toNat
/-- A crew has exposed something (R343). -/
def State.expose (s : State) (g : Group) : State := s.modCrew g.crew fun k => { k with exposed := true }
/-- Bytes written to a lane's stack, which expose the crew and are stamped as the split's writes to the yard are (R233, R343). -/
def Issuer.toStack (c : Issuer) (lane off : Nat) (bs : List Byte) (s : State) : State :=
  (s.expose c.grp).put (c.stackKey lane off) bs (s.stampFor c.ref.gid c.ref.wid (cntOf c.warp c.grp) (c.stackKey lane off))
/-- For each held lane: v0 to v(n−1) pushed, then more bytes. -/
def pushLanes (c : Issuer) (n : Nat) (more : List Byte) (s : State) : State :=
  let s1 := (bitsSet c.split.held).foldl (fun s l => c.toStack l (c.depth l) (c.regBytes n l ++ more) s) s
  s1.modWarp c.ref.gid c.ref.wid fun w =>
    { w with depth := (bitsSet c.split.held).foldl (fun d l => fset 0 l (c.depth l + 4 * n + more.length) d) w.depth }
/-- A lane whose stack cannot take n more bytes (R175). -/
def overflowLane (c : Issuer) (n : Nat) : Option Nat :=
  (bitsSet c.split.held).find? fun l => c.task.stack < c.depth l + n

/-! ## Taking an exception (R333 to R340) -/

/-- CAUSE for a trap (R333). -/
def TrapInfo.causeWord (t : TrapInfo) : Word :=
  (t.upper ||| (if t.deferred && t.cause != 0x0C then 1 else 0)) ++ BitVec.ofNat 8 t.cause

/-- The split has register writes outstanding, for which entry waits (R336). -/
def Issuer.trapWaits (c : Issuer) : Bool :=
  c.pends fun q => q.writes != [] || q.items != [] ||
    (match q.kind with
      | .atomic true | .waiter _ _ | .spawn _ _ _ => true
      | _ => false)

/-- Predicates of some lanes replaced. -/
def Warp.setPreds (w : Warp) (m : Mask) (p : FMap Mask) : Warp :=
  { w with preds := (List.range 8).foldl (fun a k => fset 0 k ((fget 0 k w.preds &&& ~~~ m) ||| (fget 0 k p &&& m)) a) w.preds }

/-- The trap frame of a split: what R337 lists, whose rule the model follows where R206 would have it save the other registers too
(log 109). -/
def Issuer.frameFor (c : Issuer) (t : TrapInfo) (slide : Nat) : TrapFrame :=
  { pc := t.epc, held := c.split.held, exm := c.split.exm, dix := c.split.dix, wb := c.split.wb, frame := c.split.frame,
    chain := c.split.chain, preds := c.warp.preds, run := if c.split.run.count = 0 then none else some c.split.run, slide := slide,
    floors := (bitsSet c.split.held).foldl (fun m l => fset 0 l (c.depth l + 4 * slide) m) [] }

/-- Entry to the handler (R336): the frame is saved, CAUSE, TVAL and EPC are written, v0 to v(h−1) are pushed, the window
slides, EXM is the held mask, q0 to q7 are zero and the program counter is TRAPBASE's. -/
def enterTrap (s : State) (r : SplitRef) (t : TrapInfo) : State :=
  match s.issuerOf r with
  | none => s
  | some c =>
    let entry := c.warp.trapbase &&& (0x1FFFFFFFFFFFFFF#64)
    let h := 16 * (bitsOf c.warp.trapbase.toNat 60 57)
    if entry = 0 then endTaskByError s c.grp t.causeWord.toNat
    else if c.warp.nregs ≤ h || (overflowLane c (4 * h)).isSome then doubleFault s c.grp
    else
      let (id, s1) := s.newId
      let s2 := pushLanes c h [] (s1.unbind r)
      let s3 := s2.modWarp r.gid r.wid fun w =>
        { w.setPreds c.split.held [] with tframes := fput id (c.frameFor t h) w.tframes }
      let s4 := s3.modSplit r fun x =>
        { x.goto entry none with exm := x.held, wb := (x.wb + h) % c.warp.nregs, frame := none, chain := [], handler := some id,
                                 cause := t.causeWord, tval := t.tval, epc := t.epc, run := {}, trap := none, noWatch := false }
      s4.scrivWarp r.gid r.wid r.ent 0x05 (BitVec.ofNat 64 (t.cause % 128 * 2 ^ 57 + t.epc.toNat % 2 ^ 57))

/-- A precise PAGE_FAULT parks the split, with its run kept, and writes a record of kind 1 (R203, R335). -/
def park (s : State) (r : SplitRef) (t : TrapInfo) : State :=
  match s.issuerOf r with
  | none => s
  | some c =>
    let s1 := (s.unbind r).modSplit r fun x => { x with parked := some t.tval, second := false }
    let s2 := s1.errRecord c.task.part c.task.asid t.tval.toNat c.task.tid c.grp.index t.causeWord.toNat t.cause 1
    s2.scrivWarp r.gid r.wid r.ent 0x07 t.tval

/-- The record that goes with a fault of a warp: a refusal, which the physical log also takes (R323), or a malformed entry (R309). -/
def State.noteOf (s : State) (gid wid ent : Nat) (t : TrapInfo) : State :=
  match t.note, s.group? gid with
  | some (kind, payload, pa), some g =>
    let s1 := s.scrivWarp gid wid ent kind (BitVec.ofNat 64 payload)
    match s.taskOf g with
    | some k => if kind = 0x11 then s1.logRecord pa k.tid g.index t.causeWord.toNat k.asid k.part t.cause 7 else s1
    | none => s1
  | _, _ => s

/-- A core reported by CHECKSUM_FATAL is retired unless it is exempt; the physical log takes the report (R345, R371). -/
def State.reportCore (s : State) (core : Nat) (t : Task) (group cause : Nat) : State :=
  let s1 := s.logRecord 0 t.tid group core t.asid t.part cause 0
  if s1.conf.exempt.contains core then s1 else s1.modCore core fun k => { k with retiring := true }

/-- A trap of a split: CHECKSUM_FATAL ends the crew and reports the core that ran the command, and never enters a handler, even from one
(R333, R345, log 115); inside a handler any other is a DOUBLE_FAULT (R340); a precise PAGE_FAULT parks; every other cause enters the
handler, once the split's outstanding register writes have completed (R336). -/
def raise (s0 : State) (r : SplitRef) (t : TrapInfo) : State :=
  let s := s0.noteOf r.gid r.wid r.ent t
  match s.issuerOf r with
  | none => s
  | some c =>
    if t.cause = 0x12 then relaunchOrEnd (s.reportCore t.core c.task c.grp.index t.cause) c.grp t.cause
    else if c.split.handler.isSome then doubleFault s c.grp
    else if t.cause = 0x08 && !t.deferred then park s r t
    else if c.trapWaits then (s.unbind r).modSplit r fun x => { x with trap := some t, second := false }
    else enterTrap s r t

/-- The entry of a split's table from which an operation was issued. -/
def State.entryOf (s : State) (gid wid pid : Nat) : Nat := (((s.warp? gid wid).bind fun w => w.pend.find? (·.id = pid)).map (·.ent)).getD 15

/-- A deferred trap is left to the lanes that issued its instruction, and what goes with the fault is recorded (R120, R309, R323, R341);
while provisional it waits for the tile. -/
def State.defer (s : State) (gid wid pid : Nat) (lanes : Mask) (t : TrapInfo) (tile : Option Nat) : State :=
  (s.noteOf gid wid (s.entryOf gid wid pid) t).modGroup gid fun g =>
    { g with deferred := g.deferred ++ [⟨wid, pid, lanes, { t with deferred := true, note := none, core := g.core }, tile⟩] }

/-! ## Completion (R21, R23, R137, R344, R350) -/

/-- The value of a loaded register's lane from the bytes that have arrived (R137). -/
def LoadItem.value (x : LoadItem) (got : FMap Byte) : Word :=
  let n := bytesNat ((List.range x.n).map fun i => fget 0 (x.key + i) got)
  BitVec.ofNat 32 (if x.sx then wrapTo 32 (signedOf (8 * x.n) n) else n)
def LoadItem.write (x : LoadItem) (got : FMap Byte) : RegWrite :=
  if x.scalar then .sca x.reg (x.value got)
  else .vec x.reg (maskOf (· = x.lane)) ((List.replicate x.lane 0) ++ [x.value got])

/-- An operation of a warp completes: its registers are written in one cycle and its flag's count falls. -/
def Warp.complete (w : Warp) (q : Pend) : Warp :=
  w.finish { q with writes := q.writes ++ q.items.map fun x => x.write q.got }

/-- ECC_UNCORRECTABLE for a consumer: the crew is relaunched while nothing of it is exposed, else the trap is deferred (R344). -/
def State.consumed (s : State) (gid wid pid : Nat) (lanes : Mask) (addr : DWord) (offs : Bool := false) : State :=
  match s.group? gid with
  | none => s
  | some g =>
    match flook g.crew s.crews with
    | none => s
    | some k =>
      if k.exposed then s.defer gid wid pid lanes { cause := 0x18, tval := addr, offs := offs } none
      else relaunchOrEnd s g 0x18

/-- Words popped from the lanes' stacks into registers of a window, with the bytes above them that the pop takes too: errors in them are
corrected, and what is poisoned is consumed (R174, R337, R344). -/
def popInto (s : State) (c : Issuer) (wb n above : Nat) (off : Nat → Nat) (lanes : Mask) : State :=
  let s1 := s.modWarp c.ref.gid c.ref.wid fun w =>
    { w with vregs := (bitsSet lanes).foldl (fun r l => (List.range n).foldl (fun r j =>
        fset 0 ((wb + j) % w.nregs * 64 + l) (BitVec.ofNat 32 (c.popped s l (off l + 4 * j) 4)) r) r) w.vregs }
  let s2 := (bitsSet lanes).foldl (fun s l => s.correct (c.stackKey l (off l)) (4 * n + above)) s1
  match (bitsSet lanes).foldl (fun a l => least a (s.found (c.stackKey l (off l)) (c.stackAddr l (off l)) (4 * n + above)).bad) none with
  | some a => s2.consumed c.ref.gid c.ref.wid s.fresh lanes (BitVec.ofNat 64 a) true
  | none => s2

/-- The return from a handler (R337): the trap frame is restored and the pushed registers are popped; the run continues only if
EPC still holds the saved value. -/
def returnTrap (c : Issuer) (id : Nat) (fr : TrapFrame) (s : State) : State :=
  let s1 := popInto s c fr.wb fr.slide 0 (fun l => fget 0 l fr.floors - 4 * fr.slide) fr.held
  let s2 := s1.modWarp c.ref.gid c.ref.wid fun w =>
    { w.setPreds fr.held fr.preds with
      depth := (bitsSet fr.held).foldl (fun d l => fset 0 l (fget 0 l fr.floors - 4 * fr.slide) d) w.depth,
      tframes := fdel id w.tframes }
  let s3 := s2.modSplit c.ref fun x =>
    { x.goto c.split.epc none with held := fr.held, exm := fr.exm, dix := fr.dix, wb := fr.wb, frame := fr.frame,
                                   chain := fr.chain, handler := none, run := if c.split.epc = fr.pc then fr.run.getD {} else {}, noWatch := true }
  s3.scrivWarp c.ref.gid c.ref.wid c.ref.ent 0x06 (c.split.epc &&& (0x1FFFFFFFFFFFFFF#64))

/-- An operation completes; what its data was found to be when read is then delivered (R219, R344); a redundant pair's other
member receives the same result (R350). -/
def State.complete (s : State) (gid wid pid : Nat) : State :=
  match s.warp? gid wid with
  | none => s
  | some w =>
    match w.pend? pid with
    | none => s
    | some q =>
      let s1 := s.modWarp gid wid (·.complete q)
      let s2 := match q.twin with
        | some (g2, p2) =>
          match s1.warp? g2 wid with
          | some w2 =>
            match w2.pend? p2 with
            | some q2 => s1.modWarp g2 wid (·.complete { q with id := q2.id, flag := q2.flag })
            | none => s1
          | none => s1
        | none => s1
      let strict := ((s.group? gid).map fun g => s.gflag g Task.strict).getD false
      let s3 := match q.dead with
        | some a => if strict then s2.defer gid wid pid q.lanes { cause := 0x1B, tval := a } none else s2
        | none => s2
      match q.bad with
      | some a => s3.consumed gid wid pid q.lanes a (q.offs || q.hold.isSome)
      | none => s3

/-- Some field of an operation of a warp changed. -/
def State.modPend (s : State) (gid wid pid : Nat) (f : Pend → Pend) : State :=
  s.modWarp gid wid fun w => { w with pend := w.pend.map fun q => if q.id = pid then f q else q }

/-! ## Issue of an instruction -/

/-- The trap that an instruction takes before it has any effect: the run's 25th instruction (R17), an encoding (R41), a register
that deterministic mode does not let it use (R23, R196). -/
def preTrap (i : Instr) (ck : Ck) (c : Issuer) : Option TrapInfo :=
  if 24 ≤ c.split.run.count then some (c.precise 0x03 c.split.run.start.toNat)
  else match lowest (ckCommon i c ++ ck) with
    | some r => some (illegal i c r)
    | none => if c.task.determ && (!tagsOk i c || readsPending i c) then some (c.precise 0x0D 0) else none

/-! Redundant pairs (R348 to R350). -/

/-- The scope code of a release at .die or wider (R151, R154). -/
def wideRelease (order scope : BitVec 3) : Bool := 2 ≤ order.toNat && 3 ≤ scope.toNat

/-- An atomic that is a commit point of a redundant pair: a returning one on mem or yard, or a wide release (R151, R350). -/
def atomCommits (f : AFmt) : Bool := (2 ≤ f.space.toNat && !dNowb f.dst) || wideRelease f.order f.scope

/-- The commit points of a redundant pair whose effect is performed once, from the leader's copy (R347, R350). -/
def onceOnly : Instr → Bool
  | .atomAdd f | .atomUmin f | .atomUmax f | .atomSmin f | .atomSmax f | .atomAnd f | .atomOr f | .atomXor f | .atomExch f
  | .atomCas f | .atomFadd f | .atomFmin f | .atomFmax f | .atomLd f | .atomSt f => atomCommits f
  | .fence f => wideRelease f.order f.scope
  | .spawn _ | .publish _ | .mbxsend _ | .mbxrecv _ | .evput _ | .evget _ => true
  | .cpy f => bitsOf f.func.toNat 3 2 = 2
  | .gather f => bitsOf f.func.toNat 3 2 = 2
  | _ => false

/-- The commit points of a redundant pair: those, and the commands with a mem source (R248, R347). -/
def commitPoint (i : Instr) : Bool :=
  onceOnly i ||
  (match i with
    | .cpy f => 2 ≤ bitsOf f.func.toNat 1 0
    | .gather _ => true
    | .tmov f => f.space = 3
    | _ => false)

/-- The operands of a commit point's own instruction: its opcode and the values of the registers and latches it reads (R349). -/
def operandsOf (i : Instr) (c : Issuer) : List Nat :=
  let u := (c.profile i).uses
  let lanes : (Nat → Word) → List Nat := fun f => (bitsSet c.split.exm).map fun l => (f l).toNat
  (c.profile i).head.op :: ((u.vr ++ u.blk).flatMap fun r => lanes (c.env.vec r)) ++ (u.lr.flatMap fun j => lanes (c.env.latch j)) ++
    (u.sr.map fun r => (c.env.sca r).toNat) ++ u.pr.map fun k => (fget 0 k c.env.preds &&& c.split.exm).toNat

/-- The instruction must wait for the pair to agree at it (R349): true when the group is redundant and has not yet agreed. -/
def mustAgree (point : Bool) (c : Issuer) : Bool :=
  c.task.redundant && point && c.grp.pair.isSome && !(c.grp.agreed && c.grp.commitBy = some (c.ref.wid, c.ref.ent))

/-- The group stops at the commit point. -/
def State.stopAt (s : State) (i : Instr) (c : Issuer) : State :=
  s.modGroup c.ref.gid fun g =>
    { g with atCommit := some (operandsOf i c), commitBy := some (c.ref.wid, c.ref.ent), agreed := false, forced := false }

/-- A member stops at a commit point that is no instruction of its own (R312, R318, R347). -/
def State.forceAt (s : State) (gid : Nat) (ops : List Nat) : State :=
  s.modGroup gid fun g =>
    if g.atCommit.isSome || g.stopped || g.differs.isSome then g
    else { g with atCommit := some ops, commitBy := none, agreed := false, forced := true }

/-- The pair has agreed on the split's next instruction. -/
def Issuer.agreedOn (c : Issuer) : Bool := c.task.redundant && c.grp.agreed && c.grp.commitBy = some (c.ref.wid, c.ref.ent)

/-- The pair resumes after an agreed commit point: of an effect performed once, the trailer issues the same instruction beside
the leader and receives the leader's results, and both stand until these are there and the checkpoint is taken; any other is issued by each,
the leader first, and both stand until the checkpoint is taken, which resumes after it (R350, R377; log 136). What deterministic mode holds
until retirement takes room in both buffers (R304). -/
def State.resumePair (before s : State) (i : Instr) (point : Bool) (c : Issuer) : State :=
  let done : State → Nat → State := fun s g => s.modGroup g fun g => { g with agreed := false, commitBy := none }
  if !c.agreedOn then s
  else if !onceOnly i then if point then (done s c.ref.gid).modGroup c.ref.gid fun g => { g with stopped := true } else done s c.ref.gid
  else match c.grp.pair with
    | none => done s c.ref.gid
    | some p =>
      match s.issuerOf { c.ref with gid := p } with
      | none => done s c.ref.gid
      | some d =>
        let s1 := advance i d s
        let mine := match s1.warp? c.ref.gid c.ref.wid with
          | some w => w.pend.filter fun (q : Pend) => before.fresh ≤ q.id
          | none => []
        let s2 := mine.foldl (fun (s : State) (q : Pend) =>
          let n := s.fresh
          ({ s with fresh := n + 1 }.modPend c.ref.gid c.ref.wid q.id fun q => { q with twin := some (p, n) }).modWarp p c.ref.wid
            fun w => { w with pend := w.pend ++ [{ q with id := n, kind := .engine, writes := [], items := [], twin := none }] }) s1
        let held := (((s.group? c.ref.gid).map (·.held)).getD []).drop c.grp.held.length
        let stop : State → Nat → State := fun s g => s.modGroup g fun g => { g with stopped := true }
        stop (stop (done ((done s2 c.ref.gid).modGroup p fun g => { g with held := g.held ++ held }) p) c.ref.gid) p

/-- A trap of the instruction that a pair agreed on: nothing is agreed any more, neither member stands, and the other takes the trap of a
leader with it (R350). -/
def raiseBoth (s : State) (c : Issuer) (t : TrapInfo) : State :=
  let clear : State → Nat → State := fun s g => s.modGroup g fun g => { g with agreed := false, commitBy := none, stopped := false }
  match c.agreedOn, c.grp.pair with
  | true, some p =>
    let s1 := raise (clear (clear s c.ref.gid) p) c.ref t
    if c.grp.member = 1 then raise s1 { c.ref with gid := p } t else s1
  | _, _ => raise s c.ref t

/-- One instruction of the issuing split, which may be a commit point: it waits while a condition of issue does not hold (R22);
else it traps before any effect, or it issues and has its effect; an effect that ends in a precise trap leaves nothing
(R139). In a redundant pair a commit point waits for the pair's agreement (R349). -/
def issueAt (i : Instr) (point : Issuer → State → Bool) (ck : Issuer → Ck) (eff : Issuer → State → Except TrapInfo State) (s : State) :
    Host.Outcome State Fault Refusal :=
  match s.issuer with
  | none => .fault .noIssuer
  | some c =>
    if canIssue i c s then
      match preTrap i (ck c) c with
      | some t => .next (raise s c.ref t)
      | none =>
        if mustAgree (point c s) c then .next (s.stopAt i c)
        else match eff c ((advance i c s).tagWrites i c) with
          | .ok t => .next (State.resumePair s t i (point c s) c)
          | .error t => .next (raiseBoth s c t)
    else .next s

/-- An instruction that is a commit point by its form alone, or is none. -/
def issue (i : Instr) (ck : Issuer → Ck) (eff : Issuer → State → Except TrapInfo State) (s : State) :
    Host.Outcome State Fault Refusal :=
  issueAt i (fun _ _ => commitPoint i) ck eff s

end Sys2Proof.Machine
end

