-- ==== Sys2Proof/Machine/VectorInt.lean ====
section
/-! DEFINITION. The vector integer instructions, format V (R76 to R81). Each xOp says what the instruction allows and what it
computes over lanes; a core issues it and a method program runs it (R187). -/

namespace Sys2Proof.Machine

/-- A V instruction on a core. -/
def runV (i : Instr) (f : VFmt) (o : VOp) (s : State) : Host.Outcome State Fault Refusal :=
  issue i (fun c => ckV c.env f o.opts) (fun c t => .ok (applyOut i c (o.eval c.env) t)) s

def tAll : List Nat := [0, 1, 2, 3, 4, 5, 6, 7]
def tSigned : List Nat := [0, 2, 4, 6]
def tWord : List Nat := [0, 1]
def tCmp : List Nat := [0, 1, 6, 7]

/-- An exact integer operation on elements, wrapped or saturated (R76). -/
def intElem (f : VFmt) (g : Int → Int → Int → Int) : Nat → ElemOp :=
  fun _ _ a b c => intRes f.t (f.sat = 1) (g (intOf f.t a) (intOf f.t b) (intOf f.t c))
/-- An operation on the bits of elements. -/
def bitElem (g : Nat → Nat → Nat) : Nat → ElemOp := fun _ _ a b _ => (g a b, 0)

/-- Position and length of a bit field (R80). -/
def fieldPos (f : VFmt) : Nat := f.func.toNat % 32
def fieldLen (f : VFmt) : Nat := f.func.toNat / 32 % 64
def ckField (f : VFmt) : Ck := [(fieldLen f = 0 || 32 < fieldPos f + fieldLen f, 2)]

def vaddIntegerOp (f : VFmt) : VOp :=
  { opts := { n := 2, types := tAll, sat := true },
    eval := fun e => vElem e f (intElem f fun a b _ => a + b) }

def execVaddInteger (f : VFmt) (s : State) := runV (.vaddInteger f) f (vaddIntegerOp f) s

def vsubIntegerOp (f : VFmt) : VOp :=
  { opts := { n := 2, types := tAll, sat := true },
    eval := fun e => vElem e f (intElem f fun a b _ => a - b) }

def execVsubInteger (f : VFmt) (s : State) := runV (.vsubInteger f) f (vsubIntegerOp f) s

def vmulIntegerOp (f : VFmt) : VOp :=
  { opts := { n := 2, types := tAll, sat := true },
    eval := fun e => vElem e f (intElem f fun a b _ => a * b) }

def execVmulInteger (f : VFmt) (s : State) := runV (.vmulInteger f) f (vmulIntegerOp f) s

def vmulhiOp (f : VFmt) : VOp :=
  { opts := { n := 2, types := [0, 1, 2, 3, 4, 5] },
    eval := fun e => vElem e f fun _ _ a b _ => (wrapTo (typeBits f.t) (intOf f.t a * intOf f.t b / (2 ^ typeBits f.t : Nat)), 0) }

def execVmulhi (f : VFmt) (s : State) := runV (.vmulhi f) f (vmulhiOp f) s

def vmadOp (f : VFmt) : VOp :=
  { opts := { n := 3, types := tAll, sat := true },
    eval := fun e => vElem e f (intElem f fun a b c => a * b + c) }

def execVmad (f : VFmt) (s : State) := runV (.vmad f) f (vmadOp f) s

def vminIntegerOp (f : VFmt) : VOp :=
  { opts := { n := 2, types := tAll },
    eval := fun e => vElem e f (intElem f fun a b _ => min a b) }

def execVminInteger (f : VFmt) (s : State) := runV (.vminInteger f) f (vminIntegerOp f) s

def vmaxIntegerOp (f : VFmt) : VOp :=
  { opts := { n := 2, types := tAll },
    eval := fun e => vElem e f (intElem f fun a b _ => max a b) }

def execVmaxInteger (f : VFmt) (s : State) := runV (.vmaxInteger f) f (vmaxIntegerOp f) s

def vabsIntegerOp (f : VFmt) : VOp :=
  { opts := { n := 1, types := tSigned, sat := true },
    eval := fun e => vElem e f (intElem f fun a _ _ => a.natAbs) }

def execVabsInteger (f : VFmt) (s : State) := runV (.vabsInteger f) f (vabsIntegerOp f) s

def vnegIntegerOp (f : VFmt) : VOp :=
  { opts := { n := 1, types := tSigned, sat := true },
    eval := fun e => vElem e f (intElem f fun a _ _ => -a) }

def execVnegInteger (f : VFmt) (s : State) := runV (.vnegInteger f) f (vnegIntegerOp f) s

def vandOp (f : VFmt) : VOp :=
  { opts := { n := 2, types := tAll },
    eval := fun e => vElem e f (bitElem fun a b => a &&& b) }

def execVand (f : VFmt) (s : State) := runV (.vand f) f (vandOp f) s

def vorOp (f : VFmt) : VOp :=
  { opts := { n := 2, types := tAll },
    eval := fun e => vElem e f (bitElem fun a b => a ||| b) }

def execVor (f : VFmt) (s : State) := runV (.vor f) f (vorOp f) s

def vxorOp (f : VFmt) : VOp :=
  { opts := { n := 2, types := tAll },
    eval := fun e => vElem e f (bitElem fun a b => a ^^^ b) }

def execVxor (f : VFmt) (s : State) := runV (.vxor f) f (vxorOp f) s

def vandnOp (f : VFmt) : VOp :=
  { opts := { n := 2, types := tAll },
    eval := fun e => vElem e f (bitElem fun a b => a &&& (2 ^ typeBits f.t - 1 - b)) }

def execVandn (f : VFmt) (s : State) := runV (.vandn f) f (vandnOp f) s

def vshlOp (f : VFmt) : VOp :=
  { opts := { n := 2, types := tAll },
    eval := fun e => vElem e f (bitElem fun a b => shlBits (typeBits f.t) a b) }

def execVshl (f : VFmt) (s : State) := runV (.vshl f) f (vshlOp f) s

def vshrOp (f : VFmt) : VOp :=
  { opts := { n := 2, types := tAll },
    eval := fun e => vElem e f (bitElem fun a b => shrBits f.t a b) }

def execVshr (f : VFmt) (s : State) := runV (.vshr f) f (vshrOp f) s

def vcmpIntegerOp (f : VFmt) : VOp :=
  { opts := { n := 2, types := tCmp, func := 7, scalar := false, dpred := true, extra := [(6 ≤ f.func.toNat % 8, 2)] },
    eval := fun e => vPred e f fun l =>
      let a := intOf f.t (e.va f l)
      let b := intOf f.t (e.vb f l)
      condOf (f.func.toNat % 8) (a < b) (a = b) }

def execVcmpInteger (f : VFmt) (s : State) := runV (.vcmpInteger f) f (vcmpIntegerOp f) s

def vselOp (f : VFmt) : VOp :=
  { opts := { n := 2, types := tWord, func := 7, scalar := false },
    eval := fun e => vResult e f none fun l => (if (e.pred (f.func.toNat % 8)).getLsbD l then e.va f l else e.vb f l, 0) }

def execVsel (f : VFmt) (s : State) := runV (.vsel f) f (vselOp f) s

def vmovOp (f : VFmt) : VOp :=
  { opts := { n := 1, types := tCmp },
    eval := fun e => vElem e f (bitElem fun a _ => a) }

def execVmov (f : VFmt) (s : State) := runV (.vmov f) f (vmovOp f) s

def vdivOp (f : VFmt) : VOp :=
  { opts := { n := 2, types := tWord, sat := true },
    eval := fun e => vElem e f fun _ _ a b _ =>
      if b = 0 then (2 ^ 32 - 1, stIdz) else intRes f.t (f.sat = 1) ((intOf f.t a).tdiv (intOf f.t b)) }

def execVdiv (f : VFmt) (s : State) := runV (.vdiv f) f (vdivOp f) s

def vremOp (f : VFmt) : VOp :=
  { opts := { n := 2, types := tWord },
    eval := fun e => vElem e f fun _ _ a b _ =>
      if b = 0 then (a, stIdz) else (wrapTo 32 ((intOf f.t a).tmod (intOf f.t b)), 0) }

def execVrem (f : VFmt) (s : State) := runV (.vrem f) f (vremOp f) s

def vdot4Op (f : VFmt) : VOp :=
  { opts := { n := 3, types := [4, 5], sat := true },
    eval := fun e => vResult e f none fun l =>
      let t32 := f.t - 4
      let s := (List.range (usedOf f.t f.count)).foldl (fun (s : Int) k =>
        s + intOf f.t (elemGet f.t (e.va f l) k) * intOf f.t (elemGet f.t (e.vb f l) k)) (intOf t32 (e.vc f l))
      intRes t32 (f.sat = 1) s }

def execVdot4 (f : VFmt) (s : State) := runV (.vdot4 f) f (vdot4Op f) s

def vclzOp (f : VFmt) : VOp :=
  { opts := { n := 1, types := tWord },
    eval := fun e => vElem e f (bitElem fun a _ => clz32 a) }

def execVclz (f : VFmt) (s : State) := runV (.vclz f) f (vclzOp f) s

def vpopcOp (f : VFmt) : VOp :=
  { opts := { n := 1, types := tWord },
    eval := fun e => vElem e f (bitElem fun a _ => popc32 a) }

def execVpopc (f : VFmt) (s : State) := runV (.vpopc f) f (vpopcOp f) s

def vbrevOp (f : VFmt) : VOp :=
  { opts := { n := 1, types := tWord },
    eval := fun e => vElem e f (bitElem fun a _ => brev32 a) }

def execVbrev (f : VFmt) (s : State) := runV (.vbrev f) f (vbrevOp f) s

def vbfxOp (f : VFmt) : VOp :=
  { opts := { n := 1, types := tWord, func := 0x7FF, cnt := false, extra := ckField f },
    eval := fun e => vResult e f none fun l =>
      let x := e.va f l / 2 ^ fieldPos f % 2 ^ fieldLen f
      (if isSigned f.t then wrapTo 32 (signedOf (fieldLen f) x) else x, 0) }

def execVbfx (f : VFmt) (s : State) := runV (.vbfx f) f (vbfxOp f) s

def vbfiOp (f : VFmt) : VOp :=
  { opts := { n := 2, types := tWord, func := 0x7FF, cnt := false, extra := ckField f },
    eval := fun e => vResult e f none fun l =>
      let m := (2 ^ fieldLen f - 1) * 2 ^ fieldPos f
      ((e.vb f l &&& (2 ^ 32 - 1 - m)) + e.va f l % 2 ^ fieldLen f * 2 ^ fieldPos f, 0) }

def execVbfi (f : VFmt) (s : State) := runV (.vbfi f) f (vbfiOp f) s

def vlaneidOp (f : VFmt) : VOp :=
  { opts := { n := 0, types := tWord, scalar := false },
    eval := fun e => vResult e f none fun l => (l, 0) }

def execVlaneid (f : VFmt) (s : State) := runV (.vlaneid f) f (vlaneidOp f) s

/-- VQOP's sources are predicates: a latch traps, an operation's unread source is zero (R78). -/
def ckQ (x : BitVec 9) (used : Bool) : Ck :=
  if !used then [(x != 0, 2)] else if fLatch x then ckNoLatch x else [(7 < fIdx x, 3)]

/-- The operations of VQOP (R78). -/
def qopBit (op : Nat) (a b : Bool) : Bool :=
  match op with
  | 0 => a && b | 1 => a || b | 2 => a != b | 3 => a && !b | 4 => !a | 5 => true | 6 => false | _ => a

def vqopOp (f : VFmt) : VOp :=
  let op := f.func.toNat % 8
  { opts := { n := 0, types := [0], func := 7, scalar := false, dpred := true, extra := [] },
    eval := fun e => vPred e f fun l => qopBit op ((e.pred (fIdx f.sa)).getLsbD l) ((e.pred (fIdx f.sb)).getLsbD l) }

/-- The encodings of VQOP that trap: its source fields name predicates. -/
def ckVqop (e : Env) (f : VFmt) : Ck :=
  let op := f.func.toNat % 8
  ckV e { f with sa := 0, sb := 0 } (vqopOp f).opts ++ ckQ f.sa (readsQa op) ++ ckQ f.sb (readsQb op)

def execVqop (f : VFmt) (s : State) : Host.Outcome State Fault Refusal :=
  issue (.vqop f) (fun c => ckVqop c.env f) (fun c t => .ok (applyOut (.vqop f) c ((vqopOp f).eval c.env) t)) s

end Sys2Proof.Machine
end

