-- ==== Sys2Proof/Machine/VectorFloat.lean ====
section
/-! DEFINITION. The vector float instructions, format V (R82 to R86). -/

namespace Sys2Proof.Machine

def tFloat : List Nat := [8, 9, 10, 11]
def tFull : List Nat := [8, 11]

/-- An exact value rounded to a wide type, with inv when it is a NaN of operands none of which is one (R68, R83). -/
def roundWide (w : Wide) (r : Rnd) (ops : List Val) (v : Val) : Nat × Word :=
  let (x, st) := w.encode r v
  (x, st ||| stIf (v.isNan && !ops.any Val.isNan) stInv)

/-- A rounded elementwise operation on the first n operands (R83). -/
def floatElem (e : Env) (f : VFmt) (n : Nat) (g : Bool → Val → Val → Val → Val) : Nat → ElemOp :=
  fun l k a b c =>
    let w := wideOf f.t
    let r := e.mode f.round l (usedOf f.t f.count) k
    let va := w.decode a
    let vb := w.decode b
    let vc := w.decode c
    roundWide w r ([va, vb, vc].take n) (g r.isRd va vb vc)

/-- A selected or bit-changed operand: a NaN becomes the canonical NaN and sets nan (R84, R85). -/
def canon (w : Wide) (x : Nat) : Nat × Word :=
  if (w.decode x).isNan then (w.nanCode, stNan) else (x, 0)
/-- An operation on encodings that is not rounded. -/
def rawElem (f : VFmt) (g : Wide → Nat → Nat → Nat) : Nat → ElemOp := fun _ _ a b _ => canon (wideOf f.t) (g (wideOf f.t) a b)

def Wide.bits (w : Wide) : Nat := 1 + w.eb + w.mb
/-- The order of two encodings (R57). -/
def keyOf (w : Wide) (x : Nat) : Nat := orderKey w.bits x
def Wide.mag (w : Wide) (x : Nat) : Nat := x % w.signBit
def Wide.flip (w : Wide) (x : Nat) : Nat := if w.signBit ≤ x then x - w.signBit else x + w.signBit

/-- The class of a value (R86). -/
def floatClass (w : Wide) (x : Nat) : Nat :=
  let neg := decide (w.signBit ≤ x)
  let m := w.mag x
  if w.infCode < m then (if neg then 0 else 9)
  else if m = w.infCode then (if neg then 1 else 8)
  else if m = 0 then (if neg then 4 else 5)
  else if m < 2 ^ w.mb then (if neg then 3 else 6)
  else (if neg then 2 else 7)

/-- A value scaled by 2^b. Beyond 2^±4096 every finite value of the four types has left the range, in every mode alike. -/
def scaleVal (v : Val) (b : Int) : Val :=
  let b := if b < -4096 then -4096 else if 4096 < b then 4096 else b
  match v with
  | .fin n m x => .fin n m (x + b)
  | v => v

/-- A value rounded to an integral value, and whether that changes it (R86). -/
def integral (r : Rnd) : Val → Val × Bool
  | .fin n m x =>
    let (k, inx) := roundAt r n m x 0
    (if inx then .fin n k 0 else .fin n m x, inx)
  | v => (v, false)

def vaddFloatOp (f : VFmt) : VOp :=
  { opts := { n := 2, types := tFloat, rnd := true },
    eval := fun e => vElem e f (floatElem e f 2 fun rd a b _ => a.add rd b) }

def execVaddFloat (f : VFmt) (s : State) := runV (.vaddFloat f) f (vaddFloatOp f) s

def vsubFloatOp (f : VFmt) : VOp :=
  { opts := { n := 2, types := tFloat, rnd := true },
    eval := fun e => vElem e f (floatElem e f 2 fun rd a b _ => a.add rd b.neg) }

def execVsubFloat (f : VFmt) (s : State) := runV (.vsubFloat f) f (vsubFloatOp f) s

def vmulFloatOp (f : VFmt) : VOp :=
  { opts := { n := 2, types := tFloat, rnd := true },
    eval := fun e => vElem e f (floatElem e f 2 fun _ a b _ => a.mul b) }

def execVmulFloat (f : VFmt) (s : State) := runV (.vmulFloat f) f (vmulFloatOp f) s

def vfmaOp (f : VFmt) : VOp :=
  { opts := { n := 3, types := tFloat, rnd := true },
    eval := fun e => vElem e f (floatElem e f 3 fun rd a b c => (a.mul b).add rd c) }

def execVfma (f : VFmt) (s : State) := runV (.vfma f) f (vfmaOp f) s

def vfmsOp (f : VFmt) : VOp :=
  { opts := { n := 3, types := tFloat, rnd := true },
    eval := fun e => vElem e f (floatElem e f 3 fun rd a b c => (a.mul b).add rd c.neg) }

def execVfms (f : VFmt) (s : State) := runV (.vfms f) f (vfmsOp f) s

def vfnmaOp (f : VFmt) : VOp :=
  { opts := { n := 3, types := tFloat, rnd := true },
    eval := fun e => vElem e f (floatElem e f 3 fun rd a b c => (a.mul b).neg.add rd c) }

def execVfnma (f : VFmt) (s : State) := runV (.vfnma f) f (vfnmaOp f) s

def vminFloatOp (f : VFmt) : VOp :=
  { opts := { n := 2, types := tFloat },
    eval := fun e => vElem e f (rawElem f fun w a b => if keyOf w a ≤ keyOf w b then a else b) }

def execVminFloat (f : VFmt) (s : State) := runV (.vminFloat f) f (vminFloatOp f) s

def vmaxFloatOp (f : VFmt) : VOp :=
  { opts := { n := 2, types := tFloat },
    eval := fun e => vElem e f (rawElem f fun w a b => if keyOf w a ≤ keyOf w b then b else a) }

def execVmaxFloat (f : VFmt) (s : State) := runV (.vmaxFloat f) f (vmaxFloatOp f) s

def vcmpFloatOp (f : VFmt) : VOp :=
  { opts := { n := 2, types := tFull, func := 7, scalar := false, dpred := true, extra := [(f.func.toNat % 8 = 7, 2)] },
    eval := fun e => vPred e f fun l =>
      let w := wideOf f.t
      let a := elemGet f.t (e.va f l) 0
      let b := elemGet f.t (e.vb f l) 0
      if f.func.toNat % 8 = 6 then (w.decode a).isNan || (w.decode b).isNan
      else condOf (f.func.toNat % 8) (keyOf w a < keyOf w b) (a = b) }

def execVcmpFloat (f : VFmt) (s : State) := runV (.vcmpFloat f) f (vcmpFloatOp f) s

def vabsFloatOp (f : VFmt) : VOp :=
  { opts := { n := 1, types := tFloat },
    eval := fun e => vElem e f (rawElem f fun w a _ => w.mag a) }

def execVabsFloat (f : VFmt) (s : State) := runV (.vabsFloat f) f (vabsFloatOp f) s

def vnegFloatOp (f : VFmt) : VOp :=
  { opts := { n := 1, types := tFloat },
    eval := fun e => vElem e f (rawElem f fun w a _ => w.flip a) }

def execVnegFloat (f : VFmt) (s : State) := runV (.vnegFloat f) f (vnegFloatOp f) s

def vfclassOp (f : VFmt) : VOp :=
  { opts := { n := 1, types := tFull },
    eval := fun e => vResult e f none fun l => (2 ^ floatClass (wideOf f.t) (elemGet f.t (e.va f l) 0), 0) }

def execVfclass (f : VFmt) (s : State) := runV (.vfclass f) f (vfclassOp f) s

def vfdot2Op (f : VFmt) : VOp :=
  { opts := { n := 3, types := [9, 10], rnd := true },
    eval := fun e => vResult e f none fun l =>
      let w := wideOf f.t
      let r := e.mode f.round l (usedOf f.t f.count) 0
      let c := f32.decode (e.vc f l)
      let ks := List.range (usedOf f.t f.count)
      let at_ (x k : Nat) : Val := w.decode (elemGet f.t x k)
      let v := ks.foldl (fun s k => s.add r.isRd ((at_ (e.va f l) k).mul (at_ (e.vb f l) k))) c
      roundWide f32 r (c :: ks.flatMap fun k => [at_ (e.va f l) k, at_ (e.vb f l) k]) v }

def execVfdot2 (f : VFmt) (s : State) := runV (.vfdot2 f) f (vfdot2Op f) s

def vfscaleOp (f : VFmt) : VOp :=
  { opts := { n := 2, types := tFull, rnd := true },
    eval := fun e => vResult e f none fun l =>
      let w := wideOf f.t
      let a := w.decode (elemGet f.t (e.va f l) 0)
      let (x, st) := roundWide w (e.mode f.round l 1 0) [a] (scaleVal a (signedOf 32 (e.vb f l)))
      (elemPut f.t 0 x, st) }

def execVfscale (f : VFmt) (s : State) := runV (.vfscale f) f (vfscaleOp f) s

def vfrintOp (f : VFmt) : VOp :=
  { opts := { n := 1, types := tFloat, rnd := true },
    eval := fun e => vElem e f fun l k a _ _ =>
      let w := wideOf f.t
      let (v, inx) := integral (e.mode f.round l (usedOf f.t f.count) k) (w.decode a)
      let (x, st) := w.encode .rne v
      (x, st ||| stIf inx stInx) }

def execVfrint (f : VFmt) (s : State) := runV (.vfrint f) f (vfrintOp f) s

def vfcopysignOp (f : VFmt) : VOp :=
  { opts := { n := 2, types := tFloat },
    eval := fun e => vElem e f (rawElem f fun w a b => w.mag a + (if w.signBit ≤ b then w.signBit else 0)) }

def execVfcopysign (f : VFmt) (s : State) := runV (.vfcopysign f) f (vfcopysignOp f) s

end Sys2Proof.Machine
end

