-- ==== Sys2Proof/Machine/Convert.lean ====
section
/-! DEFINITION. The special functions (R87 to R89), VCVT (R90, R91), VQBLK (R92 to R94) and VQCVT (R95, R96). -/

namespace Sys2Proof

/-! The func fields of the conversion instructions (R90, R92). -/

def VFmt.srcType (f : VFmt) : Nat := f.func.toNat / 16 % 16
def VFmt.srcTag (f : VFmt) : Nat := f.func.toNat / 4 % 4
def VFmt.dstTag (f : VFmt) : Nat := f.func.toNat % 4
def VFmt.blkCount (f : VFmt) : Nat := if f.func.toNat / 64 % 32 = 0 then 24 else f.func.toNat / 64 % 32
def VFmt.blkFour (f : VFmt) : Bool := f.func.getLsbD 2

end Sys2Proof

namespace Sys2Proof.Machine

/-! ## Special functions -/

/-- A special function over lanes; stochastic rounding is not accepted (R87). -/
def specOp (f : VFmt) (op : SpecOp) : VOp :=
  { opts := { n := 1, types := [8, 9, 10], rnd := true, long := true, extra := [(f.round = 4, 5)] },
    eval := fun e => vResult e f (some 12) fun l =>
      elemwise f.t f.count (fun k a _ _ => specRound (wideOf f.t) op (e.mode f.round l 1 k) a) (e.va f l) 0 0 }

/-- Round code 5 while FPCTL.rnd is stochastic (R87, R92, R102, R114). -/
def ckDyn (e : Env) (r : BitVec 3) : Ck := [(r = 5 && e.fpctl.toNat % 8 = 4, 5)]

def runSpec (i : Instr) (f : VFmt) (op : SpecOp) (s : State) : Host.Outcome State Fault Refusal :=
  issue i (fun c => ckV c.env f (specOp f op).opts ++ ckDyn c.env f.round)
    (fun c t => .ok (applyOut i c ((specOp f op).eval c.env) t)) s

def execVrcp (f : VFmt) (s : State) := runSpec (.vrcp f) f .rcp s
def execVrsqrt (f : VFmt) (s : State) := runSpec (.vrsqrt f) f .rsqrt s
def execVsqrt (f : VFmt) (s : State) := runSpec (.vsqrt f) f .sqrt s
def execVexp2 (f : VFmt) (s : State) := runSpec (.vexp2 f) f .exp2 s
def execVlog2 (f : VFmt) (s : State) := runSpec (.vlog2 f) f .log2 s
def execVsin (f : VFmt) (s : State) := runSpec (.vsin f) f .sin s
def execVcos (f : VFmt) (s : State) := runSpec (.vcos f) f .cos s
def execVtanh (f : VFmt) (s : State) := runSpec (.vtanh f) f .tanh s

/-! ## VCVT -/

/-- The exact value of an element; a narrow one is decoded with no block scale (R91). -/
def elemVal (t tag x : Nat) : Val :=
  if t < 8 then Val.ofInt (intOf t x)
  else if t = 12 then (narrow8 tag).decode 0 x
  else if t = 13 then (narrow4 tag).decode 0 x
  else (wideOf t).decode x

/-- A value converted to an element of a type (R50, R51, R70, R91). -/
def elemEnc (t tag : Nat) (sat : Bool) (r : Rnd) (v : Val) : Nat × Word :=
  if t < 8 then toIntBits (typeBits t) (isSigned t) r v
  else if t = 12 then (narrow8 tag).encode sat r v
  else if t = 13 then (narrow4 tag).encode sat r v
  else (wideOf t).encode r v

def cvtTypes : List Nat := [0, 1, 2, 3, 4, 5, 8, 9, 10, 11, 12, 13]
def isTagged (t : Nat) : Bool := t = 12 || t = 13

/-- One VCVT element of a lane. -/
def cvtElem (e : Env) (f : VFmt) (lane total k x : Nat) : Nat × Word :=
  elemEnc f.t f.dstTag e.fp8sat (e.mode f.round lane total k) (elemVal f.srcType f.srcTag x)

/-- A lane's register from a value for each element. -/
def joinElems (t : Nat) (g : Nat → Nat × Word) : Nat × Word :=
  (List.range (packOf t)).foldl (fun (acc : Nat × Word) k => let (v, st) := g k; (acc.1 + elemPut t k v, acc.2 ||| st)) (0, 0)

/-- The placement of VCVT (R91). -/
def cvtLane (e : Env) (f : VFmt) (l : Nat) : Nat × Word :=
  let ps := packOf f.srcType
  let pd := packOf f.t
  let a := (e.src f.sa f.uniA l).toNat
  if pd = ps then
    let n := usedOf f.t f.count
    joinElems f.t fun k =>
      if k < n then cvtElem e f l n k (elemGet f.srcType a k) else (elemGet f.t a k, 0)
  else if ps < pd then
    let b := (e.src f.sb f.uniB l).toNat
    let c := (e.src f.sc f.uniC l).toNat
    let n := if f.count = 0 then 2 * ps else f.count
    let lo := 2 * ps * f.sat.toNat
    joinElems f.t fun k =>
      if lo ≤ k && k - lo < n then
        let j := k - lo
        cvtElem e f l n j (if j < ps then elemGet f.srcType a j else elemGet f.srcType b (j - ps))
      else (elemGet f.t c k, 0)
  else joinElems f.t fun k => cvtElem e f l pd k (elemGet f.srcType a (pd * f.count + k))

def vcvtOp (f : VFmt) : VOp :=
  let ps := packOf f.srcType
  let pd := packOf f.t
  { opts := { n := if ps < pd then 3 else 1, types := cvtTypes, rnd := true, func := 0xFFF, cnt := false,
              extra := [(!cvtTypes.contains f.srcType, 5), (!isTagged f.srcType && f.srcTag != 0, 2),
                (!isTagged f.t && f.dstTag != 0, 2), (!(ps < pd) && f.sat != 0, 2), (ps = pd && f.count != 0 && pd ≤ f.count, 2),
                (ps < pd && pd / (2 * ps) ≤ f.sat.toNat, 2), (ps < pd && 2 * ps ≤ f.count, 2),
                (pd < ps && ps / pd ≤ f.count, 2)] },
    eval := fun e => vResult e f none (cvtLane e f) }

/-- The encodings of VCVT that trap; sat is checked by its own rule (R90). -/
def ckVcvt (e : Env) (f : VFmt) : Ck := ckV e { f with sat := 0 } (vcvtOp f).opts

def execVcvt (f : VFmt) (s : State) : Host.Outcome State Fault Refusal :=
  issue (.vcvt f) (fun c => ckVcvt c.env f) (fun c t => .ok (applyOut (.vcvt f) c ((vcvtOp f).eval c.env) t)) s

/-! ## VQBLK -/

/-- The magnitudes of E2M1 in quarters with their codes, the special one in its place (R52, R93). -/
def quarters : List (Nat × Nat) := [(0, 0), (2, 1), (4, 2), (6, 3), (8, 4), (12, 5), (16, 6), (24, 7)]
def quartersWith (s : Nat) (neg : Bool) : List (Nat × Nat) :=
  match specialQuarters s with
  | some q =>
    if neg = decide (8 ≤ s) then (quarters.filter (·.1 < q)) ++ [(q, 8)] ++ (quarters.filter fun x => q < x.1) else quarters
  | none => quarters

/-- A magnitude compared with q quarters. -/
def cmpQuarter (m : Nat) (e : Int) (q : Nat) : Int := Val.cmpFin false m e false q (-2)

/-- A magnitude rounded to the extended grid of E2M1: the quarters and the code (R93). -/
def roundSpecial (r : Rnd) (neg : Bool) (m : Nat) (e : Int) (s : Nat) : Nat × Nat :=
  let g := quartersWith s neg
  let a := ((g.filter fun x => cmpQuarter m e x.1 ≥ 0).getLast?).getD (0, 0)
  match g.find? fun x => cmpQuarter m e x.1 ≤ 0 with
  | none => a
  | some b =>
    if a.1 = b.1 then a
    else match r with
      | .rz => a
      | .rd => if neg then b else a
      | .ru => if neg then a else b
      | _ =>
        let c := Val.cmpFin false m e false (a.1 + b.1) (-3)
        if c < 0 then a else if 0 < c then b
        else if a.2 % 2 != b.2 % 2 then (if a.2 % 2 = 0 then a else b)
        else if a.2 = 8 then b else a

/-- |y − q| over the elements as an integer multiple of 2^g, for a special value (R94). -/
def specialError (ys : List Val) (s : Nat) (g : Int) : Nat :=
  ys.foldl (fun acc y => match y with
    | .fin neg m e =>
      let (q, _) := roundSpecial .rne neg m e s
      acc + (Val.scaledInt false m e g - Val.scaledInt false q (-2) g).natAbs
    | _ => acc) 0

/-- The special value with the smallest error; ties go to 0, then to the lower (R94). -/
def chooseSpecial (ys : List Val) : Nat :=
  let g := ys.foldl (fun (g : Int) y => match y with
    | .fin _ _ e => if e < g then e else g
    | _ => g) (-2)
  ([1, 2, 3, 4, 5, 6, 7, 9, 10, 11, 12, 13, 14, 15].foldl (fun (best : Nat × Nat) s =>
    let err := specialError ys s g
    if err < best.2 then (s, err) else best) (0, specialError ys 0 g)).1

/-- The largest finite value of an element format (R48, R49). -/
def maxFin (k : Narrow) : Nat × Int :=
  match k.decode 0 k.maxCode with
  | .fin _ m e => (m, e)
  | _ => (0, 0)

/-- The block scale's exponent: the smallest E with amax ≤ maxfin × 2^E, clamped (R93). -/
def blockExp (k : Narrow) (m : Nat) (e : Int) : Int :=
  if m = 0 then -127
  else
    let (mf, ef) := maxFin k
    let lo : Int := (e + bitLen m) - (ef + bitLen mf) - 1
    let x := if Val.cmpFin false m e false mf (ef + lo) ≤ 0 then lo
      else if Val.cmpFin false m e false mf (ef + lo + 1) ≤ 0 then lo + 1 else lo + 2
    if x < -127 then -127 else if 127 < x then 127 else x

/-- The larger of two magnitudes. -/
def maxMag (a b : Nat × Int) : Nat × Int := if Val.cmpFin false a.1 a.2 false b.1 b.2 < 0 then b else a

/-- The codes and the header of a block of values, and its STICKY bits (R93). -/
def quantBlock (k : Narrow) (tag : Nat) (spec : Bool) (r : Rnd) (xs : List Val) : List Nat × Nat × Word :=
  if xs.any (fun x => x.isNan || x.isInf) then
    ([], 0xFF00 + tag * 64, stNan ||| stIf (!xs.any Val.isNan) stInv)
  else
    let amax := xs.foldl (fun a x => match x with
      | .fin _ m e => maxMag a (m, e)
      | _ => a) (0, 0)
    let ex := blockExp k amax.1 amax.2
    let ys := xs.map fun x => scaleVal x (-ex)
    let sp := if spec then chooseSpecial ys else 0
    let cs := ys.map fun y =>
      match y with
      | .fin neg m e =>
        if (specialQuarters sp).isSome then
          let (q, c) := roundSpecial r neg m e sp
          let inx := cmpQuarter m e q != 0
          (if c = 8 then 8 else if c = 0 then 0 else if neg then 8 + c else c,
            stIf inx stInx ||| stIf (inx && Narrow.e2m1.grid.tiny r neg m e) stUnf)
        else k.encode true r y
      | _ => (0, 0)
    (cs.map (·.1), (ex + 127).toNat * 256 + tag * 64 + sp * 4, cs.foldl (fun a x => a ||| x.2) 0)

/-- The 24 source values of a lane (R92), the first n of them. -/
def blockVals (e : Env) (f : VFmt) (n l : Nat) : List Val :=
  (List.range n).map fun i =>
    if f.t = 9 then bf16.decode (elemGet 9 (e.vec (fIdx f.sa + i / 2) l).toNat (i % 2))
    else f32.decode (e.vec (fIdx f.sa + i) l).toNat


/-- The registers of a lane's block: the codes in the layout of R53, then the header. -/
def blockRegsOf (f : VFmt) (codes : List Nat) (header : Nat) : List Nat :=
  let w := if f.blkFour then 4 else 8
  let per := 32 / w
  ((List.range (24 / per)).map fun j =>
    (List.range per).foldl (fun a k => a + codes.getD (j * per + k) 0 * 2 ^ (w * k)) 0) ++ [header]

def evalVqblk (e : Env) (f : VFmt) : VOut :=
  let m := e.active f.guard
  let k := if f.blkFour then narrow4 f.dstTag else narrow8 f.dstTag
  let lanes := (List.range e.lanes).map fun l =>
    if m.getLsbD l then
      let (cs, h, st) := quantBlock k f.dstTag (f.func.getLsbD 11) (e.mode f.round l 24 0) (blockVals e f f.blkCount l)
      (blockRegsOf f cs h, st)
    else ([], 0)
  VOut.inLanes m
    { vecs := (List.range (if f.blkFour then 4 else 7)).map fun j =>
        (dIdx f.dst + j, m, toWords (lanes.map fun x => x.1.getD j 0)),
      sticky := lanes.foldl (fun a x => a ||| x.2) 0, delay := longer e.lanes 10 }

/-- The encodings of VQBLK that trap (R92). -/
def ckVqblk (e : Env) (f : VFmt) : Ck :=
  ckPost f.post ++ ckGuard f.guard ++ ckDyn e f.round ++
  ([(f.round = 4 || 6 ≤ f.round.toNat, 5), (!(f.t = 8 || f.t = 9), 5), (f.sat != 0, 2),
    (f.func.getLsbD 11 && !(f.blkFour && f.dstTag = 0), 2), (24 ≤ f.func.toNat / 64 % 32, 2), (f.func.toNat / 8 % 8 != 0, 2),
    (f.sb != 0 || f.sc != 0 || f.uni != 0 || f.sdst != 0 || dNowb f.dst, 2)] : Ck) ++
  ckVn e f.sa (if is64 f.t then 2 else 1) (if f.t = 9 then 12 else if f.t = 8 then 24 else 1) ++
  ckVd e f.dst (if is64 f.t then 2 else 1) (if f.blkFour then 4 else 7)

def execVqblk (f : VFmt) (s : State) : Host.Outcome State Fault Refusal :=
  issue (.vqblk f) (fun c => ckVqblk c.env f) (fun c t => .ok (applyOut (.vqblk f) c (evalVqblk c.env f) t)) s

/-! ## VQCVT -/

/-- The encodings of VQCVT that trap (R96). -/
def ckVqcvt (e : Env) (f : VFmt) : Ck :=
  let pd := packOf f.t
  ckPost f.post ++ ckGuard f.guard ++
  ([(6 ≤ f.round.toNat, 5), (!isTagged f.t, 2), (isTagged f.t && pd ≤ f.func.toNat / 256 % 8, 2), (f.func.getLsbD 11, 2),
    (f.func.getLsbD 7, 2), (f.func.toNat / 4 % 4 != 0, 2), (fLatch f.sb || f.uniB || fIdx f.sb = dIdx f.dst, 2),
    (f.sat != 0 || f.sdst != 0 || dNowb f.dst, 2), (e.nregs ≤ fIdx f.sb, 3)] : Ck) ++
  ckVsrc e true false false f.sa f.uniA ++ ckVsrc e true false false f.sc f.uniC ++ ckVd e f.dst 1 1

/-- VQCVT's result (R96). A NaN operand is an outlier whatever THR holds, as the rule's comment has it (log 107); with no active lane
the side list is not written (R62, log 106). -/
def evalVqcvt (e : Env) (f : VFmt) : VOut :=
  let m := e.active f.guard
  let a (l : Nat) : Nat := (e.src f.sa f.uniA l).toNat
  let out (l : Nat) : Bool := m.getLsbD l && ((f32.decode (a l)).isNan || keyOf f32 e.thr.toNat < keyOf f32 (f32.mag (a l)))
  let h := f.func.toNat / 256 % 8
  let (vs, st) := laneVals e.lanes m fun l =>
    let c := (e.src f.sc f.uniC l).toNat
    let (x, st) := if out l then (0, 0) else elemEnc f.t f.dstTag e.fp8sat (e.mode f.round l 1 0) (f32.decode (a l))
    ((joinElems f.t fun k => (if k = h then x else elemGet f.t c k, 0)).1, st)
  let side := ((List.range e.lanes).filter out).map fun l => bf16.encode .rne (f32.decode (a l))
  let half (j : Nat) : Nat := ((side[j]?).map (·.1)).getD 0
  VOut.inLanes m
    { vecs := [(dIdx f.dst, m, toWords vs),
        (fIdx f.sb, lowMask e.lanes, toWords ((List.range e.lanes).map fun l => half (2 * l) + 2 ^ 16 * half (2 * l + 1)))],
      preds := [(f.func.toNat / 16 % 8, m, maskOf out)],
      sticky := side.foldl (fun x y => x ||| y.2) st, delay := longer e.lanes 8 }

def execVqcvt (f : VFmt) (s : State) : Host.Outcome State Fault Refusal :=
  issue (.vqcvt f) (fun c => ckVqcvt c.env f) (fun c t => .ok (applyOut (.vqcvt f) c (evalVqcvt c.env f) t)) s

end Sys2Proof.Machine
end

