-- ==== Sys2Proof/Machine/Access.lean ====
section
/-! DEFINITION. Accesses to memory: scopes, releases and acquires (R226 to R235), writer stamps (R233 to R238), the performance
of a write at its place (R143, R158, R220, R344), the checks of a lane's access (R132, R139, R141), reads (R137, R211, R219,
R347), the store buffer, its commits and the write buffer (R244, R347). -/

namespace Sys2Proof.Machine

/-! ## Scopes (R134, R222): .warp 0, .group 1, .crew 2, .die 3, .dev 4, .dom 5, .sys 6 -/

/-- The widest scope of a space (R147). -/
def widest (space : Nat) : Nat :=
  match space with
  | 0 => 1 | 1 => 2 | 2 => 3 | _ => 6

/-! ## Releases and acquires (R226 to R239) -/

/-- A release by a warp at a scope: the release counts rise (R234). -/
def State.release (s : State) (gid wid scope : Nat) : State :=
  let s1 := if 1 ≤ scope then s.modWarp gid wid fun w => { w with relCount := (w.relCount + 1) % 256 } else s
  if 2 ≤ scope then s1.modGroup gid fun g => { g with relCount := (g.relCount + 1) % 256 } else s1

/-- An atomic write, a barrier arrival, PBARV, WAKE or QPUSH of the issuing split: a release where it is one itself, or where it is the
first after a release fence, whose release it then carries (R226). -/
def releaseBy (c : Issuer) (scope : Option Nat) (s : State) : State :=
  match most scope c.split.fenceRel with
  | none => s
  | some n => (s.release c.ref.gid c.ref.wid n).modSplit c.ref fun x => { x with fenceRel := none }

/-- An entry of the synchronised-with table added or raised; none when eight other writers fill it (R235, R239). -/
def syncAdd (t : List SyncEntry) (e : SyncEntry) : Option (List SyncEntry) :=
  match t.find? fun x => x.bench = e.bench && x.writer = e.writer with
  | some x =>
    let d := (e.count + 256 - x.count) % 256
    some (if 1 ≤ d && d ≤ 127 then t.map fun y => if y.bench = e.bench && y.writer = e.writer then e else y else t)
  | none => if t.length < 8 then some (t ++ [e]) else none

/-- An acquire adds its entries; one that does not fit traps SYNC_TABLE, and is dropped (R235, R239; log 21). -/
def State.acquire (s : State) (gid wid pid : Nat) (lanes : Mask) (es : List SyncEntry) : State :=
  es.foldl (fun s e =>
    match s.group? gid, s.warp? gid wid with
    | some g, some w =>
      if (e.bench && e.writer = wid) || (!e.bench && e.writer = g.index % 65536) then s
      else match syncAdd w.sync e with
        | some t => s.modWarp gid wid fun w => { w with sync := t }
        | none => s.defer gid wid pid lanes { cause := 0x0E, tval := BitVec.ofNat 64 (e.writer + if e.bench then 65536 else 0) } none
    | _, _ => s) s

/-! ## Stamps (R236, R238) -/

/-- The stamp of an atom, by whichever of its names it was last written, when it is current for a group (R233, R238). -/
def State.stampAt (s : State) (g : Group) (atom : Nat) : Option Stamp :=
  match (flook atom s.stamps).or ((aliasAtoms atom).findSome? fun a => flook a s.stamps) with
  | some t => if t.task = g.task && t.phase = s.phaseOf g (atom * 32) then some t else none
  | none => none

/-- The entry that an acquire of an atom adds (R235). -/
def State.stampEntry (s : State) (g : Group) (key : Nat) : List SyncEntry :=
  match s.stampAt g (key / 32) with
  | some t => [⟨keyRegion key = 4, t.writer, t.count⟩]
  | none => []

/-! ## A write performed at its place -/

/-- The frames of HBM that bytes lie in, those that are dead where the bytes are. -/
def State.deadIn (s : State) (key n : Nat) : List Nat :=
  if s.deadFr = [] then []
  else (List.range n).foldl (fun l i => if s.deadAt (key + i) then sins (cell (key + i) / 65536) l else l) []

/-- Zeros with fresh ECC at some addresses (R220). -/
def State.freshZeros (s : State) (gone : Nat → Bool) : State :=
  { s with mem := s.mem.filter fun p => !gone p.1, poison := s.poison.filter fun a => !gone (a * 32),
           soft := s.soft.filter fun a => !gone (a * 32) }

/-- A write at a key revives its dead frame: zeros with fresh ECC over the share of each glazier at which it is dead, and its map bit set. A
declaration still to take effect at another glazier, which at the written one has, then gives zeros; one that came after the write, and is
still to take effect here, stands. The record names the writer's task (R218, R220). -/
def State.revive (s : State) (core : Nat) (st : Option Stamp) (key frame : Nat) : State :=
  let t : Nat × Nat := ((st.bind fun x => flook x.task s.tasks).map fun t => (t.asid, t.part)).getD (0, 0)
  let later := (s.place ⟨.glazier, hbmChannel (cell key) false⟩).deadReq.map (·.id)
  { s.freshZeros fun pa => pa / 65536 = frame && s.deadCell pa with
    deadFr := fdel frame s.deadFr,
    places := s.places.map fun (p : Nat × Glazier) =>
      (p.1, { p.2 with deadReq := p.2.deadReq.map fun (d : Declared) =>
        if d.frame = frame && !later.contains d.id then { d with zeros := true } else d }) }.scriv core
    (scrivRecord (BitVec.ofNat 64 (frame * 65536)) s.cycle t.1 t.2 0x3F 0xF 0x0C)

/-- The words of the bench that bytes lie in, and their core. -/
def benchCore (key : Nat) : Nat := (key - 4 * region) / 2 ^ 19
def benchWords (key n : Nat) : List Nat :=
  let off := (key - 4 * region) % 2 ^ 19
  if n = 0 then [] else upFrom (off / 4) ((off + n - 1) / 4 - off / 4 + 1)

/-- The valid bits of a range of a bench set or cleared (R143, R144). -/
def State.setValid (s : State) (key n : Nat) (v : Byte) : State :=
  { s with mem := (benchWords key n).foldl (fun m w => wrByte m (validKey (benchCore key) w) v) s.mem }
def State.isValid (s : State) (core word : Nat) : Bool := rdByte s.mem (validKey core word) != 0

/-- A write to a phase barrier word re-evaluates the PBWAITs on it: one whose phase now differs completes, an acquire (R158,
R235). -/
def State.pbWake (s : State) (key n : Nat) : State :=
  s.warps.foldl (fun s p =>
    p.2.pend.foldl (fun s q =>
      match q.kind with
      | .pbwait a par =>
        if key < a + 8 && a < key + n && bitOf (rdNat s.mem a 8) 63 != par then
          let es := match s.group? (p.1 / 32) with
            | some g => (flook a g.pbDone).getD []
            | none => []
          ((s.notePass (p.1 / 32) (p.1 % 32) q.lanes (true, a, par.toNat)).modPend (p.1 / 32) (p.1 % 32) q.id fun q =>
            { q with kind := .long, due := s.cycle }).acquire (p.1 / 32) (p.1 % 32) q.id
            q.lanes es
        else s
      | _ => s) s) s

/-- The note of a fault in translation: a malformed entry (R309), or a refusal by a target's table (R323). -/
def State.noteFor (s : State) (cluster asid part : Nat) (need : Need) (va : Nat) : Option (Nat × Nat × Nat) :=
  match s.leafOf cluster asid va with
  | .malformed pa => some (0x0E, pa, 0)
  | .absent => none
  | .leaf e l => if leafGrants e need && !s.granted part (leafXlat e l va) need then some (0x11, va, (leafXlat e l va).addr) else none

/-- The record of a fault that no warp meets, by core 0 (R309, R323; log 121). -/
def State.recordWalk (s : State) (asid part : Nat) (n : Option (Nat × Nat × Nat)) : State :=
  match n with
  | some (kind, payload, _) => s.scriv 0 (scrivRecord (BitVec.ofNat 64 payload) s.cycle asid part 0x3F 0xF kind)
  | none => s

/-- It is recorded, and a refusal goes to the physical log too (R309, R323, R355; log 121). -/
def State.recordAccess (s : State) (asid part : Nat) (n : Option (Nat × Nat × Nat)) : State :=
  let s1 := s.recordWalk asid part n
  match n with
  | some (kind, _, pa) => if kind = 0x11 then s1.logRecord pa 0 0xFFFFFFFF 0 asid part 0x09 7 else s1
  | none => s1

/-! Method tables (R256). -/

/-- An address of a task's space as a glazier reads it. -/
def State.glazierKey (s : State) (asid va : Nat) : Option Nat :=
  match s.walk asid va with
  | .leaf e l => some (leafXlat e l va).key
  | _ => none

/-- The partition of an address space. -/
def State.partOf (s : State) (asid : Nat) : Nat := fieldNat (s.ascb asid) 1 1 % 16

/-- The pieces of a target's method table, from at most two pages. -/
def State.tablePieces (s : State) (asid obj : Nat) : List (Nat × Nat) :=
  let va := objHeaders (s.objEntry asid obj)
  let n := min 256 (65536 - va % 65536)
  [(va, n), (va + n, 256 - n)].filter (·.2 != 0)
/-- The 256 bytes of the table as a glazier reads them for the address space; zero where it may not (R256, R310, R323). -/
def State.methodTable (s : State) (asid obj : Nat) : List Byte :=
  (s.tablePieces asid obj).flatMap fun p => match s.xlate 48 asid (s.partOf asid) p.1 .read with
    | .ok x => (s.found x.key p.1 p.2).bytes
    | _ => List.replicate p.2 0

/-- The glaziers read a target's method table, and drop what they have read of its methods before (R256). -/
def State.readTable (s : State) (asid obj : Nat) : State :=
  { s with tables := fput (asid * 1024 + obj) (s.methodTable asid obj) s.tables,
           places := s.places.map fun (p : Nat × Glazier) =>
             (p.1, { p.2 with methods := p.2.methods.filter fun m => m.asid != asid || m.obj != obj }) }

/-- The entries of render targets that bytes of HBM lie in, of the address spaces that have tasks. -/
def State.targetsAt (s : State) (key n : Nat) : List (Nat × Nat) :=
  if keyRegion key != 0 then []
  else ((s.tasks.map (·.2.asid)).eraseDups).flatMap fun asid =>
    let base := rdNat s.mem (hbmKey (s.conf.ascbBase + 64 * asid + 40)) 8
    let objs := (List.range n).foldl (fun a i =>
      let pa := cell (key + i)
      if base ≤ pa && pa < base + 65536 then sins ((pa - base) / 64) a else a) []
    (objs.filter fun k => objClass (s.objEntry asid k) = 2).map fun k => (asid, k)

/-- Bytes written at a place: dead frames are revived first, bench words become valid, and the method table of a target whose entry they
lie in is read again (R143, R158, R220, R256). -/
def State.store (s : State) (core key : Nat) (bs : List Byte) (st : Option Stamp) : State :=
  if bs = [] then s
  else
    let n := bs.length
    let s1 := ((s.deadIn key n).foldl (fun s f => s.revive core st key f) s).put key bs st
    if keyRegion key = 4 then (s1.setValid key n 1).pbWake key n
    else (s1.targetsAt key n).foldl (fun s p => s.readTable p.1 p.2) s1

/-! ## The checks of a lane's access (R132, R139, R141) -/

/-- A piece of a lane's access: its lane, its offset among the lane's bytes, its address as the trap names it, where its bytes
are, and the place that performs it. -/
structure Spot where
  lane : Nat
  off  : Nat
  va   : Nat
  key  : Nat
  n    : Nat
  unit : UnitRef
  deriving DecidableEq, Repr

/-- What an instruction asks of each lane: the space and object, the bytes, the size of a single-copy piece, the alignment,
and the kind; atomics are exempt from the race and valid-bit checks (R212, R237). op is an atomic's operation, with whether it returns. -/
structure Acc where
  space  : Nat
  obj    : Nat := 0
  n      : Nat
  step   : Nat
  align  : Nat
  need   : Need
  atomic : Bool := false
  op     : Option (AtomOp × Bool) := none
  deriving DecidableEq, Repr

/-! What the places of atomics accept (R147). -/

/-- The operations that a reduction window merges, in their non-returning form. -/
def windowMerges : AtomOp → Bool
  | .exch | .cas | .ld | .st => false
  | _ => true
/-- The operations that host memory accepts, as PCIe AtomicOps. -/
def hostTakes : AtomOp → Bool
  | .add | .exch | .cas => true
  | _ => false

/-- The reduction window that takes an address of the task: this device is a member of it whose open has completed and whose close has not
issued (R147, R182, R247). -/
def State.windowAt (s : State) (asid va : Nat) : Option Window :=
  s.windows.find? fun w => w.asid = asid && w.base ≤ va && va < w.base + w.len && w.ready && !w.closing && w.local_.isSome

/-- A piece's address at its target, for the physical log. -/
def Spot.addr (x : Spot) : Nat := (⟨x.unit, x.key, false⟩ : Xlat).addr

/-- The place of a piece refuses an atomic's operation. -/
def Acc.refuses (a : Acc) (s : State) (asid : Nat) (x : Spot) : Bool :=
  match a.op with
  | none => false
  | some (op, rets) =>
    (x.unit.kind = .host && !hostTakes op) ||
    (keyRegion x.key < 4 && (s.windowAt asid x.va).isSome && (rets || !windowMerges op))

/-- The die whose yard a group uses: the trailer of a pair shares its leader's (R348). -/
def State.yardDie (s : State) (g : Group) : Nat :=
  match (if g.member = 2 then g.pair.bind s.group? else none) with
  | some l => coreDie l.core
  | none => coreDie g.core

/-- The allocation of a scratchpad space: its key, its size, its place (R132, R209). -/
def State.alloc (s : State) (c : Issuer) (space : Nat) : Nat × Nat × UnitRef :=
  match space with
  | 0 => (benchKey c.grp.core c.grp.benchBase, c.grp.benchSize, ⟨.bench, c.grp.core⟩)
  | 1 =>
    let k := flook c.grp.crew s.crews
    (shopKey c.cluster ((k.map (·.shopBase)).getD 0), (k.map (·.shopSize)).getD 0, ⟨.shop, c.cluster⟩)
  | _ =>
    let d := s.yardDie c.grp
    (yardKey d (fget 0 d c.task.yard), c.task.field 512 32, ⟨.yard, d⟩)

/-- Pieces with their outcomes of translation: the place, or the first fault of each kind (R310). -/
def State.translate (s : State) (c : Issuer) (need : Need) (va n step : Nat) : List (Nat × Nat × Xres) :=
  (cut va n step).map fun p => (p.1, p.2, s.xlate c.cluster c.task.asid c.task.part ((va + p.1) % 2 ^ 64) need)

/-- That of the issuer's access. -/
def State.xnote (s : State) (c : Issuer) (need : Need) (va : Nat) : Option (Nat × Nat × Nat) :=
  s.noteFor c.cluster c.task.asid c.task.part need va

/-- The first fault of a list of translated pieces: PAGE_FAULT before ACCESS_DENIED (R139, R310). -/
def State.xfault (s : State) (c : Issuer) (need : Need) (va : Nat) (l : List (Nat × Nat × Xres)) : Option TrapInfo :=
  match l.find? (·.2.2 = .fault) with
  | some p => some { c.precise 0x08 (va + p.1) with note := s.xnote c need (va + p.1) }
  | none =>
    match l.find? (·.2.2 = .denied) with
    | some p => some { c.precise 0x09 (va + p.1) with note := s.xnote c need (va + p.1) }
    | none => none

def spotsOf (lane va : Nat) (l : List (Nat × Nat × Xres)) : List Spot :=
  l.filterMap fun p => match p.2.2 with
    | .ok x => some ⟨lane, p.1, va + p.1, x.key, p.2.1, x.unit⟩
    | _ => none

/-- The mapping of an object that an access acts on (R141). -/
def objBase (e : List Byte) (need : Need) : Nat := if objKeyed e || need = .read then objPub e else objDraft e

/-- Check 1 of R139: an entry that is not valid, a store to an object without a draft, a store or atomic naming a render target,
an access to a mapping that is none (R141, R255, R314). -/
def objRefused (e : List Byte) (need : Need) (atomic : Bool) : Bool :=
  !objValid e || (need != .read && objClass e = 2) || (!(atomic && !objKeyed e) && objBase e need = 0)

/-- The issuing task holds an object's key (R293, R295). -/
def State.holdsKey (s : State) (c : Issuer) (e : List Byte) : Bool := flook (objKeyWord e % 65536) s.keys = some c.grp.task

/-- A stamp that the race check or deterministic mode refuses for a warp (R236, R303): the address, the cause, and CAUSE's upper
bits; det says that an access of another group is to be refused. -/
def State.stampTrap (s : State) (c : Issuer) (det race : Bool) (x : Spot) : Option TrapInfo :=
  (atomsOf x.key x.n).findSome? fun a =>
    match s.stampAt c.grp a with
    | none => none
    | some t =>
      let bench := keyRegion x.key = 4
      let own := if bench then t.writer = c.ref.wid else t.writer = c.grp.index % 65536
      let addr := if a * 32 ≤ x.key then x.va else x.va + (a * 32 - x.key)
      if own then none
      else if det && !bench then some { c.precise 0x0D addr with offs := 4 < keyRegion x.key }
      else if race && !(c.warp.sync.any fun e => e.bench = bench && e.writer = t.writer &&
          1 ≤ (e.count + 256 - t.count) % 256 && (e.count + 256 - t.count) % 256 ≤ 127) then
        some { c.precise 0x0C addr with upper := BitVec.ofNat 24 (t.writer * 256 + t.count), offs := 3 < keyRegion x.key }
      else none

def State.stampFault (s : State) (c : Issuer) (det : Bool) (x : Spot) : Option TrapInfo := s.stampTrap c det c.task.race x

/-- Unwritten bench words that pieces read, as addresses (R143). -/
def State.unwritten (s : State) (l : List Spot) : List Nat :=
  l.flatMap fun x =>
    if keyRegion x.key = 4 then
      let first := (x.key - 4 * region) % 2 ^ 19 / 4
      ((benchWords x.key x.n).filter fun w => !s.isValid (benchCore x.key) w).map fun w =>
        if w = first then x.va else x.va / 4 * 4 + 4 * (w - first)
    else []

/-- On whose behalf a command acts: the split that issued it, with the lanes it then held (R221). -/
def State.agentFor (s : State) (gid wid ent : Nat) (lanes : Mask) : Option Issuer :=
  match s.group? gid, s.warp? gid wid with
  | some g, some w => (s.taskOf g).map fun t => ⟨⟨gid, wid, ent⟩, g, w, { held := lanes }, t⟩
  | _, _ => none

/-- The race check of a command's reads and writes: it delivers a deferred trap, and the command goes on (R232, R236). -/
def State.raceCheck (s : State) (gid wid pid : Nat) (lanes : Mask) (l : List Spot) : State :=
  match s.agentFor gid wid 0 lanes with
  | some c =>
    match (if c.task.race then l.findSome? (s.stampFault c false) else none) with
    | some t => s.defer gid wid pid lanes t none
    | none => s
  | none => s

/-- The checks from the key on, for a lane's pieces (R139); key-protected objects and published views are exempt from the race check, not
from that of deterministic mode (R237, R303). -/
def State.lateFault (s : State) (c : Issuer) (a : Acc) (keyed published : Bool) (e : List Byte) (ea : Nat) (l : List Spot) :
    Option TrapInfo :=
  if keyed && !s.holdsKey c e then some (c.precise 0x1A ea)
  else match (if a.need = .read && !c.warp.fpctl.getLsbD 4 then s.unwritten l else []) with
    | w :: ws => some (c.precise 0x0B (ws.foldl min w))
    | [] =>
      if !a.atomic && (c.task.race || c.task.determ) then l.findSome? (s.stampTrap c c.task.determ (c.task.race && !keyed && !published)) else none

/-- A lane's access at an address: its pieces, or the first check of R139 that fails; a lane outside an object's image makes no
access (R141). -/
def State.laneSpots (s : State) (c : Issuer) (a : Acc) (lane ea : Nat) : Except TrapInfo (List Spot) :=
  let e := if a.space = 4 then s.objEntry c.task.asid a.obj else []
  if a.space = 4 && objRefused e a.need a.atomic then .error (c.precise 0x13 ea)
  else if ea % a.align != 0 then .error (c.precise 0x0A ea)
  else if a.space < 3 then
    let (key, size, unit) := s.alloc c a.space
    if size < ea + a.n then .error (c.precise 0x09 ea)
    else
      let l := (cut 0 a.n a.step).map fun p => (⟨lane, p.1, ea + p.1, key + ea + p.1, p.2, unit⟩ : Spot)
      match s.lateFault c a false false e ea l with
      | some t => .error t
      | none => .ok l
  else if a.space = 3 && 2 ^ 57 < ea + a.n then .error (c.precise 0x09 ea)
  else if a.space = 4 && a.atomic && !objKeyed e && (objBase e a.need = 0 || objEnd e < ea + a.n) then .error (c.precise 0x09 ea)
  else if a.space = 4 && objEnd e < ea + a.n then .ok []
  else
    let va := if a.space = 4 then objBase e a.need + ea else ea
    let tr := s.translate c a.need va a.n a.step
    match s.xfault c a.need va tr with
    | some t => .error t
    | none =>
      if a.space = 4 && a.atomic && !objKeyed e then .error (c.precise 0x09 ea)
      else
        let l := spotsOf lane va tr
        match l.find? (a.refuses s c.task.asid) with
        | some x => .error { c.precise 0x09 x.va with note := some (0x11, x.va, x.addr) }
        | none =>
          match s.lateFault c a (a.space = 4 && objKeyed e) (a.space = 4 && a.need = .read) e ea l with
          | some t => .error t
          | none => .ok l

/-- All lanes' pieces, or the trap of the lowest-numbered lane that faults (R139). -/
def State.allSpots (s : State) (c : Issuer) (a : Acc) : List (Nat × Nat) → Except TrapInfo (List Spot)
  | [] => .ok []
  | (lane, ea) :: rest =>
    match s.laneSpots c a lane ea with
    | .error t => .error t
    | .ok l =>
      match s.allSpots c a rest with
      | .error t => .error t
      | .ok m => .ok (l ++ m)

/-- The watchpoint catches a piece of an access (R334). -/
def State.watched (s : State) (c : Issuer) (read : Bool) (x : Spot) : Bool :=
  let ctl := s.wpctl.toNat
  let lo := s.wpaddr.toNat % 2 ^ 57 / 8 * 8
  keyRegion x.key < 4 && !c.split.noWatch && bitOf ctl 14 && bitsOf ctl 11 0 = c.task.asid && bitOf ctl (if read then 12 else 13) &&
    x.va < lo + bitsOf ctl 47 16 && lo < x.va + x.n

/-- The pieces of an instruction's access, after every check (R139, R334). -/
def State.access (s : State) (c : Issuer) (a : Acc) (addrs : List (Nat × Nat)) : Except TrapInfo (List Spot) :=
  match s.allSpots c a addrs with
  | .error t => .error t
  | .ok l =>
    match l.find? (s.watched c (a.need = .read)) with
    | some x => .error (c.precise 0x22 x.va)
    | none => .ok l

/-! ## Reads -/

/-- A peer refuses some bytes at a place to a partition: their address, and the address there (R323, R327; log 123). -/
def peerRefusal (u : UnitRef) (part : Nat) (write : Bool) (l : List (Nat × Nat)) : Option (Nat × Nat) :=
  if u.kind = .peer then (l.find? fun x => Config.peerRefuses u.num (x.1 % 2 ^ 52) part write).map fun x => (x.2, x.1 % 2 ^ 52) else none
/-- The error that a peer returns, which the requesting split takes as a deferred ACCESS_DENIED; one that no group is left to take is only
recorded (R323). -/
def State.peerError (s : State) (gid wid pid : Nat) (lanes : Mask) (part : Nat) (x : Nat × Nat) : State :=
  match s.group? gid with
  | some _ => s.defer gid wid pid lanes { cause := 0x09, tval := BitVec.ofNat 64 x.1, note := some (0x11, x.1, x.2) } none
  | none => s.logRecord x.2 0 0xFFFFFFFF 0 0 part 0x09 7

/-- A scratchpad byte as a warp's group reads it: from its store buffer if it holds it (R339, R350), and zero for an unwritten bench
word (R143). -/
def State.scratchBytes (s : State) (g : Group) (x : Spot) : Found :=
  let f := s.found x.key x.va x.n
  { f with bytes := (List.range x.n).map fun i =>
      match flook (x.key + i) g.sbuf with
      | some b => b.val
      | none =>
        if keyRegion x.key = 4 && !s.isValid (benchCore x.key) (((x.key + i - 4 * region) % 2 ^ 19) / 4) then 0
        else f.bytes.getD i 0 }

/-- The bank width, the banks and the load latency of a scratchpad (R208, R210). -/
def beatOf (space : Nat) : Nat := match space with | 0 => 16 | 1 => 32 | _ => 64
def banksOf (space : Nat) : Nat := match space with | 0 => 96 | 1 => 128 | _ => 512
def latencyOf (space : Nat) : Nat := match space with | 0 => 8 | 1 => 30 | _ => 120
/-- d: the distinct beats of the most-used bank (R211), of accesses given by address and length. -/
def conflicts (space : Nat) (l : List (Nat × Nat)) : Nat :=
  let beats := l.foldl (fun a x => (upFrom (x.1 / beatOf space) ((x.1 + x.2 - 1) / beatOf space - x.1 / beatOf space + 1)).foldl
    (fun a b => sins b a) a) []
  let per := beats.map fun b => (beats.filter fun q => q % banksOf space = b % banksOf space).length
  max 1 (per.foldl max 0)
/-- The cycles that a scratchpad access takes; one with no active lane takes six (R62; log 106). -/
def delayOf (space : Nat) (l : List Spot) : Nat :=
  if l = [] then 6 else latencyOf space + conflicts space (l.map fun x => (x.va, x.n)) - 1

/-! ## The store buffer, commits and the write buffer (R244, R347) -/

/-- The atoms that a store buffer holds (R304, R347). -/
def Group.atoms (g : Group) : List Nat := g.sbuf.foldl (fun a p => sins (p.1 / 32) a) []
/-- Its room, in atoms of 32 bytes: held effects take one each. -/
def Group.full (g : Group) (more : List Nat) : Bool :=
  2048 < (more.foldl (fun a k => sins k a) g.atoms).length + g.held.length

/-- The entries into which bytes of a store buffer drain: one for each sector, whose bytes one place and one bank of the write buffer
take (R140, R244). -/
def drainEntries (g : Group) (gid cid : Nat) (agent : Option (Nat × Mask)) (bytes : FMap SbByte) : List WbEntry :=
  let keys := bytes.foldl (fun a p => sins (sectorOf p.1) a) []
  keys.filterMap fun k =>
    let bs := bytes.filter fun p => sectorOf p.1 = k
    match bs with
    | [] => none
    | (a, b) :: _ =>
      some { u := b.unit, bank := a / 64 % 16, bytes := bs, gid := gid, cid := cid, task := g.task, group := g.index, agent := agent }

/-- A commit begins: every buffered atom is taken (R347). Its number is the state's next; agent is the split whose operation it is. -/
def State.commit (s : State) (gid : Nat) (agent : Option (Nat × Mask) := none) : State :=
  match s.group? gid with
  | none => s
  | some g =>
    let s1 := { s with fresh := s.fresh + 1 }.modGroup gid fun g =>
      { g with sbuf := [], draining := g.draining ++ drainEntries g gid s.fresh agent g.sbuf }
    s1.expose g

/-- Some write of a group that its commits have taken, or an atomic that it held, is still to be performed: one of the commits that mine names. -/
def State.undrained (s : State) (gid : Nat) (mine : Nat → Bool) : Bool :=
  let todo : WbEntry → Bool := fun e => e.gid = gid && mine e.cid && (e.atom.isNone || e.pid.isNone) && !e.cmd
  (((s.group? gid).map fun g => g.draining.any todo).getD false) || s.wbanks.any fun b => b.2.any todo
/-- Every write that commit c drained has been performed: the commit point is complete (R244). -/
def State.committed (s : State) (gid c : Nat) : Bool := !s.undrained gid (· = c)
/-- So has every write of an earlier commit, which a release covers too (R148, R154). -/
def State.released (s : State) (gid c : Nat) : Bool := !s.undrained gid (· ≤ c)

/-- Bytes of at most 2,048 atoms put into a store buffer, over older ones (R347); a write that finds no room commits what is there first, of
a redundant pair from the leader's buffer alone (log 133). -/
def State.bufferPart (s : State) (gid : Nat) (agent : Option (Nat × Mask)) (bytes : List (Nat × SbByte)) : State :=
  match s.group? gid with
  | none => s
  | some g =>
    let s1 := if !g.full (bytes.map fun p => p.1 / 32) then s
      else if g.member = 2 then s.modGroup gid fun g => { g with sbuf := [] } else s.commit gid agent
    s1.modGroup gid fun g => { g with sbuf := bytes.foldl (fun m p => fput p.1 p.2 m) g.sbuf }

/-- A write into a store buffer; one of more atoms than the buffer holds enters in two parts (R347). -/
def State.buffer (s : State) (gid : Nat) (agent : Option (Nat × Mask)) (bytes : List (Nat × SbByte)) : State :=
  let atoms := bytes.foldl (fun a p => sins (p.1 / 32) a) []
  if atoms.length ≤ 2048 then s.bufferPart gid agent bytes
  else
    let first := atoms.take 2048
    (s.bufferPart gid agent (bytes.filter fun p => first.contains (p.1 / 32))).bufferPart gid agent
      (bytes.filter fun p => !first.contains (p.1 / 32))

/-- The bytes of a spot's data as store-buffer bytes. -/
def sbBytes (x : Spot) (bs : List Byte) (count : Nat) : List (Nat × SbByte) :=
  (List.range x.n).map fun i => (x.key + i, { val := bs.getD i 0, va := x.va + i, unit := x.unit, count := count })

/-- A write of the issuing group that other agents do not see until a commit: mem, and in a redundant task the yard (R138, R350). -/
def buffered (t : Task) (key : Nat) : Bool := keyRegion key < 4 || (t.redundant && keyRegion key = 6)

/-- A group has written outside its bench, slots, tiles and store buffer (R343). -/
def State.exposeBy (s : State) (g : Group) (key : Nat) : State := if keyRegion key = 4 then s else s.expose g

/-- The earlier accesses of some lanes of a warp have been performed: those of operations with a lower number (R148, R154). -/
def Warp.earlierDone (w : Warp) (lanes : Mask) (id : Nat) : Bool :=
  !(w.pend.any fun q => q.id < id && q.lanes &&& w.kin lanes id != 0 && isAccess q.kind)
/-- Its earlier returning mem atomics have returned (R245). -/
def Warp.atomsReturned (w : Warp) (lanes : Mask) (id : Nat) : Bool :=
  !(w.pend.any fun q => q.id < id && q.lanes &&& w.kin lanes id != 0 && q.kind = .atomic true && q.hold.isNone)

/-- Bytes [a, a+n) and [b, b+m) meet. -/
def overlaps (a n b m : Nat) : Bool := a < b + m && b < a + n

/-- A queued request of a place touches bytes. -/
def Req.touches (r : Req) (key n : Nat) : Bool :=
  r.pieces.any (fun p => overlaps p.addr p.n key n) ||
  (match r.atom with
    | some a => a.lanes.any fun l => overlaps l.addr a.size key n
    | none => false) ||
  (match r.sync with
    | some y => overlaps y.addr 16 key n
    | none => false)

/-- An entry of the write buffer touches bytes. -/
def WbEntry.touches (e : WbEntry) (key n : Nat) : Bool :=
  e.bytes.any (fun p => overlaps p.1 1 key n) ||
  (match e.atom with
    | some a => a.lanes.any fun l => overlaps l.addr a.size key n
    | none => false)

/-- An entry of the write buffer writes some of the bytes that a queue instruction may read (R225). -/
def WbEntry.inRing (e : WbEntry) (y : SyncReq) : Bool :=
  e.bytes.any (fun p => y.va ≤ p.2.va && p.2.va < y.va + y.ring) ||
  (match e.atom with
    | some a => a.lanes.any fun l => overlaps l.va a.size y.va y.ring
    | none => false)

/-- A write of the group with a lower number to bytes of a request is still to be performed: the request waits (R244). -/
def State.heldByWrite (s : State) (gid id : Nat) (touch : WbEntry → Bool) : Bool :=
  let todo : WbEntry → Bool := fun e => e.gid = gid && e.cid < id && touch e
  (((s.group? gid).map fun g => g.draining.any todo).getD false) || (s.wbanks.any fun b => b.2.any todo)

/-! ## Views in use (R249) -/

/-- A command under way that has fixed a copy as its view, an address of which is given. -/
def ECmd.views (e : ECmd) (asid va : Nat) : Bool :=
  e.src = 4 && e.asid = asid &&
  (match e.view with
    | some b => b != 0 && b ≤ va && va < b + objEnd e.entry
    | none => false)

/-- A write to an address must wait: it is a copy that is published no more, and a command or a load is reading it as its view. What reads
waits itself for its group's earlier writes (R244). -/
def State.viewHeld (s : State) (asid va gid cid : Nat) : Bool :=
  (s.cores.any fun p => p.2.engine.any fun e =>
    e.views asid va && e.view != some (objPub (s.objEntry e.asid e.obj)) && !(e.gid = gid && cid < e.id)) ||
  (s.warps.any fun p => p.2.pend.any fun q =>
    match q.view with
    | some (obj, base, n) =>
      base ≤ va && va < base + n && ((s.group? (p.1 / 32)).bind s.taskOf).map (·.asid) = some asid &&
        base != objPub (s.objEntry asid obj) && !(p.1 / 32 = gid && cid < q.id)
    | none => false)

/-! ## Requests on their way (R216, R217, R244 to R246) -/

/-- The stack of a glazier is in forced self-refresh: no request is performed there (R353). -/
def State.stackHeld (s : State) (u : UnitRef) : Bool := u.kind = .glazier && (flook (u.num / 64) s.refresh).isSome

/-- Its self-refresh has lasted too long: what is held there ends, a read as consumed poison and a write undone (R353). -/
def State.lostAt (s : State) (u : UnitRef) : Bool := s.stackHeld u && s.timedOut.contains (u.num / 64)

/-- The bytes that a request touches. -/
def Req.spans (r : Req) : List (Nat × Nat) :=
  r.pieces.map (fun p => (p.addr, p.n)) ++
  (match r.atom with
    | some a => a.lanes.map fun l => (l.addr, a.size)
    | none => []) ++
  (match r.sync with
    | some y => [(y.addr, 16)]
    | none => [])

/-- The virtual addresses that a request writes. -/
def Req.writes (r : Req) : List Nat :=
  (match r.atom with
    | some a => if a.op = .ld then [] else a.lanes.map (·.va)
    | none => []) ++
  (match r.sync with
    | some y => [y.va]
    | none => [])

/-- A request is a release: its atomic is, or it is WAKE or QPUSH (R226). -/
def Req.releases (r : Req) : Bool :=
  match r.atom, r.sync with
  | some a, _ => a.rel
  | none, some y => (match y.op with
    | .wake _ | .qpush _ => true
    | _ => false)
  | none, none => false

/-- The core of a group. -/
def State.coreOf (s : State) (gid : Nat) : Nat := ((s.group? gid).map (·.core)).getD 0

/-- The accesses of its own split for which a request waits: returning atomics wait for each other, a release for every earlier access
(R148, R245). -/
def State.splitTurn (s : State) (r : Req) : Bool :=
  match (s.warp? r.gid r.wid).bind fun w => (w.pend? r.pid).map fun q => (w, q) with
  | none => true
  | some (w, q) => (r.pieces != [] || w.atomsReturned q.lanes q.id) && (!r.releases || w.earlierDone q.lanes q.id)

/-- The device allows 4,096 requests to the capacity tier at once, and each cluster 256: there is room for one of the group (R217). -/
def State.tierRoom (s : State) (u : UnitRef) (gid : Nat) : Bool :=
  u.kind != .capacity ||
    (let out := s.places.flatMap fun p => if (4000 ≤ p.1 && p.1 < 5000) then p.2.queue.filter (·.arrived.isSome) else []
     out.length < 4096 && (out.filter fun o => coreCluster (s.coreOf o.gid) = coreCluster (s.coreOf gid)).length < 256)

/-- An earlier request of the group, wherever it stands, touches bytes: what the group reads or writes there later follows it (R225, R248). -/
def State.requestAhead (s : State) (u : UnitRef) (gid id : Nat) (touch : Req → Bool) : Bool :=
  (s.place u).queue.any fun r => r.gid = gid && r.pid < id && touch r

/-- A request may leave its core's send queue for its place, as far as its own group's writes and accesses, its commit, the views in use and
the limits of R217 allow. -/
def State.sendable (s : State) (u : UnitRef) (r : Req) : Bool :=
  ((r.after.map fun c => if r.releases then s.released r.gid c else s.committed r.gid c).getD true) &&
    !s.heldByWrite r.gid r.pid (fun e => (r.spans.any fun x => e.touches x.1 x.2) || (r.sync.map e.inRing).getD false) && s.splitTurn r &&
    !s.requestAhead u r.gid r.pid (fun o => r.spans.any fun x => o.touches x.1 x.2) &&
    !(r.writes.any fun va => s.viewHeld (s.asidOf r.gid) va r.gid r.pid) && s.tierRoom u r.gid

/-- A request is made: it reaches its place at once where it may, else it stands in its core's send queue. -/
def State.request (s : State) (u : UnitRef) (r : Req) : State :=
  let go := s.sendable u r
  { s with fresh := if go then s.fresh + 1 else s.fresh }.modPlace u fun p =>
    { p with queue := p.queue ++ [{ r with arrived := if go then some s.fresh else none }] }

/-- The bytes of a frame, at either of its addresses, are touched. -/
def inFrame (x : Nat × Nat) (frame : Nat) : Bool :=
  overlaps x.1 x.2 (hbmKey (frame * 65536)) 65536 || overlaps x.1 x.2 (gangKey (frame * 65536)) 65536
/-- A declaration that came before what touches some bytes and arrived as number n is still to take effect: at the glazier or, for ganged
bytes, at the other one of the pair, which act as one (R215, R218). -/
def State.declaredBefore (s : State) (u : UnitRef) (n : Nat) (spans : List (Nat × Nat)) : Bool :=
  u.kind = .glazier &&
    ((s.place u).deadReq.any (fun d => d.id < n && spans.any (inFrame · d.frame)) ||
      (s.place ⟨.glazier, u.num ^^^ 1⟩).deadReq.any fun d => d.id < n && spans.any fun x => gangBase ≤ x.1 && inFrame x d.frame)

/-- A place may start what touches some bytes and arrived as number n: of the older requests there none touches the same bytes or the same
dead frame, none has been passed by fifteen, and a glazier passes one only where the DRAM row is open; no older declaration is still to take
effect on their frames (R216, R218, R220). -/
def State.mayStart (s : State) (u : UnitRef) (n : Nat) (spans : List (Nat × Nat)) : Bool :=
  let p := s.place u
  let older := p.queue.filter fun o => (o.arrived.map fun a => decide (a < n)).getD false
  let meet : Req → Bool := fun o => spans.any fun x => o.touches x.1 x.2 ||
    (s.deadIn x.1 x.2).any fun f => o.touches (f * 65536) 65536 || o.touches (gangKey (f * 65536)) 65536
  !s.stackHeld u && !s.declaredBefore u n spans && older.all (fun o => !meet o && o.passed < 15) &&
    (older = [] || u.kind != .glazier || spans.all fun x => p.row = some (Config.rowOf (cell x.1)))

/-- A glazier has started what touches some bytes and arrived as number n: older requests have been passed, and its row is open. -/
def State.started (s : State) (u : UnitRef) (n : Nat) (spans : List (Nat × Nat)) : State :=
  if u.kind != .glazier then s
  else s.modPlace u fun p =>
    { p with
      queue := p.queue.map fun (o : Req) => if (o.arrived.map fun a => decide (a < n)).getD false then { o with passed := o.passed + 1 } else o,
      row := match spans.getLast? with
        | some x => some (Config.rowOf (cell x.1))
        | none => p.row }

/-- The place of a byte of HBM. -/
def keyUnit (key : Nat) : UnitRef := ⟨.glazier, hbmChannel (cell key) (decide (gangBase ≤ key))⟩
/-- The bytes at some keys of HBM by place. -/
def byPlace (keys : List Nat) : List (UnitRef × List (Nat × Nat)) :=
  (keys.map keyUnit).eraseDups.map fun u => (u, (keys.filter (keyUnit · = u)).map fun k => (k, 1))
/-- The dispatcher may not yet reach bytes at their keys: a place has older requests to them, or is in self-refresh (R216, R353). -/
def State.keysWait (s : State) (keys : List Nat) : Bool := (byPlace keys).any fun p => !s.mayStart p.1 s.fresh p.2
/-- It has reached them. -/
def State.visit (s : State) (keys : List Nat) : State := (byPlace keys).foldl (fun s p => s.started p.1 s.fresh p.2) s

end Sys2Proof.Machine
end

