-- ==== Sys2Proof/Machine/Fetch.lean ====
section
/-! DEFINITION. Lines: reading one through instruction translation, its entry and its refetch (R9 to R15), the checks of a
transfer's targets (R13, R14, R166), and the issue ports (R197 to R201). -/

namespace Sys2Proof.Machine

/-! ## Reading a line -/

/-- The 64 bytes of a line as a task of a cluster fetches them, or the fault of the translation (R15, R310). -/
inductive LineRead where
  | text (bytes : List Byte)
  | fault
  | denied
  deriving DecidableEq, Repr

def State.readLine (s : State) (c : Issuer) (line : Nat) : LineRead :=
  match s.xlate c.cluster c.task.asid c.task.part line .exec with
  | .ok x => .text (s.found x.key line 64).bytes
  | .fault => .fault
  | .denied => .denied

/-- A line's text as a transfer sees it: when it can be read and no check before the target mask fails. -/
def State.soundLine (s : State) (c : Issuer) (line : Nat) : Option (List Byte) :=
  match s.readLine c line with
  | .text b => if parityOk b && lineWordOk b then some b else none
  | _ => none

/-- A target that a transfer refuses: an invalid program counter, or a slot that is no legal target (R13, R14, R166). mask says
whether the target mask is checked. A line that cannot be read or is not sound is left to the entry of the line. -/
def State.targetBad (s : State) (c : Issuer) (mask : Bool) (pc : DWord) : Bool :=
  pcBad pc || (mask && (match s.soundLine c (lineOf pc).toNat with
    | some b => !targetBit b (slotOf pc)
    | none => false))

/-! ## LINE_ENTRY and LINE_REFETCH -/

/-- A split whose line can be entered: not parked, not trapping, in no stopped group. -/
def Issuer.fetching (c : Issuer) : Bool := !c.split.entered && c.split.parked.isNone && c.split.trap.isNone && !c.grp.stopped

/-- The checks 4 and 5 of R15 on a line's text; a line that passes is entered. -/
def enterWith (s : State) (c : Issuer) (b : List Byte) : State :=
  let x := c.split
  if !lineWordOk b then raise s c.ref { cause := 0x01, tval := 9, epc := x.pc }
  else match x.via, targetBit b (slotOf x.pc) with
    | some from_, false => raise s c.ref { cause := 0x02, tval := x.pc, epc := from_ }
    | _, _ => s.modSplit c.ref fun x => { x with line := some (lineOf x.pc), text := b, via := none }

/-- A program counter enters a line (R15): the checks in their order. A copy whose parity disagrees is left for one more fetch
(R11). -/
def execLineEntry (r : SplitRef) (s : State) : Host.Outcome State Fault Refusal :=
  match s.issuerOf r with
  | none => .next s
  | some c =>
    let x := c.split
    if !c.fetching || x.text != [] || c.saved s then .next s
    else if pcBad x.pc then .next (raise s r { cause := 0x02, tval := x.pc, epc := x.via.getD x.pc })
    else
      let line := (lineOf x.pc).toNat
      .next (match s.readLine c line with
        | .fault => raise s r { cause := 0x08, tval := lineOf x.pc, epc := x.pc, note := s.xnote c .exec line }
        | .denied => raise s r { cause := 0x09, tval := lineOf x.pc, epc := x.pc, note := s.xnote c .exec line }
        | .text b => if parityOk b then enterWith s c b else s.modSplit r fun x => { x with text := b, line := none })

/-- The one refetch of a line whose parity failed, with its record; a soft error in the core's copy can happen to any split that
has still to enter its line (R11). -/
def execLineRefetch (r : SplitRef) (s : State) : Host.Outcome State Fault Refusal :=
  match s.issuerOf r with
  | none => .next s
  | some c =>
    let x := c.split
    if !c.fetching || pcBad x.pc || c.saved s then .next s
    else
      let line := (lineOf x.pc).toNat
      .next (match s.readLine c line with
        | .text b =>
          let ok := parityOk b
          let s1 := (s.modSplit r fun x => { x with text := [] }).scrivWarp r.gid r.wid r.ent 0x08
            (BitVec.ofNat 64 (line + if ok then 0 else 2 ^ 63))
          if ok then enterWith s1 c b else raise s1 r { cause := 0x04, tval := lineOf x.pc, epc := x.pc }
        | _ => s.modSplit r fun x => { x with text := [] })

/-! ## PORT_BIND (R197 to R201) -/

/-- The splits of a core's bay, with their warps. -/
def State.baySplits (s : State) (core bay : Nat) : List (SplitRef × Nat) :=
  s.warps.flatMap fun p =>
    match s.group? (p.1 / 32) with
    | some g =>
      if g.core = core && p.2.bay = bay then p.2.splits.map fun e => (⟨p.1 / 32, p.1 % 32, e.1⟩, p.2.slot) else []
    | none => []

/-- A 64-lane warp still holds a lane unit that an instruction needs; splits of that warp share the vector datapath (R61, R199). -/
def State.laneHeld (s : State) (c : Issuer) (i : Instr) : Bool :=
  (unitsOf (c.profile i).head).any fun u =>
    u.isLane && (match flook (c.warp.bay * 16 + u.code) (s.core c.grp.core).busy with
      | some t => s.cycle ≤ t.1 && !(u = .vec && t.2 = c.ref.gid * 32 + c.ref.wid)
      | none => false)

/-- The instruction that a split offers in this cycle, when it can issue, with the second of its pair. -/
def State.offer (s : State) (r : SplitRef) : Option (Issuer × Instr) :=
  match s.issuerOf r with
  | none => none
  | some c =>
    if c.split.entered then
      let i := instrAt c.split.text (slotOf c.split.pc)
      let held := s.laneHeld c i || ((c.partner i).map (s.laneHeld c)).getD false
      if canIssue i c s && !held then some (c, i) else none
    else none

/-- The split that a free port binds: READY, able to issue, and bound longest ago; ties go to the lower slot and entry (R198). -/
def State.pick (s : State) (l : List (SplitRef × Nat)) : Option SplitRef :=
  (l.foldl (fun (best : Option (Nat × Nat × SplitRef)) p =>
    match s.issuerOf p.1 with
    | none => best
    | some c =>
      if c.split.bound.isSome || (s.offer p.1).isNone then best
      else
        let k := (c.split.lastBind, p.2, p.1)
        match best with
        | none => some k
        | some b => if k.1 < b.1 || (k.1 = b.1 && (k.2.1 < b.2.1 || (k.2.1 = b.2.1 && p.1.ent < b.2.2.ent))) then some k else some b)
    none).map (·.2.2)

/-- A free port binds a split (R197). -/
def State.bindPort (s : State) (core bay port : Nat) : State :=
  if (flook (bay * 2 + port) (s.core core).ports).isSome then s
  else match s.pick (s.baySplits core bay) with
    | none => s
    | some r =>
      (s.modSplit r fun x => { x with bound := some port, lastBind := s.cycle }).modCore core fun k =>
        { k with ports := fput (bay * 2 + port) r k.ports }

/-- Two candidates conflict: they need too much of a resource together, or one is a pair (R200). -/
def conflicting (a b : Issuer × Instr) : Bool :=
  let pa := a.1.profile a.2
  let pb := b.1.profile b.2
  (a.1.partner a.2).isSome || (b.1.partner b.2).isSome ||
    exceeds (a.1.ref.gid = b.1.ref.gid && a.1.ref.wid = b.1.ref.wid) pa pb

/-- The first candidate goes before the second (R200). -/
def before (a b : Issuer × Instr) : Bool :=
  if a.1.split.prio != b.1.split.prio then a.1.split.prio
  else if a.1.ref.gid = b.1.ref.gid && a.1.ref.wid = b.1.ref.wid then a.1.ref.ent < b.1.ref.ent
  else a.1.warp.slot < b.1.warp.slot

/-- In a cycle the free ports of a bay bind, and the candidates that do not conflict issue; one that waits gains priority (R198,
R200). -/
def execPortBind (core bay : Nat) (s : State) : Host.Outcome State Fault Refusal :=
  let s1 := (s.bindPort core bay 0).bindPort core bay 1
  let k := s1.core core
  let cand : Nat → Option (Issuer × Instr) := fun p => (flook (bay * 2 + p) k.ports).bind s1.offer
  .next (match cand 0, cand 1 with
    | some a, some b =>
      if conflicting a b then
        let (w, l) := if before a b then (a, b) else (b, a)
        { s1.modSplit l.1.ref fun x => { x with prio := true } with issuing := s1.issuing ++ [w.1.ref] }
      else { s1 with issuing := s1.issuing ++ [a.1.ref, b.1.ref] }
    | some a, none => { s1 with issuing := s1.issuing ++ [a.1.ref] }
    | none, some b => { s1 with issuing := s1.issuing ++ [b.1.ref] }
    | none, none => s1)

end Sys2Proof.Machine
end

