-- ==== Sys2Proof/Machine/CrossLane.lean ====
section
/-! DEFINITION. The cross-lane instructions (R97 to R103). -/

namespace Sys2Proof.Machine

/-- The encodings that trap when sdst is an exception to R64: A stays a vector source (R100, R103). -/
def ckX (e : Env) (f : VFmt) (o : VOpts) : Ck :=
  let n := if is64 f.t then 2 else 1
  ckV e { f with sdst := 0, dst := 0 } o ++ (if f.isScalar then ckSd f.dst n n else ckVd e f.dst n n)

/-- Source A of a lane. -/
def laneA (e : Env) (f : VFmt) (l : Nat) : Nat := (e.src f.sa f.uniA l).toNat

/-- A scalar result in the place of a vector one. -/
def xScalar (f : VFmt) (v : Nat) (st : Word) : VOut :=
  { scas := if dNowb f.dst then [] else [(dIdx f.dst, BitVec.ofNat 32 v)], latch := some (false, [BitVec.ofNat 32 v]), sticky := st }

/-! ## Moves -/

/-- The source lane of VSHFL (R98). -/
def shflFrom (e : Env) (f : VFmt) (l : Nat) : Option Nat :=
  let k := f.func.toNat / 64
  match f.func.toNat % 8 with
  | 0 => some ((e.src f.sb f.uniB l).toNat % e.lanes)
  | 1 => if l < k then none else some (l - k)
  | 2 => if e.lanes ≤ l + k then none else some (l + k)
  | _ => some (l ^^^ k)

def vshflOp (f : VFmt) : VOp :=
  let m := f.func.toNat % 8
  { opts := { n := if m = 0 then 2 else 1, types := [0, 1, 8], func := 0xFFF, cnt := false, scalar := false,
              extra := [(4 ≤ m, 2), (f.func.toNat / 8 % 8 != 0, 2), (m = 0 && f.func.toNat / 64 != 0, 2)] },
    eval := fun e => vResult e f none fun l =>
      match shflFrom e f l with
      | some j => (if (e.active f.guard).getLsbD j then laneA e f j else laneA e f l, 0)
      | none => (laneA e f l, 0) }

/-- The encodings of VSHFL that trap; the lane count is below W (R98). -/
def ckVshfl (e : Env) (f : VFmt) : Ck := ckV e f (vshflOp f).opts ++ ([(decide (e.lanes ≤ f.func.toNat / 64), 2)] : Ck)

def execVshfl (f : VFmt) (s : State) : Host.Outcome State Fault Refusal :=
  issue (.vshfl f) (fun c => ckVshfl c.env f) (fun c t => .ok (applyOut (.vshfl f) c ((vshflOp f).eval c.env) t)) s

/-- A value that arrives in an even member under .neg (R99). -/
def swapNeg (f : VFmt) (even : Bool) (x : Nat) : Nat × Word :=
  if f.func.getLsbD 1 && even then canon (wideOf f.t) ((wideOf f.t).flip x) else (x, 0)

def vpswapOp (f : VFmt) : VOp :=
  let half := f.func.getLsbD 0
  { opts := { n := 1, types := if half then [2, 3, 9, 10] else [0, 1, 8], func := 3, cnt := false, scalar := false,
              extra := [(f.func.getLsbD 1 && !isWide f.t, 2)] },
    eval := fun e => vResult e f none fun l =>
      let a := laneA e f l
      if half then
        let (lo, s0) := swapNeg f true (elemGet f.t a 1)
        let (hi, s1) := swapNeg f false (elemGet f.t a 0)
        (elemPut f.t 0 lo + elemPut f.t 1 hi, s0 ||| s1)
      else
        let j := l ^^^ 1
        if (e.active f.guard).getLsbD j then swapNeg f (l % 2 = 0) (laneA e f j) else (a, 0) }

def execVpswap (f : VFmt) (s : State) := runV (.vpswap f) f (vpswapOp f) s

def vbcastOp (f : VFmt) : VOp :=
  let k := f.func.toNat % 64
  { opts := { n := 1, types := [0, 1, 8], func := 0x3F, cnt := false },
    eval := fun e =>
      let on := (e.active f.guard).getLsbD k
      if f.isScalar then xScalar f (if on then laneA e f k else 0) 0
      else vResult e f none fun l => (if on then laneA e f k else laneA e f l, 0) }

/-- The encodings of VBCAST that trap; the lane is below W (R100). -/
def ckVbcast (e : Env) (f : VFmt) : Ck := ckX e f (vbcastOp f).opts ++ ([(decide (e.lanes ≤ f.func.toNat % 64), 2)] : Ck)

def execVbcast (f : VFmt) (s : State) : Host.Outcome State Fault Refusal :=
  issue (.vbcast f) (fun c => ckVbcast c.env f) (fun c t => .ok (applyOut (.vbcast f) c ((vbcastOp f).eval c.env) t)) s

/-! ## VVOTE -/

/-- A ballot of a 64-lane warp writes a pair (R101). -/
def pairBallot (e : Env) (f : VFmt) : Bool := e.lanes = 64 && f.func.toNat % 4 = 0

def ckVvote (e : Env) (f : VFmt) : Ck :=
  ckPost f.post ++ ckGuard f.guard ++ ckQ f.sa true ++
  ([(6 ≤ f.round.toNat, 5), (f.round != 0 || f.sat != 0 || f.sb != 0 || f.sc != 0 || f.uni != 0 || f.sdst = 0, 2), (f.t != 1, 5),
    (4 ≤ f.func.toNat, 2), (pairBallot e f && dNowb f.dst, 2)] : Ck) ++
  (if pairBallot e f || is64 f.t then ckSd f.dst 2 2 else ckSd f.dst 1 1)

/-- The result of VVOTE (R101). -/
def voteResult (mode : Nat) (active q : Mask) : Nat :=
  match mode with
  | 0 => (q &&& active).toNat
  | 1 => if q &&& active != 0 then 1 else 0
  | 2 => if active &&& ~~~ q = 0 then 1 else 0
  | _ => popCount (q &&& active)

def evalVvote (e : Env) (f : VFmt) : VOut :=
  let v := voteResult (f.func.toNat % 4) (e.active f.guard) (e.pred (fIdx f.sa))
  if pairBallot e f then
    { scas := [(dIdx f.dst, BitVec.ofNat 32 v), (dIdx f.dst + 1, BitVec.ofNat 32 (v / 2 ^ 32))] }
  else xScalar f v 0

def execVvote (f : VFmt) (s : State) : Host.Outcome State Fault Refusal :=
  issue (.vvote f) (fun c => ckVvote c.env f) (fun c t => .ok (applyOut (.vvote f) c (evalVvote c.env f) t)) s

/-! ## VSCAN and VRED -/


/-- Two elements combined, the first on the left (R85, R102, R103). -/
def combine (t op : Nat) (r : Rnd) (a x : Nat) : Nat × Word :=
  if isWide t then
    let w := wideOf t
    match op with
    | 0 => roundWide w r [w.decode a, w.decode x] ((w.decode a).add r.isRd (w.decode x))
    | 1 => canon w (if keyOf w a ≤ keyOf w x then a else x)
    | _ => canon w (if keyOf w a ≤ keyOf w x then x else a)
  else
    match op with
    | 0 => (wrapTo (typeBits t) (intOf t a + intOf t x), 0)
    | 1 => (if intOf t a ≤ intOf t x then a else x, 0)
    | 2 => (if intOf t a ≤ intOf t x then x else a, 0)
    | 3 => (a &&& x, 0)
    | 4 => (a ||| x, 0)
    | _ => (a ^^^ x, 0)

/-- The identity of an operation (R102). -/
def identityOf (t op : Nat) : Nat :=
  if isWide t then
    let w := wideOf t
    match op with
    | 0 => w.signBit
    | 1 => w.signBit - 1
    | _ => 2 * w.signBit - 1
  else
    match op with
    | 0 | 4 | 5 => 0
    | 1 => if isSigned t then 2 ^ 31 - 1 else 2 ^ 32 - 1
    | 2 => if isSigned t then 2 ^ 31 else 0
    | _ => 2 ^ 32 - 1
/-- An identity as it is written: a NaN as the canonical NaN (R102). -/
def identityOut (t op : Nat) : Nat := if isWide t then (canon (wideOf t) (identityOf t op)).1 else identityOf t op

/-- What VSCAN and VRED allow; bits are the func bits beside the operation (R102, R103). -/
def scanOpts (f : VFmt) (bits : Nat) (sca : Bool) : VOpts :=
  let op := f.func.toNat / 2 % 8
  { n := 1, types := [0, 1, 8, 11], rnd := true, func := 0xE ||| bits, cnt := false, scalar := sca,
    extra := [(6 ≤ op, 2), (isWide f.t && 3 ≤ op, 2), (!(isWide f.t && op = 0) && f.round != 0, 2), (f.round = 4, 5)] }

/-- The prefix over the active lanes: the value of each lane, and the STICKY bits (R102). -/
def scanGo (t op : Nat) (r : Rnd) (excl : Bool) (act : Nat → Bool) (a : Nat → Nat) : List Nat → Option Nat → List Nat × Word
  | [], _ => ([], 0)
  | l :: ls, acc =>
    if act l then
      let (v, st) := combine t op r (acc.getD (identityOf t op)) (a l)
      let (rest, st2) := scanGo t op r excl act a ls (some v)
      ((if excl then acc.getD (identityOut t op) else v) :: rest, st ||| st2)
    else
      let (rest, st2) := scanGo t op r excl act a ls acc
      (0 :: rest, st2)

def evalVscan (e : Env) (f : VFmt) : VOut :=
  let m := e.active f.guard
  let (vs, st) := scanGo f.t (f.func.toNat / 2 % 8) (e.mode f.round 0 1 0) (f.func.getLsbD 0) m.getLsbD
    (fun l => elemGet f.t (laneA e f l) 0) (List.range e.lanes) none
  let out := toWords (vs.map (elemPut f.t 0))
  VOut.inLanes m
  { vecs := if dNowb f.dst then [] else [(dIdx f.dst, m, out)],
    latch := some (true, (List.range e.lanes).map fun l => if m.getLsbD l then out.getD l 0 else 0), sticky := st }

def ckVscan (e : Env) (f : VFmt) : Ck := ckV e f (scanOpts f 1 false) ++ ckDyn e f.round

def execVscan (f : VFmt) (s : State) : Host.Outcome State Fault Refusal :=
  issue (.vscan f) (fun c => ckVscan c.env f) (fun c t => .ok (applyOut (.vscan f) c (evalVscan c.env f) t)) s

/-- One level of the tree: a node of leaves that are all inactive is none and yields the identity (R103). -/
def redLevel (t op : Nat) (r : Rnd) : List (Option Nat) → List (Option Nat) × Word
  | a :: b :: rest =>
    let (tl, st) := redLevel t op r rest
    match a, b with
    | none, none => (none :: tl, st)
    | _, _ =>
      let (v, s1) := combine t op r (a.getD (identityOf t op)) (b.getD (identityOf t op))
      (some v :: tl, s1 ||| st)
  | l => (l, 0)
def redTree (t op : Nat) (r : Rnd) : Nat → List (Option Nat) → Option Nat × Word
  | 0, l => ((l.head?).getD none, 0)
  | n + 1, l =>
    let (l2, st) := redLevel t op r l
    let (v, s2) := redTree t op r n l2
    (v, st ||| s2)

/-- VRED: every lane enters the tree, whose shape W fixes (R103). -/
def evalVred (e : Env) (f : VFmt) : VOut :=
  let m := e.active f.guard
  let op := f.func.toNat / 2 % 8
  let leaves := (List.range e.lanes).map fun l => if m.getLsbD l then some (elemGet f.t (laneA e f l) 0) else none
  let (v, st) := redTree f.t op (e.mode f.round 0 1 0) (Nat.log2 e.lanes) leaves
  let x := elemPut f.t 0 (v.getD (identityOut f.t op))
  if f.isScalar then xScalar f x st else { vResult e f none fun _ => (x, 0) with sticky := st }

def ckVred (e : Env) (f : VFmt) : Ck := ckX e f (scanOpts f 0 true) ++ ckDyn e f.round

def execVred (f : VFmt) (s : State) : Host.Outcome State Fault Refusal :=
  issue (.vred f) (fun c => ckVred c.env f) (fun c t => .ok (applyOut (.vred f) c (evalVred c.env f) t)) s

end Sys2Proof.Machine
end

