-- ==== Sys2Proof/Machine/Memory.lean ====
section
/-! DEFINITION. Loads, stores, tile moves and valid bits, format M (R132 to R144). -/

namespace Sys2Proof.Machine

/-! ## The checks of format M (R34, R133, R136) -/

/-- An address base (R133). -/
def ckBase (e : Env) (x : BitVec 9) (uni : Bool) (space : Nat) : Ck :=
  if space = 3 then (if uni then ckSn x 2 2 else ckVn e x 2 2) else (if uni then ckS1 e x else ckV1 e x)

/-- The fields that LD, ST and BVTST share. -/
def ckM (e : Env) (f : MFmt) : Ck :=
  ckPost f.post ++ ckGuard f.guard ++ ckBase e f.base (mUni f) f.space.toNat ++
  ([(5 ≤ f.space.toNat, 5), (5 ≤ f.size.toNat, 5), (f.obj != 0 && f.space != 4, 2)] : Ck)

/-- The block and scalar forms of LD and ST (R136). -/
def ckForm (f : MFmt) : Ck :=
  [(mBlock f && f.size != 2, 2), (mSca f && (!mUni f || f.guard != 0 || mBlock f), 2)]

/-- A register range or block of n registers that starts at an index. -/
def ckData (e : Env) (f : MFmt) (i : Nat) : Ck :=
  if mBlock f then
    [(255 < i + 16 * (extent f.height - 1) + (extent f.width - 1), 3), (e.nregs ≤ i + 16 * (extent f.height - 1) + (extent f.width - 1), 3)]
  else
    let n := sizeRegs f.size.toNat
    [(i % n != 0, 3), ((if mSca f then 64 else e.nregs) < i + n, 3)]

def ckLd (e : Env) (f : MFmt) : Ck :=
  ckM e f ++ ckForm f ++ ckData e f (dIdx f.data) ++
  ([(dNowb f.data, 2), (f.mode.getLsbD 0 && (mBlock f || 2 ≤ f.size.toNat), 2)] : Ck)

def ckSt (e : Env) (f : MFmt) : Ck :=
  ckM e f ++ ckForm f ++ ([(f.mode.getLsbD 0, 2)] : Ck) ++
  (if fLatch f.data then
     (if mBlock f || 3 ≤ f.size.toNat then ckNoLatch f.data else ckLatch e f.data (mSca f))
   else ckData e f (fIdx f.data))

def mAcc (f : MFmt) (need : Need) : Acc :=
  { space := f.space.toNat, obj := f.obj.toNat, n := mLane f, step := if mBlock f then 4 else mSize f,
    align := if mBlock f then 4 else mSize f, need := need }

def mAddrs (e : Env) (f : MFmt) : List (Nat × Nat) := (mLanes e f).map fun l => (l, mAddr e f l)

/-! ## LD (R137) -/

/-- Where a lane's bytes go: bytes 256·lane on of the operation. -/
def ldItems (e : Env) (f : MFmt) : List LoadItem :=
  let d := dIdx f.data
  (mLanes e f).flatMap fun l =>
    if mBlock f then
      (List.range (extent f.height)).flatMap fun i => (List.range (extent f.width)).map fun j =>
        { key := 256 * l + 4 * (extent f.width * i + j), n := 4, reg := e.phys (d + 16 * i + j), lane := l }
    else
      (List.range (sizeRegs f.size.toNat)).map fun k =>
        { key := 256 * l + 4 * k, n := min 4 (mSize f), sx := f.mode.getLsbD 0, scalar := mSca f,
          reg := if mSca f then d + k else e.phys (d + k), lane := l }

/-- Bytes put at their place among an operation's bytes. -/
def putBytes (m : FMap Byte) (key : Nat) (bs : List Byte) : FMap Byte :=
  (List.range bs.length).foldl (fun m i => fset 0 (key + i) (bs.getD i 0) m) m

/-- A warning for the unwritten words that a read found in warning mode (R212). -/
def State.warn (s : State) (c : Issuer) (l : List Spot) : State :=
  match s.unwritten l with
  | [] => s
  | w :: ws => s.scrivWarp c.ref.gid c.ref.wid c.ref.ent 0x0A (BitVec.ofNat 64 (ws.foldl min w))

/-- The places of a list of spots, in order of first use (R140). -/
def unitsIn (l : List Spot) : List UnitRef := l.foldl (fun a x => if a.contains x.unit then a else a ++ [x.unit]) []

/-- The pieces of a spot that must come from its place: those that the group's store buffer does not hold (R137). -/
def spotPieces (g : Group) (x : Spot) : List Piece :=
  let missing := (List.range x.n).filter fun i => (flook (x.key + i) g.sbuf).isNone
  if missing.length = x.n then [{ key := 256 * x.lane + x.off, addr := x.key, va := x.va, n := x.n }]
  else missing.map fun i => { key := 256 * x.lane + x.off + i, addr := x.key + i, va := x.va + i, n := 1 }

/-- The bytes of a spot that the group's store buffer holds. -/
def spotBuffered (g : Group) (x : Spot) (m : FMap Byte) : FMap Byte :=
  (List.range x.n).foldl (fun m i => match flook (x.key + i) g.sbuf with
    | some b => fset 0 (256 * x.lane + x.off + i) b.val m
    | none => m) m

/-- The sectors that some pieces lie in (R140). -/
def sectorsOf (ps : List Piece) : Nat :=
  (ps.foldl (fun a p => (List.range p.n).foldl (fun a i => sins (sectorOf (p.addr + i)) a) a) []).length

/-- A read of device memory: one request to each place, and the bytes that the group has buffered; view is the published copy that a load
in object space reads (R137, R140, R249). -/
def readMem (i : Instr) (c : Issuer) (view : Option (Nat × Nat × Nat)) (l : List Spot) (items : List LoadItem) (s : State) : State :=
  let g := (s.group? c.ref.gid).getD c.grp
  let reqs := (unitsIn l).filterMap fun u =>
    match (l.filter (·.unit = u)).flatMap (spotPieces g) with
    | [] => none
    | ps => some (u, ps)
  let pid := s.fresh
  let s1 := s.addPend c i
    { id := 0, kind := .load, ent := 0, lanes := 0, left := reqs.length, items := items, got := l.foldl (fun m x => spotBuffered g x m) [],
      view := view, due := if items = [] then s.cycle + 6 else 0 }
  reqs.foldl (fun s (u, ps) =>
    s.request u { gid := c.ref.gid, wid := c.ref.wid, pid := pid, pieces := ps, part := c.task.part, sectors := sectorsOf ps }) s1

/-- What the reads of a scratchpad found, for an operation's bytes. -/
def scratchGot (s : State) (g : Group) (l : List Spot) : FMap Byte × Option Nat :=
  l.foldl (fun a x =>
    let f := s.scratchBytes g x
    (putBytes a.1 (256 * x.lane + x.off) f.bytes, least a.2 f.bad)) ([], none)

def readScratch (i : Instr) (c : Issuer) (space : Nat) (l : List Spot) (items : List LoadItem) (s : State) : State :=
  let (got, bad) := scratchGot s ((s.group? c.ref.gid).getD c.grp) l
  (l.foldl (fun s x => s.correct x.key x.n) (s.warn c l)).addPend c i
    { id := 0, kind := .long, ent := 0, lanes := 0, due := s.cycle + delayOf space l, items := items, got := got,
      bad := bad.map (BitVec.ofNat 64), offs := true, reads := true }

/-- The published copy of an object that is not key-protected (R249). -/
def objView (e : List Byte) (obj : Nat) : Option (Nat × Nat × Nat) := if objKeyed e then none else some (obj, objPub e, objEnd e)

def ldEff (f : MFmt) (c : Issuer) (s : State) : Except TrapInfo State :=
  match s.access c (mAcc f .read) (mAddrs c.env f) with
  | .error t => .error t
  | .ok l =>
    .ok (if f.space.toNat < 3 then readScratch (.ld f) c f.space.toNat l (ldItems c.env f) s
         else readMem (.ld f) c (if f.space = 4 then objView (s.objEntry c.task.asid f.obj.toNat) f.obj.toNat else none) l
           (ldItems c.env f) s)

def execLd (f : MFmt) (s : State) : Host.Outcome State Fault Refusal := issue (.ld f) (fun c => ckLd c.env f) (ldEff f) s

/-! ## ST (R138) -/

/-- The bytes that a lane stores. -/
def stBytes (e : Env) (f : MFmt) (lane : Nat) : List Byte :=
  let word : Nat → Word := fun r => if mSca f then e.sca r else e.vec r lane
  if fLatch f.data then natBytes (mSize f) (e.latch (fIdx f.data % 8) lane).toNat
  else
    let b := fIdx f.data
    if mBlock f then
      (List.range (extent f.height)).flatMap fun i => (List.range (extent f.width)).flatMap fun j =>
        natBytes 4 (word (b + 16 * i + j)).toNat
    else ((List.range (sizeRegs f.size.toNat)).flatMap fun k => natBytes 4 (word (b + k)).toNat).take (mSize f)

/-- Bytes written for spots, in their order: into the store buffer, or in their bank (R138, R347). -/
def writeSpots (c : Issuer) (cnt : Nat) (data : Spot → List Byte) (l : List Spot) (s : State) : State :=
  let (buf, bank) := (l.filter fun x => buffered c.task x.key, l.filter fun x => !buffered c.task x.key)
  let s1 := if buf = [] then s else s.buffer c.ref.gid (some (c.ref.wid, c.warp.kinOf c.split.held)) (buf.flatMap fun x => sbBytes x (data x) (cnt % 256))
  bank.foldl (fun s x =>
    (s.exposeBy c.grp x.key).store c.grp.core x.key (data x) (s.stampFor c.ref.gid c.ref.wid cnt x.key)) s1

def stData (e : Env) (f : MFmt) (x : Spot) : List Byte := ((stBytes e f x.lane).drop x.off).take x.n

def stEff (f : MFmt) (c : Issuer) (s : State) : Except TrapInfo State :=
  match s.access c (mAcc f .write) (mAddrs c.env f) with
  | .error t => .error t
  | .ok l =>
    let s1 := writeSpots c (cntOf c.warp c.grp) (stData c.env f) l s
    .ok (s1.addPend c (.st f)
      { id := 0, kind := .store f.space.toNat, ent := 0, lanes := 0,
        due := s.cycle + (if mLanes c.env f = [] then 6 else if f.space.toNat < 3 then delayOf f.space.toNat l else 1) })

/-- A store that finds no room is a commit point of a redundant pair (R347). -/
def stPoint (f : MFmt) (c : Issuer) (s : State) : Bool :=
  match s.access c (mAcc f .write) (mAddrs c.env f) with
  | .ok l => c.grp.full ((l.filter fun x => buffered c.task x.key).flatMap fun x => atomsOf x.key x.n)
  | .error _ => false

def execSt (f : MFmt) (s : State) : Host.Outcome State Fault Refusal :=
  issueAt (.st f) (stPoint f) (fun c => ckSt c.env f) (stEff f) s

/-! ## TMOV (R142) -/

def ckTmov (e : Env) (f : MFmt) : Ck :=
  ckPost f.post ++ ckGuard f.guard ++ ckBase e f.data true f.mode.toNat ++ ckBase e f.base true f.space.toNat ++
  ([(f.offset = 0, 2), (4 ≤ f.mode.toNat, 2), (f.space = 4, 2), (5 ≤ f.space.toNat, 5), (5 ≤ f.size.toNat, 5),
    (f.obj != 0 || f.height != 0 || f.width != 0 || f.size != 0 || f.guard != 0, 2)] : Ck)

/-- A scalar address operand: a pair for mem. -/
def scaAddr (e : Env) (x : BitVec 9) (space : Nat) : Nat := if space = 3 then e.src64 x true 0 else (e.ssrc x).toNat

/-- A command for the core's copy engine (R126, R142, R177). -/
def State.addCmd (s : State) (core : Nat) (e : ECmd) : State := s.modCore core fun k => { k with engine := k.engine ++ [e] }
/-- A command as it goes on. -/
def State.setCmd (s : State) (core : Nat) (e : ECmd) : State :=
  s.modCore core fun k => { k with engine := k.engine.map fun x => if x.id = e.id then e else x }

/-- The commit that the split's operation makes where it is a commit point (R347): the state, and the commit's number. -/
def commitFor (c : Issuer) (mem : Bool) (s : State) : State × Nat :=
  if mem then (s.commit c.ref.gid (some (c.ref.wid, c.warp.kinOf c.split.held)), s.fresh) else (s, 0)

def tmovEff (f : MFmt) (c : Issuer) (s : State) : Except TrapInfo State :=
  let sp := f.space.toNat
  let dp := f.mode.toNat
  let len := f.offset.toNat * 16
  let src := scaAddr c.env f.base sp
  let dst := scaAddr c.env f.data dp
  if dst % 16 != 0 then .error (c.precise 0x0A dst)
  else if src % 16 != 0 then .error (c.precise 0x0A src)
  else if dp < 3 && (s.alloc c dp).2.1 < dst + len then .error (c.precise 0x09 dst)
  else if sp < 3 && (s.alloc c sp).2.1 < src + len then .error (c.precise 0x09 src)
  else
    let (s1, cid) := commitFor c (sp = 3) s
    let pid := s1.fresh
    let s2 := s1.addPend c (.tmov f) { id := 0, kind := .store dp, ent := 0, lanes := 0, left := 1 }
    .ok (s2.addCmd c.grp.core
      { id := pid, kind := .tmov, gid := c.ref.gid, wid := c.ref.wid, lanes := c.split.held, pid := pid, src := sp, dst := dp,
        srcA := src, dstA := dst, len := len, count := cntOf c.warp c.grp, warn := c.warp.fpctl.getLsbD 4, part := c.task.part,
        asid := c.task.asid, cid := cid })

def execTmov (f : MFmt) (s : State) : Host.Outcome State Fault Refusal := issue (.tmov f) (fun c => ckTmov c.env f) (tmovEff f) s

/-! ## Valid bits (R144) -/

/-- A nonzero space is reason 2 (log 105). -/
def ckBv (e : Env) (f : MFmt) : Ck :=
  ckPost f.post ++ ckGuard f.guard ++ ckS1 e f.base ++ ckS1 e f.data ++
  ([(f.space != 0, 2), (5 ≤ f.size.toNat, 5),
    (f.mode != 4 || f.obj != 0 || f.height != 0 || f.width != 0 || f.size != 0 || f.guard != 0, 2)] : Ck)

/-- The cycles that the valid-bit instructions take. -/
def bvDelay (c : Issuer) : Nat := longer c.warp.width 8

def bvEff (i : Instr) (f : MFmt) (v : Byte) (c : Issuer) (s : State) : Except TrapInfo State :=
  let a := mAddr c.env f 0
  let n := (c.env.ssrc f.data).toNat
  if a % 4 != 0 || n % 4 != 0 then .error (c.precise 0x0A a)
  else if n != 0 && c.grp.benchSize < a + n then .error (c.precise 0x09 a)
  else .ok ((s.setValid (benchKey c.grp.core (c.grp.benchBase + a)) n v).later c i (bvDelay c) [])

def execBvclr (f : MFmt) (s : State) : Host.Outcome State Fault Refusal :=
  issue (.bvclr f) (fun c => ckBv c.env f) (bvEff (.bvclr f) f 0) s

def execBvset (f : MFmt) (s : State) : Host.Outcome State Fault Refusal :=
  issue (.bvset f) (fun c => ckBv c.env f) (bvEff (.bvset f) f 1) s

def ckBvtst (e : Env) (f : MFmt) : Ck :=
  ckM e f ++
  ([(f.space != 0, 2), (mBlock f || f.obj != 0 || f.mode.toNat % 4 != 0, 2), (dNowb f.data, 2),
    (7 < dIdx f.data, 3)] : Ck)

def bvtstEff (f : MFmt) (c : Issuer) (s : State) : Except TrapInfo State :=
  let lanes := bitsSet (c.env.active f.guard)
  match s.allSpots c { mAcc f .read with atomic := true, need := .write } (lanes.map fun l => (l, mAddr c.env f l)) with
  | .error t => .error t
  | .ok l =>
    let ok := maskOf fun k => lanes.contains k && (s.unwritten (l.filter (·.lane = k))).isEmpty
    .ok (s.later c (.bvtst f) (if lanes = [] then 6 else bvDelay c) [.pred (dIdx f.data) (c.env.active f.guard) ok])

def execBvtst (f : MFmt) (s : State) : Host.Outcome State Fault Refusal :=
  issue (.bvtst f) (fun c => ckBvtst c.env f) (bvtstEff f) s

end Sys2Proof.Machine
end

