-- ==== Sys2Proof/Machine/Atomics.lean ====
section
/-! DEFINITION. The atomics, format A (R145 to R151), and their execution at their place (R148, R149, R246). -/

namespace Sys2Proof.Machine

/-! ## Values (R145, R150) -/

/-- The value that an operation stores, from the old value and the operands; none stores nothing. -/
def atomNew (op : AtomOp) (size old b c : Nat) : Option Nat :=
  let w := 8 * size
  let m := 2 ^ w
  match op with
  | .add => some ((old + b) % m)
  | .umin => some (min old (b % m))
  | .umax => some (max old (b % m))
  | .smin => some (if signedOf w old ≤ signedOf w b then old else b % m)
  | .smax => some (if signedOf w old ≤ signedOf w b then b % m else old)
  | .and => some (old &&& b % m)
  | .or => some (old ||| b % m)
  | .xor => some (old ^^^ b % m)
  | .exch | .st => some (b % m)
  | .cas => some (if old = c % m then b % m else old)
  | .fadd => some (combine 8 0 .rne old b).1
  | .fmin => some (combine 8 1 .rne old b).1
  | .fmax => some (combine 8 2 .rne old b).1
  | .ld => none

/-- The sizes of an operation, as codes (R145). -/
def atomSizes (op : AtomOp) : List Nat :=
  match op with
  | .fadd | .fmin | .fmax => [2]
  | _ => [2, 3]

/-! ## Execution at a place (R148, R149, R344) -/

/-- What the lanes of an atomic at one place have got so far. -/
structure AtomRun where
  st    : State
  seen  : List Nat := []
  got   : FMap Byte := []
  bad   : Option Nat := none
  dead  : Option Nat := none
  reads : List SyncEntry := []
  deriving DecidableEq, Repr

/-- One lane's operation. Only the lowest lane of a CAS compares (R149); a poisoned atom is left as it is and returns zero
(R344); bench words that are only read become valid too (R212). -/
def atomLane (g : Group) (stamp : Nat → Option Stamp) (a : AtomSpec) (r : AtomRun) (l : AtomLane) : AtomRun :=
  let f := r.st.found l.addr l.va a.size
  let old := bytesNat f.bytes
  let skip := f.bad.isSome || (a.op = .cas && r.seen.contains l.addr)
  let s1 := r.st.correct l.addr a.size
  let st := if skip then s1
    else match atomNew a.op a.size old l.b l.c with
      | some v => s1.store g.core l.addr (natBytes a.size v) (stamp l.addr)
      | none => if keyRegion l.addr = 4 then s1.setValid l.addr a.size 1 else s1
  { st := st, seen := l.addr :: r.seen, got := putBytes r.got (256 * l.lane) (natBytes a.size old), bad := least r.bad f.bad,
    dead := if a.rets then least r.dead f.dead else r.dead,
    reads := r.reads ++ (if a.op = .st then [] else r.st.stampEntry g l.addr) }

/-- The lanes of an atomic at one place, in increasing lane order, indivisibly (R148, R149). -/
def atomAt (s : State) (g : Group) (stamp : Nat → Option Stamp) (a : AtomSpec) : AtomRun :=
  a.lanes.foldl (atomLane g stamp a) { st := s }

/-- A dead read's record (R219). -/
def State.deadRecord (s : State) (gid wid ent : Nat) (a : Option Nat) : State :=
  match a with
  | some va => s.scrivWarp gid wid ent 0x0B (BitVec.ofNat 64 va)
  | none => s

/-- What a place has found reaches the operation that waits for it. -/
def State.arrive (s : State) (gid wid pid : Nat) (got : FMap Byte) (bad dead : Option Nat) : State :=
  let low : Option DWord → Option Nat → Option DWord := fun x y => (least (x.map (·.toNat)) y).map (BitVec.ofNat 64)
  let s1 := s.modPend gid wid pid fun q =>
    { q with got := got.foldl (fun m p => fset 0 p.1 p.2 m) q.got, left := q.left - 1, bad := low q.bad bad, dead := low q.dead dead }
  match (s.warp? gid wid).bind (·.pend? pid) with
  | some q => s1.deadRecord gid wid q.ent dead
  | none => s1

/-- The atoms that an atomic has read, kept for the next acquire fence after it in program order (R224, R226, R235). -/
def State.noteReads (s : State) (gid wid pid : Nat) (lanes : Mask) (es : List SyncEntry) : State :=
  s.modWarp gid wid fun w => { w with noted := w.noted ++ es.map fun e => ⟨pid, lanes, e⟩ }

/-- The acquire of an atomic, and the record of what it read (R226, R235). -/
def State.atomAcquire (s : State) (gid wid pid : Nat) (lanes : Mask) (acq : Bool) (es : List SyncEntry) : State :=
  let s1 := s.noteReads gid wid pid lanes es
  if acq then s1.acquire gid wid pid lanes es else s1

/-- A member's contribution to a reduction window: one operation and size for each address, in arrival order (R182, R247). -/
def Window.merge (w : Window) (op : AtomOp) (size addr value : Nat) : Window :=
  match w.merged.find? (·.1 = addr) with
  | none => { w with merged := w.merged ++ [(addr, op, size, value)] }
  | some (_, o, n, v) =>
    if o = op && n = size then
      { w with merged := w.merged.map fun (m : Nat × AtomOp × Nat × Nat) => if m.1 = addr then (addr, o, n, (atomNew op size v value 0).getD v) else m }
    else { w with clash := least w.clash (some addr) }

/-- What the lanes of an atomic that a peer has refused get: the spec states no value (log 123). -/
def freeLanes (s : State) (a : AtomSpec) : FMap Byte :=
  a.lanes.foldl (fun m l => putBytes m (256 * l.lane) (natBytes a.size (Config.freeValue (s.free + l.lane)).toNat)) []

/-- An atomic performed at its place for a group: the switches merge those of a reduction window, a peer may refuse it, every other place
executes them; the waiting operation gets the values, from a scratchpad after its latency (R148, R211, R246, R247, R323). -/
def State.performAtomic (s : State) (g : Group) (gid wid pid : Nat) (u : UnitRef) (a : AtomSpec) (stamp : Nat → Option Stamp) : State :=
  if u.kind = .switch then
    let s1 := { s with windows := s.windows.map fun (w : Window) =>
      if w.id = u.num then a.lanes.foldl (fun (w : Window) (l : AtomLane) => w.merge a.op a.size l.va l.b) w else w }
    s1.arrive gid wid pid [] none none
  else
    let lanes := (((s.warp? gid wid).bind (·.pend? pid)).map (·.lanes)).getD 0
    let part := ((s.taskOf g).map (·.part)).getD 0
    match peerRefusal u part (a.op != .ld) (a.lanes.map fun l => (l.addr, l.va)) with
    | some x => ({ s with free := s.free + 64 }.arrive gid wid pid (if a.rets then freeLanes s a else []) none none).peerError gid wid pid lanes part x
    | none =>
    let r := atomAt s g stamp a
    ((r.st.atomAcquire gid wid pid lanes a.acq r.reads).arrive gid wid pid (if a.rets then r.got else []) r.bad r.dead).modPend gid wid pid
      fun q => match q.hold with
        | some sp => { q with due := s.cycle + latencyOf sp + conflicts sp (a.lanes.map fun l => (l.va, a.size)) - 1 }
        | none => q

/-! ## Writes on their way, performed (R233, R243, R244) -/

/-- The bytes of a write as runs of consecutive addresses, with the latest of their counts (R233). -/
def runsOf : FMap SbByte → List (Nat × List Byte × Nat)
  | [] => []
  | (a, b) :: rest =>
    match runsOf rest with
    | (k, bs, c) :: more =>
      if a + 1 = k then (a, b.val :: bs, if (c + 256 - b.count % 256) % 256 ≤ 127 then c else b.count) :: more
      else (a, [b.val], b.count) :: (k, bs, c) :: more
    | [] => [(a, [b.val], b.count)]

/-- The bytes that a write touches. -/
def WbEntry.spans (e : WbEntry) : List (Nat × Nat) :=
  (runsOf e.bytes).map (fun r => (r.1, r.2.1.length)) ++ ((e.atom.map fun a => a.lanes.map fun l => (l.addr, a.size)).getD [])

/-- A group that has ended, for the writes that it has left. -/
def State.formerGroup (s : State) (die : Nat) (e : WbEntry) : Group :=
  (s.group? e.gid).getD { task := e.task, index := e.group, core := die * 96, crew := 0 }

/-- A write is performed at its place, unless a peer refuses it (R220, R233, R243, R323); what a held atomic found poisoned there is the trap of
the lanes that issued it (R304, R344). -/
def State.performWrite (s : State) (die : Nat) (e : WbEntry) : State :=
  let g := s.formerGroup die e
  match e.atom with
  | some a =>
    let stamp : Nat → Option Stamp := fun k =>
      if keyRegion k < 4 then some ⟨e.group % 65536, a.count % 256, e.task, 0⟩ else s.stampFor e.gid 0 a.count k
    match e.pid with
    | some p => s.performAtomic g e.gid p.1 p.2 e.u a stamp
    | none =>
      let s1 := s.performAtomic g e.gid 0 e.cid e.u a stamp
      match (if e.u.kind = .switch then none else (atomAt s g stamp a).bad) with
      | some va => s1.defer e.gid 0 e.cid (maskOf fun k => a.lanes.any (·.lane = k)) { cause := 0x18, tval := BitVec.ofNat 64 va } none
      | none => s1
  | none =>
    let part := ((flook e.task s.tasks).map (·.part)).getD 0
    match peerRefusal e.u part true (e.bytes.map fun b => (b.1, b.2.va)) with
    | some x =>
      let a := e.agent.getD (0, 0)
      s.peerError e.gid a.1 e.cid a.2 part x
    | none => (runsOf e.bytes).foldl (fun s r => s.store g.core r.1 r.2.1 (some ⟨e.group % 65536, r.2.2 % 256, e.task, 0⟩)) s

/-! ## The instructions (R146, R151) -/

def aRets (f : AFmt) : Bool := !dNowb f.dst
def aRel (f : AFmt) : Bool := 2 ≤ f.order.toNat
def aAcq (f : AFmt) : Bool := f.order = 1 || f.order = 3 || f.order = 4

/-- The fields of format A that have reserved values (R35). -/
def ckA (f : AFmt) : Ck :=
  ckPost f.post ++ ckGuard f.guard ++
  ([(5 ≤ f.space.toNat, 5), (f.scope = 7, 5), (5 ≤ f.order.toNat, 5), (5 ≤ f.size.toNat, 5), (f.rsv != 0, 2)] : Ck)

def ckAtom (e : Env) (op : AtomOp) (f : AFmt) : Ck :=
  let two := f.size = 3
  ckA f ++
  ([(!(atomSizes op).contains f.size.toNat && f.size.toNat < 5, 2), (f.ident != 0 && f.space != 4, 2),
    (f.space.toNat < 5 && widest f.space.toNat < f.scope.toNat && f.scope != 7, 2), (dNowb f.dst && dIdx f.dst != 0, 2),
    (op = .st && aRets f, 2), (op = .ld && !aRets f, 2), (op != .cas && f.opc != 0, 2), (op = .ld && f.opb != 0, 2)] : Ck) ++
  ckBase e f.addr false f.space.toNat ++
  (if op = .ld then [] else if two then ckVn e f.opb 2 2 else ckV1 e f.opb) ++
  (if op = .cas then (if two then ckVn e f.opc 2 2 else ckV1 e f.opc) else []) ++
  (if aRets f then (if two then ckVd e f.dst 2 2 else ckVd e f.dst 1 1) else [])

/-- The operand of a lane. -/
def aVal (e : Env) (f : AFmt) (x : BitVec 9) (lane : Nat) : Nat :=
  if f.size = 3 then e.src64 x false lane else (e.src x false lane).toNat

/-- The place of a piece: the switches for an address inside an open window (R147). -/
def atomUnit (s : State) (c : Issuer) (x : Spot) : UnitRef :=
  match (if keyRegion x.key < 4 then s.windowAt c.task.asid x.va else none) with
  | some w => ⟨.switch, w.id⟩
  | none => x.unit

/-- The parts of an atomic, one for each place, lanes in increasing order. -/
def atomParts (s : State) (c : Issuer) (op : AtomOp) (f : AFmt) (count : Nat) (l : List Spot) : List (UnitRef × AtomSpec) :=
  let l := l.map fun x => { x with unit := atomUnit s c x }
  (unitsIn l).map fun u =>
    (u, { op := op, size := aBytes f, rets := aRets f, acq := aAcq f, rel := aRel f, count := count,
          lanes := (l.filter (·.unit = u)).map fun x =>
            { lane := x.lane, addr := x.key, va := x.va, b := if op = .ld then 0 else aVal c.env f f.opb x.lane,
              c := if op = .cas then aVal c.env f f.opc x.lane else 0 } })

/-- The registers that a returning atomic writes. A lane that an object's image does not hold makes no access; the manual states no
value for it, so it is a free value (log 22). -/
def atomItems (e : Env) (f : AFmt) : List LoadItem :=
  if aRets f then
    (bitsSet (e.active f.guard)).flatMap fun l => (List.range (sizeRegs f.size.toNat)).map fun k =>
      { key := 256 * l + 4 * k, n := 4, reg := e.phys (dIdx f.dst + k), lane := l }
  else []
def atomFree (s : State) (e : Env) (f : AFmt) (l : List Spot) : FMap Byte :=
  if aRets f then
    ((bitsSet (e.active f.guard)).filter fun k => !l.any (·.lane = k)).foldl
      (fun m k => putBytes m (256 * k) (natBytes 8 (Config.freeValue (s.free + k)).toNat)) []
  else []

/-- The atomic of some lanes is requested of its places, to be performed after a commit (R147, R151). -/
def queueAtomic (c : Issuer) (pid : Nat) (after : Option Nat) (parts : List (UnitRef × AtomSpec)) (s : State) : State :=
  parts.foldl (fun s p =>
    s.request p.1 { gid := c.ref.gid, wid := c.ref.wid, pid := pid, atom := some p.2, after := after, part := c.task.part }) s

/-- The lanes whose operations a place has to perform: of a CAS the lowest at each address, since it alone compares (R149). -/
def effective (a : AtomSpec) : List AtomLane :=
  if a.op = .cas then a.lanes.filter fun l => (a.lanes.find? (·.addr = l.addr)).map (·.lane) = some l.lane else a.lanes

/-- The group's buffered stores to some bytes go ahead of an operation of the split (R225). -/
def State.drainFirst (s : State) (c : Issuer) (cid : Nat) (meet : Nat × SbByte → Bool) : State :=
  let s1 := if ((s.group? c.ref.gid).getD c.grp).sbuf.any meet then s.expose c.grp else s
  s1.modGroup c.ref.gid fun g =>
    { g with sbuf := g.sbuf.filter fun b => !meet b,
             draining := g.draining ++ drainEntries g c.ref.gid cid (some (c.ref.wid, c.warp.kinOf c.split.held)) (g.sbuf.filter meet) }

/-- The atomic enters the die's write buffer, behind the group's buffered stores to the same bytes (R225, R244). -/
def drainAtomic (c : Issuer) (pid : Nat) (parts : List (UnitRef × AtomSpec)) (s : State) : State :=
  match s.group? c.ref.gid with
  | none => s
  | some g =>
    let entries := parts.flatMap fun p => (effective p.2).map fun l =>
      ({ u := p.1, bank := l.addr / 64 % 16, bytes := [], atom := some { p.2 with lanes := [l] }, gid := c.ref.gid,
         pid := some (c.ref.wid, pid), cid := pid, task := g.task, group := g.index } : WbEntry)
    ((s.expose g).drainFirst c pid fun b => parts.any fun p => p.2.lanes.any fun l => b.1 / 32 = l.addr / 32).modGroup c.ref.gid fun g =>
      { g with draining := g.draining ++ entries }

/-- The effect of an atomic (R146 to R151): in the bank, in the store buffer until retirement or the pair's next commit, through
the write buffer, or queued at its places. -/
def atomEff (i : Instr) (op : AtomOp) (f : AFmt) (c : Issuer) (s : State) : Except TrapInfo State :=
  if c.task.determ && 1 < f.scope.toNat && (aRets f || f.space = 2) then .error (c.precise 0x0D 0)
  else if c.env.active f.guard = 0 then .ok (s.later c i 6 [])
  else
    let acc : Acc := { space := f.space.toNat, obj := f.ident.toNat, n := aBytes f, step := aBytes f, align := aBytes f, need := .both,
                       atomic := true, op := some (op, aRets f) }
    match s.access c acc ((bitsSet (c.env.active f.guard)).map fun l => (l, aAddr c.env f l)) with
    | .error t => .error t
    | .ok l =>
      let s1 := if op = .ld then s else releaseBy c (if aRel f then some f.scope.toNat else none) s
      let cnt := cntOf ((s1.warp? c.ref.gid c.ref.wid).getD c.warp) ((s1.group? c.ref.gid).getD c.grp)
      let parts := atomParts s1 c op f cnt l
      let wide := wideRelease f.order f.scope
      let mem := 3 ≤ f.space.toNat
      let items := atomItems c.env f
      let q : Pend := { id := 0, kind := .atomic (aRets f), ent := 0, lanes := 0, items := items, got := atomFree s c.env f l,
                        acq := aAcq f }
      let s2 := { s1 with free := s1.free + 64 }
      if mem && !aRets f && c.task.determ then
        if c.grp.full [2 ^ 80] then .error (c.precise 0x0D 0)
        else .ok ((s2.modGroup c.ref.gid fun g => { g with held := g.held ++ [.atomic parts] }).later c i 1 [])
      else if c.task.redundant && 2 ≤ f.space.toNat && !aRets f && !wide then
        .ok ((s2.modGroup c.ref.gid fun g => { g with held := g.held ++ [.atomic parts] }).later c i 1 [])
      else if mem && !aRets f && !wide then
        let pid := s2.fresh
        let n := parts.foldl (fun a p => a + (effective p.2).length) 0
        .ok (drainAtomic c pid parts (s2.addPend c i { q with left := n }))
      else
        let (s3, cid) := commitFor c (wide || (mem && aRets f)) s2
        let q := { q with cover := if wide then some cid else none }
        let ready := !wide && (!aRel f || c.warp.earlierDone c.split.held s.fresh)
        if !mem && ready then
          let stamp : Nat → Option Stamp := fun k => s3.stampFor c.ref.gid c.ref.wid cnt k
          let r := parts.foldl (fun (r : AtomRun) p =>
            let t := atomAt r.st c.grp stamp p.2
            { t with got := t.got.foldl (fun m p => fset 0 p.1 p.2 m) r.got, bad := least r.bad t.bad, reads := r.reads ++ t.reads })
            { st := if f.space = 0 || op = .ld then s3 else s3.expose c.grp }
          .ok ((r.st.atomAcquire c.ref.gid c.ref.wid r.st.fresh c.split.held (aAcq f) r.reads).addPend c i
            { q with kind := .long, due := s.cycle + delayOf f.space.toNat l, got := r.got, bad := r.bad.map (BitVec.ofNat 64), offs := true,
                     reads := aRets f })
        else
          let pid := s3.fresh
          let s4 := s3.addPend c i { q with left := parts.length, hold := if mem then none else some f.space.toNat }
          .ok (queueAtomic c pid (if wide || mem then some cid else none) parts (if op = .ld || f.space = 0 then s4 else s4.expose c.grp))

/-- In a redundant pair an atomic whose bytes the group has buffered is a commit point too, and one to be held that finds no room (R347;
log 23). -/
def atomPoint (i : Instr) (f : AFmt) (c : Issuer) (s : State) : Bool :=
  commitPoint i || (2 ≤ f.space.toNat && !aRets f && !(c.task.determ && f.space != 2) && c.grp.full [2 ^ 80]) ||
  (2 ≤ f.space.toNat &&
    (match s.allSpots c { space := f.space.toNat, obj := f.ident.toNat, n := aBytes f, step := aBytes f, align := 1, need := .both, atomic := true }
        ((bitsSet (c.env.active f.guard)).map fun l => (l, aAddr c.env f l)) with
      | .ok l => l.any fun x => c.grp.sbuf.any fun b => overlaps x.key x.n b.1 1
      | .error _ => false))

def runAtomic (i : Instr) (op : AtomOp) (f : AFmt) (s : State) : Host.Outcome State Fault Refusal :=
  issueAt i (atomPoint i f) (fun c => ckAtom c.env op f) (atomEff i op f) s

def execAtomAdd (f : AFmt) (s : State) := runAtomic (.atomAdd f) .add f s
def execAtomUmin (f : AFmt) (s : State) := runAtomic (.atomUmin f) .umin f s
def execAtomUmax (f : AFmt) (s : State) := runAtomic (.atomUmax f) .umax f s
def execAtomSmin (f : AFmt) (s : State) := runAtomic (.atomSmin f) .smin f s
def execAtomSmax (f : AFmt) (s : State) := runAtomic (.atomSmax f) .smax f s
def execAtomAnd (f : AFmt) (s : State) := runAtomic (.atomAnd f) .and f s
def execAtomOr (f : AFmt) (s : State) := runAtomic (.atomOr f) .or f s
def execAtomXor (f : AFmt) (s : State) := runAtomic (.atomXor f) .xor f s
def execAtomExch (f : AFmt) (s : State) := runAtomic (.atomExch f) .exch f s
def execAtomCas (f : AFmt) (s : State) := runAtomic (.atomCas f) .cas f s
def execAtomFadd (f : AFmt) (s : State) := runAtomic (.atomFadd f) .fadd f s
def execAtomFmin (f : AFmt) (s : State) := runAtomic (.atomFmin f) .fmin f s
def execAtomFmax (f : AFmt) (s : State) := runAtomic (.atomFmax f) .fmax f s
def execAtomLd (f : AFmt) (s : State) := runAtomic (.atomLd f) .ld f s
def execAtomSt (f : AFmt) (s : State) := runAtomic (.atomSt f) .st f s

end Sys2Proof.Machine
end

