-- ==== Sys2Proof/Machine/Sync.lean ====
section
/-! DEFINITION. Fences, barriers, phase barrier words, wait and wake, and queues, format A (R152 to R164). -/

namespace Sys2Proof.Machine

/-! ## Fields (R153) -/

/-- The fields that a synchronisation instruction does not use; keep says which of opb, size, ident, scope and order it uses. -/
def ckSync (f : AFmt) (addr opb size ident scope post : Bool) : Ck :=
  ckA f ++
  ([(f.guard != 0, 2), (f.opc != 0, 2), (!addr && f.addr != 0, 2), (!opb && f.opb != 0, 2), (!size && f.size != 0, 2),
    (!ident && f.ident != 0, 2), (!scope && (f.scope != 0 || f.order != 0), 2), (post && f.post = 15, 2)] : Ck)

/-- An instruction without a destination. -/
def ckNoDst (f : AFmt) : Ck := [(f.dst != 0, 2)]

/-- A pend whose instruction has acted: its writes and the cycle in which they land. -/
def State.answer (s : State) (gid wid pid due : Nat) (writes : List RegWrite) : State :=
  s.modPend gid wid pid fun q => { q with kind := .long, due := due, writes := writes, hold := none }

/-! ## FENCE (R154) -/

def ckFence (f : AFmt) : Ck :=
  ckSync f false false false false true false ++ ckNoDst f ++ ([(f.space != 0, 2), (f.order = 0, 2)] : Ck)

def fenceEff (f : AFmt) (c : Issuer) (s : State) : Except TrapInfo State :=
  let rel := 2 ≤ f.order.toNat
  let (s1, cid) := commitFor c (wideRelease f.order f.scope) s
  let s2 := if rel then s1.modSplit c.ref fun x => { x with fenceRel := some (max (x.fenceRel.getD 0) f.scope.toNat) } else s1
  .ok (s2.addPend c (.fence f)
    { id := 0, kind := .fence f.order.toNat f.scope.toNat (if wideRelease f.order f.scope then cid + 1 else 0), ent := 0, lanes := 0,
      cover := if wideRelease f.order f.scope then some cid else none })

def execFence (f : AFmt) (s : State) : Host.Outcome State Fault Refusal := issue (.fence f) (fun _ => ckFence f) (fenceEff f) s

/-- A fence may complete (R154): its earlier loads and returning atomics, and its earlier stores, atomics and TMOVs, are
performed, and its commit too. commit is 0 for none, else one more than the commit's number. -/
def fenceDone (s : State) (gid : Nat) (w : Warp) (q : Pend) (order commit : Nat) : Bool :=
  let earlier : (Pend → Bool) → Bool := fun p => w.pend.any fun x => x.id < q.id && x.lanes &&& q.kin != 0 && p x
  !((order = 1 || 3 ≤ order) && earlier fun x => x.kind = .load || x.kind = .atomic true || x.reads) &&
  !(2 ≤ order && earlier fun x => match x.kind with
    | .store _ | .atomic _ => true
    | _ => false) &&
  (commit = 0 || s.released gid (commit - 1))

/-- The completion of a fence that acquires: the entries of what the atomics before it in program order have read since the acquire
fence before it (R224, R235). -/
def fenceAcquire (s : State) (gid wid : Nat) (w : Warp) (q : Pend) : State :=
  let es := w.noted.filterMap fun n => if n.id < q.id && n.lanes &&& q.kin != 0 then some n.entry else none
  (s.modWarp gid wid fun w =>
    { w with noted := (w.noted.map fun n => if n.id < q.id then { n with lanes := n.lanes &&& ~~~q.kin } else n).filter (·.lanes != 0) }).acquire
      gid wid q.id q.lanes es

/-! ## Barriers (R155, R156) -/

def ckBar (e : Env) (barCount : Nat) (f : AFmt) (post : Bool) : Ck :=
  ckSync f false (f.size = 1) true true true post ++ ckNoDst f ++
  (if f.size = 1 then ckS1 e f.opb else []) ++
  ([(f.space != 0, 2), (f.scope != 1 && f.scope != 2, 2), (2 ≤ f.size.toNat, 2),
    (f.scope = 1 && barCount ≤ f.ident.toNat, 3), (63 < f.ident.toNat, 3), (f.scope = 2 && 7 < f.ident.toNat, 3)] : Ck)

/-- The lanes of a warp's splits (R156). -/
def Warp.liveLanes (w : Warp) : Mask := w.splits.foldl (fun m p => m ||| p.2.held) 0

/-- The lanes of a warp that have issued an arrival on a barrier. -/
def Barrier.lanesOf (b : Barrier) (gid wid : Nat) : Mask :=
  b.splits.foldl (fun m a => if a.gid = gid && a.wid = wid then m ||| a.lanes else m) 0

/-- Every split of a warp has issued an arrival (R156). -/
def warpThere (b : Barrier) (gid : Nat) (p : Nat × Warp) : Bool :=
  let m := b.lanesOf gid p.1
  m != 0 && p.2.liveLanes &&& ~~~ m = 0

/-- The unretired warps of a group. -/
def State.liveWarps (s : State) (gid : Nat) : List (Nat × Warp) := (s.warpsOf gid).filter fun p => !p.2.retired

/-- The members of a barrier that have newly arrived: warps of the group, or groups of the crew (R155, R156). -/
def State.newArrivals (s : State) (crew : Bool) (uid : Nat) (b : Barrier) : List Arrival :=
  if crew then
    match flook uid s.crews with
    | none => []
    | some k => k.groups.filterMap fun gid =>
      match s.group? gid with
      | some g =>
        let ws := s.liveWarps gid
        if !b.arrived.any (·.gid = gid) && ws.any (fun p => b.lanesOf gid p.1 != 0) &&
            ws.all (fun p => p.2.liveLanes &&& ~~~ b.lanesOf gid p.1 = 0)
        then some ⟨gid, 0, 0, g.relCount⟩ else none
      | none => none
  else
    (s.liveWarps uid).filterMap fun p =>
      if !b.arrived.any (·.wid = p.1) && warpThere b uid p then some ⟨uid, p.1, 0, p.2.relCount⟩ else none

def State.barrier (s : State) (crew : Bool) (uid bar : Nat) : Barrier :=
  if crew then (((flook uid s.crews).bind fun k => flook bar k.bars)).getD {}
  else (((s.group? uid).bind fun g => flook bar g.bars)).getD {}
def State.setBarrier (s : State) (crew : Bool) (uid bar : Nat) (b : Barrier) : State :=
  if crew then s.modCrew uid fun k => { k with bars := fput bar b k.bars }
  else s.modGroup uid fun g => { g with bars := fput bar b g.bars }

/-- A barrier takes note of the members that have arrived. -/
def State.settle (s : State) (crew : Bool) (uid bar : Nat) : State :=
  let b := s.barrier crew uid bar
  match s.newArrivals crew uid b with
  | [] => s
  | l => s.setBarrier crew uid bar { b with arrived := b.arrived ++ l }

/-- Every barrier of a group and of its crew, when a split of the group has parked or exited. -/
def State.settleAll (s : State) (gid : Nat) : State :=
  match s.group? gid with
  | none => s
  | some g =>
    let s1 := g.bars.foldl (fun s p => s.settle false gid p.1) s
    (((flook g.crew s.crews).map (·.bars)).getD []).foldl (fun s p => s.settle true g.crew p.1) s1

/-- An arrival of a split: a release at the barrier's scope; the phase's first arrival gives the count (R155). -/
def arrive (c : Issuer) (f : AFmt) (s : State) : State :=
  let crew := f.scope = 2
  let uid := if crew then c.grp.crew else c.ref.gid
  let s1 := releaseBy c (some f.scope.toNat) s
  let b := s1.barrier crew uid f.ident.toNat
  let count := if f.size = 1 then (c.env.ssrc f.opb).toNat else 0
  let b1 := { b with govern := some (b.govern.getD count), splits := b.splits ++ [⟨c.ref.gid, c.ref.wid, c.split.held, 0⟩] }
  ((if crew then s1 else s1.noteArrival c (false, f.ident.toNat, b.phase)).setBarrier crew uid f.ident.toNat b1).settle crew uid f.ident.toNat

def barsyncEff (f : AFmt) (c : Issuer) (s : State) : Except TrapInfo State :=
  .ok ((arrive c f s).addPend c (.barsync f) { id := 0, kind := .barrier (f.scope = 2) f.ident.toNat, ent := 0, lanes := 0 })

def execBarsync (f : AFmt) (s : State) : Host.Outcome State Fault Refusal :=
  issue (.barsync f) (fun c => ckBar c.env c.grp.barCount f true) (barsyncEff f) s

def execBararv (f : AFmt) (s : State) : Host.Outcome State Fault Refusal :=
  issue (.bararv f) (fun c => ckBar c.env c.grp.barCount f false) (fun c t => .ok ((arrive c f t).later c (.bararv f) 1 [])) s

/-! ## Phase barrier words (R157, R158) -/

/-- The word after an update: the reserved bits are zero, and it flips when pending and bytes are zero (R158). -/
def pbSettle (w : Nat) : Nat :=
  let v := bitsOf w 63 63 * 2 ^ 63 + w % 2 ^ 48
  if bitsOf v 39 32 = 0 && v % 2 ^ 32 = 0 then
    (1 - bitsOf v 63 63) * 2 ^ 63 + bitsOf v 47 40 * 2 ^ 40 + bitsOf v 47 40 * 2 ^ 32
  else v

/-- bytes := bytes + n, mod 2^32. -/
def pbAdd (w n : Nat) : Nat := w / 2 ^ 32 * 2 ^ 32 + (w % 2 ^ 32 + n) % 2 ^ 32
/-- pending := pending − 1; a pending of zero stays zero. -/
def pbArrive (w : Nat) : Nat := if bitsOf w 39 32 = 0 then w else w - 2 ^ 32

/-- The word updated at the bench bank, with who arrived or counted bytes in its phase (R158, R235). -/
def State.pbUpdate (s : State) (gid wid cnt key : Nat) (f : Nat → Nat) (arrival : Option SyncEntry) : State :=
  match s.group? gid with
  | none => s
  | some g =>
    let old := rdNat s.mem key 8
    let new := pbSettle (f old)
    let who := (flook key g.pbOpen).getD [] ++ (match arrival with
      | some e => [e]
      | none => [])
    let flipped := bitsOf old 63 63 != bitsOf new 63 63
    let s1 := s.modGroup gid fun g =>
      if flipped then { g with pbDone := fput key who g.pbDone, pbOpen := fdel key g.pbOpen } else { g with pbOpen := fput key who g.pbOpen }
    s1.store g.core key (natBytes 8 new) (s1.stampFor gid wid cnt key)

def ckPb (e : Env) (f : AFmt) (post : Bool) : Ck :=
  ckSync f true true false false false post ++ ckS1 e f.addr ++ ckS1 e f.opb ++
  ([(f.space != 0 && f.space.toNat < 5, 2)] : Ck)

/-- The key of the word, or the trap of its address (R139, R157). -/
def pbKey (c : Issuer) (f : AFmt) : Except TrapInfo Nat :=
  let a := (c.env.ssrc f.addr).toNat
  if a % 8 != 0 then .error (c.precise 0x0A a)
  else if c.grp.benchSize < a + 8 then .error (c.precise 0x09 a)
  else .ok (benchKey c.grp.core (c.grp.benchBase + a))

def pbinitEff (f : AFmt) (c : Issuer) (s : State) : Except TrapInfo State :=
  match pbKey c f with
  | .error t => .error t
  | .ok key =>
    let n := max 1 ((c.env.ssrc f.opb).toNat % 256)
    let s1 := s.modGroup c.ref.gid fun g => { g with pbOpen := fdel key g.pbOpen, pbDone := fdel key g.pbDone }
    .ok ((s1.pbUpdate c.ref.gid c.ref.wid (cntOf c.warp c.grp) key (fun _ => n * 2 ^ 40 + n * 2 ^ 32) none).later c (.pbinit f) 8 [])

def execPbinit (f : AFmt) (s : State) : Host.Outcome State Fault Refusal :=
  issue (.pbinit f) (fun c => ckPb c.env f false ++ ckNoDst f) (pbinitEff f) s

/-- The phase goes to a register: of a poisoned word it is zero, and the word is consumed (R158, R344; log 148). -/
def pbarvEff (f : AFmt) (c : Issuer) (s : State) : Except TrapInfo State :=
  match pbKey c f with
  | .error t => .error t
  | .ok key =>
    let s1 := releaseBy c (some 1) (s.correct key 8)
    let w := (s1.warp? c.ref.gid c.ref.wid).getD c.warp
    let f0 := s1.found key (c.env.ssrc f.addr).toNat 8
    let old := bytesNat f0.bytes
    let s2 := (s1.noteArrival c (true, key, bitsOf old 63 63)).pbUpdate c.ref.gid c.ref.wid (cntOf w ((s1.group? c.ref.gid).getD c.grp)) key
      (fun v => pbAdd (pbArrive v) (c.env.ssrc f.opb).toNat) (some ⟨true, c.ref.wid, w.relCount⟩)
    .ok ((s2.later c (.pbarv f) 8 [.sca (dIdx f.dst) (BitVec.ofNat 32 (bitsOf old 63 63))]).modPend c.ref.gid c.ref.wid s2.fresh fun q =>
      { q with bad := f0.bad.map (BitVec.ofNat 64), offs := true })

def execPbarv (f : AFmt) (s : State) : Host.Outcome State Fault Refusal :=
  issue (.pbarv f) (fun c => ckPb c.env f true ++ ckWb f.dst ++ ckSd f.dst 1 1) (pbarvEff f) s

def pbtxEff (f : AFmt) (c : Issuer) (s : State) : Except TrapInfo State :=
  match pbKey c f with
  | .error t => .error t
  | .ok key =>
    .ok (((s.correct key 8).pbUpdate c.ref.gid c.ref.wid (cntOf c.warp c.grp) key (fun v => pbAdd v (c.env.ssrc f.opb).toNat) none).later c (.pbtx f) 8 [])

def execPbtx (f : AFmt) (s : State) : Host.Outcome State Fault Refusal :=
  issue (.pbtx f) (fun c => ckPb c.env f false ++ ckNoDst f) (pbtxEff f) s

/-- PBWAIT completes at once where the phase already differs (R158); the words that it reads become valid (R212). -/
def pbwaitEff (f : AFmt) (c : Issuer) (s : State) : Except TrapInfo State :=
  match pbKey c f with
  | .error t => .error t
  | .ok key =>
    let par := (c.env.ssrc f.opb).getLsbD 0
    let s1 := (s.correct key 8).setValid key 8 1
    if bitOf (rdNat s.mem key 8) 63 != par then
      .ok (((s1.notePass c.ref.gid c.ref.wid c.split.held (true, key, par.toNat)).acquire c.ref.gid c.ref.wid s.fresh c.split.held ((flook key c.grp.pbDone).getD [])).later c (.pbwait f) 0 [])
    else .ok (s1.addPend c (.pbwait f) { id := 0, kind := .pbwait key par, ent := 0, lanes := 0 })

def execPbwait (f : AFmt) (s : State) : Host.Outcome State Fault Refusal :=
  issue (.pbwait f) (fun c => ckPb c.env f true ++ ckNoDst f) (pbwaitEff f) s

/-! ## Wait, wake and queues (R160 to R164) -/

/-- The capacity of a waiter list (R161). -/
def waiterCap (u : UnitRef) : Nat :=
  match u.kind with
  | .shop => 256 | .yard => 1024 | _ => 64
/-- The waiter list of an address at a place: a peer device has one at each of its pseudo-channels (R161). -/
def waiterList (u : UnitRef) (addr : Nat) : Nat := if u.kind = .peer then hbmChannel (addr % 2 ^ 52) false else 0
/-- The list of an address has no room for one more. -/
def waitersFull (u : UnitRef) (addr : Nat) (l : List Waiter) : Bool :=
  waiterCap u ≤ (l.filter fun w => waiterList u w.addr = waiterList u addr).length

/-- A waiter completes with its registers; an acquire of the entries that its own group takes (R160, R163, R235). -/
def State.wakeOne (s : State) (w : Waiter) (value status : Nat) (es : Group → List SyncEntry) : State :=
  let lanes := (((s.warp? w.gid w.wid).bind (·.pend? w.pid)).map (·.lanes)).getD 0
  let writes : List RegWrite :=
    if w.queue then [.sca w.reg (BitVec.ofNat 32 value), .sca (w.reg + 1) (BitVec.ofNat 32 status)]
    else [.sca w.reg (BitVec.ofNat 32 status)]
  (s.answer w.gid w.wid w.pid s.cycle writes).acquire w.gid w.wid w.pid lanes (((s.group? w.gid).map es).getD [])

/-- The reserved field and the capacity of a queue's header are sound (R162). -/
def headerOk (h : List Byte) : Bool :=
  let cap := fieldNat h 8 4
  fieldNat h 12 4 = 0 && 1 ≤ cap && cap ≤ 2 ^ 24 && 2 ^ Nat.log2 cap = cap

/-- A split's waiting or queue instruction performed at its place (R160, R163); entry gives the key of a ring's word, or why it cannot be
reached, and due when what touches some bytes from va on completes. The outcome is the state, or the trap's cause and address. Errors in the
word, the header or the entry that it reads are corrected, and a poisoned word or value is consumed at the completion (R344; log 148). -/
def syncAt (gid wid pid : Nat) (due : List (Nat × Nat) → Nat) (u : UnitRef) (y : SyncReq) (entry : Nat → Except Nat Nat) (s : State) : Except (Nat × Nat) State :=
  match s.group? gid, (s.warp? gid wid).bind (·.pend? pid) with
  | some g, some q =>
    let p := s.place u
    let doneAt : List (Nat × Nat) → State → List Nat → State := fun l s vals =>
      s.answer gid wid pid (due l) ((List.range vals.length).map fun i => .sca (y.reg + i) (BitVec.ofNat 32 (vals.getD i 0)))
    let done := doneAt [(y.va, 16)]
    let join : State → Bool → State := fun s queue =>
      s.modPlace u fun p => { p with waiters := p.waiters ++ [{ addr := y.addr, gid := gid, wid := wid, pid := pid, reg := y.reg, queue := queue }] }
    let st : Nat → Option Stamp := fun k => s.stampFor gid wid y.count k
    let read := s.stampEntry g y.addr
    let blame : Option Nat → State → State := fun bad s => match bad with
      | some a => s.modPend gid wid pid fun q => { q with bad := some (BitVec.ofNat 64 a), offs := decide (4 ≤ keyRegion y.addr) }
      | none => s
    let hdr := (s.found y.addr y.va 16).bytes
    let cap := fieldNat hdr 8 4
    let tail := fieldNat hdr 4 4
    let head := fieldNat hdr 0 4
    let count := (tail + 2 ^ 32 - head) % 2 ^ 32
    match y.op with
    | .waitq size val =>
      let f := s.found y.addr y.va size
      let s1 := blame f.bad (s.correct y.addr size)
      if bytesNat f.bytes != val then .ok ((done s1 [1]).acquire gid wid pid q.lanes read)
      else if waitersFull u y.addr p.waiters then .ok (done s1 [2])
      else .ok (join s1 false)
    | .wake n =>
      let mine := p.waiters.filter fun w => w.addr = y.addr && !w.queue
      let out := if n = 0 then mine else mine.take n
      let s1 := s.modPlace u fun p => { p with waiters := p.waiters.filter fun w => !out.contains w }
      .ok (done (out.foldl (fun s w => s.wakeOne w 0 0 fun h => s.stampEntry h y.addr) s1) [out.length])
    | .qpush val =>
      if !headerOk hdr then .error (0x13, y.va)
      else match p.waiters.find? fun w => w.addr = y.addr && w.queue with
        | some w =>
          let s1 := (s.correct y.addr 16).modPlace u fun p => { p with waiters := p.waiters.filter (· != w) }
          .ok (done (s1.wakeOne w val 1 fun h => if h.task = g.task then [⟨false, g.index % 65536, y.count % 256⟩] else []) [1])
        | none =>
          if cap ≤ count then .ok (done (s.correct y.addr 16) [2])
          else match entry (16 + 4 * (tail % cap)) with
            | .error e => .error (e, y.va + 16 + 4 * (tail % cap))
            | .ok k =>
              .ok (doneAt [(y.va, 16), (y.va + 16 + 4 * (tail % cap), 4)] (((s.correct y.addr 16).store g.core k (natBytes 4 val) (st k)).store g.core (y.addr + 4) (natBytes 4 ((tail + 1) % 2 ^ 32)) (st y.addr)) [0])
    | .qpop | .qpopw =>
      if !headerOk hdr then .error (0x13, y.va)
      else if count = 0 then
        (let s1 := s.correct y.addr 16
         if y.op = .qpop then .ok ((done s1 [0, 1]).acquire gid wid pid q.lanes [])
         else if waitersFull u y.addr p.waiters then .ok (done s1 [0, 2])
         else .ok (join s1 true))
      else match entry (16 + 4 * (head % cap)) with
        | .error e => .error (e, y.va + 16 + 4 * (head % cap))
        | .ok k =>
          let f := s.found k (y.va + 16 + 4 * (head % cap)) 4
          let v := bytesNat f.bytes
          let s1 := blame f.bad ((s.correct y.addr 16).correct k 4)
          .ok ((doneAt [(y.va, 16), (y.va + 16 + 4 * (head % cap), 4)] (s1.store g.core y.addr (natBytes 4 ((head + 1) % 2 ^ 32)) (st y.addr)) [v, 0]).acquire gid wid pid q.lanes read)
  | _, _ => .ok s

/-- The fields of the waiting and queue instructions; pair says that opb may be a pair (R153, R160, R163). -/
def ckWait (e : Env) (f : AFmt) (opb size : Bool) (regs : Nat) : Ck :=
  ckSync f true opb size false false true ++ ckBase e f.addr true f.space.toNat ++
  (if opb then (if size && f.size = 3 then ckSn f.opb 2 2 else ckS1 e f.opb) else []) ++ ckWb f.dst ++ ckSd f.dst regs regs ++
  ([(f.space = 0 || f.space = 4, 2), (size && f.size != 2 && f.size != 3, 2)] : Ck)

/-- A ring's word in a scratchpad: within the allocation. -/
def ringKey (key room : Nat) (off : Nat) : Except Nat Nat := if off + 4 ≤ room then .ok (key + off) else .error 0x09

/-- The commit that an instruction at mem makes; one that makes none, WAITQ and the pops, has its group's buffered stores to the bytes that it
may read go ahead of it: the word, or the header and the ring (R160, R163, R225). -/
def waitCommit (rel : Bool) (ring : Nat) (x : Spot) (c : Issuer) (s : State) : State × Nat :=
  if rel then commitFor c true s
  else
    let (cid, t) := s.newId
    (t.drainFirst c cid fun b => x.va ≤ b.2.va && b.2.va < x.va + ring, cid)
/-- The bytes that a waiting or queue instruction at mem may read: the word, or the header and the ring (R160, R163). -/
def waitReads (op : SyncOp) (n : Nat) (x : Spot) (c : Issuer) (s : State) : Nat :=
  match op with
  | .qpop | .qpopw => 16 + 4 * fieldNat (s.scratchBytes ((s.group? c.ref.gid).getD c.grp) x).bytes 8 4
  | _ => n

/-- The effect of a waiting or queue instruction: in shop and yard at issue, at mem requested of its place behind a commit (R160,
R163). -/
def waitEff (i : Instr) (f : AFmt) (op : SyncOp) (n align : Nat) (rel : Bool) (c : Issuer) (s : State) : Except TrapInfo State :=
  let sp := f.space.toNat
  let ea := scaAddr c.env f.addr sp
  if c.task.determ then .error (c.precise 0x0D 0)
  else if c.task.redundant then .error (c.precise 0x09 ea)
  else match s.laneSpots c { space := sp, n := n, step := n, align := align, need := .both, atomic := true } 0 ea with
    | .error t => .error t
    | .ok [] => .ok s
    | .ok (x :: _) =>
      if sp = 3 && x.unit.kind != .glazier && x.unit.kind != .peer then .error (c.precise 0x09 ea)
      else
        let s1 := if rel then releaseBy c (some (widest sp)) s else s
        let count := cntOf ((s1.warp? c.ref.gid c.ref.wid).getD c.warp) ((s1.group? c.ref.gid).getD c.grp)
        let y : SyncReq := { op := op, addr := x.key, va := ea, reg := dIdx f.dst, count := count, ring := waitReads op n x c s }
        let (s2, cid) := if sp = 3 then waitCommit rel y.ring x c s1 else (s1, 0)
        let pid := s2.fresh
        let s3 := s2.addPend c i { id := 0, kind := .waiter x.unit x.key, ent := 0, lanes := 0 }
        if sp = 3 then
          .ok (s3.request x.unit { gid := c.ref.gid, wid := c.ref.wid, pid := pid, sync := some y, after := some cid, part := c.task.part })
        else
          let (base, size, _) := s.alloc c sp
          let due : List (Nat × Nat) → Nat := fun l => s.cycle + latencyOf sp + conflicts sp l - 1
          let s4 := if op matches .waitq _ _ then s3 else s3.expose c.grp
          match syncAt c.ref.gid c.ref.wid pid due x.unit y (ringKey x.key (base + size - x.key)) s4 with
          | .ok t => .ok t
          | .error (cause, a) => .error (c.precise cause a)

def execWaitq (f : AFmt) (s : State) : Host.Outcome State Fault Refusal :=
  issue (.waitq f) (fun c => ckWait c.env f true true 1)
    (fun c t =>
      let n := 2 ^ f.size.toNat
      let v := if f.size = 3 then c.env.src64 f.opb true 0 else (c.env.ssrc f.opb).toNat
      waitEff (.waitq f) f (.waitq n v) n n false c t) s

def execWake (f : AFmt) (s : State) : Host.Outcome State Fault Refusal :=
  issue (.wake f) (fun c => ckWait c.env f true false 1)
    (fun c t => waitEff (.wake f) f (.wake (c.env.ssrc f.opb).toNat) 4 4 true c t) s

def execQpush (f : AFmt) (s : State) : Host.Outcome State Fault Refusal :=
  issue (.qpush f) (fun c => ckWait c.env f true false 1)
    (fun c t => waitEff (.qpush f) f (.qpush (c.env.ssrc f.opb).toNat) 16 16 true c t) s

def execQpop (f : AFmt) (s : State) : Host.Outcome State Fault Refusal :=
  issue (.qpop f) (fun c => ckWait c.env f false false 2) (fun c t => waitEff (.qpop f) f .qpop 16 16 false c t) s

def execQpopw (f : AFmt) (s : State) : Host.Outcome State Fault Refusal :=
  issue (.qpopw f) (fun c => ckWait c.env f false false 2) (fun c t => waitEff (.qpopw f) f .qpopw 16 16 false c t) s

end Sys2Proof.Machine
end

