-- ==== Sys2Proof/Machine/Control.lean ====
section
/-! DEFINITION. Branches, divergence, calls and exits, format B (R165 to R175), with the tags of deterministic mode that follow the
split table (R196). -/

namespace Sys2Proof.Machine

/-! ## Fields and targets (R165, R166) -/

/-- The fields of format B that an instruction does not use must be zero; the guard is zero in all (R165). -/
def ckB (f : BFmt) (target cond kind : Bool) (func : Nat) : Ck :=
  [(f.guard != 0, 2), (!target && (f.loff != 0 || f.tslot != 0), 2), (!cond && f.cond != 0, 2), (!kind && f.kind != 0, 2),
   (f.func.toNat &&& (4095 - func) != 0, 2)]

/-- A direct target: the instruction's line plus loff lines, at tslot (R166). -/
def lineAt (pc : DWord) (loff : BitVec 26) : DWord := (lineOf pc + (loff.signExtend 64 <<< 6)) &&& 0x1FFFFFFFFFFFFFF#64
def directTarget (pc : DWord) (f : BFmt) : DWord := lineAt pc f.loff + f.tslot.setWidth 64

/-- A token (R165). -/
def tokenOf (f : BFmt) : Byte := f.func.setWidth 8

/-- The trap of a bad target (R13, R166). -/
def badTarget (c : Issuer) (pc : DWord) : TrapInfo := { cause := 0x02, tval := pc, epc := c.split.pc }

/-! ## The split table -/

/-- The lowest free entries of the table of sixteen, n of them (R165). -/
def Warp.freeEntries (w : Warp) (n : Nat) : List Nat := (((List.range 16).filter fun e => (flook e w.table).isNone)).take n
def Warp.freeCount (w : Warp) : Nat := 16 - w.table.length

def State.putEntry (s : State) (r : SplitRef) (ent : Nat) (x : Entry) : State :=
  s.modWarp r.gid r.wid fun w => { w with table := fput ent x w.table }
def State.dropEntry (s : State) (r : SplitRef) (ent : Nat) : State :=
  s.modWarp r.gid r.wid fun w => { w with table := fdel ent w.table }
def Entry.modFrame (f : Frame → Frame) : Entry → Entry
  | .frame x => .frame (f x)
  | e => e
def State.modFrame (s : State) (r : SplitRef) (ent : Nat) (f : Frame → Frame) : State :=
  s.modWarp r.gid r.wid fun w => { w with table := fmod ent (Entry.modFrame f) w.table }

/-- Tags that name an entry are changed to name a frame, or no frame, and marked closed (R196). -/
def State.closeTags (s : State) (r : SplitRef) (ent : Nat) (frame : Option Nat) : State :=
  s.modWarp r.gid r.wid fun w => { w with tags := w.tags.map fun (p : Nat × Tag) => if p.2.entry = some ent then (p.1, ⟨frame, true⟩) else p }

/-- A split of a division: the divided split's record under its own lanes and program counter, last bound now, with clear
exception registers (R59, R167, R198, R206). -/
def childOf (x : Split) (cycle : Nat) (g : SGroup) (frame : Option Nat) : Split :=
  { x.take g with frame := frame, chain := [], bound := none, cause := 0, tval := 0, epc := 0, lastBind := cycle }

/-- A serial record is taken and the split runs the first group (R170); none when all sixty-four are in use. -/
def serialise (c : Issuer) (x : Split) (parts : List SGroup) (token : Option Byte) (again : Bool) (s : State) : Except TrapInfo State :=
  match parts, (List.range 64).find? fun k => (flook k c.warp.records).isNone with
  | g :: rest, some id =>
    let r : SerialRec := { rest := rest, held := x.held, exm := x.exm, dix := x.dix, token := token, wb := x.wb, again := again }
    .ok ((s.modWarp c.ref.gid c.ref.wid fun w => { w with records := fput id r w.records }).modSplit c.ref fun x =>
      { x.take g with chain := id :: x.chain })
  | _, _ => .error (c.precise 0x09 (c.warp.spill + 64 * 256))

/-- A division whose parts meet again at a JOIN: whole, into a frame and new splits, or serialised (R167, R168). -/
def divide (c : Issuer) (token : Byte) (parts : List SGroup) (s : State) : Except TrapInfo State :=
  match s.splitAt c.ref, parts with
  | some x, [g] => .ok (s.modSplit c.ref fun y => if g.via.isNone && g.pc = x.pc then y else y.goto g.pc g.via)
  | some x, _ =>
    if c.warp.freeCount < parts.length || x.chain != [] then serialise c x parts (some token) false s
    else
      let fr : Frame := { token := token, wb := x.wb, expect := x.held, parent := x.frame, handler := x.handler }
      let slots := c.warp.freeEntries parts.length
      let s1 := s.putEntry c.ref c.ref.ent (.frame fr)
      .ok ((parts.zip slots).foldl (fun s p => s.putEntry c.ref p.2 (.split (childOf x s.cycle p.1 (some c.ref.ent)))) s1)
  | none, _ => .ok s

/-- A division by target whose parts keep the frame (R172). -/
def scatter (c : Issuer) (parts : List SGroup) (s : State) : Except TrapInfo State :=
  match s.splitAt c.ref, parts with
  | some _, [g] => .ok (s.modSplit c.ref fun y => y.goto g.pc g.via)
  | some x, g :: rest =>
    if c.warp.freeCount < rest.length || x.chain != [] then
      let token := match x.frame.bind fun f => flook f c.warp.table with
        | some (.frame fr) => some fr.token
        | _ => none
      serialise c x parts token true s
    else
      let slots := c.warp.freeEntries rest.length
      let s1 := s.modSplit c.ref (·.take g)
      .ok ((rest.zip slots).foldl (fun s q => s.putEntry c.ref q.2 (.split (childOf x s.cycle q.1 x.frame))) s1)
  | _, _ => .ok s

/-! ## BRA, BSPLIT, SWITCH (R165, R167, R168) -/

def ckBra (e : Env) (f : BFmt) : Ck :=
  ckB f true (f.kind != 0) true 0 ++ ([(3 ≤ f.kind.toNat, 2)] : Ck) ++ (if f.kind != 0 then ckS1 e f.cond else [])

def braEff (f : BFmt) (c : Issuer) (s : State) : Except TrapInfo State :=
  let t := directTarget c.split.pc f
  let v := c.env.ssrc f.cond
  let taken := f.kind = 0 || (f.kind = 1 && v != 0) || (f.kind = 2 && v = 0)
  if !taken then .ok s
  else if s.targetBad c true t then .error (badTarget c t)
  else .ok (s.modSplit c.ref fun x => x.goto t (some c.split.pc))

def execBra (f : BFmt) (s : State) : Host.Outcome State Fault Refusal := issue (.bra f) (fun c => ckBra c.env f) (braEff f) s

/-- A predicate that BSPLIT names. R37 has its bit [8] clear and gives no reason for a set one: 2 is the model's choice (log 105). -/
def ckCondQ (x : BitVec 9) : Ck := [(x.getLsbD 8, 2), (7 < fIdx x, 3)]

def ckBsplit (f : BFmt) : Ck := ckB f true true true 0xFF ++ ckCondQ f.cond ++ ([(2 ≤ f.kind.toNat, 2)] : Ck)

def bsplitEff (f : BFmt) (c : Issuer) (s : State) : Except TrapInfo State :=
  let x := c.split
  let q := c.env.pred (fIdx f.cond % 8)
  let t := x.exm &&& (if f.kind = 0 then q else ~~~ q)
  let n := x.held &&& ~~~ t
  let pc := directTarget x.pc f
  if t = 0 then .ok s
  else if s.targetBad c true pc then .error (badTarget c pc)
  else if n = 0 then .ok (s.modSplit c.ref fun y => y.goto pc (some x.pc))
  else divide c (tokenOf f) [⟨t, t, pc, some x.pc, false⟩, ⟨n, x.exm &&& n, nextPc x.pc, none, c.startsPair⟩] s

def execBsplit (f : BFmt) (s : State) : Host.Outcome State Fault Refusal := issue (.bsplit f) (fun _ => ckBsplit f) (bsplitEff f) s

def ckSwitch (e : Env) (f : BFmt) : Ck := ckB f true true false 0xFFF ++ ([(f.tslot != 0, 2)] : Ck) ++ ckV1 e f.cond

/-- The group of a lane: the lowest case whose key matches, n for none (R168). -/
def caseOf (keys : List Word) (v : Word) : Nat := ((List.range keys.length).find? fun k => keys.getD k 0 = v).getD keys.length

/-- A case line is read through instruction translation with execute permission (R168), and its walk needs R too (R310; log 54). -/
def State.readCase (s : State) (c : Issuer) (line : Nat) : LineRead :=
  match s.readLine c line, s.xlate c.cluster c.task.asid c.task.part line .read with
  | .text b, .ok _ => .text b
  | .fault, _ => .fault
  | _, .fault => .fault
  | _, _ => .denied

def switchEff (f : BFmt) (c : Issuer) (s : State) : Except TrapInfo State :=
  let x := c.split
  let line := lineAt x.pc f.loff
  let note := (s.xnote c .exec line.toNat).or (s.xnote c .read line.toNat)
  match s.readCase c line.toNat with
  | .fault => .error { c.precise 0x08 line.toNat with note := note }
  | .denied => .error { c.precise 0x09 line.toNat with note := note }
  | .text b =>
    let n := min 8 (f.func.toNat / 256 + 1)
    let keys := (List.range n).map fun k => BitVec.ofNat 32 (fieldNat b (4 * k) 4)
    let target : Nat → DWord := fun k =>
      let w := BitVec.ofNat 32 (fieldNat b (32 + 4 * k) 4)
      ((line + ((w &&& 0xFFFFFFF8#32).signExtend 64 <<< 3)) &&& 0x1FFFFFFFFFFFFFF#64) + BitVec.ofNat 64 (w.toNat % 8)
    let lanes : Nat → Mask := fun k => maskOf fun l => x.exm.getLsbD l && caseOf keys (c.env.src f.cond false l) = k
    let cases := (List.range n).filter fun k => lanes k != 0
    let bad := (bitsSet x.exm).filterMap fun l =>
      let k := caseOf keys (c.env.src f.cond false l)
      if k < n && s.targetBad c true (target k) then some (target k) else none
    let rest := x.held &&& ~~~ (cases.foldl (fun m k => m ||| lanes k) 0)
    match bad with
    | t :: _ => .error (badTarget c t)
    | [] =>
      divide c (tokenOf f)
        (cases.map (fun k => ⟨lanes k, lanes k, target k, some x.pc, false⟩) ++
          (if rest = 0 then [] else [⟨rest, x.exm &&& rest, nextPc x.pc, none, c.startsPair⟩])) s

/-- A case line holds eight cases; a count above eight adds none (R168; log 24). -/
def execSwitch (f : BFmt) (s : State) : Host.Outcome State Fault Refusal :=
  issue (.switch f) (fun c => ckSwitch c.env f) (switchEff f) s

/-! ## JOIN (R169, R170) -/

/-- The frame resumes as a split when every expected lane has arrived (R169). -/
def resumeFrame (r : SplitRef) (ent : Nat) (x : Split) (s : State) : State :=
  match (s.warp? r.gid r.wid).bind fun w => flook ent w.table with
  | some (.frame f) =>
    if f.arrived = f.expect && f.expect != 0 then
      let low := lowestBit f.expect
      let pc := ((f.arrivals.find? fun p => p.1.getLsbD low).map (·.2)).getD x.pc
      s.putEntry r ent (.split
        { x.goto pc none with held := f.expect, exm := f.arrivedExm, dix := f.dixmax, wb := f.wb, frame := f.parent,
                                                chain := [], bound := none, cause := 0, tval := 0, epc := 0, handler := f.handler,
                                                fenceRel := f.fenceRel, lastBind := s.cycle })
    else s
  | _ => s

/-- A split parks in its frame; what it has released and read goes with the frame (R169, R224). -/
def parkInFrame (r : SplitRef) (ent : Nat) (x : Split) (s : State) : State :=
  let s1 := ((s.unbind r).closeTags r r.ent (some ent)).dropEntry r r.ent
  let s2 := s1.modFrame r ent fun g =>
    { g with arrived := g.arrived ||| x.held, arrivedExm := g.arrivedExm ||| x.exm, dixmax := if g.dixmax.toNat < x.dix.toNat then x.dix else g.dixmax,
             arrivals := g.arrivals ++ [(x.held, x.pc)], fenceRel := most g.fenceRel x.fenceRel }
  resumeFrame r ent x s2

/-- A split evaluates a JOIN that it has executed, with its program counter after the JOIN; the count bounds the constructs, since
each record that evaluates the JOIN again is popped first (R169, R170). -/
def joinAt (r : SplitRef) (tok : Byte) : Nat → State → State
  | 0, s => s
  | n + 1, s =>
    match s.issuerOf r with
    | none => s
    | some c =>
      let x := c.split
      match x.chain with
      | id :: chain =>
        match flook id c.warp.records with
        | none => s
        | some rec =>
          if !(rec.token = some tok && rec.wb = x.wb) then s
          else
            let dm := if rec.dixmax.toNat < x.dix.toNat then x.dix else rec.dixmax
            let rec1 := { rec with dixmax := dm, reached := rec.reached ||| x.held, reachedExm := rec.reachedExm ||| x.exm, joinPc := x.pc }
            match rec.rest with
            | g :: rest =>
              (s.modWarp r.gid r.wid fun w => { w with records := fput id { rec1 with rest := rest } w.records }).modSplit r fun y =>
                { y.take g with dix := rec.dix }
            | [] =>
              let s1 := (s.modWarp r.gid r.wid fun w => { w with records := fdel id w.records }).modSplit r fun y =>
                { y with held := rec1.reached, exm := rec1.reachedExm, dix := dm, chain := chain }
              if rec.again then joinAt r tok n s1 else s1
      | [] =>
        match x.frame.bind fun f => flook f c.warp.table with
        | some (.frame f) =>
          if f.token = tok && f.wb = x.wb then parkInFrame r (x.frame.getD 0) x s else s
        | _ => s

def execJoin (f : BFmt) (s : State) : Host.Outcome State Fault Refusal :=
  issue (.join f) (fun _ => ckB f false false false 0xFF) (fun c t => .ok ((joinAt c.ref (tokenOf f) 66 t).settleAll c.ref.gid)) s

/-! ## EXIT (R171) -/

/-- A frame's entry is freed: what named it as its frame names its parent, its tags too (R171, R196). -/
def Entry.reframe (e : Nat) (p : Option Nat) : Entry → Entry
  | .split x => .split { x with frame := if x.frame = some e then p else x.frame }
  | .frame f => .frame { f with parent := if f.parent = some e then p else f.parent }
def State.freeFrame (s : State) (r : SplitRef) (e : Nat) (p : Option Nat) : State :=
  (s.closeTags r e p).modWarp r.gid r.wid fun w =>
    { w with table := (fdel e w.table).map fun (q : Nat × Entry) => (q.1, q.2.reframe e p),
             tframes := w.tframes.map fun (q : Nat × TrapFrame) => (q.1, { q.2 with frame := if q.2.frame = some e then p else q.2.frame }) }

/-- The exited lanes leave the frames of a chain, innermost first: a frame that has every lane resumes, an empty one is freed and its
tags go to its parent (R171, R196). -/
def leaveFrames (r : SplitRef) (lanes : Mask) (x : Split) : List Nat → State → State
  | [], s => s
  | e :: rest, s =>
    match (s.warp? r.gid r.wid).bind fun w => flook e w.table with
    | some (.frame f) =>
      let s1 := s.modFrame r e fun g => { g with expect := g.expect &&& ~~~ lanes }
      let s2 := if f.expect &&& ~~~ lanes = 0 then s1.freeFrame r e f.parent else resumeFrame r e x s1
      leaveFrames r lanes x rest s2
    | _ => leaveFrames r lanes x rest s

/-- The split is the last of its handler: no other split and no frame belongs to it. -/
def Issuer.lastIn (c : Issuer) (h : Nat) : Bool :=
  !(c.warp.table.any fun p => p.1 != c.ref.ent && (match p.2 with
    | .split y => y.handler = some h
    | .frame f => f.handler = some h))

/-- The handler of an exiting split loses its lanes (R171, R338). -/
def leaveHandler (r : SplitRef) (lanes : Mask) (s : State) : State :=
  match s.issuerOf r with
  | none => s
  | some c =>
    match c.split.handler.bind fun h => (flook h c.warp.tframes).map fun fr => (h, fr) with
    | none => s
    | some (h, fr) =>
      s.modWarp r.gid r.wid fun w => { w with tframes := fput h { fr with held := fr.held &&& ~~~ lanes, exm := fr.exm &&& ~~~ lanes } w.tframes }

/-- The split's lanes have left: its innermost record advances, and what is left of the split goes on. With no record left a split that
is the last of its handler discards the trap frame and is what that frame held, whose records then advance in turn; any other split is
retired (R170, R171, R338; log 25). The count bounds the records of its chains. -/
def afterExit (r : SplitRef) : Nat → State → State
  | 0, s => s
  | n + 1, s =>
    match s.issuerOf r with
    | none => s
    | some c =>
      let x := c.split
      match x.chain with
      | [] =>
        let gone := ((s.unbind r).closeTags r r.ent x.frame).dropEntry r r.ent
        match x.handler.bind fun h => (flook h c.warp.tframes).map fun fr => (h, fr) with
        | none => gone
        | some (h, fr) =>
          if !c.lastIn h then gone
          else afterExit r n ((s.modWarp r.gid r.wid fun w => { w with tframes := fdel h w.tframes }).modSplit r fun y =>
            { y with handler := none, frame := fr.frame, chain := fr.chain })
      | id :: chain =>
        match flook id c.warp.records with
        | none => (s.unbind r).dropEntry r r.ent
        | some rec =>
          match rec.rest with
          | g :: rest =>
            (s.modWarp r.gid r.wid fun w => { w with records := fput id { rec with rest := rest } w.records }).modSplit r fun y =>
              { y.take g with dix := rec.dix, wb := rec.wb }
          | [] =>
            let s1 := (s.modWarp r.gid r.wid fun w => { w with records := fdel id w.records }).modSplit r fun y => { y with chain := chain }
            match rec.token with
            | some tok =>
              if rec.reached = 0 then afterExit r n s1
              else
                let s2 := s1.modSplit r fun y =>
                  { y.goto rec.joinPc none with held := rec.reached, exm := rec.reachedExm, dix := rec.dixmax, wb := rec.wb }
                if rec.again then joinAt r tok 66 s2 else s2
            | none => afterExit r n s1

/-- The warp retires when its table is empty (R171). -/
def State.retireWarp (s : State) (r : SplitRef) : State :=
  s.modWarp r.gid r.wid fun w => if w.table = [] then { w with retired := true } else w

def exitEff (c : Issuer) (s : State) : Except TrapInfo State :=
  match s.issuerOf c.ref with
  | none => .ok s
  | some d =>
    let lanes := d.split.held
    let s1 := leaveFrames c.ref lanes d.split (d.warp.framesOf d.split) s
    let s2 := afterExit c.ref 66 (leaveHandler c.ref lanes s1)
    .ok ((s2.retireWarp c.ref).settleAll c.ref.gid)

def execExit (f : BFmt) (s : State) : Host.Outcome State Fault Refusal :=
  issue (.exit f) (fun _ => ckB f false false false 0) exitEff s

/-! ## BRX, CALL, CALLX, RET, LNKW (R172 to R175) -/

/-- The held lanes by target, groups in order of their lowest lane (R172). -/
def byTarget (x : Split) (target : Nat → DWord) (via : Option DWord) : List SGroup :=
  let ts := (bitsSet x.held).foldl (fun (a : List DWord) l => if a.contains (target l) then a else a ++ [target l]) []
  ts.map fun t =>
    let m := maskOf fun l => x.held.getLsbD l && target l = t
    ⟨m, x.exm &&& m, t, via, false⟩

/-- The first of the targets, in lane order, that a transfer refuses (R166). -/
def firstBad (s : State) (c : Issuer) (mask : Bool) (gs : List SGroup) : Option DWord := (gs.map (·.pc)).find? (s.targetBad c mask)

def brxEff (f : BFmt) (c : Issuer) (s : State) : Except TrapInfo State :=
  let parts := byTarget c.split (fun l => BitVec.ofNat 64 (c.env.src64 f.cond false l)) (some c.split.pc)
  match firstBad s c true parts with
  | some t => .error (badTarget c t)
  | none => scatter c parts s

def execBrx (f : BFmt) (s : State) : Host.Outcome State Fault Refusal :=
  issue (.brx f) (fun c => ckB f false true false 0 ++ ckVn c.env f.cond 2 2) (brxEff f) s

/-- CALL and CALLX: the pushes, the link word and the slide (R173, R175). -/
def callTo (f : BFmt) (t : DWord) (c : Issuer) (s : State) : Except TrapInfo State :=
  let n := slideOf f
  if s.targetBad c true t then .error (badTarget c t)
  else match overflowLane c (4 * n + 8) with
    | some l => .error (c.precise 0x09 (c.warp.spill + 16384 + (l + 1) * c.task.stack))
    | none =>
      let link := natBytes 8 (n / 16 * 2 ^ 60 + (nextPc c.split.pc).toNat % 2 ^ 57)
      .ok ((pushLanes c n link s).modSplit c.ref fun x => { x.goto t (some c.split.pc) with wb := (x.wb + n) % c.warp.nregs })

def ckSlide (e : Env) (f : BFmt) : Ck := [(e.nregs ≤ slideOf f, 3)]

def execCall (f : BFmt) (s : State) : Host.Outcome State Fault Refusal :=
  issue (.call f) (fun c => ckB f true false false 0xF ++ ckSlide c.env f) (fun c t => callTo f (directTarget c.split.pc f) c t) s

def execCallx (f : BFmt) (s : State) : Host.Outcome State Fault Refusal :=
  issue (.callx f) (fun c => ckB f false true false 0xF ++ ckSn f.cond 2 2 ++ ckSlide c.env f)
    (fun c t => callTo f (BitVec.ofNat 64 (c.env.src64 f.cond true 0)) c t) s

/-- The bottom of a lane's stack as RET and LNKW see it: what a handler's entry left (R174). -/
def Issuer.floor (c : Issuer) (l : Nat) : Nat :=
  match c.split.handler.bind fun h => flook h c.warp.tframes with
  | some fr => fget 0 l fr.floors
  | none => 0
def Issuer.stackEmpty (c : Issuer) (l : Nat) : Bool := c.depth l < c.floor l + 8
/-- The top link word of a lane. -/
def Issuer.link (c : Issuer) (s : State) (l : Nat) : Nat := c.popped s l (c.depth l - 8) 8

def retEff (c : Issuer) (s : State) : Except TrapInfo State :=
  let lanes := bitsSet c.split.held
  let links := lanes.map fun l => c.link s l
  let slide := 16 * (links.headD 0 / 2 ^ 60)
  let target : Nat → DWord := fun l => BitVec.ofNat 64 (c.link s l % 2 ^ 57)
  if lanes.any c.stackEmpty then .error (c.precise 0x05 0)
  else if links.any fun v => 16 * (v / 2 ^ 60) != slide then .error (c.precise 0x05 1)
  else
    let parts := byTarget c.split target none
    match firstBad s c false parts with
    | some t => .error (badTarget c t)
    | none =>
      let wb := (c.split.wb + c.warp.nregs - slide % c.warp.nregs) % c.warp.nregs
      let s1 := popInto s c wb slide 8 (fun l => c.depth l - 8 - 4 * slide) c.split.held
      let s2 := s1.modWarp c.ref.gid c.ref.wid fun w =>
        { w with depth := lanes.foldl (fun d l => fset 0 l (c.depth l - 8 - 4 * slide) d) w.depth }
      scatter c parts (s2.modSplit c.ref fun x => { x with wb := wb })

def execRet (f : BFmt) (s : State) : Host.Outcome State Fault Refusal :=
  issue (.ret f) (fun _ => ckB f false false false 0) retEff s

def lnkwEff (f : BFmt) (c : Issuer) (s : State) : Except TrapInfo State :=
  let lanes := bitsSet c.split.exm
  let v : Nat → Nat := fun l => c.env.src64 f.cond false l
  match (lanes.filter fun l => 2 ^ 57 ≤ v l).map v with
  | t :: _ => .error (badTarget c (BitVec.ofNat 64 t))
  | [] =>
    if lanes.any c.stackEmpty then .error (c.precise 0x05 0)
    else .ok (lanes.foldl (fun s l =>
      c.toStack l (c.depth l - 8) (natBytes 8 (c.link s l / 2 ^ 57 * 2 ^ 57 + v l)) s) s)

def execLnkw (f : BFmt) (s : State) : Host.Outcome State Fault Refusal :=
  issue (.lnkw f) (fun c => ckB f false true false 0 ++ ckVn c.env f.cond 2 2) (lnkwEff f) s

end Sys2Proof.Machine
end

