-- ==== Sys2Proof/Machine/System.lean ====
section
/-! DEFINITION. The system instructions, format T (R19, R20, R188, R189), with mailboxes and event queues (R285, R292). -/

namespace Sys2Proof.Machine

/-! ## Fields (R38, R188) -/

/-- The fields that an instruction of format T does not use must be zero; its post field is required, free or must be 0xF. -/
inductive PostRule where
  | required | free | none
  deriving DecidableEq, Repr

/-- imm is the greatest value of the immediate; trailer says that the instruction carries one (R38). -/
def ckT (f : TFmt) (dst sa sysreg trailer : Bool) (imm : Nat) (post : PostRule) : Ck :=
  ckPost f.post ++
  ([(!dst && f.dst != 0, 2), (!sa && f.sa != 0, 2), (!sysreg && f.sysreg != 0, 2), (!trailer && f.trailer != 0, 2),
    (imm < f.imm.toNat, 2),
    (match post with
      | .required => f.post = 15
      | .free => false
      | .none => f.post != 15, 2)] : Ck)

/-- A destination of n scalar registers that may not be suppressed (R25). -/
def ckTd (f : TFmt) (align n : Nat) : Ck := ckWb f.dst ++ ckSd f.dst align n

/-! ## NOP, SEAL, TRAP, TRET (R19, R20, R188, R337, R338) -/

def execNop (f : TFmt) (s : State) : Host.Outcome State Fault Refusal :=
  issue (.nop f) (fun _ => ckT f false false false false 0 .free)
    (fun c t => .ok (if (postFlag f.post).isSome then t.later c (.nop f) 1 [] else t)) s

def execSeal (f : TFmt) (s : State) : Host.Outcome State Fault Refusal :=
  issue (.seal f) (fun _ => ckT f false false false true 0 .none) (fun _ t => .ok t) s

/-- A software trap: the instruction issues, and EPC holds the next program counter (R188, R333). -/
def trapEff (cause : Nat) (f : TFmt) (c : Issuer) (s : State) : Except TrapInfo State :=
  .ok (raise s c.ref { cause := cause, tval := BitVec.ofNat 64 (f.imm.toNat % 65536), epc := nextPc c.split.pc })

def ckTrap (f : TFmt) : Ck := ckT f false false false true 0xFFFFFF .none ++ ([(bitsOf f.imm.toNat 22 16 != 0, 2)] : Ck)

def execTrap (f : TFmt) (s : State) : Host.Outcome State Fault Refusal :=
  issue (.trap f) (fun _ => ckTrap f) (trapEff 0x20 f) s

def execTrapBkpt (f : TFmt) (s : State) : Host.Outcome State Fault Refusal :=
  issue (.trapBkpt f) (fun _ => ckTrap f) (trapEff 0x21 f) s

/-- TRET by a split that holds every lane of the frame; by one that holds fewer it is a DOUBLE_FAULT (R337, R338). -/
def tretEff (c : Issuer) (s : State) : Except TrapInfo State :=
  match c.split.handler with
  | none => .ok s
  | some id =>
    match flook id c.warp.tframes with
    | some fr => .ok (if c.split.held = fr.held then returnTrap c id fr s else doubleFault s c.grp)
    | none => .ok (doubleFault s c.grp)

def execTret (f : TFmt) (s : State) : Host.Outcome State Fault Refusal :=
  issue (.tret f) (fun c => ckT f false false false true 0 .none ++ ([(c.split.handler.isNone, 2)] : Ck)) tretEff s

/-! ## Mailboxes (R188, R189, R285) -/

def Partition.box (p : Partition) (m : Nat) : Mailbox := (flook m p.boxes).getD {}
def State.modBox (s : State) (part m : Nat) (f : Mailbox → Mailbox) : State :=
  let p := s.part part
  s.setPart part { p with boxes := fput m (f (p.box m)) p.boxes }

/-- The messages a ring holds: more than sixteen outbound ones wait with Dallum (R285). -/
def Mailbox.sent (b : Mailbox) : Nat := min 16 b.outbound.length

/-- MBXSTAT (R189). -/
def mbxStat (s : State) (c : Issuer) : Nat :=
  match c.warp.mbx with
  | none => 0
  | some m =>
    let b := (s.part c.task.part).box m
    m % 256 * 65536 + (16 - b.sent) * 256 + min 16 b.inbound.length

/-- A mailbox that the configuration assigns to Dallum (R285). -/
def State.dallumBox (s : State) (part m : Nat) : Bool := s.conf.dallum.contains (part, m)

def ckMbx (e : Env) (f : TFmt) : Ck := ckT f true true false false 255 .required ++ ckTd f 1 1 ++ ckS1 e f.sa

/-- The key of the message in the bench, or the trap; a mailbox that the configuration gives to Dallum is refused (R139, R188, R285, R323). -/
def mbxKey (s : State) (c : Issuer) (f : TFmt) : Except TrapInfo Nat :=
  let a := (c.env.ssrc f.sa).toNat
  if a % 64 != 0 then .error (c.precise 0x0A a)
  else if c.grp.benchSize < a + 64 then .error (c.precise 0x09 a)
  else if s.dallumBox c.task.part f.imm.toNat then .error { c.precise 0x09 a with note := some (0x11, f.imm.toNat, 0) }
  else .ok (benchKey c.grp.core (c.grp.benchBase + a))

/-- The warp has named a mailbox. -/
def State.names (s : State) (c : Issuer) (m : Nat) : State := s.modWarp c.ref.gid c.ref.wid fun w => { w with mbx := some m }

def mbxsendEff (f : TFmt) (c : Issuer) (s : State) : Except TrapInfo State :=
  match mbxKey s c f with
  | .error t => .error t
  | .ok key =>
    let m := f.imm.toNat
    let b := (s.part c.task.part).box m
    let s1 := s.names c m
    if 16 ≤ b.outbound.length then .ok (s1.later c (.mbxsend f) 4 [.sca (dIdx f.dst) 1])
    else
      let msg := (s.scratchBytes c.grp ⟨0, 0, 0, key, 64, ⟨.bench, c.grp.core⟩⟩).bytes
      .ok (((s1.expose c.grp).modBox c.task.part m fun b => { b with outbound := b.outbound ++ [msg] }).later c (.mbxsend f) 4
        [.sca (dIdx f.dst) 0])

def execMbxsend (f : TFmt) (s : State) : Host.Outcome State Fault Refusal :=
  issue (.mbxsend f) (fun c => ckMbx c.env f) (mbxsendEff f) s

/-- In a redundant pair the message goes to the benches of both members (R350). -/
def mbxrecvEff (f : TFmt) (c : Issuer) (s : State) : Except TrapInfo State :=
  match mbxKey s c f with
  | .error t => .error t
  | .ok key =>
    let m := f.imm.toNat
    let s1 := s.names c m
    match ((s.part c.task.part).box m).inbound with
    | [] => .ok (s1.later c (.mbxrecv f) 4 [.sca (dIdx f.dst) 1])
    | x :: rest =>
      let s2 := (s1.modBox c.task.part m fun b => { b with inbound := rest }).store c.grp.core key x.1
        (s.stampFor c.ref.gid c.ref.wid (cntOf c.warp c.grp) key)
      let s3 := match c.grp.pair.bind fun p => (s.group? p).map fun h => (p, h) with
        | some (p, h) =>
          let k := benchKey h.core (h.benchBase + (c.env.ssrc f.sa).toNat)
          s2.store h.core k x.1 (s.stampFor p c.ref.wid (cntOf c.warp c.grp) k)
        | none => s2
      .ok (s3.later c (.mbxrecv f) 4 [.sca (dIdx f.dst) 0])

def execMbxrecv (f : TFmt) (s : State) : Host.Outcome State Fault Refusal :=
  issue (.mbxrecv f) (fun c => ckMbx c.env f) (mbxrecvEff f) s

/-! ## System registers (R189) -/

/-- The value of a system register before the instruction's own increment (R59, R189). -/
def sysValue (s : State) (c : Issuer) (n : Nat) : Nat :=
  match n with
  | 0 => c.split.exm.toNat | 1 => c.split.wb | 2 => c.split.dix.toNat | 3 => c.warp.lclk | 4 => c.warp.seed.toNat
  | 5 => c.warp.fpctl.toNat | 6 => c.warp.thr.toNat | 7 => c.warp.sticky.toNat | 8 => c.split.cause.toNat
  | 9 => c.split.tval.toNat | 10 => c.split.epc.toNat | 11 => c.warp.trapbase.toNat
  | _ => mbxStat s c

/-- The registers are written four cycles after issue (R188). -/
def sysReads (f : TFmt) (wide : Bool) (v : Nat) : List RegWrite :=
  .sca (dIdx f.dst) (BitVec.ofNat 32 v) :: (if wide then [.sca (dIdx f.dst + 1) (BitVec.ofNat 32 (v / 2 ^ 32))] else [])

def ckSysrd (c : Issuer) (f : TFmt) : Ck :=
  let n := if sysWide c.warp.width f.sysreg.toNat then 2 else 1
  ckT f true false true false 0 .required ++ ckTd f n n ++ ([(0xC < f.sysreg.toNat, 2)] : Ck)

def sysrdEff (i : Instr) (f : TFmt) (c : Issuer) (s : State) : Except TrapInfo State :=
  .ok (s.later c i 4 (sysReads f (sysWide c.warp.width f.sysreg.toNat) (sysValue s c f.sysreg.toNat)))

/-- In deterministic mode, while the warp has more than one split, the read or write is not determined (R71, R302). -/
def alone (eff : Issuer → State → Except TrapInfo State) (c : Issuer) (s : State) : Except TrapInfo State :=
  if c.task.determ && 1 < c.warp.splits.length then .error (c.precise 0x0D 0) else eff c s

def execSysrd (f : TFmt) (s : State) : Host.Outcome State Fault Refusal :=
  issue (.sysrd f) (fun c => ckSysrd c f) (sysrdEff (.sysrd f) f) s

def execSysrdSticky (f : TFmt) (s : State) : Host.Outcome State Fault Refusal :=
  issue (.sysrdSticky f) (fun c => ckSysrd c f) (alone (sysrdEff (.sysrdSticky f) f)) s

def execSysrdLclk (f : TFmt) (s : State) : Host.Outcome State Fault Refusal :=
  issue (.sysrdLclk f) (fun c => ckSysrd c f) (alone (sysrdEff (.sysrdLclk f) f)) s

/-- A register that software may not write (R189). -/
def sysReadOnly (n : Nat) : Bool := n = 1 || n = 3 || n = 12

def ckSyswr (c : Issuer) (f : TFmt) : Ck :=
  ckT f false true true false 0 .none ++ ([(0xC < f.sysreg.toNat || sysReadOnly f.sysreg.toNat, 2)] : Ck) ++
  (if sysWide c.warp.width f.sysreg.toNat then ckSn f.sa 2 2 else ckS1 c.env f.sa)

/-- The value that SYSWR stores. -/
def sysSource (c : Issuer) (f : TFmt) : Nat :=
  if sysWide c.warp.width f.sysreg.toNat then c.env.src64 f.sa true 0 else (c.env.ssrc f.sa).toNat

def State.ownWarp (s : State) (c : Issuer) (f : Warp → Warp) : State := s.modWarp c.ref.gid c.ref.wid f

/-- The registers other than EXM, STICKY and FPCTL (R56, R59, R60, R95, R189, R336). -/
def syswrEff (f : TFmt) (c : Issuer) (s : State) : Except TrapInfo State :=
  let v := sysSource c f
  .ok (match f.sysreg.toNat with
    | 2 => s.modSplit c.ref fun x => { x with dix := BitVec.ofNat 64 v }
    | 4 => s.ownWarp c fun w => { w with seed := BitVec.ofNat 64 v }
    | 6 => s.ownWarp c fun w => { w with thr := BitVec.ofNat 32 v }
    | 8 => s.modSplit c.ref fun x => { x with cause := BitVec.ofNat 32 v }
    | 9 => s.modSplit c.ref fun x => { x with tval := BitVec.ofNat 64 v }
    | 10 => s.modSplit c.ref fun x => { x with epc := BitVec.ofNat 64 v }
    | 11 => s.ownWarp c fun w => { w with trapbase := BitVec.ofNat 64 (v % 2 ^ 61) }
    | _ => s)

def execSyswr (f : TFmt) (s : State) : Host.Outcome State Fault Refusal := issue (.syswr f) (fun c => ckSyswr c f) (syswrEff f) s

/-- EXM takes the value under the held mask (R61, R189). -/
def execSyswrExm (f : TFmt) (s : State) : Host.Outcome State Fault Refusal :=
  issue (.syswrExm f) (fun c => ckSyswr c f)
    (fun c t => .ok (t.modSplit c.ref fun x => { x with exm := BitVec.ofNat 64 (sysSource c f) &&& x.held })) s

/-- STICKY takes the value, with what lands in the same cycle (R68, R71). -/
def execSyswrSticky (f : TFmt) (s : State) : Host.Outcome State Fault Refusal :=
  issue (.syswrSticky f) (fun c => ckSyswr c f)
    (alone fun c t => .ok (t.ownWarp c fun w => { w with sticky := (BitVec.ofNat 32 (sysSource c f) ||| w.landed) &&& stickyMask })) s

/-- FPCTL as it is stored: reserved bits zero, rounding codes above 4 as 0 (R56). -/
def fpctlOf (v : Nat) : Word :=
  BitVec.ofNat 32 (bitsOf v 6 6 * 64 + bitsOf v 4 3 * 8 + (if 4 < v % 8 then 0 else v % 8))

def execSyswrFpctl (f : TFmt) (s : State) : Host.Outcome State Fault Refusal :=
  issue (.syswrFpctl f) (fun c => ckSyswr c f) (fun c t => .ok (t.ownWarp c fun w => { w with fpctl := fpctlOf (sysSource c f) })) s

/-! ## SPAWN (R188, R289) -/

def spawnEff (f : TFmt) (c : Issuer) (s : State) : Except TrapInfo State :=
  let tcb := c.env.src64 f.sa true 0
  if c.task.determ then
    (if c.grp.full [2 ^ 80] then .error (c.precise 0x0D 0)
     else .ok ((s.modGroup c.ref.gid fun g => { g with held := g.held ++ [.spawn tcb] }).later c (.spawn f) 4 [.sca (dIdx f.dst) 0]))
  else
    let (s1, cid) := commitFor c true (s.release c.ref.gid c.ref.wid 4)
    .ok (s1.addPend c (.spawn f) { id := 0, kind := .spawn tcb cid (dIdx f.dst), ent := 0, lanes := 0, cover := some cid, due := s.cycle + 4 })

def execSpawn (f : TFmt) (s : State) : Host.Outcome State Fault Refusal :=
  issue (.spawn f) (fun _ => ckT f true true false false 0 .required ++ ckTd f 1 1 ++ ckSn f.sa 2 2) (spawnEff f) s

/-! ## Event queues (R188, R286, R292) -/

/-- A message or reply (R286): kind, tag, address, and the bytes from 16 on. -/
def message (kind tag addr : Nat) (body : List Byte) : List Byte :=
  (natBytes 2 kind ++ natBytes 2 tag ++ natBytes 4 0 ++ natBytes 8 addr ++ body ++ List.replicate 48 0).take 64

/-- A record (R292). -/
def eventRecord (addr tag kind status ident : Nat) : BitVec 128 :=
  BitVec.ofNat 128 (addr % 2 ^ 64 * 2 ^ 64 + tag % 2 ^ 16 * 2 ^ 48 + kind % 256 * 2 ^ 40 + status % 256 * 2 ^ 32 + ident % 2 ^ 32)

/-- A record appended to a queue is also sent as a reply to the mailbox to which the queue is forwarded (R286). -/
def State.forwardRec (s : State) (part q : Nat) (rec : BitVec 128) : State :=
  match flook q (s.part part).forward with
  | some (m, tag) => s.modBox part m fun b => { b with outbound := b.outbound ++ [message 0x8004 tag 0 (natBytes 16 rec.toNat)] }
  | none => s

/-- A record appended to a queue that has room: it is forwarded too (R286, R292). none when the queue is full. -/
def State.putEvent (s : State) (part q : Nat) (rec : BitVec 128) : Option State :=
  let p := s.part part
  let l := (flook q p.queues).getD []
  if 256 ≤ l.length then none
  else
    some ((s.setPart part { p with queues := fput q (l ++ [rec]) p.queues }).forwardRec part q rec)

/-- A record that waits for room if its queue has none, behind the records already held for it (R292). -/
def State.holdEvent (s : State) (part q : Nat) (rec : BitVec 128) : State :=
  let p := s.part part
  let held := (flook q p.heldRecs).getD []
  match (if held = [] then s.putEvent part q rec else none) with
  | some t => t
  | none => s.setPart part { p with heldRecs := fput q (held ++ [rec]) p.heldRecs }

/-- A record of a task to its event queue (R287, R292). -/
def State.taskEvent (s : State) (t : Task) (kind status ident addr : Nat) : State :=
  let q := t.field 608 16
  if q = 0xFFFF then s else s.holdEvent t.part q (eventRecord addr (t.field 624 16) kind status ident)

def ckEvput (f : TFmt) : Ck := ckT f true true false false 255 .required ++ ckTd f 1 1 ++ ckSn f.sa 4 4

def evputEff (f : TFmt) (c : Issuer) (s : State) : Except TrapInfo State :=
  let q := f.imm.toNat
  let p := s.part c.task.part
  let word := BitVec.ofNat 128 (bytesNat ((List.range 4).flatMap fun k => natBytes 4 (c.env.sca (fIdx f.sa + k)).toNat))
  let answer : State → Word → State := fun s v => s.later c (.evput f) 4 [.sca (dIdx f.dst) v]
  if q = 255 && !c.task.control then .error (c.precise 0x09 0)
  else if q = 255 then
    (if 256 ≤ p.requests.length then .ok (answer s 1)
     else .ok (answer (((s.expose c.grp).setPart c.task.part { p with requests := p.requests ++ [(word, c.grp.task)] }).forwardRec
       c.task.part q word) 0))
  else match (s.expose c.grp).putEvent c.task.part q word with
    | some t => .ok (answer t 0)
    | none => .ok (answer s 1)

def execEvput (f : TFmt) (s : State) : Host.Outcome State Fault Refusal := issue (.evput f) (fun _ => ckEvput f) (evputEff f) s

def ckEvget (f : TFmt) : Ck := ckT f true false false false 255 .required ++ ckTd f 4 5

def evgetEff (f : TFmt) (c : Issuer) (s : State) : Except TrapInfo State :=
  let q := f.imm.toNat
  let p := s.part c.task.part
  let d := dIdx f.dst
  let take : BitVec 128 → Partition → Except TrapInfo State := fun rec p =>
    .ok ((s.setPart c.task.part p).later c (.evget f) 4
      ((List.range 4).map (fun k => RegWrite.sca (d + k) (rec.extractLsb' (32 * k) 32)) ++ [.sca (d + 4) 0]))
  if !c.task.control then .error (c.precise 0x09 0)
  else if q = 255 then
    match p.requests with
    | r :: rest => take r.1 { p with requests := rest }
    | [] => .ok (s.later c (.evget f) 4 [.sca (d + 4) 1])
  else match (flook q p.queues).getD [] with
    | rec :: rest => take rec { p with queues := fput q rest p.queues }
    | [] => .ok (s.later c (.evget f) 4 [.sca (d + 4) 1])

def execEvget (f : TFmt) (s : State) : Host.Outcome State Fault Refusal := issue (.evget f) (fun _ => ckEvget f) (evgetEff f) s

/-! ## LSYNC and LOGMK (R188, R302, R358) -/

def execLsync (f : TFmt) (s : State) : Host.Outcome State Fault Refusal :=
  issue (.lsync f) (fun _ => ckT f false false false false 0 .required)
    (fun c t => .ok (if c.task.determ then t.addPend c (.lsync f) { id := 0, kind := .lsync, ent := 0, lanes := 0, due := t.cycle + 1 }
      else t.later c (.lsync f) 4 [])) s

/-- The least of some keys. -/
def leastKey : List (Nat × Nat × Nat) → Option (Nat × Nat × Nat)
  | [] => none
  | k :: t => match leastKey t with
    | none => some k
    | some m => if keyLt m k then some m else some k

/-- LSYNC completes: the warp's clock is before that of every other unretired warp of the group (R188, R302). -/
def lsyncDone (s : State) (gid wid : Nat) : Bool :=
  match (s.warp? gid wid).bind fun w => leastKey (w.clocks wid none) with
  | none => true
  | some mine => (s.warpsOf gid).all fun p => p.1 = wid || p.2.retired || (p.2.clocks p.1 none).all (keyLt mine)

def execLogmk (f : TFmt) (s : State) : Host.Outcome State Fault Refusal :=
  issue (.logmk f) (fun c => ckT f false true false false 0xFFFF .none ++ ckS1 c.env f.sa)
    (fun c t => .ok (t.scrivWarp c.ref.gid c.ref.wid c.ref.ent 0x10
      (BitVec.ofNat 64 (f.imm.toNat * 2 ^ 32 + (c.env.ssrc f.sa).toNat)))) s

/-! ## Unassigned opcodes (R39, R40) -/

/-- The trap of an opcode that no instruction has: reason 1. -/
def execUnassignedOpcode (f : UFmt) (s : State) : Host.Outcome State Fault Refusal :=
  issue (.unassignedOpcode f) (fun _ => ([(true, 1)] : Ck)) (fun _ t => .ok t) s

end Sys2Proof.Machine
end

