-- ==== Sys2Proof/Machine/Matrix.lean ====
section
/-! DEFINITION. The matrix instructions, format X (R104 to R116, R124 to R126, R130). -/

namespace Sys2Proof.Machine

/-! ## Fields (R105, R115) -/

/-- The fields of format X that an instruction does not use must be zero; func says which of its bits it uses. -/
def ckX9 (f : XFmt) (slota slotb acc pa pb fmta fmtb prov : Bool) (func : Nat) : Ck :=
  ckPost f.post ++
  ([(f.obj != 0, 2), (!slota && f.slota != 0, 2), (!slotb && f.slotb != 0, 2), (!acc && f.acc != 0, 2), (!pa && f.pa != 0, 2),
    (!pb && f.pb != 0, 2), (!fmta && f.fmta != 0, 2), (!fmtb && f.fmtb != 0, 2), (!prov && f.prov != 0, 2),
    (f.func.toNat &&& (1023 - func) != 0, 2)] : Ck)

/-- A layout code (R107, R115): 0 .e8, 1 .mix, 4 .e4, 8 .bf16. -/
def layoutOk (l : Nat) : Bool := l = 0 || l = 1 || l = 4 || l = 8
/-- Two layouts match (R115). -/
def layoutsMatch (a b : Nat) : Bool := a = b || (a < 2 && b < 2)
/-- Blocks of a row (R107). -/
def blocksOf (l : Nat) : Nat := match l with | 4 => 8 | 8 => 2 | _ => 4
/-- Header bytes that a layout uses (R107). -/
def headerBytes (l : Nat) : Nat := match l with | 4 => 2048 | 8 => 0 | _ => 1024

/-- A slot or tile of the group (R105, R106). -/
def ckSlot (g : Group) (x : Nat) : Ck := [(g.slotCount ≤ x, 3)]
def ckTile (g : Group) (x : Nat) : Ck := [(g.tileCount ≤ x, 3)]

/-! ## Slots and tiles (R106, R108, R112) -/

def Group.slot (g : Group) (k : Nat) : Slot := (flook k g.slots).getD {}
def Group.tile (g : Group) (k : Nat) : Tile := (flook k g.tiles).getD {}
def State.modSlot (s : State) (gid k : Nat) (f : Slot → Slot) : State :=
  s.modGroup gid fun g => { g with slots := fput k (f (g.slot k)) g.slots }
def State.modTile (s : State) (gid k : Nat) (f : Tile → Tile) : State :=
  s.modGroup gid fun g => { g with tiles := fput k (f (g.tile k)) g.tiles }

/-- SLOT_STATE on a slot or a tile (R105). -/
def slotTval (tile : Bool) (k state : Nat) : Nat := k + (if tile then 256 else 0) + state * 512

/-- The first of some slots whose state a test refuses, as a TVAL. -/
def badSlot (g : Group) (refuse : Nat → Bool) (ks : List Nat) : Option Nat :=
  (ks.find? fun k => refuse (g.slot k).state).map fun k => slotTval false k (g.slot k).state

/-- A range of the group's bench, aligned (R110, R114, R130). -/
def benchFault (c : Issuer) (a n align : Nat) : Option TrapInfo :=
  if a % align != 0 then some (c.precise 0x0A a) else if c.grp.benchSize < a + n then some (c.precise 0x09 a) else none

/-- The matrix commands of a core that have not completed: queued, running and finishing. -/
def Core.commands (k : Core) : List MCmd :=
  k.queues.flatMap (·.2) ++ (match k.running with
    | some (_, m) => [m]
    | none => []) ++ k.finishing

/-- A command acts on a tile: its own and, for the first of a provisional series and for MRESOLVE, the odd partner's (R113, R124). -/
def MCmd.onTile (m : MCmd) (gid t : Nat) : Bool :=
  m.gid = gid && (m.tile = t || ((m.first || m.kind = .mresolve) && m.tile + 1 = t))

/-- A tile has an incomplete command from another warp of its group (R113). -/
def State.foreignOn (s : State) (core gid wid t : Nat) : Bool := (s.core core).commands.any fun m => m.onTile gid t && m.wid != wid
/-- In deterministic mode, the tile that a command names has one (log 111). -/
def tileForeign (s : State) (c : Issuer) (t : Nat) : Bool := c.task.determ && s.foreignOn c.grp.core c.ref.gid c.ref.wid t

/-- A command enters a matrix queue (R126). -/
def State.enqueue (s : State) (core q : Nat) (m : MCmd) : State :=
  s.modCore core fun k => { k with queues := fput q (((flook q k.queues).getD []) ++ [m]) k.queues }

/-- A slot takes n more or n fewer readers (R108). -/
def Slot.more (x : Slot) : Slot := { x with readers := x.readers + 1 }
def Slot.less (x : Slot) : Slot := { x with readers := x.readers - 1 }

/-! ## MCLAIM, MFREE (R109) -/

def slotRange (f : XFmt) : List Nat := upFrom f.slota.toNat (f.func.toNat % 32 + 1)

def ckRange (g : Group) (f : XFmt) : Ck :=
  ckX9 f true false false false false false false false 31 ++
  ([(31 < f.slota.toNat + f.func.toNat % 32, 3), (g.slotCount ≤ f.slota.toNat + f.func.toNat % 32, 3)] : Ck)

/-- All slots of the range change state, or none does. -/
def rangeEff (i : Instr) (f : XFmt) (refuse : Nat → Bool) (st : Nat) (c : Issuer) (s : State) : Except TrapInfo State :=
  match badSlot c.grp refuse (slotRange f) with
  | some v => .error (c.precise 0x11 v)
  | none => .ok (((slotRange f).foldl (fun s k => s.modSlot c.ref.gid k fun x => { x with state := st }) s).later c i 1 [])

def execMclaim (f : XFmt) (s : State) : Host.Outcome State Fault Refusal :=
  issue (.mclaim f) (fun c => ckRange c.grp f) (rangeEff (.mclaim f) f (· != 0) 1) s

def execMfree (f : XFmt) (s : State) : Host.Outcome State Fault Refusal :=
  issue (.mfree f) (fun c => ckRange c.grp f) (rangeEff (.mfree f) f (fun st => st = 0 || st = 2) 0) s

/-! ## MFILL (R110) -/

def ckMfill (c : Issuer) (f : XFmt) : Ck :=
  ckX9 f true false false true true true false false 1 ++ ckSlot c.grp f.slota.toNat ++ ckS1 c.env f.pa ++
  (if f.fmta = 8 then ([(f.pb != 0, 2)] : Ck) else ckS1 c.env f.pb) ++
  ([(!layoutOk f.fmta.toNat, 5), (f.func != 0 && f.fmta != 4, 2)] : Ck)

/-- The readers of a slot that have not completed: a fill waits for those issued before it (R108; log 27). -/
def slotReaders (s : State) (core gid slot : Nat) : List Nat :=
  ((s.core core).commands.filter fun m =>
    m.gid = gid && (m.kind = .mma || m.kind = .mmas) && (m.lslotA = slot || m.lslotB = slot)).map (·.id)
/-- The fills of a slot that have not completed. -/
def slotFills (s : State) (core gid slot : Nat) : List Nat :=
  ((s.core core).engine.filter fun e => e.gid = gid && e.dst = 5 && e.lslot = slot).map (·.id)

def mfillEff (f : XFmt) (c : Issuer) (s : State) : Except TrapInfo State :=
  let a := (c.env.ssrc f.pa).toNat
  let h := (c.env.ssrc f.pb).toNat
  let n := headerBytes f.fmta.toNat
  let k := f.slota.toNat
  match benchFault c a 12288 64 with
  | some t => .error t
  | none =>
    match (if n = 0 then none else benchFault c h n 64) with
    | some t => .error t
    | none =>
      match badSlot c.grp (fun st => st = 0 || st = 2) [k] with
      | some v => .error (c.precise 0x11 v)
      | none =>
        let pid := s.fresh
        let s1 := (s.modSlot c.ref.gid k fun x => { x with state := 2 }).addPend c (.mfill f)
          { id := 0, kind := .engine, ent := 0, lanes := 0 }
        .ok (s1.addCmd c.grp.core
          { id := pid, kind := .mfill, gid := c.ref.gid, wid := c.ref.wid, lanes := c.split.held, pid := pid, dst := 5, srcA := a,
            hdrA := h, hdrLen := n, len := 12288, lslot := k, slot := (c.grp.slot k).phys, fmta := f.fmta.toNat, sp := f.func = 1,
            warn := c.warp.fpctl.getLsbD 4, due := s.cycle + 96 + n / 128, needs := slotReaders s c.grp.core c.ref.gid k })

def execMfill (f : XFmt) (s : State) : Host.Outcome State Fault Refusal :=
  issue (.mfill f) (fun c => ckMfill c f) (mfillEff f) s

/-! ## MMA, MMAS (R115, R116, R124) -/

/-- A provisional command. -/
def xProv (f : XFmt) : Bool := f.prov.getLsbD 6

/-- The encodings of a tile product that trap. R115 lets slotb equal slota for MMA and names no trap for MMAS: the model accepts it there too
(log 113). -/
def ckMma (g : Group) (f : XFmt) (sparse : Bool) : Ck :=
  ckX9 f true true true (f.func.getLsbD 1) false true true (xProv f) 3 ++
  ([(!layoutOk f.fmta.toNat || !layoutOk f.fmtb.toNat, 5), (!layoutsMatch f.fmta.toNat f.fmtb.toNat, 2),
    (sparse && (f.fmta != 4 || f.fmtb != 4), 2), (xProv f && f.acc.getLsbD 0, 2)] : Ck) ++
  ckSlot g f.slota.toNat ++ ckSlot g f.slotb.toNat ++ ckTile g (f.acc.toNat + if xProv f then 1 else 0)

/-- An extent: 0, or a value above the full size, means the full size (R116). -/
def extentOf (v full : Nat) : Nat := if v = 0 || full < v then full else v

/-- Who issues a tile product, and where. -/
structure Submit where
  gid    : Nat
  wid    : Nat
  lanes  : Mask
  pid    : Nat
  core   : Nat
  queue  : Nat
  ovtrap : Bool
  deriving DecidableEq, Repr

/-- Why a tile product may not issue, as a TVAL of SLOT_STATE (R108, R112, R124). -/
def mmaFault (g : Group) (f : XFmt) : Option Nat :=
  let k := f.acc.toNat
  let p := f.prov.toNat % 64
  match badSlot g (· < 2) [f.slota.toNat, f.slotb.toNat] with
  | some v => some v
  | none =>
    if !xProv f then (if (g.tile k).state = 0 then none else some (slotTval true k (g.tile k).state))
    else match (g.tile k).state with
      | 0 => if (g.tile (k + 1)).state = 0 then none else some (slotTval true (k + 1) (g.tile (k + 1)).state)
      | 1 => if (g.tile k).pred = p then none else some (slotTval true k 1)
      | st => some (slotTval true k st)

/-- A tile product takes its place in a queue, with what it needs of its slots and tile at that moment (R113, R124, R126). -/
def submitMma (g : Group) (f : XFmt) (sparse : Bool) (ext : Nat) (x : Submit) (s : State) : State :=
  let k := f.acc.toNat
  let a := f.slota.toNat
  let b := f.slotb.toNat
  let full := 24 * blocksOf f.fmta.toNat
  let first := xProv f && (g.tile k).state = 0
  let (id, s1) := s.newId
  let m : MCmd :=
    { id := id, pid := x.pid, kind := if sparse then .mmas else .mma, gid := x.gid, wid := x.wid, lanes := x.lanes, flag := none,
      slotA := (g.slot a).phys, slotB := (g.slot b).phys, lslotA := a, lslotB := b, tile := k, fmta := f.fmta.toNat, fmtb := f.fmtb.toNat,
      z := f.func.getLsbD 0, rows := extentOf (ext % 256) 128, cols := extentOf (ext / 256 % 256) 128,
      kext := extentOf (ext / 65536 % 65536) full, prov := xProv f, first := first, ovtrap := x.ovtrap,
      needs := slotFills s x.core x.gid a ++ slotFills s x.core x.gid b }
  let s2 := (s1.modSlot x.gid a Slot.more)
  let s3 := if a = b then s2 else s2.modSlot x.gid b Slot.more
  let s4 := if first then
      (s3.modTile x.gid k fun t => { t with state := 1, pred := f.prov.toNat % 64 }).modTile x.gid (k + 1) fun t => { t with state := 2 }
    else s3
  s4.enqueue x.core x.queue m

/-- In reduced service only the bf16 layout is accepted (R373). -/
def stageRefuses (s : State) (f : XFmt) (sparse : Bool) : Bool := s.stage < 2 && (sparse || f.fmta != 8)

def mmaEff (i : Instr) (f : XFmt) (sparse : Bool) (c : Issuer) (s : State) : Except TrapInfo State :=
  match mmaFault c.grp f with
  | some v => .error (c.precise 0x11 v)
  | none =>
    if stageRefuses s f sparse then .error (c.precise 0x09 0)
    else if tileForeign s c f.acc.toNat then .error (c.precise 0x0D 0)
    else
      let ext := if f.func.getLsbD 1 then (c.env.ssrc f.pa).toNat else 0
      let pid := s.fresh
      let s1 := s.addPend c i { id := 0, kind := .engine, ent := 0, lanes := 0 }
      .ok (submitMma c.grp f sparse ext
        { gid := c.ref.gid, wid := c.ref.wid, lanes := c.split.held, pid := pid, core := c.grp.core, queue := c.warp.bay,
          ovtrap := c.warp.fpctl.getLsbD 6 } s1)

def ckExt (e : Env) (f : XFmt) : Ck := if f.func.getLsbD 1 then ckS1 e f.pa else []

def execMma (f : XFmt) (s : State) : Host.Outcome State Fault Refusal :=
  issue (.mma f) (fun c => ckMma c.grp f false ++ ckExt c.env f) (mmaEff (.mma f) f false) s

def execMmas (f : XFmt) (s : State) : Host.Outcome State Fault Refusal :=
  issue (.mmas f) (fun c => ckMma c.grp f true ++ ckExt c.env f) (mmaEff (.mmas f) f true) s

/-! ## MZERO, MACCLD, MACCST (R114) -/

/-- A transfer of a NORMAL tile is queued. -/
def transferEff (i : Instr) (f : XFmt) (m : MCmd) (c : Issuer) (s : State) : Except TrapInfo State :=
  let k := f.acc.toNat
  let st := (c.grp.tile k).state
  if st != 0 then .error (c.precise 0x11 (slotTval true k st))
  else if tileForeign s c k then .error (c.precise 0x0D 0)
  else
    let pid := s.fresh
    let s1 := s.addPend c i { id := 0, kind := .engine, ent := 0, lanes := 0 }
    let (id, s2) := s1.newId
    .ok (s2.enqueue c.grp.core c.warp.bay
      { m with id := id, pid := pid, gid := c.ref.gid, wid := c.ref.wid, lanes := c.split.held, tile := k,
               count := cntOf c.warp c.grp, warn := c.warp.fpctl.getLsbD 4 })

/-- A command with nothing set but its kind. -/
def bareCmd (k : MKind) : MCmd := { id := 0, kind := k, gid := 0, wid := 0, lanes := 0, flag := none }

def execMzero (f : XFmt) (s : State) : Host.Outcome State Fault Refusal :=
  issue (.mzero f) (fun c => ckX9 f false false true false false false false false 1 ++ ckTile c.grp f.acc.toNat)
    (transferEff (.mzero f) f { bareCmd .mzero with clear := f.func = 1 }) s

/-- A transfer's addresses, checked (R114): its rows are w bytes wide. R114 and R333 give MISALIGNED an address as TVAL; for a pitch that is
no multiple of 16 the model gives the pitch (log 112). -/
def rowsFault (c : Issuer) (a pitch w : Nat) : Option TrapInfo :=
  if a % 16 != 0 then some (c.precise 0x0A a)
  else if pitch % 16 != 0 then some (c.precise 0x0A pitch)
  else if c.grp.benchSize < a + 127 * pitch + 128 * w then some (c.precise 0x09 a)
  else none

def rowsEff (i : Instr) (f : XFmt) (w : Nat) (m : MCmd) (c : Issuer) (s : State) : Except TrapInfo State :=
  let a := (c.env.ssrc f.pa).toNat
  let p := (c.env.ssrc f.pb).toNat
  match rowsFault c a p w with
  | some t => .error t
  | none => transferEff i f { m with addr := a, pitch := p } c s

def ckRows (c : Issuer) (f : XFmt) (func : Nat) : Ck :=
  ckX9 f false false true true true false false false func ++ ckTile c.grp f.acc.toNat ++ ckS1 c.env f.pa ++ ckS1 c.env f.pb

def execMaccld (f : XFmt) (s : State) : Host.Outcome State Fault Refusal :=
  issue (.maccld f) (fun c => ckRows c f 1) (rowsEff (.maccld f) f 4 { bareCmd .maccld with clear := f.func = 1 }) s

/-- The form and the round code of MACCST. -/
def stForm (f : XFmt) : Nat := f.func.toNat % 4
def stRound (f : XFmt) : Nat := f.func.toNat / 4 % 8

def ckMaccst (c : Issuer) (f : XFmt) : Ck :=
  ckRows c f 31 ++
  ([(stForm f = 3, 2), (stForm f = 0 && stRound f != 0, 2), (stRound f = 4 || stRound f = 6 || stRound f = 7, 5),
    (stRound f = 5 && c.warp.fpctl.toNat % 8 = 4, 5)] : Ck)

def execMaccst (f : XFmt) (s : State) : Host.Outcome State Fault Refusal :=
  issue (.maccst f) (fun c => ckMaccst c f)
    (fun c t => rowsEff (.maccst f) f (if stForm f = 0 then 4 else 2)
      { bareCmd .maccst with form := stForm f, rnd := if stRound f = 5 then c.warp.fpctl.toNat % 8 else stRound f } c t) s

/-! ## MRESOLVE (R125) -/

/-- The provisional commands on a tile that have not started, issued since its last MRESOLVE; one that a restore has put back in its queue
with a subtile written has started (R125, R127). -/
def unstarted (k : Core) (gid t : Nat) : List MCmd :=
  let queued := k.queues.flatMap (·.2)
  let last := (queued.filter fun m => m.gid = gid && m.kind = .mresolve && m.tile = t).foldl (fun a m => max a m.id) 0
  queued.filter fun m => m.gid = gid && m.prov && m.tile = t && last ≤ m.id && m.sub = 0

/-- A dropped command: its readers and its operation are done. -/
def State.dropCmd (s : State) (m : MCmd) : State :=
  let s1 := s.modSlot m.gid m.lslotA Slot.less
  let s2 := if m.lslotA = m.lslotB then s1 else s1.modSlot m.gid m.lslotB Slot.less
  s2.complete m.gid m.wid m.pid

/-- The tile and its partner leave the provisional state where MRESOLVE issues (log 28); a discard drops what has not started. -/
def mresolveEff (f : XFmt) (c : Issuer) (s : State) : Except TrapInfo State :=
  let k := f.acc.toNat
  let t := c.grp.tile k
  if t.state != 1 then .error (c.precise 0x11 (slotTval true k t.state))
  else if tileForeign s c k then .error (c.precise 0x0D 0)
  else
    let commit := c.env.sca t.pred != 0
    let drop := if commit then [] else unstarted (s.core c.grp.core) c.ref.gid k
    let s1 := s.modCore c.grp.core fun q =>
      { q with queues := q.queues.map fun (p : Nat × List MCmd) => (p.1, p.2.filter fun m => !drop.any (·.id = m.id)) }
    let s2 := drop.foldl State.dropCmd s1
    let s3 := (s2.modTile c.ref.gid k fun t => { t with state := 0 }).modTile c.ref.gid (k + 1) fun t => { t with state := 0 }
    let pid := s3.fresh
    let s4 := s3.addPend c (.mresolve f) { id := 0, kind := .engine, ent := 0, lanes := 0 }
    let (id, s5) := s4.newId
    .ok (s5.enqueue c.grp.core c.warp.bay
      { bareCmd .mresolve with id := id, pid := pid, gid := c.ref.gid, wid := c.ref.wid, lanes := c.split.held, tile := k,
                               commit := commit, snap := !commit && !drop.any (·.first) })

def execMresolve (f : XFmt) (s : State) : Host.Outcome State Fault Refusal :=
  issue (.mresolve f) (fun c => ckX9 f false false true false false false false false 0 ++ ckTile c.grp f.acc.toNat) (mresolveEff f) s

/-! ## MSTAT (R130) -/

/-- The core's budget in a window: halved while its die is hot (R129, R374); 0 means unlimited. -/
def State.budgetOf (s : State) (core : Nat) : Nat :=
  if s.halfBudget.contains (coreDie core) && s.conf.budget != 0 then max 1 (s.conf.budget / 2) else s.conf.budget

/-- The status record of the group's slots and tiles. -/
def statusRecord (s : State) (g : Group) : List Byte :=
  let k := s.core g.core
  let states := (List.range g.slotCount).foldl (fun a i => a + (g.slot i).state * 4 ^ i) 0
  let tiles := (List.range 8).foldl (fun a i => a + (if i < g.tileCount then (g.tile i).state else 15) * 16 ^ i) 0
  ((List.range 8).flatMap fun i =>
      if i < g.tileCount then [BitVec.ofNat 8 (g.tile i).ovf, BitVec.ofNat 8 (g.tile i).nan] else [0, 0]) ++
    natBytes 8 states ++ natBytes 4 tiles ++ natBytes 4 0 ++ natBytes 4 (s.budgetOf g.core) ++ natBytes 4 k.used ++
    natBytes 8 (s.cycle / 1024) ++ natBytes 16 0 ++
    (List.range 32).flatMap fun i => natBytes 2 (if i < g.slotCount then (g.slot i).estimate else 0)

def mstatEff (f : XFmt) (c : Issuer) (s : State) : Except TrapInfo State :=
  let a := (c.env.ssrc f.pa).toNat
  match benchFault c a 128 64 with
  | some t => .error t
  | none =>
    let key := benchKey c.grp.core (c.grp.benchBase + a)
    let s0 := s.raceCheck c.ref.gid c.ref.wid s.fresh c.split.held [⟨0, 0, a, key, 128, ⟨.bench, c.grp.core⟩⟩]
    let s1 := s0.store c.grp.core key (statusRecord s c.grp) (s.stampFor c.ref.gid c.ref.wid (cntOf c.warp c.grp) key)
    let s2 := if f.func = 1 then
        s1.modGroup c.ref.gid fun g => { g with tiles := g.tiles.map fun (p : Nat × Tile) => (p.1, { p.2 with ovf := 0, nan := 0 }) }
      else s1
    .ok (s2.later c (.mstat f) 8 [])

def execMstat (f : XFmt) (s : State) : Host.Outcome State Fault Refusal :=
  issue (.mstat f) (fun c => ckX9 f false false false true false false false false 1 ++ ckS1 c.env f.pa) (mstatEff f) s

end Sys2Proof.Machine
end

