-- ==== Sys2Proof/Machine/Sequencer.lean ====
section
/-! DEFINITION. The matrix sequencer: the Glover (R117, R118), a subtile and its check (R122, R123), arbitration and the budget
(R128, R129), completions and deferred traps (R119, R120), provisional tiles (R124, R125), fills (R108, R110, R111). -/

namespace Sys2Proof.Machine

/-! ## Elements of a slot (R48, R49, R52, R53, R107) -/

/-- The format that a header's tag names in a layout (R53). -/
def memberOf (lay tag : Nat) : Narrow :=
  match lay with
  | 0 => narrow8 tag
  | 1 => (match tag with
    | 0 => .e4m3 | 1 => .int8 | 2 => .e2m1 | _ => .int4)
  | _ => narrow4 tag

/-- Where the operand of a row stands: the slot's bytes, its layout and whether it is read in the sparse layout. -/
structure Operand where
  core   : Nat
  slot   : Nat
  lay    : Nat
  sparse : Bool
  deriving DecidableEq, Repr

def Operand.byte (o : Operand) (m : List Host.Cell) (off : Nat) : Nat := (rdByte m (slotKey o.core o.slot off)).toNat

/-- The header of block b of a row. -/
def Operand.header (o : Operand) (m : List Host.Cell) (r b : Nat) : Nat :=
  rdNat m (slotKey o.core o.slot (12288 + 2 * (r * blocksOf o.lay + b))) 2

/-- The position mask of group b of a row (R107). -/
def Operand.positions (o : Operand) (m : List Host.Cell) (r b : Nat) : Nat :=
  rdNat m (slotKey o.core o.slot (6144 + 24 * r + 3 * b)) 3

/-- The nibble at a nibble index from a byte offset. -/
def Operand.nibble (o : Operand) (m : List Host.Cell) (off i : Nat) : Nat := o.byte m (off + i / 2) / 16 ^ (i % 2) % 16

/-- The decoded element i of block b of row r, without the block scale; NaN under a NaN scale (R52), zero where not kept (R117). Where both
hold, NaN is the model's choice (log 114). -/
def Operand.elem (o : Operand) (m : List Host.Cell) (r b i : Nat) : Val :=
  if o.lay = 8 then bf16.decode (rdNat m (slotKey o.core o.slot (96 * r + 2 * (24 * b + i))) 2)
  else
    let h := o.header m r b
    let k := memberOf o.lay (h / 64 % 4)
    let special := h / 4 % 16
    if h / 256 = 255 then .nan
    else if o.sparse then
      let p := o.positions m r b
      if bitOf p i then
        k.decode special (o.nibble m (48 * r) (12 * b + ((List.range i).filter fun j => bitOf p j).length))
      else .fin false 0 0
    else
      let off := 96 * r + 96 / blocksOf o.lay * b
      k.decode special (if k.bits = 8 then o.byte m (off + i) else o.nibble m off i)

/-- The exponent of the block scale. -/
def Operand.scale (o : Operand) (m : List Host.Cell) (r b : Nat) : Int := if o.lay = 8 then 0 else ((o.header m r b / 256 : Nat) : Int) - 127

/-! ## The Glover (R118, R119) -/

/-- A value rounded to F24 under RNE. -/
def toF24 (v : Val) : Val := f24.decode (f24.encode .rne v).1
def Val.finite : Val → Bool
  | .fin _ _ _ => true
  | _ => false

/-- A value of a chain, with whether a genuine overflow has occurred in it (R119). -/
structure Step where
  val : Val
  ovf : Bool
  deriving DecidableEq, Repr

/-- The sum of two values of a chain, rounded. -/
def stepAdd (a b : Val) : Step :=
  let r := toF24 (a.add false b)
  ⟨r, a.finite && b.finite && r.isInf⟩

/-- The queues, the partial sum and the overflow of a block (R118); nan says that a product was a NaN. -/
structure Glove where
  qp  : List Val := []
  qn  : List Val := []
  p   : Option Val := none
  ovf : Bool := false
  nan : Bool := false
  deriving DecidableEq, Repr

/-- add(P, v). -/
def Glove.into (g : Glove) (v : Val) : Glove :=
  match g.p with
  | none => { g with p := some v }
  | some p =>
    let t := stepAdd p v
    { g with p := some t.val, ovf := g.ovf || t.ovf }

/-- The pair that leaves when both queues hold products. -/
def Glove.pair (g : Glove) : Glove :=
  match g.qp, g.qn with
  | a :: qp, b :: qn =>
    let t := stepAdd a b
    ({ g with qp := qp, qn := qn, ovf := g.ovf || t.ovf }).into t.val
  | _, _ => g

/-- A product arrives. -/
def Glove.push (g : Glove) (a b : Val) : Glove :=
  if g.nan then g
  else
    let x := a.mul b
    if x.isNan then { g with nan := true }
    else if x.isZero then g
    else
      let p := toF24 x
      let g1 := { g with ovf := g.ovf || (a.finite && b.finite && p.isInf) }
      if x.isNeg then
        let g2 := match g1.qn, g1.qp with
          | o :: rest, [] => if rest.length = 5 then ({ g1 with qn := rest }).into o else g1
          | _, _ => g1
        ({ g2 with qn := g2.qn ++ [p] }).pair
      else
        let g2 := match g1.qp, g1.qn with
          | o :: rest, [] => if rest.length = 5 then ({ g1 with qp := rest }).into o else g1
          | _, _ => g1
        ({ g2 with qp := g2.qp ++ [p] }).pair

/-- One level of the residue tree. -/
def treeLevel : List Val → List Val × Bool
  | a :: b :: t =>
    let s := stepAdd a b
    let (r, o) := treeLevel t
    (s.val :: r, s.ovf || o)
  | l => (l, false)

/-- The residue of a queue of at most six. -/
def treeSum (q : List Val) : List Val × Bool :=
  let (a, o1) := treeLevel q
  let (b, o2) := treeLevel a
  let (c, o3) := treeLevel b
  (c, o1 || o2 || o3)

def Glove.residue (g : Glove) (q : List Val) : Glove :=
  match treeSum q with
  | (v :: _, o) => ({ g with ovf := g.ovf || o }).into v
  | _ => g

/-- The block's sum. -/
def Glove.sum (g : Glove) : Step :=
  if g.nan then ⟨.nan, g.ovf⟩
  else
    let h := (g.residue g.qp).residue g.qn
    ⟨h.p.getD (.fin false 0 0), h.ovf⟩

/-- glover_block of output element (i, j), block b. -/
def gloverBlock (m : List Host.Cell) (a b : Operand) (i j k kext : Nat) : Step :=
  ((List.range (min 24 (kext - 24 * k))).foldl (fun g t => g.push (a.elem m i k t) (b.elem m j k t)) ({} : Glove)).sum

/-- An exact value times a power of two. -/
def Val.scaled (v : Val) (e : Int) : Val :=
  match v with
  | .fin n m x => .fin n m (x + e)
  | w => w

/-- One block's contribution to an output element: the scaling and the tile addition (R117). -/
def blockStep (m : List Host.Cell) (a b : Operand) (i j kext : Nat) (t : Step) (k : Nat) : Step :=
  if kext ≤ 24 * k then t
  else
    let s := gloverBlock m a b i j k kext
    let x := toF24 (s.val.scaled (a.scale m i k + b.scale m j k))
    let u := stepAdd t.val x
    ⟨u.val, t.ovf || s.ovf || (s.val.finite && x.isInf) || u.ovf⟩

/-- The new value of an output element (R117). -/
def elementOf (m : List Host.Cell) (a b : Operand) (kext i j : Nat) (start : Val) : Step :=
  (List.range (blocksOf a.lay)).foldl (blockStep m a b i j kext) ⟨start, false⟩

/-! ## Checksums (R122) -/

/-- M. -/
def resMod : Nat := 2 ^ 31 - 1
/-- The residue of a value; 0 for one that is not finite. -/
def resOf : Val → Nat
  | .fin neg m e => ((if neg then -(m : Int) else m) % resMod).toNat * 2 ^ (e % 31).toNat % resMod
  | _ => 0

/-- The scaled elements of a row in block b at the K indices ks of the block. -/
def Operand.scaled (o : Operand) (m : List Host.Cell) (r b : Nat) (ks : List Nat) : List Val :=
  ks.map fun k => (o.elem m r b k).scaled (o.scale m r b)

def sumNat (l : List Nat) : Nat := l.foldl (· + ·) 0

/-- The operand side of rows a' and columns b', each a list over k. -/
def operandSide (n : Nat) (as bs : List (List Val)) : Nat :=
  sumNat ((List.range n).map fun k =>
    sumNat (as.map fun r => resOf (r.getD k .nan)) * sumNat (bs.map fun r => resOf (r.getD k .nan))) % resMod
/-- The product side, over the products as the array delivers them. -/
def productSide (n : Nat) (as bs : List (List Val)) : Nat :=
  sumNat ((List.range n).map fun k =>
    sumNat (as.map fun r => sumNat (bs.map fun q => resOf ((r.getD k .nan).mul (q.getD k .nan))))) % resMod

/-! ## A command on the array (R116, R117, R123) -/

def MCmd.opA (c : MCmd) (core : Nat) : Operand := ⟨core, c.slotA, c.fmta, c.kind = .mmas⟩
def MCmd.opB (c : MCmd) (core : Nat) : Operand := ⟨core, c.slotB, c.fmtb, false⟩

/-- A tile's element: its address, and its value as F24 (R46). -/
def tileAt (g : Group) (tile i j : Nat) : Nat := tileKey g.core (g.tileBase + tile) i j
def tileVal (m : List Host.Cell) (g : Group) (tile i j : Nat) : Val := f24.decode (rdNat m (tileAt g tile i j) 4 / 256)
def tileWord (v : Val) : List Byte := natBytes 4 ((f24.encode .rne v).1 * 256)

/-- The in-extent elements of a subtile, rows first (R117). -/
def subtileCells (sub rows cols : Nat) : List (Nat × Nat) :=
  (upFrom (32 * (sub / 4)) 32).flatMap fun i =>
    if i < rows then ((upFrom (32 * (sub % 4)) 32).filter (· < cols)).map fun j => (i, j) else []

/-- A subtile computed: memory with its elements written, and what its elements count (R117, R119). -/
def runSubtile (m : List Host.Cell) (g : Group) (c : MCmd) : List Host.Cell × List (Nat × Nat) × Nat :=
  let r := (subtileCells c.sub c.rows c.cols).map fun (i, j) =>
    let old := tileVal m g c.tile i j
    let t := elementOf m (c.opA g.core) (c.opB g.core) c.kext i j (if c.z then .fin true 0 0 else old)
    (i, j, t, t.val.isNan && !old.isNan)
  (r.foldl (fun m x => wrBytes m (tileAt g c.tile x.1 x.2.1) (tileWord x.2.2.1.val)) m,
    (r.filter fun x => x.2.2.1.ovf).map fun x => (x.1, x.2.1), (r.filter fun x => x.2.2.2).length)

/-- The rows or columns below an extent in the band of 32 that a subtile covers. -/
def bandOf (k extent : Nat) : List Nat := (upFrom (32 * k) 32).filter (· < extent)

/-- The two sums of a subtile agree in every block (R122). err is what a multiplier fault adds to the product side of the first block. -/
def subtileAgrees (m : List Host.Cell) (c : MCmd) (core err : Nat) : Bool :=
  (List.range (blocksOf c.fmta)).all fun b =>
    let ks := List.range (min 24 (c.kext - 24 * b))
    let as := (bandOf (c.sub / 4) c.rows).map fun i => (c.opA core).scaled m i b ks
    let bs := (bandOf (c.sub % 4) c.cols).map fun j => (c.opB core).scaled m j b ks
    (productSide ks.length as bs + if b = 0 then err else 0) % resMod = operandSide ks.length as bs

/-- The array cycles of a subtile, which reduced service lengthens (R116, R373). -/
def MCmd.cycles (c : MCmd) (stage : Nat) : Nat := if c.kind = .mmas then 3 else if stage < 2 then 24 else 6

/-- Elements of one tile copied to another, as they stand. -/
def copyTile (m : List Host.Cell) (core dst src : Nat) : List Host.Cell :=
  wrBytes m (tileKey core dst 0 0) (rdBytes m (tileKey core src 0 0) 65536)

/-- The byte offset of the first position mask that does not hold twelve positions (R116). -/
def badMaskOf (m : List Host.Cell) (o : Operand) : Option Nat :=
  (List.range 1024).findSome? fun n =>
    if popCount (BitVec.ofNat 64 (o.positions m (n / 8) (n % 8))) = 12 then none else some (6144 + 3 * n)

/-! ## Arbitration and the budget (R128, R129) -/

/-- A discard, which restores its tile when it starts (R125). -/
def MCmd.restores (c : MCmd) : Bool := c.kind = .mresolve && !c.commit

/-- The charge of a command: a discard's restore is not charged. -/
def charge (g : Group) (c : MCmd) : Nat :=
  match c.kind with
  | .mma => 64 + ((g.slot c.lslotA).estimate + (if c.lslotA = c.lslotB then 0 else (g.slot c.lslotB).estimate)) / 8
  | .mmas => 64 + ((g.slot c.lslotA).estimate + (if c.lslotA = c.lslotB then 0 else (g.slot c.lslotB).estimate)) / 8
  | _ => if c.restores then 0 else 64

/-- The tiles that a command acts on. -/
def MCmd.tiles (c : MCmd) : List Nat := if c.first || c.kind = .mresolve then [c.tile, c.tile + 1] else [c.tile]
/-- Every earlier command on its tiles has completed (R113). -/
def inTurn (k : Core) (c : MCmd) : Bool :=
  !k.commands.any fun m => m.id < c.id && c.tiles.any fun t => m.onTile c.gid t

/-- The last command of a core's queues that must still run for an engine command of a task that is being saved to complete: a reader of the slot
that it fills, or the head of the queue that its follow-on finds full (R108, R126, R318). -/
def Core.savesUpTo (k : Core) (mine : Nat → Bool) : Nat :=
  k.engine.foldl (fun a e =>
    if !mine e.gid then a
    else
      let a := e.needs.foldl (fun a id => if a < id + 1 && k.commands.any (·.id = id) then id + 1 else a) a
      let q := (flook 4 k.queues).getD []
      if e.follow.isSome && 4 ≤ q.length then max a ((q.map (·.id + 1)).headD 0) else a) 0

/-- A command's task is being saved: it stays in its queue, unless an engine command that must complete waits for it (R318, log 134). -/
def State.savingCmd (s : State) (core : Nat) (c : MCmd) : Bool :=
  match (s.group? c.gid).map fun g => (g.task, s.taskOf g) with
  | some (task, some t) =>
    t.saving && (s.core core).savesUpTo (fun gid => ((s.group? gid).map (·.task)) = some task) ≤ c.id
  | _ => false

/-- A queue's head is eligible (R128). -/
def eligible (s : State) (core : Nat) (c : MCmd) : Bool :=
  let k := s.core core
  let n := charge ((s.group? c.gid).getD { task := 0, index := 0, core := core, crew := 0 }) c
  c.needs.all (fun id => !k.engine.any (·.id = id)) && inTurn k c && !s.savingCmd core c &&
    (s.budgetOf core = 0 || k.used = 0 || n = 0 || k.used + n ≤ s.budgetOf core)

/-- The head that starts: one that three others have passed, else the one with the lowest charge; ties to the lower queue. -/
def pickHead : List (Nat × MCmd × Nat) → Option (Nat × MCmd × Nat)
  | [] => none
  | x :: t =>
    match pickHead t with
    | none => some x
    | some y =>
      let px := 3 ≤ x.2.1.passed
      let py := 3 ≤ y.2.1.passed
      if px != py then (if px then some x else some y) else if y.2.2 < x.2.2 then some y else some x

/-- The eligible heads of a core's queues with their charges. -/
def heads (s : State) (core : Nat) : List (Nat × MCmd × Nat) :=
  (List.range 5).filterMap fun q => match flook q (s.core core).queues with
    | some (c :: _) => if eligible s core c then (s.group? c.gid).map fun g => (q, c, charge g c) else none
    | _ => none

/-- The head that the array starts in this cycle: it runs one command at a time, and starts the next in the cycle after the last array cycle
of the one before (R126). -/
def nextHead (s : State) (core : Nat) : Option (Nat × MCmd × Nat) :=
  if (s.core core).running.isSome || s.cycle < (s.core core).arrayFrom then none else pickHead (heads s core)

/-- A head has been passed once more. -/
def passHead : List MCmd → List MCmd
  | c :: t => { c with passed := c.passed + 1 } :: t
  | [] => []

/-- A head leaves its queue with its charge, ahead of the other eligible ones (R128, R129). -/
def State.takeHead (s : State) (core q n : Nat) : State :=
  let past := (heads s core).map (·.1)
  s.modCore core fun k =>
    { k with used := k.used + n,
             queues := k.queues.map fun (p : Nat × List MCmd) =>
               (p.1, if p.1 = q then p.2.drop 1 else if past.contains p.1 then passHead p.2 else p.2) }

/-- A command is off the array, or keeps it for some cycles, and completes later. -/
def State.finishing (s : State) (core busy n : Nat) (c : MCmd) : State :=
  s.modCore core fun k =>
    { k with finishing := k.finishing ++ [{ c with ends := s.cycle + n }], arrayFrom := max k.arrayFrom (s.cycle + busy) }

/-- A command starts on the array (R114, R116, R124). -/
def startCmd (s : State) (core q : Nat) (g : Group) (c : MCmd) : State :=
  let wait := if c.first && c.sub = 0 then 16 else 0
  match c.kind with
  | .mma | .mmas =>
    let s1 := if c.first && c.sub = 0 then
        let t := { s with mem := copyTile s.mem core (g.tileBase + c.tile + 1) (g.tileBase + c.tile) }
        t.modTile c.gid (c.tile + 1) fun x => { x with ovf := (g.tile c.tile).ovf, nan := (g.tile c.tile).nan }
      else s
    match (if c.kind = .mmas then badMaskOf s.mem (c.opA core) else none) with
    | some off =>
      let n := wait + c.cycles s.stage
      s1.finishing core n (n + 11) { c with badMask := some off }
    | none => s1.modCore core fun k => { k with running := some (q, { c with ends := s.cycle + wait - c.cycles s.stage * c.sub }) }
  | .mzero => s.finishing core 16 16 c
  | .mresolve => s.finishing core 0 0 c
  | _ => s.finishing core 128 128 c

/-- The array starts the eligible queue head with the lowest charge, and charges the budget (R126, R128, R129). -/
def execMatrixCommandStart (core : Nat) (s : State) : Host.Outcome State Fault Refusal :=
  match nextHead s core with
  | none => .next s
  | some (q, c, n) =>
    match s.group? c.gid with
    | none => .next s
    | some g => .next (if c.restores then s else startCmd (s.takeHead core q n) core q g c)

/-- A new budget window: what is charged starts again (R129). -/
def execBudgetWindowStart (s : State) : Host.Outcome State Fault Refusal :=
  .next (if s.cycle % 1024 = 0 then { s with cores := s.cores.map fun (p : Nat × Core) => (p.1, { p.2 with used := 0 }) } else s)

/-! ## A subtile's check (R122, R123) -/

/-- A checksum record (R358). -/
def checkRecord (s : State) (c : MCmd) (fatal : Bool) : State :=
  match (s.warp? c.gid c.wid).bind (·.pend? c.pid) with
  | some q => s.scrivWarp c.gid c.wid q.ent 0x09 (BitVec.ofNat 64 (c.tile + c.sub * 256 + if fatal then 4096 else 0))
  | none => s

/-- A passed subtile is written: the command goes on with the next one, or has left the array; one whose task is being saved goes back to
its queue (R116, R127). -/
def afterSubtile (s : State) (core q : Nat) (d : MCmd) : State :=
  if d.sub = 16 then (s.finishing core 1 12 d).modCore core fun k => { k with running := none }
  else if s.savingCmd core d then
    s.modCore core fun k => { k with running := none, arrayFrom := s.cycle + 1, queues := fput q (d :: (flook q k.queues).getD []) k.queues }
  else s.modCore core fun k => { k with running := some (q, d) }

/-- The running subtile is checked: it passes and is written; at its first mismatch it is run again; at a second one the command
stops. err is what a multiplier fault has added to its products' residues. -/
def execSubtileCheck (core err : Nat) (s : State) : Host.Outcome State Fault Refusal :=
  match (s.core core).running with
  | none => .next s
  | some (q, c) =>
    match s.group? c.gid with
    | none => .next (s.modCore core fun k => { k with running := none })
    | some g =>
      if s.cycle + 1 < c.ends + c.cycles s.stage * (c.sub + 1) then .next s
      else if !subtileAgrees s.mem c core err then
        (if c.reran then
          .next (((checkRecord s c true).finishing core 1 12 { c with fatal := some c.sub }).modCore core fun k => { k with running := none })
         else .next (s.modCore core fun k => { k with running := some (q, { c with reran := true, ends := c.ends + c.cycles s.stage }) }))
      else
        let (m, ov, nn) := runSubtile s.mem g c
        let s1 := if c.reran then checkRecord { s with mem := m } c false else { s with mem := m }
        let d := { c with sub := c.sub + 1, reran := false, ovfs := c.ovfs ++ ov, nans := c.nans + nn }
        .next (afterSubtile s1 core q d)

/-! ## Completion (R114, R119, R120, R125) -/

/-- The first of some cells, counting rows first. -/
def firstCell : List (Nat × Nat) → Nat × Nat
  | [] => (0, 0)
  | [x] => x
  | x :: t =>
    let y := firstCell t
    if y.1 < x.1 || (y.1 = x.1 && y.2 < x.2) then y else x

/-- The deferred trap of a completed tile product (R116, R120, R123). -/
def mmaTrap (c : MCmd) : Option TrapInfo :=
  match c.fatal, c.badMask with
  | some sub, _ => some { cause := 0x12, tval := BitVec.ofNat 64 (c.tile + sub * 256) }
  | none, some off => some { cause := 0x13, tval := BitVec.ofNat 64 (off + c.lslotA * 65536) }
  | none, none =>
    if c.ovtrap && c.ovfs != [] then
      let (i, j) := firstCell c.ovfs
      some { cause := 0x10, tval := BitVec.ofNat 64 (c.tile + i * 256 + j * 32768) }
    else none

/-- A range of a group's bench. -/
def benchSpot (g : Group) (a n : Nat) : Spot := ⟨0, 0, a, benchKey g.core (g.benchBase + a), n, ⟨.bench, g.core⟩⟩

/-- Bytes of the bench as a fill reads them, and the unwritten words among them. -/
def benchRead (s : State) (g : Group) (a n : Nat) : List Byte × List Nat :=
  ((s.scratchBytes g (benchSpot g a n)).bytes, s.unwritten [benchSpot g a n])

/-- A command's reads of the bench: their race check, the errors that they correct, and what was poisoned among them, which is the
operation's to report (R236, R344). -/
def State.consumes (s : State) (g : Group) (gid wid pid : Nat) (lanes : Mask) (l : List Spot) : State :=
  let bad := l.foldl (fun a x => least a (s.scratchBytes g x).bad) none
  (l.foldl (fun s x => s.correct x.key x.n) (s.raceCheck gid wid pid lanes l)).modPend gid wid pid fun q =>
    { q with bad := bad.map (BitVec.ofNat 64), offs := true }

/-- Rows of the bench read into a tile, unwritten words as zero: memory, and the lowest unwritten address (R110, R114). -/
def loadTile (s : State) (g : Group) (c : MCmd) : List Host.Cell × List Nat :=
  (List.range 128).foldl (fun a i =>
    let x := benchSpot g (c.addr + i * c.pitch) 512
    let bs := (s.scratchBytes g x).bytes
    ((List.range 128).foldl (fun m j => wrBytes m (tileAt g c.tile i j) (0 :: (bs.drop (4 * j + 1)).take 3)) a.1, a.2 ++ s.unwritten [x]))
    (s.mem, [])

/-- The bytes of an element in a form of MACCST, and its STICKY bits (R70, R114): the F24 word is exact, with a NaN canonical (R47). -/
def storedElem (form rnd : Nat) (v : Val) : List Byte × Word :=
  let r : Rnd := match rnd with
    | 1 => .rz | 2 => .rd | 3 => .ru | _ => .rne
  match form with
  | 0 => (tileWord v, (f24.encode .rne v).2)
  | 1 => (natBytes 2 (bf16.encode r v).1, (bf16.encode r v).2)
  | _ => (natBytes 2 (f16.encode r v).1, (f16.encode r v).2)

/-- A row of a tile as MACCST writes it. -/
def storedRow (m : List Host.Cell) (g : Group) (c : MCmd) (i : Nat) : List Byte × Word :=
  (List.range 128).foldl (fun a j =>
    let (bs, st) := storedElem c.form c.rnd (tileVal m g c.tile i j)
    (a.1 ++ bs, a.2 ||| st)) ([], 0)

/-- Unwritten bench words that a command read: a warning, or a deferred trap (R110, R212). -/
def State.unwrittenRead (s : State) (gid wid pid : Nat) (lanes : Mask) (warn : Bool) (l : List Nat) : State :=
  match l with
  | [] => s
  | w :: ws =>
    let low := BitVec.ofNat 64 (ws.foldl min w)
    if warn then
      match (s.warp? gid wid).bind (·.pend? pid) with
      | some q => s.scrivWarp gid wid q.ent 0x0A low
      | none => s
    else s.defer gid wid pid lanes { cause := 0x0B, tval := low } none

/-- A deferred trap held for a provisional tile is delivered or dropped (R120, R125). -/
def Deferred.settle (t : Nat) (commit : Bool) (d : Deferred) : Option Deferred :=
  if d.tile = some t then (if commit then some { d with tile := none } else none) else some d
def State.settleHeld (s : State) (gid t : Nat) (commit : Bool) : State :=
  s.modGroup gid fun g => { g with deferred := g.deferred.filterMap (Deferred.settle t commit) }

/-- What a command does when it completes. -/
def finishCmd (s : State) (g : Group) (c : MCmd) : State :=
  match c.kind with
  | .mma | .mmas =>
    let s1 := s.modSlot c.gid c.lslotA Slot.less
    let s2 := if c.lslotA = c.lslotB then s1 else s1.modSlot c.gid c.lslotB Slot.less
    let s3 := s2.modTile c.gid c.tile fun t => { t with ovf := min 255 (t.ovf + c.ovfs.length), nan := min 255 (t.nan + c.nans) }
    let s4 := s3.complete c.gid c.wid c.pid
    match mmaTrap c with
    | some t => s4.defer c.gid c.wid c.pid c.lanes t (if c.prov then some c.tile else none)
    | none => s4
  | .mzero =>
    let s1 := { s with mem := s.mem.filter fun p => !(tileAt g c.tile 0 0 ≤ p.1 && p.1 < tileAt g c.tile 0 0 + 65536) }
    (s1.modTile c.gid c.tile fun t => if c.clear then { t with ovf := 0, nan := 0 } else t).complete c.gid c.wid c.pid
  | .maccld =>
    let s0 := s.consumes g c.gid c.wid c.pid c.lanes ((List.range 128).map fun i => benchSpot g (c.addr + i * c.pitch) 512)
    let (m, bad) := loadTile s0 g c
    let s1 := ({ s0 with mem := m }).modTile c.gid c.tile fun t => if c.clear then { t with ovf := 0, nan := 0 } else t
    if c.warn then (s1.unwrittenRead c.gid c.wid c.pid c.lanes true bad).complete c.gid c.wid c.pid
    else (s1.complete c.gid c.wid c.pid).unwrittenRead c.gid c.wid c.pid c.lanes false bad
  | .maccst =>
    let w := if c.form = 0 then 512 else 256
    let s0 := s.raceCheck c.gid c.wid c.pid c.lanes ((List.range 128).map fun i => benchSpot g (c.addr + i * c.pitch) w)
    let (t, st) := (List.range 128).foldl (fun (a : State × Word) i =>
      let (bs, x) := storedRow s.mem g c i
      let key := benchKey g.core (g.benchBase + c.addr + i * c.pitch)
      (a.1.store g.core key bs (s.stampFor c.gid c.wid c.count key), a.2 ||| x)) (s0, 0)
    (t.modPend c.gid c.wid c.pid fun q => { q with sticky := st }).complete c.gid c.wid c.pid
  | .mresolve => (s.complete c.gid c.wid c.pid).settleHeld c.gid c.tile c.commit

/-- A command whose time has come completes (R114, R116, R119, R120, R125). -/
def execMatrixCommandCompletion (core : Nat) (s : State) : Host.Outcome State Fault Refusal :=
  match (s.core core).finishing.find? fun c => c.ends ≤ s.cycle with
  | none => .next s
  | some c =>
    let s1 := s.modCore core fun k => { k with finishing := k.finishing.filter fun m => m.id != c.id }
    match s.group? c.gid with
    | none => .next s1
    | some g => .next (finishCmd s1 g c)

/-- After the commands that had started have completed, a discarded tile is restored from its partner (R125). -/
def execMresolveRestore (core queue : Nat) (s : State) : Host.Outcome State Fault Refusal :=
  match nextHead s core with
  | none => .next s
  | some (q, c, n) =>
    match s.group? c.gid with
    | none => .next s
    | some g =>
      if !(c.restores && q = queue) then .next s
      else
        let s1 := s.takeHead core q n
        let s2 := if c.snap then
            ({ s1 with mem := copyTile s1.mem core (g.tileBase + c.tile) (g.tileBase + c.tile + 1) } : State).modTile c.gid c.tile fun t =>
              { t with ovf := (g.tile (c.tile + 1)).ovf, nan := (g.tile (c.tile + 1)).nan }
          else s1
        .next (s2.finishing core 16 16 c)

/-! ## Fills (R108, R110, R111) -/

/-- The toggle estimate of a slot's data (R111). -/
def toggleEstimate (m : List Host.Cell) (core slot : Nat) : Nat :=
  let beat : Nat → Nat := fun i => rdNat m (slotKey core slot (16 * i)) 16
  let flips : Nat → Nat := fun x => ((List.range 128).filter fun i => bitOf x i).length
  ((List.range 767).foldl (fun a i => a + flips (beat (i + 1) ^^^ beat i)) 0) / 64

/-- A fill has landed: the slot is READY with its estimate (R108, R110, R111). -/
def State.slotReady (s : State) (e : ECmd) (core : Nat) : State :=
  s.modSlot e.gid e.lslot fun x => { x with state := 3, estimate := toggleEstimate s.mem core e.slot }

/-- The readers that a fill waits for have completed (R108). -/
def readersDone (k : Core) (e : ECmd) : Bool := e.needs.all fun id => !k.commands.any (·.id = id)

/-- An MFILL completes: its data and headers are in the slot. One whose slot still has readers begins its writes when they have completed,
and takes its cycles from then (R108, R110). The beats are read in the step that completes it, a moment that R110 leaves open (log 110). -/
def execMfillCompletion (core id : Nat) (s : State) : Host.Outcome State Fault Refusal :=
  let k := s.core core
  match k.engine.find? fun e => e.id = id && e.kind = .mfill with
  | none => .next s
  | some e =>
    match s.group? e.gid with
    | none => .next s
    | some g =>
      if !readersDone k e then .next (s.setCmd core { e with due := s.cycle + 96 + e.hdrLen / 128 })
      else if s.cycle < e.due then .next s
      else
        let (data, b1) := benchRead s g e.srcA e.len
        let (hdr, b2) := benchRead s g e.hdrA e.hdrLen
        let s0 := s.consumes g e.gid e.wid e.pid e.lanes [benchSpot g e.srcA e.len, benchSpot g e.hdrA e.hdrLen]
        let s1 := (s0.wr (slotKey core e.slot 0) data).wr (slotKey core e.slot 12288) hdr
        let s2 := (s1.slotReady e core).modCore core fun k => { k with engine := k.engine.filter fun x => x.id != id }
        .next (if e.warn then (s2.unwrittenRead e.gid e.wid e.pid e.lanes true (b1 ++ b2)).complete e.gid e.wid e.pid
          else (s2.complete e.gid e.wid e.pid).unwrittenRead e.gid e.wid e.pid e.lanes false (b1 ++ b2))

end Sys2Proof.Machine
end

