-- ==== Sys2Proof/Machine/Engines.lean ====
section
/-! DEFINITION. The engine commands, format X (R176 to R186, R256, R262, R267): their checks at issue and the commands they hand
to the engines. -/

namespace Sys2Proof.Machine

/-! ## Fields and blocks (R177, R178) -/

/-- The fields of an engine command that it does not use must be zero; func says which of its bits it uses. -/
def ckEngine (f : XFmt) (obj slota pa pb fmta : Bool) (func : Nat) : Ck :=
  ckPost f.post ++
  ([(!obj && f.obj != 0, 2), (!slota && f.slota != 0, 2), (f.slotb != 0, 2), (f.acc != 0, 2), (!pa && f.pa != 0, 2), (!pb && f.pb != 0, 2),
    (!fmta && f.fmta != 0, 2), (f.fmtb != 0, 2), (f.prov != 0, 2), (f.func.toNat &&& (1023 - func) != 0, 2)] : Ck)

/-- A trap for which no rule states TVAL (log 3). -/
def unstated (s : State) (i : Instr) (c : Issuer) (cause : Nat) : TrapInfo :=
  { c.precise cause 0 with tval := Config.unstatedTval s.cycle (c.profile i).head.op }

/-- OBJECT_INVALID for a field of the command block, at its bench address (R177). -/
def fieldFault (c : Issuer) (blk : Nat) (bad : List (Bool × Nat)) : Option TrapInfo :=
  (lowest bad).map fun o => c.precise 0x13 (blk + o)

/-- The command block as it is read at issue: its address and its bytes, the lowest unwritten word that it takes as zero in warning mode,
and the state after the race check (R143, R177). -/
def blockAt (c : Issuer) (f : XFmt) (n : Nat) (s : State) : Except TrapInfo (Nat × List Byte × Option Nat × State) :=
  let a := (c.env.ssrc f.pa).toNat
  match benchFault c a n 64 with
  | some t => .error t
  | none =>
    let (bs, un) := benchRead s c.grp a n
    let low := un.foldl (fun m w => least m (some w)) none
    match low, c.warp.fpctl.getLsbD 4 with
    | some w, false => .error (c.precise 0x0B w)
    | _, _ => .ok (a, bs, low, s.raceCheck c.ref.gid c.ref.wid s.fresh c.split.held [benchSpot c.grp a n])
/-- The command block of a command that reads nothing else in the bench, with the warning that it may give (R212). -/
def readBlock (c : Issuer) (f : XFmt) (n : Nat) (s : State) : Except TrapInfo (Nat × List Byte × State) :=
  match blockAt c f n s with
  | .error t => .error t
  | .ok (a, bs, low, s1) =>
    .ok (a, bs, match low with
      | some w => s1.scrivWarp c.ref.gid c.ref.wid c.ref.ent 0x0A (BitVec.ofNat 64 w)
      | none => s1)

/-- The object that a command names: valid, not one that the command cannot take, and its key held (R139, R177, R295). -/
def objFault (s : State) (i : Instr) (c : Issuer) (e : List Byte) (bad : Bool := false) : Option TrapInfo :=
  if !objValid e || bad then some (unstated s i c 0x13)
  else if objKeyed e && !s.holdsKey c e then some (unstated s i c 0x1A)
  else none

/-- The common tail: its fields, and those of its values that are refused (R178). -/
def blkBarrier (b : List Byte) : Nat := fieldNat b 44 4
def blkWord (b : List Byte) : Nat := fieldNat b 48 8
def blkQueue (b : List Byte) : Nat := fieldNat b 60 2
def tailBad (c : Issuer) (b : List Byte) : List (Bool × Nat) :=
  [(blkBarrier b != 0xFFFFFFFF && (blkBarrier b % 8 != 0 || c.grp.benchSize < blkBarrier b + 8), 44), (blkWord b % 4 != 0, 48),
   (256 ≤ blkQueue b && blkQueue b != 0xFFFF, 60)]

/-- In a redundant task the instruction is refused (R350). -/
def redundantFault (s : State) (i : Instr) (c : Issuer) : Option TrapInfo :=
  if c.task.redundant then some (unstated s i c 0x09) else none

/-- The first of some faults. -/
def firstFault : List (Option TrapInfo) → Option TrapInfo
  | [] => none
  | some t :: _ => some t
  | none :: r => firstFault r

/-- A command with what every command has. -/
def bareEngine (c : Issuer) (k : EKind) (f : XFmt) (entry block : List Byte) (blk pid : Nat) : ECmd :=
  { id := pid, kind := k, gid := c.ref.gid, wid := c.ref.wid, lanes := c.split.held, pid := pid, obj := f.obj.toNat, entry := entry,
    block := block, blk := blk, count := cntOf c.warp c.grp, warn := c.warp.fpctl.getLsbD 4, part := c.task.part, asid := c.task.asid }

/-- In reduced service a command ends with a deferred ACCESS_DENIED (R373; log 3 for its TVAL). -/
def stageFault (s : State) (i : Instr) (c : Issuer) : Option TrapInfo :=
  if s.stage < 2 then some { unstated s i c 0x09 with deferred := true } else none

/-- The command is at work: its operation is outstanding, and an engine has it. -/
def launch (i : Instr) (c : Issuer) (mem : Bool) (mk : Nat → ECmd) (s : State) : State :=
  let (s1, cid) := commitFor c mem s
  let pid := s1.fresh
  (s1.addPend c i { id := 0, kind := .engine, ent := 0, lanes := 0, cover := if mem then some cid else none }).addCmd c.grp.core
    { mk pid with cid := cid }

/-! ## CPY and GATHER (R179, R180) -/

def copyDst (f : XFmt) : Nat := bitsOf f.func.toNat 3 2
def copyFollow (f : XFmt) : Bool := f.func.getLsbD 4
def copySparse (f : XFmt) : Bool := f.func.getLsbD 5

def ckCopy (c : Issuer) (f : XFmt) (pb : Bool) : Ck :=
  let slot := copyDst f = 1
  ckEngine f true slot true pb slot 63 ++ ckS1 c.env f.pa ++
  ([(copyDst f = 3, 2), (copySparse f && !(slot && f.fmta = 4), 2), (slot && !layoutOk f.fmta.toNat, 5)] : Ck) ++
  (if slot then ckSlot c.grp f.slota.toNat else [])

/-- The follow-on command of a block, or why it may not stand there: its opcode and the reason (R179). -/
def followOf (g : Group) (b : List Byte) : Except (Nat × Nat) Instr :=
  let w := BitVec.ofNat 96 (fieldNat b 32 12)
  let op := (w.extractLsb' 86 10).toNat
  let check : XFmt → Bool → Instr → Except (Nat × Nat) Instr := fun x sparse i =>
    if x.wait != 0 || x.dist != 0 || x.pa != 0 then .error (op, 2)
    else match lowest (ckMma g { x with pa := 0 } sparse) with
      | some r => .error (op, r)
      | none => .ok i
  match decodeWord w with
  | .mma x => check x false (.mma x)
  | .mmas x => check x true (.mmas x)
  | _ => .error (op, 2)

/-- The follow-on is announced: its post flag rises with the copy's issue, and its operation is outstanding (R179). -/
def announce (c : Issuer) (i : Instr) (s : State) : State :=
  let k := postFlag (c.profile i).head.post
  let s1 := s.modWarp c.ref.gid c.ref.wid (·.post k)
  let s2 := s1.modSplit c.ref fun x => { x with run := { x.run with posted := x.run.posted ||| flagBit k } }
  s2.addPend c i { id := 0, kind := .engine, ent := 0, lanes := 0 }

/-- The part that CPY and GATHER share: the destination's checks, the fill, the follow-on. -/
def copyEff (i : Instr) (f : XFmt) (mem : Bool) (bad : List (Bool × Nat)) (mk : ECmd → ECmd) (a : Nat) (b e : List Byte) (c : Issuer)
    (s : State) : Except TrapInfo State :=
  let dst := copyDst f
  let k := f.slota.toNat
  let follow := if copyFollow f then some (followOf c.grp b) else none
  match firstFault
      [objFault s i c e (dst = 2 && objDraft e = 0), fieldFault c a (bad ++ tailBad c b),
       match follow with
         | some (.error (op, r)) => some (c.precise 0x01 (op * 16 + r))
         | _ => none,
       if dst = 1 then (badSlot c.grp (fun st => st = 0 || st = 2) [k]).map (c.precise 0x11 ·) else none] with
  | some t => .error t
  | none =>
    let needs := slotReaders s c.grp.core c.ref.gid k
    let s1 := if dst = 1 then s.modSlot c.ref.gid k fun x => { x with state := 2 } else s
    let word := match follow with
      | some (.ok _) => some (fieldNat b 32 12)
      | _ => none
    let s2 := launch i c mem (fun pid =>
      let x := { bareEngine c .cpy f e b a pid with
        dst := match dst with
          | 0 => 0 | 1 => 5 | _ => 4,
        lslot := k, slot := (c.grp.slot k).phys, fmta := f.fmta.toNat, sp := copySparse f,
        needs := if dst = 1 then needs else [], follow := word }
      mk x) s1
    .ok (match follow with
      | some (.ok j) => announce c j s2
      | _ => s2)

def cpyEff (f : XFmt) (c : Issuer) (s : State) : Except TrapInfo State :=
  match readBlock c f 64 s with
  | .error t => .error t
  | .ok (a, b, s1) =>
    let e := s.objEntry c.task.asid f.obj.toNat
    let src := f.func.toNat % 4
    let dst := copyDst f
    let len := fieldNat b 16 4
    copyEff (.cpy f) f (2 ≤ src)
      [(fieldNat b 8 8 % 16 != 0 || (dst = 1 && fieldNat b 8 8 != 0), 8),
       (len = 0 || len % 16 != 0 || (dst = 1 && len != 12288), 16), (fieldNat b 20 8 % 16 != 0 || (dst != 1 && fieldNat b 20 8 != 0), 20)]
      (fun x => { x with src := src + 1, srcA := fieldNat b 0 8, dstA := fieldNat b 8 8, len := len, hdrA := fieldNat b 20 8,
                         hdrLen := if dst = 1 then headerBytes f.fmta.toNat else 0 })
      a b e c s1

def execCpy (f : XFmt) (s : State) : Host.Outcome State Fault Refusal :=
  issue (.cpy f) (fun c => ckCopy c f false ++ ([(f.func.toNat % 4 = 3 && copyDst f = 2, 2)] : Ck)) (cpyEff f) s

def gatherEff (f : XFmt) (c : Issuer) (s : State) : Except TrapInfo State :=
  match blockAt c f 64 s with
  | .error t => .error t
  | .ok (a, b, low, s1) =>
    let e := s.objEntry c.task.asid f.obj.toNat
    let dst := copyDst f
    let row := fieldNat b 24 4
    let count := fieldNat b 20 4
    copyEff (.gather f) f true
      [(fieldNat b 8 8 % 16 != 0 || (dst = 1 && fieldNat b 8 8 != 0), 8), (fieldNat b 16 4 % 4 != 0, 16),
       (count = 0 || 65536 < count || (dst = 1 && row * count != 12288), 20), (row < 16 || 65536 < row || row % 16 != 0, 24)]
      (fun x => { x with kind := .gather, src := 4, srcA := fieldNat b 0 8, dstA := fieldNat b 8 8, len := row * count, total := row,
                         unw := low, hdrA := fieldNat b 16 4, pitch := (c.env.ssrc f.pb).toNat })
      a b e c s1

def execGather (f : XFmt) (s : State) : Host.Outcome State Fault Refusal :=
  issue (.gather f) (fun c => ckCopy c f true ++ ckS1 c.env f.pb ++ ([(f.func.toNat % 4 != 0, 2)] : Ck)) (gatherEff f) s

/-! ## COLL, RWIN, RSTREAM (R181 to R183) -/

/-- The element types of reductions (R181, R183). -/
def redType (t : Nat) : Bool := t = 0 || t = 1 || t = 8 || t = 9
def redSize (t : Nat) : Nat := if t = 9 then 2 else 4

def collEff (f : XFmt) (c : Issuer) (s : State) : Except TrapInfo State :=
  match redundantFault s (.coll f) c with
  | some t => .error t
  | none =>
    match readBlock c f 64 s with
    | .error t => .error t
    | .ok (a, b, s1) =>
      let d := (c.env.ssrc f.pb).toNat
      let e := s.objEntry c.task.asid f.obj.toNat
      let kind := fieldNat b 4 1
      let bad : List (Bool × Nat) := [(255 < fieldNat b 0 4, 0), (3 < kind, 4), (!redType (fieldNat b 5 1), 5), (2 < fieldNat b 6 2, 6),
        (fieldNat b 32 12 != 0, 32)]
      let target := s.objEntry c.task.asid (d % 1024)
      match firstFault
          [objFault s (.coll f) c e, fieldFault c a (bad ++ tailBad c b),
           objFault s (.coll f) c target (1024 ≤ d || objDraft target = 0)] with
      | some t => .error t
      | none =>
        .ok (launch (.coll f) c true (fun pid =>
          { bareEngine c .coll f e b a pid with fault := stageFault s (.coll f) c, src := 4, dst := 4, total := d, srcA := fieldNat b 8 8, dstA := fieldNat b 16 8,
                                                len := fieldNat b 24 4 }) s1)

def execColl (f : XFmt) (s : State) : Host.Outcome State Fault Refusal :=
  issue (.coll f) (fun c => ckEngine f true false true true false 0 ++ ckS1 c.env f.pa ++ ckS1 c.env f.pb) (collEff f) s

/-- RWIN's block (R182). -/
def rwinBad (b : List Byte) : List (Bool × Nat) :=
  [(fieldNat b 0 8 % 64 != 0, 0), (fieldNat b 8 8 % 64 != 0 || 512 * 2 ^ 20 < fieldNat b 8 8, 8), (255 < fieldNat b 16 4, 16),
   (fieldNat b 24 20 != 0, 24)]

def ckRwin (c : Issuer) (f : XFmt) : Ck := ckEngine f false false true false false 1 ++ ckS1 c.env f.pa

/-- A close has issued: the member's later atomics to the window are not merged (R247). -/
def State.closeIssued (s : State) (c : Issuer) (tag set base len : Nat) : State :=
  { s with windows := s.windows.map fun (w : Window) =>
      if w.tag = tag && w.asid = c.task.asid && w.peerSet = set && w.base = base && w.len = len then { w with closing := true } else w }

/-- Opening a window, or closing it; a close is a release at .dom and commits what the group has buffered (R182, R247). -/
def rwinEff (i : Instr) (f : XFmt) (k : EKind) (refused : Issuer → State → Option TrapInfo) (c : Issuer) (s : State) :
    Except TrapInfo State :=
  match redundantFault s i c with
  | some t => .error t
  | none =>
    match readBlock c f 64 s with
    | .error t => .error t
    | .ok (a, b, s1) =>
      match firstFault [fieldFault c a (rwinBad b ++ tailBad c b), refused c s] with
      | some t => .error t
      | none =>
        let s2 := if k = .rwinClose then (s1.release c.ref.gid c.ref.wid 5).closeIssued c (fieldNat b 20 4) (fieldNat b 16 4) (fieldNat b 0 8) (fieldNat b 8 8) else s1
        .ok (launch i c (k = .rwinClose) (fun pid =>
          { bareEngine c k f [] b a pid with fault := if k = .rwinOpen then stageFault s i c else none, srcA := fieldNat b 0 8, len := fieldNat b 8 8, total := fieldNat b 20 4,
                                             hdrLen := fieldNat b 16 4 }) s2)

/-- A device holds at most sixteen open windows, those being opened included (R182). -/
def windowsUsed (s : State) : Nat :=
  s.windows.length + (s.cores.foldl (fun a p => a + (p.2.engine.filter fun e => e.kind = .rwinOpen && e.pos = 0).length) 0)

def openRefused (f : XFmt) (c : Issuer) (s : State) : Option TrapInfo :=
  if c.task.determ then some (c.precise 0x0D 0) else if 16 ≤ windowsUsed s then some (unstated s (.rwinOpen f) c 0x09) else none

def execRwinOpen (f : XFmt) (s : State) : Host.Outcome State Fault Refusal :=
  issue (.rwinOpen f) (fun c => ckRwin c f) (rwinEff (.rwinOpen f) f .rwinOpen (openRefused f)) s

def execRwinClose (f : XFmt) (s : State) : Host.Outcome State Fault Refusal :=
  issue (.rwinClose f) (fun c => ckRwin c f) (rwinEff (.rwinClose f) f .rwinClose fun _ _ => none) s

/-- RSTREAM's block; source i is at byte 64 + 8i (R183). Its destination takes up the atoms of memory that its draft's base says (R314). -/
def rstreamBad (b : List Byte) : List (Bool × Nat) :=
  let ty := fieldNat b 13 1
  let k := fieldNat b 12 1
  let n := fieldNat b 8 4 * redSize ty
  ([(fieldNat b 0 8 % 32 != 0, 0), (n % 32 != 0, 8), (k < 2 || 8 < k, 12), (!redType ty, 13), (2 < fieldNat b 14 1, 14),
    (fieldNat b 15 1 != 0, 15), (fieldNat b 16 28 != 0, 16)] : List (Bool × Nat)) ++
  (List.range 8).map fun i => (if i < k then fieldNat b (64 + 8 * i) 8 % 32 != 0 else fieldNat b (64 + 8 * i) 8 != 0, 64 + 8 * i)

def rstreamEff (f : XFmt) (c : Issuer) (s : State) : Except TrapInfo State :=
  match redundantFault s (.rstream f) c with
  | some t => .error t
  | none =>
    match readBlock c f 128 s with
    | .error t => .error t
    | .ok (a, b, s1) =>
      let e := s.objEntry c.task.asid f.obj.toNat
      match firstFault
          [objFault s (.rstream f) c e (objDraft e = 0), fieldFault c a (rstreamBad b ++ tailBad c b)] with
      | some t => .error t
      | none =>
        .ok (launch (.rstream f) c true (fun pid =>
          { bareEngine c .rstream f e b a pid with fault := stageFault s (.rstream f) c, dst := 4, dstA := fieldNat b 0 8,
                                                   total := (fieldNat b 8 4 * redSize (fieldNat b 13 1) + objDraft e % 32 + 31) / 32 }) s1)

def execRstream (f : XFmt) (s : State) : Host.Outcome State Fault Refusal :=
  issue (.rstream f) (fun c => ckEngine f true false true false false 0 ++ ckS1 c.env f.pa) (rstreamEff f) s

/-! ## PUBLISH (R184) -/

/-- The expectation entries of a target that have not left their lists. -/
def State.openEntries (s : State) (asid obj : Nat) : List Nat :=
  s.places.flatMap fun p => (p.2.entries.filter fun e => e.asid = asid && e.obj = obj).map (·.id)

/-- In deterministic mode a PUBLISH is held; its flag completes once it is (R184, R304; log 116). -/
def publishEff (f : XFmt) (c : Issuer) (s : State) : Except TrapInfo State :=
  let i := Instr.publish f
  let k := f.obj.toNat
  let e := s.objEntry c.task.asid k
  match objFault s i c e (objKeyed e || objDraft e = 0) with
  | some t => .error t
  | none =>
    if c.task.determ then
      (if c.grp.full [2 ^ 80] then .error (c.precise 0x0D 0)
       else .ok ((s.modGroup c.ref.gid fun g => { g with held := g.held ++ [.publish k] }).later c i 1 []))
    else
      let (s1, cid) := commitFor c true (s.release c.ref.gid c.ref.wid 4)
      let pid := s1.fresh
      let s2 := s1.addPend c i { id := 0, kind := .engine, ent := 0, lanes := 0, cover := some cid }
      .ok { s2 with publishes := s2.publishes ++
        [{ id := pid, asid := c.task.asid, obj := k, part := c.task.part,
           cmd := some { bareEngine c .publish f e [] 0 pid with cid := cid } }] }

def execPublish (f : XFmt) (s : State) : Host.Outcome State Fault Refusal :=
  issue (.publish f) (fun _ => ckEngine f true false false false false 0) (publishEff f) s

/-! ## RAST, FPOST, FNULL (R185, R262, R270) -/

/-- The previous RAST that arrived at the target has been acquired: its flag waited on before this RAST in its group, or its task retired
before this one as a predecessor or a holder of its keys (R270; log 29). -/
def rastOrdered (s : State) (c : Issuer) (target : Nat) : Bool :=
  match flook target s.lastRast with
  | none => true
  | some n =>
    if n.task = c.grp.task && n.index = c.grp.index then n.knows c.ref.wid c.split.held
    else c.task.after.contains n.task || c.task.keysFrom.contains n.task

def rastEff (f : XFmt) (c : Issuer) (s : State) : Except TrapInfo State :=
  let i := Instr.rast f
  match redundantFault s i c with
  | some t => .error t
  | none =>
    match readBlock c f 64 s with
    | .error t => .error t
    | .ok (a, b, s1) =>
      let k := f.obj.toNat
      let e := s.objEntry c.task.asid k
      let target := c.task.asid * 1024 + k
      let bad : List (Bool × Nat) := [(fieldNat b 0 8 % 32 != 0, 0), (15 < fieldNat b 24 2, 24), (fieldNat b 26 18 != 0, 26)]
      match firstFault
          [objFault s i c e (objClass e != 2 || objKeyed e || objDraft e = 0),
           fieldFault c a (bad ++ tailBad c b),
           if c.task.determ && !rastOrdered s c target then some (c.precise 0x0D 0) else none] with
      | some t => .error t
      | none =>
        let s2 := launch i c true (fun pid =>
          { bareEngine c .rast f e b a pid with fault := stageFault s i c, srcA := fieldNat b 0 8, len := fieldNat b 8 4, total := fieldNat b 24 2 }) s1
        match (s2.core c.grp.core).engine.getLast? with
        | none => .ok s2
        | some x =>
          .ok { s2 with
            draws := s2.draws ++ [{ id := x.id, cmd := x, asid := c.task.asid, obj := k, die := c.die, method := fieldNat b 24 2, cls := 0 }],
            lastRast := fput target { task := c.grp.task, index := c.grp.index, wid := c.ref.wid, pid := x.pid, flag := postFlag f.post } s2.lastRast }

def execRast (f : XFmt) (s : State) : Host.Outcome State Fault Refusal :=
  issue (.rast f) (fun c => ckEngine f true false true false false 0 ++ ckS1 c.env f.pa) (rastEff f) s

/-- The tile of a pixel, and the glazier that owns it by the draft's mapping (R253, R254): none when the tile is not reached. -/
def tileCount (e : List Byte) : Nat := (objExtent e 0 + 7) / 8
def tileIndex (e : List Byte) (tx ty : Nat) : Nat := tx + tileCount e * ty
/-- The image byte of offset o of tile t (R253). -/
def tileByte (e : List Byte) (t o : Nat) : Nat := 16384 * (t / 64 * objSamples e * objRw e + o / 256) + 256 * (t % 64) + o % 256
def State.tileOwner (s : State) (asid : Nat) (e : List Byte) (t : Nat) : Option Nat :=
  match s.walk asid (objDraft e + tileByte e t 0) with
  | .leaf l lvl => if bitsOf l 55 52 = 0 then some (paOf (leafXlat l lvl (objDraft e + tileByte e t 0)).key / 2 ^ 36 * 64 + t % 64) else none
  | _ => none

/-- The record of a malformed entry that the walk for a tile of a target meets (R309). -/
def State.tileNote (s : State) (asid : Nat) (e : List Byte) (base t : Nat) : Option (Nat × Nat × Nat) :=
  match s.walk asid (base + tileByte e t 0) with
  | .malformed pa => some (0x0E, pa, 0)
  | _ => none

/-- Packets of the active lanes: a lane outside the target posts nothing (R185). A tile that the draft's mapping does not reach has no owner:
its packet goes to the glazier of that number on stack 0 (log 117). -/
def lanePosts (f : XFmt) (null : Bool) (pid : Nat) (e : List Byte) (c : Issuer) (s : State) : List Post :=
  (bitsSet c.split.exm).filterMap fun l =>
    let w0 := (c.env.vec (fIdx f.pa) l).toNat
    let w1 := (c.env.vec (fIdx f.pa + 1) l).toNat
    let x := w0 % 65536
    let y := w0 / 65536
    let inside := if null then x < tileCount e && y < (objExtent e 1 + 7) / 8 else x < objExtent e 0 && y < objExtent e 1
    let t := if null then tileIndex e x y else tileIndex e (x / 8) (y / 8)
    if inside then
      some
        { gid := c.ref.gid, wid := c.ref.wid, pid := pid, lanes := c.split.held, lane := l, asid := c.task.asid, obj := f.obj.toNat,
          null := null, x := x, y := y, seq := w1 / 256, cover := w1 % 256, method := if null then 0 else f.func.toNat / 8 % 16,
          payload := if null then [] else (List.range (f.func.toNat % 8 + 1)).map fun k => c.env.vec (fIdx f.pb + k) l,
          pc := (s.tileOwner c.task.asid e t).getD (t % 64), stamp := s.stampFor c.ref.gid c.ref.wid (cntOf c.warp c.grp) 0 }
    else none

def postEff (i : Instr) (f : XFmt) (null : Bool) (c : Issuer) (s : State) : Except TrapInfo State :=
  let e := s.objEntry c.task.asid f.obj.toNat
  match firstFault
      [redundantFault s i c, objFault s i c e (objClass e != 2)] with
  | some t => .error t
  | none =>
    let pid := s.fresh
    let l := lanePosts f null pid e c s
    let s1 := s.addPend c i { id := 0, kind := if l = [] then .long else .posts, ent := 0, lanes := 0, due := s.cycle + 1, left := l.length }
    let bad := l.filterMap fun p => s.tileNote c.task.asid e (objDraft e) (if null then tileIndex e p.x p.y else tileIndex e (p.x / 8) (p.y / 8))
    let s2 := bad.eraseDups.foldl (fun s n => s.scrivWarp c.ref.gid c.ref.wid c.ref.ent n.1 (BitVec.ofNat 64 n.2.1)) s1
    .ok (if c.split.exm = 0 then s.later c i 6 [] else { (if l = [] then s2 else s2.expose c.grp) with posts := s2.posts ++ l })

/-- The coordinates in an even pair of vector registers. -/
def ckPair (e : Env) (x : BitVec 9) : Ck :=
  (if fLatch x then ckNoLatch x else []) ++ ([(fIdx x % 2 != 0, 3), (e.nregs < fIdx x + 2, 3)] : Ck)

def execFpost (f : XFmt) (s : State) : Host.Outcome State Fault Refusal :=
  issue (.fpost f)
    (fun c => ckEngine f true false true true false 0x7F ++ ckPair c.env f.pa ++
      (if fLatch f.pb then ckNoLatch f.pb else ([(c.env.nregs < fIdx f.pb + f.func.toNat % 8 + 1, 3)] : Ck)))
    (postEff (.fpost f) f false) s

def execFnull (f : XFmt) (s : State) : Host.Outcome State Fault Refusal :=
  issue (.fnull f) (fun c => ckEngine f true false true false false 0 ++ ckPair c.env f.pa) (postEff (.fnull f) f true) s

/-! ## SAMPLE (R186, R317) -/

def ckSample (c : Issuer) (f : XFmt) : Ck :=
  ckEngine f true false true true false 3 ++ ckPair c.env f.pa ++
  ckVn c.env f.pb 1 4 ++ ([(f.post = 15, 2)] : Ck)

/-- The coordinates of the active lanes and the view are taken at issue; the texels are read later. No active lane: six cycles (R62, R186,
R249). -/
def sampleEff (f : XFmt) (c : Issuer) (s : State) : Except TrapInfo State :=
  let i := Instr.sample f
  let e := s.objEntry c.task.asid f.obj.toNat
  match firstFault
      [objFault s i c e (objClass e = 1 || (objClass e = 0 && 4 < objExtent e 0))] with
  | some t => .error t
  | none =>
    let uv := (bitsSet c.split.exm).flatMap fun l =>
      natBytes 1 l ++ natBytes 4 (c.env.vec (fIdx f.pa) l).toNat ++ natBytes 4 (c.env.vec (fIdx f.pa + 1) l).toNat
    let items : List LoadItem := (bitsSet c.split.exm).flatMap fun l => (List.range 4).map fun k =>
      { key := 256 * l + 4 * k, n := 4, reg := c.env.phys (fIdx f.pb + k), lane := l }
    let pid := s.fresh
    let s1 := s.addPend c i { id := 0, kind := .engine, ent := 0, lanes := 0, items := items }
    if c.split.exm = 0 then .ok (s.later c i 6 [])
    else .ok (s1.addCmd c.grp.core { bareEngine c .sample f e uv 0 pid with src := 4, total := f.func.toNat % 4, view := some (objPub e) })

def execSample (f : XFmt) (s : State) : Host.Outcome State Fault Refusal := issue (.sample f) (fun c => ckSample c f) (sampleEff f) s

end Sys2Proof.Machine
end

