-- ==== Sys2Proof/Machine/Movers.lean ====
section
/-! DEFINITION. The copy engine at work: the beats of TMOV, CPY and GATHER (R142, R159, R179, R180), with the faults found while the
data moves (R177, R212, R219, R236, R303, R344), and the follow-on command (R179). -/

namespace Sys2Proof.Machine

/-! ## Sources -/

/-- The bytes of some spots, one after the other; own says that the group's store buffer is read through (R142). Those that self-refresh has
held too long are poison (R353). -/
def foundAll (s : State) (g : Group) (own : Bool) (l : List Spot) : Found :=
  l.foldl (fun a x =>
    let f := if s.lostAt x.unit then { bytes := List.replicate x.n 0, bad := some x.va }
      else if own then s.scratchBytes g x else s.found x.key x.va x.n
    { bytes := a.bytes ++ f.bytes, bad := least a.bad f.bad, dead := least a.dead f.dead,
      from_ := a.from_ ++ [(x.unit, x.key, x.n)] }) { bytes := [] }

/-- A command may read bytes now: the requests at the place, its group's writes numbered below upTo and its earlier requests allow it
(R216, R225, R244, R248). -/
def State.readTurn (s : State) (e : ECmd) (upTo : Nat) (x : Spot) : Bool :=
  s.mayStart x.unit s.fresh [(x.key, x.n)] && s.tierRoom x.unit e.gid && !s.heldByWrite e.gid upTo (·.touches x.key x.n) &&
    !s.requestAhead x.unit e.gid e.id (·.touches x.key x.n)

/-- The reads of a command have been performed at their places (R216, R344). -/
def State.readAt (s : State) (l : List (UnitRef × Nat × Nat)) : State :=
  l.foldl (fun s x => (s.started x.1 s.fresh [x.2]).correct x.2.1 x.2.2) s

/-- A deferred trap for which no rule states TVAL (log 3). -/
def unstatedAt (s : State) (op cause : Nat) : TrapInfo := { cause := cause, tval := Config.unstatedTval s.cycle op, deferred := true }

/-- n bytes of device memory as a command reads them: an error is a deferred trap, or none while the read must wait for the group's
own writes, for requests at the place or for a stack (R216, R244, R248, R353). A TMOV reads what it has itself written (R142). -/
def memFetch (s : State) (c : Issuer) (e : ECmd) (va n : Nat) (view : Bool) : Except (Option TrapInfo) Found :=
  let tr := s.translate c .read va n (if n = 16 && va % 16 = 0 then 16 else 1)
  match s.xfault c .read va tr with
  | some t => .error (some t)
  | none =>
    let l := spotsOf 0 va tr
    let upTo := if e.kind = .tmov then s.fresh else e.id
    if l.any fun x => !s.lostAt x.unit && !s.readTurn e upTo x then .error none
    else match l.findSome? (s.stampTrap c c.task.determ (c.task.race && !view)) with
      | some t => .error (some t)
      | none =>
        match l.findSome? fun x => peerRefusal x.unit e.part false [(x.key, x.va)] with
        | some x => .error (some { c.precise 0x09 x.1 with note := some (0x11, x.1, x.2) })
        | none => .ok (foundAll s c.grp (e.kind = .tmov) l)

/-- n bytes of a scratchpad as a command reads them, with the unwritten words that it takes as zero. -/
def scratchFetch (s : State) (c : Issuer) (e : ECmd) (space a n : Nat) : Except (Option TrapInfo) (Found × Option Nat) :=
  let (key, size, unit) := s.alloc c space
  if size < a + n then .error (some { c.precise 0x09 a with offs := true })
  else
    let x : Spot := ⟨0, 0, a, key + a, n, unit⟩
    let un := (s.unwritten [x]).foldl (fun m w => least m (some w)) none
    match un, e.warn with
    | some w, false => .error (some (c.precise 0x0B w))
    | _, _ =>
      match s.stampFault c c.task.determ x with
      | some t => .error (some t)
      | none => .ok ({ s.scratchBytes c.grp x with from_ := [(x.unit, x.key, x.n)] }, un)

/-- A beat of the view that the command has fixed; bytes outside the image are zero (R141, R249). -/
def viewFetch (s : State) (c : Issuer) (e : ECmd) (off n : Nat) : Except (Option TrapInfo) Found :=
  let base := e.view.getD 0
  let k := min n (objEnd e.entry - off)
  if base = 0 then .error (some (c.precise 0x13 off))
  else if k = 0 then .ok { bytes := List.replicate n 0 }
  else match memFetch s c e (base + off) k true with
    | .error x => .error x
    | .ok f => .ok { f with bytes := f.bytes ++ List.replicate (n - k) 0 }

/-- A command may go on: its commit is done, and so are the accesses before it in its split's program order (R225, R248). -/
def State.cmdTurn (s : State) (e : ECmd) : Bool :=
  s.committed e.gid e.cid && ((s.warp? e.gid e.wid).map fun w => w.earlierDone e.lanes e.pid).getD true

def noWords (x : Except (Option TrapInfo) Found) : Except (Option TrapInfo) (Found × Option Nat) :=
  match x with
  | .error t => .error t
  | .ok f => .ok (f, none)

/-- The next beat of a command: the data in increasing address order, then the headers of a slot; of a GATHER, the row that its index
names (R142, R179, R180). -/
def fetchBeat (s : State) (c : Issuer) (e : ECmd) : Except (Option TrapInfo) (Found × Option Nat) :=
  let a := if e.len ≤ e.pos then e.hdrA + (e.pos - e.len) else e.srcA + e.pos
  match e.src with
  | 3 => noWords (memFetch s c e a 16 false)
  | 4 =>
    if e.kind = .gather then
      match scratchFetch s c e 0 (e.hdrA + 4 * (e.pos / e.total)) 4 with
      | .error t => .error t
      | .ok (i, un) =>
        match viewFetch s c e (e.srcA + bytesNat i.bytes * e.pitch + e.pos % e.total) 16 with
        | .error t => .error t
        | .ok f => .ok ({ f with bad := least i.bad f.bad, from_ := i.from_ ++ f.from_ }, un)
    else noWords (viewFetch s c e a 16)
  | d => scratchFetch s c e d a 16

/-! ## Destinations -/

/-- A write of a command into a draft: it takes the path of R244, to the copy that is the draft now, behind what the group has buffered for
the same bytes (R184, R225, R248, R255). -/
def draftWrite (s : State) (c : Issuer) (e : ECmd) (obj off : Nat) (geometry : List Byte) (bs : List Byte) : Except (Option TrapInfo) State :=
  let n := min bs.length (objEnd geometry - off)
  let base := objDraft (s.objEntry e.asid obj)
  if objClass geometry = 2 then .error (some (unstatedAt s 0x1C0 0x13))
  else if base = 0 then .error (some (c.precise 0x13 off))
  else
    let va := base + off
    let tr := s.translate c .write va n (if n = 16 && va % 16 = 0 then 16 else 1)
    match s.xfault c .write va tr with
    | some t => .error (some t)
    | none =>
      let l := spotsOf 0 va tr
      match l.findSome? (s.stampFault c false) with
      | some t => .error (some t)
      | none =>
        let es := l.map fun x =>
          ({ u := x.unit, bank := x.key / 64 % 16, bytes := sbBytes x ((bs.drop x.off).take x.n) (e.count % 256), gid := e.gid, cid := e.id,
             task := c.grp.task, group := c.grp.index, cmd := true } : WbEntry)
        let s1 := if c.task.redundant then s else s.drainFirst c e.id fun b => l.any fun x => overlaps b.1 1 x.key x.n
        .ok ((s1.expose c.grp).modGroup e.gid fun g => { g with draining := g.draining ++ es })

/-- The bytes that the next beat of a TMOV puts into its group's store buffer, where they go there (R142, R350). -/
def State.beatSpots (s : State) (c : Issuer) (e : ECmd) : List Spot :=
  if e.dst = 3 then spotsOf 0 (e.dstA + e.pos) (s.translate c .write (e.dstA + e.pos) 16 16)
  else if c.task.redundant && e.dst = 2 then
    let (key, _, unit) := s.alloc c 2
    [⟨0, 0, e.dstA + e.pos, key + e.dstA + e.pos, 16, unit⟩]
  else []

/-- A TMOV of a redundant group finds no room in the store buffer: its pair must agree and commit first (R347, R349). -/
def State.needsRoom (s : State) (e : ECmd) : Bool :=
  e.kind = .tmov && e.fault.isNone && e.pos < e.len &&
    (match s.agentFor e.gid e.wid 0 e.lanes with
      | some c => c.task.redundant && c.grp.pair.isSome && c.grp.full ((s.beatSpots c e).flatMap fun x => atomsOf x.key x.n)
      | none => false)

/-- A beat of a TMOV enters the store buffer; what a later release or command of the split covers goes on at once with its commit (R142,
R148, R154, R225). -/
def State.bufferBeat (s : State) (c : Issuer) (e : ECmd) (bytes : List (Nat × SbByte)) : State :=
  let s1 := s.buffer e.gid (some (e.wid, c.warp.kin e.lanes e.pid)) bytes
  match (c.warp.pend.find? fun q => e.pid < q.id && q.cover.isSome && q.kin &&& e.lanes != 0).bind (·.cover) with
  | some cid => if c.task.redundant then s1 else s1.drainFirst c cid fun b => bytes.any (·.1 = b.1)
  | none => s1

/-- A beat written at its destination. -/
def placeBeat (s : State) (c : Issuer) (e : ECmd) (bs : List Byte) : Except (Option TrapInfo) State :=
  match e.dst with
  | 5 =>
    if readersDone (s.core c.grp.core) e then
      .ok (s.wr (slotKey c.grp.core e.slot (if e.len ≤ e.pos then 12288 + (e.pos - e.len) else e.pos)) bs)
    else .error none
  | 4 => draftWrite s c e e.obj (e.dstA + e.pos) e.entry bs
  | 3 =>
    let va := e.dstA + e.pos
    let tr := s.translate c .write va 16 16
    match s.xfault c .write va tr with
    | some t => .error (some t)
    | none =>
      let l := spotsOf 0 va tr
      match l.findSome? (s.stampFault c false) with
      | some t => .error (some t)
      | none => .ok (s.bufferBeat c e (l.flatMap fun x => sbBytes x ((bs.drop x.off).take x.n) (e.count % 256)))
  | d =>
    let (key, size, unit) := s.alloc c d
    let a := e.dstA + e.pos
    let x : Spot := ⟨0, 0, a, key + a, 16, unit⟩
    if size < a + 16 then .error (some { c.precise 0x09 a with offs := true })
    else match s.stampFault c false x with
      | some t => .error (some t)
      | none =>
        if buffered c.task x.key then .ok (s.bufferBeat c e (sbBytes x bs (e.count % 256)))
        else .ok ((s.exposeBy c.grp x.key).store c.grp.core x.key bs (s.stampFor e.gid e.wid e.count x.key))

/-! ## Beats (R142, R159, R177) -/

/-- The bytes that a command moves: the data and, for a slot, its headers. -/
def ECmd.bytesToMove (e : ECmd) : Nat := e.len + e.hdrLen

/-- One beat. -/
def moveBeat (s : State) (c : Issuer) (e : ECmd) : Except (Option TrapInfo) (State × ECmd) :=
  if !s.cmdTurn e || s.needsRoom e then .error none
  else match fetchBeat s c e with
    | .error x => .error x
    | .ok (f, un) =>
      match placeBeat s c e f.bytes with
      | .error x => .error x
      | .ok t =>
        let low : Option DWord → Option DWord := fun d => (least (d.map (·.toNat)) f.dead).map (BitVec.ofNat 64)
        let t1 := ((t.readAt f.from_).deadRecord e.gid e.wid c.ref.ent f.dead).modPend e.gid e.wid e.pid fun q => { q with dead := low q.dead }
        .ok (t1, { e with pos := e.pos + 16, unw := least e.unw un, bad := least e.bad f.bad })

/-- At most n beats: they stop where one must wait, or at a fault, which ends the command (R142, R177). -/
def moveBeats (gid wid ent : Nat) (lanes : Mask) : Nat → State → ECmd → State × ECmd
  | 0, s, e => (s, e)
  | n + 1, s, e =>
    if e.bytesToMove ≤ e.pos || e.fault.isSome then (s, e)
    else match s.agentFor gid wid ent lanes with
      | none => (s, e)
      | some c =>
        match moveBeat s c e with
        | .ok (t, e1) => moveBeats gid wid ent lanes n t e1
        | .error none => (s, e)
        | .error (some t) => (s, { e with fault := some { t with deferred := true } })

/-- Landed bytes are subtracted from the barrier word that the command names: a release at .group by the issuing warp, which covers them
(R159, R226, R251). -/
def State.countLanded (s : State) (e : ECmd) (n : Nat) : State :=
  let b := blkBarrier e.block
  if n = 0 || e.block = [] || b = 0xFFFFFFFF then s
  else
    let s1 := s.release e.gid e.wid 1
    match s1.group? e.gid, s1.warp? e.gid e.wid with
    | some g, some w =>
      s1.pbUpdate e.gid e.wid (cntOf w g) (benchKey g.core (g.benchBase + b)) (fun v => pbAdd v (2 ^ 32 - n % 2 ^ 32))
        (some ⟨true, e.wid, w.relCount⟩)
    | _, _ => s1

def State.dropEngine (s : State) (core id : Nat) : State := s.modCore core fun k => { k with engine := k.engine.filter fun x => x.id != id }
def State.cmd? (s : State) (core id : Nat) : Option ECmd := (s.core core).engine.find? fun e => e.id = id

/-- A command ends: what it read unwritten or poisoned is reported, and its fault is left to the issuing split (R120, R177, R212). -/
def State.reportCmd (s : State) (e : ECmd) : State :=
  let s1 := match e.unw with
    | some w => s.scrivWarp e.gid e.wid (s.entryOf e.gid e.wid e.pid) 0x0A (BitVec.ofNat 64 w)
    | none => s
  let s2 := match e.bad with
    | some a => s1.modPend e.gid e.wid e.pid fun q => { q with bad := some (BitVec.ofNat 64 a), offs := e.src < 3 }
    | none => s1
  match e.fault with
  | some t => s2.defer e.gid e.wid e.pid e.lanes t none
  | none => s2

/-- A TMOV's last byte has been written, or a fault has ended it: its operation may complete (R142). -/
def endTmov (s : State) (core : Nat) (e : ECmd) : State :=
  ((s.reportCmd e).modPend e.gid e.wid e.pid fun q => { q with left := 0, due := s.cycle }).dropEngine core e.id

def movesBytes (k : EKind) : Bool := k = .tmov || k = .cpy || k = .gather

/-- The copy engine moves beats of a command, and what has landed is counted on its barrier word; draft bytes land later, and are counted
when the last of them has (R142, R159, R178). One that finds no room in a redundant group's buffer stops the group (R347). -/
def execEngineBytesLand (core id beats : Nat) (s : State) : Host.Outcome State Fault Refusal :=
  match s.cmd? core id with
  | none => .next s
  | some e =>
    if !movesBytes e.kind || e.fault.isSome || e.bytesToMove ≤ e.pos then .next s
    else
      let e0 := { e with view := some (e.view.getD (objPub (s.objEntry e.asid e.obj))) }
      let (s1, e1) := moveBeats e.gid e.wid (s.entryOf e.gid e.wid e.pid) e.lanes beats s e0
      if e1.pos = e.pos && e1.fault.isNone then .next (if s.needsRoom e then s.forceAt e.gid [0x142, e.pos] else s)
      else
        let s2 := (if e.dst = 4 then s1 else s1.countLanded e (min e1.pos e.len - min e.pos e.len)).setCmd core e1
        .next (if e.kind = .tmov && (e1.fault.isSome || e1.bytesToMove ≤ e1.pos) then endTmov s2 core e1 else s2)

/-! ## The follow-on (R113, R126, R179) -/

/-- The checks of a follow-on where it enters queue 4: a fault is deferred, and the command is dropped. That is its issue for R113, so in
deterministic mode another warp's command on its tile is DETERMINISM, and FPCTL.ovtrap is taken there (R113, R120, R179; log 111). -/
def followOn (s : State) (core : Nat) (g : Group) (w : Warp) (e : ECmd) (f : XFmt) (sparse : Bool) : State :=
  match mmaFault g f with
  | some v => (s.complete e.gid e.wid (e.pid + 1)).defer e.gid e.wid e.pid e.lanes { cause := 0x11, tval := BitVec.ofNat 64 v } none
  | none =>
    if stageRefuses s f sparse then
      (s.complete e.gid e.wid (e.pid + 1)).defer e.gid e.wid e.pid e.lanes { cause := 0x09 } none
    else if s.gflag g Task.determ && s.foreignOn core e.gid e.wid f.acc.toNat then
      (s.complete e.gid e.wid (e.pid + 1)).defer e.gid e.wid e.pid e.lanes { cause := 0x0D } none
    else submitMma g f sparse (if f.func.getLsbD 1 then fieldNat e.block 28 4 else 0)
      { gid := e.gid, wid := e.wid, lanes := e.lanes, pid := e.pid + 1, core := core, queue := 4, ovtrap := w.fpctl.getLsbD 6 } s

/-- The last operand byte of a copy has landed: its follow-on enters queue 4 after its checks, when the queue has room. -/
def execFollowOnEnqueue (core id : Nat) (s : State) : Host.Outcome State Fault Refusal :=
  match s.cmd? core id with
  | none => .next s
  | some e =>
    match e.follow, s.group? e.gid, s.warp? e.gid e.wid with
    | some word, some g, some w =>
      if e.pos < e.bytesToMove || e.fault.isSome || 4 ≤ ((flook 4 (s.core core).queues).getD []).length then .next s
      else
        let s1 := s.setCmd core { e with follow := none }
        .next (match decodeWord (BitVec.ofNat 96 word) with
          | .mma f => followOn s1 core g w e f false
          | .mmas f => followOn s1 core g w e f true
          | _ => s1)
    | _, _, _ => .next s

end Sys2Proof.Machine
end

