-- ==== Sys2Proof/Machine/Reductions.lean ====
section
/-! DEFINITION. Peer sets and collectives (R181, R328), stream reductions (R183, R330), and reduction windows (R182, R247). -/

namespace Sys2Proof.Machine

/-- The writes of a command that have not been performed (R244). -/
def State.hasEntries (s : State) (gid cid : Nat) : Bool :=
  let mine : WbEntry → Bool := fun e => e.gid = gid && e.cid = cid
  (((s.group? gid).map fun g => g.draining.any mine).getD false) || (s.wbanks.any fun b => b.2.any mine)

/-! ## Peer sets (R328) -/

/-- The members of a peer set as devices with their ASIDs, in rank order; none when the address space has no table or the set is refused
(R307, R328). -/
def State.peerSet (s : State) (asid set : Nat) : Option (List (Nat × Nat)) :=
  let table := fieldNat (s.ascb asid) 48 8
  let row := rdBytes s.mem (hbmKey (table + 16 * set)) 16
  let n := fieldNat row 6 2
  let at_ := fieldNat row 8 8
  let ws := (List.range n).map fun r => rdNat s.mem (hbmKey (at_ + 4 * r)) 4
  let ms := ws.map fun w => (w % 1024, bitsOf w 21 10)
  if table = 0 || n = 0 || 1024 < n || fieldNat row 0 6 != 0 || at_ % 4 != 0 || 2 ^ 39 < at_ + 4 * n || ws.any (fun w => w / 2 ^ 22 != 0) ||
      !(ms.map (·.1)).Nodup || !ms.contains (s.conf.device, asid)
  then none
  else some ms

/-- This device's rank. -/
def State.rankIn (s : State) (asid : Nat) (ms : List (Nat × Nat)) : Nat := ms.findIdx (· = (s.conf.device, asid))

/-! ## COLL (R181) -/

/-- An element of a list of bytes. -/
def elemAt (size : Nat) (b : List Byte) (k : Nat) : Nat := fieldNat b (size * k) size

/-- The tree of the leaves in rank or source order, each node rounded under RNE (R118, R181, R183). -/
def reduceAt (t op size : Nat) (leaves : List (List Byte)) (k : Nat) : List Byte :=
  natBytes size (((redTree t op .rne 10 (leaves.map fun b => some (elemAt size b k))).1).getD 0)

/-- What each member contributes: first what the members match by, which is the peer set's number, the tag and the members in rank order
(R181, R328); then its kind, type, op and count; then its source elements. -/
def collMatch (b : List Byte) (ms : List (Nat × Nat)) : List Byte :=
  b.take 4 ++ (b.drop 28).take 4 ++ ms.flatMap fun m => natBytes 4 (m.1 + 2 ^ 10 * m.2)
def collHead (b : List Byte) : List Byte := (b.drop 4).take 4 ++ (b.drop 24).take 4

/-- The result of a collective at a rank, from every member's source. -/
def collResult (kind t op size count rank : Nat) (srcs : List (List Byte)) : List Byte :=
  match kind with
  | 0 => srcs.flatMap fun b => (b.take (size * count))
  | 1 => (List.range count).flatMap fun k => reduceAt t op size srcs (rank * count + k)
  | 2 => (List.range count).flatMap fun k => reduceAt t op size srcs k
  | _ => (srcs.getD 0 []).take (size * count)

/-- Bytes written into a draft in beats. -/
def draftBytes (c : Issuer) (e : ECmd) (obj off : Nat) (geometry : List Byte) : List Byte → Nat → State → Except (Option TrapInfo) State
  | bs, 0, s => if bs = [] then .ok s else .error none
  | bs, n + 1, s =>
    if bs = [] then .ok s
    else
      let k := 16 - off % 16
      match draftWrite s c e obj off geometry (bs.take k) with
      | .error x => .error x
      | .ok t => draftBytes c e obj (off + k) geometry (bs.drop k) n t

/-- A command's fault, which ends it. -/
def ECmd.fails (e : ECmd) (t : TrapInfo) : ECmd := { e with fault := some { t with deferred := true } }

/-- The members of a peer set have matched: the collective is computed, and this member's result goes to its draft. peers holds each
rank's contribution; this device's is read from its own view. Contributions that do not match are none, and the command waits. -/
def execCollectiveCompletion (core id : Nat) (peers : List (List Byte)) (s : State) : Host.Outcome State Fault Refusal :=
  match s.cmd? core id with
  | none => .next s
  | some e =>
    match e.kind, s.agentFor e.gid e.wid (s.entryOf e.gid e.wid e.pid) e.lanes with
    | .coll, some c =>
      if e.pos != 0 || e.fault.isSome || !s.cmdTurn e then .next s
      else if objClass (s.objEntry e.asid e.total) = 2 then .next (s.setCmd core (e.fails (unstatedAt s 0x1C2 0x13)))
      else match s.peerSet e.asid (fieldNat e.block 0 4) with
        | none => .next (s.setCmd core (e.fails (unstatedAt s 0x1C2 0x13)))
        | some ms =>
          let rank := s.rankIn e.asid ms
          let kind := fieldNat e.block 4 1
          let t := fieldNat e.block 5 1
          let size := redSize t
          let count := fieldNat e.block 24 4
          let e0 := { e with view := some (objPub (s.objEntry e.asid e.obj)) }
          let mine := collMatch e.block ms
          let k := mine.length
          let others := (List.range ms.length).filter (· != rank)
          if peers.length != ms.length || others.any (fun r => (peers.getD r []).take k != mine) then .next s
          else if others.any fun r => ((peers.getD r []).drop k).take 8 != collHead e.block then
            .next (s.setCmd core (e.fails (unstatedAt s 0x1C2 0x13)))
          else match viewFetch s c e0 e.srcA (size * count * if kind = 1 then ms.length else 1) with
            | .error none => .next s
            | .error (some x) => .next (s.setCmd core (e.fails x))
            | .ok f =>
              let srcs := (List.range ms.length).map fun r => if r = rank then f.bytes else (peers.getD r []).drop (k + 8)
              let out := collResult kind t (fieldNat e.block 6 2) size count rank srcs
              let s1 := (s.readAt f.from_).deadRecord e.gid e.wid c.ref.ent f.dead
              let s2 := s1.modPend e.gid e.wid e.pid fun q => { q with dead := f.dead.map (BitVec.ofNat 64) }
              match draftBytes c e0 e.total e.dstA (s.objEntry e.asid e.total) out (out.length + 1) s2 with
              | .error none => .next s
              | .error (some x) => .next (s2.setCmd core (e0.fails x))
              | .ok s3 => .next (s3.setCmd core { e0 with pos := 1 + out.length, bad := f.bad })
    | _, _ => .next s

/-! ## RSTREAM (R183, R330) -/

/-- The size of an element, and where in the image, from the destination on, the elements begin whose first byte lies in destination atom k
or after it; the draft's base need not be aligned, and atoms are those of memory (R314, R330). -/
def ECmd.elemSize (e : ECmd) : Nat := redSize (fieldNat e.block 13 1)
def ECmd.atomFrom (e : ECmd) (k : Nat) : Nat :=
  let z := e.elemSize
  min (fieldNat e.block 8 4 * z) ((32 * k - objDraft e.entry % 32 + z - 1) / z * z)

/-- The pieces of a range: atoms, else elements, else bytes. -/
def ECmd.stepAt (e : ECmd) (va n : Nat) : Nat := if va % 32 = 0 && n % 32 = 0 then 32 else if va % e.elemSize = 0 then e.elemSize else 1

/-- The elements' bytes of one source: what they are, or why the command must wait or end. -/
def streamSource (s : State) (c : Issuer) (e : ECmd) (n va : Nat) : Except (Option TrapInfo) Found :=
  let tr := s.translate c .read va n (e.stepAt va n)
  match s.xfault c .read va tr with
  | some t => .error (some t)
  | none =>
    let l := spotsOf 0 va tr
    if l.any fun x => x.unit.kind != .glazier then .error (some (c.precise 0x09 va))
    else if l.any fun x => !s.lostAt x.unit && !s.readTurn e e.id x then .error none
    else match l.findSome? (s.stampFault c c.task.determ) with
      | some t => .error (some t)
      | none => .ok (foundAll s c.grp false l)

/-- Those of the k sources, in their order. -/
def streamSources (s : State) (c : Issuer) (e : ECmd) (n : Nat) : List Nat → Except (Option TrapInfo) (List Found)
  | [] => .ok []
  | va :: rest =>
    match streamSource s c e n va with
    | .error x => .error x
    | .ok f =>
      match streamSources s c e n rest with
      | .error x => .error x
      | .ok l => .ok (f :: l)

/-- The 32-byte parts of the destination atom that part k belongs to: in a ganged frame an atom holds 64 bytes (R213, R215, R330). -/
def atomParts32 (s : State) (c : Issuer) (e : ECmd) (base k : Nat) : List Nat :=
  match s.xlate c.cluster c.task.asid c.task.part (base + e.dstA + e.atomFrom k) .write with
  | .ok x =>
    if x.gang then
      (if ((base + e.dstA) / 32 + k) % 2 = 0 then [k, k + 1] else if k = 0 then [k] else [k - 1, k]).filter (· < e.total)
    else [k]
  | _ => [k]

/-- One destination atom: its glazier reads the sources of the atom's elements, then writes them. -/
def streamAtom (s : State) (c : Issuer) (e : ECmd) (k : Nat) : Except (Option TrapInfo) (State × ECmd) :=
  let b := e.block
  let t := fieldNat b 13 1
  let base := objDraft (s.objEntry e.asid e.obj)
  let parts := atomParts32 s c e base k
  let first := parts.headD k
  let from_ := e.atomFrom first
  let n := e.atomFrom (first + parts.length) - from_
  let off := e.dstA + from_
  let va := base + off
  if objClass e.entry = 2 || base = 0 then .error (some (unstatedAt s 0x1C4 0x13))
  else match streamSources s c e n ((List.range (fieldNat b 12 1)).map fun i => fieldNat b (64 + 8 * i) 8 + from_) with
    | .error x => .error x
    | .ok fs =>
      let tr := s.translate c .write va n (e.stepAt va n)
      match s.xfault c .write va tr with
      | some x => .error (some x)
      | none =>
        let l := spotsOf 0 va tr
        if l.any fun x => x.unit.kind != .glazier then .error (some (c.precise 0x09 va))
        else if l.any (fun x => !s.lostAt x.unit && !s.readTurn e e.id x) || s.viewHeld e.asid va e.gid e.id then .error none
        else match l.findSome? (s.stampFault c false) with
          | some x => .error (some x)
          | none =>
            let out := ((List.range (n / redSize t)).flatMap fun k => reduceAt t (fieldNat b 14 1) (redSize t) (fs.map (·.bytes)) k).take
              (objEnd e.entry - off)
            let dead := fs.foldl (fun a f => least a f.dead) none
            let s1 := ((s.readAt (fs.flatMap (·.from_))).deadRecord e.gid e.wid c.ref.ent dead).expose c.grp
            let (gone, live) := l.partition fun x => s.lostAt x.unit
            let s2 := live.foldl (fun s x =>
              (s.readAt [(x.unit, x.key, x.n)]).store c.grp.core x.key ((out.drop x.off).take x.n)
                (s.stampFor e.gid e.wid e.count x.key)) s1
            let low : Option DWord → Option DWord := fun d => (least (d.map (·.toNat)) dead).map (BitVec.ofNat 64)
            let bad := fs.foldl (fun a f => least a f.bad) (least e.bad ((gone.head?).map (·.va)))
            .ok (s2.modPend e.gid e.wid e.pid (fun q => { q with dead := low q.dead }),
              { e with needs := parts.foldl (fun a p => sins p a) e.needs, bad := bad })

/-- An atom of a stream reduction, in any order, each once. -/
def execStreamReductionAtom (core id atom : Nat) (s : State) : Host.Outcome State Fault Refusal :=
  match s.cmd? core id with
  | none => .next s
  | some e =>
    match e.kind, s.agentFor e.gid e.wid (s.entryOf e.gid e.wid e.pid) e.lanes with
    | .rstream, some c =>
      if e.total ≤ atom || e.needs.contains atom || e.fault.isSome || !s.cmdTurn e then .next s
      else match streamAtom s c e atom with
        | .error none => .next s
        | .error (some t) => .next (s.setCmd core (e.fails t))
        | .ok (t, e1) => .next ((t.setCmd core e1).countLanded e1
            ((e1.needs.filter (!e.needs.contains ·)).foldl (fun n k => n + (e1.atomFrom (k + 1) - e1.atomFrom k)) 0))
    | _, _ => .next s

/-! ## Reduction windows (R182, R247) -/

/-- The switches hold a window from a member's open on, or the peer set is refused (R328). -/
def openWindow (s : State) (e : ECmd) : State × ECmd :=
  match s.peerSet e.asid e.hdrLen with
  | none => (s, e.fails (unstatedAt s 0x1C3 0x13))
  | some ms =>
    let r := s.rankIn e.asid ms
    ({ s with fresh := s.fresh + 1, windows := s.windows ++
        [{ id := s.fresh, tag := e.total, asid := e.asid, peerSet := e.hdrLen, base := e.srcA, len := e.len, part := e.part,
           members := [r], local_ := some r, ranks := ms.length }] }, { e with pos := 1 })

/-- The window that a command names, as this device's member opened it. -/
def State.windowOf (s : State) (e : ECmd) : Option Window :=
  s.windows.find? fun w => w.tag = e.total && w.asid = e.asid && w.peerSet = e.hdrLen && w.base = e.srcA && w.len = e.len

/-- The window that a command names, changed. -/
def State.modWindow (s : State) (e : ECmd) (f : Window → Window) : State :=
  match s.windowOf e with
  | none => s
  | some w => { s with windows := s.windows.map fun (x : Window) => if x.id = w.id then f x else x }

/-- Every access that the member has issued before a close is performed or merged: of all the groups of its address space, those on their
way (R247). -/
def windowQuiet (s : State) (e : ECmd) : Bool :=
  let late : WbEntry → Bool := fun x => x.cid < e.id && ((flook x.task s.tasks).map (·.asid)).getD 0 = e.asid
  !((s.warps.any fun p => s.asidOf (p.1 / 32) = e.asid && p.2.pend.any fun q => q.id < e.pid && isAccess q.kind) ||
    (s.groups.any fun g => g.2.draining.any late) || s.wbanks.any fun b => b.2.any late)

/-- This device's close is counted; a close of no window completes. -/
def closeWindow (s : State) (e : ECmd) : State × ECmd :=
  match s.windowOf e with
  | none => (s, { e with pos := 1 })
  | some w => (s.modWindow e fun x => { x with closedR := w.local_.toList.foldl (fun a r => sins r a) x.closedR }, e)

/-- Another member's contribution reaches the switches; one of no bytes is its close (R247). -/
def execSwitchMerge (window rank : Nat) (op : AtomOp) (size addr value : Nat) (s : State) : Host.Outcome State Fault Refusal :=
  match s.windows.find? (·.id = window) with
  | none => .next s
  | some w =>
    let put : (Window → Window) → Host.Outcome State Fault Refusal := fun f =>
      .next { s with windows := s.windows.map fun (x : Window) => if x.id = window then f x else x }
    if w.ranks ≤ rank || w.local_ = some rank || w.closedR.contains rank then .next s
    else if size = 0 then put fun x => { x with members := sins rank x.members, closedR := sins rank x.closedR }
    else if !windowMerges op || !((atomSizes op).any fun k => size = 2 ^ k) || addr % size != 0 || addr < w.base || w.base + w.len < addr + size
    then .next s
    else put fun x => { x.merge op size addr (value % 2 ^ (8 * size)) with members := sins rank x.members }

/-- Merged values performed at the home device's memory, one atomic for each address; an address that cannot be reached is reported by
the close (R177). -/
def deliverAll (c : Issuer) (e : ECmd) : List (Nat × AtomOp × Nat × Nat) → State → Option TrapInfo → Except Unit (State × Option TrapInfo)
  | [], s, f => .ok (s, f)
  | (va, op, size, v) :: rest, s, f =>
    match s.translate c .both va size size with
    | [(_, _, .ok x)] =>
      if s.lostAt x.unit then
        deliverAll c e rest (s.modPend e.gid e.wid e.pid fun q => { q with bad := least (q.bad.map (·.toNat)) (some va) |>.map (BitVec.ofNat 64) }) f
      else if !s.mayStart x.unit s.fresh [(x.key, size)] || s.viewHeld e.asid va e.gid e.id then .error ()
      else
        let a : AtomSpec := { op := op, size := size, rets := false, acq := false, rel := false,
                              lanes := [{ lane := 0, addr := x.key, va := va, b := v, c := 0 }], count := e.count }
        deliverAll c e rest (atomAt (s.readAt [(x.unit, x.key, size)]) c.grp (fun k => s.stampFor e.gid e.wid e.count k) a).st f
    | tr => deliverAll c e rest s (match f with
        | some t => some t
        | none => s.xfault c .both va tr)

/-- Every member has closed: the switches deliver the merged values, and this member's close may complete. A clash of operations ends it
with a deferred ACCESS_DENIED (R182, R247). -/
def execReductionWindowDelivery (window : Nat) (s : State) : Host.Outcome State Fault Refusal :=
  match s.windows.find? (·.id = window) with
  | none => .next s
  | some w =>
    let closing := s.cores.flatMap fun p => (p.2.engine.filter fun e => e.kind = .rwinClose && e.pos = 0 && s.windowOf e = some w).map fun e => (p.1, e)
    match closing with
    | (core, e) :: _ =>
      match s.agentFor e.gid e.wid (s.entryOf e.gid e.wid e.pid) e.lanes with
      | some c =>
        if !(List.range w.ranks).all w.closedR.contains then .next s
        else match deliverAll c e w.merged s none with
          | .error _ => .next s
          | .ok (t, f) =>
            let fault := match w.clash with
              | some a => some (c.precise 0x09 a)
              | none => f
            let e1 := { e with pos := 1, fault := fault.map fun t => { t with deferred := true } }
            .next ({ t with windows := t.windows.filter fun (x : Window) => x.id != window }.setCmd core e1)
      | none => .next s
    | [] => .next s

end Sys2Proof.Machine
end

