-- ==== Sys2Proof/Machine/Views.lean ====
section
/-! DEFINITION. Published views: the swap of PUBLISH (R184, R250, R313), the texels of SAMPLE (R186, R269, R317), and the completion of
engine commands with the signals of R178 and R251. -/

namespace Sys2Proof.Machine

/-! ## PUBLISH_SWAP (R184) -/

/-- A command's writes go to the draft of an object. -/
def ECmd.drafts (e : ECmd) (asid obj : Nat) : Bool :=
  e.dst = 4 && e.asid = asid && (if e.kind = .coll then e.total = obj else e.obj = obj)

/-- What a PUBLISH waits for: its own commit and the earlier accesses of its split, the commands on the draft that its group issued
before it, the writes of any command that still go to the draft, and the entries of earlier draws (R184, R261). -/
def publishReady (s : State) (p : Publish) : Bool :=
  (match p.cmd with
    | none => true
    | some e =>
      s.released e.gid e.cid && ((s.warp? e.gid e.wid).map fun w => w.earlierDone e.lanes e.pid).getD true &&
        !s.cores.any fun k => k.2.engine.any fun x => x.gid = e.gid && x.id < e.id && x.drafts p.asid p.obj) &&
  !(s.cores.any fun k => k.2.engine.any fun x => x.drafts p.asid p.obj && s.hasEntries x.gid x.id) &&
  !(s.draws.any fun d => d.asid = p.asid && d.obj = p.obj && d.id < p.id) && (s.openEntries p.asid p.obj).isEmpty

/-- The key of an object's entry (R313). -/
def State.entryKey (s : State) (asid obj : Nat) : Nat := hbmKey (fieldNat (s.ascb asid) 40 8 + 64 * obj)

/-- The views of an object are exchanged, and a target's method table is read again (R184, R256). -/
def State.swapViews (s : State) (asid obj core : Nat) (st : Option Stamp) : State :=
  let key := s.entryKey asid obj
  let b := (s.found key 0 16).bytes
  (s.store core key (b.drop 8 ++ b.take 8) st).readTable asid obj

/-- A PUBLISH that self-refresh has held too long is undone, and its group receives ECC_UNCORRECTABLE (R344, R353). -/
def State.dropPublish (s : State) (p : Publish) : State :=
  let s1 := { s with publishes := s.publishes.filter fun (q : Publish) => q.id != p.id }
  match p.cmd with
  | some e =>
    (s1.modPend e.gid e.wid e.pid fun q => { q with bad := some (BitVec.ofNat 64 (s.entryKey p.asid p.obj)) }).complete e.gid e.wid e.pid
  | none => s1

/-- Bytes [7:0] and [15:8] of the entry are exchanged in one step; PUBLISHes of an object take effect in the order of their arrival. -/
def execPublishSwap (id : Nat) (s : State) : Host.Outcome State Fault Refusal :=
  match s.publishes.find? (·.id = id) with
  | none => .next s
  | some p =>
    let key := s.entryKey p.asid p.obj
    let first := (s.publishes.find? fun q => q.asid = p.asid && q.obj = p.obj).map (·.id)
    let u : UnitRef := ⟨.glazier, hbmChannel key false⟩
    if first != some id || !publishReady s p then .next s
    else if s.lostAt u then .next (s.dropPublish p)
    else if !s.mayStart u s.fresh [(key, 16)] then .next s
    else
      let st := p.cmd.bind fun e => s.stampFor e.gid e.wid e.count key
      let core := ((p.cmd.bind fun e => s.group? e.gid).map (·.core)).getD 0
      let s1 := (s.started u s.fresh [(key, 16)]).swapViews p.asid p.obj core st
      let s2 := { s1 with publishes := s1.publishes.filter fun (q : Publish) => q.id != id }
      .next (match p.cmd with
        | some e =>
          match s2.group? e.gid with
          | some g => (s2.expose g).complete e.gid e.wid e.pid
          | none => s2
        | none => s2)

/-! ## SAMPLE (R186, R317) -/

/-- An element decoded to f32, with the STICKY bits of its rounding (R70, R186, R315). -/
def channelOf (t tag : Nat) (norm : Bool) (x : Nat) : Nat × Word :=
  if isWide t then f32.encode .rne ((wideOf t).decode x)
  else if t = 12 then f32.encode .rne ((narrow8 tag).decode 0 x)
  else if t = 13 then f32.encode .rne ((narrow4 tag).decode 0 x)
  else if norm then
    let d := 2 ^ typeBits t - 1
    let q := x * 2 ^ 128 / d
    f32.encode .rne (.fin false (2 * q + if x * 2 ^ 128 % d = 0 then 0 else 1) (-129))
  else f32.encode .rne (Val.ofInt (intOf t x))

/-- The channels that an object's texel has, completed: colour 0, alpha 1 (R186). -/
def fourChannels (l : List (Nat × Word)) : List (Nat × Word) :=
  (List.range 4).map fun k => l.getD k (if k = 3 then 0x3F800000 else 0, 0)

/-- The width and height of an object's texels. -/
def texelGrid (e : List Byte) : Nat × Nat :=
  if objClass e = 2 then (objExtent e 0, objExtent e 1) else (objExtent e 1, objExtent e 2)

/-- The image byte of record word w of sample k of a pixel (R253). -/
def recordByte (e : List Byte) (px py k w : Nat) : Nat :=
  tileByte e (tileIndex e (px / 8) (py / 8)) ((py % 8 * 8 + px % 8) * 4 * objSamples e * objRw e + 4 * objRw e * k + 4 * w)

/-- The bytes of a texel: where they lie and how many. -/
def texelSpan (e : List Byte) (i j : Nat) : Nat × Nat :=
  if objClass e = 2 then (recordByte e i j 0 0, 4)
  else (i * objStride e 1 + j * objStride e 2, (objExtent e 0 * typeBits (objType e) + 7) / 8)

/-- Element k of a texel's bytes. -/
def texelElem (t : Nat) (b : List Byte) (k : Nat) : Nat :=
  if t = 13 then bytesNat b / 16 ^ k % 16 else if t = 11 then fieldNat b (4 * k) 4 / 256 else elemAt (typeBits t / 8) b k

/-- A texel's channels. A class 2 object of a 64-bit type has no channels that the manual states: they are free values (log 3). -/
def texelOf (e : List Byte) (free : Nat) (b : List Byte) : List (Nat × Word) :=
  let t := objType e
  let n := if objClass e = 2 then min 4 (32 / typeBits t) else objExtent e 0
  if objClass e = 2 && is64 t then (List.range 4).map fun k => ((Config.freeValue (free + k)).toNat % 2 ^ 32, 0)
  else fourChannels ((List.range n).map fun k => channelOf t (bitsOf (objFormat e) 13 12) (bitOf (objFormat e) 15) (texelElem t b k))

/-- ⌊v × 2^k⌋; an infinity as a number beyond every index, a NaN as zero. -/
def floorAt (v : Val) (k : Int) : Int :=
  match v with
  | .nan => 0
  | .inf n => if n then -(2 ^ 200) else 2 ^ 200
  | .fin n m e =>
    let x : Int := if n then -(m : Int) else m
    if 0 ≤ e + k then x * 2 ^ (e + k).toNat else x / 2 ^ (-(e + k)).toNat

/-- An index into the image, clamped, or none when texels outside read as 0 (R186). -/
def texelIndex (outside : Bool) (i : Int) (n : Nat) : Option Nat :=
  if 0 ≤ i ∧ i < n then some i.toNat else if outside then none else if i < 0 then some 0 else some (n - 1)

/-- What SAMPLE reads for the lanes so far. -/
structure Sampled where
  got  : FMap Byte := []
  st   : Word := 0
  at_  : List (UnitRef × Nat × Nat) := []
  bad  : Option Nat := none
  dead : Option Nat := none
  deriving DecidableEq, Repr

/-- The texel at indices, from the view that the command has fixed. -/
def fetchTexel (s : State) (c : Issuer) (e : ECmd) (free : Nat) (i j : Int) : Except (Option TrapInfo) (List (Nat × Word) × Found) :=
  let (w, h) := texelGrid e.entry
  match texelIndex (bitOf e.total 1) i w, texelIndex (bitOf e.total 1) j h with
  | some x, some y =>
    let (off, n) := texelSpan e.entry x y
    match viewFetch s c e off n with
    | .error t => .error t
    | .ok f => .ok (texelOf e.entry free f.bytes, f)
  | _, _ => .ok (List.replicate 4 (0, 0), { bytes := [] })

/-- Several texels, in order. -/
def fetchTexels (s : State) (c : Issuer) (e : ECmd) : Nat → List (Int × Int) → Except (Option TrapInfo) (List (List (Nat × Word)) × Found)
  | _, [] => .ok ([], { bytes := [] })
  | free, (i, j) :: rest =>
    match fetchTexel s c e free i j with
    | .error t => .error t
    | .ok (x, f) =>
      match fetchTexels s c e (free + 4) rest with
      | .error t => .error t
      | .ok (l, g) => .ok (x :: l, { g with from_ := f.from_ ++ g.from_, bad := least f.bad g.bad, dead := least f.dead g.dead })

/-- A coordinate for the bilinear filter: the index, and the weight in 256ths. The weight of an infinite coordinate is a free value
(log 3). -/
def bilinearAt (free : Nat) (v : Val) : Int × Nat :=
  let u := v.add false (.fin true 1 (-1))
  let i := floorAt u 0
  (i, if u.isInf then (Config.freeValue free).toNat % 256 else (floorAt u 8 - 256 * i).toNat)

/-- The STICKY bits of one channel of some texels. -/
def channelBits (ts : List (List (Nat × Word))) (k : Nat) : Word := ts.foldl (fun a t => a ||| (t.getD k (0, 0)).2) 0

/-- A channel of four texels with their weights, the sum formed exactly and rounded once. -/
def blend (a b : Nat) (ts : List (List (Nat × Word))) (k : Nat) : Nat × Word :=
  let t : Nat → Val := fun n => f32.decode ((ts.getD n []).getD k (0, 0)).1
  let w : Nat → Nat → Nat → Val := fun n x y => (Val.fin false (x * y) (-16)).mul (t n)
  let z := f32.encode .rne (((w 0 (256 - a) (256 - b)).add false (w 1 a (256 - b))).add false ((w 2 (256 - a) b).add false (w 3 a b)))
  (z.1, z.2 ||| channelBits ts k)

/-- Four channels as bytes, with their STICKY bits. -/
def packChannels (f : Nat → Nat × Word) : List Byte × Word :=
  ((List.range 4).flatMap fun k => natBytes 4 (f k).1, (List.range 4).foldl (fun a k => a ||| (f k).2) 0)

/-- One lane's sample. -/
def sampleLane (s : State) (c : Issuer) (e : ECmd) (free lane uw vw : Nat) : Except (Option TrapInfo) ((List Byte × Word) × Found) :=
  let u := f32.decode uw
  let v := f32.decode vw
  let u := if u.isNan then .fin false 0 0 else u
  let v := if v.isNan then .fin false 0 0 else v
  if bitOf e.total 0 then
    let (i, a) := bilinearAt (free + 256 + 2 * lane) u
    let (j, b) := bilinearAt (free + 257 + 2 * lane) v
    match fetchTexels s c e (free + 16 * lane) [(i, j), (i + 1, j), (i, j + 1), (i + 1, j + 1)] with
    | .error t => .error t
    | .ok (ts, f) => .ok (packChannels (blend a b ts), f)
  else
    match fetchTexels s c e (free + 16 * lane) [(floorAt u 0, floorAt v 0)] with
    | .error t => .error t
    | .ok (ts, f) => .ok (packChannels fun k => (ts.getD 0 []).getD k (0, 0), f)

/-- The lanes of a SAMPLE, from the coordinates taken at issue. -/
def sampleLanes (s : State) (c : Issuer) (e : ECmd) : List Nat → Sampled → Except (Option TrapInfo) Sampled
  | [], r => .ok r
  | k :: rest, r =>
    let lane := fieldNat e.block (9 * k) 1
    match sampleLane s c e s.free lane (fieldNat e.block (9 * k + 1) 4) (fieldNat e.block (9 * k + 5) 4) with
    | .error t => .error t
    | .ok (bs, f) =>
      sampleLanes s c e rest { got := putBytes r.got (256 * lane) bs.1, st := r.st ||| bs.2, at_ := r.at_ ++ f.from_, bad := least r.bad f.bad, dead := least r.dead f.dead }

/-- SAMPLE reads every texel from the view fixed at its issue, and writes its registers and STICKY's bits; one that faults writes none (R70, R177,
R186, R249). -/
def sampleDone (s : State) (core : Nat) (c : Issuer) (e : ECmd) : State :=
  match sampleLanes s c e (List.range (e.block.length / 9)) {} with
  | .error none => s
  | .error (some t) =>
    ((s.modPend e.gid e.wid e.pid fun q => { q with items := [] }).complete e.gid e.wid e.pid |>.dropEngine core e.id).defer e.gid e.wid e.pid
      e.lanes t none
  | .ok r =>
    let s1 := (({ s with free := s.free + 1024 }).readAt r.at_).deadRecord e.gid e.wid c.ref.ent r.dead
    let s2 := s1.modPend e.gid e.wid e.pid fun q =>
      { q with got := r.got, sticky := r.st, bad := r.bad.map (BitVec.ofNat 64), dead := r.dead.map (BitVec.ofNat 64) }
    (s2.complete e.gid e.wid e.pid).dropEngine core e.id

/-! ## ENGINE_COMMAND_COMPLETION (R178, R251) -/

/-- The command ends: its flag completes, and its fault is delivered; a window that it has opened merges from here on (R120, R177, R247). -/
def endCmd (s : State) (core : Nat) (e : ECmd) : State :=
  let s0 := if e.kind = .rwinOpen && e.pos != 0 then s.modWindow e fun w => { w with ready := true } else s
  let s1 := s0.reportCmd { e with fault := none }
  let s2 := (s1.complete e.gid e.wid e.pid).dropEngine core e.id
  match e.fault with
  | some t => s2.defer e.gid e.wid e.pid e.lanes t none
  | none => s2

/-- The data of a command has all landed; a follow-on must have entered its queue. -/
def dataLanded (s : State) (e : ECmd) : Bool :=
  (e.fault.isSome ||
    (match e.kind with
      | .cpy | .gather => e.bytesToMove ≤ e.pos && e.follow.isNone
      | .coll | .rast | .rwinOpen | .rwinClose => e.pos != 0
      | .rstream => e.total ≤ e.needs.length
      | _ => false)) && !s.hasEntries e.gid e.id

/-- The draft bytes of a copy or a collective that have landed by its end (R159, R251). -/
def draftLanded (e : ECmd) : Nat :=
  match e.kind with
  | .cpy | .gather => if e.dst = 4 then min e.pos e.len else 0
  | .coll => e.pos - 1
  | _ => 0

/-- The data has landed: a filled slot is READY, and the draft's bytes are counted; a command that a fault has ended drops its follow-on and
gives none of the tail's signals (R108, R177, R179). -/
def landCmd (s : State) (core : Nat) (e : ECmd) : State :=
  let s1 := if e.dst = 5 then s.slotReady e core else s
  let s2 := s1.countLanded e (draftLanded e)
  let e1 := { e with view := none, stage := 1 }
  if e.fault.isSome then
    endCmd (if e.follow.isSome then s2.complete e.gid e.wid (e.pid + 1) else s2) core e1
  else s2.setCmd core e1

/-- In a redundant pair the leader gives the signals of a command (R350). -/
def signals (s : State) (e : ECmd) : Bool := ((s.group? e.gid).map fun g => g.member != 2).getD false

/-- The completion value is stored, as a .rel at .sys on behalf of the group, once what it covers is done (R178, R251). -/
def writeWord (s : State) (core : Nat) (c : Issuer) (e : ECmd) : State :=
  let va := blkWord e.block
  if va = 0 || !signals s e then s.setCmd core { e with stage := 2 }
  else if !c.warp.earlierDone e.lanes e.pid then s
  else
    let tr := s.translate c .write va 4 4
    match s.xfault c .write va tr with
    | some t => s.setCmd core { e.fails t with stage := 2 }
    | none =>
      match (spotsOf 0 va tr).findSome? (s.stampFault c false) with
      | some t => s.setCmd core { e.fails t with stage := 2 }
      | none =>
      let s1 := s.release e.gid e.wid 6
      let cnt := (((s1.group? e.gid).map (·.relCount)).getD 0) % 256
      let es := (spotsOf 0 va tr).map fun x =>
        ({ u := x.unit, bank := x.key / 64 % 16, bytes := sbBytes x (natBytes 4 (fieldNat e.block 56 4)) cnt, gid := e.gid, cid := e.id,
           task := c.grp.task, group := c.grp.index, cmd := true } : WbEntry)
      (((s1.expose c.grp).modGroup e.gid fun g => { g with draining := g.draining ++ es })).setCmd core { e with stage := 2 }

/-- The event record is appended once its queue has room, after the completion word has been written (R178, R292). -/
def putRecord (s : State) (core : Nat) (c : Issuer) (e : ECmd) : State :=
  let q := blkQueue e.block
  if s.hasEntries e.gid e.id then s
  else if q = 0xFFFF || !signals s e then endCmd s core e
  else if ((flook q (s.part e.part).heldRecs).getD []) != [] then s
  else
    match ((s.release e.gid e.wid 4).expose c.grp).putEvent e.part q (eventRecord e.blk (fieldNat e.block 62 2) 4 0 c.task.tid) with
    | some t => endCmd t core e
    | none => s

/-- A window's command does its work, once what a close covers is performed (R182, R247). -/
def windowWork (s : State) (core : Nat) (e : ECmd) : State :=
  if e.kind = .rwinOpen then
    let (t, e1) := openWindow s e
    t.setCmd core e1
  else if !s.released e.gid e.cid || !windowQuiet s e then s
  else
    let (t, e1) := closeWindow s e
    t.setCmd core e1

/-- The next part of a command's completion: its data has landed, the word is written, the record is appended and the flag completes. -/
def execEngineCommandCompletion (core id : Nat) (s : State) : Host.Outcome State Fault Refusal :=
  match s.cmd? core id with
  | none => .next s
  | some e =>
    match s.agentFor e.gid e.wid (s.entryOf e.gid e.wid e.pid) e.lanes with
    | none => .next s
    | some c =>
      .next (if e.kind = .tmov || e.kind = .mfill || e.kind = .publish then s
        else if e.kind = .sample then sampleDone s core c e
        else match e.stage with
          | 0 =>
            if (e.kind = .rwinOpen || e.kind = .rwinClose) && e.pos = 0 && e.fault.isNone then windowWork s core e
            else if dataLanded s e then landCmd s core e else s
          | 1 => writeWord s core c e
          | _ => putRecord s core c e)

end Sys2Proof.Machine
end

