-- ==== Sys2Proof/Machine/Tasks.lean ====
section
/-! DEFINITION. Tasks: the checks of a TCB (R287 to R289), the Locksmith (R293, R294), dependences (R290), the choice of cores and
the placement of groups, crews and redundant pairs (R191 to R194, R206, R296, R297, R348, R376, R390). -/

namespace Sys2Proof.Machine

/-! ## The TCB (R194, R287, R288) -/

def tcbWidth (t : List Byte) : Nat := tcbField t 336 8
def tcbThreads (t : List Byte) : Nat := tcbField t 320 16
/-- Warps of a group: ⌈T/W⌉ (R191). -/
def tcbWarps (t : List Byte) : Nat := (tcbThreads t + tcbWidth t - 1) / tcbWidth t
def tcbGroups (t : List Byte) : Nat := tcbField t 288 32
def tcbCrew (t : List Byte) : Nat := tcbField t 424 8
/-- The warps and the register field of a role: 0 copy, 1 matrix, 2 epilogue. -/
def roleWarps (t : List Byte) (k : Nat) : Nat := tcbField t (352 + 16 * k) 8
def roleRegs (t : List Byte) (k : Nat) : Nat := tcbField t (360 + 16 * k) 8
/-- A: the spill bytes of a warp (R297). -/
def spillArea (t : List Byte) : Nat := 16384 + tcbWidth t * tcbField t 544 32
/-- N of a warp (R194). -/
def warpRegs (t : List Byte) (w : Nat) : Nat :=
  16 * (if w < roleWarps t 0 then roleRegs t 0
    else if w < roleWarps t 0 + roleWarps t 1 then roleRegs t 1
    else if w < roleWarps t 0 + roleWarps t 1 + roleWarps t 2 then roleRegs t 2
    else tcbField t 344 8)
/-- The keys that a task names, each once (R293). -/
def tcbKeys (t : List Byte) : List Nat :=
  ((List.range 4).map fun k => tcbField t (640 + 16 * k) 16).foldl (fun a k => if k = 0xFFFF then a else sins k a) []

/-- Reason 1: a reserved field or bit. -/
def tcbReserved (t : List Byte) : Bool :=
  tcbField t 34 30 != 0 || tcbField t 437 11 != 0 || tcbField t 604 4 != 0 || tcbField t 580 12 != 0 || tcbField t 1168 368 != 0

/-- Reason 2: a field outside its range, or fields that do not go together (R194, R289, R297, R348). -/
def tcbRange (t : List Byte) : Bool :=
  let w := tcbWidth t
  let k := tcbField t 1152 16
  let q := tcbField t 608 16
  let roleBad := (List.range 3).any fun r => roleWarps t r != 0 && (roleRegs t r = 0 || 16 < roleRegs t r)
  let wg := tcbWarps t
  (w != 16 && w != 32 && w != 64) || tcbThreads t = 0 || 32 * w < tcbThreads t || 32 < wg || tcbGroups t = 0 || tcbField t 344 8 = 0 ||
    16 < tcbField t 344 8 || roleBad || wg < roleWarps t 0 + roleWarps t 1 + roleWarps t 2 || 32 < tcbField t 400 8 ||
    8 < tcbField t 408 8 || 64 < tcbField t 416 8 || tcbCrew t = 0 || 8 < tcbCrew t || tcbField t 448 32 % 4096 != 0 ||
    262144 < tcbField t 448 32 || tcbField t 480 32 % 65536 != 0 || 4194304 < tcbField t 480 32 || tcbField t 512 32 % 2097152 != 0 ||
    tcbField t 544 32 % 64 != 0 || (255 ≤ q && q != 0xFFFF) || k = 0 || 1024 < k || tcbField t 512 32 < k * wg * spillArea t ||
    (1 < tcbCrew t && tcbField t 432 1 = 1) || (tcbField t 436 1 = 1 && (1 < tcbCrew t || 1 < wg))

/-- Reason 3: a key that is not the partition's, or keys of two dies (R293). -/
def tcbKeysBad (s : State) (part : Nat) (t : List Byte) : Bool :=
  let ks := tcbKeys t
  ks.any fun k =>
    k < fget 0 part s.conf.keyBase || fget 0 part s.conf.keyBase + fget 0 part s.conf.keyNum ≤ k || ks.any fun j => j / 16384 != k / 16384

/-! ## Cores (R296, R322, R371, R373) -/

/-- A core in service. -/
def State.inService (s : State) (core : Nat) : Bool :=
  1 ≤ s.stage && core < 384 && !s.conf.outCores.contains core && (2 ≤ s.stage || s.tested.contains core)

/-- The eligible cores of a task. -/
def State.eligible (s : State) (part : Nat) (t : List Byte) : List Nat :=
  (List.range 384).filter fun c =>
    let d := coreDie c
    let k := coreCluster c % 12
    s.inService c && !(s.core c).retiring && bitOf (tcbField t 576 16) d && bitOf (tcbField t 592 16) k &&
      bitOf (fget 0 (part * 4 + d) s.conf.clusters) k

def State.groupsOn (s : State) (core : Nat) : List (Nat × Group) := s.groups.filter fun p => p.2.core = core
def State.warpsOn (s : State) (core : Nat) : List Warp :=
  (s.groupsOn core).flatMap fun p => (s.warpsOf p.1).map (·.2)

/-- What a group asks of a core, row by row, with the core's capacity of it. -/
def demandRows (t : List Byte) : List (Nat × Nat) :=
  [(((List.range (tcbWarps t)).foldl (fun a w => a + warpRegs t w * tcbWidth t * 4) 0), 262144), (tcbWarps t, 64),
   (tcbField t 448 32 / 4096, 64), (tcbField t 400 8, 32), (tcbField t 408 8, 8), (tcbField t 416 8, 64), (1, 16)]

/-- What a core's groups use of each row. -/
def State.usedRows (s : State) (core : Nat) : List Nat :=
  let gs := s.groupsOn core
  let ws := s.warpsOn core
  let sum : (Group → Nat) → Nat := fun f => gs.foldl (fun a p => a + f p.2) 0
  [ws.foldl (fun a w => a + w.nregs * w.width * 4) 0, ws.length, sum (·.benchSize) / 4096, sum (·.slotCount), sum (·.tileCount),
   sum (·.barCount), gs.length]

/-- The limiting row: the largest ratio of demand to capacity, the earlier on a tie. -/
def limiting (rows : List (Nat × Nat)) : Nat :=
  (rows.foldl (fun (a : Nat × Nat × (Nat × Nat)) r => (a.1 + 1, if a.2.2.1 * r.2 < r.1 * a.2.2.2 then (a.1, r) else a.2))
    (0, 0, (0, 1))).2.1

/-- The free capacity of a row on a core. -/
def State.freeOf (s : State) (core row : Nat) (rows : List (Nat × Nat)) : Nat := (rows.getD row (0, 0)).2 - (s.usedRows core).getD row 0

/-! ## Room (R193, R209, R297) -/

/-- The lowest run of a size that begins at a multiple of step and meets no used run. -/
def freeRun (used : List (Nat × Nat)) (size total step : Nat) : Option Nat :=
  ((List.range (total / step)).map (· * step)).find? fun a => a + size ≤ total && !used.any fun u => u.2 != 0 && overlaps a size u.1 u.2

/-- Bays and slots for a group's warps, in rotation from the bay with the fewest (R193). -/
def placeWarps (ws : List Warp) (t : List Byte) : Option (List (Nat × Nat)) :=
  let count : List Warp → Nat → Nat := fun l b => (l.filter (·.bay = b)).length
  let start := (List.range 4).foldl (fun a b => if count ws b < count ws a then b else a) 0
  ((List.range (tcbWarps t)).foldl (fun (a : Option (List Warp × List (Nat × Nat))) w =>
    match a with
    | none => none
    | some (l, out) =>
      let bay := (start + w) % 4
      let mine := l.filter (·.bay = bay)
      let need := warpRegs t w * tcbWidth t * 4
      match (List.range 16).find? fun k => !mine.any (·.slot = k) with
      | none => none
      | some slot =>
        if 65536 < mine.foldl (fun n x => n + x.nregs * x.width * 4) need then none
        else some ({ width := tcbWidth t, nregs := warpRegs t w, bay := bay, slot := slot } :: l, out ++ [(bay, slot)])) (some (ws, []))).map (·.2)

/-- The runs of a die's yard in use: those of tasks, and the checkpoint areas of redundant leaders (R297, R348). -/
def State.yardRuns (s : State) (die : Nat) : List (Nat × Nat) :=
  (s.tasks.filterMap fun p => (flook die p.2.yard).map fun b => (b, p.2.field 512 32)) ++
    (s.groups.filter fun p => coreDie p.2.core = die).map fun p => (p.2.ckBase, p.2.ckSize)

/-- The checkpoint area that a leader needs: its group's and its warp's rows (R319, R348). -/
def checkpointSize (t : List Byte) : Nat :=
  16384 + ((demandRows t).headD (0, 0)).1 + tcbField t 448 32 * 9 / 8 + 14336 * tcbField t 400 8 + 49152 * tcbField t 408 8

/-! ## Placing a group (R60, R106, R143, R191, R206, R297) -/

/-- The lanes of a warp (R191). -/
def warpLanes (t : List Byte) (w : Nat) : Mask := maskOf fun l => l < tcbWidth t && w * tcbWidth t + l < tcbThreads t

/-- A warp at placement (R206). -/
def freshWarp (t : List Byte) (index w bay slot spill : Nat) : Warp :=
  { width := tcbWidth t, nregs := warpRegs t w, bay := bay, slot := slot,
    sregs := (List.range 16).foldl (fun m i => fset 0 i (BitVec.ofNat 32 (tcbField t (1536 + 32 * i) 32)) m) [],
    seed := BitVec.ofNat 64 (tcbField t 192 64 ^^^ (index * 256 + w)), fpctl := fpctlOf (tcbField t 256 32),
    trapbase := BitVec.ofNat 64 (tcbField t 128 64 % 2 ^ 61), spill := spill,
    table := [(0, .split { pc := BitVec.ofNat 64 (tcbField t 64 64), held := warpLanes t w, exm := warpLanes t w })] }

/-- Bytes of memory from an address on, no longer listed. -/
def State.wipe (s : State) (key n : Nat) : State := { s with mem := s.mem.filter fun p => !(key ≤ p.1 && p.1 < key + n) }
/-- The stamps of a range, clear (R238). -/
def State.wipeStamps (s : State) (key n : Nat) : State :=
  { s with stamps := s.stamps.filter fun p => !(key / 32 ≤ p.1 && p.1 < (key + n) / 32) }

/-- Where a group goes on a core: yard allocation, spill slot, bench, tiles, checkpoint area, bays and warp slots (R193, R209, R297). -/
structure Room where
  yard   : Nat
  spill  : Nat
  bench  : Nat
  tile   : Nat
  ck     : Nat
  places : List (Nat × Nat)
  deriving DecidableEq, Repr

/-- The checkpoint area of a leader, in whole 2 MiB units (R348). -/
def ckArea (t : List Byte) (member : Nat) : Nat := if member = 1 then (checkpointSize t + 2097151) / 2097152 * 2097152 else 0

/-- The room for a group on a core, when every demand fits (R296, R297). -/
def State.room (s : State) (t : Task) (core member : Nat) : Option Room :=
  let im := t.image
  let die := coreDie core
  let rows := demandRows im
  let used := s.usedRows core
  let gs := (s.groupsOn core).map (·.2)
  if (List.range 7).any fun k => (rows.getD k (0, 0)).2 < used.getD k 0 + (rows.getD k (0, 0)).1 then none
  else
    let yardSize := t.field 512 32
    let yard := match flook die t.yard with
      | some b => some b
      | none => freeRun (s.yardRuns die) yardSize 134217728 2097152
    let spill := (List.range (t.field 1152 16)).find? fun j => (flook (die * 1024 + j) t.spills).isNone
    let bench := freeRun (gs.map fun g => (g.benchBase, g.benchSize)) (t.field 448 32) 262144 4096
    let tile := freeRun (gs.map fun g => (g.tileBase, g.tileCount)) (t.field 408 8) 64 1
    match yard, spill, bench, tile, placeWarps (s.warpsOn core) im with
    | some yb, some j, some bb, some tb, some places =>
      (freeRun ((yb, yardSize) :: s.yardRuns die) (ckArea im member) 134217728 2097152).map fun ck => ⟨yb, j, bb, tb, ck, places⟩
    | _, _, _, _, _ => none

/-- The group of a task in its room; it has the state's next number. -/
def State.groupIn (s : State) (t : Task) (key idx core crew member : Nat) (pair : Option Nat) (r : Room) : Group :=
  let im := t.image
  let taken := (s.groupsOn core).flatMap fun p => p.2.slots.map (·.2.phys)
  let phys := (List.range 32).filter fun k => !taken.contains k
  { task := key, index := idx, core := core, crew := crew, member := member, pair := pair, nwarps := tcbWarps im, benchBase := r.bench,
    benchSize := t.field 448 32, spillSlot := r.spill, slotCount := t.field 400 8,
    slots := (List.range (t.field 400 8)).map (fun k => (k, ({ phys := phys.getD k 0 } : Slot))),
    tileCount := t.field 408 8, tileBase := r.tile, barCount := t.field 416 8, ckBase := r.ck, ckSize := ckArea im member,
    placed := some s.cycle }

/-- A group placed on a core: every demand must fit. The group takes the state's next number; its index in the task is idx (R296). -/
def State.putGroup (s : State) (key idx core crew member : Nat) (pair : Option Nat) : Option State :=
  match flook key s.tasks with
  | none => none
  | some t =>
    (s.room t core member).map fun r =>
      let im := t.image
      let die := coreDie core
      let g := s.groupIn t key idx core crew member pair r
      let gid := s.fresh
      let top := t.field 512 32 - (r.spill + 1) * g.nwarps * spillArea im
      let s1 := (({ s with fresh := s.fresh + 1 } : State).setGroup gid g).modTask key fun t =>
        { t with yard := fput die r.yard t.yard, spills := fput (die * 1024 + r.spill) gid t.spills }
      let s2 := (List.range g.nwarps).foldl (fun s w =>
        let p := r.places.getD w (0, 0)
        s.setWarp gid w (freshWarp im idx w p.1 p.2 (top + w * spillArea im))) s1
      let s3 := ((s2.wipe (validKey core (r.bench / 4)) (g.benchSize / 4)).wipe (tileKey core r.tile 0 0) (65536 * g.tileCount)).wipeStamps
        (benchKey core r.bench) g.benchSize
      let s4 := if (flook die t.yard).isNone then s3.wipeStamps (yardKey die r.yard) (t.field 512 32) else s3
      s4.scrivGroup g 0x02 (BitVec.ofNat 64 (t.tid * 2 ^ 32 + idx))

/-- Where a crew's shop allocation goes on a cluster (R192, R297). -/
def State.shopRoom (s : State) (t : Task) (cluster : Nat) : Option Nat :=
  freeRun ((s.crews.filter fun p => p.2.cluster = cluster).map fun p => (p.2.shopBase, p.2.shopSize)) (t.field 480 32) 4194304 65536

/-- A crew's shop allocation and the crew itself, which takes the state's next number (R192, R297). -/
def State.putCrew (s : State) (key cluster relaunch : Nat) : Option State :=
  match flook key s.tasks with
  | none => none
  | some t =>
    match s.shopRoom t cluster with
    | none => none
    | some b =>
      let c : Crew := { task := key, groups := [], cluster := cluster, shopBase := b, shopSize := t.field 480 32, relaunch := relaunch }
      some (({ s with fresh := s.fresh + 1, crews := fput s.fresh c s.crews } : State).wipeStamps (shopKey cluster b) (t.field 480 32))

/-- The next group of a crew on a core: the crew is made with its first. -/
def State.putMember (s : State) (key idx core relaunch member : Nat) (crew pair : Option Nat) : Option (State × Nat) :=
  match (match crew with
    | some k => some (s, k)
    | none => (s.putCrew key (coreCluster core) relaunch).map fun t => (t, s.fresh)) with
  | none => none
  | some (s1, k) =>
    (s1.putGroup key idx core k member pair).map fun t =>
      (t.modCrew k fun c => { c with groups := c.groups ++ [s1.fresh] }, k)

/-- The core that R296 chooses among some: where the group fits and the limiting resource is most free, the lowest on a tie. -/
def State.chooseCore (s : State) (key member : Nat) (crew : Option Nat) (cores : List Nat) : Option Nat :=
  match flook key s.tasks with
  | none => none
  | some t =>
    let rows := demandRows t.image
    let row := limiting rows
    (cores.foldl (fun (a : Option (Nat × Nat)) c =>
      if (s.room t c member).isNone || (crew.isNone && (s.shopRoom t (coreCluster c)).isNone) then a
      else
        let f := s.freeOf c row rows
        match a with
        | some (best, n) => if n < f then some (c, f) else some (best, n)
        | none => some (c, f)) none).map (·.1)

/-- A whole crew placed on one cluster, in index order (R390). -/
def State.putCrewOn (s : State) (key relaunch : Nat) (cores : List Nat) : List Nat → Option Nat → Option State
  | [], _ => some s
  | idx :: rest, crew =>
    match s.chooseCore key 0 crew cores with
    | none => none
    | some c =>
      match s.putMember key idx c relaunch 0 crew none with
      | none => none
      | some (t, k) => t.putCrewOn key relaunch cores rest (some k)

/-- The cluster of a crew, and the crew placed on it (R390). -/
def State.placeCrew (s : State) (key relaunch : Nat) (idxs cores : List Nat) : Option State :=
  let onCluster : Nat → List Nat := fun k => cores.filter fun c => coreCluster c = k
  let cands := (List.range 48).filter fun k => onCluster k != [] && (s.putCrewOn key relaunch (onCluster k) idxs none).isSome
  match s.chooseCore key 0 none (cores.filter fun c => cands.contains (coreCluster c)) with
  | none => none
  | some c => s.putCrewOn key relaunch (onCluster (coreCluster c)) idxs none

/-- A redundant pair: the leader by R296, then the trailer on another cluster if one can hold it, each with a crew of its own; for a core of
another cluster that can hold it and takes no placement in this cycle the pair waits (R296, R348, R376). -/
def State.placePair (s : State) (key idx relaunch : Nat) (cores later : List Nat) : Option State :=
  match s.chooseCore key 1 none cores with
  | none => none
  | some a =>
    match s.putMember key idx a relaunch 1 none none with
    | none => none
    | some (s1, _) =>
      let lead := s1.fresh - 1
      let away := cores.filter fun c => coreCluster c != coreCluster a
      let near := cores.filter fun c => coreCluster c = coreCluster a && c != a
      let choice := match s1.chooseCore key 2 none away with
        | some c => some c
        | none => if (s1.chooseCore key 2 none (later.filter fun c => coreCluster c != coreCluster a)).isSome then none else s1.chooseCore key 2 none near
      match choice with
      | none => none
      | some b =>
        (s1.putMember key idx b relaunch 2 none (some lead)).map fun p =>
          p.1.modGroup lead fun g => { g with pair := some (p.1.fresh - 1) }

/-- Groups placed together: one group, a pair, or a crew. Cores of later take no placement in this cycle. -/
def State.placeUnit (s : State) (key relaunch : Nat) (t : Task) (idxs cores later : List Nat) : Option State :=
  match idxs with
  | [i] =>
    if t.redundant then s.placePair key i relaunch cores later
    else (s.chooseCore key 0 none cores).bind fun c => (s.putMember key i c relaunch 0 none none).map (·.1)
  | _ => s.placeCrew key relaunch idxs cores

/-! ## The Locksmith (R293, R294) -/

/-- A task goes to the dispatcher; what has freed one of its keys is remembered (R270, R291, R294). -/
def State.grantTask (s : State) (key : Nat) : State :=
  match flook key s.tasks with
  | none => s
  | some t =>
    let ks := tcbKeys t.image
    let past := (s.tasks.filter fun p => p.2.stage = .done && meets ks (tcbKeys p.2.image)).map (·.1)
    ({ s with fresh := s.fresh + 1, keys := ks.foldl (fun m k => fput k key m) s.keys } : State).modTask key fun t =>
      { t with stage := .granted, order := s.fresh, keysFrom := past.foldl (fun a k => sins k a) t.keysFrom }

/-- A die's Locksmith examines its list from the oldest task on; only the first 4,096 are on it (R294). -/
def lockScan : List Nat → State → List Nat → List Nat → State × List Nat
  | [], s, waiting, _ => (s, waiting)
  | k :: rest, s, waiting, named =>
    match flook k s.tasks with
    | none => lockScan rest s waiting named
    | some t =>
      let ks := tcbKeys t.image
      if waiting.length < 4096 && ks.all fun x => (flook x s.keys).isNone && !named.contains x then
        lockScan rest (s.grantTask k) waiting named
      else lockScan rest s (waiting ++ [k]) (named ++ ks)

def State.lockGrant (s : State) (die : Nat) : State :=
  let (t, w) := lockScan ((flook die s.lockWait).getD []) s [] []
  { t with lockWait := fput die w t.lockWait }

/-- The key of a TCB's state word. -/
def State.stateKey (s : State) (asid va : Nat) : Option Nat :=
  match s.walk asid va with
  | .leaf e l => if bitsOf e 55 52 = 0 then some (leafXlat e l va).key else none
  | _ => none

/-- Two addresses name one state word: they are the same, or reach the same bytes (R291). -/
def State.sameWord (s : State) (asid va asid' va' : Nat) : Bool :=
  (asid = asid' && va = va') || (match s.stateKey asid va, s.stateKey asid' va' with
    | some k, some k' => cell k = cell k'
    | _, _ => false)

/-- A task is queued: with the Locksmith if it names a key, else with the dispatcher; its predecessors are remembered (R270, R290, R294). -/
def State.queueTask (s : State) (key : Nat) : State :=
  match flook key s.tasks with
  | none => s
  | some t =>
    let past := (s.tasks.filter fun p => p.2.stage = .done && p.2.succs.any fun va => s.sameWord p.2.asid va t.asid t.tcb).flatMap fun p =>
      p.1 :: p.2.after
    let s1 := s.modTask key fun t => { t with after := past.foldl (fun a k => sins k a) t.after }
    match tcbKeys t.image with
    | [] => s1.grantTask key
    | k :: _ =>
      let die := k / 16384
      ({ s1.modTask key (fun t => { t with stage := .locks }) with
        lockWait := fput die ((flook die s1.lockWait).getD [] ++ [key]) s1.lockWait }).lockGrant die

/-! ## Spawning (R289, R290, R306, R307) -/

/-- Bytes read at their keys; those of a dead frame are zero (R219). -/
def State.atKeys (s : State) (keys : List Nat) : List Byte := keys.map fun k => if s.deadAt k then 0 else rdByte s.mem (cell k)

/-- What a read of bytes that fails is recorded with: that of its first byte that cannot be reached (R309, R323). -/
def State.noteRange (s : State) (cluster asid part va n : Nat) : Option (Nat × Nat × Nat) :=
  ((List.range n).find? fun i => match s.xlate cluster asid part (va + i) .read with
    | .ok _ => false
    | _ => true).bind fun i => s.noteFor cluster asid part .read (va + i)

/-- Bytes at a virtual address as a master reads them from this device's HBM: their keys. -/
def State.hbmKeys (s : State) (cluster asid part va n : Nat) : Option (List Nat) :=
  let l := (List.range n).map fun i => s.xlate cluster asid part (va + i) .read
  if l.all fun x => match x with
    | .ok y => y.unit.kind = .glazier
    | _ => false
  then some (l.filterMap fun x => match x with
    | .ok y => some y.key
    | _ => none)
  else none

/-- Some core, or some cluster, could hold a group or a crew of the task with nothing else there (reason 5). -/
def couldHold (s : State) (part : Nat) (t : Task) : Bool :=
  let bare := { s with groups := [], warps := [], crews := [], tasks := [(0, { t with yard := [], spills := [] })] }
  (bare.placeUnit 0 0 t (List.range (min (tcbCrew t.image) (tcbGroups t.image))) (bare.eligible part t.image) []).isSome

/-- Why a TCB is refused: the lowest reason (R289, R307). -/
def refusal (s : State) (part asid tcb : Nat) (t : Task) : Option Nat :=
  lowest [(tcb % 256 != 0 || tcbReserved t.image, 1),
    (tcbRange t.image || !s.ascbOk asid || fieldNat (s.ascb asid) 1 1 % 16 != part, 2), (tcbKeysBad s part t.image, 3),
    (tcbField t.image 32 1 = 1, 4), (!tcbRange t.image && !couldHold s part t, 5)]

/-- A record on a TCB's event queue (R287, R292). -/
def State.tcbEvent (s : State) (part : Nat) (image : List Byte) (kind status ident addr : Nat) : State :=
  let q := tcbField image 608 16
  if 255 ≤ q then s else s.holdEvent part q (eventRecord addr (tcbField image 624 16) kind status ident)

/-- The dispatcher may not yet read a TCB and write its state word (R216, R353). -/
def State.spawnWaits (s : State) (cluster asid part tcb : Nat) : Bool := ((s.hbmKeys cluster asid part tcb 256).map s.keysWait).getD false

/-- A spawn: the reason of its refusal, or 0, and the task identifier (R289). Under an ASCB that is not sound no TCB can be read: reason 2,
with no identifier (R307; log 122). -/
def State.spawn (s : State) (cluster asid part tcb : Nat) : State × Nat × Nat :=
  match s.hbmKeys cluster asid part tcb 256 with
  | none =>
    ((s.recordWalk asid part (s.noteRange cluster asid part tcb 256)).errRecord part asid tcb 0 0xFFFFFFFF 0 0 7,
      if s.ascbOk asid then 1 else 2, 0)
  | some keys =>
    let image := s.atKeys keys
    let p := s.part part
    let tid := p.nextTid
    let s1 := (s.visit keys).setPart part { p with nextTid := if tid + 1 = 2 ^ 32 then 1 else tid + 1 }
    let t : Task := { tid := tid, part := part, asid := asid, tcb := tcb, image := image }
    match refusal s part asid tcb t with
    | some r => (s1.tcbEvent part image 2 r tid tcb, r, tid)
    | none =>
      let ready := tcbField image 0 32 = 0 && tcbField image 33 1 = 0
      let word := tcbField image 0 32 + 2 ^ 32 + (if ready || tcbField image 33 1 = 1 then 2 ^ 33 else 0)
      let key := s1.fresh
      let s2 := { s1 with fresh := s1.fresh + 1, tasks := fput key t s1.tasks }.store 0 (keys.headD 0) (natBytes 8 word) none
      (if ready then s2.queueTask key else s2, 0, tid)

/-- The task that was spawned from a state word, by the address of its word: none once it has retired. -/
def State.taskAt (s : State) (key : Nat) : Option (Nat × Task) :=
  s.tasks.find? fun p => p.2.stage != .done && (s.stateKey p.2.asid p.2.tcb).map cell = some (cell key)

/-- One successor of a retiring task: its count falls, and it is queued or reported (R290, R292). -/
def State.releaseOne (s : State) (asid part va : Nat) : State :=
  match s.stateKey asid va, s.hbmKeys 48 asid part va 256 with
  | some key, some keys =>
    let w := bytesNat (s.found key va 8).bytes
    let count := (w + 2 ^ 32 - 1) % 2 ^ 32
    let ready := count = 0 && bitOf w 32 && !bitOf w 33
    let s1 := (s.visit keys).store 0 key (natBytes 8 (w / 2 ^ 32 * 2 ^ 32 + count + if ready then 2 ^ 33 else 0)) none
    let mine := s.taskAt key
    let s2 := match ready, mine with
      | true, some (k, t) => if t.stage = .waiting then s1.queueTask k else s1
      | _, _ => s1
    if 2 ^ 31 ≤ count then
      s2.tcbEvent part (s.atKeys keys) 5 0 ((mine.map fun p => p.2.tid).getD 0) va
    else s2
  | _, _ => (s.recordWalk asid part (s.noteRange 48 asid part va 256)).errRecord part asid va 0 0xFFFFFFFF 0 0 7

/-- The overflow list of successors: 8-byte addresses up to the first zero, at most 4,096 (R287). -/
def State.overflow (s : State) (asid part : Nat) : Nat → Nat → List Nat
  | 0, _ => []
  | n + 1, va =>
    match s.hbmKeys 48 asid part va 8 with
    | none => []
    | some keys =>
      let a := bytesNat (s.atKeys keys)
      if a = 0 then [] else a :: s.overflow asid part n (va + 8)

/-- Where the list ends because it cannot be read on. -/
def State.overflowStop (s : State) (asid part : Nat) : Nat → Nat → Option Nat
  | 0, _ => none
  | n + 1, va =>
    match s.hbmKeys 48 asid part va 8 with
    | none => some va
    | some keys => if bytesNat (s.atKeys keys) = 0 then none else s.overflowStop asid part n (va + 8)

/-- The reads of a task's overflow list: one that fails is recorded as a released successor's is (R309, R323, R355). -/
def State.noteOverflow (s : State) (t : Task) : State :=
  if t.field 704 64 = 0 then s
  else match s.overflowStop t.asid t.part 4096 (t.field 704 64) with
    | some va => (s.recordWalk t.asid t.part (s.noteRange 48 t.asid t.part va 8)).errRecord t.part t.asid va 0 0xFFFFFFFF 0 0 7
    | none => s

/-- The successors of a task, in list order. -/
def State.successors (s : State) (t : Task) : List Nat :=
  ((List.range 6).map fun k => t.field (768 + 64 * k) 64).takeWhile (· != 0) ++
    (if t.field 704 64 = 0 then [] else s.overflow t.asid t.part 4096 (t.field 704 64))

/-! ## Placement (R296, R298, R300, R390) -/

/-- What is to be placed next: a saved crew, groups to be placed anew, or the lowest group not placed. -/
inductive Unplaced where
  | saved (x : Saved)
  | groups (idxs : List Nat) (avoid : List Nat) (relaunch : Nat)
  deriving DecidableEq, Repr

/-- The lowest group index of a saved crew. -/
def Saved.lead (x : Saved) : Nat := (x.groups.map (·.index)).foldl min (2 ^ 32)

/-- The groups of the crew that a group index begins (R192). -/
def crewOf (t : Task) (i : Nat) : List Nat := (upFrom (i / tcbCrew t.image * tcbCrew t.image) (tcbCrew t.image)).filter (· < tcbGroups t.image)

/-- The next of a task to be placed; none for a task that has ended, is being saved, or has nothing left (R300, R342). -/
def State.nextUnit (s : State) (key : Nat) (t : Task) : Option Unplaced :=
  if t.stage != .granted || t.ended.isSome then none
  else if t.saving then
    (if s.restore = some key then
      match t.saved with
      | [] => none
      | x :: rest => some (.saved (rest.foldl (fun a y => if y.lead < a.lead then y else a) x))
     else none)
  else match t.redo with
    | i :: _ =>
      let n := t.redo.foldl min i
      some (.groups (crewOf t n) (t.redoFrom.filterMap fun x => if x / 64 = n then some (x % 64) else none) (fget 0 n t.redoCnt))
    | [] => if t.next < tcbGroups t.image then some (.groups (crewOf t t.next) [] 0) else none

/-- A cluster that has had no placement in this cycle (R296). -/
def State.clusterFree (s : State) (k : Nat) : Bool := !s.groups.any fun p => coreCluster p.2.core = k && p.2.placed = some s.cycle

/-- The cores for a unit: a crew to be placed anew avoids the clusters where it was ended, if another eligible one is in service
(R343). -/
def coresFor (u : Unplaced) (cores : List Nat) : List Nat :=
  match u with
  | .saved _ => cores
  | .groups _ avoid _ =>
    let l := cores.filter fun c => !avoid.contains (coreCluster c)
    if l = [] then cores else l

end Sys2Proof.Machine
end

