-- ==== Sys2Proof/Machine/Contexts.lean ====
section
/-! DEFINITION. Contexts: what a saved crew holds, at addresses relative to its allocations, and its return to other ones (R318 to R321,
R350, R351), the freeing of a group, and the registers PREEMPT and RESTORE (R320). -/

namespace Sys2Proof.Machine

/-! ## Relative addresses -/

/-- A range of memory keys and where it lies among the relative addresses. -/
structure Span where
  key : Nat
  n   : Nat
  rel : Nat
  deriving DecidableEq, Repr

def relOf (l : List Span) (k : Nat) : Option Nat := (l.find? fun x => x.key ≤ k && k < x.key + x.n).map fun x => x.rel + (k - x.key)
def absOf (l : List Span) (r : Nat) : Option Nat := (l.find? fun x => x.rel ≤ r && r < x.rel + x.n).map fun x => x.key + (r - x.rel)

/-- The ranges of a group: bench, valid bits, spill slot, operand slots that are not FREE (R108), tiles. k is its place in the crew. -/
def groupSpans (t : Task) (k : Nat) (g : Group) : List Span :=
  let b := 10 * region + k * 2 ^ 36
  let d := coreDie g.core
  let area := tcbWarps t.image * spillArea t.image
  [⟨benchKey g.core g.benchBase, g.benchSize, b⟩, ⟨validKey g.core (g.benchBase / 4), g.benchSize / 4, b + 2 ^ 24⟩,
   ⟨yardKey d (fget 0 d t.yard + (t.field 512 32 - (g.spillSlot + 1) * area)), area, b + 2 ^ 32⟩] ++
  (g.slots.filter (·.2.state != 0)).map (fun p => ⟨slotKey g.core p.2.phys 0, 2 ^ 14, b + 2 ^ 26 + p.1 * 2 ^ 14⟩) ++
  (List.range g.tileCount).map fun i => ⟨tileKey g.core (g.tileBase + i) 0 0, 65536, b + 2 ^ 30 + i * 65536⟩

/-- The ranges of a crew. -/
def crewSpans (t : Task) (c : Crew) (gs : List Group) : List Span :=
  ⟨shopKey c.cluster c.shopBase, c.shopSize, 10 * region + 2 ^ 48⟩ :: gs.zipIdx.flatMap fun p => groupSpans t p.2 p.1

def yardRel (die : Nat) : Nat := 10 * region + 2 ^ 60 + die * 2 ^ 27
/-- The mark that a die's yard has been saved. -/
def yardMark (die : Nat) : Nat := 10 * region + 2 ^ 61 + die
def yardSpan (t : Task) (die dst : Nat) : Span := ⟨yardKey die (fget 0 die t.yard), t.field 512 32, yardRel dst⟩

/-- The bytes and the stamps of some ranges. -/
def State.collect (s : State) (l : List Span) : FMap Byte × FMap Stamp :=
  (s.mem.foldl (fun m p => match relOf l p.1 with
      | some r => fput r p.2 m
      | none => m) [],
   s.stamps.foldl (fun m p => match relOf l (p.1 * 32) with
      | some r => fput (r / 32) p.2 m
      | none => m) [])

/-- The ranges hold these bytes and stamps and nothing else. -/
def State.spread (s : State) (l : List Span) (bytes : FMap Byte) (stamps : FMap Stamp) : State :=
  { s with
    mem := bytes.foldl (fun m p => match absOf l p.1 with
      | some k => wrByte m k p.2
      | none => m) (s.mem.filter fun p => (relOf l p.1).isNone),
    stamps := stamps.foldl (fun m p => match absOf l (p.1 * 32) with
      | some k => fput (k / 32) p.2 m
      | none => m) (s.stamps.filter fun p => (relOf l (p.1 * 32)).isNone) }

/-! ## What names a group or a place moves with it -/

def moveKeys {α : Type} (f : Nat → Nat) (m : FMap α) : FMap α := m.foldl (fun a p => fput (f p.1) p.2 a) []
def Barrier.moved (f : Nat → Nat) (b : Barrier) : Barrier :=
  { b with splits := b.splits.map fun (a : Arrival) => { a with gid := f a.gid },
           arrived := b.arrived.map fun (a : Arrival) => { a with gid := f a.gid } }
def barsMoved (f : Nat → Nat) (m : FMap Barrier) : FMap Barrier := m.map fun p => (p.1, p.2.moved f)
def Pend.moved (f : Nat → Nat) (q : Pend) : Pend :=
  match q.kind with
  | .pbwait a p => { q with kind := .pbwait (f a) p }
  | _ => q
def Held.moved (f : Nat → Nat) (u : UnitRef → UnitRef) : Held → Held
  | .atomic parts => .atomic (parts.map fun p => (u p.1, { p.2 with lanes := p.2.lanes.map fun (l : AtomLane) => { l with addr := f l.addr } }))
  | e => e
def Group.moved (f : Nat → Nat) (gid : Nat → Nat) (u : UnitRef → UnitRef) (g : Group) : Group :=
  { g with bars := barsMoved gid g.bars, sbuf := (moveKeys f g.sbuf).map fun (p : Nat × SbByte) => (p.1, { p.2 with unit := u p.2.unit }),
           held := g.held.map (·.moved f u), pbOpen := moveKeys f g.pbOpen, pbDone := moveKeys f g.pbDone, stopped := false }
/-- A warp as it is saved: no split holds a port, and a split with no run under way has no latches. -/
def Warp.atRest (w : Warp) : Warp :=
  { w with table := w.table.map fun (p : Nat × Entry) => (p.1, p.2.modSplit fun x =>
      { x with bound := none, prio := false, run := if x.run.count = 0 then {} else x.run }) }

/-- The commands of a group that have not completed, with their queues, the running one first (R318). -/
def State.commandsOf (s : State) (g : Group) (gid : Nat) : List (Nat × MCmd) :=
  let k := s.core g.core
  ((match k.running with
    | some p => [p]
    | none => []) ++ k.queues.flatMap fun q => q.2.map fun m => (q.1, m)).filter fun p => p.2.gid = gid

/-- A crew as it is saved (R319). -/
def State.saveCrew (s : State) (t : Task) (c : Crew) : Saved :=
  let gs := c.groups.filterMap fun i => (s.group? i).map fun g => (i, g)
  let own := crewSpans t c (gs.map (·.2))
  let all := own ++ t.yard.map fun p => yardSpan t p.1 p.1
  let f : Nat → Nat := fun k => (relOf all k).getD k
  let pos : Nat → Nat := fun i => (gs.map (·.1)).idxOf i
  let data := s.collect own
  { crew := { c with bars := barsMoved pos c.bars }, groups := gs.map fun p => p.2.moved f pos id,
    warps := gs.zipIdx.flatMap fun (p : (Nat × Group) × Nat) =>
      (s.warpsOf p.1.1).map fun (w : Nat × Warp) => (p.2, w.1, { w.2.atRest with pend := w.2.pend.map (·.moved f) }),
    bytes := data.1, stamps := data.2,
    cmds := gs.flatMap fun p => (s.commandsOf p.2 p.1).map fun (m : Nat × MCmd) => (m.1, { m.2 with gid := pos p.1 }),
    moves := gs.flatMap fun p => ((s.core p.2.core).engine.filter (·.gid = p.1)).map fun (e : ECmd) => { e with gid := pos p.1 } }

/-- Nothing of a group is in the matrix array's queues or on a port; a command of it that the array runs stops at its next subtile boundary
(R342). -/
def State.dropWork (s : State) (core gid : Nat) : State :=
  s.modCore core fun k =>
    { k with arrayFrom := match k.running with
               | some (_, m) => if m.gid = gid then max k.arrayFrom (m.ends + m.cycles s.stage * (m.sub + 1)) else k.arrayFrom
               | none => k.arrayFrom,
             queues := k.queues.map fun (q : Nat × List MCmd) => (q.1, q.2.filter fun (m : MCmd) => m.gid != gid),
             running := k.running.filter fun (p : Nat × MCmd) => p.2.gid != gid,
             finishing := k.finishing.filter fun (m : MCmd) => m.gid != gid,
             ports := k.ports.filter fun (p : Nat × SplitRef) => p.2.gid != gid }

/-- The moves of a group are dropped, at a rollback (R351). -/
def State.dropMoves (s : State) (core gid : Nat) : State :=
  s.modCore core fun k => { k with engine := k.engine.filter fun (e : ECmd) => e.gid != gid }

/-- A saved crew's state on groups that stand in its place, one for each of its own (R321, R351). -/
def State.overlay (s : State) (x : Saved) (gids : List Nat) : State :=
  let gs := gids.filterMap fun i => (s.group? i).map fun g => (i, g)
  match gs with
  | [] => s
  | (_, g0) :: _ =>
    match flook g0.task s.tasks, flook g0.crew s.crews with
    | some t, some c =>
      let slots : Group → Group → FMap Slot := fun o n => o.slots.map fun (q : Nat × Slot) => (q.1, { q.2 with phys := (n.slot q.1).phys })
      let own := crewSpans t c (gs.zipIdx.map fun p => match x.groups[p.2]? with
        | some o => { p.1.2 with slots := slots o p.1.2 }
        | none => p.1.2)
      let d := s.yardDie g0
      let all := own ++ (List.range 4).map fun k => yardSpan t d k
      let f : Nat → Nat := fun r => (absOf all r).getD r
      let u : UnitRef → UnitRef := fun u => if u.kind = .yard then ⟨.yard, d⟩ else u
      let at_ : Nat → Nat := fun k => gids.getD k 0
      let s1 := gs.zipIdx.foldl (fun s (p : (Nat × Group) × Nat) => match x.groups[p.2]? with
        | none => s
        | some o =>
          let n := p.1.2
          let o1 := o.moved f at_ u
          s.setGroup p.1.1 { o1 with
            core := n.core, crew := n.crew, member := n.member, pair := n.pair, benchBase := n.benchBase, spillSlot := n.spillSlot,
            tileBase := n.tileBase, ckBase := n.ckBase, ckSize := n.ckSize, placed := n.placed, slots := slots o n }) s
      let s2 := s1.modCrew g0.crew fun k =>
        { x.crew with groups := k.groups, cluster := k.cluster, shopBase := k.shopBase, shopSize := k.shopSize, ending := none,
                      exposed := k.exposed || x.crew.exposed, bars := barsMoved at_ x.crew.bars }
      let s3 := x.warps.foldl (fun s (p : Nat × Nat × Warp) => match s.warp? (at_ p.1) p.2.1 with
        | none => s
        | some n => s.setWarp (at_ p.1) p.2.1 { p.2.2 with bay := n.bay, slot := n.slot, spill := n.spill, pend := p.2.2.pend.map (·.moved f) }) s2
      let s4 := s3.spread own x.bytes x.stamps
      let s5 := x.cmds.foldl (fun s (p : Nat × MCmd) => match s.group? (at_ p.2.gid) with
        | none => s
        | some g =>
          let m := { p.2 with gid := at_ p.2.gid, slotA := (g.slot p.2.lslotA).phys, slotB := (g.slot p.2.lslotB).phys }
          s.modCore g.core fun k => { k with queues := fput p.1 ((flook p.1 k.queues).getD [] ++ [m]) k.queues }) s4
      x.moves.foldl (fun s e => match s.group? (at_ e.gid) with
        | none => s
        | some g => s.addCmd g.core { e with gid := at_ e.gid }) s5
    | _, _ => s

/-! ## Freeing (R207) -/

/-- A group's resources return: its places, its spill slot, and with its crew's last group the shop allocation. -/
def State.freeGroup (s : State) (gid : Nat) : State :=
  match s.group? gid with
  | none => s
  | some g =>
    let s1 := (s.dropWork g.core gid).modTask g.task fun t => { t with spills := t.spills.filter fun p => p.2 != gid }
    let s2 := s1.modCrew g.crew fun k => { k with groups := k.groups.filter (· != gid) }
    { s2 with groups := fdel gid s2.groups, warps := s2.warps.filter fun p => p.1 / 32 != gid,
              crews := s2.crews.filter fun p => p.1 != g.crew || p.2.groups != [],
              places := s2.places.map fun (p : Nat × Glazier) => (p.1, { p.2 with waiters := p.2.waiters.filter fun (w : Waiter) => w.gid != gid }) }

/-- The crews of a task. -/
def State.crewsOf (s : State) (key : Nat) : List (Nat × Crew) := s.crews.filter fun p => p.2.task = key

/-- A request of a group is queued at some place. -/
def State.hasRequests (s : State) (gid : Nat) : Bool := s.places.any fun p => p.2.queue.any fun r => r.gid = gid

/-- Writes of a group are on their way. -/
def State.hasDrains (s : State) (gid : Nat) : Bool :=
  (((s.group? gid).map fun g => g.draining != []).getD false) || s.wbanks.any fun b => b.2.any fun e => e.gid = gid

/-- Commands of a group are with the copy engine or another engine. -/
def State.hasCommands (s : State) (g : Group) (gid : Nat) : Bool :=
  ((s.core g.core).engine.any fun e => e.gid = gid) || s.draws.any fun d => d.cmd.gid = gid

/-! ## PREEMPT (R318 to R320) -/

/-- A wait that may stay outstanding in a saved warp. -/
def savedWait (cmds : List (Nat × MCmd)) (q : Pend) : Bool :=
  match q.kind with
  | .barrier _ _ | .pbwait _ _ | .lsync => true
  | .engine => cmds.any fun m => m.2.pid = q.id
  | _ => false

/-- A split at a place where pre-emption acts: no handler, no trap, no run under way unless it is parked. -/
def Split.quiet (x : Split) : Bool :=
  x.handler.isNone && x.trap.isNone && !x.second && (x.parked.isSome || x.bound.isNone || x.run.count = 0)

/-- The other member of a redundant group's pair has come to the same place, with nothing buffered (R318, R347, R350). -/
def State.pairDrained (s : State) (gid : Nat) (g : Group) : Bool :=
  match g.pair.bind fun k => (s.group? k).map fun h => (k, h) with
  | none => true
  | some (k, h) =>
    h.sbuf = [] && h.atCommit.isNone && !h.stopped && (s.warp? gid 0).map (·.issued) = (s.warp? k 0).map (·.issued) &&
      (s.warpsOf k).all fun w => w.2.splits.all fun p => p.2.quiet

/-- The issued work of a crew has drained, its buffers have committed, and the array runs no command of it (R127, R318). -/
def State.drained (s : State) (c : Crew) : Bool :=
  c.ending.isNone && c.groups.all fun gid => match s.group? gid with
    | none => true
    | some g =>
      let cmds := s.commandsOf g gid
      !g.stopped && !((s.core g.core).running.any fun p => p.2.gid = gid) && !s.hasRequests gid && !s.hasDrains gid && !s.hasCommands g gid && !(s.posts.any fun p => p.gid = gid) &&
        !((s.core g.core).finishing.any fun m => m.gid = gid) && g.sbuf = [] && g.atCommit.isNone && g.differs.isNone && s.pairDrained gid g &&
        (s.warpsOf gid).all fun w => w.2.pend.all (savedWait cmds) && w.2.splits.all fun p => p.2.quiet

/-- The bytes that a context area must have (R319). -/
def areaNeed (s : State) (key : Nat) (t : Task) : Nat :=
  let regs := ((demandRows t.image).headD (0, 0)).1
  65536 + (s.groups.filter fun p => p.2.task = key).length *
      (16384 + regs + 9 * t.field 448 32 / 8 + 14336 * t.field 400 8 + 49152 * t.field 408 8) +
    (s.crewsOf key).length * (35 * t.field 480 32 / 32) + t.yard.length * (35 * t.field 512 32 / 32)

/-- The area lies in this device's HBM, in regions that no partition owns (R319, R323). -/
def areaOk (s : State) (base need : Nat) : Bool :=
  base % 65536 = 0 && base + need ≤ 2 ^ 39 &&
    (upFrom (base / 2 ^ 21) ((base + need - 1) / 2 ^ 21 - base / 2 ^ 21 + 1)).all fun r =>
      !bitOf (fget 0 r s.conf.owners) 7 && r * 2 ^ 21 % 2 ^ 36 < 0xFC0000000

/-- The task that a write to PREEMPT or RESTORE names. -/
def State.named (s : State) (v : DWord) : Option (Nat × Task) :=
  s.tasks.find? fun p => p.2.tid = v.toNat % 2 ^ 32 && p.2.part = bitsOf v.toNat 35 32 &&
    (p.2.stage = .locks || p.2.stage = .granted) && p.2.ended.isNone

/-- The waiters of a task are withdrawn with status 3 (R161). -/
def State.withdraw (s : State) (key : Nat) : State :=
  s.places.foldl (fun s p =>
    let out := p.2.waiters.filter fun w => ((s.group? w.gid).map fun g => decide (g.task = key)).getD false
    let s1 := { s with places := fmod p.1 (fun (q : Glazier) => { q with waiters := q.waiters.filter fun w => !out.contains w }) s.places }
    out.foldl (fun s w => s.wakeOne w 0 3 fun _ => []) s1) s

/-- A task's pre-emption begins, with a context area. -/
def State.beginSave (s : State) (key area : Nat) : State :=
  (({ s with preFail := false, preempt := some key } : State).withdraw key).modTask key fun t =>
    { t with saving := true, ctx := area, ctxLen := areaNeed s key t }

/-- A write to PREEMPT: none while one is under way; it fails for a task that is not there and for an area that does not do. -/
def State.startSave (s : State) (v : DWord) : State :=
  if s.preempt.isSome then s
  else match s.named v with
    | none => { s with preFail := true }
    | some (key, t) =>
      if t.saving || !areaOk s s.ctxbase.toNat (areaNeed s key t) then { s with preFail := true }
      else s.beginSave key s.ctxbase.toNat

def execPreemptWrite (v : DWord) (s : State) : Host.Outcome State Fault Refusal := .next (s.startSave v)

/-- A saved task's yard, keys and area: the yard is freed, and with it stands what an earlier save holds of dies that the task has not used since;
what the area holds is the device's own (R318, R319). -/
def finishSave (s : State) (key : Nat) (t : Task) : State :=
  let l := t.yard.map fun p => yardSpan t p.1 p.1
  let data := s.collect l
  let need := t.ctxLen
  let kept := (List.range 4).filter fun d => (flook (yardMark d) t.savedYard).isSome && (flook d t.yard).isNone
  let old : Nat → Bool := fun r => kept.any fun d => r = yardMark d || (yardRel d ≤ r && r < yardRel (d + 1))
  let marks := t.yard.foldl (fun m p => fput (yardMark p.1) 1 m) ((t.savedYard.filter fun p => old p.1).foldl (fun m p => fput p.1 p.2 m) data.1)
  let stamps := (t.savedStamps.filter fun p => old (p.1 * 32)).foldl (fun m p => fput p.1 p.2 m) data.2
  let s1 := { s with
    free := s.free + need, preempt := none,
    mem := wrBytes s.mem (hbmKey t.ctx) ((List.range need).map fun i => BitVec.ofNat 8 (Config.freeValue (s.free + i)).toNat) }
  s1.modTask key fun t => { t with savedYard := marks, savedStamps := stamps, yard := [], spills := [] }

/-- The record of a group's save or restore (R358). -/
def State.scrivContext (s : State) (g : Group) (t : Task) (back : Nat) : State :=
  s.scrivGroup g 0x04 (BitVec.ofNat 64 (t.tid * 2 ^ 32 + g.index % 2 ^ 31 * 2 + back))

/-- The next crew of a task under pre-emption, in decreasing index order: its stores are committed, those of a redundant pair after its
members agree (R347, R350), and once its work has drained it is saved and freed; with no crew left the save is complete. A task that has ended meanwhile is not saved. -/
def execPreemptSaveComplete (key : Nat) (s : State) : Host.Outcome State Fault Refusal :=
  match flook key s.tasks with
  | none => .next s
  | some t =>
    if s.preempt != some key then .next s
    else if t.ended.isSome || t.stage = .done then .next { s with preempt := none, preFail := true }
    else
      let lead : Crew → Nat := fun c => ((c.groups.filterMap s.group?).map (·.index)).foldl max 0
      match (s.crewsOf key).foldl (fun (a : Option (Nat × Crew)) p => match a with
          | some q => if lead q.2 < lead p.2 then some p else a
          | none => some p) none with
      | none => .next (finishSave s key t)
      | some (cid, c) =>
        let s1 := s.withdraw key
        match c.groups.find? fun gid => !t.redundant && ((s1.group? gid).map fun g => g.sbuf != []).getD false with
        | some gid => .next (s1.commit gid)
        | none =>
          if !s1.drained c then .next s1
          else
            let x := s1.saveCrew t c
            let gs := c.groups.filterMap s1.group?
            let s2 := c.groups.foldl (fun s gid => s.freeGroup gid) s1
            let s3 := gs.foldl (fun s g => s.scrivContext g t 0) s2
            .next (({ s3 with crews := fdel cid s3.crews } : State).modTask key fun t => { t with saved := t.saved ++ [x] })

/-- A write to RESTORE: a restore begins for a saved task whose area CTXBASE names; with no crews saved it is complete at once (R320,
R321). -/
def State.startRestore (s : State) (v : DWord) : State :=
  if s.restore.isSome then s
  else match s.named v with
    | none => { s with resFail := true }
    | some (key, t) =>
      if !t.saving || s.preempt = some key || t.ctx != s.ctxbase.toNat then { s with resFail := true }
      else if t.saved = [] then ({ s with resFail := false } : State).modTask key fun t => { t with saving := false }
      else { s with resFail := false, restore := some key }

def execRestoreWrite (v : DWord) (s : State) : Host.Outcome State Fault Refusal := .next (s.startRestore v)

end Sys2Proof.Machine
end

