-- ==== Sys2Proof/Machine/Placement.lean ====
section
/-! DEFINITION. Placement by the dispatcher: grant order, blocking and one placement for each cluster and cycle (R296, R390), refill
(R298), the first checkpoint of a pair (R350) and the return of a saved crew (R321). -/

namespace Sys2Proof.Machine

/-- A unit placed on some of the cores. -/
def State.tryUnit (s : State) (key : Nat) (t : Task) (u : Unplaced) (cores later : List Nat) : Option State :=
  match u with
  | .groups idxs _ r => s.placeUnit key r t idxs cores later
  | .saved x => s.placeUnit key x.crew.relaunch t (x.groups.map (·.index)) cores later

/-- The cores for a task's next unit. -/
def State.coresOf (s : State) (t : Task) (u : Unplaced) : List Nat := coresFor u (s.eligible t.part t.image)

/-- The tasks that have something to place. -/
def State.placeable (s : State) : List (Nat × Task × Unplaced) :=
  s.tasks.filterMap fun p => (s.nextUnit p.1 p.2).map fun u => (p.1, p.2, u)

/-- The oldest of them; when its next group fits nowhere, it blocks the cores eligible to it for every younger task (R296). -/
def State.blocking (s : State) : Option (Nat × List Nat) :=
  match (s.placeable).foldl (fun (a : Option (Nat × Task × Unplaced)) p => match a with
      | some q => if p.2.1.order < q.2.1.order then some p else a
      | none => some p) none with
  | none => none
  | some (key, t, u) =>
    if (s.tryUnit key t u (s.coresOf t u) []).isNone then some (key, s.eligible t.part t.image) else none

/-- A task's next unit placed in this cycle, where blocking and the clusters' other placements allow it. -/
def State.placeNow (s : State) (block : Option (Nat × List Nat)) (key : Nat) (t : Task) (u : Unplaced) : Option State :=
  let open_ := (s.coresOf t u).filter fun c => match block with
    | some (k, cores) => k = key || !cores.contains c
    | none => true
  let (now, later) := open_.partition fun c => s.clusterFree (coreCluster c)
  s.tryUnit key t u now later

/-- The task after some of its groups have been placed. -/
def Task.took (t : Task) (idxs : List Nat) : Task :=
  let anew := idxs.any t.redo.contains
  { t with next := if anew then t.next else idxs.foldl (fun a i => max a (i + 1)) t.next,
           redo := t.redo.filter fun i => !idxs.contains i, redoFrom := t.redoFrom.filter fun x => !idxs.contains (x / 64) }

/-- The groups that a placement has made. -/
def newGroups (before after : State) : List Nat := (after.groups.filter fun p => before.fresh ≤ p.1).map (·.1)

/-- The first checkpoint of a pair is its state at placement (R350). -/
def State.firstCheck (s : State) (key : Nat) (gids : List Nat) : State :=
  match flook key s.tasks, gids.getLast? with
  | some t, some gid =>
    match t.redundant, s.group? gid with
    | true, some g =>
      match flook g.crew s.crews with
      | some c => s.modTask key fun t => { t with checkpt := fput g.index (s.saveCrew t c) t.checkpt }
      | none => s
    | _, _ => s
  | _, _ => s

/-- The yard of a die that a group is the first to use: what was saved of that die, once, else of a restored group's former one (R319, R321;
log 135). -/
def State.loadYards (s : State) (key : Nat) (old : Task) (former : Option Nat) : State :=
  match flook key s.tasks with
  | none => s
  | some t =>
    (t.yard.filter fun p => (flook p.1 old.yard).isNone).foldl (fun s p =>
      match (if (flook (yardMark p.1) t.savedYard).isSome then some p.1 else former) with
      | some d => (s.spread [yardSpan t p.1 d] t.savedYard t.savedStamps).modTask key fun t => { t with savedYard := fdel (yardMark p.1) t.savedYard }
      | none => s) s

/-- The saved crews that return with one: in a redundant task both members of its pair, the leader's first. -/
def withPartner (t : Task) (x : Saved) : List Saved :=
  let l := if t.redundant then t.saved.filter fun y => y.lead = x.lead else [x]
  (l.filter fun y => y.groups.all fun g => g.member != 2) ++ l.filter fun y => y.groups.any fun g => g.member = 2

/-- A saved crew's groups have places: its state returns to them, with the records of a restore (R321, R358). -/
def State.returnCrew (before s : State) (key : Nat) (t : Task) (x : Saved) : State :=
  let gids := newGroups before s
  let s1 := ({ s with cores := before.cores } : State).loadYards key t ((x.groups.map (·.core)).map coreDie).head?
  let back := withPartner t x
  let s2 := if t.redundant then (back.zip gids).foldl (fun s p => s.overlay p.1 [p.2]) s1 else s1.overlay x gids
  let s3 := (gids.filterMap s2.group?).foldl (fun s g => s.scrivContext g t 1) s2
  let left := t.saved.filter fun y => !back.contains y
  let parked := gids.flatMap fun gid => (s3.warpsOf gid).flatMap fun w =>
    (w.2.splits.filter fun p => p.2.parked.isSome).map fun p => (⟨gid, w.1, p.1⟩ : SplitRef)
  let s4 := ({ s3 with woken := s3.woken ++ parked } : State).modTask key fun t =>
    if left = [] then { t with saved := [], saving := false } else { t with saved := left }
  if left = [] then { s4 with restore := none } else s4

/-- What follows a placement. -/
def State.settled (before after : State) (key : Nat) (t : Task) (u : Unplaced) : State :=
  match u with
  | .saved x => before.returnCrew after key t x
  | .groups idxs _ _ => ((after.loadYards key t none).modTask key (·.took idxs)).firstCheck key (newGroups before after)

/-- A crew of several groups. -/
def Unplaced.several (t : Task) : Unplaced → Bool
  | .saved x => !t.redundant && 1 < x.groups.length
  | .groups idxs _ _ => 1 < idxs.length

/-- The next unit of a task is placed, unless an older task's can be placed first; the last crew may have one group (R192). -/
def placeTask (several : Bool) (key : Nat) (s : State) : State :=
  match flook key s.tasks with
  | none => s
  | some t =>
    match s.nextUnit key t with
    | none => s
    | some u =>
      let block := s.blocking
      if (u.several t && !several) || (several && !u.several t && tcbCrew t.image = 1) ||
        s.placeable.any (fun p => p.2.1.order < t.order && (s.placeNow block p.1 p.2.1 p.2.2).isSome) then s
      else match s.placeNow block key t u with
        | none => s
        | some s1 => s.settled s1 key t u

def execGroupPlacement (key : Nat) (s : State) : Host.Outcome State Fault Refusal := .next (placeTask false key s)
def execCrewPlacement (key : Nat) (s : State) : Host.Outcome State Fault Refusal := .next (placeTask true key s)

/-- The lowest group not placed takes the place of one that has retired on a core, in the same cycle, if it fits (R298). -/
def State.refill (s : State) (key core : Nat) : State :=
  match flook key s.tasks with
  | none => s
  | some t =>
    match s.nextUnit key t with
    | some (.groups [i] a r) =>
      if t.redundant || tcbCrew t.image != 1 || t.saving || !(s.coresOf t (.groups [i] a r)).contains core then s
      else match s.putMember key i core r 0 none none with
        | some (s1, _) => s.settled s1 key t (.groups [i] a r)
        | none => s
    | _ => s

end Sys2Proof.Machine
end

