-- ==== Sys2Proof/Machine/Retire.lean ====
section
/-! DEFINITION. Retirement of groups and tasks (R207, R291, R298, R304), the ending of crews (R342 to R345), and the comparison of a
redundant pair (R349 to R352). -/

namespace Sys2Proof.Machine

/-! ## GROUP_RETIRE (R207, R304) -/

/-- An operation that a retirement waits for: not one that waits for other agents. -/
def holdsRetirement (q : Pend) : Bool :=
  match q.kind with
  | .barrier _ _ | .pbwait _ _ | .waiter _ _ | .lsync => false
  | _ => true

/-- Everything that a group has issued is done and its warps have retired (R207). -/
def State.atRest (s : State) (gid : Nat) (g : Group) : Bool :=
  let ws := s.warpsOf gid
  ws != [] && ws.all (fun p => p.2.retired && !p.2.pend.any holdsRetirement) && g.deferred = [] && !s.hasCommands g gid &&
    !((s.core g.core).commands.any fun m => m.gid = gid) && !s.hasRequests gid && !s.posts.any fun p => p.gid = gid

/-- A lane of a held atomic where its address lies when it is applied, which an invalidation may have changed (R312), or its fault; it is
merged in the window of its issue, if that is still open (R247). -/
def State.heldLane (s : State) (g : Group) (t : Task) (a : AtomSpec) (u : UnitRef) (l : AtomLane) : Except TrapInfo (UnitRef × AtomLane) :=
  if 4 ≤ keyRegion l.addr then .ok (u, l)
  else
    let trap : Nat → TrapInfo := fun cause =>
      { cause := cause, tval := BitVec.ofNat 64 l.va, note := s.noteFor (coreCluster g.core) t.asid t.part .both l.va }
    match s.xlate (coreCluster g.core) t.asid t.part l.va .both with
    | .fault => .error (trap 0x08)
    | .denied => .error (trap 0x09)
    | .ok x =>
      let spot : Spot := ⟨l.lane, 0, l.va, x.key, a.size, x.unit⟩
      let acc : Acc := { space := 3, n := a.size, step := a.size, align := a.size, need := .both, atomic := true, op := some (a.op, a.rets) }
      if acc.refuses s t.asid spot then .error { trap 0x09 with note := some (0x11, l.va, spot.addr) }
      else .ok (if u.kind = .switch && s.windows.any (·.id = u.num) then u else x.unit, { l with addr := x.key })

/-- The lanes of a held atomic as writes of the group: to mem through the write buffer, and to a scratchpad at once (R244, R304, R350). -/
def heldWrites (gid : Nat) (g : Group) (cid : Nat) (a : AtomSpec) (l : List (UnitRef × AtomLane)) : List WbEntry :=
  l.map fun x => { u := x.1, bank := x.2.addr / 64 % 16, bytes := [], atom := some { a with lanes := [x.2] }, gid := gid, cid := cid,
                   task := g.task, group := g.index }

/-- An effect held until retirement is applied; it waits while its place cannot perform it (R216, R304, R353). A lane whose address no longer
translates is not performed, and its fault is left to the lane (log 124). -/
def applyHeld (s : State) (gid : Nat) (g : Group) (t : Task) : Held → Option State
  | .atomic parts =>
    let writes := parts.flatMap fun p => heldWrites gid g s.fresh p.2 ((effective p.2).filterMap fun l =>
      match s.heldLane g t p.2 p.1 l with
      | .ok y => some y
      | .error _ => none)
    let (mem, near) := (writes.filter fun e => e.spans.all (keyRegion ·.1 < 4), writes.filter fun e => !e.spans.all (keyRegion ·.1 < 4))
    if near.any fun e => !s.mayStart e.u s.fresh e.spans then none
    else
      let s1 := parts.foldl (fun s p => p.2.lanes.foldl (fun (s : State) l => match s.heldLane g t p.2 p.1 l with
        | .error f => s.defer gid 0 s.fresh (maskOf (· = l.lane)) f none
        | .ok _ => s) s) (s.expose g)
      let s2 := near.foldl (fun s e => s.performWrite (coreDie g.core) e) s1
      some (({ s2 with fresh := s2.fresh + 1 } : State).modGroup gid fun g => { g with draining := g.draining ++ mem })
  | .publish obj =>
    let p : Publish := { id := s.fresh, asid := t.asid, obj := obj, part := t.part, cmd := none }
    let key := s.entryKey t.asid obj
    if publishReady s p && !(s.publishes.any fun q => q.asid = t.asid && q.obj = obj) && s.mayStart (keyUnit key) s.fresh [(key, 16)] then
      some (((s.expose g).started (keyUnit key) s.fresh [(key, 16)]).swapViews t.asid obj g.core (s.stampFor gid 0 (g.relCount % 256) key))
    else none
  | .spawn tcb => if s.spawnWaits (coreCluster g.core) t.asid t.part tcb then none else some ((s.expose g).spawn (coreCluster g.core) t.asid t.part tcb).1

/-- The barriers of a crew take note of the members that are left. -/
def State.settleCrew (s : State) (crew : Nat) : State :=
  (((flook crew s.crews).map (·.bars)).getD []).foldl (fun s p => s.settle true crew p.1) s

/-- A group's resources return, its record is written, and its place is refilled (R207, R298, R358). Its retirement is a commit point
(R343, R347). -/
def endGroup (s : State) (gid : Nat) (g : Group) (t : Task) : State :=
  let s1 := ((s.expose g).scrivGroup g 0x03 (BitVec.ofNat 64 (t.tid * 2 ^ 32 + g.index))).freeGroup gid
  let s2 := s1.modTask g.task fun t => if g.member = 2 then t else { t with retired := t.retired + 1, nextRet := t.nextRet + 1 }
  (s2.settleCrew g.crew).refill g.task g.core

/-- In deterministic mode a group retires after the one before, which in a redundant task both members are; the trailer of a pair follows its
leader (R304). -/
def State.retireTurn (s : State) (g : Group) (t : Task) : Bool :=
  !t.determ || (if g.member = 2 then t.nextRet = g.index + 1
    else t.nextRet = g.index && !s.groups.any fun p => p.2.task = g.task && p.2.index < g.index)

/-- The next part of a group's retirement: the pair's last comparison, the commit, the held effects in order, the freeing. A trailer's
held effects are discarded (R304, R350). -/
def execGroupRetire (gid : Nat) (s : State) : Host.Outcome State Fault Refusal :=
  match s.group? gid with
  | none => .next s
  | some g =>
    match flook g.task s.tasks with
    | none => .next s
    | some t =>
      if !s.atRest gid g || (((flook g.crew s.crews).map (·.ending.isSome)).getD false) || !s.retireTurn g t then .next s
      else if g.pair.isSome && !g.agreed then
        .next (if g.atCommit.isNone then s.modGroup gid fun g => { g with atCommit := some [], commitBy := none } else s)
      else if g.sbuf != [] then .next (s.commit gid)
      else if s.hasDrains gid then .next s
      else match (if g.member = 2 then [] else g.held) with
        | h :: rest =>
          match applyHeld s gid g t h with
          | some s1 => .next (s1.modGroup gid fun g => { g with held := rest })
          | none => .next s
        | [] => .next (endGroup s gid g t)

/-! ## TASK_RETIRE (R290, R291) -/

/-- A task's keys are freed and the waiting list of their die is examined (R294). -/
def State.freeKeys (s : State) (key : Nat) (t : Task) : State :=
  let s1 := { s with keys := s.keys.filter fun p => p.2 != key }
  match tcbKeys t.image with
  | [] => s1
  | k :: _ => s1.lockGrant (k / 16384)

/-- The state word's spawned and queued bits are cleared (R291). -/
def State.clearWord (s : State) (t : Task) : State :=
  match s.stateKey t.asid t.tcb with
  | none => s
  | some k =>
    let w := bytesNat (s.found k t.tcb 8).bytes
    (s.visit (upFrom k 8)).store 0 k (natBytes 8 (w / 2 ^ 34 * 2 ^ 34 + w % 2 ^ 32)) none

/-- A state word may not yet be reached (R216, R353). -/
def State.wordHeld (s : State) (asid va : Nat) : Bool := ((s.stateKey asid va).map fun k => s.keysWait (upFrom k 8)).getD false

/-- The task has retired, before the tasks that wait for it. -/
def State.markDone (s : State) (key : Nat) (succs : List Nat) : State := s.modTask key fun t => { t with stage := .done, succs := succs }

/-- The task leaves the machine. -/
def State.finishTask (s : State) (key : Nat) (succs : List Nat) : State :=
  let s1 := s.modTask key fun t =>
    { t with stage := .done, yard := [], spills := [], succs := succs, saved := [], savedYard := [], savedStamps := [], checkpt := [] }
  { s1 with restore := if s1.restore = some key then none else s1.restore }

/-- A task whose last group has retired: keys, successors, state word, record, in that order; what its keys and its count admit comes after
it (R270, R291). One that has ended by error releases no successors. -/
def execTaskRetire (key : Nat) (s : State) : Host.Outcome State Fault Refusal :=
  match flook key s.tasks with
  | none => .next s
  | some t =>
    if t.stage = .done || s.groups.any (fun p => p.2.task = key) || s.crews.any (fun p => p.2.task = key) || s.wordHeld t.asid t.tcb then .next s
    else match t.ended with
      | some cause =>
        .next (((((s.markDone key []).freeKeys key t).clearWord t).taskEvent t 3 cause t.tid t.tcb).finishTask key [])
      | none =>
        let l := s.successors t
        if t.stage != .granted || t.retired < tcbGroups t.image || l.any (s.spawnWaits 48 t.asid t.part) then .next s
        else
          let s1 := l.foldl (fun s va => s.releaseOne t.asid t.part va) (((s.markDone key l).freeKeys key t).noteOverflow t)
          .next (((s1.clearWord t).taskEvent t 1 0 t.tid t.tcb).finishTask key l)

/-! ## GROUP_END (R342, R343) -/

/-- Work of a group that an ending waits for: loads, writes on their way, commands, posts (R342); but for some commands. -/
def State.unfinished (s : State) (gid : Nat) (g : Group) (but : List ECmd := []) : Bool :=
  s.hasRequests gid || s.hasDrains gid || ((s.core g.core).engine.any fun e => e.gid = gid && !but.contains e) ||
    (s.draws.any fun d => d.cmd.gid = gid) || (s.posts.any fun p => p.gid = gid) ||
    (s.warpsOf gid).any fun w => w.2.pend.any fun q => !(but.any (·.pid = q.id)) && match q.kind with
      | .load | .atomic _ | .store _ | .posts | .spawn _ _ _ => true
      | _ => false

/-- The crews that end together: in a redundant task the other member's too (R348). -/
def State.endingCrews (s : State) (cid : Nat) (c : Crew) : List (Nat × Crew) :=
  let partners := (c.groups.filterMap s.group?).filterMap fun g => (g.pair.bind s.group?).map (·.crew)
  (cid, c) :: (partners.filterMap fun k => (flook k s.crews).map fun x => (k, x)).filter fun p => p.1 != cid

/-- Buffered atoms that no commit has taken, held effects and queued commands are dropped. -/
def State.rollbackGroup (s : State) (gid : Nat) : State :=
  match s.group? gid with
  | none => s
  | some g =>
    let s1 := (s.dropWork g.core gid).modGroup gid fun g => { g with sbuf := [], held := [], deferred := [] }
    { s1 with places := s1.places.map fun (p : Nat × Glazier) => (p.1, { p.2 with waiters := p.2.waiters.filter fun (w : Waiter) => w.gid != gid }) }

/-- A crew that is to be ended: the rollback, and once its issued work is done its resources are freed; it is placed anew elsewhere when
it is relaunched. -/
def execGroupEnd (crew : Nat) (s : State) : Host.Outcome State Fault Refusal :=
  match flook crew s.crews with
  | none => .next s
  | some c =>
    match c.ending, flook c.task s.tasks with
    | some cause, some t =>
      let cs := s.endingCrews crew c
      let gids := cs.flatMap (·.2.groups)
      let s1 := gids.foldl (fun s gid => s.rollbackGroup gid) s
      if gids.any fun gid => ((s1.group? gid).map (s1.unfinished gid)).getD false then .next s1
      else
        let idxs := (c.groups.filterMap s1.group?).map (·.index)
        let s2 := gids.foldl (fun s gid => s.freeGroup gid) s1
        let s3 := { s2 with crews := s2.crews.filter fun p => !(cs.map (·.1)).contains p.1 }
        if c.again && t.ended.isNone then
          let lead := idxs.foldl min (2 ^ 32)
          let s4 := s3.modTask c.task fun t =>
            { t with redo := idxs.foldl (fun l i => sins i l) t.redo,
                     redoFrom := idxs.map (· * 64 + c.cluster) ++ t.redoFrom.filter fun x => !idxs.contains (x / 64),
                     redoCnt := fset 0 lead (c.relaunch + 1) t.redoCnt }
          .next (s4.errRecord t.part t.asid 0 t.tid lead (c.relaunch + 1) cause 2)
        else .next s3
    | _, _ => .next s

/-! ## SIGNATURE_COMPARE (R349 to R352) -/

/-- An atomic in the store buffer, as a signature takes it: operation, size, and each lane's address and operands. -/
def atomCode : AtomOp → Nat
  | .add => 0 | .umin => 1 | .umax => 2 | .smin => 3 | .smax => 4 | .and => 5 | .or => 6 | .xor => 7 | .exch => 8 | .cas => 9
  | .fadd => 10 | .fmin => 11 | .fmax => 12 | .ld => 13 | .st => 14
def Held.words : Held → List Nat
  | .atomic parts => parts.flatMap fun p => atomCode p.2.op :: p.2.size :: p.2.lanes.flatMap fun l => [l.va, l.b, l.c]
  | .publish obj => [2 ^ 64, obj]
  | .spawn tcb => [2 ^ 65, tcb]

/-- The signature of a member: its buffered atoms with their addresses, those of its held effects, and the operands of its commit point. -/
def Group.signature (g : Group) : DWord :=
  Config.storeSignature (g.sbuf.map fun p => (match keyRegion p.1 with
    | 6 => 2 ^ 100 + p.2.va
    | _ => p.2.va, p.2.val)) (g.atCommit.getD [] ++ g.held.flatMap (·.words))

/-- The TMOVs of a group that wait for room in its store buffer. -/
def State.roomless (s : State) (gid : Nat) (g : Group) : List ECmd :=
  (s.core g.core).engine.filter fun e => e.gid = gid && s.needsRoom e

/-- The issued accesses of a member at its commit point are complete (R349), but for the moves that forced it. -/
def State.settledAt (s : State) (gid : Nat) (g : Group) : Bool :=
  g.atCommit.isSome && !s.unfinished gid g (s.roomless gid g) && !((s.core g.core).finishing.any fun m => m.gid = gid)

/-- What a pair keeps until its retirement: in deterministic mode its atomics on mem, PUBLISH and SPAWN (R304, R347). -/
def Held.late (determ : Bool) : Held → Bool
  | .atomic parts => determ && parts.any fun p => p.2.lanes.any fun l => keyRegion l.addr < 4
  | _ => true

/-- A member goes on from its commit point; from one that is no instruction, with nothing agreed for its next one. -/
def State.goOn (s : State) (gid : Nat) (determ : Bool) : State :=
  s.modGroup gid fun g =>
    { g with atCommit := none, agreed := !g.forced, forced := false, sbuf := [], held := g.held.filter (·.late determ) }

/-- The trailer's state becomes the pair's checkpoint. -/
def State.checkpoint (s : State) (h : Group) (t : Task) : State :=
  match flook h.crew s.crews with
  | none => s
  | some c => s.modTask h.task fun x => { x with checkpt := fput h.index (s.saveCrew t c) x.checkpt }

/-- The held effects that the next commit performs (R350). -/
def Group.dueNow (g : Group) (t : Task) : List Held := g.held.filter fun e => !e.late t.determ

/-- The signatures match: the leader's buffer commits and its held atomics are performed, the trailer's are discarded, and the trailer's
state becomes the checkpoint (R350). Both members have passed a commit point (R343), for which an invalidation that covers it waits (R312). -/
def agree (s : State) (lead trail : Nat) (g h : Group) (t : Task) : State :=
  let s0 := { s with invals := s.invals.map fun (v : Inval) =>
    if (s.coveredBuffers v).any (·.1 = lead) then { v with also := s.fresh :: v.also } else v }
  let s1 := (s0.commit lead).expose h
  let s2 := (g.dueNow t).foldl (fun s e => (applyHeld s lead g t e).getD s) s1
  (((s2.goOn lead t.determ).goOn trail t.determ).checkpoint h t).modTask h.task fun t => { t with mism := fdel h.index t.mism }

/-- Both members have issued the instruction at the commit point, and an effect performed once has given its results: the checkpoint holds
them, and both members resume (R350, R377). -/
def resumeBoth (s : State) (lead trail : Nat) (h : Group) (t : Task) : State :=
  let go : State → Nat → State := fun s k => s.modGroup k fun g => { g with stopped := false }
  go (go (s.checkpoint h t) lead) trail

/-- The mismatch record of a member (R378). -/
def State.scrivMismatch (s : State) (t : Task) (g : Group) : State := s.scrivGroup g 0x0F (BitVec.ofNat 64 (t.tid * 2 ^ 32 + g.index))

/-- They differ: both buffers are discarded, with the effects held there, and the leader's ring gets its record (R377). -/
def differNow (s : State) (lead trail : Nat) (g : Group) (t : Task) : State :=
  let drop : State → Nat → State := fun s k => s.modGroup k fun x => { x with sbuf := [], held := [], forced := false, differs := some s.cycle }
  (drop (drop s lead) trail).scrivMismatch t g

/-- In the next cycle the trailer's ring gets its record (R377). -/
def trailerDiffers (s : State) (lead trail : Nat) (h : Group) (t : Task) : State :=
  ((s.scrivMismatch t h).modGroup trail fun x => { x with differs := none }).modGroup lead fun x => { x with differs := some s.cycle }

/-- In the cycle after that the error queue gets the record of kind 3 (R377, R379), and both members return to the checkpoint; at the second time in succession the task ends (R351, R352, R377). -/
def disagree (s : State) (lead trail : Nat) (g h : Group) (t : Task) : State :=
  let n := fget 0 g.index t.mism + 1
  let s2 := s.errRecord t.part t.asid 0 t.tid g.index n 0 3
  if 2 ≤ n then endTaskByError s2 g 0x19
  else match flook g.index t.checkpt with
    | none => s2
    | some x =>
      let back : State → Nat → Nat → State := fun s core gid => ((s.dropWork core gid).dropMoves core gid).overlay x [gid]
      (back (back s2 g.core lead) h.core trail).modTask g.task fun t => { t with mism := fput g.index n t.mism }

/-- A pair comes to a commit point that is no instruction of its own: an invalidation covers what it has buffered, or it is being saved.
Both members stand at one count of instructions, between pairs, with no other commit point before them (R312, R318, R347). -/
def State.mustForce (s : State) (gid k : Nat) (g h : Group) (t : Task) : Bool :=
  let idle : Nat → Group → Bool := fun i x =>
    x.atCommit.isNone && !x.stopped && x.differs.isNone &&
      (s.warpsOf i).all fun w => w.2.splits.all fun p => if t.saving then p.2.quiet else !p.2.second
  let full : Group → Bool := fun x => x.sbuf != [] || x.dueNow t != []
  (s.summoned gid || (t.saving && (full g || full h))) && idle gid g && idle k h &&
    (s.warp? gid 0).map (·.issued) = (s.warp? k 0).map (·.issued)

/-- The members of a pair, named by the leader, have both reached their commit points. -/
def execSignatureCompare (gid : Nat) (s : State) : Host.Outcome State Fault Refusal :=
  match s.group? gid with
  | none => .next s
  | some g =>
    match g.pair.bind fun k => (s.group? k).map fun h => (k, h), flook g.task s.tasks with
    | some (k, h), some t =>
      let own := (s.core g.core).engine.filter (·.gid = gid)
      let waits := (s.warpsOf gid).any fun w => w.2.pend.any fun q => q.twin.isSome
      if t.ended.isSome || ((flook g.crew s.crews).map (·.ending.isSome)).getD true || ((flook h.crew s.crews).map (·.ending.isSome)).getD true then .next s
      else if g.member = 1 && g.differs.isSome then .next (if g.differs = some s.cycle then s
        else if h.differs.isSome then trailerDiffers s gid k h t else disagree s gid k g h t)
      else if g.member = 1 && g.stopped && h.stopped then .next (if waits || s.unfinished gid g own then s else resumeBoth s gid k h t)
      else if g.member = 1 && s.mustForce gid k g h t then .next ((s.forceAt gid []).forceAt k [])
      else if g.member != 1 || !s.settledAt gid g || !s.settledAt k h || (g.dueNow t).any (fun e => (applyHeld s gid g t e).isNone) then .next s
      else if g.signature = h.signature && g.commitBy = h.commitBy then .next (agree s gid k g h t)
      else .next (differNow s gid k g t)
    | _, _ => .next s

end Sys2Proof.Machine
end

