-- ==== Sys2Proof/Machine/Methods.lean ====
section
/-! DEFINITION. Method programs (R187, R256, R257): their validation, MLD, MST, MKILL and MEND, and the run of a program on one pixel. -/

namespace Sys2Proof.Machine

/-! ## The instructions of a method program -/

/-- The environment of a run: eight lanes, v0 to v15, q0 to q7, no scalar registers; FPCTL.fp8sat reads as 1. -/
def MethodRun.env (r : MethodRun) : Env :=
  { lanes := 8, exm := r.exm &&& ~~~ r.killed, nregs := 16, wb := 0, vregs := r.vregs, preds := r.preds, sregs := [],
    latches := r.run.latches, dix := 0, seed := 0, fpctl := 8, thr := 0x7F800000 }

/-- What an instruction of the vector blocks allows and computes in a method program. -/
structure MethodOp where
  f    : VFmt
  ck   : Env → Ck
  eval : Env → VOut

def plainOp (f : VFmt) (o : VOp) : Option MethodOp := some ⟨f, fun e => ckV e f o.opts, o.eval⟩
def specialOp (f : VFmt) (op : SpecOp) : Option MethodOp :=
  some ⟨f, fun e => ckV e f (specOp f op).opts ++ ckDyn e f.round, (specOp f op).eval⟩

/-- The allowed instructions (R187). -/
def methodOp : Instr → Option MethodOp
  | .vaddInteger f => plainOp f (vaddIntegerOp f) | .vsubInteger f => plainOp f (vsubIntegerOp f)
  | .vmulInteger f => plainOp f (vmulIntegerOp f) | .vmulhi f => plainOp f (vmulhiOp f) | .vmad f => plainOp f (vmadOp f)
  | .vminInteger f => plainOp f (vminIntegerOp f) | .vmaxInteger f => plainOp f (vmaxIntegerOp f)
  | .vabsInteger f => plainOp f (vabsIntegerOp f) | .vnegInteger f => plainOp f (vnegIntegerOp f)
  | .vand f => plainOp f (vandOp f) | .vor f => plainOp f (vorOp f) | .vxor f => plainOp f (vxorOp f)
  | .vandn f => plainOp f (vandnOp f) | .vshl f => plainOp f (vshlOp f) | .vshr f => plainOp f (vshrOp f)
  | .vcmpInteger f => plainOp f (vcmpIntegerOp f) | .vsel f => plainOp f (vselOp f) | .vmov f => plainOp f (vmovOp f)
  | .vdiv f => plainOp f (vdivOp f) | .vrem f => plainOp f (vremOp f) | .vdot4 f => plainOp f (vdot4Op f)
  | .vclz f => plainOp f (vclzOp f) | .vpopc f => plainOp f (vpopcOp f) | .vbrev f => plainOp f (vbrevOp f)
  | .vbfx f => plainOp f (vbfxOp f) | .vbfi f => plainOp f (vbfiOp f) | .vlaneid f => plainOp f (vlaneidOp f)
  | .vqop f => some ⟨f, fun e => ckVqop e f, (vqopOp f).eval⟩
  | .vaddFloat f => plainOp f (vaddFloatOp f) | .vsubFloat f => plainOp f (vsubFloatOp f)
  | .vmulFloat f => plainOp f (vmulFloatOp f) | .vfma f => plainOp f (vfmaOp f) | .vfms f => plainOp f (vfmsOp f)
  | .vfnma f => plainOp f (vfnmaOp f) | .vminFloat f => plainOp f (vminFloatOp f) | .vmaxFloat f => plainOp f (vmaxFloatOp f)
  | .vcmpFloat f => plainOp f (vcmpFloatOp f) | .vabsFloat f => plainOp f (vabsFloatOp f)
  | .vnegFloat f => plainOp f (vnegFloatOp f) | .vfclass f => plainOp f (vfclassOp f) | .vfdot2 f => plainOp f (vfdot2Op f)
  | .vfscale f => plainOp f (vfscaleOp f) | .vfrint f => plainOp f (vfrintOp f) | .vfcopysign f => plainOp f (vfcopysignOp f)
  | .vrcp f => specialOp f .rcp | .vrsqrt f => specialOp f .rsqrt | .vsqrt f => specialOp f .sqrt | .vexp2 f => specialOp f .exp2
  | .vlog2 f => specialOp f .log2 | .vsin f => specialOp f .sin | .vcos f => specialOp f .cos | .vtanh f => specialOp f .tanh
  | .vcvt f => some ⟨f, fun e => ckVcvt e f, (vcvtOp f).eval⟩
  | .vshfl f => some ⟨f, fun e => ckVshfl e f, (vshflOp f).eval⟩
  | .vpswap f => plainOp f (vpswapOp f)
  | .vbcast f => some ⟨f, fun e => ckVbcast e f, (vbcastOp f).eval⟩
  | .vred f => some ⟨f, fun e => ckVred e f, fun e => evalVred e f⟩
  | _ => none

/-- The fields that every instruction of a method program has as R187 asks. -/
def methodFields (f : VFmt) : Bool := f.wait = 0 && f.dist = 0 && f.post = 15 && f.uni = 0 && f.sdst = 0 && f.round != 4

/-- The fields that MLD to MEND do not use are zero. -/
def ckMethod (f : VFmt) (dst sa guard : Bool) (func : Nat) : Ck :=
  ckPost f.post ++ ckGuard f.guard ++
  ([(!dst && f.dst != 0, 2), (!sa && f.sa != 0, 2), (f.sb != 0, 2), (f.sc != 0, 2), (!guard && f.guard != 0, 2), (f.uni != 0, 2),
    (f.sdst != 0, 2), (f.round != 0, 2), (f.type != 0, 2), (f.sat != 0, 2), (f.func.toNat &&& (4095 - func) != 0, 2)] : Ck)

def ckMld (e : Env) (f : VFmt) : Ck :=
  let k := f.func.toNat
  ckMethod f true false true 0x1F ++ ckWb f.dst ++ ckVd e f.dst 1 1 ++ ([(!(k < 4 || (8 ≤ k && k ≤ 18)), 2)] : Ck)
def ckMst (e : Env) (f : VFmt) : Ck := ckMethod f false true true 3 ++ ckV1 e f.sa

/-- The word that MLD selects for a lane (R187, R257). -/
def MethodRun.word (r : MethodRun) (k lane : Nat) : Word :=
  if k < 4 then r.words.getD (4 * lane + k) 0
  else if k < 16 then r.payload.getD (k - 8) 0
  else if k = 16 then BitVec.ofNat 32 lane
  else if k = 17 then BitVec.ofNat 32 r.pos
  else BitVec.ofNat 32 r.seq

/-- An instruction is counted in the run. -/
def MethodRun.count (r : MethodRun) : MethodRun := { r with run := { r.run with count := r.run.count + 1 } }

def mldRun (f : VFmt) (r : MethodRun) : MethodRun :=
  { r.count with vregs := (bitsSet (r.env.active f.guard)).foldl (fun m l => fset 0 (dIdx f.dst * 64 + l) (r.word f.func.toNat l) m) r.vregs }
def mstRun (f : VFmt) (r : MethodRun) : MethodRun :=
  { r.count with staged := (bitsSet (r.env.active f.guard)).foldl (fun m l => fput (4 * l + f.func.toNat % 4) (r.env.src f.sa false l) m) r.staged }
def mkillRun (f : VFmt) (r : MethodRun) : MethodRun := { r.count with killed := r.killed ||| r.env.active f.guard }
def mendRun (r : MethodRun) : MethodRun := { r.count with ended := true }

/-- An instruction of the vector blocks: its writes land, and a result-producing one enters the latches, before the next begins. -/
def vectorRun (i : Instr) (o : MethodOp) (r : MethodRun) : MethodRun :=
  let out := o.eval r.env
  let w : Warp := { width := 8, nregs := 16, vregs := r.vregs, preds := r.preds }
  let w1 := (out.writes r.env).foldl Warp.write w
  let latches := match out.latch with
    | some (v, vs) => (⟨v, vs, 0⟩ :: r.run.latches).take 8
    | none => r.run.latches
  { r.count with vregs := w1.vregs, preds := w1.preds, run := { r.count.run with latches := if producing (profile 8 i) then latches else r.run.latches } }

/-- A step of the program that runs on a glazier; a fault ends the run, and nothing of it is left (R187). -/
def methodStep (ck : Env → Ck) (eff : MethodRun → MethodRun) (s : State) : State :=
  match s.method with
  | none => s
  | some r => if (lowest (ck r.env)).isSome then { s with method := none } else { s with method := some (eff r) }

/-- A method instruction: a step of a program on a glazier; on a core it traps, with reason 8 unless a field of it has a
lower one (R40, R41, R187). -/
def onGlazier (i : Instr) (ck : Env → Ck) (eff : MethodRun → MethodRun) (s : State) : Host.Outcome State Fault Refusal :=
  match s.cur with
  | .method _ => .next (methodStep ck eff s)
  | _ => issue i (fun c => ck c.env ++ ([(true, 8)] : Ck)) (fun _ t => .ok t) s

def execMld (f : VFmt) (s : State) : Host.Outcome State Fault Refusal := onGlazier (.mld f) (fun e => ckMld e f) (mldRun f) s
def execMst (f : VFmt) (s : State) : Host.Outcome State Fault Refusal := onGlazier (.mst f) (fun e => ckMst e f) (mstRun f) s
def execMkill (f : VFmt) (s : State) : Host.Outcome State Fault Refusal :=
  onGlazier (.mkill f) (fun _ => ckMethod f false false true 0) (mkillRun f) s
def execMend (f : VFmt) (s : State) : Host.Outcome State Fault Refusal :=
  onGlazier (.mend f) (fun _ => ckMethod f false false false 0) mendRun s

/-- One instruction of a program. -/
def methodInstr (i : Instr) (s : State) : State :=
  match i with
  | .mld f => methodStep (fun e => ckMld e f) (mldRun f) s
  | .mst f => methodStep (fun e => ckMst e f) (mstRun f) s
  | .mkill f => methodStep (fun _ => ckMethod f false false true 0) (mkillRun f) s
  | .mend f => methodStep (fun _ => ckMethod f false false false 0) mendRun s
  | _ => match methodOp i with
    | some o => methodStep o.ck (vectorRun i o) s
    | none => { s with method := none }

/-- The program on the pixel: the run after it, or the program counter of the instruction that faulted. -/
def runMethod (s : State) : List (Instr × DWord) → Except DWord State
  | [] => .ok s
  | (i, pc) :: rest =>
    let t := methodInstr i { s with cur := .method pc.toNat }
    if t.method.isNone then .error pc else runMethod t rest

/-! ## METHOD_VALIDATION (R187, R256) -/

/-- A run whose latches all hold, for the checks that do not depend on one. -/
def freeRunEnv : Env := { ({ lanes := 0, exm := 0 } : MethodRun).env with latches := List.replicate 8 ⟨true, [], 0⟩ }

/-- An instruction that a method program may hold. -/
def methodAllows (i : Instr) : Bool :=
  match i with
  | .mld f => methodFields f && (lowest (ckMld freeRunEnv f)).isNone
  | .mst f => methodFields f && (lowest (ckMst freeRunEnv f)).isNone
  | .mkill f => methodFields f && (lowest (ckMethod f false false true 0)).isNone
  | .mend f => methodFields f && (lowest (ckMethod f false false false 0)).isNone
  | _ => match methodOp i with
    | some o => methodFields o.f && (lowest (o.ck freeRunEnv)).isNone
    | none => false

/-- The text of a line as a glazier reads it: none for a fault in translation, parity that does not agree, a malformed line word. -/
def State.methodLine (s : State) (asid part : Nat) (line : DWord) : Option (List Byte) :=
  match s.xlate 48 asid part line.toNat .exec with
  | .ok x =>
    let b := (s.found x.key line.toNat 64).bytes
    if parityOk b && lineWordOk b then some b else none
  | _ => none

/-- The program from a program counter on: its instructions, or the program counter to report. -/
def State.methodText (s : State) (asid part : Nat) : Nat → DWord → Except DWord (List (Instr × DWord))
  | 0, pc => .error pc
  | n + 1, pc =>
    if pcBad pc then .error pc
    else match s.methodLine asid part (lineOf pc) with
      | none => .error (lineOf pc)
      | some b =>
        let i := instrAt b (slotOf pc)
        if !methodAllows i then .error pc
        else match i with
          | .mend _ => .ok [(i, pc)]
          | _ => match s.methodText asid part n (nextPc pc) with
            | .ok l => .ok ((i, pc) :: l)
            | .error e => .error e

/-- A method of a target as its table, when it was last read, and its program give it (R256). An unused or invalid entry has class 0xFF. -/
def readMethod (s : State) (asid obj num : Nat) : Method :=
  let e := s.objEntry asid obj
  let b := (((flook (asid * 1024 + obj) s.tables).getD []).drop (16 * num)).take 16
  let pc := BitVec.ofNat 64 (fieldNat b 8 8)
  let cls := fieldNat b 0 1
  let mk : List (Instr × DWord) → Option DWord → Nat → Method := fun l bad c =>
    { asid := asid, obj := obj, num := num, cls := c, prog := l.map (·.1), pcs := l.map (·.2), entry := e, bad := bad }
  if objHeaders e = 0 || fieldNat b 1 7 != 0 || 2 < cls || 2 ^ 57 ≤ pc.toNat then mk [] none 0xFF
  else match s.methodText asid (s.partOf asid) 24 pc with
    | .ok l => mk l none cls
    | .error x => mk [] (some x) cls

/-- What a glazier holds of a method; nothing once the target's table has been read again. -/
def State.methodAt (s : State) (pc asid obj num : Nat) : Option Method :=
  (s.place ⟨.glazier, pc⟩).methods.find? fun m => m.asid = asid && m.obj = obj && m.num = num

/-- Something that the glazier is to do names the method: a draw, a post, an entry of its list. -/
def State.namesMethod (s : State) (pc asid obj num : Nat) : Bool :=
  s.draws.any (fun d => d.asid = asid && d.obj = obj && d.method = num) ||
  s.posts.any (fun p => p.pc = pc && p.asid = asid && p.obj = obj && p.method = num) ||
  (s.place ⟨.glazier, pc⟩).entries.any fun e => e.asid = asid && e.obj = obj && e.method = num

/-- A glazier validates a method that something first names; a table that no PUBLISH and no write of its entry has had read is read here
(log 120); a table or a line that cannot be read is recorded (R309,
R323). -/
def execMethodValidation (pc asid obj method : Nat) (s : State) : Host.Outcome State Fault Refusal :=
  let t := if (flook (asid * 1024 + obj) s.tables).isSome then s else s.readTable asid obj
  .next (if (s.methodAt pc asid obj method).isSome || !s.namesMethod pc asid obj method then s
    else
      let m := readMethod t asid obj method
      let p := s.partOf asid
      let notes := (m.bad.map fun v => s.noteFor 48 asid p .exec v.toNat).toList ++
        if m.cls = 0xFF then (s.tablePieces asid obj).map fun x => s.noteFor 48 asid p .read x.1 else []
      (notes.foldl (fun t n => t.recordAccess asid p n) t).modPlace ⟨.glazier, pc⟩ fun g =>
      { g with methods := m :: g.methods.filter fun m => !(m.asid = asid && m.obj = obj && m.num = method) })

end Sys2Proof.Machine
end

