-- ==== Sys2Proof/Machine/Raster.lean ====
section
/-! DEFINITION. The raster units and the pixel methods: binning (R258 to R260), expectation entries (R261, R267), packets (R262 to R265)
and their application (R266, R268). -/

namespace Sys2Proof.Machine

/-! ## Coverage (R258, R259) -/

/-- An f32 coordinate times 2^149, exactly; none for a NaN or an infinity. -/
def coord (w : Nat) : Option Int :=
  match f32.decode w with
  | .fin neg m e =>
    let v : Int := (m : Int) * 2 ^ (e + 149).toNat
    some (if neg then -v else v)
  | _ => none

/-- A primitive's vertices: x0, y0, x1, y1, x2, y2. -/
structure Tri where
  x0 : Int
  y0 : Int
  x1 : Int
  y1 : Int
  x2 : Int
  y2 : Int
  deriving DecidableEq, Repr

def triOf (b : List Byte) : Option Tri :=
  match coord (fieldNat b 0 4), coord (fieldNat b 4 4), coord (fieldNat b 8 4), coord (fieldNat b 12 4), coord (fieldNat b 16 4),
      coord (fieldNat b 20 4) with
  | some a, some b, some c, some d, some e, some f => some ⟨a, b, c, d, e, f⟩
  | _, _, _, _, _, _ => none

def edge (ax ay bx by_ px py : Int) : Int := (bx - ax) * (py - ay) - (by_ - ay) * (px - ax)
/-- A point is on the inner side of an edge, or on a top or left edge. -/
def inEdge (ax ay bx by_ px py : Int) : Bool :=
  let e := edge ax ay bx by_ px py
  0 < e || (e = 0 && (by_ < ay || (by_ = ay && bx < ax)))

def Tri.covers (t : Tri) (px py : Int) : Bool :=
  let a := edge t.x0 t.y0 t.x1 t.y1 t.x2 t.y2
  let u : Tri := if a < 0 then ⟨t.x0, t.y0, t.x2, t.y2, t.x1, t.y1⟩ else t
  a != 0 && inEdge u.x0 u.y0 u.x1 u.y1 px py && inEdge u.x1 u.y1 u.x2 u.y2 px py && inEdge u.x2 u.y2 u.x0 u.y0 px py

/-- Offsets of the samples in sixteenths (R259). -/
def sampleOffsets (n : Nat) : List (Nat × Nat) :=
  match n with
  | 1 => [(8, 8)]
  | 2 => [(4, 4), (12, 12)]
  | 4 => [(6, 2), (14, 6), (2, 10), (10, 14)]
  | _ => [(9, 5), (7, 11), (13, 9), (5, 3), (3, 13), (1, 7), (11, 15), (15, 1)]

/-- The samples of a pixel that a primitive covers, bit s for sample s. -/
def pixelCover (t : Tri) (samples px py : Nat) : Nat :=
  ((sampleOffsets samples).zipIdx.map fun p =>
    if t.covers ((16 * px + p.1.1 : Nat) * 2 ^ 145) ((16 * py + p.1.2 : Nat) * 2 ^ 145) then 2 ^ p.2 else 0).foldl (· + ·) 0

/-- The 64 coverage bytes of a tile; pixels outside the target have none. -/
def tileCover (e : List Byte) (t : Tri) (tx ty : Nat) : List Nat :=
  (List.range 64).map fun k =>
    let px := 8 * tx + k % 8
    let py := 8 * ty + k / 8
    if px < objExtent e 0 && py < objExtent e 1 then pixelCover t (objSamples e) px py else 0

/-- Tiles of a target by index. -/
def tileRows (e : List Byte) : Nat := (objExtent e 1 + 7) / 8
def tileTotal (e : List Byte) : Nat := tileCount e * tileRows e

/-- A work item: primitive, tile, coverage (R260). -/
structure Item where
  prim  : Nat
  tx    : Nat
  ty    : Nat
  cover : List Nat
  deriving DecidableEq, Repr

def Item.mask (x : Item) : BitVec 64 := maskOf fun k => x.cover.getD k 0 != 0
def Item.pixels (x : Item) : Nat := (x.cover.filter (· != 0)).length
/-- The item's 80 bytes. -/
def Item.bytes (x : Item) (first : Nat) : List Byte :=
  natBytes 4 x.pixels ++ natBytes 2 x.tx ++ natBytes 2 x.ty ++ natBytes 4 x.prim ++ natBytes 4 ((first + x.prim) % 2 ^ 24) ++
    x.cover.map (BitVec.ofNat 8)

/-- The items of some primitives, in order. -/
def itemsOf (e : List Byte) (prims : List (List Byte)) : List Item :=
  prims.zipIdx.flatMap fun p => match triOf p.1 with
    | none => []
    | some t => (List.range (tileTotal e)).filterMap fun k =>
      let x : Item := ⟨p.2, k % tileCount e, k / tileCount e, tileCover e t (k % tileCount e) (k / tileCount e)⟩
      if x.mask = 0 then none else some x

/-! ## RASTER_BINNING (R254, R258, R260, R268) -/

/-- One copy of a target lies as R254 requires. -/
def copyOk (s : State) (asid : Nat) (e : List Byte) (base : Nat) : Bool :=
  let b := 256 * objSamples e * objRw e
  base != 0 && base % (64 * b) = 0 && (List.range (tileTotal e)).all fun t =>
    match s.walk asid (base + tileByte e t 0) with
    | .leaf l lvl => bitsOf l 55 52 = 0 && !bitOf l 5 && 64 * b ≤ 2 ^ pageBits lvl
    | _ => false

/-- Bytes of mem at an address as the raster units read them; none while they must wait. -/
def rasterRead (s : State) (c : Issuer) (e : ECmd) (va n : Nat) : Except (Option TrapInfo) Found :=
  memFetch s c e va n false

/-- Some records of the primitive buffer. -/
def readPrims (s : State) (c : Issuer) (e : ECmd) : List Nat → Except (Option TrapInfo) (List (List Byte) × Found)
  | [] => .ok ([], { bytes := [] })
  | i :: rest =>
    match rasterRead s c e (e.srcA + 32 * i) 32 with
    | .error t => .error t
    | .ok f =>
      match readPrims s c e rest with
      | .error t => .error t
      | .ok (l, g) => .ok (f.bytes :: l, { g with from_ := f.from_ ++ g.from_, bad := least f.bad g.bad, dead := least f.dead g.dead })

/-- Bytes that the raster units write, on the path of R244, after the race check (R232). -/
def rasterWrite (s : State) (c : Issuer) (e : ECmd) (va : Nat) (bs : List Byte) : Except (Option TrapInfo) State :=
  let tr := s.translate c .write va bs.length 1
  match s.xfault c .write va tr with
  | some t => .error (some t)
  | none =>
    let l := spotsOf 0 va tr
    match l.findSome? (s.stampFault c false) with
    | some t => .error (some t)
    | none =>
    let es := l.map fun x =>
      ({ u := x.unit, bank := x.key / 64 % 16, bytes := sbBytes x ((bs.drop x.off).take x.n) (e.count % 256), gid := e.gid, cid := e.id,
         task := c.grp.task, group := c.grp.index, cmd := true } : WbEntry)
    .ok ((s.expose c.grp).modGroup e.gid fun g => { g with draining := g.draining ++ es })

def rasterWrites (c : Issuer) (e : ECmd) : List (Nat × List Byte) → State → Except (Option TrapInfo) State
  | [], s => .ok s
  | (va, bs) :: rest, s =>
    match rasterWrite s c e va bs with
    | .error t => .error t
    | .ok t => rasterWrites c e rest t

/-- The expectation entry of an item or of a tile of a pass. -/
def entryFor (st : Option Stamp) (d : Draw) (cls tx ty seq : Nat) (mask : BitVec 64) : ExpEntry :=
  { id := 0, stamp := st, asid := d.asid, obj := d.obj, tx := tx, ty := ty, seq := seq, mask := mask, method := d.method, cls := cls,
    who := (d.cmd.gid, d.cmd.wid, d.cmd.pid, d.cmd.lanes) }

/-- A pass has an entry in every tile (R268). -/
def passEntries (st : Option Stamp) (d : Draw) (e : List Byte) (first : Nat) : List ExpEntry :=
  (List.range (tileTotal e)).map fun t =>
    let tx := t % tileCount e
    let ty := t / tileCount e
    entryFor st d 2 tx ty (first % 2 ^ 24)
      (maskOf fun k => decide (8 * tx + k % 8 < objExtent e 0) && decide (8 * ty + k / 8 < objExtent e 1))

/-- The draw ends without an entry; the fault is left to its command. -/
def State.dropDraw (s : State) (core id : Nat) (t : Option TrapInfo) : State :=
  let s1 := { s with draws := s.draws.filter fun (d : Draw) => d.id != id }
  match t, s1.cmd? core id with
  | some t, some e => s1.setCmd core { e with fault := some { t with deferred := true } }
  | _, _ => s1

/-- OBJECT_INVALID of a RAST (R177, R187, R254, R260, R268); log 3 for a TVAL that no rule states. -/
def rastInvalid (s : State) (tval : Option DWord) : TrapInfo :=
  match tval with
  | some v => { cause := 0x13, tval := v }
  | none => unstatedAt s 0x1C6 0x13

/-- The draw's items are found and written, and its entries made ready. An error is a fault, or none while the draw must wait. -/
def binDraw (s : State) (c : Issuer) (d : Draw) (m : Method) : Except (Option TrapInfo) State :=
  let x := d.cmd
  let e := s.objEntry d.asid d.obj
  let tcb := fieldNat x.block 16 8
  let first := fieldNat x.block 12 4
  let st := s.stampFor x.gid x.wid x.count 0
  let cls := if m.cls = 1 && c.task.determ then 0 else m.cls
  let ready : List ExpEntry → State → State := fun l s =>
    { s with draws := s.draws.map fun (y : Draw) => if y.id = d.id then { y with binned := true, cls := m.cls, todo := l } else y }
  if !copyOk s d.asid e (objPub e) || !copyOk s d.asid e (objDraft e) || m.cls = 0xFF then
    .error (some { rastInvalid s none with
      note := [objPub e, objDraft e].findSome? fun base => (List.range (tileTotal e)).findSome? (s.tileNote d.asid e base) })
  else match m.bad with
    | some pc => .error (some (rastInvalid s (some pc)))
    | none =>
      if x.len = 0 && m.cls != 2 || (m.cls = 2 && tcb != 0) then .error (some (rastInvalid s none))
      else if x.len = 0 then .ok (ready (passEntries st d e first) s)
      else match readPrims s c x (List.range x.len) with
        | .error t => .error t
        | .ok (prims, f) =>
          let items := itemsOf e prims
          let l := items.map fun i => entryFor st d cls i.tx i.ty ((first + i.prim) % 2 ^ 24) i.mask
          let s1 := ((s.readAt f.from_).deadRecord x.gid x.wid (s.entryOf x.gid x.wid x.pid) f.dead).setCmd c.grp.core { x with bad := f.bad }
          if m.cls = 2 then .ok (ready l s1)
          else match rasterRead s c x (tcb + 192) 12 with
            | .error t => .error t
            | .ok p =>
              let buf := fieldNat p.bytes 0 8
              if buf % 16 != 0 then .error (some (rastInvalid s (some (BitVec.ofNat 64 (tcb + 192)))))
              else if fieldNat p.bytes 8 4 < items.length then .error (some (rastInvalid s (some (BitVec.ofNat 64 items.length))))
              else match rasterWrites c x
                  (items.zipIdx.map (fun i => (buf + 80 * i.2, i.1.bytes first)) ++
                    [(tcb + 204, natBytes 4 items.length ++ natBytes 4 first ++ natBytes 8 x.srcA)]) (s1.readAt p.from_) with
                | .error t => .error t
                | .ok s2 => .ok (ready l s2)

/-- A draw whose turn has come: those before it on the target have sent their entries, and a PUBLISH that arrived before it has swapped
(R261). -/
def drawTurn (s : State) (d : Draw) : Bool :=
  !(s.draws.any fun x => x.asid = d.asid && x.obj = d.obj && x.id < d.id) &&
    !(s.publishes.any fun p => p.asid = d.asid && p.obj = d.obj && p.id < d.id)

/-- The glazier that owns the first tile of a target. -/
def State.firstOwner (s : State) (asid obj : Nat) : Nat := (s.tileOwner asid (s.objEntry asid obj) 0).getD 0

def execRasterBinning (die id : Nat) (s : State) : Host.Outcome State Fault Refusal :=
  match s.draws.find? fun d => d.id = id && d.die = die with
  | none => .next s
  | some d =>
    match s.agentFor d.cmd.gid d.cmd.wid (s.entryOf d.cmd.gid d.cmd.wid d.cmd.pid) d.cmd.lanes with
    | none => .next s
    | some c =>
      if d.cmd.fault.isSome then .next (s.dropDraw c.grp.core id none)
      else if d.binned || !drawTurn s d || !s.cmdTurn d.cmd then .next s
      else match s.methodAt (s.firstOwner d.asid d.obj) d.asid d.obj d.method with
        | none => .next s
        | some m =>
          .next (match binDraw s c d m with
            | .ok t => t
            | .error none => s
            | .error (some t) => s.dropDraw c.grp.core id (some t))

/-! ## EXPECTATION_ENTRY_APPEND (R260, R261, R267) -/

/-- Every entry has been sent: the fragment task is spawned, once the items are there, and the command's data has landed. -/
def finishDraw (s : State) (c : Issuer) (d : Draw) : State :=
  if s.hasEntries d.cmd.gid d.cmd.id || (d.cls != 2 && s.spawnWaits c.cluster c.task.asid c.task.part (fieldNat d.cmd.block 16 8)) then s
  else
    let s1 := s.dropDraw c.grp.core d.id none
    let s2 := if d.cls = 2 then s1
      else (((s1.release d.cmd.gid d.cmd.wid 4).expose c.grp).spawn c.cluster c.task.asid c.task.part (fieldNat d.cmd.block 16 8)).1
    match s2.cmd? c.grp.core d.id with
    | some e => s2.setCmd c.grp.core { e with pos := 1 }
    | none => s2

/-- The next entry goes to the glazier that owns its tile, when its list has room. -/
def execExpectationEntryAppend (die id : Nat) (s : State) : Host.Outcome State Fault Refusal :=
  match s.draws.find? fun d => d.id = id && d.die = die with
  | none => .next s
  | some d =>
    match s.agentFor d.cmd.gid d.cmd.wid 15 d.cmd.lanes with
    | none => .next s
    | some c =>
      if !d.binned then .next s
      else match d.todo with
        | [] => .next (finishDraw s c d)
        | x :: rest =>
          let e := s.objEntry d.asid d.obj
          match s.tileOwner d.asid e (tileIndex e x.tx x.ty) with
          | none => .next s
          | some pc =>
            let g := s.place ⟨.glazier, pc⟩
            if 4096 ≤ g.entries.length then .next s
            else
              let s1 := s.setPlace ⟨.glazier, pc⟩ { g with entries := g.entries ++ [{ x with id := s.fresh }] }
              .next { s1 with fresh := s1.fresh + 1, draws := s1.draws.map fun (y : Draw) => if y.id = id then { y with todo := rest } else y }

/-! ## PACKET_ACCEPT (R262, R263, R267) -/

/-- The entries of a tile, in list order. -/
def Glazier.tileEntries (g : Glazier) (asid obj tx ty : Nat) : List ExpEntry :=
  g.entries.filter fun e => e.asid = asid && e.obj = obj && e.tx = tx && e.ty = ty

/-- An entry may be applied at a pixel: of the older entries open there, none is ordered or a pass; for an ordered or a pass entry there is
none at all (R264, R265). -/
def Glazier.eligible (g : Glazier) (x : ExpEntry) (pixel : Nat) : Bool :=
  let older := ((g.tileEntries x.asid x.obj x.tx x.ty).takeWhile fun e => e.id != x.id).filter fun e =>
    e.mask.getLsbD pixel && !e.closed.getLsbD pixel
  older.all fun e => x.cls = 1 && e.cls = 1

/-- A pixel of an entry is closed; an entry whose pixels are all closed leaves the list. -/
def Glazier.close (g : Glazier) (id : Nat) (m : BitVec 64) : Glazier :=
  let l := g.entries.map fun (e : ExpEntry) => if e.id = id then { e with closed := e.closed ||| (m &&& e.mask) } else e
  { g with entries := l.filter fun e => !(e.id = id && e.closed = e.mask) }

def Glazier.modEntry (g : Glazier) (id : Nat) (f : ExpEntry → ExpEntry) : Glazier :=
  { g with entries := g.entries.map fun (e : ExpEntry) => if e.id = id then f e else e }

/-- The lane's packet has been accepted. -/
def State.accepted (s : State) (p : Post) : State :=
  ({ s with posts := s.posts.filter fun q => !(q.gid = p.gid && q.wid = p.wid && q.pid = p.pid && q.lane = p.lane) } : State).modPend p.gid p.wid p.pid
    fun q => { q with left := q.left - 1 }

/-- A stray is dropped, recorded, and left to the posting split (R263). -/
def State.stray (s : State) (p : Post) : State :=
  let tval : DWord := BitVec.ofNat 64 (p.x + p.y * 2 ^ 16 + p.seq % 2 ^ 24 * 2 ^ 32 + if p.null then 2 ^ 56 else 0)
  let s1 := s.scrivWarp p.gid p.wid (s.entryOf p.gid p.wid p.pid) 0x0D tval
  (s1.defer p.gid p.wid p.pid p.lanes { cause := 0x13, tval := tval } none).accepted p

/-- An FPOST's packet at its glazier: m is its own method. -/
def acceptPost (s : State) (g : Glazier) (p : Post) (m : Method) : State :=
  let pixel := p.y % 8 * 8 + p.x % 8
  match (g.tileEntries p.asid p.obj (p.x / 8) (p.y / 8)).find? fun e => e.seq = p.seq with
  | none => s.stray p
  | some e =>
    if !e.mask.getLsbD pixel || e.got.getLsbD pixel || e.cls = 2 || m.cls = 2 || m.cls = 0xFF then s.stray p
    else match m.bad with
      | some pc => (s.defer p.gid p.wid p.pid p.lanes { cause := 0x13, tval := pc } none).accepted p
      | none =>
        if 512 ≤ g.packets.length && !g.eligible e pixel then s
        else
          let k : Packet := { entry := e.id, pixel := pixel, cover := p.cover, method := p.method, payload := p.payload, gid := p.gid, wid := p.wid,
                              pid := p.pid, lanes := p.lanes, stamp := p.stamp }
          let g1 := g.modEntry e.id fun e => { e with got := e.got ||| maskOf (· = pixel) }
          (s.setPlace ⟨.glazier, p.pc⟩ { g1 with packets := g.packets ++ [k] }).accepted p

/-- An FNULL closes every pixel of its entry that has not received its packet; it is accepted as a packet is (R264, R267). -/
def acceptNull (s : State) (g : Glazier) (p : Post) : State :=
  match (g.tileEntries p.asid p.obj p.x p.y).find? fun e => e.seq = p.seq with
  | none => s.stray p
  | some e =>
    if e.got = e.mask || e.cls = 2 || p.cover != 0 then s.stray p
    else
      let m := e.mask &&& ~~~ e.got
      if 512 ≤ g.packets.length && !(bitsSet m).all (g.eligible e) then s
      else (s.setPlace ⟨.glazier, p.pc⟩ ((g.modEntry e.id fun e => { e with got := e.mask }).close e.id m)).accepted p

/-- A lane's packet reaches its glazier; it waits while the packet store has no room for it. -/
def execPacketAccept (gid id lane : Nat) (s : State) : Host.Outcome State Fault Refusal :=
  match s.posts.find? fun p => p.gid = gid && p.pid = id && p.lane = lane with
  | none => .next s
  | some p =>
    let g := s.place ⟨.glazier, p.pc⟩
    if p.null then .next (acceptNull s g p)
    else match s.methodAt p.pc p.asid p.obj p.method with
      | none => .next s
      | some m => .next (acceptPost s g p m)

/-! ## METHOD_APPLICATION (R187, R264 to R268) -/

/-- A word of the draft's record: its address. -/
def draftWord (e : List Byte) (x : ExpEntry) (pixel sample k : Nat) : Nat :=
  objDraft e + recordByte e (8 * x.tx + pixel % 8) (8 * x.ty + pixel / 8) sample k

/-- The record words that a program reads. -/
def usedWords (prog : List Instr) : List Nat :=
  prog.foldl (fun a i => match i with
    | .mld f => if f.func.toNat < 4 then sins f.func.toNat a else a
    | _ => a) []

/-- The run at its start: the draft's words as they are read, the packet's payload (R257, R266). -/
def startRun (e : List Byte) (x : ExpEntry) (pixel cover : Nat) (payload : List Word) (read : Nat → Nat → Word) : MethodRun :=
  { lanes := maskOf fun l => decide (l < objSamples e), exm := BitVec.ofNat 64 cover,
    words := (List.range 32).map fun k => if k / 4 < objSamples e && k % 4 < objRw e then read (k / 4) (k % 4) else 0,
    payload := payload, pos := 8 * x.tx + pixel % 8 + (8 * x.ty + pixel / 8) * 2 ^ 16, seq := x.seq }

/-- What a pixel's words are found to be when read: the poisoned and the dead addresses among the words used. -/
def readRecord (s : State) (e : List Byte) (x : ExpEntry) (pixel cover : Nat) (prog : List Instr) : Found :=
  let l := (bitsSet (BitVec.ofNat 64 cover)).flatMap fun sample => ((usedWords prog).filter (· < objRw e)).map fun k => draftWord e x pixel sample k
  l.foldl (fun a va => match s.glazierKey x.asid va with
    | none => a
    | some k =>
      let f := s.found k va 4
      { a with bad := least a.bad f.bad, dead := least a.dead f.dead }) { bytes := [] }

/-- The staged words of the samples that were not killed, with their addresses (R187). -/
def stagedWords (e : List Byte) (x : ExpEntry) (pixel : Nat) (r : MethodRun) : List (Nat × Word) :=
  (r.staged.filter fun p => !r.killed.getLsbD (p.1 / 4) && p.1 % 4 < objRw e).map fun p => (draftWord e x pixel (p.1 / 4) (p.1 % 4), p.2)

/-- Words written to the draft; one whose page grants no write ends the application, which then writes nothing (R16, R187, R310; log 118). -/
def writeStaged (s : State) (core : Nat) (x : ExpEntry) (st : Option Stamp) (l : List (Nat × Word)) : Except TrapInfo State :=
  let at_ := l.map fun p => (p, s.xlate 48 x.asid (s.partOf x.asid) p.1 .write)
  match at_.find? fun p => p.2 = .fault || p.2 = .denied with
  | some p => .error { cause := if p.2 = .fault then 0x08 else 0x09, tval := BitVec.ofNat 64 p.1.1,
                       note := s.noteFor 48 x.asid (s.partOf x.asid) .write p.1.1 }
  | none => .ok (at_.foldl (fun s p => match p.2 with
    | .ok k => s.store core k.key (natBytes 4 p.1.2.toNat) st
    | _ => s) s)

/-- The method runs on the pixel for a packet or a pass: its words are written with the stamp of the command's split (R233), or, when it
faults, its command ends with a deferred OBJECT_INVALID and nothing is written; once its group is gone a refusal is only recorded (R323). -/
def applyMethod (s : State) (x : ExpEntry) (pixel cover : Nat) (m : Method) (payload : List Word) (who : Nat × Nat × Nat × Mask)
    (st : Option Stamp) : State :=
  let e := s.objEntry x.asid x.obj
  let (gid, wid, pid, lanes) := who
  let core := ((s.group? gid).map (·.core)).getD 0
  let read : Nat → Nat → Word := fun sample k => match s.glazierKey x.asid (draftWord e x pixel sample k) with
    | some key => BitVec.ofNat 32 (bytesNat (s.found key 0 4).bytes)
    | none => 0
  let f := readRecord s e x pixel cover m.prog
  let s1 := s.deadRecord gid wid (s.entryOf gid wid pid) f.dead
  let out := match runMethod { s1 with method := some (startRun e x pixel cover payload read) } (m.prog.zip m.pcs) with
    | .ok t => match t.method with
      | some r =>
        let t1 := { t with method := none, cur := .idle }
        match writeStaged t1 core x st (stagedWords e x pixel r) with
        | .ok t2 => t2
        | .error f => if (t1.group? gid).isSome then t1.defer gid wid pid lanes f none else t1.recordAccess x.asid (s.partOf x.asid) f.note
      | none => { t with cur := .idle }
    | .error pc => s1.defer gid wid pid lanes { cause := 0x13, tval := pc } none
  let strict := ((s.group? gid).map fun g => s.gflag g Task.strict).getD false
  let s2 := match f.dead with
    | some a => if strict then out.defer gid wid pid lanes { cause := 0x1B, tval := BitVec.ofNat 64 a } none else out
    | none => out
  match f.bad with
  | some a => s2.consumed gid wid pid lanes (BitVec.ofNat 64 a)
  | none => s2

/-- The bytes of a pixel's record. -/
def recordSpans (s : State) (e : List Byte) (x : ExpEntry) (pixel : Nat) : List (Nat × Nat) :=
  ((s.glazierKey x.asid (draftWord e x pixel 0 0)).map fun k => (k, 4 * objSamples e * objRw e)).toList

/-- The record of a pixel is free for a method: the glazier's queue and the views in use let it be written (R216, R249, R353). -/
def recordFree (s : State) (u : UnitRef) (e : List Byte) (x : ExpEntry) (pixel : Nat) : Bool :=
  !s.viewHeld x.asid (draftWord e x pixel 0 0) 0 (2 ^ 64) && s.mayStart u s.fresh (recordSpans s e x pixel)

/-- A method's application, one in a cycle at each glazier; one that self-refresh has held too long is undone, and its group receives
ECC_UNCORRECTABLE (R6, R344, R353). -/
def applyAt (s : State) (u : UnitRef) (x : ExpEntry) (pixel cover num : Nat) (payload : List Word) (who : Nat × Nat × Nat × Mask)
    (st : Option Stamp) : Option State :=
  let e := s.objEntry x.asid x.obj
  if s.lostAt u then some (s.consumed who.1 who.2.1 who.2.2.1 who.2.2.2 (BitVec.ofNat 64 (draftWord e x pixel 0 0)))
  else if (s.place u).applied = some s.cycle || !recordFree s u e x pixel then none
  else (s.methodAt u.num x.asid x.obj num).map fun m =>
    ((applyMethod s x pixel cover m payload who st).started u s.fresh (recordSpans s e x pixel)).modPlace u fun g => { g with applied := some s.cycle }

/-- The packet or the pass of an entry is applied at a pixel whose turn has come; among commutative packets the first to arrive goes first. -/
def execMethodApplication (pc entry pixel : Nat) (s : State) : Host.Outcome State Fault Refusal :=
  let u : UnitRef := ⟨.glazier, pc⟩
  let g := s.place u
  match g.entries.find? fun e => e.id = entry with
  | none => .next s
  | some x =>
    if !x.mask.getLsbD pixel || x.closed.getLsbD pixel || !g.eligible x pixel then .next s
    else
      let all := 2 ^ objSamples (s.objEntry x.asid x.obj) - 1
      let shut : State → List Packet → State := fun s ks => s.modPlace u fun g =>
        { (g.close entry (maskOf (· = pixel))) with packets := g.packets.filter fun k => !ks.contains k }
      if x.cls = 2 then .next (((applyAt s u x pixel all x.method [] x.who x.stamp).map (shut · [])).getD s)
      else match g.packets.find? fun k => k.entry = entry && k.pixel = pixel with
        | none => .next s
        | some k =>
          let earlier := (g.packets.takeWhile (· != k)).any fun q => q.pixel = pixel && match g.entries.find? fun e => e.id = q.entry with
            | some y => y.asid = x.asid && y.obj = x.obj && y.tx = x.tx && y.ty = x.ty && g.eligible y pixel
            | none => false
          if earlier then .next s
          else if k.cover &&& all = 0 then .next (if s.stackHeld u then s else shut s [k])
          else .next (((applyAt s u x pixel (k.cover &&& all) k.method k.payload (k.gid, k.wid, k.pid, k.lanes) k.stamp).map (shut · [k])).getD s)

end Sys2Proof.Machine
end

