-- ==== Sys2Proof/Machine/Completion.lean ====
section
/-! DEFINITION. What completes later: register writes (R23, R66), operations by their kind (R137, R154, R188), barrier phases (R155,
R238), deferred traps (R120, R339 to R341), parked splits (R203, R335), trap entries that waited (R336), and the Scrivener's own records
(R356, R358). -/

namespace Sys2Proof.Machine

/-! ## Operations -/

/-- An outstanding operation, with its warp. -/
def State.pendAt (s : State) (gid wid id : Nat) : Option (Warp × Pend) :=
  (s.warp? gid wid).bind fun w => (w.pend? id).map fun q => (w, q)

/-- The result of a fixed-latency instruction lands at its cycle (R23). -/
def execFixedLatencyWriteback (gid wid id : Nat) (s : State) : Host.Outcome State Fault Refusal :=
  match s.pendAt gid wid id with
  | some (_, q) => .next (if q.kind = .fixed && q.due ≤ s.cycle then s.complete gid wid id else s)
  | none => .next s

/-- A TCB is handed over once its commit and the split's earlier accesses are done; the identifier is the result (R188, R289). -/
def finishSpawn (s : State) (gid wid : Nat) (w : Warp) (q : Pend) (tcb commit reg : Nat) : State :=
  match s.group? gid with
  | none => s
  | some g =>
    match flook g.task s.tasks with
    | none => s
    | some t =>
      if s.cycle < q.due || !s.released gid commit || !w.earlierDone q.lanes q.id ||
        s.spawnWaits (coreCluster g.core) t.asid t.part tcb then s
      else
        let (s1, _, id) := (s.expose g).spawn (coreCluster g.core) t.asid t.part tcb
        (s1.modPend gid wid q.id fun q => { q with writes := [.sca reg (BitVec.ofNat 32 id)] }).complete gid wid q.id

/-- An operation whose kind says that it has nothing more to wait for. -/
def opDone (s : State) (gid wid : Nat) (w : Warp) (q : Pend) : Bool :=
  q.due ≤ s.cycle &&
    (match q.kind with
      | .long => true
      | .store _ | .atomic _ | .posts => q.left = 0
      | .fence order _ commit => fenceDone s gid w q order commit
      | .commit c => s.committed gid c
      | .lsync => lsyncDone s gid wid
      | _ => false)

/-- An acquire fence completes with the entries of what its split has read (R154, R235). -/
def execLongLatencyCompletion (gid wid id : Nat) (s : State) : Host.Outcome State Fault Refusal :=
  match s.pendAt gid wid id with
  | none => .next s
  | some (w, q) =>
    match q.kind with
    | .spawn tcb commit reg => .next (finishSpawn s gid wid w q tcb commit reg)
    | .fence order _ _ =>
      .next (if opDone s gid wid w q then (if order = 2 then s else fenceAcquire s gid wid w q).complete gid wid id else s)
    | _ => .next (if opDone s gid wid w q then s.complete gid wid id else s)

/-- The last byte of the last lane of a load has arrived: all its registers are written (R137). -/
def execLoadCompletion (gid wid id : Nat) (s : State) : Host.Outcome State Fault Refusal :=
  match s.pendAt gid wid id with
  | some (_, q) => .next (if q.kind = .load && q.left = 0 && q.due ≤ s.cycle then s.complete gid wid id else s)
  | none => .next s

/-! ## BARRIER_PHASE_COMPLETION (R155, R235, R238) -/

/-- The groups whose splits a barrier concerns. -/
def State.barrierGroups (s : State) (crew : Bool) (uid : Nat) : List Nat :=
  if crew then ((flook uid s.crews).map (·.groups)).getD [] else [uid]

/-- The members of a barrier that have not retired. -/
def State.barrierMembers (s : State) (crew : Bool) (uid : Nat) : List (Nat × Nat) :=
  if crew then (s.barrierGroups crew uid).map fun g => (g, 0) else (s.liveWarps uid).map fun p => (uid, p.1)

/-- The entry that an arrival is to the others. -/
def State.arrivalEntry (s : State) (crew : Bool) (a : Arrival) : SyncEntry :=
  if crew then ⟨false, (((s.group? a.gid).map (·.index)).getD 0) % 65536, a.cnt⟩ else ⟨true, a.wid, a.cnt⟩

/-- A phase in which every member arrived ends the phase of the allocation's data (R238). -/
def State.endPhase (s : State) (crew : Bool) (uid : Nat) : State :=
  if crew then s.modCrew uid fun k => { k with phase := k.phase + 1 }
  else
    let s1 := s.modGroup uid fun g => { g with benchPhase := g.benchPhase + 1 }
    (s1.warpsOf uid).foldl (fun s p => s.modWarp uid p.1 fun w => { w with sync := w.sync.filter fun e => !e.bench }) s1

/-- A BARSYNC completes with its phase: an acquire of what arrived (R235). -/
def State.passBarrier (s : State) (crew all : Bool) (at_ : Bool × Nat × Nat) (gid wid : Nat) (q : Pend) (es : List SyncEntry) : State :=
  let s := if crew then s else s.notePass gid wid q.lanes at_
  let s1 := if crew && all then s.modWarp gid wid fun w => { w with sync := w.sync.filter (·.bench) } else s
  (if all && !crew then s1 else s1.acquire gid wid q.id q.lanes es).complete gid wid q.id

/-- The phase completes when its count of the members left has arrived: every waiter's flag completes, and the next phase begins. -/
def execBarrierPhaseCompletion (crew : Bool) (uid bar : Nat) (s : State) : Host.Outcome State Fault Refusal :=
  let b := s.barrier crew uid bar
  let members := s.barrierMembers crew uid
  let there := b.arrived.filter fun a => members.contains (a.gid, a.wid)
  match b.govern with
  | none => .next s
  | some n =>
    let need := if n = 0 then members.length else min n members.length
    if members = [] || there.length < need then .next s
    else
      let all := members.length ≤ there.length
      let es := there.map (s.arrivalEntry crew)
      let s1 := (s.setBarrier crew uid bar { phase := b.phase + 1 })
      let s2 := if all then s1.endPhase crew uid else s1
      .next ((s.barrierGroups crew uid).foldl (fun s gid =>
        (s.warpsOf gid).foldl (fun s p =>
          (p.2.pend.filter fun q => q.kind = .barrier crew bar).foldl (fun s q => s.passBarrier crew all (false, bar, b.phase) gid p.1 q es) s) s) s2)

/-! ## DEFERRED_TRAP_DELIVERY (R120, R339 to R341) -/

/-- The virtual address that an error record names: TVAL, for a cause whose TVAL is an address and no offset (R333, R354). -/
def addressOf (t : TrapInfo) : Nat :=
  if !t.offs && [0x08, 0x09, 0x0C, 0x0D, 0x18, 0x1B].contains t.cause then t.tval.toNat else 0

/-- A trap whose lanes have all exited is dropped, with a record of kind 5 (R341). -/
def State.undelivered (s : State) (g : Group) (t : TrapInfo) : State :=
  match s.taskOf g with
  | some k => s.errRecord k.part k.asid (addressOf t) k.tid g.index t.causeWord.toNat t.cause 5
  | none => s

/-- The trap as the split that takes it sees it: EPC is the instruction that would have issued, and TVAL[63] marks a RACE. -/
def TrapInfo.delivered (t : TrapInfo) (pc : DWord) : TrapInfo :=
  { t with epc := pc, deferred := true, tval := if t.cause = 0x0C then t.tval ||| 0x8000000000000000#64 else t.tval }

/-- A deferred trap reaches its split at a run boundary, one at a time in order of completion; with every lane exited it is dropped, one held
for a provisional tile too (R341). A trap of a command issued before the
split's handler was entered is held until the TRET; one of a command that the handler issued is a DOUBLE_FAULT. A split that a
pre-emption has stopped takes none: it is saved with the others (R318, R319). -/
def execDeferredTrapDelivery (gid idx : Nat) (s : State) : Host.Outcome State Fault Refusal :=
  match s.group? gid with
  | none => .next s
  | some g =>
    match g.deferred[idx]? with
    | none => .next s
    | some d =>
      let drop : State → State := fun s => s.modGroup gid fun g => { g with deferred := g.deferred.eraseIdx idx }
      match d.tile, s.warp? gid d.wid with
      | some _, some w => if (d.lane w).isNone then .next ((drop s).undelivered g d.info) else .next s
      | none, some w =>
        match d.lane w with
        | none => .next ((drop s).undelivered g d.info)
        | some lane =>
          match w.holder lane with
          | none => .next s
          | some (ent, x) =>
            let sooner := (g.deferred.take idx).any fun e => e.tile.isNone && e.wid = d.wid &&
              (match e.lane w with
                | some l => x.held.getLsbD l
                | none => false)
            let r : SplitRef := ⟨gid, d.wid, ent⟩
            let saved := x.handler.isNone && ((s.taskOf g).map (·.saving)).getD false
            if sooner || saved || d.waitsFor x || x.run.count != 0 || x.parked.isSome || x.trap.isSome || x.second then .next s
            else .next (raise (drop s) r (d.info.delivered x.pc))
      | _, _ => .next s

/-! ## PARKED_SPLIT_RESUME and TRAP_ENTRY -/

/-- The fault of a parked split is resolved: it is READY again, with its run as it was (R203, R335). -/
def execParkedSplitResume (r : SplitRef) (s : State) : Host.Outcome State Fault Refusal :=
  .next (if s.woken.contains r then
    ({ s with woken := s.woken.filter (· != r) } : State).modSplit r fun x => { x with parked := none }
  else s)

/-- A trap waited for the split's outstanding register writes, which have completed (R336). -/
def execTrapEntry (r : SplitRef) (s : State) : Host.Outcome State Fault Refusal :=
  match s.issuerOf r with
  | none => .next s
  | some c =>
    match c.split.trap with
    | none => .next s
    | some t => .next (if c.trapWaits then s else enterTrap s r t)

/-! ## EVENT_RECORD_APPEND, LOST_RECORDS, CYCLE_COUNT_WRAP -/

/-- The oldest record held for a queue enters it when it has room (R292). -/
def execEventRecordAppend (part queue : Nat) (s : State) : Host.Outcome State Fault Refusal :=
  match (flook queue (s.part part).heldRecs).getD [] with
  | [] => .next s
  | r :: rest =>
    match s.putEvent part queue r with
    | none => .next s
    | some t =>
      let p := t.part part
      .next (t.setPart part { p with heldRecs := fput queue rest p.heldRecs })

/-- At the first free cycle the count of records lost is written (R356); after a freeze it is written in any case (R360). -/
def execLostRecords (core : Nat) (s : State) : Host.Outcome State Fault Refusal :=
  let k := s.core core
  .next (if (k.lost = 0 && !k.owes) || k.frozen.isSome || k.ringAt = some s.cycle then s
    else (s.setCore core { k with lost := 0, owes := false }).scrivBare core 0x12 (BitVec.ofNat 64 k.lost))

/-- Bits [31:0] of the count have wrapped: every core's ring takes a time record (R358). -/
def execCycleCountWrap (s : State) : Host.Outcome State Fault Refusal :=
  let rec_ := scrivRecord (BitVec.ofNat 64 s.cycle) s.cycle 0 0 0x3F 0xF 0x01
  .next (if s.cycle = 0 || s.cycle % 2 ^ 32 != 0 then s
    else (List.range 384).foldl (fun s k => if (s.core k).ring.head? = some rec_ then s else s.scriv k rec_) s)

end Sys2Proof.Machine
end

