-- ==== Sys2Proof/Machine/Places.lean ====
section
/-! DEFINITION. The places of memory: the order in which requests and writes are performed there (R148, R215 to R217, R244 to R246, R249),
self-refresh (R353), dead frames and refresh (R218), page walks and invalidations (R311, R312, R335). -/

namespace Sys2Proof.Machine

/-! ## Requests (R216, R244, R245) -/

/-- A request that has arrived may be performed now. -/
def State.servable (s : State) (u : UnitRef) (r : Req) : Bool := (r.arrived.map fun n => s.mayStart u n r.spans).getD false

/-- The queue without a request that is started. -/
def State.takeReq (s : State) (u : UnitRef) (idx : Nat) (r : Req) : State :=
  (s.modPlace u fun p => { p with queue := p.queue.eraseIdx idx }).started u (r.arrived.getD 0) r.spans

/-- A request leaves its core's send queue when it may, and has arrived at its place (R217, R244 to R246). -/
def State.sendReq (s : State) (u : UnitRef) (idx : Nat) (r : Req) : State :=
  if s.sendable u r then
    { s with fresh := s.fresh + 1 }.modPlace u fun p => { p with queue := p.queue.set idx { r with arrived := some s.fresh } }
  else s

/-- What the pieces of a read find. -/
def State.findPieces (s : State) (l : List Piece) : FMap Byte × Option Nat × Option Nat :=
  l.foldl (fun a p =>
    let f := s.found p.addr p.va p.n
    (putBytes a.1 p.key f.bytes, least a.2.1 f.bad, least a.2.2 f.dead)) ([], none, none)

/-- What a read that a peer has refused gives: the spec states no value (log 123). -/
def freePieces (s : State) (l : List Piece) : FMap Byte :=
  l.zipIdx.foldl (fun m p => putBytes m p.1.key ((List.range p.1.n).map fun i =>
    BitVec.ofNat 8 (Config.freeValue (s.free + 256 * p.2 + i)).toNat)) []

/-- A read is sent, or all its sectors are served together, or a peer refuses it (R140, R216, R323). -/
def execGlazierRequestService (u : UnitRef) (idx : Nat) (s : State) : Host.Outcome State Fault Refusal :=
  match (s.place u).queue[idx]? with
  | none => .next s
  | some r =>
    if r.pieces = [] then .next s
    else if r.arrived.isNone then .next (s.sendReq u idx r)
    else if !s.servable u r then .next s
    else
      let s1 := s.takeReq u idx r
      match peerRefusal u r.part false (r.pieces.map fun p => (p.addr, p.va)) with
      | some x =>
        let lanes := (((s.warp? r.gid r.wid).bind (·.pend? r.pid)).map (·.lanes)).getD 0
        let s2 : State := { s1 with free := s1.free + 256 * r.pieces.length }
        .next ((s2.arrive r.gid r.wid r.pid (freePieces s1 r.pieces) none none).peerError r.gid r.wid r.pid lanes r.part x)
      | none =>
        let (got, bad, dead) := s.findPieces r.pieces
        .next ((r.pieces.foldl (fun s p => s.correct p.addr p.n) s1).arrive r.gid r.wid r.pid got bad dead)

/-- The key of a ring's word at a mem address, or the cause of its fault (R163). -/
def State.ringEntry (s : State) (core : Nat) (t : Task) (va : Nat) (off : Nat) : Except Nat Nat :=
  match s.xlate (coreCluster core) t.asid t.part (va + off) .both with
  | .ok x => .ok x.key
  | .fault => .error 0x08
  | .denied => .error 0x09

/-- A waiting or queue instruction performed at a mem address; one that a fault stops completes and leaves a deferred trap (R163). -/
def State.performSync (s : State) (u : UnitRef) (r : Req) (y : SyncReq) : State :=
  match s.group? r.gid with
  | none => s
  | some g =>
    match s.taskOf g with
    | none => s
    | some t =>
      let lanes := (((s.warp? r.gid r.wid).bind (·.pend? r.pid)).map (·.lanes)).getD 0
      match peerRefusal u t.part true [(y.addr, y.va)] with
      | some x => (s.answer r.gid r.wid r.pid s.cycle []).peerError r.gid r.wid r.pid lanes t.part x
      | none =>
      let s0 := if y.op matches .waitq _ _ then s else s.expose g
      match syncAt r.gid r.wid r.pid (fun _ => s.cycle) u y (s.ringEntry g.core t y.va) s0 with
      | .ok s1 => s1
      | .error (cause, a) =>
        (s.answer r.gid r.wid r.pid s.cycle []).defer r.gid r.wid r.pid lanes
          { cause := cause, tval := BitVec.ofNat 64 a, note := s.noteFor (coreCluster g.core) t.asid t.part .both a } none

/-- An atomic, or a waiting or queue instruction, is sent or executes at its place (R148, R149, R160, R163, R246). -/
def execAtomicExecution (u : UnitRef) (idx : Nat) (s : State) : Host.Outcome State Fault Refusal :=
  match (s.place u).queue[idx]? with
  | none => .next s
  | some r =>
    if r.pieces != [] then .next s
    else if r.arrived.isNone then .next (s.sendReq u idx r)
    else if !s.servable u r then .next s
    else
      let s1 := s.takeReq u idx r
      .next (match r.atom, r.sync, s.group? r.gid with
        | some a, _, some g => s1.performAtomic g r.gid r.wid r.pid u a fun k => s1.stampFor r.gid r.wid a.count k
        | none, some y, some _ => s1.performSync u r y
        | _, _, _ => s1)

/-! ## The path of a write (R244, R245) -/

/-- A write may enter the write buffer as far as its split's returning atomics and, for a release, its earlier accesses allow (R148, R245). -/
def State.mayEnter (s : State) (e : WbEntry) : Bool :=
  match e.atom, e.pid with
  | some a, some (wid, pid) =>
    (match (s.warp? e.gid wid).bind fun w => (w.pend? pid).map fun q => (w, q) with
      | none => true
      | some (w, q) => w.atomsReturned q.lanes pid && (!a.rel || w.earlierDone q.lanes pid))
  | _, _ => (e.agent.map fun a => ((s.warp? e.gid a.1).map (·.atomsReturned a.2 e.cid)).getD true).getD true

/-- Two writes of a group that enter in their order: into one bank, or both atomics of one warp. -/
def WbEntry.after (a b : WbEntry) : Bool := a.bank = b.bank || (a.atom.isSome && b.atom.isSome && a.pid.map (·.1) = b.pid.map (·.1))

/-- The writes that a commit has taken enter their banks in order, 64 to a bank: the buffer, and what is left. -/
def enterBanks (s : State) (die : Nat) : List WbEntry → FMap (List WbEntry) × List WbEntry → FMap (List WbEntry) × List WbEntry
  | [], a => a
  | e :: rest, a =>
    let k := die * 16 + e.bank
    let b := (flook k a.1).getD []
    enterBanks s die rest
      (if b.length < 64 && s.mayEnter e && !a.2.any (·.after e) then (fput k (b ++ [e]) a.1, a.2) else (a.1, a.2 ++ [e]))

/-- What a group's commit points, atomics and commands write enters its die's write buffer (R244, R347). -/
def execStoreBufferCommit (gid : Nat) (s : State) : Host.Outcome State Fault Refusal :=
  match s.group? gid with
  | none => .next s
  | some g =>
    let (banks, left) := enterBanks s (coreDie g.core) g.draining (s.wbanks, [])
    .next ({ s with wbanks := banks }.modGroup gid fun g => { g with draining := left })

/-- The head of a bank waits: for its place, for requests there that touch its bytes or have let others pass, for its group's earlier
requests to its bytes, or for a view (R216, R225, R249, R353). -/
def State.drainHeld (s : State) (e : WbEntry) : Bool :=
  let asid := ((flook e.task s.tasks).map (·.asid)).getD 0
  let vas := e.bytes.map (·.2.va) ++ ((e.atom.map fun a => a.lanes.map (·.va)).getD [])
  vas.any (fun va => s.viewHeld asid va e.gid e.cid) || !s.mayStart e.u s.fresh e.spans || !s.tierRoom e.u e.gid ||
    s.requestAhead e.u e.gid e.cid fun r => e.spans.any fun x => r.touches x.1 x.2

/-- A bank's oldest write leaves it and is performed (R244). -/
def execWriteBufferDrain (die bank : Nat) (s : State) : Host.Outcome State Fault Refusal :=
  match (flook (die * 16 + bank) s.wbanks).getD [] with
  | [] => .next s
  | e :: rest =>
    .next (if s.drainHeld e then s
      else ({ s with wbanks := fput (die * 16 + bank) rest s.wbanks }.started e.u s.fresh e.spans).performWrite die e)

/-! ## Page walks and invalidations (R311, R312, R335) -/

/-- The splits of a die that stand before a line of a page of an address space, and have missed (R311). -/
def State.missing (s : State) (die asid page : Nat) : List SplitRef :=
  s.warps.flatMap fun w => w.2.splits.filterMap fun p =>
    match s.issuerOf ⟨w.1 / 32, w.1 % 32, p.1⟩ with
    | some c => if c.fetching && c.die = die && c.task.asid = asid && (lineOf p.2.pc).toNat / 65536 = page then some c.ref else none
    | none => none

/-- A miss is walked, and a valid leaf is cached for the clusters of the die; under an invalidation that covers it, it is not kept. A
malformed entry is recorded with the fault of the split that has missed, or without a warp where none has (R309; log 121). -/
def execPageWalk (die asid va : Nat) (s : State) : Host.Outcome State Fault Refusal :=
  match s.walk asid va with
  | .leaf e l =>
    let page := va / 2 ^ pageBits l
    if s.invals.any fun v => v.covers asid (page * 2 ^ pageBits l) (2 ^ pageBits l) then .next s
    else
      let more := ((List.range 12).map (die * 12 + ·)).filter fun c => !s.tlb.any fun t => t.cluster = c && t.asid = asid && t.page = va / 2 ^ pageBits t.level
      .next { s with tlb := s.tlb ++ more.map fun c => { cluster := c, asid := asid, page := page, level := l, leaf := BitVec.ofNat 64 e } }
  | .malformed pa => .next (if s.missing die asid (va / 65536) = [] then s.recordWalk asid (s.partOf asid) (some (0x0E, pa, 0)) else s)
  | .absent => .next s

/-- The cached leaves that an invalidation covers are dropped. -/
def State.dropLeaves (s : State) (v : Inval) : State :=
  { s with tlb := s.tlb.filter fun t => !v.covers t.asid (t.page * 2 ^ pageBits t.level) (2 ^ pageBits t.level) }

/-- An invalidation begins: the leaves are dropped and the store buffers that it covers commit; those of a redundant pair once its members
have come to one point and agree (R347, R349, R350). -/
def State.invalidate (s : State) (v : Inval) : State :=
  let s1 := s.dropLeaves v
  let s2 := (s1.coveredBuffers v).foldl (fun s p => if s.gflag p.2 Task.redundant then s else s.commit p.1) s1
  { s2 with invals := s2.invals ++ [{ v with start := s2.fresh }] }

/-- A write to TRINV: none while one is under way (R320). -/
def State.startInval (s : State) (v : DWord) : State :=
  let n := v.toNat
  if s.invals != [] then s
  else s.invalidate { asid := n % 4096, whole := bitOf n 12, first := bitsOf s.traddr.toNat 56 16 * 65536, pages := bitsOf n 47 16, start := 0 }

def execTrinvWrite (v : DWord) (s : State) : Host.Outcome State Fault Refusal := .next (s.startInval v)

/-- The virtual addresses that a request touches. -/
def Req.vas (r : Req) : List (Nat × Nat) :=
  r.pieces.map (fun x => (x.va, x.n)) ++ ((r.atom.map fun a => a.lanes.map fun l => (l.va, a.size)).getD []) ++
    ((r.sync.map fun y => [(y.va, 16)]).getD [])

/-- An access translated before the invalidation began is still to be performed (R312). -/
def State.invalWaits (s : State) (v : Inval) : Bool :=
  let entry : WbEntry → Bool := fun e => (e.cid < v.start || v.also.contains e.cid) &&
    (let asid := ((flook e.task s.tasks).map (·.asid)).getD 0
     e.bytes.any (fun b => v.covers asid b.2.va 1) || (e.atom.map fun a => a.lanes.any fun l => v.covers asid l.va a.size).getD false)
  (s.cores.any fun k => k.2.engine.any fun e => e.asid = v.asid && e.id < v.start) ||
  (s.draws.any fun d => d.asid = v.asid && d.id < v.start) ||
  (s.places.any fun p => p.2.queue.any fun r => r.pid < v.start && s.asidOf r.gid = v.asid &&
    r.vas.any fun x => v.covers v.asid x.1 x.2) ||
  (s.groups.any fun g => g.2.draining.any entry) || (s.wbanks.any fun b => b.2.any entry) || s.coveredBuffers v != []

/-- The parked splits whose fault an invalidation covers (R335). -/
def State.parkedUnder (s : State) (v : Inval) : List SplitRef :=
  s.warps.flatMap fun w => w.2.splits.filterMap fun p =>
    match p.2.parked with
    | some va => if v.covers (s.asidOf (w.1 / 32)) va.toNat 1 then some ⟨w.1 / 32, w.1 % 32, p.1⟩ else none
    | none => none

/-- The invalidation under way completes, in the order of the writes, and the splits that its pages parked may issue again. -/
def execInvalidationComplete (s : State) : Host.Outcome State Fault Refusal :=
  match s.invals with
  | [] => .next s
  | v :: rest =>
    .next (if s.invalWaits v then s
      else
        let s1 := s.dropLeaves v
        { s1 with invals := rest, woken := s1.woken ++ (s1.parkedUnder v).filter fun r => !s1.woken.contains r })

/-! ## Dead frames and refresh (R218) -/

/-- A glazier's share of a frame is live again; what it holds then the manual does not give: free values (log 3). The share is four runs of
256 bytes (R213). -/
def State.reviveFree (s : State) (frame pc : Nat) : State :=
  let mask := fget 0 frame s.deadFr
  if mask.getLsbD (pc % 64) then
    let mine : Nat → Bool := fun pa => pa / 65536 = frame && hbmChannel pa false % 64 = pc % 64
    let words : Nat → List Byte := fun k => (List.range 32).flatMap fun i => natBytes 8 (Config.freeValue (s.free + 32 * k + i)).toNat
    { s with deadFr := fset 0 frame (mask &&& ~~~ BitVec.ofNat 64 (2 ^ (pc % 64))) s.deadFr, free := s.free + 128,
             poison := s.poison.filter fun a => !mine (a * 32), soft := s.soft.filter fun a => !mine (a * 32),
             mem := (List.range 4).foldl (fun m k => wrBytes m (hbmKey (frame * 65536 + k * 16384 + pc % 64 * 256)) (words k))
               (s.mem.filter fun p => !mine p.1) }
  else s

/-- Bytes of a frame, at either of its addresses. -/
def Req.inFrame (r : Req) (frame : Nat) : Bool := r.spans.any (Sys2Proof.Machine.inFrame · frame)
/-- The requests at a glazier and, where it is the odd one of a pair, those at the even one, which takes the requests of ganged frames. -/
def State.pairQueue (s : State) (pc : Nat) : List Req :=
  (s.place ⟨.glazier, pc⟩).queue ++ (if pc % 2 = 1 then (s.place ⟨.glazier, pc - 1⟩).queue.filter fun r => r.spans.any (gangBase ≤ ·.1) else [])

/-- A declaration for a frame reaches every glazier of its stack: at each it follows the accesses to the frame that have arrived there, and
those of a ganged frame that have arrived for the pair (R215, R218). -/
def State.declare (s : State) (live : Bool) (frame : Nat) : State :=
  (List.range 64).foldl (fun t k => t.modPlace ⟨.glazier, frame / 2 ^ 20 * 64 + k⟩ fun p =>
    { p with deadReq := p.deadReq ++
      [{ id := s.fresh, frame := frame, live := live,
         before := ((s.pairQueue (frame / 2 ^ 20 * 64 + k)).filter (·.inFrame frame)).filterMap (·.arrived) }] })
    { s with fresh := s.fresh + 1 }

/-- A glazier's oldest declaration takes effect there once the accesses that came before it have been performed. -/
def execLiveMapUpdate (pc : Nat) (s : State) : Host.Outcome State Fault Refusal :=
  let p := s.place ⟨.glazier, pc⟩
  match p.deadReq with
  | [] => .next s
  | d :: rest =>
    if (s.pairQueue pc).any fun r => (r.arrived.map d.before.contains).getD false then .next s
    else
      let s1 := s.setPlace ⟨.glazier, pc⟩ { p with deadReq := rest }
      .next (if d.zeros then s1.freshZeros fun pa => pa / 65536 = d.frame && hbmChannel pa false = pc
        else if d.live then s1.reviveFree d.frame pc
        else { s1 with deadFr := fset 0 d.frame (fget 0 d.frame s1.deadFr ||| BitVec.ofNat 64 (2 ^ (pc % 64))) s1.deadFr })

/-- A row is refreshed unless every frame with bytes in it is dead there; in self-refresh the stack does it itself. -/
def execRefresh (pc row : Nat) (s : State) : Host.Outcome State Fault Refusal :=
  let frames := Config.rowFrames pc row
  .next (if s.stackHeld ⟨.glazier, pc⟩ || (frames != [] && frames.all fun f => (fget 0 f s.deadFr).getLsbD (pc % 64)) then s
    else s.modPlace ⟨.glazier, pc⟩ fun p => { p with refreshed := fput row s.cycle p.refreshed })

/-! ## Self-refresh (R353) -/

def onStack (stack : Nat) (u : UnitRef) : Bool := u.kind = .glazier && u.num / 64 = stack

/-- The glaziers of a stack. -/
def stackPlaces (stack : Nat) : List UnitRef := (List.range 64).map fun k => ⟨.glazier, stack * 64 + k⟩

/-- A command of an engine could make its next access now. -/
def State.couldMove (s : State) (e : ECmd) : Bool :=
  let ok : {α : Type} → Except (Option TrapInfo) α → Bool := fun r => match r with
    | .error none => false
    | _ => true
  match s.agentFor e.gid e.wid 0 e.lanes with
  | none => false
  | some c =>
    e.fault.isNone && (if movesBytes e.kind then e.pos < e.bytesToMove && ok (moveBeat s c e)
      else e.kind = .rstream && (List.range e.total).any fun k => !e.needs.contains k && ok (streamAtom s c e k))

/-- An entry's application at a pixel is due: its turn has come, and what it applies is there. -/
def Glazier.due (g : Glazier) (x : ExpEntry) (pixel : Nat) : Bool :=
  x.mask.getLsbD pixel && !x.closed.getLsbD pixel &&
    !(g.entries.takeWhile (·.id != x.id)).any (fun e => e.asid = x.asid && e.obj = x.obj && e.tx = x.tx && e.ty = x.ty &&
      e.mask.getLsbD pixel && !e.closed.getLsbD pixel && !(x.cls = 1 && e.cls = 1)) &&
    (x.cls = 2 || g.packets.any fun k => k.entry = x.id && k.pixel = pixel)

/-- The partitions that have a request held at a stack: of a core, of an engine, a method or a PUBLISH. -/
def State.heldParts (s : State) (stack : Nat) : List Nat :=
  let t := { s with refresh := fput stack s.cycle s.refresh }
  let rs := (stackPlaces stack).flatMap fun u =>
    (((s.place u).queue.filter (·.arrived.isSome)).map (·.part)) ++ ((s.place u).entries.filter fun e => (List.range 64).any fun k => (s.place u).due e k).map (s.partOf ·.asid)
  let cs := s.cores.flatMap fun k => (k.2.engine.filter fun e => s.couldMove e && !t.couldMove e).map (·.part)
  let ps := (s.publishes.filter fun p => onStack stack ⟨.glazier, hbmChannel (s.entryKey p.asid p.obj) false⟩).map (·.part)
  let es := s.wbanks.flatMap fun b => (b.2.filter fun e => onStack stack e.u).map fun e => ((flook e.task s.tasks).map (·.part)).getD 0
  (rs ++ cs ++ ps ++ es).foldl (fun a p => sins p a) []

/-- The critical-temperature signal: no request is performed at the stack from here on, and the partitions with a request held there get a
record. -/
def execForcedSelfRefreshEntry (stack : Nat) (s : State) : Host.Outcome State Fault Refusal :=
  .next (if 8 ≤ stack || (flook stack s.refresh).isSome then s
    else (s.heldParts stack).foldl (fun s p => s.errRecord p (fget 0 p s.conf.asidBase) 0 0 0xFFFFFFFF 0 0 4)
      { s with refresh := fput stack s.cycle s.refresh })

/-- The stack performs requests again, in their order. -/
def execForcedSelfRefreshExit (stack : Nat) (s : State) : Host.Outcome State Fault Refusal :=
  .next { s with refresh := fdel stack s.refresh, timedOut := sdel stack s.timedOut }

/-- A held request of a read or an atomic completes as consumed poison; a waiting or queue instruction is dropped, and what it would have
written to its registers is a free value (R344, R353; log 3). -/
def State.poisonReq (s : State) (r : Req) : State :=
  let low := (r.pieces.map (·.va) ++ r.writes ++ ((r.atom.map fun a => a.lanes.map (·.va)).getD [])).foldl (fun a v => least a (some v)) none
  match r.sync with
  | none => s.arrive r.gid r.wid r.pid [] low none
  | some y =>
    let n := if y.op = .qpop || y.op = .qpopw then 2 else 1
    let vals : List RegWrite := (List.range n).map fun i => .sca (y.reg + i) ((Config.freeValue (s.free + i)).setWidth 32)
    (({ s with free := s.free + 2 } : State).answer r.gid r.wid r.pid s.cycle vals).modPend r.gid r.wid r.pid fun q =>
      { q with bad := low.map (BitVec.ofNat 64) }

/-- A held write is dropped, and its group receives ECC_UNCORRECTABLE: for a plain write, its first warp. -/
def State.poisonWrite (s : State) (e : WbEntry) : State :=
  match e.atom, e.pid with
  | some a, some (wid, pid) => s.arrive e.gid wid pid [] ((a.lanes.map (·.va)).head?) none
  | _, _ => s.consumed e.gid 0 e.cid (BitVec.allOnes 64) (BitVec.ofNat 64 (((e.bytes.map (·.2.va)).head?).getD 0))

/-- Every request and write held at a stack is ended; what else is held there ends where it is tried (lostAt). -/
def State.dropHeld (s : State) (stack : Nat) : State :=
  let s1 := (stackPlaces stack).foldl (fun s u =>
    ((s.place u).queue.filter (·.arrived.isSome)).foldl (fun s r => s.poisonReq r)
      (s.modPlace u fun p => { p with queue := p.queue.filter (·.arrived.isNone) })) s
  let gone := (s1.wbanks.flatMap (·.2) ++ s1.groups.flatMap fun g => g.2.draining).filter fun e => onStack stack e.u
  let s2 := { s1 with
    wbanks := s1.wbanks.map fun (b : Nat × List WbEntry) => (b.1, b.2.filter fun e => !onStack stack e.u),
    groups := s1.groups.map fun (g : Nat × Group) => (g.1, { g.2 with draining := g.2.draining.filter fun e => !onStack stack e.u }) }
  gone.foldl (fun s e => s.poisonWrite e) s2

/-- Every core in service. -/
def State.allCores (s : State) : List Nat := (List.range 384).filter s.inService

/-- A device fatal event (R359). -/
def State.deviceFatal (s : State) : State := s.fatal true 0 0 0 0 s.allCores

/-- Self-refresh has lasted more than 2^24 cycles: what is held there ends, the stack is reported, and a device fatal event begins, once for
each time (R353, R359). -/
def execSelfRefreshTimeout (stack : Nat) (s : State) : Host.Outcome State Fault Refusal :=
  match flook stack s.refresh with
  | none => .next s
  | some since =>
    if s.cycle ≤ since + 2 ^ 24 then .next s
    else
      let s1 := s.dropHeld stack
      .next (if s1.timedOut.contains stack then s1
        else ({ s1 with timedOut := sins stack s1.timedOut, reports := sins stack s1.reports } : State).deviceFatal)

end Sys2Proof.Machine
end

