-- ==== Sys2Proof/Machine/Host.lean ====
section
/-! DEFINITION. The host aperture (R285, R324, R325), the device control block (R320, R334, R355), and Dallum's answers to messages and to
the service requests of queue 255 (R286, R292). -/

namespace Sys2Proof.Machine

/-! ## The device control block (R320) -/

/-- A write to a register that only holds its value. -/
def State.controlWrite (s : State) (off : Nat) (v : DWord) : State :=
  let n := v.toNat
  if off = 0x000 then { s with traddr := BitVec.ofNat 64 (bitsOf n 56 16 * 65536) }
  else if off = 0x010 then { s with ctxbase := v }
  else if off = 0x028 then { s with wpaddr := BitVec.ofNat 64 (bitsOf n 56 3 * 8) }
  else if off = 0x030 then { s with wpctl := BitVec.ofNat 64 (bitsOf n 47 16 * 65536 + n % 2 ^ 15) }
  else if off = 0x038 then { s with errq := fset 0 16 (BitVec.ofNat 64 (bitsOf n 56 12 * 4096 + n % 32)) s.errq }
  else if 0x100 ≤ off && off < 0x180 && off % 8 = 0 then
    { s with errq := fset 0 ((off - 0x100) / 8) (BitVec.ofNat 64 (bitsOf n 56 12 * 4096 + n % 32)) s.errq }
  else s

def execControlBlockWrite (off : Nat) (v : DWord) (s : State) : Host.Outcome State Fault Refusal := .next (s.controlWrite off v)

/-- A write to any register. -/
def State.registerWrite (s : State) (off : Nat) (v : DWord) : State :=
  if off = 0x008 then s.startInval v else if off = 0x018 then s.startSave v else if off = 0x020 then s.startRestore v else s.controlWrite off v

/-- The bits of a register that are not reserved; a reserved bit reads as zero (R8, R320, R334, R355). -/
def registerMask (off : Nat) : DWord :=
  if off = 0x000 then 0x01FFFFFFFFFF0000#64
  else if off = 0x028 then 0x01FFFFFFFFFFFFF8#64
  else if off = 0x030 then 0x0000FFFFFFFF7FFF#64
  else if off = 0x038 || (0x100 ≤ off && off < 0x180) then 0x01FFFFFFFFFFF01F#64
  else BitVec.allOnes 64

/-- What a register reads as; for one that the manual gives no reading, a free value (log 3). -/
def State.registerRead (s : State) (off : Nat) : DWord :=
  let flags : Bool → Bool → DWord := fun busy failed => BitVec.ofNat 64 ((if busy then 2 ^ 63 else 0) + if failed then 2 ^ 62 else 0)
  if off = 0x008 then flags (s.invals != []) false
  else if off = 0x018 then flags s.preempt.isSome s.preFail
  else if off = 0x020 then flags s.restore.isSome s.resFail
  else Config.freeValue (s.free + off) &&& registerMask off

/-- The window register: only bits [51:38] (R324). -/
def execApwinWrite (v : DWord) (s : State) : Host.Outcome State Fault Refusal :=
  .next { s with apwin := BitVec.ofNat 64 (bitsOf v.toNat 51 38 * 2 ^ 38) }

/-! ## BAR2 (R323, R324) -/

/-- Where a host access goes: bytes of memory, each with its place, or the control block; or it is refused. -/
inductive HostTarget where
  | bytes (l : List (Nat × UnitRef))
  | block (off : Nat)
  | refused
  deriving DecidableEq, Repr

/-- The address space 0 of a partition, if it has one (R306). -/
def State.space0 (s : State) (part : Nat) : Option Nat :=
  if fget 0 part s.conf.asidNum = 0 then none else some (fget 0 part s.conf.asidBase)

/-- A byte at a physical address for the hypervisor: HBM of a stack that serves (R323, R370, R373). -/
def State.physByte (s : State) (pa : Nat) : Option (Nat × UnitRef) :=
  if 2 ^ 39 ≤ pa || s.badStacks.contains (pa / 2 ^ 36) || (s.stage < 2 && pa / 2 ^ 36 != 0) then none
  else some (hbmKey pa, ⟨.glazier, hbmChannel pa false⟩)

/-- The cluster whose cached leaf a host request uses, if any holds one (R311, R324; log 121). -/
def State.cachedAt (s : State) (asid va : Nat) : Nat :=
  ((s.tlb.find? fun t => t.asid = asid && t.page = va / 2 ^ pageBits t.level).map (·.cluster)).getD 48

/-- A byte at an address of a partition's address space 0, which a peer may refuse (R323). -/
def State.virtByte (s : State) (part va : Nat) (need : Need) : Option (Nat × UnitRef) :=
  match s.space0 part with
  | none => none
  | some asid =>
    match s.xlate (s.cachedAt asid va) asid part va need with
    | .ok x => if (peerRefusal x.unit part (need != .read) [(x.key, va)]).isSome then none else some (x.key, x.unit)
    | _ => none

/-- All of some results. -/
def allSome {α : Type} : List (Option α) → Option (List α)
  | [] => some []
  | none :: _ => none
  | some x :: t => (allSome t).map (x :: ·)

/-- n bytes for a function: translated for a partition's, through the window for function 0's. -/
def State.hostTarget (s : State) (fn off n : Nat) (need : Need) : HostTarget :=
  if 2 ^ 38 < off + n then .refused
  else if fn = 0 then
    let pa := s.apwin.toNat + off
    if 2 ^ 51 ≤ pa && pa + n ≤ 2 ^ 51 + 65536 then .block (pa - 2 ^ 51)
    else match allSome ((List.range n).map fun i => s.physByte (pa + i)) with
      | some l => .bytes l
      | none => .refused
  else match allSome ((List.range n).map fun i => s.virtByte (fn - 1) (off + i) need) with
    | some l => .bytes l
    | none => .refused

/-- The answer to a host request, newest first: no bytes for a completion of Unsupported Request. -/
def State.hostAnswer (s : State) (bs : List Byte) : State := { s with hostOut := bs :: s.hostOut }

/-- A refusal is recorded: kind 7 in the partition's virtual error queue and in the physical log, with the Scrivener's record of a target's
refusal or of a malformed entry; of physical addresses, without a partition, in the log alone (R309, R323, R324, R355, R358; log 121). -/
def State.refusedAt (s : State) (part : Option Nat) (addr n : Nat) (need : Need) : State :=
  match part with
  | none => (s.recordWalk 0 0 (some (0x11, addr, 0))).logRecord addr 0 0xFFFFFFFF 0 0 0 0 7
  | some p =>
    let asid := fget 0 p s.conf.asidBase
    let first := (List.range n).find? fun i => (s.virtByte p (addr + i) need).isNone
    (s.recordWalk asid p (match first with
      | some i => (match s.xlate (s.cachedAt asid (addr + i)) asid p (addr + i) need with
        | .ok _ => some (0x11, addr + i, 0)
        | _ => s.noteFor (s.cachedAt asid (addr + i)) asid p need (addr + i))
      | none => some (0x11, addr, 0))).errRecord p asid addr 0 0xFFFFFFFF 0 0 7
def State.hostRefused (s : State) (fn off n : Nat) (need : Need) : State :=
  if fn = 0 then s.refusedAt none (s.apwin.toNat + off) n need else s.refusedAt (some (fn - 1)) off n need

/-- The views in use that are published no more: the address space, where the copy lies, its length (R249). -/
def State.staleViews (s : State) : List (Nat × Nat × Nat) :=
  let stale : Nat → Nat → Nat → Nat → List (Nat × Nat × Nat) := fun asid obj base n =>
    if base != 0 && base != objPub (s.objEntry asid obj) then [(asid, base, n)] else []
  (s.cores.flatMap fun k => k.2.engine.flatMap fun e =>
    if e.src = 4 then stale e.asid e.obj (e.view.getD 0) (objEnd e.entry) else []) ++
  (s.warps.flatMap fun w => w.2.pend.flatMap fun q => match q.view with
    | some (obj, base, n) => stale (s.asidOf (w.1 / 32)) obj base n
    | none => [])

/-- A byte of HBM lies in a view in use that is published no more: in a run of 512 bytes of one of its pages, since a ganged frame's bytes
change places within such runs (R213, R249). -/
def State.staleCell (s : State) (key : Nat) : Bool :=
  s.staleViews.any fun v => (upFrom (v.2.1 / 65536) ((v.2.1 + v.2.2) / 65536 - v.2.1 / 65536 + 1)).any fun page =>
    ((s.glazierKey v.1 (page * 65536)).map fun k => cell k / 65536 = cell key / 65536 &&
      overlaps (page * 65536 + cell key % 65536 / 512 * 512) 512 v.2.1 v.2.2).getD false

/-- The places of a host access, with its bytes there. -/
def hostSpans (l : List (Nat × UnitRef)) : List (UnitRef × List (Nat × Nat)) :=
  (l.map (·.2)).eraseDups.map fun u => (u, (l.filter (·.2 = u)).map fun x => (x.1, 1))

/-- A host access waits: its stack is in self-refresh, its place has older requests to its bytes, a view holds it, or an older one waits (R216,
R246, R249, R353). -/
def State.hostWaits (s : State) (fn off : Nat) (l : List (Nat × UnitRef)) (writes : Bool) : Bool :=
  s.hostHeld != [] || (hostSpans l).any (fun p => !s.lostAt p.1 && !s.mayStart p.1 s.fresh p.2) ||
    (writes && if fn = 0 then l.any fun x => keyRegion x.1 = 0 && s.staleCell x.1
      else (List.range l.length).any fun i => s.viewHeld (fget 0 (fn - 1) s.conf.asidBase) (off + i) s.fresh 0)
/-- The access has reached its places. -/
def State.hostVisit (s : State) (l : List (Nat × UnitRef)) : State := (hostSpans l).foldl (fun s p => s.started p.1 s.fresh p.2) s

/-- A stack's self-refresh has lasted too long: what is held there is not performed (R353). -/
def State.hostLost (s : State) (l : List (Nat × UnitRef)) : Bool := l.any fun (x : Nat × UnitRef) => s.stackHeld x.2

/-- The bytes as the host reads them: a byte of a dead frame is zero (R219); what the host gets of a poisoned one the manual does not say: a
free value (log 3). -/
def State.hostBytes (s : State) (l : List (Nat × UnitRef)) : List Byte :=
  l.zipIdx.map fun (p : (Nat × UnitRef) × Nat) =>
    let f := s.found p.1.1 0 1
    if f.bad.isSome then (Config.freeValue (s.free + p.2)).setWidth 8 else f.bytes.headD 0

/-- The registers of the control block as bytes. -/
def State.blockBytes (s : State) (off n : Nat) : List Byte :=
  (List.range n).map fun i => BitVec.ofNat 8 ((s.registerRead ((off + i) / 8 * 8)).toNat / 256 ^ ((off + i) % 8))

def execBar2HostRead (fn off len : Nat) (s : State) : Host.Outcome State Fault Refusal :=
  .next (match s.hostTarget fn off len .read with
    | .refused => (s.hostRefused fn off len .read).hostAnswer []
    | .block o => ({ s with free := s.free + 65536 } : State).hostAnswer (s.blockBytes o len)
    | .bytes l =>
      if s.hostWaits fn off l false then { s with hostHeld := s.hostHeld ++ [.bar2HostRead fn off len] }
      else if s.hostLost l then s.hostAnswer []
      else (l.foldl (fun s x => s.correct x.1 1) ({ s.hostVisit l with free := s.free + len } : State)).hostAnswer (s.hostBytes l))

/-- Bytes at their keys as runs of consecutive keys. -/
def keyRuns : List (Nat × Byte) → List (Nat × List Byte)
  | [] => []
  | (k, b) :: rest =>
    match keyRuns rest with
    | (j, bs) :: more => if k + 1 = j then (k, b :: bs) :: more else (k, [b]) :: (j, bs) :: more
    | [] => [(k, [b])]

/-- Bytes written at their places by no group: the stamps stay, and a revival is recorded by core 0. -/
def State.plainStore (s : State) (keys : List Nat) (bs : List Byte) : State :=
  (keyRuns (keys.zip bs)).foldl (fun s r => s.store 0 r.1 r.2 none) s

def execBar2HostWrite (fn off : Nat) (data : List Byte) (s : State) : Host.Outcome State Fault Refusal :=
  .next (match s.hostTarget fn off data.length .write with
    | .refused => s.hostRefused fn off data.length .write
    | .block o => if o % 8 = 0 && data.length = 8 then s.registerWrite o (BitVec.ofNat 64 (bytesNat data)) else s
    | .bytes l =>
      if s.hostWaits fn off l true then { s with hostHeld := s.hostHeld ++ [.bar2HostWrite fn off data] }
      else if s.hostLost l then s
      else (s.hostVisit l).plainStore (l.map (·.1)) data)

/-- A PCIe AtomicOp that BAR2 accepts: FetchAdd, Swap or CAS of 4 or 8 aligned bytes. -/
def hostAtomicOk (off : Nat) (op : AtomOp) (size : Nat) : Bool := hostTakes op && (size = 4 || size = 8) && off % size = 0

/-- The operation at the place: the old value is the answer; a poisoned atom is left as it is and answers zero (R344). -/
def State.hostAtomic (s : State) (l : List (Nat × UnitRef)) (op : AtomOp) (size val cmp : Nat) : State :=
  let keys := l.map fun (x : Nat × UnitRef) => x.1
  let f := s.found (keys.headD 0) 0 size
  let old := bytesNat f.bytes
  let s1 := match atomNew op size old val cmp with
    | some v => if f.bad.isSome then s else s.plainStore keys (natBytes size v)
    | none => s
  s1.hostAnswer (natBytes size old)

def execBar2HostAtomic (fn off : Nat) (op : AtomOp) (size val cmp : Nat) (s : State) : Host.Outcome State Fault Refusal :=
  .next (match (if hostAtomicOk off op size then s.hostTarget fn off size .both else .refused) with
    | .bytes l =>
      if s.hostWaits fn off l true then { s with hostHeld := s.hostHeld ++ [.bar2HostAtomic fn off op size val cmp] }
      else if l.any (fun (x : Nat × UnitRef) => x.2.kind = .host) then (s.hostRefused fn off size .both).hostAnswer []
      else if s.hostLost l then s.hostAnswer []
      else (s.hostVisit l).hostAtomic l op size val cmp
    | _ => (s.hostRefused fn off size .both).hostAnswer [])

/-! ## Messages (R286, R365, R369) -/

def msgKind (m : List Byte) : Nat := fieldNat m 0 2
def msgTag (m : List Byte) : Nat := fieldNat m 2 2
def msgAddr (m : List Byte) : Nat := fieldNat m 8 8

/-- The body bytes that a kind uses. -/
def kindUses (kind : Nat) : Option (List Nat) :=
  if kind = 0x01 || kind = 0x10 || kind = 0x14 || kind = 0x15 || kind = 0x27 || kind = 0x28 || kind = 0x29 then some []
  else if kind = 0x02 || kind = 0x03 then some (upFrom 16 4)
  else if kind = 0x04 || (0x21 ≤ kind && kind ≤ 0x24) then some (upFrom 16 2)
  else if kind = 0x11 then some (upFrom 16 16)
  else if kind = 0x12 then some (upFrom 16 8)
  else if kind = 0x13 then some (upFrom 16 32)
  else if kind = 0x20 || kind = 0x25 then some (upFrom 16 3)
  else none

/-- The requests that only physical function 0 may make (R369). -/
def serviceKind (kind : Nat) : Bool := 0x20 ≤ kind && kind ≤ 0x29

/-- A message that Dallum acts on; any other gets status 0xFF. -/
def msgOk (m : List Byte) (fn0 : Bool) : Bool :=
  match kindUses (msgKind m) with
  | none => false
  | some used =>
    fieldNat m 4 4 = 0 && ((upFrom 16 48).all fun i => used.contains i || m.getD i 0 = 0) && (fn0 || !serviceKind (msgKind m))

/-- Dallum is handing over to another image and takes no message (R372). -/
def State.handingOver (s : State) : Bool :=
  match s.service with
  | some (.handover _ _ _, _) => true
  | _ => false

/-- The message that Dallum takes next from a mailbox: it is in service, no request of the same mailbox is under way, and there is room for
the reply and for those of requests that wait (R285, R370). -/
def State.dallumHead (s : State) (part m : Nat) : Option (List Byte × Bool) :=
  let b := (s.part part).box m
  let busy := match s.service with
    | some (_, p, k, _) => p = part && k = m
    | none => false
  if s.stage = 0 || !s.dallumBox part m || busy || s.handingOver ||
    16 ≤ b.outbound.length + (s.svcWaits.filter fun q => q.1 = part && q.2.1 = m).length then none else b.inbound.head?

/-- The head message, if it is of a kind and well formed. -/
def State.dallumMsg (s : State) (part m kind : Nat) : Option (List Byte × Bool) :=
  (s.dallumHead part m).filter fun x => msgKind x.1 = kind && msgOk x.1 x.2

/-- A message leaves the inbound ring. -/
def State.takeMsg (s : State) (part m : Nat) : State := s.modBox part m fun b => { b with inbound := b.inbound.drop 1 }
/-- A reply to a message: its kind with bit 15, its tag and address, and the body (R286). -/
def State.replyTo (s : State) (part m : Nat) (x : List Byte) (body : List Byte) : State :=
  ({ s with watchdog := 0 } : State).modBox part m fun b =>
    { b with outbound := b.outbound ++ [message (msgKind x % 2 ^ 15 + 2 ^ 15) (msgTag x) (msgAddr x) body] }
def State.answerMsg (s : State) (part m : Nat) (x : List Byte) (body : List Byte) : State := (s.takeMsg part m).replyTo part m x body

/-- The mailbox that a function's window holds (R324). -/
def boxOf (fn mbx : Nat) : Option (Nat × Nat) :=
  if fn = 0 then (if mbx < 4096 then some (mbx / 256, mbx % 256) else none)
  else if fn ≤ 16 && mbx < 256 then some (fn - 1, mbx) else none

/-- A host write in a mailbox window: one aligned 64-byte write is a message; any other in the ring's window, or one that finds the ring
full, is dropped and counted; elsewhere it is ignored (R285, R325). -/
def execMailboxInboundWrite (fn mbx off : Nat) (data : List Byte) (s : State) : Host.Outcome State Fault Refusal :=
  .next (match boxOf fn mbx with
    | none => s
    | some (part, m) =>
      if 0x40 ≤ off then s
      else if off != 0 || data.length != 64 || 16 ≤ ((s.part part).box m).inbound.length then
        s.modBox part m fun b => { b with overrun := b.overrun + 1 }
      else
        let s1 := s.modBox part m fun b => { b with inbound := b.inbound ++ [(data, decide (fn = 0))] }
        if fn = 0 && s.dallumBox part m && serviceKind (msgKind data) && msgOk data true then { s1 with svcQueue := s1.svcQueue ++ [(part, m)] } else s1)

/-- The status word of a mailbox (R325). -/
def Mailbox.status (b : Mailbox) : Nat := b.overrun % 2 ^ 32 * 65536 + b.sent * 256 + b.inbound.length

/-- A byte of BAR0: in a mailbox window the status word and the reserved bytes after it, which read as zero (R8, R325); in function 0 APWIN,
and zero elsewhere (R324). What a read of the message windows gives that is not the read of a message is free (log 125). -/
def State.bar0Byte (s : State) (fn mbx k : Nat) : Byte :=
  match boxOf fn mbx with
  | some (part, m) =>
    if k < 0x80 then BitVec.ofNat 8 (Config.freeValue (s.free + k)).toNat else (natBytes 8 ((s.part part).box m).status).getD (k - 0x80) 0
  | none => if fn = 0 && 256 * mbx = 0x100000 then (natBytes 8 s.apwin.toNat).getD k 0 else 0
def State.bar0Read (s : State) (fn : Nat) (r : BoxRead) : State :=
  { s with free := s.free + 256 }.hostAnswer ((List.range r.len).map fun i => s.bar0Byte fn r.mbx (r.off + i))

/-- A host read of the outbound window removes and returns the oldest message; an empty ring gives zeros (R325). -/
def execMailboxOutboundRead (fn : Nat) (mbx : BoxRead) (s : State) : Host.Outcome State Fault Refusal :=
  .next (match boxOf fn mbx.mbx with
    | none => s.bar0Read fn mbx
    | some (part, m) =>
      if mbx.off != 0x40 || mbx.len != 64 then s.bar0Read fn mbx
      else match ((s.part part).box m).outbound with
        | [] => s.hostAnswer (List.replicate 64 0)
        | x :: rest => (s.modBox part m fun b => { b with outbound := rest }).hostAnswer x)

/-- A host read of the status word or of the reserved bytes after it (R325). -/
def execMailboxStatusRead (fn : Nat) (mbx : BoxRead) (s : State) : Host.Outcome State Fault Refusal := .next (s.bar0Read fn mbx)

/-! ## Dallum's kinds (R286) -/

/-- A spawn by message runs in local address space 0 of the mailbox's partition (R306); without one its address is not translated (R289). -/
def execDallumSpawn (part mbx : Nat) (s : State) : Host.Outcome State Fault Refusal :=
  .next (match s.dallumMsg part mbx 1 with
    | none => s
    | some (x, _) =>
      if ((s.space0 part).map fun a => s.spawnWaits 48 a part (msgAddr x)).getD false then s
      else
      let (s1, status, tid) := match s.space0 part with
        | some asid => s.spawn 48 asid part (msgAddr x)
        | none => (s.errRecord part 0 (msgAddr x) 0 0xFFFFFFFF 0 0 7, 1, 0)
      s1.answerMsg part mbx x (natBytes 4 status ++ natBytes 4 tid))

/-- The frames of HBM that a range of pages reaches; none when a page is not mapped to this device's HBM (R286). -/
def State.frameRange (s : State) (asid addr n : Nat) : Option (List Nat) :=
  if n = 0 then some []
  else if 2 ^ 57 < addr + 65536 * n then none
  else allSome ((upFrom (addr / 65536) ((addr + 65536 * n - 1) / 65536 - addr / 65536 + 1)).map fun p =>
    match s.walk asid (p * 65536) with
    | .leaf e l =>
      let x := leafXlat e l (p * 65536)
      if x.unit.kind = .glazier then some (x.addr / 65536) else none
    | _ => none)

/-- The malformed entry that the walk of such a range meets (R309). -/
def State.rangeNote (s : State) (asid addr n : Nat) : Option (Nat × Nat × Nat) :=
  if 2 ^ 57 < addr + 65536 * n then none
  else (upFrom (addr / 65536) ((addr + 65536 * n - 1) / 65536 - addr / 65536 + 1)).findSome? fun p =>
    match s.walk asid (p * 65536) with
    | .malformed pa => some (0x0E, pa, 0)
    | _ => none

/-- A declaration for a range: the status, and the declarations that wait for their frames (R218). -/
def State.declareRange (s : State) (live : Bool) (asid : Option Nat) (addr n : Nat) : State × Nat :=
  match asid.bind fun a => s.frameRange a addr n with
  | some l => (l.foldl (fun s f => s.declare live f) s, 0)
  | none => (s.recordWalk (asid.getD 0) (s.partOf (asid.getD 0)) (asid.bind fun a => s.rangeNote a addr n), 1)

def State.declareMsg (s : State) (live : Bool) (part mbx kind : Nat) : State :=
  match s.dallumMsg part mbx kind with
  | none => s
  | some (x, _) =>
    let (s1, status) := s.declareRange live (s.space0 part) (msgAddr x) (fieldNat x 16 4)
    s1.answerMsg part mbx x (natBytes 1 status)

def execDeclareDead (part mbx : Nat) (s : State) : Host.Outcome State Fault Refusal := .next (s.declareMsg false part mbx 2)
def execDeclareLive (part mbx : Nat) (s : State) : Host.Outcome State Fault Refusal := .next (s.declareMsg true part mbx 3)

/-- A queue is forwarded to one mailbox, with the tag of the request; 0xFFFF stops every forwarding to this mailbox. A queue that does not
exist is answered and forwards nothing. -/
def execForwardEventQueue (part mbx : Nat) (s : State) : Host.Outcome State Fault Refusal :=
  .next (match s.dallumMsg part mbx 4 with
    | none => s
    | some (x, _) =>
      let q := fieldNat x 16 2
      let p := s.part part
      let f := if q = 0xFFFF then p.forward.filter fun e => e.2.1 != mbx else if q < 256 then fput q (mbx, msgTag x) p.forward else p.forward
      (s.setPart part { p with forward := f }).answerMsg part mbx x (natBytes 1 0))

def execMailboxInvalidMessage (part mbx : Nat) (s : State) : Host.Outcome State Fault Refusal :=
  .next (match s.dallumHead part mbx with
    | none => s
    | some (x, fn0) => if msgOk x fn0 then s else s.answerMsg part mbx x (natBytes 1 0xFF))

/-- Dallum takes the oldest request of queue 255: the range is of the requesting task's address space, and the answer goes to the queue in
its TCB (R292). -/
def execDallumServiceRequest (part : Nat) (s : State) : Host.Outcome State Fault Refusal :=
  let p := s.part part
  match p.requests with
  | [] => .next s
  | (rec_, key) :: rest =>
    if s.stage = 0 || s.handingOver then .next s
    else
      let n := rec_.toNat
      let kind := bitsOf n 47 40
      let s1 := ({ s with watchdog := 0 } : State).setPart part { p with requests := rest }
      .next (match flook key s.tasks with
        | none => s1
        | some t =>
          if kind = 0x10 || kind = 0x11 then
            let (s2, status) := s1.declareRange (kind = 0x11) (some t.asid) (n / 2 ^ 64) (n % 2 ^ 32)
            s2.taskEvent t kind status t.tid (n / 2 ^ 64)
          else s1.taskEvent t 0xFF 0xFF t.tid (n / 2 ^ 64))

end Sys2Proof.Machine
end

