-- ==== Sys2Proof/Machine/Sha3.lean ====
section
/-! DEFINITION. SHA3-256, which R361, R363 and R365 to R368 name, as the standard FIPS 202 gives it (log 7). The state of the permutation
is 25 words, word x + 5y in column x of row y. -/

namespace Sys2Proof.Machine

/-- The rotations of the words. -/
def keccakTurns : List Nat := [0, 1, 62, 28, 27, 36, 44, 6, 55, 20, 3, 10, 43, 25, 39, 41, 45, 15, 21, 8, 18, 2, 61, 56, 14]

/-- The constant of each round. -/
def keccakRounds : List DWord :=
  [0x0000000000000001, 0x0000000000008082, 0x800000000000808A, 0x8000000080008000, 0x000000000000808B, 0x0000000080000001,
   0x8000000080008081, 0x8000000000008009, 0x000000000000008A, 0x0000000000000088, 0x0000000080008009, 0x000000008000000A] ++
  [0x000000008000808B, 0x800000000000008B, 0x8000000000008089, 0x8000000000008003, 0x8000000000008002, 0x8000000000000080,
   0x000000000000800A, 0x800000008000000A, 0x8000000080008081, 0x8000000000008080, 0x0000000080000001, 0x8000000080008008]

/-- A round: each word takes the parity of two columns, the words are turned and moved, each takes its row's next two, and the first takes
the round's constant. -/
def keccakRound (a : List DWord) (k : DWord) : List DWord :=
  let col := (List.range 5).map fun x => (List.range 5).foldl (fun w y => w ^^^ a.getD (x + 5 * y) 0) 0
  let d := (List.range 5).map fun x => col.getD ((x + 4) % 5) 0 ^^^ (col.getD ((x + 1) % 5) 0).rotateLeft 1
  let b := (List.range 25).map fun i =>
    let x := (i % 5 + 3 * (i / 5)) % 5
    let j := x + 5 * (i % 5)
    (a.getD j 0 ^^^ d.getD x 0).rotateLeft (keccakTurns.getD j 0)
  let c := (List.range 25).map fun i =>
    let r := i / 5 * 5
    b.getD i 0 ^^^ (~~~ b.getD (r + (i + 1) % 5) 0 &&& b.getD (r + (i + 2) % 5) 0)
  c.set 0 (c.getD 0 0 ^^^ k)

def keccak (a : List DWord) : List DWord := keccakRounds.foldl keccakRound a

/-- A message with its padding: a multiple of 136 bytes. -/
def sha3Pad (m : List Byte) : List Byte :=
  let n := 136 - m.length % 136
  m ++ if n = 1 then [0x86] else 0x06 :: (List.replicate (n - 2) 0 ++ [0x80])

/-- Words taken in from blocks of 136 bytes. -/
def sha3Absorb (a : List DWord) (blocks : List (List Byte)) : List DWord :=
  blocks.foldl (fun a b => keccak ((List.range 25).map fun i =>
    a.getD i 0 ^^^ if i < 17 then BitVec.ofNat 64 (bytesNat ((b.drop (8 * i)).take 8)) else 0)) a

/-- SHA3-256: 32 bytes. -/
def sha3 (m : List Byte) : List Byte :=
  let p := sha3Pad m
  let a := sha3Absorb (List.replicate 25 0) ((List.range (p.length / 136)).map fun k => (p.drop (136 * k)).take 136)
  (a.take 4).flatMap fun w => natBytes 8 w.toNat

/-- The identity key pair is that of the seed in the one-time storage; the identity digest is SHA3-256 of the public key (R363). -/
def State.identityKeys (s : State) : Vector Byte 1312 × Vector Byte 2560 := Config.mlDsaKeyGen s.oneTime
def State.identityDigest (s : State) : List Byte := sha3 s.identityKeys.1.toList
def State.sign (s : State) (digest : List Byte) : List Byte := (Config.mlDsaSign s.identityKeys.2 digest).toList

end Sys2Proof.Machine
end

