-- ==== Sys2Proof/Machine/Recorder.lean ====
section
/-! DEFINITION. Shadow-latch replay (R346), heat (R374), fatal events, freezing and capsules (R359 to R364), and the requests of the Scrivener and
the trust unit (R365). -/

namespace Sys2Proof.Machine

/-! ## Replay and heat (R346, R374) -/

/-- A time that has not passed, two cycles later. -/
def delayed (cycle t : Nat) : Nat := if cycle < t then t + 2 else t

/-- What a warp waits for, in the unit's own cycles (R346). -/
def Warp.delay (w : Warp) (cycle : Nat) : Warp :=
  { w with
    pend := w.pend.map fun (q : Pend) => { q with due := delayed cycle q.due },
    table := w.table.map fun (p : Nat × Entry) => (p.1, p.2.modSplit fun x =>
      { x with nextIssue := delayed cycle x.nextIssue, lastIssue := if x.lastIssue = 0 then 0 else x.lastIssue + 2,
               run := { x.run with latches := x.run.latches.map fun (l : Latch) => { l with ready := delayed cycle l.ready } } }) }

def Core.delay (k : Core) (cycle : Nat) : Core :=
  { k with
    stall := cycle + 2, busy := k.busy.map fun (p : Nat × Nat × Nat) => (p.1, p.2.1 + 2, p.2.2),
    running := k.running.map fun (p : Nat × MCmd) => (p.1, { p.2 with ends := p.2.ends + 2 }),
    arrayFrom := delayed cycle k.arrayFrom, finishing := k.finishing.map fun (c : MCmd) => { c with ends := delayed cycle c.ends },
    engine := k.engine.map fun (e : ECmd) => { e with due := delayed cycle e.due } }

/-- A core that is reported: Dallum retires it unless it is exempt, and the physical log takes the report (R346, R371). -/
def State.reportReplays (s : State) (core : Nat) : State :=
  let s1 := s.logRecord 0 0 0xFFFFFFFF core 0 0 0 0
  if s1.conf.exempt.contains core then s1 else s1.modCore core fun k => { k with retiring := true }

/-- A late transition: the core stalls for two cycles, which its own counts do not see. More than 1,024 replays in 2^20 cycles are
reported. -/
def execShadowLatchReplay (core : Nat) (s : State) : Host.Outcome State Fault Refusal :=
  let k := (s.core core).delay s.cycle
  let recent := s.cycle :: k.recent.filter fun t => s.cycle < t + 2 ^ 20
  let mine : Nat × Warp → Bool := fun p => ((s.group? (p.1 / 32)).map fun g => decide (g.core = core)).getD false
  let s1 := { s with warps := s.warps.map fun (p : Nat × Warp) => if mine p then (p.1, p.2.delay s.cycle) else p }
  let s2 := s1.setCore core { k with replays := k.replays + 1, recent := recent }
  .next (if 384 ≤ core then s else if recent.length = 1025 then s2.reportReplays core else s2)

/-- A number in a set, or not. -/
def member (b : Bool) (k : Nat) (l : List Nat) : List Nat := if b then sins k l else sdel k l

/-- A die's temperature in degrees (R374): the budget and the clock are halved above their thresholds and restored at the lower ones. -/
def execThermalThreshold (die temp : Nat) (s : State) : Host.Outcome State Fault Refusal :=
  let c := s.conf
  .next (if 4 ≤ die then s
    else { s with
      halfBudget := if c.hotHalf < temp then sins die s.halfBudget else member (c.hotBack ≤ temp && s.halfBudget.contains die) die s.halfBudget,
      halfClock := if c.clkHalf < temp then sins die s.halfClock else member (c.clkBack < temp && s.halfClock.contains die) die s.halfClock })

/-! ## Device fatal events (R359) -/

def execControlCoreMemoryError (s : State) : Host.Outcome State Fault Refusal := .next s.deviceFatal

/-- Dallum has not answered for 2^30 control-core cycles. -/
def execDallumWatchdogExpiry (s : State) : Host.Outcome State Fault Refusal :=
  .next (if s.watchdog < 2 ^ 30 then s else ({ s with watchdog := 0 } : State).deviceFatal)

/-! ## Freezing (R360) -/

/-- The next core of the freeze order writes its marker and freezes: after the core before it, and in a cycle in which its ring can take the
record. The event takes its sequence number with its first core. -/
def execCoreFreeze (event : Nat) (s : State) : Host.Outcome State Fault Refusal :=
  match s.fatals.find? (·.id = event) with
  | none => .next s
  | some f =>
    match f.todo with
    | [] => .next s
    | core :: rest =>
      let k := s.core core
      let after := (f.frozen.getLast?.map fun p => decide (p.2.1 < s.cycle)).getD true
      if !after || k.ringAt = some s.cycle || k.owes || k.frozen.isSome then .next s
      else
        let first := decide (f.frozen = [])
        let seq := if first then s.capSeq else f.seq
        let s1 := if first then { s with capSeq := s.capSeq + 1 } else s
        let s2 := s1.scrivBare core 0x13 (BitVec.ofNat 64 (f.frozen.length * 2 ^ 48 + f.origin * 2 ^ 32 + seq % 2 ^ 32))
        let g := { f with seq := seq, todo := rest, frozen := f.frozen ++ [(core, s.cycle, (s2.core core).ring.reverse)] }
        .next ({ s2 with fatals := s2.fatals.map fun (x : Fatal) => if x.id = event then g else x }.modCore core fun k =>
          { k with frozen := some event })

/-! ## Capsules (R361 to R364) -/

def recKind (r : BitVec 128) : Nat := r.toNat % 64
def recPart (r : BitVec 128) : Nat := bitsOf r.toNat 19 16
def recAsid (r : BitVec 128) : Nat := bitsOf r.toNat 31 20
def recCycle (r : BitVec 128) : Nat := bitsOf r.toNat 63 32
/-- A record that carries a task (R358). -/
def recTask (r : BitVec 128) : Bool := recKind r != 0x01 && recKind r != 0x12 && recKind r != 0x13

/-- A kept record in a tenant capsule: its ASID is local, and a physical address is zero (R362). -/
def localRecord (base : Nat) (r : BitVec 128) : BitVec 128 :=
  if recTask r then
    let n := r.toNat
    let pay := if recKind r = 0x0C || recKind r = 0x0E then 0 else n / 2 ^ 64
    BitVec.ofNat 128 (pay * 2 ^ 64 + recCycle r * 2 ^ 32 + (recAsid r - base) * 2 ^ 20 + n % 2 ^ 20)
  else r

/-- The records of a ring as partition p may see them, oldest first; run is the run of foreign records under way: its first cycle and its
length (R362). -/
def redact (p base : Nat) : Option (Nat × Nat) → List (BitVec 128) → List (BitVec 128)
  | none, [] => []
  | some (c, n), [] => [scrivRecord (BitVec.ofNat 64 n) c 0 0 0 0 0x3F]
  | run, r :: rest =>
    if recTask r && recPart r != p then redact p base (some ((run.map (·.1)).getD (recCycle r), (run.map (·.2)).getD 0 + 1)) rest
    else
      (match run with
        | some (c, n) => [scrivRecord (BitVec.ofNat 64 n) c 0 0 0 0 0x3F]
        | none => []) ++ localRecord base r :: redact p base none rest

/-- A section of a capsule: its header and its records (R361). -/
def section_ (pos core marker : Nat) (rs : List (BitVec 128)) : List Byte :=
  natBytes 4 rs.length ++ natBytes 2 pos ++ natBytes 2 core ++ natBytes 8 marker ++ rs.flatMap fun r => natBytes 16 r.toNat

/-- The version of the active image. -/
def State.dallumVersion (s : State) : Nat := ((flook s.active s.images).map (·.version)).getD 0

/-- The bytes of a capsule of a fatal event, for the hypervisor or a partition (R361 to R363). -/
def State.capsuleBytes (s : State) (f : Fatal) (hyper : Bool) (part seq : Nat) : List Byte :=
  let base := fget 0 part s.conf.asidBase
  let body := f.frozen.zipIdx.flatMap fun (p : (Nat × Nat × List (BitVec 128)) × Nat) =>
    section_ p.2 p.1.1 p.1.2.1 (if hyper then p.1.2.2 else redact part base none p.1.2.2)
  let header := natBytes 1 1 ++ List.replicate 25 0 ++ natBytes 1 (if f.device then 1 else 0) ++ natBytes 1 (if hyper then 0 else part) ++
    natBytes 1 (if hyper then 1 else 0) ++ natBytes 1 (if f.device then 0 else f.cause) ++ natBytes 2 s.dropped ++ natBytes 4 s.dallumVersion ++
    natBytes 2 f.origin ++ natBytes 2 f.frozen.length ++ natBytes 4 body.length ++ natBytes 4 (if f.device then 0 else f.task) ++
    natBytes 8 f.cycle ++ natBytes 8 seq ++ s.conf.digest ++ s.identityDigest
  let digest := sha3 (header ++ body)
  header ++ body ++ digest ++ s.sign digest

/-- A capsule is written, or dropped and counted when the store of 128 MiB has no room for it (R364). -/
def State.seal (s : State) (f : Fatal) (hyper : Bool) (part : Nat) : State :=
  let seq := if hyper then f.seq else s.capSeq
  let s1 := if hyper then s else { s with capSeq := s.capSeq + 1 }
  let bs := s1.capsuleBytes f hyper part seq
  if 2 ^ 27 < s1.capsules.foldl (fun n c => n + c.bytes.length) bs.length then { s1 with dropped := s1.dropped + 1 }
  else { s1 with dropped := 0, capsules := s1.capsules ++ [{ seq := seq, hyper := hyper, part := part, bytes := bs }] }

/-- The partitions that get a tenant capsule (R361). -/
def Fatal.tenants (f : Fatal) : List Nat :=
  if f.device then
    f.frozen.foldl (fun a p => p.2.2.foldl (fun a r => if recTask r then sins (recPart r) a else a) a) []
  else [f.part]

/-- A ring resumes empty: a time record, and a lost record to come (R360). -/
def State.resumeRing (s : State) (core : Nat) : State :=
  let s1 := s.modCore core fun k => { k with frozen := none, ring := [], ringAt := none, owes := false }
  (s1.scrivBare core 0x01 (BitVec.ofNat 64 s.cycle)).modCore core fun k => { k with owes := true }

/-- The waiting events whose rings have all resumed begin, the oldest first (R360). -/
def State.promote (s : State) : State :=
  s.waiting.foldl (fun s f =>
    if f.todo.any fun k => (s.core k).frozen.isSome || s.fatals.any (fun g => g.todo.contains k) then { s with waiting := s.waiting ++ [f] }
    else { s with fatals := s.fatals ++ [f] }) { s with waiting := [] }

/-- Once every core of an event has frozen its capsules are built, signed and stored, and its rings resume. -/
def execCapsuleSeal (event : Nat) (s : State) : Host.Outcome State Fault Refusal :=
  match s.fatals.find? (·.id = event) with
  | none => .next s
  | some f =>
    if f.todo != [] then .next s
    else
      let s1 := (s.seal f true 0)
      let s2 := f.tenants.foldl (fun s p => s.seal f false p) s1
      let s3 := { s2 with fatals := s2.fatals.filter fun (x : Fatal) => x.id != event }
      .next ((f.frozen.foldl (fun s p => s.resumeRing p.1) s3).promote)

/-! ## Requests (R365) -/

/-- The capsules that a requester sees. -/
def State.visible (s : State) (part : Nat) (fn0 : Bool) : List Capsule := s.capsules.filter fun c => fn0 || (!c.hyper && c.part = part)

/-- Where a copy for a requester goes: each byte's key and place; none when translation or permission refuses it. -/
def State.copyTarget (s : State) (part : Nat) (fn0 : Bool) (addr n : Nat) : Option (List (Nat × UnitRef)) :=
  allSome ((List.range n).map fun i => if fn0 then s.physByte (addr + i) else s.virtByte part (addr + i) .write)

/-- A copy for a requester, then the reply; it waits while its stack is in self-refresh, and a refused one is recorded (R323, R353, R355, R358,
R365). -/
def State.copyReply (s : State) (part mbx : Nat) (x : List Byte × Bool) (bs : List Byte) (more : List Byte) : State :=
  match s.copyTarget part x.2 (msgAddr x.1) bs.length with
  | none => (s.refusedAt (if x.2 then none else some part) (msgAddr x.1) bs.length .write).answerMsg part mbx x.1 (natBytes 4 3)
  | some l => if s.hostLost l then s else (s.plainStore (l.map fun (y : Nat × UnitRef) => y.1) bs).answerMsg part mbx x.1 (natBytes 4 0 ++ more)

def execListCapsules (part mbx : Nat) (s : State) : Host.Outcome State Fault Refusal :=
  .next (match s.dallumMsg part mbx 0x10 with
    | none => s
    | some (x, fn0) =>
      let l := (s.visible part fn0).map (·.seq)
      s.answerMsg part mbx x (natBytes 2 0 ++ natBytes 2 l.length ++ natBytes 4 0 ++ natBytes 8 (l.foldl min (l.headD 0))))

/-- A range that a capsule does not hold, or that is no multiple of 64 bytes up to 1 MiB, has status 2. -/
def execCopyCapsule (part mbx : Nat) (s : State) : Host.Outcome State Fault Refusal :=
  .next (match s.dallumMsg part mbx 0x11 with
    | none => s
    | some (x, fn0) =>
      let off := fieldNat x 24 4
      let len := fieldNat x 28 4
      match (s.visible part fn0).find? fun c => c.seq = fieldNat x 16 8 with
      | none => s.answerMsg part mbx x (natBytes 1 1)
      | some c =>
        if c.bytes.length < off + len || len % 64 != 0 || 2 ^ 20 < len then s.answerMsg part mbx x (natBytes 1 2)
        else s.copyReply part mbx (x, fn0) ((c.bytes.drop off).take len) [])

def execReleaseCapsule (part mbx : Nat) (s : State) : Host.Outcome State Fault Refusal :=
  .next (match s.dallumMsg part mbx 0x12 with
    | none => s
    | some (x, fn0) =>
      let seq := fieldNat x 16 8
      if (s.visible part fn0).any fun c => c.seq = seq then
        ({ s with capsules := s.capsules.filter fun c => c.seq != seq } : State).answerMsg part mbx x (natBytes 1 0)
      else s.answerMsg part mbx x (natBytes 1 1))

/-- The attestation report. -/
def State.report (s : State) (part : Nat) (nonce : List Byte) : List Byte :=
  let image : Nat → List Byte := fun k => match flook k s.images with
    | some i => sha3 i.bytes
    | none => List.replicate 32 0
  natBytes 1 s.stage ++ natBytes 1 (part % 16 + s.active % 2 * 16) ++ natBytes 2 s.conf.version ++ natBytes 4 s.dallumVersion ++
    natBytes 8 s.cycle ++ Config.bootRomDigest.toList ++ s.conf.digest ++ image (1 - s.active) ++ image s.active ++
    s.identityDigest ++ nonce

def execAttest (part mbx : Nat) (s : State) : Host.Outcome State Fault Refusal :=
  .next (match s.dallumMsg part mbx 0x13 with
    | none => s
    | some x =>
      let r := s.report part ((x.1.drop 16).take 32)
      s.copyReply part mbx x (r ++ s.sign (sha3 r)) [])

def execCopyCertificates (part mbx : Nat) (s : State) : Host.Outcome State Fault Refusal :=
  .next (match s.dallumMsg part mbx 0x14 with
    | none => s
    | some x => s.copyReply part mbx x Config.certificates (natBytes 4 Config.certificates.length))

/-- The pseudo-channels in service, and the Tercon ports (R365, R370, R371, R373). -/
def State.channelServes (s : State) (pc : Nat) : Bool :=
  1 ≤ s.stage && pc < 512 && !s.conf.outChannels.contains pc && (s.place ⟨.glazier, pc⟩).away != 4 && !s.badStacks.contains (pc / 64) &&
    (2 ≤ s.stage || pc < 64)
def State.portServes (s : State) (port : Nat) : Bool :=
  2 ≤ s.stage && port < 64 && !s.conf.outPorts.contains port && flook port s.lanesOut != some 0

/-- The body of a service-status reply. -/
def State.statusBody (s : State) : List Byte :=
  natBytes 1 0 ++ natBytes 1 s.stage ++ natBytes 2 s.allCores.length ++ natBytes 2 ((List.range 512).filter s.channelServes).length ++
    natBytes 1 ((List.range 64).filter s.portServes).length

def execServiceStatus (part mbx : Nat) (s : State) : Host.Outcome State Fault Refusal :=
  .next (match s.dallumMsg part mbx 0x15 with
    | none => s
    | some (x, _) => s.answerMsg part mbx x s.statusBody)

end Sys2Proof.Machine
end

