-- ==== Sys2Proof/Machine/Service.lean ====
section
/-! DEFINITION. Service while running (R369 to R372), signed configuration (R366, R367), reset and bring-up (R364, R368, R373). -/

namespace Sys2Proof.Machine

/-! ## Requests in arrival order (R369) -/

/-- The next service request, if it is of a kind and none is under way: its mailbox and message. -/
def State.svcNext (s : State) (kind : Nat) : Option (Nat × Nat × List Byte) :=
  if s.service.isSome then none
  else match s.svcQueue with
    | [] => none
    | (part, m) :: _ => match s.dallumMsg part m kind with
      | some (x, true) => some (part, m, x)
      | _ => none

/-- The request leaves the queue and is answered at once. -/
def State.svcAnswer (s : State) (q : Nat × Nat × List Byte) (status : Nat) : State :=
  ({ s with svcQueue := s.svcQueue.drop 1 } : State).answerMsg q.1 q.2.1 q.2.2 (natBytes 1 status)

/-- The request leaves the queue and is under way. -/
def State.svcBegin (s : State) (q : Nat × Nat × List Byte) (k : Service) : State :=
  ({ s with svcQueue := s.svcQueue.drop 1, service := some (k, q.1, q.2.1, q.2.2) } : State).takeMsg q.1 q.2.1

/-- The request under way is answered. -/
def State.svcEnd (s : State) (status : Nat) : State :=
  match s.service with
  | some (_, part, m, x) => ({ s with service := none } : State).replyTo part m x (natBytes 1 status)
  | none => s

/-- A request is answered with a status, or handled. -/
def State.serve (s : State) (kind : Nat) (f : Nat × Nat × List Byte → State) : State :=
  match s.svcNext kind with
  | some q => f q
  | none => s

/-! ## Cores (R371) -/

/-- The conf with a core out of service, or in it. -/
def State.setCoreOut (s : State) (core : Nat) (out : Bool) : State :=
  ({ s with conf := { s.conf with outCores := member out core s.conf.outCores } } : State).modCore core fun k => { k with retiring := false }

/-- The cores whose last group has gone leave service. -/
def State.emptied (s : State) : State :=
  (s.cores.filter fun k => k.2.retiring && s.groupsOn k.1 = []).foldl (fun s k => s.setCoreOut k.1 true) s

/-- Where Dallum keeps the context of a task that it moves itself: the remap reserve of stack 0, which is never mapped (R370). -/
def dallumArea : Nat := 0xFC0000000

/-- A forced retirement goes on: a task saved for it is to be restored; else the next task with a group on the core is pre-empted. -/
def State.moveOff (s : State) (core : Nat) : State :=
  let saved := s.tasks.find? fun t => t.2.saving && t.2.ctx = dallumArea && s.preempt != some t.1 && s.restore != some t.1
  match saved with
  | some (key, t) =>
    if s.restore.isSome then s
    else if t.saved = [] then s.modTask key fun t => { t with saving := false }
    else { s with restore := some key }
  | none =>
    match (s.groupsOn core).find? fun g => ((flook g.2.task s.tasks).map fun t => !t.saving && t.ended.isNone).getD false with
    | some g => if s.preempt.isSome || s.restore.isSome then s else s.beginSave g.2.task dallumArea
    | none => s

/-- A task that Dallum has saved is still to be restored. -/
def State.moving (s : State) : Bool := s.tasks.any fun t => t.2.saving && t.2.ctx = dallumArea && t.2.stage != .done

/-- Retire a core: placement stops there, and the reply comes with its last group's retirement or, when forced, with its tasks' restore
elsewhere. Reported cores leave service in the same way. -/
def execRetireCore (s : State) : Host.Outcome State Fault Refusal :=
  let s1 := s.emptied
  .next (match s1.service with
    | some (.retire core forced, _) =>
      let s2 := if forced then s1.moveOff core else s1
      if s2.groupsOn core = [] && !(forced && s2.moving) then (s2.setCoreOut core true).svcEnd 0 else s2
    | _ =>
      s1.serve 0x20 fun q =>
        let core := fieldNat q.2.2 16 2
        if 384 ≤ core || !s1.inService core then s1.svcAnswer q 2
        else if s1.allCores.all fun k => k = core || coreDie k != coreDie core then s1.svcAnswer q 3
        else (s1.modCore core fun k => { k with retiring := true }).svcBegin q (.retire core (fieldNat q.2.2 18 1 != 0)))

/-- Readmit a core: its self-test of 2^22 cycles begins. -/
def execReadmitCore (s : State) : Host.Outcome State Fault Refusal :=
  .next (s.serve 0x21 fun q =>
    let core := fieldNat q.2.2 16 2
    if 384 ≤ core || s.inService core then s.svcAnswer q 2 else s.svcBegin q (.selfTest core (s.cycle + 2 ^ 22)))

/-- The self-test ends: the core is in service, or stays out of it with status 2. In bring-up each core
that is to serve is tested, and one that fails is retired (R371, R373; log 137). -/
def execCoreSelfTest (core : Nat) (pass : Bool) (s : State) : Host.Outcome State Fault Refusal :=
  .next (match s.service with
    | some (.selfTest k ends, _) =>
      if k != core || s.cycle < ends then s else if pass then (({ s with tested := sins core s.tested } : State).setCoreOut core false).svcEnd 0 else s.svcEnd 2
    | _ =>
      if 1 < s.stage || 384 ≤ core || s.conf.outCores.contains core || s.tested.contains core then s
      else if pass then { s with tested := sins core s.tested } else s.setCoreOut core true)

/-! ## Pseudo-channels (R370) -/

def State.awayOf (s : State) (pc : Nat) : Nat := (s.place ⟨.glazier, pc⟩).away
def State.setAway (s : State) (pc n : Nat) : State := s.modPlace ⟨.glazier, pc⟩ fun p => { p with away := n, moved := [] }
/-- Another pseudo-channel of the stack has been retired. -/
def State.stackUsed (s : State) (pc : Nat) : Bool := (List.range 64).any fun k => pc / 64 * 64 + k != pc && s.awayOf (pc / 64 * 64 + k) = 4
/-- A channel that can be moved: in the package, of a stack that serves. -/
def State.movable (s : State) (pc : Nat) : Bool := pc < 512 && !s.badStacks.contains (pc / 64)

/-- The atoms that a pseudo-channel has outside the reserve: 63 GiB of a stack over its 64 channels. -/
def channelAtoms : Nat := 63 * 2 ^ 30 / 64 / 32

/-- An atom changes its place, between two accesses; what it holds and how it is ordered stay as they are. -/
def execPseudoChannelMigration (pc atom : Nat) (s : State) : Host.Outcome State Fault Refusal :=
  let p := s.place ⟨.glazier, pc⟩
  let moved := sins atom p.moved
  .next (if (p.away != 1 && p.away != 3) || channelAtoms ≤ atom || p.moved.contains atom then s
    else if moved.length = channelAtoms then s.setAway pc (if p.away = 1 then 2 else 0)
    else s.setPlace ⟨.glazier, pc⟩ { p with moved := moved })

/-- A recalibration that waited and may begin now, or has no stack to wait for any more. -/
def State.svcReady (s : State) : Option (Nat × Nat × List Byte) :=
  if s.service.isSome || s.handingOver then none
  else s.svcWaits.find? fun q => !s.movable (fieldNat q.2.2 16 2) || !s.stackUsed (fieldNat q.2.2 16 2)

/-- Recalibrate: the atoms move to the reserve, the channel is trained, and they move back. While another channel of the stack is away for
good the request waits, and is passed by others (R370; log 138). -/
def execRecalibratePseudoChannel (s : State) : Host.Outcome State Fault Refusal :=
  .next (match s.service with
    | some (.migrate pc 0x22 _, _) => if s.awayOf pc = 2 then s.setAway pc 3 else if s.awayOf pc = 0 then s.svcEnd 0 else s
    | _ =>
      match s.svcReady with
      | some q =>
        let pc := fieldNat q.2.2 16 2
        let s1 := { s with svcWaits := s.svcWaits.erase q }
        if !s.movable pc || s.awayOf pc != 0 then s1.replyTo q.1 q.2.1 q.2.2 (natBytes 1 2)
        else { s1.setAway pc 1 with service := some (.migrate pc 0x22 0, q) }
      | none =>
        s.serve 0x22 fun q =>
          let pc := fieldNat q.2.2 16 2
          if !s.movable pc || s.awayOf pc != 0 then s.svcAnswer q 2
          else if s.stackUsed pc then
            ({ s with svcQueue := s.svcQueue.drop 1, svcWaits := s.svcWaits ++ [q] } : State).takeMsg q.1 q.2.1
          else (s.setAway pc 1).svcBegin q (.migrate pc 0x22 0))

/-- The channels of a die that would still serve without some. -/
def State.channelsLeft (s : State) (die : Nat) (gone : Nat → Bool) : Bool := (List.range 512).any fun k => k / 128 = die && s.channelServes k && !gone k

/-- Retire: the atoms move to the reserve and stay there; a second failure in a stack retires the stack. -/
def execRetirePseudoChannel (s : State) : Host.Outcome State Fault Refusal :=
  .next (match s.service with
    | some (.migrate pc 0x23 _, _) => if s.awayOf pc = 2 then (s.setAway pc 4).svcEnd 0 else s
    | _ =>
      s.serve 0x23 fun q =>
        let pc := fieldNat q.2.2 16 2
        if !s.movable pc || s.awayOf pc != 0 then s.svcAnswer q 2
        else if s.stackUsed pc then
          (if s.channelsLeft (pc / 128) (fun k => k / 64 = pc / 64) then ({ s with badStacks := sins (pc / 64) s.badStacks } : State).svcAnswer q 0
           else s.svcAnswer q 3)
        else if s.channelsLeft (pc / 128) (fun k => k = pc) then (s.setAway pc 1).svcBegin q (.migrate pc 0x23 0)
        else s.svcAnswer q 3)

/-- Readmit: the atoms of a retired channel move back. -/
def execReadmitPseudoChannel (s : State) : Host.Outcome State Fault Refusal :=
  .next (match s.service with
    | some (.migrate pc 0x24 _, _) => if s.awayOf pc = 0 then s.svcEnd 0 else s
    | _ =>
      s.serve 0x24 fun q =>
        let pc := fieldNat q.2.2 16 2
        if !s.movable pc || s.awayOf pc != 4 then s.svcAnswer q 2 else (s.setAway pc 3).svcBegin q (.migrate pc 0x24 0))

/-! ## Ports and routes (R327, R371) -/

/-- The lanes of a port: with none it is out of service and of the route masks. -/
def execSetPortLanes (s : State) : Host.Outcome State Fault Refusal :=
  .next (s.serve 0x25 fun q =>
    let port := fieldNat q.2.2 16 2
    let lanes := fieldNat q.2.2 18 1
    if 64 ≤ port || 3 < lanes then s.svcAnswer q 2
    else if lanes = 0 && !(List.range 64).any (fun k => k != port && k / 16 = port / 16 && s.portServes k) then s.svcAnswer q 3
    else ({ s with lanesOut := fput port lanes s.lanesOut } : State).svcAnswer q 0)

/-! ## Images (R368, R369, R372) -/

/-- Bytes at a physical address. -/
def State.physBytes (s : State) (pa n : Nat) : Option (List Byte) :=
  if 2 ^ 39 < pa + n then none
  else (allSome ((List.range n).map fun i => s.physByte (pa + i))).map fun l => l.map fun (x : Nat × UnitRef) => rdByte s.mem x.1

/-- An image that may run: its version, and its signature under Zilward's root key or a listed signer (R368). -/
def State.imageOk (s : State) (i : Image) : Bool :=
  s.conf.minDallum ≤ i.version &&
    (Config.mlDsaVerify Config.rootKey.toList (sha3 i.bytes) i.sig ||
      (s.conf.signers.contains (sha3 i.key) && Config.mlDsaVerify i.key (sha3 i.bytes) i.sig))

/-- The image at the address goes to the inactive slot; an address that is not of this device's HBM is refused. -/
def execStageImage (s : State) : Host.Outcome State Fault Refusal :=
  .next (s.serve 0x27 fun q =>
    match (s.physBytes (msgAddr q.2.2) 64).bind fun h => s.physBytes (msgAddr q.2.2) (Config.imageLength h) with
    | some bs => ({ s with images := fput (1 - s.active) (imageOf bs) s.images } : State).svcAnswer q 0
    | none => s.svcAnswer q 2)

/-- 2^30 control-core cycles, at two to an arithmetic cycle (R3, R5). -/
def handoverLimit : Nat := 2 ^ 29

/-- A handover block: 64 bytes of header, which are the format version, the writer's version, the length and SHA3-256 of the body, and the
body (R372; log 7). -/
def handoverBlock (i : Image) (cycle : Nat) : List Byte :=
  let body := Config.handoverBody i.bytes cycle
  natBytes 4 (Config.handoverFormat i.bytes) ++ natBytes 4 i.version ++ natBytes 4 body.length ++ List.replicate 20 0 ++ sha3 body ++ body

/-- The running image starts the other one with a handover block; once that has accepted it, its slot is active; if it rejects it, the old
image goes on with the same block, and the status is 2. An image that may not run is refused. -/
def execHandover (s : State) : Host.Outcome State Fault Refusal :=
  .next (match s.service with
    | some (.handover started old block, _) =>
      if started + handoverLimit ≤ s.cycle then s
      else match flook old s.images, flook (1 - old) s.images with
        | some _, some b => if Config.acceptsHandover b.bytes block then ({ s with active := 1 - old } : State).svcEnd 0 else s.svcEnd 2
        | _, _ => s.svcEnd 2
    | _ =>
      s.serve 0x28 fun q =>
        match flook (1 - s.active) s.images with
        | some i => if s.imageOk i then s.svcBegin q (.handover s.cycle s.active (((flook s.active s.images).map fun a => handoverBlock a s.cycle).getD [])) else s.svcAnswer q 2
        | none => s.svcAnswer q 2)

/-- The new image has not reported ready in time: the old one goes on. -/
def execHandoverTimeout (s : State) : Host.Outcome State Fault Refusal :=
  .next (match s.service with
    | some (.handover started _ _, _) => if started + handoverLimit ≤ s.cycle then s.svcEnd 2 else s
    | _ => s)

/-! ## Configuration (R366, R367) -/

def blockBody (b : List Byte) : List Byte := (b.drop 96).take (fieldNat b 20 4)
def blockKey (b : List Byte) : List Byte := (b.drop (96 + fieldNat b 20 4)).take 1312
def blockSig (b : List Byte) : List Byte := (b.drop (96 + fieldNat b 20 4 + 1312)).take 2420
/-- What the signature covers: header, body and key. -/
def blockSigned (b : List Byte) : List Byte := b.take (96 + fieldNat b 20 4 + 1312)
def blockVersion (b : List Byte) : Nat := fieldNat b 12 4

/-- The sections of a body fill it, and each has a known type. -/
def sectionsOk : Nat → List Byte → Bool
  | 0, b => b = []
  | n + 1, b =>
    b = [] ||
      (let t := fieldNat b 0 2
       let l := fieldNat b 2 2
       1 ≤ t && t ≤ 8 && 4 + l ≤ b.length && sectionsOk n (b.drop (4 + l)))

/-- The configuration that a block sets (R366): no block sets nothing. -/
def confFor (b : List Byte) : Conf :=
  if b = [] then {}
  else { confOf (blockBody b) with version := blockVersion b, minDallum := fieldNat b 16 4, digest := sha3 b }

/-- An owner map that grants a byte of a remap reserve (R370). -/
def grantsReserve (c : Conf) : Bool := c.owners.any fun p => bitOf p.2 7 && 0xFC0000000 ≤ p.1 * 2 ^ 21 % 2 ^ 36

/-- A block is well formed and accepted. -/
def State.blockOk (s : State) (b : List Byte) : Bool :=
  let key := blockKey b
  let signer := (b.drop 32).take 32
  b.length = 96 + fieldNat b 20 4 + 1312 + 2420 && fieldNat b 0 12 = 0 && fieldNat b 24 8 = 0 &&
    sectionsOk (blockBody b).length (blockBody b) && !grantsReserve (confFor b) &&
    (b.drop 64).take 32 = s.identityDigest && s.counter ≤ blockVersion b && sha3 key = signer &&
    (if s.block = [] then key = Config.provisioningKey.toList else s.conf.owner.contains signer) &&
    Config.mlDsaVerify key (sha3 (blockSigned b)) (blockSig b)

/-- What the sections of types 4 and 5 give a partition. -/
def partConf (c : Conf) (p : Nat) : List (List Nat) :=
  let mine : FMap Nat → List Nat := fun m => m.flatMap fun x => if x.2 % 16 = p then [x.1, x.2] else []
  [[fget 0 p c.asidBase, fget 0 p c.asidNum, fget 0 p c.keyBase, fget 0 p c.keyNum], (List.range 4).map fun d => fget 0 (p * 4 + d) c.clusters,
   c.dallum.flatMap fun x => if x.1 = p then [x.2] else [], mine c.owners, mine c.tier]

/-- A partition that the change concerns has a task queued or resident; one that still waits for predecessors is neither (R290, R367). -/
def State.confBusy (s : State) (c : Conf) : Bool :=
  (List.range 16).any fun p => partConf s.conf p != partConf c p && s.tasks.any fun t => t.2.part = p && (t.2.stage = .locks || t.2.stage = .granted)

/-- A block takes effect. A core that is out of service stays so until it is readmitted with its self-test (R371). -/
def State.configure (s : State) (b : List Byte) : State :=
  let c := confFor b
  { s with block := b, conf := { c with outCores := s.conf.outCores.foldl (fun l k => sins k l) c.outCores }, errq := c.errBases }

/-- Install the block at the address: at once, or at the next reset. -/
def execInstallConfiguration (s : State) : Host.Outcome State Fault Refusal :=
  .next (s.serve 0x29 fun q =>
    let at_ := msgAddr q.2.2
    match (s.physBytes at_ 96).bind fun h => s.physBytes at_ (96 + fieldNat h 20 4 + 1312 + 2420) with
    | none => s.svcAnswer q 2
    | some b =>
      if !s.blockOk b then s.svcAnswer q 2
      else
        let s1 := { s with counter := blockVersion b }
        if s1.confBusy (confFor b) then ({ s1 with staged := some b } : State).svcAnswer q 1 else (s1.configure b).svcAnswer q 0)

/-! ## Reset and bring-up (R364, R368, R373) -/

/-- The machine at a reset: what the service flash and the replay-protected area hold stays, and a staged block takes effect. -/
def State.restart (s : State) : State :=
  ({ State.reset with
    capsules := s.capsules, capSeq := s.capSeq, dropped := s.dropped, counter := s.counter, images := s.images, active := s.active,
    oneTime := s.oneTime, hostOut := s.hostOut, free := s.free, plan := s.plan } : State).configure (s.staged.getD s.block)

/-- After a reset the boot ROM starts the image of higher version among those that may run: stage 1. With none the device stays in stage
0. -/
def execReset (s : State) : Host.Outcome State Fault Refusal :=
  let ok := s.images.filter fun p => p.1 ≤ 1 && s.imageOk p.2
  .next (if s.stage != 0 then s
    else match ok with
      | [] => s
      | x :: rest => { s with stage := 1, active := (rest.foldl (fun a p => if a.2.version < p.2.version then p else a) x).1 })

/-- A reset request waits until every capsule under way has been sealed. -/
def execResetRequest (s : State) : Host.Outcome State Fault Refusal :=
  .next (if s.fatals = [] && s.waiting = [] then s.restart
    else { s with resetReq := some (s.resetReq.getD s.cycle) })

/-- A reset request that has waited 2^32 cycles proceeds. -/
def execResetWaitExpiry (s : State) : Host.Outcome State Fault Refusal :=
  .next (match s.resetReq with
    | some t => if t + 2 ^ 32 ≤ s.cycle then s.restart else s
    | none => s)

/-- A pseudo-channel that fails its training is retired; a second one of its stack retires the stack (R370, R373). -/
def State.failChannel (s : State) (pc : Nat) : State :=
  if s.conf.outChannels.contains pc || !s.movable pc || s.awayOf pc = 4 then s
  else if s.stackUsed pc then { s with badStacks := sins (pc / 64) s.badStacks }
  else s.setAway pc 4

/-- The stacks, the links of the capacity tier and the ports have been trained and tested: each unit that failed is retired (R370, R371,
R373; log 137). -/
def State.trained (s : State) : State :=
  let fails : Nat → Nat → Bool := Config.trainingFails s.free
  let s1 := ((List.range 512).filter (fails 0)).foldl State.failChannel { s with free := s.free + 1 }
  { s1 with conf := { s1.conf with links := s1.conf.links.filter fun p => !fails 1 p.1 },
            lanesOut := ((List.range 64).filter fun p => !s1.conf.outPorts.contains p && fails 2 p).foldl (fun m p => fput p 0 m) s1.lanesOut }

/-- Every core that is to serve has been tested (R373). -/
def State.coresTested (s : State) : Bool := (List.range 384).all fun k => s.conf.outCores.contains k || s.tested.contains k

/-- Once every unit is trained and tested, stage 2 begins for the whole device in one step, and every mailbox of Dallum's gets a message of
kind 0x8015. -/
def execFullService (s : State) : Host.Outcome State Fault Refusal :=
  .next (if s.stage != 1 || !s.coresTested then s
    else
      let s1 := { s.trained with stage := 2 }
      s1.conf.dallum.foldl (fun s p => s.modBox p.1 p.2 fun b => { b with outbound := b.outbound ++ [message 0x8015 0 0 s1.statusBody] }) s1)

end Sys2Proof.Machine
end

