-- ==== Sys2Proof/Machine/Cycle.lean ====
section
/-! DEFINITION. The cycles of the arithmetic clock (log 2): the moves that the model proposes for a cycle, in the order in which they
are tried, the moves that the plan adds to them, and the end of a cycle. A move that cannot happen when its turn comes changes nothing. -/

namespace Sys2Proof.Machine

/-! ## The moves of a cycle -/

/-- The groups, crews, warps and splits as references. -/
def State.warpIds (s : State) : List (Nat × Nat) := s.warps.map fun p => (p.1 / 32, p.1 % 32)
def State.splitRefs (s : State) : List (SplitRef × Split) :=
  s.warps.flatMap fun p => p.2.splits.map fun e => (⟨p.1 / 32, p.1 % 32, e.1⟩, e.2)

/-- The place with a number (the inverse of unitIndex). -/
def unitOf (n : Nat) : UnitRef :=
  if n < 1000 then ⟨.glazier, n⟩ else if n < 2000 then ⟨.bench, n - 1000⟩ else if n < 3000 then ⟨.shop, n - 2000⟩
  else if n < 4000 then ⟨.yard, n - 3000⟩ else if n < 5000 then ⟨.capacity, n - 4000⟩
  else if n = 5000 then ⟨.host, 0⟩ else if n = 5001 then ⟨.switch, 0⟩ else ⟨.peer, n - 6000⟩

/-- Lists of moves, one after the other. -/
def flatten (l : List (List Instr)) : List Instr := l.flatten

/-- What the clock itself brings (R129, R358). -/
def clockMoves (s : State) : List Instr :=
  flatten [
    (if s.cycle % 2 ^ 32 = 0 then [Instr.cycleCountWrap] else []),
    (if s.cycle % 1024 = 0 then [Instr.budgetWindowStart] else [])]

/-- An outstanding operation lands or completes (R21, R23, R137). -/
def pendMove (gid wid : Nat) (q : Pend) : Instr :=
  match q.kind with
  | .fixed => .fixedLatencyWriteback gid wid q.id
  | .load => .loadCompletion gid wid q.id
  | _ => .longLatencyCompletion gid wid q.id
def landingMoves (s : State) : List Instr :=
  s.warps.flatMap fun p => p.2.pend.map (pendMove (p.1 / 32) (p.1 % 32))

/-- Barriers whose phase is open (R155). -/
def barrierMoves (s : State) : List Instr :=
  flatten [
    (s.groups.flatMap fun p => p.2.bars.map fun b => .barrierPhaseCompletion false p.1 b.1),
    (s.crews.flatMap fun p => p.2.bars.map fun b => .barrierPhaseCompletion true p.1 b.1)]

/-- A core's matrix array (R110, R119, R123, R125, R128). -/
def coreArrayMoves (core : Nat) (k : Core) : List Instr :=
  flatten [
    (k.engine.filter fun e => e.kind = .mfill).map fun e => .mfillCompletion core e.id,
    if k.running.isSome then [.subtileCheck core 0] else [],
    k.finishing.map fun _ => .matrixCommandCompletion core,
    k.queues.map fun q => .mresolveRestore core q.1,
    if k.queues = [] then [] else [.matrixCommandStart core]]
def arrayMoves (s : State) : List Instr := s.cores.flatMap fun p => coreArrayMoves p.1 p.2

/-- The copy engine and the other engines (R159, R178, R179, R181 to R184): one beat of a movement in a cycle (R142). -/
def commandMoves (core : Nat) (e : ECmd) : List Instr :=
  flatten [
    if e.kind = .rstream then (List.range e.total).map fun a => .streamReductionAtom core e.id a else [.engineBytesLand core e.id 1],
    if e.follow.isSome then [.followOnEnqueue core e.id] else [],
    if e.kind = .coll && e.pos = 0 then [.collectiveCompletion core e.id [[]]] else [],
    [.engineCommandCompletion core e.id]]
def engineMoves (s : State) : List Instr :=
  flatten [
    s.cores.flatMap fun p => p.2.engine.flatMap fun e => commandMoves p.1 e,
    s.publishes.map fun p => .publishSwap p.id,
    s.windows.map fun w => .reductionWindowDelivery w.id]

/-- The move of a place's request. -/
def reqMove (u idx : Nat) (r : Req) : Instr := if r.pieces = [] then .atomicExecution (unitOf u) idx else .glazierRequestService (unitOf u) idx

/-- The paths of writes and requests: those not yet sent are, in their order; then each place's requests are tried from the youngest to the
oldest, so that the numbers of those still to be tried stand (R216, R217, R244, R347). -/
def placeMoves (s : State) : List Instr :=
  flatten [
    ((s.groups.filter fun p => p.2.draining != []).map fun p => .storeBufferCommit p.1),
    (s.places.flatMap fun p => (p.2.queue.zipIdx.filter fun r => r.1.arrived.isNone).map fun r => reqMove p.1 r.2 r.1),
    (s.places.flatMap fun p => p.2.queue.zipIdx.reverse.map fun r => reqMove p.1 r.2 r.1),
    (s.wbanks.flatMap fun p => p.2.map fun _ => .writeBufferDrain (p.1 / 16) (p.1 % 16)),
    (s.places.flatMap fun p => p.2.deadReq.map fun _ => .liveMapUpdate p.1)]

/-- Rendering (R187, R260 to R267). -/
def renderMoves (s : State) : List Instr :=
  flatten [
    (s.draws.map fun d => .methodValidation (s.firstOwner d.asid d.obj) d.asid d.obj d.method),
    (s.posts.filter (!·.null)).map (fun p => .methodValidation p.pc p.asid p.obj p.method),
    (s.places.flatMap fun p => p.2.entries.map fun x => .methodValidation p.1 x.asid x.obj x.method),
    (s.draws.map fun d => .rasterBinning d.die d.id),
    (s.draws.flatMap fun d => if d.binned then .expectationEntryAppend d.die d.id :: d.todo.map (fun _ => .expectationEntryAppend d.die d.id) else []),
    (s.posts.map fun p => .packetAccept p.gid p.pid p.lane),
    (s.places.flatMap fun p => p.2.entries.flatMap fun x => (bitsSet (x.mask &&& ~~~ x.closed)).map (.methodApplication p.1 x.id))]

/-- Misses of the translation caches: the pages of the lines that splits stand before, each walked once in a die (R311). Other accesses walk
where they are made. -/
def walkMoves (s : State) : List Instr :=
  ((s.splitRefs.filterMap fun p =>
    match s.issuerOf p.1 with
    | some c => if c.fetching then some (c.die, c.task.asid, (lineOf p.2.pc).toNat / 65536) else none
    | none => none).eraseDups).map fun m => .pageWalk m.1 m.2.1 (m.2.2 * 65536)

/-- Traps and parked splits (R120, R203, R336). -/
def trapMoves (s : State) : List Instr :=
  flatten [
    (s.groups.flatMap fun p => (List.range p.2.deferred.length).reverse.map (.deferredTrapDelivery p.1)),
    (s.woken.map .parkedSplitResume),
    ((s.splitRefs.filter fun p => p.2.trap.isSome).map fun p => .trapEntry p.1),
    (s.parts.flatMap fun p => p.2.heldRecs.map fun q => .eventRecordAppend p.1 q.1)]

/-- Retirement, placement and contexts (R207, R291, R296, R312, R318, R342, R349, R353). -/
def taskMoves (s : State) : List Instr :=
  flatten [
    ((s.groups.filter fun p => p.2.member = 1).map fun p => .signatureCompare p.1),
    ((s.crews.filter fun p => p.2.ending.isSome).map fun p => .groupEnd p.1),
    (s.groups.map fun p => .groupRetire p.1),
    (s.tasks.map fun p => .taskRetire p.1),
    ((s.tasks.filter fun p => p.2.stage = .granted).flatMap fun p =>
    [if tcbCrew p.2.image = 1 then .groupPlacement p.1 else .crewPlacement p.1]),
    (s.preempt.toList.map .preemptSaveComplete),
    (if s.invals = [] then [] else [.invalidationComplete]),
    (s.refresh.map fun p => .selfRefreshTimeout p.1)]

/-- The Scrivener and the trust unit (R356, R359 to R361). -/
def recorderMoves (s : State) : List Instr :=
  flatten [
    (if s.watchdog < 2 ^ 30 then [] else [.dallumWatchdogExpiry]),
    (s.fatals.map fun f => .coreFreeze f.id),
    (s.fatals.map fun f => .capsuleSeal f.id),
    ((s.cores.filter fun p => p.2.lost != 0 || p.2.owes).map fun p => .lostRecords p.1)]

/-- Dallum reads its mailboxes and the service requests of event queue 255; each message is tried as each kind, and only the move of
its own kind answers it (R285, R286, R292, R365). -/
def dallumMoves (s : State) : List Instr :=
  flatten [
    (s.conf.dallum.flatMap fun b =>
    [.dallumSpawn b.1 b.2, .declareDead b.1 b.2, .declareLive b.1 b.2, .forwardEventQueue b.1 b.2, .mailboxInvalidMessage b.1 b.2,
      .listCapsules b.1 b.2, .copyCapsule b.1 b.2, .releaseCapsule b.1 b.2, .attest b.1 b.2, .copyCertificates b.1 b.2,
      .serviceStatus b.1 b.2]),
    ((s.parts.filter fun p => p.2.requests != []).map fun p => .dallumServiceRequest p.1)]

/-- The service requests (R369 to R372). -/
def serviceMoves (s : State) : List Instr :=
  if s.svcQueue = [] && s.service.isNone && s.svcWaits = [] && !s.cores.any (·.2.retiring) then []
  else [.retireCore, .readmitCore, .recalibratePseudoChannel, .retirePseudoChannel, .readmitPseudoChannel, .setPortLanes, .stageImage,
    .handover, .handoverTimeout, .installConfiguration]

/-- Bring-up, in which every core is tested and passes unless a plan has it fail, and reset requests (R364, R368, R373; log 137). -/
def bootMoves (s : State) : List Instr :=
  flatten [
    (if 1 < s.stage then [] else ((List.range 384).filter fun k => !s.conf.outCores.contains k && !s.tested.contains k).map (.coreSelfTest · true)),
    (if s.stage = 0 then [Instr.reset] else []),
    (if s.stage = 1 then [.fullService] else []),
    (if s.resetReq.isSome then [.resetRequest, .resetWaitExpiry] else [])]

/-- Line entries, then the ports of each bay that holds a warp, unless a replay stalls the core (R15, R198, R346). -/
def issueMoves (s : State) : List Instr :=
  flatten [
    (s.splitRefs.filter fun p => !p.2.entered).flatMap (fun p => [if p.2.text = [] then .lineEntry p.1 else .lineRefetch p.1]),
    ((s.warps.filterMap fun p => (s.group? (p.1 / 32)).map fun g => (g.core, p.2.bay)).eraseDups.filter fun p =>
    (s.core p.1).stall ≤ s.cycle).map fun p => .portBind p.1 p.2]

/-- The moves proposed for a cycle. -/
def proposals (s : State) : List Instr :=
  flatten [
    s.hostHeld,
    clockMoves s,
    landingMoves s,
    barrierMoves s,
    arrayMoves s,
    engineMoves s,
    placeMoves s,
    renderMoves s,
    walkMoves s,
    trapMoves s,
    taskMoves s,
    recorderMoves s,
    dallumMoves s,
    serviceMoves s,
    bootMoves s,
    issueMoves s]

/-- Dallum has a message, a service request or a request under way to answer (R285, R292, R366). -/
def State.dallumOwes (s : State) : Bool :=
  s.conf.dallum.any (fun b => (s.dallumHead b.1 b.2).isSome) || s.parts.any (fun p => p.2.requests != []) || s.service.isSome

/-- The cycle ends: the count advances, what landed in STICKY in it is past (R71), the watchdog counts two cycles of the control
cores while Dallum owes an answer (R359; log 12), and the moves of the next cycle are those of the plan and, unless it says that they are the only ones, those proposed. -/
def endCycle (s : State) : State :=
  let t := { s with cycle := s.cycle + 1, cur := .idle, warps := s.warps.map (fun (p : Nat × Warp) => (p.1, { p.2 with landed := 0 })),
                    watchdog := if s.stage = 0 || !s.dallumOwes then 0 else s.watchdog + 2 }
  match s.plan with
  | (true, l) :: rest => { t with plan := rest, agenda := l }
  | (false, l) :: rest => { t with plan := rest, agenda := l ++ proposals t, hostHeld := [] }
  | [] => { t with agenda := proposals t, hostHeld := [] }

/-- An event row, which a move may name; an instruction happens only when a split issues it. -/
def isEvent (i : Instr) : Bool := (profile 16 i).head.op = 0x400

/-- The instruction at a split's program counter, when it has entered the line (R9, R15). -/
def fetch (s : State) (r : SplitRef) : Option Instr :=
  match s.splitAt r with
  | some x => if x.entered then some (instrAt x.text (slotOf x.pc)) else none
  | none => none

/-- After a split's step: no agent is current, and the first of a pair is followed by its second in the same cycle (R12), unless the split
has been stopped. -/
def afterIssue (r : SplitRef) (s : State) : State :=
  let t := { s with cur := .idle }
  match t.issuerOf r with
  | some c => if c.split.second && c.live t then { t with issuing := r :: t.issuing } else t
  | none => t

/-- The text of a line that holds an instruction word in slot 0 and zeros after it. -/
def lineWith (w : Nat) : List Byte := natBytes 12 w ++ List.replicate 52 0

/-- A resident group of one 32-lane warp whose only split stands at a program counter. -/
def loneTask : Task :=
  { tid := 1, part := 0, asid := 0, tcb := 0,
    image := natBytes 256 (32 * 2 ^ 336 + 32 * 2 ^ 320 + 1 * 2 ^ 288 + 16 * 2 ^ 344 + 8 * 2 ^ 408 + 32 * 2 ^ 400 + 64 * 2 ^ 416 +
      1 * 2 ^ 424 + 262144 * 2 ^ 448 + 65536 * 2 ^ 480 + 2097152 * 2 ^ 512 + 4096 * 2 ^ 544 + 1 * 2 ^ 1152),
    stage := .granted, next := 1, yard := [(0, 0)], spills := [(0, 0)] }

def loneGroup : Group :=
  { task := 0, index := 0, core := 0, crew := 0, nwarps := 1, benchSize := 262144, slotCount := 32, tileCount := 8, barCount := 64 }

def loneWarp (pc : DWord) (text : List Byte) : Warp :=
  { width := 32, nregs := 256, spill := 2097152 - 147456,
    table := [(0, .split { pc := pc, held := 0xFFFFFFFF#64, exm := 0xFFFFFFFF#64, line := some (lineOf pc), text := text,
                           bound := some 0 })] }

end Sys2Proof.Machine
end

