-- ==== Sys2Proof/Machine/Scalar.lean ====
section
/-! DEFINITION. The scalar integer and address instructions, format S (R73 to R75). -/

namespace Sys2Proof.Machine

/-- An S instruction: what it allows, and the value for each value of source A (R73). -/
def runS (i : Instr) (f : SFmt) (o : SOpts) (g : Issuer → Nat → Nat × Word) (s : State) : Host.Outcome State Fault Refusal :=
  issue i (fun c => ckS c.env f o) (fun c t => .ok (applyOut i c (sResult c.env f o.one (g c)) t)) s

def word32 : List Nat := [0, 1]
def word64 : List Nat := [0, 1, 6, 7]

/-- A value with no STICKY bit. -/
def plain (x : Nat) : Nat × Word := (x, 0)

def execSmovi (f : SFmt) (s : State) := runS (.smovi f) f { types := word32, src := false } (fun _ _ => intRes f.t false f.k) s

def execSaddi (f : SFmt) (s : State) :=
  runS (.saddi f) f { types := word64, subs := [0, 1] } (fun _ a => intRes f.t (f.subop = 1) (intOf f.t a + f.k)) s

def execSsubi (f : SFmt) (s : State) :=
  runS (.ssubi f) f { types := word64, subs := [0, 1] } (fun _ a => intRes f.t (f.subop = 1) (intOf f.t a - f.k)) s

def execSmuli (f : SFmt) (s : State) :=
  runS (.smuli f) f { types := word64, subs := if is64 f.t then [0, 1] else [0, 1, 2] }
    (fun _ a =>
      let p := intOf f.t a * f.k
      if f.subop = 2 then plain (wrapTo 32 (p / 2 ^ 32)) else intRes f.t (f.subop = 1) p) s

def execSandi (f : SFmt) (s : State) := runS (.sandi f) f { types := word32 } (fun _ a => plain (a &&& f.imm.toNat)) s

def execSori (f : SFmt) (s : State) := runS (.sori f) f { types := word32 } (fun _ a => plain (a ||| f.imm.toNat)) s

def execSxori (f : SFmt) (s : State) := runS (.sxori f) f { types := word32 } (fun _ a => plain (a ^^^ f.imm.toNat)) s

def execSshli (f : SFmt) (s : State) :=
  runS (.sshli f) f { types := word64, extra := [(64 ≤ f.imm.toNat, 2)] }
    (fun _ a => plain (shlBits (typeBits f.t) a (f.imm.toNat % 64))) s

def execSshri (f : SFmt) (s : State) :=
  runS (.sshri f) f { types := word64, extra := [(64 ≤ f.imm.toNat, 2)] }
    (fun _ a => plain (shrBits f.t a (f.imm.toNat % 64))) s

def execScmpi (f : SFmt) (s : State) :=
  runS (.scmpi f) f { types := word64, subs := [0, 1, 2, 3, 4, 5], one := true }
    (fun _ a => plain (if condOf f.subop.toNat (intOf f.t a < f.k) (intOf f.t a = f.k) then 1 else 0)) s

def execSmini (f : SFmt) (s : State) :=
  runS (.smini f) f { types := word32 } (fun _ a => intRes f.t false (min (intOf f.t a) f.k)) s

def execSmaxi (f : SFmt) (s : State) :=
  runS (.smaxi f) f { types := word32 } (fun _ a => intRes f.t false (max (intOf f.t a) f.k)) s

def execSlea (f : SFmt) (s : State) :=
  runS (.slea f) f { types := [7], subs := [0, 1, 2, 3, 4] }
    (fun _ a => plain (wrapTo 64 (a + f.imm.toInt * (2 ^ f.subop.toNat : Nat)))) s

def execSclz (f : SFmt) (s : State) := runS (.sclz f) f { types := word32, imm := false } (fun _ a => plain (clz32 a)) s

def execSctz (f : SFmt) (s : State) :=
  runS (.sctz f) f { types := word32, subs := [1], imm := false } (fun _ a => plain (ctz32 a)) s

def execSpopc (f : SFmt) (s : State) :=
  runS (.spopc f) f { types := word32, subs := [2], imm := false } (fun _ a => plain (popc32 a)) s

def execSbrev (f : SFmt) (s : State) :=
  runS (.sbrev f) f { types := word32, subs := [3], imm := false } (fun _ a => plain (brev32 a)) s

def execSbswap (f : SFmt) (s : State) :=
  runS (.sbswap f) f { types := word32, subs := [4], imm := false } (fun _ a => plain (bswap32 a)) s

def execSext (f : SFmt) (s : State) :=
  runS (.sext f) f { types := [2, 3, 4, 5], imm := false } (fun _ a => plain (wrapTo 32 (intOf f.t a))) s

/-- The identity values (R75); a redundant pair's members agree on all but 5, 6 and 7 (R348). -/
def identity (c : Issuer) (k : Nat) : Nat :=
  match k with
  | 0 => c.grp.index
  | 1 => c.ref.wid
  | 2 => c.warp.width
  | 3 => c.task.field 288 32
  | 4 => c.grp.nwarps
  | 5 => c.grp.core
  | 6 => coreCluster c.grp.core % 12
  | 7 => c.die
  | 8 => c.grp.index % c.task.field 424 8
  | _ => min (c.task.field 424 8) (c.task.field 288 32 - c.grp.index / c.task.field 424 8 * c.task.field 424 8)

def execSident (f : SFmt) (s : State) : Host.Outcome State Fault Refusal :=
  let i := Instr.sident f
  let o : SOpts := { types := [1], src := false, extra := [(10 ≤ f.imm.toNat, 2), (f.isVec, 2)] }
  issue i (fun c => ckS c.env f o)
    (fun c t =>
      if c.task.determ && 5 ≤ f.imm.toNat && f.imm.toNat ≤ 7 then .error (c.precise 0x0D 0)
      else .ok (applyOut i c (sResult c.env f false fun _ => plain (identity c f.imm.toNat)) t)) s

end Sys2Proof.Machine
end

