-- ==== Sys2Proof/Machine/Dispatch.lean ====
section
/-! DEFINITION. The meaning of each constructor of Instr: one direct call for each row. -/

namespace Sys2Proof.Machine

def exec (i : Instr) (s : State) : Host.Outcome State Fault Refusal :=
  match i with
  | .nop f => Sys2Proof.Machine.execNop f s
  | .seal f => Sys2Proof.Machine.execSeal f s
  | .trap f => Sys2Proof.Machine.execTrap f s
  | .trapBkpt f => Sys2Proof.Machine.execTrapBkpt f s
  | .tret f => Sys2Proof.Machine.execTret f s
  | .sysrd f => Sys2Proof.Machine.execSysrd f s
  | .sysrdSticky f => Sys2Proof.Machine.execSysrdSticky f s
  | .sysrdLclk f => Sys2Proof.Machine.execSysrdLclk f s
  | .syswr f => Sys2Proof.Machine.execSyswr f s
  | .syswrExm f => Sys2Proof.Machine.execSyswrExm f s
  | .syswrSticky f => Sys2Proof.Machine.execSyswrSticky f s
  | .syswrFpctl f => Sys2Proof.Machine.execSyswrFpctl f s
  | .mbxsend f => Sys2Proof.Machine.execMbxsend f s
  | .mbxrecv f => Sys2Proof.Machine.execMbxrecv f s
  | .spawn f => Sys2Proof.Machine.execSpawn f s
  | .evput f => Sys2Proof.Machine.execEvput f s
  | .evget f => Sys2Proof.Machine.execEvget f s
  | .lsync f => Sys2Proof.Machine.execLsync f s
  | .logmk f => Sys2Proof.Machine.execLogmk f s
  | .smovi f => Sys2Proof.Machine.execSmovi f s
  | .saddi f => Sys2Proof.Machine.execSaddi f s
  | .ssubi f => Sys2Proof.Machine.execSsubi f s
  | .smuli f => Sys2Proof.Machine.execSmuli f s
  | .sandi f => Sys2Proof.Machine.execSandi f s
  | .sori f => Sys2Proof.Machine.execSori f s
  | .sxori f => Sys2Proof.Machine.execSxori f s
  | .sshli f => Sys2Proof.Machine.execSshli f s
  | .sshri f => Sys2Proof.Machine.execSshri f s
  | .scmpi f => Sys2Proof.Machine.execScmpi f s
  | .smini f => Sys2Proof.Machine.execSmini f s
  | .smaxi f => Sys2Proof.Machine.execSmaxi f s
  | .slea f => Sys2Proof.Machine.execSlea f s
  | .sclz f => Sys2Proof.Machine.execSclz f s
  | .sctz f => Sys2Proof.Machine.execSctz f s
  | .spopc f => Sys2Proof.Machine.execSpopc f s
  | .sbrev f => Sys2Proof.Machine.execSbrev f s
  | .sbswap f => Sys2Proof.Machine.execSbswap f s
  | .sext f => Sys2Proof.Machine.execSext f s
  | .sident f => Sys2Proof.Machine.execSident f s
  | .vaddInteger f => Sys2Proof.Machine.execVaddInteger f s
  | .vsubInteger f => Sys2Proof.Machine.execVsubInteger f s
  | .vmulInteger f => Sys2Proof.Machine.execVmulInteger f s
  | .vmulhi f => Sys2Proof.Machine.execVmulhi f s
  | .vmad f => Sys2Proof.Machine.execVmad f s
  | .vminInteger f => Sys2Proof.Machine.execVminInteger f s
  | .vmaxInteger f => Sys2Proof.Machine.execVmaxInteger f s
  | .vabsInteger f => Sys2Proof.Machine.execVabsInteger f s
  | .vnegInteger f => Sys2Proof.Machine.execVnegInteger f s
  | .vand f => Sys2Proof.Machine.execVand f s
  | .vor f => Sys2Proof.Machine.execVor f s
  | .vxor f => Sys2Proof.Machine.execVxor f s
  | .vandn f => Sys2Proof.Machine.execVandn f s
  | .vshl f => Sys2Proof.Machine.execVshl f s
  | .vshr f => Sys2Proof.Machine.execVshr f s
  | .vcmpInteger f => Sys2Proof.Machine.execVcmpInteger f s
  | .vsel f => Sys2Proof.Machine.execVsel f s
  | .vmov f => Sys2Proof.Machine.execVmov f s
  | .vdiv f => Sys2Proof.Machine.execVdiv f s
  | .vrem f => Sys2Proof.Machine.execVrem f s
  | .vdot4 f => Sys2Proof.Machine.execVdot4 f s
  | .vclz f => Sys2Proof.Machine.execVclz f s
  | .vpopc f => Sys2Proof.Machine.execVpopc f s
  | .vbrev f => Sys2Proof.Machine.execVbrev f s
  | .vbfx f => Sys2Proof.Machine.execVbfx f s
  | .vbfi f => Sys2Proof.Machine.execVbfi f s
  | .vlaneid f => Sys2Proof.Machine.execVlaneid f s
  | .vqop f => Sys2Proof.Machine.execVqop f s
  | .vaddFloat f => Sys2Proof.Machine.execVaddFloat f s
  | .vsubFloat f => Sys2Proof.Machine.execVsubFloat f s
  | .vmulFloat f => Sys2Proof.Machine.execVmulFloat f s
  | .vfma f => Sys2Proof.Machine.execVfma f s
  | .vfms f => Sys2Proof.Machine.execVfms f s
  | .vfnma f => Sys2Proof.Machine.execVfnma f s
  | .vminFloat f => Sys2Proof.Machine.execVminFloat f s
  | .vmaxFloat f => Sys2Proof.Machine.execVmaxFloat f s
  | .vcmpFloat f => Sys2Proof.Machine.execVcmpFloat f s
  | .vabsFloat f => Sys2Proof.Machine.execVabsFloat f s
  | .vnegFloat f => Sys2Proof.Machine.execVnegFloat f s
  | .vfclass f => Sys2Proof.Machine.execVfclass f s
  | .vfdot2 f => Sys2Proof.Machine.execVfdot2 f s
  | .vfscale f => Sys2Proof.Machine.execVfscale f s
  | .vfrint f => Sys2Proof.Machine.execVfrint f s
  | .vfcopysign f => Sys2Proof.Machine.execVfcopysign f s
  | .vrcp f => Sys2Proof.Machine.execVrcp f s
  | .vrsqrt f => Sys2Proof.Machine.execVrsqrt f s
  | .vsqrt f => Sys2Proof.Machine.execVsqrt f s
  | .vexp2 f => Sys2Proof.Machine.execVexp2 f s
  | .vlog2 f => Sys2Proof.Machine.execVlog2 f s
  | .vsin f => Sys2Proof.Machine.execVsin f s
  | .vcos f => Sys2Proof.Machine.execVcos f s
  | .vtanh f => Sys2Proof.Machine.execVtanh f s
  | .vcvt f => Sys2Proof.Machine.execVcvt f s
  | .vqblk f => Sys2Proof.Machine.execVqblk f s
  | .vqcvt f => Sys2Proof.Machine.execVqcvt f s
  | .vshfl f => Sys2Proof.Machine.execVshfl f s
  | .vpswap f => Sys2Proof.Machine.execVpswap f s
  | .vbcast f => Sys2Proof.Machine.execVbcast f s
  | .vvote f => Sys2Proof.Machine.execVvote f s
  | .vscan f => Sys2Proof.Machine.execVscan f s
  | .vred f => Sys2Proof.Machine.execVred f s
  | .mclaim f => Sys2Proof.Machine.execMclaim f s
  | .mfree f => Sys2Proof.Machine.execMfree f s
  | .mfill f => Sys2Proof.Machine.execMfill f s
  | .mma f => Sys2Proof.Machine.execMma f s
  | .mmas f => Sys2Proof.Machine.execMmas f s
  | .mzero f => Sys2Proof.Machine.execMzero f s
  | .maccld f => Sys2Proof.Machine.execMaccld f s
  | .maccst f => Sys2Proof.Machine.execMaccst f s
  | .mresolve f => Sys2Proof.Machine.execMresolve f s
  | .mstat f => Sys2Proof.Machine.execMstat f s
  | .ld f => Sys2Proof.Machine.execLd f s
  | .st f => Sys2Proof.Machine.execSt f s
  | .tmov f => Sys2Proof.Machine.execTmov f s
  | .bvclr f => Sys2Proof.Machine.execBvclr f s
  | .bvset f => Sys2Proof.Machine.execBvset f s
  | .bvtst f => Sys2Proof.Machine.execBvtst f s
  | .atomAdd f => Sys2Proof.Machine.execAtomAdd f s
  | .atomUmin f => Sys2Proof.Machine.execAtomUmin f s
  | .atomUmax f => Sys2Proof.Machine.execAtomUmax f s
  | .atomSmin f => Sys2Proof.Machine.execAtomSmin f s
  | .atomSmax f => Sys2Proof.Machine.execAtomSmax f s
  | .atomAnd f => Sys2Proof.Machine.execAtomAnd f s
  | .atomOr f => Sys2Proof.Machine.execAtomOr f s
  | .atomXor f => Sys2Proof.Machine.execAtomXor f s
  | .atomExch f => Sys2Proof.Machine.execAtomExch f s
  | .atomCas f => Sys2Proof.Machine.execAtomCas f s
  | .atomFadd f => Sys2Proof.Machine.execAtomFadd f s
  | .atomFmin f => Sys2Proof.Machine.execAtomFmin f s
  | .atomFmax f => Sys2Proof.Machine.execAtomFmax f s
  | .atomLd f => Sys2Proof.Machine.execAtomLd f s
  | .atomSt f => Sys2Proof.Machine.execAtomSt f s
  | .fence f => Sys2Proof.Machine.execFence f s
  | .barsync f => Sys2Proof.Machine.execBarsync f s
  | .bararv f => Sys2Proof.Machine.execBararv f s
  | .pbinit f => Sys2Proof.Machine.execPbinit f s
  | .pbarv f => Sys2Proof.Machine.execPbarv f s
  | .pbtx f => Sys2Proof.Machine.execPbtx f s
  | .pbwait f => Sys2Proof.Machine.execPbwait f s
  | .waitq f => Sys2Proof.Machine.execWaitq f s
  | .wake f => Sys2Proof.Machine.execWake f s
  | .qpush f => Sys2Proof.Machine.execQpush f s
  | .qpop f => Sys2Proof.Machine.execQpop f s
  | .qpopw f => Sys2Proof.Machine.execQpopw f s
  | .bra f => Sys2Proof.Machine.execBra f s
  | .bsplit f => Sys2Proof.Machine.execBsplit f s
  | .switch f => Sys2Proof.Machine.execSwitch f s
  | .join f => Sys2Proof.Machine.execJoin f s
  | .brx f => Sys2Proof.Machine.execBrx f s
  | .call f => Sys2Proof.Machine.execCall f s
  | .callx f => Sys2Proof.Machine.execCallx f s
  | .ret f => Sys2Proof.Machine.execRet f s
  | .lnkw f => Sys2Proof.Machine.execLnkw f s
  | .exit f => Sys2Proof.Machine.execExit f s
  | .cpy f => Sys2Proof.Machine.execCpy f s
  | .gather f => Sys2Proof.Machine.execGather f s
  | .coll f => Sys2Proof.Machine.execColl f s
  | .rwinOpen f => Sys2Proof.Machine.execRwinOpen f s
  | .rwinClose f => Sys2Proof.Machine.execRwinClose f s
  | .rstream f => Sys2Proof.Machine.execRstream f s
  | .publish f => Sys2Proof.Machine.execPublish f s
  | .rast f => Sys2Proof.Machine.execRast f s
  | .fpost f => Sys2Proof.Machine.execFpost f s
  | .fnull f => Sys2Proof.Machine.execFnull f s
  | .sample f => Sys2Proof.Machine.execSample f s
  | .mld f => Sys2Proof.Machine.execMld f s
  | .mst f => Sys2Proof.Machine.execMst f s
  | .mkill f => Sys2Proof.Machine.execMkill f s
  | .mend f => Sys2Proof.Machine.execMend f s
  | .lineEntry r => Sys2Proof.Machine.execLineEntry r s
  | .lineRefetch r => Sys2Proof.Machine.execLineRefetch r s
  | .portBind core bay => Sys2Proof.Machine.execPortBind core bay s
  | .fixedLatencyWriteback gid wid id => Sys2Proof.Machine.execFixedLatencyWriteback gid wid id s
  | .longLatencyCompletion gid wid id => Sys2Proof.Machine.execLongLatencyCompletion gid wid id s
  | .loadCompletion gid wid id => Sys2Proof.Machine.execLoadCompletion gid wid id s
  | .mfillCompletion core id => Sys2Proof.Machine.execMfillCompletion core id s
  | .matrixCommandStart core => Sys2Proof.Machine.execMatrixCommandStart core s
  | .subtileCheck core err => Sys2Proof.Machine.execSubtileCheck core err s
  | .matrixCommandCompletion core => Sys2Proof.Machine.execMatrixCommandCompletion core s
  | .mresolveRestore core queue => Sys2Proof.Machine.execMresolveRestore core queue s
  | .deferredTrapDelivery gid idx => Sys2Proof.Machine.execDeferredTrapDelivery gid idx s
  | .barrierPhaseCompletion crew uid bar => Sys2Proof.Machine.execBarrierPhaseCompletion crew uid bar s
  | .engineBytesLand core id beats => Sys2Proof.Machine.execEngineBytesLand core id beats s
  | .engineCommandCompletion core id => Sys2Proof.Machine.execEngineCommandCompletion core id s
  | .followOnEnqueue core id => Sys2Proof.Machine.execFollowOnEnqueue core id s
  | .storeBufferCommit gid => Sys2Proof.Machine.execStoreBufferCommit gid s
  | .writeBufferDrain die bank => Sys2Proof.Machine.execWriteBufferDrain die bank s
  | .glazierRequestService u idx => Sys2Proof.Machine.execGlazierRequestService u idx s
  | .atomicExecution u idx => Sys2Proof.Machine.execAtomicExecution u idx s
  | .pageWalk die asid va => Sys2Proof.Machine.execPageWalk die asid va s
  | .parkedSplitResume r => Sys2Proof.Machine.execParkedSplitResume r s
  | .trapEntry r => Sys2Proof.Machine.execTrapEntry r s
  | .groupRetire gid => Sys2Proof.Machine.execGroupRetire gid s
  | .taskRetire key => Sys2Proof.Machine.execTaskRetire key s
  | .groupPlacement key => Sys2Proof.Machine.execGroupPlacement key s
  | .crewPlacement key => Sys2Proof.Machine.execCrewPlacement key s
  | .eventRecordAppend part queue => Sys2Proof.Machine.execEventRecordAppend part queue s
  | .rasterBinning die id => Sys2Proof.Machine.execRasterBinning die id s
  | .expectationEntryAppend die id => Sys2Proof.Machine.execExpectationEntryAppend die id s
  | .methodValidation pc asid obj method => Sys2Proof.Machine.execMethodValidation pc asid obj method s
  | .packetAccept gid id lane => Sys2Proof.Machine.execPacketAccept gid id lane s
  | .methodApplication pc entry pixel => Sys2Proof.Machine.execMethodApplication pc entry pixel s
  | .publishSwap id => Sys2Proof.Machine.execPublishSwap id s
  | .streamReductionAtom core id atom => Sys2Proof.Machine.execStreamReductionAtom core id atom s
  | .collectiveCompletion core id peers => Sys2Proof.Machine.execCollectiveCompletion core id peers s
  | .switchMerge window rank op size addr value => Sys2Proof.Machine.execSwitchMerge window rank op size addr value s
  | .reductionWindowDelivery window => Sys2Proof.Machine.execReductionWindowDelivery window s
  | .groupEnd crew => Sys2Proof.Machine.execGroupEnd crew s
  | .signatureCompare gid => Sys2Proof.Machine.execSignatureCompare gid s
  | .shadowLatchReplay core => Sys2Proof.Machine.execShadowLatchReplay core s
  | .forcedSelfRefreshEntry stack => Sys2Proof.Machine.execForcedSelfRefreshEntry stack s
  | .forcedSelfRefreshExit stack => Sys2Proof.Machine.execForcedSelfRefreshExit stack s
  | .selfRefreshTimeout stack => Sys2Proof.Machine.execSelfRefreshTimeout stack s
  | .thermalThreshold die temp => Sys2Proof.Machine.execThermalThreshold die temp s
  | .coreFreeze event => Sys2Proof.Machine.execCoreFreeze event s
  | .capsuleSeal event => Sys2Proof.Machine.execCapsuleSeal event s
  | .mailboxInboundWrite fn mbx off data => Sys2Proof.Machine.execMailboxInboundWrite fn mbx off data s
  | .mailboxOutboundRead fn mbx => Sys2Proof.Machine.execMailboxOutboundRead fn mbx s
  | .mailboxStatusRead fn mbx => Sys2Proof.Machine.execMailboxStatusRead fn mbx s
  | .bar2HostRead fn off len => Sys2Proof.Machine.execBar2HostRead fn off len s
  | .bar2HostWrite fn off data => Sys2Proof.Machine.execBar2HostWrite fn off data s
  | .bar2HostAtomic fn off op size val cmp => Sys2Proof.Machine.execBar2HostAtomic fn off op size val cmp s
  | .apwinWrite v => Sys2Proof.Machine.execApwinWrite v s
  | .trinvWrite v => Sys2Proof.Machine.execTrinvWrite v s
  | .preemptWrite v => Sys2Proof.Machine.execPreemptWrite v s
  | .preemptSaveComplete key => Sys2Proof.Machine.execPreemptSaveComplete key s
  | .restoreWrite v => Sys2Proof.Machine.execRestoreWrite v s
  | .controlBlockWrite off v => Sys2Proof.Machine.execControlBlockWrite off v s
  | .dallumSpawn part mbx => Sys2Proof.Machine.execDallumSpawn part mbx s
  | .declareDead part mbx => Sys2Proof.Machine.execDeclareDead part mbx s
  | .declareLive part mbx => Sys2Proof.Machine.execDeclareLive part mbx s
  | .liveMapUpdate pc => Sys2Proof.Machine.execLiveMapUpdate pc s
  | .forwardEventQueue part mbx => Sys2Proof.Machine.execForwardEventQueue part mbx s
  | .mailboxInvalidMessage part mbx => Sys2Proof.Machine.execMailboxInvalidMessage part mbx s
  | .dallumServiceRequest part => Sys2Proof.Machine.execDallumServiceRequest part s
  | .listCapsules part mbx => Sys2Proof.Machine.execListCapsules part mbx s
  | .copyCapsule part mbx => Sys2Proof.Machine.execCopyCapsule part mbx s
  | .releaseCapsule part mbx => Sys2Proof.Machine.execReleaseCapsule part mbx s
  | .attest part mbx => Sys2Proof.Machine.execAttest part mbx s
  | .copyCertificates part mbx => Sys2Proof.Machine.execCopyCertificates part mbx s
  | .serviceStatus part mbx => Sys2Proof.Machine.execServiceStatus part mbx s
  | .coreSelfTest core pass => Sys2Proof.Machine.execCoreSelfTest core pass s
  | .pseudoChannelMigration pc atom => Sys2Proof.Machine.execPseudoChannelMigration pc atom s
  | .unassignedOpcode f => Sys2Proof.Machine.execUnassignedOpcode f s
  | .lostRecords core => Sys2Proof.Machine.execLostRecords core s
  | .refresh pc row => Sys2Proof.Machine.execRefresh pc row s
  | .budgetWindowStart => Sys2Proof.Machine.execBudgetWindowStart s
  | .dallumWatchdogExpiry => Sys2Proof.Machine.execDallumWatchdogExpiry s
  | .cycleCountWrap => Sys2Proof.Machine.execCycleCountWrap s
  | .invalidationComplete => Sys2Proof.Machine.execInvalidationComplete s
  | .retireCore => Sys2Proof.Machine.execRetireCore s
  | .readmitCore => Sys2Proof.Machine.execReadmitCore s
  | .recalibratePseudoChannel => Sys2Proof.Machine.execRecalibratePseudoChannel s
  | .retirePseudoChannel => Sys2Proof.Machine.execRetirePseudoChannel s
  | .readmitPseudoChannel => Sys2Proof.Machine.execReadmitPseudoChannel s
  | .setPortLanes => Sys2Proof.Machine.execSetPortLanes s
  | .stageImage => Sys2Proof.Machine.execStageImage s
  | .handover => Sys2Proof.Machine.execHandover s
  | .handoverTimeout => Sys2Proof.Machine.execHandoverTimeout s
  | .installConfiguration => Sys2Proof.Machine.execInstallConfiguration s
  | .reset => Sys2Proof.Machine.execReset s
  | .resetRequest => Sys2Proof.Machine.execResetRequest s
  | .fullService => Sys2Proof.Machine.execFullService s
  | .controlCoreMemoryError => Sys2Proof.Machine.execControlCoreMemoryError s
  | .resetWaitExpiry => Sys2Proof.Machine.execResetWaitExpiry s

end Sys2Proof.Machine
end

