-- ==== Sys2Proof/Machine/Step.lean ====
section
/-! DEFINITION. One step of the machine: the next move of the agenda, else the instruction of the next split that issues in
this cycle, else the end of the cycle (log 2). -/

namespace Sys2Proof.Machine

/-- A next state changed by f; a fault or a refusal as it is. -/
def mapNext (f : State → State) : Host.Outcome State Fault Refusal → Host.Outcome State Fault Refusal
  | .next s => .next (f s)
  | .fault e => .fault e
  | .refused e => .refused e

def step (s : State) : Host.Outcome State Fault Refusal :=
  match s.agenda with
  | i :: rest => if isEvent i then exec i { s with agenda := rest } else .next { s with agenda := rest }
  | [] =>
    match s.issuing with
    | r :: rest =>
      match fetch s r with
      | some i => mapNext (afterIssue r) (exec i { s with issuing := rest, cur := .split r })
      | none => .next { s with issuing := rest }
    | [] => .next (endCycle s)

/-- The state with one resident split, bound to a port, that has entered a line holding the instruction word in slot 0, and no
other move to come: a program that the host has spawned and the dispatcher has placed (log 10). -/
def State.withFetchWord (s : State) (nbits w : Nat) : State :=
  { s with
    agenda := [], issuing := [⟨0, 0, 0⟩], stage := 2, tasks := fput 0 loneTask s.tasks, groups := fput 0 loneGroup s.groups,
    crews := fput 0 { task := 0, groups := [0], cluster := 0, shopSize := 65536 } s.crews,
    warps := fput 0 (loneWarp 0x400000000000 (lineWith (w % 2 ^ nbits))) s.warps,
    cores := fput 0 { s.core 0 with ports := fput 0 ⟨0, 0, 0⟩ (s.core 0).ports } s.cores }

end Sys2Proof.Machine
end

