-- ==== Sys2Proof/Safety.lean ====
section
/-! DEFINITION. What the claims speak of: when an instruction may issue (R12, R18, R21, R22, R24, R41), the state in which it has
issued (R17, R59), what a register instruction leaves unchanged (R6, R23, R24), and the invariant that every step keeps. -/

namespace Sys2Proof.Machine

/-- Keys strictly rising, none listed at the default: the form of every map with a default, which makes equal maps equal lists. -/
def Canon {α : Type} (d : α) : FMap α → Prop
  | [] => True
  | (a, v) :: t => v ≠ d ∧ (∀ p ∈ t, a < p.1) ∧ Canon d t

/-- The encodings of an instruction that trap (R41), beside those common to all: each row's list of faults. -/
def checks (i : Instr) (c : Issuer) : Ck :=
  match i with
  | .nop f => ckT f false false false false 0 .free
  | .seal f => ckT f false false false true 0 .none
  | .trap f => ckTrap f
  | .trapBkpt f => ckTrap f
  | .tret f => ckT f false false false true 0 .none ++ ([(c.split.handler.isNone, 2)] : Ck)
  | .sysrd f => ckSysrd c f
  | .sysrdSticky f => ckSysrd c f
  | .sysrdLclk f => ckSysrd c f
  | .syswr f => ckSyswr c f
  | .syswrExm f => ckSyswr c f
  | .syswrSticky f => ckSyswr c f
  | .syswrFpctl f => ckSyswr c f
  | .mbxsend f => ckMbx c.env f
  | .mbxrecv f => ckMbx c.env f
  | .spawn f => ckT f true true false false 0 .required ++ ckTd f 1 1 ++ ckSn f.sa 2 2
  | .evput f => ckEvput f
  | .evget f => ckEvget f
  | .lsync f => ckT f false false false false 0 .required
  | .logmk f => ckT f false true false false 0xFFFF .none ++ ckS1 c.env f.sa
  | .smovi f => ckS c.env f { types := word32, src := false }
  | .saddi f => ckS c.env f { types := word64, subs := [0, 1] }
  | .ssubi f => ckS c.env f { types := word64, subs := [0, 1] }
  | .smuli f => ckS c.env f { types := word64, subs := if is64 f.t then [0, 1] else [0, 1, 2] }
  | .sandi f => ckS c.env f { types := word32 }
  | .sori f => ckS c.env f { types := word32 }
  | .sxori f => ckS c.env f { types := word32 }
  | .sshli f => ckS c.env f { types := word64, extra := [(64 ≤ f.imm.toNat, 2)] }
  | .sshri f => ckS c.env f { types := word64, extra := [(64 ≤ f.imm.toNat, 2)] }
  | .scmpi f => ckS c.env f { types := word64, subs := [0, 1, 2, 3, 4, 5], one := true }
  | .smini f => ckS c.env f { types := word32 }
  | .smaxi f => ckS c.env f { types := word32 }
  | .slea f => ckS c.env f { types := [7], subs := [0, 1, 2, 3, 4] }
  | .sclz f => ckS c.env f { types := word32, imm := false }
  | .sctz f => ckS c.env f { types := word32, subs := [1], imm := false }
  | .spopc f => ckS c.env f { types := word32, subs := [2], imm := false }
  | .sbrev f => ckS c.env f { types := word32, subs := [3], imm := false }
  | .sbswap f => ckS c.env f { types := word32, subs := [4], imm := false }
  | .sext f => ckS c.env f { types := [2, 3, 4, 5], imm := false }
  | .sident f => ckS c.env f { types := [1], src := false, extra := [(10 ≤ f.imm.toNat, 2), (f.isVec, 2)] }
  | .vaddInteger f => ckV c.env f (vaddIntegerOp f).opts
  | .vsubInteger f => ckV c.env f (vsubIntegerOp f).opts
  | .vmulInteger f => ckV c.env f (vmulIntegerOp f).opts
  | .vmulhi f => ckV c.env f (vmulhiOp f).opts
  | .vmad f => ckV c.env f (vmadOp f).opts
  | .vminInteger f => ckV c.env f (vminIntegerOp f).opts
  | .vmaxInteger f => ckV c.env f (vmaxIntegerOp f).opts
  | .vabsInteger f => ckV c.env f (vabsIntegerOp f).opts
  | .vnegInteger f => ckV c.env f (vnegIntegerOp f).opts
  | .vand f => ckV c.env f (vandOp f).opts
  | .vor f => ckV c.env f (vorOp f).opts
  | .vxor f => ckV c.env f (vxorOp f).opts
  | .vandn f => ckV c.env f (vandnOp f).opts
  | .vshl f => ckV c.env f (vshlOp f).opts
  | .vshr f => ckV c.env f (vshrOp f).opts
  | .vcmpInteger f => ckV c.env f (vcmpIntegerOp f).opts
  | .vsel f => ckV c.env f (vselOp f).opts
  | .vmov f => ckV c.env f (vmovOp f).opts
  | .vdiv f => ckV c.env f (vdivOp f).opts
  | .vrem f => ckV c.env f (vremOp f).opts
  | .vdot4 f => ckV c.env f (vdot4Op f).opts
  | .vclz f => ckV c.env f (vclzOp f).opts
  | .vpopc f => ckV c.env f (vpopcOp f).opts
  | .vbrev f => ckV c.env f (vbrevOp f).opts
  | .vbfx f => ckV c.env f (vbfxOp f).opts
  | .vbfi f => ckV c.env f (vbfiOp f).opts
  | .vlaneid f => ckV c.env f (vlaneidOp f).opts
  | .vqop f => ckVqop c.env f
  | .vaddFloat f => ckV c.env f (vaddFloatOp f).opts
  | .vsubFloat f => ckV c.env f (vsubFloatOp f).opts
  | .vmulFloat f => ckV c.env f (vmulFloatOp f).opts
  | .vfma f => ckV c.env f (vfmaOp f).opts
  | .vfms f => ckV c.env f (vfmsOp f).opts
  | .vfnma f => ckV c.env f (vfnmaOp f).opts
  | .vminFloat f => ckV c.env f (vminFloatOp f).opts
  | .vmaxFloat f => ckV c.env f (vmaxFloatOp f).opts
  | .vcmpFloat f => ckV c.env f (vcmpFloatOp f).opts
  | .vabsFloat f => ckV c.env f (vabsFloatOp f).opts
  | .vnegFloat f => ckV c.env f (vnegFloatOp f).opts
  | .vfclass f => ckV c.env f (vfclassOp f).opts
  | .vfdot2 f => ckV c.env f (vfdot2Op f).opts
  | .vfscale f => ckV c.env f (vfscaleOp f).opts
  | .vfrint f => ckV c.env f (vfrintOp f).opts
  | .vfcopysign f => ckV c.env f (vfcopysignOp f).opts
  | .vrcp f => ckV c.env f (specOp f .rcp).opts ++ ckDyn c.env f.round
  | .vrsqrt f => ckV c.env f (specOp f .rsqrt).opts ++ ckDyn c.env f.round
  | .vsqrt f => ckV c.env f (specOp f .sqrt).opts ++ ckDyn c.env f.round
  | .vexp2 f => ckV c.env f (specOp f .exp2).opts ++ ckDyn c.env f.round
  | .vlog2 f => ckV c.env f (specOp f .log2).opts ++ ckDyn c.env f.round
  | .vsin f => ckV c.env f (specOp f .sin).opts ++ ckDyn c.env f.round
  | .vcos f => ckV c.env f (specOp f .cos).opts ++ ckDyn c.env f.round
  | .vtanh f => ckV c.env f (specOp f .tanh).opts ++ ckDyn c.env f.round
  | .vcvt f => ckVcvt c.env f
  | .vqblk f => ckVqblk c.env f
  | .vqcvt f => ckVqcvt c.env f
  | .vshfl f => ckVshfl c.env f
  | .vpswap f => ckV c.env f (vpswapOp f).opts
  | .vbcast f => ckVbcast c.env f
  | .vvote f => ckVvote c.env f
  | .vscan f => ckVscan c.env f
  | .vred f => ckVred c.env f
  | .mclaim f => ckRange c.grp f
  | .mfree f => ckRange c.grp f
  | .mfill f => ckMfill c f
  | .mma f => ckMma c.grp f false ++ ckExt c.env f
  | .mmas f => ckMma c.grp f true ++ ckExt c.env f
  | .mzero f => ckX9 f false false true false false false false false 1 ++ ckTile c.grp f.acc.toNat
  | .maccld f => ckRows c f 1
  | .maccst f => ckMaccst c f
  | .mresolve f => ckX9 f false false true false false false false false 0 ++ ckTile c.grp f.acc.toNat
  | .mstat f => ckX9 f false false false true false false false false 1 ++ ckS1 c.env f.pa
  | .ld f => ckLd c.env f
  | .st f => ckSt c.env f
  | .tmov f => ckTmov c.env f
  | .bvclr f => ckBv c.env f
  | .bvset f => ckBv c.env f
  | .bvtst f => ckBvtst c.env f
  | .atomAdd f => ckAtom c.env .add f
  | .atomUmin f => ckAtom c.env .umin f
  | .atomUmax f => ckAtom c.env .umax f
  | .atomSmin f => ckAtom c.env .smin f
  | .atomSmax f => ckAtom c.env .smax f
  | .atomAnd f => ckAtom c.env .and f
  | .atomOr f => ckAtom c.env .or f
  | .atomXor f => ckAtom c.env .xor f
  | .atomExch f => ckAtom c.env .exch f
  | .atomCas f => ckAtom c.env .cas f
  | .atomFadd f => ckAtom c.env .fadd f
  | .atomFmin f => ckAtom c.env .fmin f
  | .atomFmax f => ckAtom c.env .fmax f
  | .atomLd f => ckAtom c.env .ld f
  | .atomSt f => ckAtom c.env .st f
  | .fence f => ckFence f
  | .barsync f => ckBar c.env c.grp.barCount f true
  | .bararv f => ckBar c.env c.grp.barCount f false
  | .pbinit f => ckPb c.env f false ++ ckNoDst f
  | .pbarv f => ckPb c.env f true ++ ckWb f.dst ++ ckSd f.dst 1 1
  | .pbtx f => ckPb c.env f false ++ ckNoDst f
  | .pbwait f => ckPb c.env f true ++ ckNoDst f
  | .waitq f => ckWait c.env f true true 1
  | .wake f => ckWait c.env f true false 1
  | .qpush f => ckWait c.env f true false 1
  | .qpop f => ckWait c.env f false false 2
  | .qpopw f => ckWait c.env f false false 2
  | .bra f => ckBra c.env f
  | .bsplit f => ckBsplit f
  | .switch f => ckSwitch c.env f
  | .join f => ckB f false false false 0xFF
  | .brx f => ckB f false true false 0 ++ ckVn c.env f.cond 2 2
  | .call f => ckB f true false false 0xF ++ ckSlide c.env f
  | .callx f => ckB f false true false 0xF ++ ckSn f.cond 2 2 ++ ckSlide c.env f
  | .ret f => ckB f false false false 0
  | .lnkw f => ckB f false true false 0 ++ ckVn c.env f.cond 2 2
  | .exit f => ckB f false false false 0
  | .cpy f => ckCopy c f false ++ ([(f.func.toNat % 4 = 3 && copyDst f = 2, 2)] : Ck)
  | .gather f => ckCopy c f true ++ ckS1 c.env f.pb ++ ([(f.func.toNat % 4 != 0, 2)] : Ck)
  | .coll f => ckEngine f true false true true false 0 ++ ckS1 c.env f.pa ++ ckS1 c.env f.pb
  | .rwinOpen f => ckRwin c f
  | .rwinClose f => ckRwin c f
  | .rstream f => ckEngine f true false true false false 0 ++ ckS1 c.env f.pa
  | .publish f => ckEngine f true false false false false 0
  | .rast f => ckEngine f true false true false false 0 ++ ckS1 c.env f.pa
  | .fpost f => ckEngine f true false true true false 0x7F ++ ckPair c.env f.pa ++
    (if fLatch f.pb then ckNoLatch f.pb else ([(c.env.nregs < fIdx f.pb + f.func.toNat % 8 + 1, 3)] : Ck))
  | .fnull f => ckEngine f true false true false false 0 ++ ckPair c.env f.pa
  | .sample f => ckSample c f
  | .mld f => ckMld c.env f ++ ([(true, 8)] : Ck)
  | .mst f => ckMst c.env f ++ ([(true, 8)] : Ck)
  | .mkill f => ckMethod f false false true 0 ++ ([(true, 8)] : Ck)
  | .mend f => ckMethod f false false false 0 ++ ([(true, 8)] : Ck)
  | .unassignedOpcode _ => [(true, 1)]
  | .lineEntry _ | .lineRefetch _ | .portBind _ _ | .fixedLatencyWriteback _ _ _
  | .longLatencyCompletion _ _ _ | .loadCompletion _ _ _ | .mfillCompletion _ _ | .matrixCommandStart _
  | .subtileCheck _ _ | .matrixCommandCompletion _ | .mresolveRestore _ _ | .deferredTrapDelivery _ _
  | .barrierPhaseCompletion _ _ _ | .engineBytesLand _ _ _ | .engineCommandCompletion _ _ | .followOnEnqueue _ _
  | .storeBufferCommit _ | .writeBufferDrain _ _ | .glazierRequestService _ _ | .atomicExecution _ _
  | .pageWalk _ _ _ | .parkedSplitResume _ | .trapEntry _ | .groupRetire _
  | .taskRetire _ | .groupPlacement _ | .crewPlacement _ | .eventRecordAppend _ _
  | .rasterBinning _ _ | .expectationEntryAppend _ _ | .methodValidation _ _ _ _ | .packetAccept _ _ _
  | .methodApplication _ _ _ | .publishSwap _ | .streamReductionAtom _ _ _ | .collectiveCompletion _ _ _
  | .switchMerge _ _ _ _ _ _ | .reductionWindowDelivery _ | .groupEnd _ | .signatureCompare _
  | .shadowLatchReplay _ | .forcedSelfRefreshEntry _ | .forcedSelfRefreshExit _ | .selfRefreshTimeout _
  | .thermalThreshold _ _ | .coreFreeze _ | .capsuleSeal _ | .mailboxInboundWrite _ _ _ _
  | .mailboxOutboundRead _ _ | .mailboxStatusRead _ _ | .bar2HostRead _ _ _ | .bar2HostWrite _ _ _
  | .bar2HostAtomic _ _ _ _ _ _ | .apwinWrite _ | .trinvWrite _ | .preemptWrite _
  | .preemptSaveComplete _ | .restoreWrite _ | .controlBlockWrite _ _ | .dallumSpawn _ _
  | .declareDead _ _ | .declareLive _ _ | .liveMapUpdate _ | .forwardEventQueue _ _
  | .mailboxInvalidMessage _ _ | .dallumServiceRequest _ | .listCapsules _ _ | .copyCapsule _ _
  | .releaseCapsule _ _ | .attest _ _ | .copyCertificates _ _ | .serviceStatus _ _
  | .coreSelfTest _ _ | .pseudoChannelMigration _ _ | .lostRecords _ | .refresh _ _
  | .budgetWindowStart | .dallumWatchdogExpiry | .cycleCountWrap | .invalidationComplete
  | .retireCore | .readmitCore | .recalibratePseudoChannel | .retirePseudoChannel
  | .readmitPseudoChannel | .setPortLanes | .stageImage | .handover
  | .handoverTimeout | .installConfiguration | .reset | .resetRequest
  | .fullService | .controlCoreMemoryError | .resetWaitExpiry => []

/-- The instruction is a commit point for the issuer (R347, R349). -/
def pointOf (i : Instr) (c : Issuer) (s : State) : Bool :=
  match i with
  | .st f => stPoint f c s
  | .atomAdd f | .atomUmin f | .atomUmax f | .atomSmin f | .atomSmax f | .atomAnd f | .atomOr f | .atomXor f | .atomExch f
  | .atomCas f | .atomFadd f | .atomFmin f | .atomFmax f | .atomLd f | .atomSt f => atomPoint i f c s
  | i => commitPoint i

/-- The instruction of the issuing split may issue, its encoding is legal, and no redundant pair holds it: the conditions under
which it has its effect. A redundant member qualifies at every instruction that is no commit point. -/
structure MayIssue (i : Instr) (c : Issuer) (s : State) : Prop where
  issuer : s.issuer = some c
  can    : canIssue i c s = true
  legal  : preTrap i (checks i c) c = none
  free   : c.task.redundant = false ∨ (pointOf i c s = false ∧ c.grp.agreed = false)

/-- The state in which an instruction has issued and has had no effect yet (R17, R21, R59). -/
def issued (i : Instr) (c : Issuer) (s : State) : State := (advance i c s).tagWrites i c

/-- The opcode block of the instructions that only write registers: format S, the vector, special-function, conversion and
cross-lane blocks (R39). -/
def isRegisterOp (i : Instr) : Bool := 0x020 ≤ (profile 32 i).head.op && (profile 32 i).head.op < 0x120

/-- What a register instruction with outstanding operation q has done when it has issued, and that it has done nothing else: DIX
rises by one (R59), the program counter moves on (R14), its post flag's count rises by one (R21), q waits to write (R23), and
in the whole state nothing else changes but the warp's tags (R196), the issue times and the run of the split (R17, R22, R24), the busy
times of its core's units (R61), and which splits are known to come after a RAST whose flag was waited for (R270). -/
structure Leaves (i : Instr) (c : Issuer) (s t : State) (q : Pend) : Prop where
  rest   : t = { s with warps := t.warps, cores := t.cores, fresh := s.fresh + 1, lastRast := (s.noteWait i c).lastRast }
  cores  : ∀ k, t.core k = { s.core k with busy := (t.core k).busy }
  others : ∀ gid wid, gid * 32 + wid ≠ c.ref.gid * 32 + c.ref.wid → t.warp? gid wid = s.warp? gid wid
  warp   : ∃ w, t.warp? c.ref.gid c.ref.wid = some w ∧
    w = { c.warp with flags := w.flags, table := w.table, tags := w.tags, issued := c.warp.issued + 1, pend := c.warp.pend ++ [q] } ∧
    (∀ k, w.flag k = c.warp.flag k + (if postFlag (c.profile i).head.post = some k then 1 else 0)) ∧
    (∀ e, e ≠ c.ref.ent → flook e w.table = flook e c.warp.table) ∧
    ∃ x, w.split? c.ref.ent = some x ∧
      x = { c.split with pc := nextPc c.split.pc, dix := c.split.dix + 1, line := x.line, text := x.text, via := x.via,
                         second := x.second, run := x.run, lastIssue := s.cycle + 16, nextIssue := x.nextIssue, noWatch := false,
                         prio := false }
  op     : q.id = s.fresh ∧ q.ent = c.ref.ent ∧ q.lanes = c.split.held ∧ q.flag = postFlag (c.profile i).head.post

/-! ## Results in registers -/

/-- A lane for which a result is computed: lane 0 once for a scalar one, else the lanes of the mask in the warp (R28, R64). -/
def runsIn (c : Issuer) (sca : Bool) (mask : Mask) (l : Nat) : Bool := if sca then l = 0 else decide (l < c.warp.width) && mask.getLsbD l

/-- One register of values, lane by lane; zero in the lanes that are not computed (R24). -/
def laneWords (c : Issuer) (mask : Mask) (v : Nat → Nat) : List Word :=
  (List.range c.warp.width).map fun l => if mask.getLsbD l then BitVec.ofNat 32 (v l) else 0

/-- The STICKY contributions of the computed lanes, ORed (R68). -/
def stickyOf (c : Issuer) (sca : Bool) (mask : Mask) (st : Nat → Word) : Word :=
  if sca then st 0 else (List.range c.warp.width).foldl (fun a l => if mask.getLsbD l then a ||| st l else a) 0

/-- The registers that a result writes: one, or the even register's low half and the odd one's high half (R44). -/
def regWrites (c : Issuer) (dst : BitVec 9) (sca wide : Bool) (mask : Mask) (v : Nat → Nat) : List RegWrite :=
  if dNowb dst then []
  else if sca then .sca (dIdx dst) (BitVec.ofNat 32 (v 0)) ::
    (if wide then [.sca (dIdx dst + 1) (BitVec.ofNat 32 (v 0 / 2 ^ 32))] else [])
  else .vec (c.env.phys (dIdx dst)) mask (laneWords c mask v) ::
    (if wide then [.vec (c.env.phys (dIdx dst + 1)) mask (laneWords c mask fun l => v l / 2 ^ 32)] else [])

/-- The latency of an instruction that acts in the lanes of a mask: with no active lane it is 6 (R62; log 106). -/
def latIn (sca : Bool) (mask : Mask) (lat : Nat) : Nat := if sca = false ∧ mask = 0 then 6 else lat

/-- An instruction completes with a result g for each lane: it leaves everything else alone, its writes and its STICKY bits land
lat cycles after issue (R23, R66), and at latency 6 its result enters the latches, readable from four cycles after (R24). With no active
lane nothing is written and its flag completes 6 cycles after issue (R62). -/
def Gives (i : Instr) (c : Issuer) (s : State) (dst : BitVec 9) (sca wide : Bool) (mask : Mask) (lat : Nat) (g : Nat → Nat × Word) : Prop :=
  ∃ t q x, exec i s = .next t ∧ Leaves i c s t q ∧ t.splitAt c.ref = some x ∧ q.due = s.cycle + latIn sca mask lat ∧
    (q.kind = .fixed ∨ q.kind = .long) ∧ (lat = 6 → q.kind = .fixed) ∧ (latIn sca mask lat ≠ 6 → q.kind = .long) ∧
    q.writes = (if sca = false ∧ mask = 0 then [] else regWrites c dst sca wide mask (fun l => (g l).1)) ∧ q.sticky = stickyOf c sca mask (fun l => (g l).2) ∧
    x.run.latches = (if lat = 6 then
        (⟨!sca, if sca then [BitVec.ofNat 32 (g 0).1] else laneWords c mask (fun l => (g l).1), s.cycle + 4⟩ :: c.split.run.latches).take 8
      else c.split.run.latches)

/-- The latency of an instruction on 64-bit types, and of one on the others (R66). -/
def latOf (c : Issuer) (t : Nat) : Nat := if is64 t then (if c.warp.width = 64 then 9 else 8) else 6

/-- A format S instruction completes with value g of source A (R73). -/
def GivesS (i : Instr) (f : SFmt) (one : Bool) (c : Issuer) (s : State) (g : Nat → Nat × Word) : Prop :=
  Gives i c s f.dst (!f.isVec) (is64 f.t && !one) (c.split.exm &&& lowMask c.warp.width) (latOf c f.t) fun l => g (c.env.sA f l)

/-- A format V instruction completes with value g in each lane (R63, R64). -/
def GivesV (i : Instr) (f : VFmt) (c : Issuer) (s : State) (g : Nat → Nat × Word) : Prop :=
  Gives i c s f.dst f.isScalar (is64 f.t) (c.env.active f.guard) (latOf c f.t) g

/-- The bits of an element; a 24-bit float lies in the high bits of its register (R46). -/
def elemBits (t : Nat) : Nat := if t = 11 then 24 else typeBits t

/-- A format V instruction completes elementwise (R65, R76): each used element is E's value of the elements of A, B and C, each
other element is A's, and the lane contributes the STICKY bits of its used elements. -/
def GivesElems (i : Instr) (f : VFmt) (c : Issuer) (s : State) (lat : Nat) (E : Nat → Nat → Nat → Nat → Nat → Nat × Word) : Prop :=
  ∃ g, Gives i c s f.dst f.isScalar (is64 f.t) (c.env.active f.guard) lat g ∧
    ∀ l, let el := fun k => E l k (elemGet f.t (c.env.va f l) k) (elemGet f.t (c.env.vb f l) k) (elemGet f.t (c.env.vc f l) k)
      (∀ k < packOf f.t, elemGet f.t (g l).1 k =
        if k < usedOf f.t f.count then (el k).1 % 2 ^ elemBits f.t else elemGet f.t (c.env.va f l) k) ∧
      (f.t = 11 → (g l).1 % 256 = 0) ∧
      ∀ b, (g l).2.getLsbD b = true ↔ ∃ k < packOf f.t, k < usedOf f.t f.count ∧ (el k).2.getLsbD b = true

/-- A value of a type code as an integer: two's complement for the signed types (R32). -/
def intVal (t x : Nat) : Int :=
  if isSigned t then (BitVec.ofNat (typeBits t) x).toInt else ((BitVec.ofNat (typeBits t) x).toNat : Int)

/-- The nearest integer of a type to an exact one. -/
def clampTo (t : Nat) (x : Int) : Int :=
  if isSigned t then max (-(2 ^ (typeBits t - 1))) (min x (2 ^ (typeBits t - 1) - 1)) else max 0 (min x (2 ^ typeBits t - 1))

/-- An exact integer as a result of a type: wrapped, or clamped with the STICKY bit isat when that changes it (R74, R76). -/
def fitInt (t : Nat) (sat : Bool) (x : Int) : Nat × Word :=
  if sat then ((BitVec.ofInt (typeBits t) (clampTo t x)).toNat, if clampTo t x = x then 0 else stIsat)
  else ((BitVec.ofInt (typeBits t) x).toNat, 0)

/-- The immediate of format S as an exact integer (R73). -/
def immVal (f : SFmt) : Int := if f.t < 8 ∧ f.t % 2 = 0 then f.imm.toInt else (f.imm.toNat : Int)

/-- The order that a condition code of SCMPI and VCMP names (R74, R78). -/
def relHolds (code : Nat) (x y : Int) : Bool :=
  match code with
  | 0 => x = y | 1 => x ≠ y | 2 => x < y | 3 => x ≤ y | 4 => y < x | _ => y ≤ x

/-- Two values as bit vectors of a type's width. -/
def onBits (t : Nat) (g : BitVec (typeBits t) → BitVec (typeBits t) → BitVec (typeBits t)) (a b : Nat) : Nat × Word :=
  ((g (BitVec.ofNat (typeBits t) a) (BitVec.ofNat (typeBits t) b)).toNat, 0)

/-- The right shift of a type: arithmetic for the signed ones (R77). -/
def shiftRightOf (t : Nat) (x : BitVec (typeBits t)) (n : Nat) : BitVec (typeBits t) :=
  if isSigned t then x.sshiftRight n else x >>> n

/-! What rounding is (R55), on exact magnitudes. -/

/-- m × 2^e. -/
def magnitude (m : Nat) (e : Int) : ℚ := m * (2 : ℚ) ^ e

/-- The magnitude that a code stands for on a grid; the codes go on upward past the largest finite value (R45, R55). -/
def Grid.mag (g : Grid) (c : Nat) : ℚ :=
  if c < 2 ^ g.mb then magnitude c g.q0 else magnitude (2 ^ g.mb + c % 2 ^ g.mb) (g.q0 + ((c / 2 ^ g.mb : Nat) - 1 : Int))

/-- The magnitude of a code of E3M0, which has no mantissa (R49). -/
def e3m0Mag (c : Nat) : ℚ := if c = 0 then 0 else magnitude 1 (c - 3)

/-- R55's choice between code a and the next, of a value that lies the fraction d of the way from a to it. -/
def chosenCode (r : Rnd) (neg : Bool) (a : Nat) (d : ℚ) : Nat :=
  if d = 0 then a
  else match r with
    | .rne => if d < 1 / 2 ∨ (d = 1 / 2 ∧ a % 2 = 0) then a else a + 1
    | .rz => a
    | .rd => if neg then a + 1 else a
    | .ru => if neg then a else a + 1
    | .sr z n => if (z : ℚ) + 1 ≤ d * 2 ^ n then a + 1 else a

/-- Magnitude x lies at code a of a grid or between it and the next, d of the way; c is the code that R55 chooses for it. -/
def RoundsTo (mag : Nat → ℚ) (r : Rnd) (neg : Bool) (x : ℚ) (a : Nat) (d : ℚ) (c : Nat) : Prop :=
  mag a ≤ x ∧ x < mag (a + 1) ∧ d = (x - mag a) / (mag (a + 1) - mag a) ∧ c = chosenCode r neg a d

/-- A nonzero magnitude m × 2^e, rounded to a grid's precision with an unbounded exponent range, lies below its smallest normal (R68). -/
def TinyOn (g : Grid) (r : Rnd) (neg : Bool) (m : Nat) (e : Int) : Prop :=
  m ≠ 0 ∧ ∀ q : Int, q ≤ e - g.mb → q ≤ g.q0 → ∃ a d c, RoundsTo (Grid.mag ⟨g.mb, q⟩) r neg (magnitude m e) a d c ∧
    Grid.mag ⟨g.mb, q⟩ c < magnitude 1 (g.q0 + g.mb)

/-- An instruction completes with writes W that land lat cycles after issue and with an entry of the latches, or none. -/
def GivesWrites (i : Instr) (c : Issuer) (s : State) (lat : Nat) (W : List RegWrite) (st : Word) (entry : Option (Bool × List Word)) : Prop :=
  ∃ t q x, exec i s = .next t ∧ Leaves i c s t q ∧ t.splitAt c.ref = some x ∧ q.due = s.cycle + lat ∧ q.writes = W ∧ q.sticky = st ∧
    x.run.latches = (match entry with
      | some (v, vs) => (⟨v, vs, s.cycle + 4⟩ :: c.split.run.latches).take 8
      | none => c.split.run.latches)

/-- An instruction completes with bit P l of its predicate in each active lane l; the other lanes' bits stand, and all do where no lane is
active (R62, R78). -/
def GivesPred (i : Instr) (f : VFmt) (c : Issuer) (s : State) (P : Nat → Bool) : Prop :=
  ∃ bits, GivesWrites i c s (latIn false (c.env.active f.guard) (latOf c f.t))
      (if c.env.active f.guard = 0 then [] else [.pred (dIdx f.dst) (c.env.active f.guard) bits]) 0 none ∧
    ∀ l, (c.env.active f.guard).getLsbD l = true → bits.getLsbD l = P l

/-- The operations of VQOP (R78). -/
def predOp (code : Nat) (a b : Bool) : Bool :=
  match code with
  | 0 => a && b | 1 => a || b | 2 => a ^^ b | 3 => a && !b | 4 => !a | 5 => true | 6 => false | _ => a

/-- A lane of a warp that is active for a V instruction. -/
def activeIn (c : Issuer) (f : VFmt) (l : Nat) : Bool := (c.env.active f.guard).getLsbD l

/-- The elements of A in the active lanes below n, in lane order (R102). -/
def activeElems (c : Issuer) (f : VFmt) (n : Nat) : List Nat :=
  ((List.range n).filter (activeIn c f)).map fun l => elemGet f.t (laneA c.env f l) 0

/-- Elements combined from the identity on, the accumulator on the left, with the STICKY bits of every step (R102). -/
def foldElems (t op : Nat) (r : Rnd) (xs : List Nat) : Nat × Word :=
  xs.foldl (fun a x => ((combine t op r a.1 x).1, a.2 ||| (combine t op r a.1 x).2)) (identityOf t op, 0)

/-- A tree over 2^n leaves, those of inactive lanes none: a node of none is none, and a missing operand is the identity (R103). -/
def reduceTree (t op : Nat) (r : Rnd) (leaf : Nat → Option Nat) : Nat → Nat → Option Nat × Word
  | 0, k => (leaf k, 0)
  | n + 1, k =>
    let a := reduceTree t op r leaf n (2 * k)
    let b := reduceTree t op r leaf n (2 * k + 1)
    match a.1, b.1 with
    | none, none => (none, 0)
    | x, y =>
      let z := combine t op r (x.getD (identityOf t op)) (y.getD (identityOf t op))
      (some z.1, z.2 ||| a.2 ||| b.2)

/-! ## Instructions that act on other units -/

/-- The issuing warp after an instruction that has issued with an outstanding operation q: no register changes, DIX rises by one
(R59), the program counter moves on (R14), the post flag's count rises by one (R21), and q is outstanding. Beside these the warp's
tags (R196), release count, synchronised-with table and what it has noted for acquire fences (R234, R235) may change. -/
structure OwnWarp (i : Instr) (c : Issuer) (s t : State) (q : Pend) : Prop where
  warp : ∃ w, t.warp? c.ref.gid c.ref.wid = some w ∧
    w = { c.warp with flags := w.flags, table := w.table, tags := w.tags, issued := c.warp.issued + 1, pend := c.warp.pend ++ [q],
                      relCount := w.relCount, sync := w.sync, noted := w.noted } ∧
    (∀ k, w.flag k = c.warp.flag k + (if postFlag (c.profile i).head.post = some k then 1 else 0)) ∧
    ∃ x, w.split? c.ref.ent = some x ∧
      x = { c.split with pc := nextPc c.split.pc, dix := c.split.dix + 1, line := x.line, text := x.text, via := x.via,
                         second := x.second, run := x.run, lastIssue := s.cycle + 16, nextIssue := x.nextIssue, noWatch := false,
                         prio := false, fenceRel := x.fenceRel }
  op : s.fresh ≤ q.id ∧ q.ent = c.ref.ent ∧ q.lanes = c.split.held ∧ q.flag = postFlag (c.profile i).head.post

/-- The other warps are as they were. -/
def OtherWarps (c : Issuer) (s t : State) : Prop :=
  ∀ gid wid, gid * 32 + wid ≠ c.ref.gid * 32 + c.ref.wid → t.warp? gid wid = s.warp? gid wid

/-- Byte a lies in a piece of an access; a ganged piece's bytes lie where their keys' cells do (R214). -/
def Spot.holds (x : Spot) (a : Nat) : Bool := (List.range x.n).any fun k => decide (cell (x.key + k) = a)

/-- A key is one of a piece's. -/
def Spot.names (x : Spot) (a : Nat) : Bool := x.key ≤ a && a < x.key + x.n

/-- Address a is that of the valid bit of a bench word in which a piece lies (R143). -/
def Spot.validates (x : Spot) (a : Nat) : Bool :=
  keyRegion x.key = 4 && (benchWords x.key x.n).any fun w => a = validKey (benchCore x.key) w

/-- The pieces of an access in the issued state: what LD and ST touch (R132, R139, R141). -/
def pieces (i : Instr) (f : MFmt) (need : Need) (c : Issuer) (s : State) : Except TrapInfo (List Spot) :=
  (issued i c s).access c (mAcc f need) (mAddrs c.env f)

/-- The row of an atomic operation (R150). -/
def atomRow (op : AtomOp) (f : AFmt) : Instr :=
  match op with
  | .add => .atomAdd f | .umin => .atomUmin f | .umax => .atomUmax f | .smin => .atomSmin f | .smax => .atomSmax f
  | .and => .atomAnd f | .or => .atomOr f | .xor => .atomXor f | .exch => .atomExch f | .cas => .atomCas f
  | .fadd => .atomFadd f | .fmin => .atomFmin f | .fmax => .atomFmax f | .ld => .atomLd f | .st => .atomSt f

/-- The pieces of an atomic, one for each lane that accesses (R146, R147). -/
def atomPieces (op : AtomOp) (f : AFmt) (c : Issuer) (s : State) : Except TrapInfo (List Spot) :=
  (issued (atomRow op f) c s).access c
    { space := f.space.toNat, obj := f.ident.toNat, n := aBytes f, step := aBytes f, align := aBytes f, need := .both, atomic := true,
      op := some (op, aRets f) }
    ((bitsSet (c.env.active f.guard)).map fun l => (l, aAddr c.env f l))

/-- Deterministic mode refuses the atomic (R303). -/
def atomRefused (f : AFmt) (c : Issuer) : Bool := c.task.determ && 1 < f.scope.toNat && (aRets f || f.space = 2)

/-- An operation q of the issuing warp after the instruction, whose registers stand. -/
def Outstanding (c : Issuer) (t : State) (q : Pend) : Prop :=
  ∃ w, t.warp? c.ref.gid c.ref.wid = some w ∧ q ∈ w.pend ∧ w.vregs = c.warp.vregs ∧ w.sregs = c.warp.sregs ∧ w.preds = c.warp.preds

/-- The row of a waiting or queue instruction, what it asks of its place, and whether it is a release (R160, R163). -/
def waitRow (k : Fin 5) (f : AFmt) : Instr :=
  match k with
  | 0 => .waitq f | 1 => .wake f | 2 => .qpush f | 3 => .qpop f | 4 => .qpopw f
def waitOp (k : Fin 5) (f : AFmt) (c : Issuer) : SyncOp :=
  match k with
  | 0 => .waitq (2 ^ f.size.toNat) (if f.size = 3 then c.env.src64 f.opb true 0 else (c.env.ssrc f.opb).toNat)
  | 1 => .wake (c.env.ssrc f.opb).toNat
  | 2 => .qpush (c.env.ssrc f.opb).toNat
  | 3 => .qpop
  | 4 => .qpopw
/-- The bytes that it names. -/
def waitBytes (k : Fin 5) (f : AFmt) : Nat := match k with | 0 => 2 ^ f.size.toNat | 1 => 4 | _ => 16

/-- The place and the key that a waiting or queue instruction acts on, when its address passes the checks (R139, R157). -/
def waitPiece (k : Fin 5) (f : AFmt) (c : Issuer) (s : State) : Except TrapInfo (List Spot) :=
  (issued (waitRow k f) c s).laneSpots c { space := f.space.toNat, n := waitBytes k f, step := waitBytes k f, align := waitBytes k f,
                                           need := .both, atomic := true } 0 (scaAddr c.env f.addr f.space.toNat)

/-- The word of a phase barrier whose address passes the checks (R157). -/
def phaseKey (c : Issuer) (a : Nat) : Nat := benchKey c.grp.core (c.grp.benchBase + a)

/-! ## Control flow -/

/-- A control instruction of format B has ended its run and done its work: no register of the warp has changed, no other warp and no
byte of memory; w is the issuing warp after it (R18, R165). -/
def Turned (i : Instr) (c : Issuer) (s : State) (w : Warp) : Prop :=
  ∃ t, exec i s = .next t ∧ t.warp? c.ref.gid c.ref.wid = some w ∧ OtherWarps c s t ∧ t.mem = s.mem ∧ w.vregs = c.warp.vregs ∧
    w.sregs = c.warp.sregs ∧ w.preds = c.warp.preds ∧ w.flags = c.warp.flags ∧ w.pend = c.warp.pend ∧ w.depth = c.warp.depth ∧
    c.ref ∉ (t.core c.grp.core).ports.map (·.2)

/-- The split after a control instruction: its run has ended and its port is free (R17, R25), DIX has risen, and it stands at pc with
its lanes and mask as given; its frame, records, window and handler stand. -/
def Stands (c : Issuer) (w : Warp) (pc : DWord) (held exm : Mask) : Prop :=
  ∃ x, w.split? c.ref.ent = some x ∧ x.pc = pc ∧ x.held = held ∧ x.exm = exm ∧ x.dix = c.split.dix + 1 ∧ x.run = {} ∧ x.bound = none ∧
    x.frame = c.split.frame ∧ x.chain = c.split.chain ∧ x.wb = c.split.wb ∧ x.handler = c.split.handler

/-- A split of a division in an entry of the table, with its lanes, mask and program counter, under a frame (R167). -/
def ChildAt (c : Issuer) (w : Warp) (e : Nat) (held exm : Mask) (pc : DWord) (frame : Option Nat) : Prop :=
  ∃ y, w.split? e = some y ∧ y.held = held ∧ y.exm = exm ∧ y.pc = pc ∧ y.frame = frame ∧ y.dix = c.split.dix + 1 ∧ y.wb = c.split.wb ∧
    y.chain = [] ∧ y.bound = none

/-- The frame of a division (R167). -/
def FrameAt (c : Issuer) (w : Warp) (e : Nat) (token : Byte) : Prop :=
  flook e w.table = some (.frame { token := token, wb := c.split.wb, expect := c.split.held, parent := c.split.frame,
                                   handler := c.split.handler })

/-! ## System instructions, commands -/

/-- An instruction is outstanding for n cycles and then writes W; beside its own warp and its core's ports and units nothing of the
state has changed (R21, R23), but for what is known of its group's RASTs (R270). -/
def Later (i : Instr) (c : Issuer) (s : State) (n : Nat) (W : List RegWrite) : Prop :=
  ∃ t q, exec i s = .next t ∧ OwnWarp i c s t q ∧ OtherWarps c s t ∧ t = { s with warps := t.warps, cores := t.cores, fresh := t.fresh, lastRast := t.lastRast } ∧
    q.kind = .long ∧ q.due = s.cycle + n ∧ q.writes = W

/-- An instruction has issued and its effect is done: t is the state after it, w the issuing warp, x its split. No register, flag,
predicate or operation of the warp has changed, no other warp and no byte of memory. -/
def Silent (i : Instr) (c : Issuer) (s t : State) (w : Warp) (x : Split) : Prop :=
  exec i s = .next t ∧ t.warp? c.ref.gid c.ref.wid = some w ∧ w.split? c.ref.ent = some x ∧ OtherWarps c s t ∧ t.mem = s.mem ∧
    t.groups = s.groups ∧ w.vregs = c.warp.vregs ∧ w.sregs = c.warp.sregs ∧ w.preds = c.warp.preds ∧ w.flags = c.warp.flags ∧
    w.pend = c.warp.pend ∧ w.depth = c.warp.depth ∧ x.pc = nextPc c.split.pc ∧ x.held = c.split.held ∧ x.wb = c.split.wb ∧
    x.frame = c.split.frame ∧ x.chain = c.split.chain ∧ x.handler = c.split.handler

/-- A command for an engine of the issuing core: it is the last of the core's commands, and its flag waits for it; no register, no
other warp and no byte of memory has changed (R126, R177). -/
def Commands (i : Instr) (c : Issuer) (s : State) (e : ECmd) : Prop :=
  ∃ t q, exec i s = .next t ∧ OwnWarp i c s t q ∧ OtherWarps c s t ∧ t.mem = s.mem ∧ q.kind = .engine ∧
    (t.core c.grp.core).engine = (s.core c.grp.core).engine ++ [e] ∧ e.id = q.id ∧ e.pid = q.id ∧ e.gid = c.ref.gid ∧ e.wid = c.ref.wid ∧
    e.lanes = c.split.held ∧ e.fault.isSome = decide (s.stage < 2 && (e.kind = .coll || e.kind = .rwinOpen || e.kind = .rstream || e.kind = .rast))

/-- A command for the matrix array: it is the last of the queue of the warp's bay (R126). -/
def Queues (i : Instr) (c : Issuer) (s t : State) (m : MCmd) : Prop :=
  ∃ q, exec i s = .next t ∧ OwnWarp i c s t q ∧ OtherWarps c s t ∧ t.mem = s.mem ∧ q.kind = .engine ∧
    flook c.warp.bay (t.core c.grp.core).queues = some ((flook c.warp.bay (s.core c.grp.core).queues).getD [] ++ [m]) ∧
    m.pid = q.id ∧ m.gid = c.ref.gid ∧ m.wid = c.ref.wid ∧ m.lanes = c.split.held ∧ s.fresh ≤ m.id

/-- A trap that an instruction takes with nothing of it done (R139, R335). -/
def Traps (i : Instr) (c : Issuer) (s : State) (cause tval : Nat) : Prop :=
  exec i s = .next (raise s c.ref { cause := cause, tval := BitVec.ofNat 64 tval, epc := c.split.pc })

/-- The issuing group after an instruction: its slots and tiles as given, nothing else of it changed, nor any other group (R108, R112). -/
def SlotsTiles (c : Issuer) (s t : State) (slot : Nat → Slot) (tile : Nat → Tile) : Prop :=
  (∀ gid, gid ≠ c.ref.gid → t.group? gid = s.group? gid) ∧
  ∃ g, t.group? c.ref.gid = some g ∧ g = { c.grp with slots := g.slots, tiles := g.tiles } ∧ (∀ k, g.slot k = slot k) ∧ ∀ k, g.tile k = tile k

/-- No other warp has an incomplete command on a tile, or the task is not in deterministic mode (R113). -/
def TileFree (c : Issuer) (s : State) (k : Nat) : Prop :=
  c.task.determ = true → ∀ m ∈ (s.core c.grp.core).commands, m.onTile c.ref.gid k = true → m.wid = c.ref.wid

/-- The common tail of a command block (R178) that passes its checks. -/
def TailGood (c : Issuer) (b : List Byte) : Prop :=
  (blkBarrier b = 0xFFFFFFFF ∨ (blkBarrier b % 8 = 0 ∧ blkBarrier b + 8 ≤ c.grp.benchSize)) ∧ blkWord b % 4 = 0 ∧
    (blkQueue b < 256 ∨ blkQueue b = 0xFFFF)

/-- A command block has been read at issue, n bytes at an address of the bench (R177), and the object that the command names may be used
(R177, R295): a is the address, b the bytes, s1 the state with the issue done. -/
def BlockRead (i : Instr) (f : XFmt) (n : Nat) (c : Issuer) (s : State) (b : List Byte) (s1 : State) : Prop :=
  readBlock c f n (issued i c s) = .ok ((c.env.ssrc f.pa).toNat, b, s1) ∧ TailGood c b

def ObjectGood (i : Instr) (c : Issuer) (s : State) (e : List Byte) : Prop := objFault s i c e = none

/-! ## Events -/

/-- The writes of an operation: those known at issue, and its loaded registers (R137). -/
def Pend.lands (q : Pend) : List RegWrite := q.writes ++ q.items.map fun x => x.write q.got

/-- An operation q of warp w completes: its registers are written, its STICKY bits are ORed in, its flag's count falls, it is no longer
outstanding, and nothing else of the state changes (R21, R23, R68). -/
def Completes (s t : State) (gid wid : Nat) (w : Warp) (q : Pend) : Prop :=
  t = { s with warps := t.warps } ∧ (∀ g' w', g' * 32 + w' ≠ gid * 32 + wid → t.warp? g' w' = s.warp? g' w') ∧
  ∃ v, t.warp? gid wid = some v ∧
    v = { w with vregs := v.vregs, sregs := v.sregs, preds := v.preds, flags := v.flags, sticky := v.sticky, landed := v.landed, pend := v.pend } ∧
    v.pend = w.pend.filter (fun x => decide (x.id ≠ q.id)) ∧
    v.sticky = w.sticky ||| (q.sticky &&& stickyMask) ∧
    (v.vregs, v.sregs, v.preds) = (((Pend.lands q).foldl Warp.write w).vregs, ((Pend.lands q).foldl Warp.write w).sregs,
      ((Pend.lands q).foldl Warp.write w).preds) ∧
    (∀ k, q.flag = some k → 2 ≤ w.flag k ∨ Canon 0 w.flags → v.flag k = w.flag k - 1) ∧ ∀ k, q.flag ≠ some k → v.flag k = w.flag k

/-- An outstanding operation of a warp, of a member that has no twin, with nothing to report of its data. -/
def Awaits (s : State) (gid wid id : Nat) (w : Warp) (q : Pend) : Prop :=
  s.warp? gid wid = some w ∧ w.pend? id = some q ∧ q.twin = none ∧ q.dead = none ∧ q.bad = none

/-- No operation of a warp has anything to report of its data. -/
def Sound (s : State) (gid wid pid : Nat) : Prop :=
  ∀ w q, s.warp? gid wid = some w → w.pend? pid = some q → q.dead = none ∧ q.bad = none

end Sys2Proof.Machine
end

