-- ==== Sys2Proof/Certificates/Slice0/Obligations.lean ====
section
/-! DEFINITION. The statements for the provers. In each, c is the issuing split with its warp, group and task; MayIssue says that
the instruction may issue and that its encoding is legal. -/

open Sys2Proof Sys2Proof.Machine

/-! ## Instructions that write registers -/

/-- Every instruction of the blocks 0x020 to 0x11F that may issue completes, and changes nothing but what Leaves names: memory, every other
warp and every other register stand as they were. SIDENT of codes 5 to 7 traps in deterministic mode (R75). -/
def Obligations.RegisterInstructionsCompleteAndFrame : Prop :=
  ∀ i c s, isRegisterOp i = true → MayIssue i c s →
    (∀ f, i = .sident f → c.task.determ = true → ¬ (5 ≤ f.imm.toNat ∧ f.imm.toNat ≤ 7)) →
    ∃ t q, exec i s = .next t ∧ Leaves i c s t q

/-- SMOVI, SADDI, SSUBI, SMULI, SMINI, SMAXI, SCMPI, SLEA (R73, R74). SANDI, SORI, SXORI, SSHLI, SSHRI, SEXT, SIDENT, and the bit counts of
SCLZ, SCTZ, SPOPC, SBREV, SBSWAP (R74, R75). What the bit counts and reversals are (R74, R77). Where the manual leaves more than one
reading, the clauses rest on the model's readings in log 106. -/
def Obligations.ScalarResults : Prop :=
  (∀ (f : SFmt) c s,
    (MayIssue (.smovi f) c s → GivesS (.smovi f) f false c s fun _ => (f.imm.toNat, 0)) ∧
    (MayIssue (.saddi f) c s → GivesS (.saddi f) f false c s fun a => fitInt f.t (f.subop = 1) (intVal f.t a + immVal f)) ∧
    (MayIssue (.ssubi f) c s → GivesS (.ssubi f) f false c s fun a => fitInt f.t (f.subop = 1) (intVal f.t a - immVal f)) ∧
    (MayIssue (.smuli f) c s → GivesS (.smuli f) f false c s fun a =>
      if f.subop = 2 then (((BitVec.ofInt 64 (intVal f.t a * immVal f)).extractLsb' 32 32).toNat, 0)
      else fitInt f.t (f.subop = 1) (intVal f.t a * immVal f)) ∧
    (MayIssue (.smini f) c s → GivesS (.smini f) f false c s fun a => fitInt f.t false (min (intVal f.t a) (immVal f))) ∧
    (MayIssue (.smaxi f) c s → GivesS (.smaxi f) f false c s fun a => fitInt f.t false (max (intVal f.t a) (immVal f))) ∧
    (MayIssue (.scmpi f) c s → GivesS (.scmpi f) f true c s fun a =>
      ((relHolds f.subop.toNat (intVal f.t a) (immVal f)).toNat, 0)) ∧
    (MayIssue (.slea f) c s → GivesS (.slea f) f false c s fun a =>
      ((BitVec.ofNat 64 a + (f.imm.signExtend 64 <<< f.subop.toNat)).toNat, 0))) ∧
  (∀ (f : SFmt) c s,
    (MayIssue (.sandi f) c s → GivesS (.sandi f) f false c s fun a => ((BitVec.ofNat 32 a &&& f.imm).toNat, 0)) ∧
    (MayIssue (.sori f) c s → GivesS (.sori f) f false c s fun a => ((BitVec.ofNat 32 a ||| f.imm).toNat, 0)) ∧
    (MayIssue (.sxori f) c s → GivesS (.sxori f) f false c s fun a => ((BitVec.ofNat 32 a ^^^ f.imm).toNat, 0)) ∧
    (MayIssue (.sshli f) c s → GivesS (.sshli f) f false c s fun a => onBits f.t (fun x _ => x <<< f.imm.toNat) a 0) ∧
    (MayIssue (.sshri f) c s → GivesS (.sshri f) f false c s fun a => onBits f.t (fun x _ => shiftRightOf f.t x f.imm.toNat) a 0) ∧
    (MayIssue (.sclz f) c s → GivesS (.sclz f) f false c s fun a => (clz32 a, 0)) ∧
    (MayIssue (.sctz f) c s → GivesS (.sctz f) f false c s fun a => (ctz32 a, 0)) ∧
    (MayIssue (.spopc f) c s → GivesS (.spopc f) f false c s fun a => (popc32 a, 0)) ∧
    (MayIssue (.sbrev f) c s → GivesS (.sbrev f) f false c s fun a => (brev32 a, 0)) ∧
    (MayIssue (.sbswap f) c s → GivesS (.sbswap f) f false c s fun a => (bswap32 a, 0)) ∧
    (MayIssue (.sext f) c s → GivesS (.sext f) f false c s fun a => ((BitVec.ofInt 32 (intVal f.t a)).toNat, 0)) ∧
    (MayIssue (.sident f) c s → (c.task.determ && 5 ≤ f.imm.toNat && f.imm.toNat ≤ 7) = false →
      GivesS (.sident f) f false c s fun _ => (identity c f.imm.toNat, 0)) ∧
    (MayIssue (.sident f) c s → (c.task.determ && 5 ≤ f.imm.toNat && f.imm.toNat ≤ 7) = true →
      exec (.sident f) s = .next (raise s c.ref { cause := 0x0D, epc := c.split.pc }))) ∧
  (∀ x < 2 ^ 32,
    (clz32 x ≤ 32 ∧ x < 2 ^ (32 - clz32 x) ∧ (x ≠ 0 → x.testBit (31 - clz32 x) = true)) ∧
    (ctz32 x ≤ 32 ∧ (∀ k < ctz32 x, x.testBit k = false) ∧ (x ≠ 0 → x.testBit (ctz32 x) = true)) ∧
    (popc32 x = ((Finset.range 32).filter fun k => x.testBit k = true).card) ∧
    (∀ k < 32, (brev32 x).testBit k = x.testBit (31 - k)) ∧
    (∀ k < 4, bswap32 x / 256 ^ k % 256 = x / 256 ^ (3 - k) % 256))

/-- VADD, VSUB, VMUL, VMULHI, VMAD, VMIN, VMAX, VABS, VNEG, VDIV and VREM on integers (R76, R77, R79). VAND, VOR, VXOR, VANDN, VSHL, VSHR,
VMOV, VCLZ, VPOPC, VBREV (R77). VBFX and VBFI with a field of b bits at p, VDOT4, VLANEID, VSEL (R76, R80, R81). Where the manual leaves
more than one reading, the clauses rest on the model's readings in log 106. -/
def Obligations.VectorIntegerResults : Prop :=
  (∀ (f : VFmt) c s,
    let fit := fitInt f.t (f.sat = 1)
    let v := intVal f.t
    (MayIssue (.vaddInteger f) c s → GivesElems (.vaddInteger f) f c s (latOf c f.t) fun _ _ a b _ => fit (v a + v b)) ∧
    (MayIssue (.vsubInteger f) c s → GivesElems (.vsubInteger f) f c s (latOf c f.t) fun _ _ a b _ => fit (v a - v b)) ∧
    (MayIssue (.vmulInteger f) c s → GivesElems (.vmulInteger f) f c s (latOf c f.t) fun _ _ a b _ => fit (v a * v b)) ∧
    (MayIssue (.vmulhi f) c s → GivesElems (.vmulhi f) f c s (latOf c f.t) fun _ _ a b _ =>
      (((BitVec.ofInt (2 * typeBits f.t) (v a * v b)).extractLsb' (typeBits f.t) (typeBits f.t)).toNat, 0)) ∧
    (MayIssue (.vmad f) c s → GivesElems (.vmad f) f c s (latOf c f.t) fun _ _ a b d => fit (v a * v b + v d)) ∧
    (MayIssue (.vminInteger f) c s → GivesElems (.vminInteger f) f c s (latOf c f.t) fun _ _ a b _ => fit (min (v a) (v b))) ∧
    (MayIssue (.vmaxInteger f) c s → GivesElems (.vmaxInteger f) f c s (latOf c f.t) fun _ _ a b _ => fit (max (v a) (v b))) ∧
    (MayIssue (.vabsInteger f) c s → GivesElems (.vabsInteger f) f c s (latOf c f.t) fun _ _ a _ _ => fit |v a|) ∧
    (MayIssue (.vnegInteger f) c s → GivesElems (.vnegInteger f) f c s (latOf c f.t) fun _ _ a _ _ => fit (-v a)) ∧
    (MayIssue (.vdiv f) c s → GivesElems (.vdiv f) f c s (latOf c f.t) fun _ _ a b _ =>
      if v b = 0 then (2 ^ 32 - 1, stIdz) else fit ((v a).tdiv (v b))) ∧
    (MayIssue (.vrem f) c s → GivesElems (.vrem f) f c s (latOf c f.t) fun _ _ a b _ =>
      if v b = 0 then (a, stIdz) else ((BitVec.ofInt 32 ((v a).tmod (v b))).toNat, 0))) ∧
  (∀ (f : VFmt) c s,
    let L := latOf c f.t
    (MayIssue (.vand f) c s → GivesElems (.vand f) f c s L fun _ _ a b _ => onBits f.t (fun x y => x &&& y) a b) ∧
    (MayIssue (.vor f) c s → GivesElems (.vor f) f c s L fun _ _ a b _ => onBits f.t (fun x y => x ||| y) a b) ∧
    (MayIssue (.vxor f) c s → GivesElems (.vxor f) f c s L fun _ _ a b _ => onBits f.t (fun x y => x ^^^ y) a b) ∧
    (MayIssue (.vandn f) c s → GivesElems (.vandn f) f c s L fun _ _ a b _ => onBits f.t (fun x y => x &&& ~~~ y) a b) ∧
    (MayIssue (.vshl f) c s → GivesElems (.vshl f) f c s L fun _ _ a b _ => onBits f.t (fun x _ => x <<< b) a 0) ∧
    (MayIssue (.vshr f) c s → GivesElems (.vshr f) f c s L fun _ _ a b _ => onBits f.t (fun x _ => shiftRightOf f.t x b) a 0) ∧
    (MayIssue (.vmov f) c s → GivesElems (.vmov f) f c s L fun _ _ a _ _ => (a, 0)) ∧
    (MayIssue (.vclz f) c s → GivesElems (.vclz f) f c s L fun _ _ a _ _ => (clz32 a, 0)) ∧
    (MayIssue (.vpopc f) c s → GivesElems (.vpopc f) f c s L fun _ _ a _ _ => (popc32 a, 0)) ∧
    (MayIssue (.vbrev f) c s → GivesElems (.vbrev f) f c s L fun _ _ a _ _ => (brev32 a, 0))) ∧
  (∀ (f : VFmt) c s,
    let p := f.func.toNat % 32
    let b := f.func.toNat / 32 % 64
    (MayIssue (.vbfx f) c s → GivesV (.vbfx f) f c s fun l =>
      let x := (BitVec.ofNat 32 (c.env.va f l)).extractLsb' p b
      (if f.t = 0 then (x.signExtend 32).toNat else (x.setWidth 32).toNat, 0)) ∧
    (MayIssue (.vbfi f) c s → ∃ g, GivesV (.vbfi f) f c s g ∧ ∀ l, (g l).1 < 2 ^ 32 ∧ (g l).2 = 0 ∧ ∀ k < 32,
      (g l).1.testBit k = if p ≤ k ∧ k < p + b then (c.env.va f l).testBit (k - p) else (c.env.vb f l).testBit k) ∧
    (MayIssue (.vdot4 f) c s → GivesV (.vdot4 f) f c s fun l =>
      let prod := fun k => intVal f.t (elemGet f.t (c.env.va f l) k) * intVal f.t (elemGet f.t (c.env.vb f l) k)
      fitInt (f.t - 4) (f.sat = 1) (intVal (f.t - 4) (c.env.vc f l) + ∑ k ∈ Finset.range (usedOf f.t f.count), prod k)) ∧
    (MayIssue (.vlaneid f) c s → GivesV (.vlaneid f) f c s fun l => (l, 0)) ∧
    (MayIssue (.vsel f) c s → GivesV (.vsel f) f c s fun l =>
      (if (c.env.pred (f.func.toNat % 8)).getLsbD l then c.env.va f l else c.env.vb f l, 0)))

/-- The rounded float instructions (R55, R83, R86): each used element is the exact result of the decoded operands, rounded once in the mode
of the instruction. The float instructions that select or change bits: a NaN becomes the canonical NaN and sets nan (R84 to R86). Each
encoding has one class, and it is that of its value (R47, R86). What rounding to a wide format gives (R45, R55, R68, R83): a representable
value stands, exact, in every mode; any other magnitude goes to one of its two neighbours, as the mode says, or overflows as IEEE 754 has
it. Where the manual leaves more than one reading, the clauses rest on the model's readings in log 32, 33, 34 and 106. -/
def Obligations.VectorFloatResults : Prop :=
  (∀ (f : VFmt) c s,
    let w := wideOf f.t
    let v := w.decode
    let r := fun l k => c.env.mode f.round l (usedOf f.t f.count) k
    let rd := fun l k => (r l k).isRd
    (MayIssue (.vaddFloat f) c s → GivesElems (.vaddFloat f) f c s 6 fun l k a b _ =>
      roundWide w (r l k) [v a, v b] ((v a).add (rd l k) (v b))) ∧
    (MayIssue (.vsubFloat f) c s → GivesElems (.vsubFloat f) f c s 6 fun l k a b _ =>
      roundWide w (r l k) [v a, v b] ((v a).add (rd l k) (v b).neg)) ∧
    (MayIssue (.vmulFloat f) c s → GivesElems (.vmulFloat f) f c s 6 fun l k a b _ =>
      roundWide w (r l k) [v a, v b] ((v a).mul (v b))) ∧
    (MayIssue (.vfma f) c s → GivesElems (.vfma f) f c s 6 fun l k a b d =>
      roundWide w (r l k) [v a, v b, v d] (((v a).mul (v b)).add (rd l k) (v d))) ∧
    (MayIssue (.vfms f) c s → GivesElems (.vfms f) f c s 6 fun l k a b d =>
      roundWide w (r l k) [v a, v b, v d] (((v a).mul (v b)).add (rd l k) (v d).neg)) ∧
    (MayIssue (.vfnma f) c s → GivesElems (.vfnma f) f c s 6 fun l k a b d =>
      roundWide w (r l k) [v a, v b, v d] (((v a).mul (v b)).neg.add (rd l k) (v d))) ∧
    (MayIssue (.vfrint f) c s → GivesElems (.vfrint f) f c s 6 fun l k a _ _ =>
      ((w.encode .rne (integral (r l k) (v a)).1).1,
        (w.encode .rne (integral (r l k) (v a)).1).2 ||| (if (integral (r l k) (v a)).2 then stInx else 0))) ∧
    (MayIssue (.vfscale f) c s → ∃ g, GivesV (.vfscale f) f c s g ∧ ∀ l,
      let z := roundWide w (c.env.mode f.round l 1 0) [v (elemGet f.t (c.env.va f l) 0)]
        (scaleVal (v (elemGet f.t (c.env.va f l) 0)) (BitVec.ofNat 32 (c.env.vb f l)).toInt)
      elemGet f.t (g l).1 0 = z.1 % 2 ^ elemBits f.t ∧ (g l).2 = z.2) ∧
    (MayIssue (.vfdot2 f) c s → GivesV (.vfdot2 f) f c s fun l =>
      let x := fun k => v (elemGet f.t (c.env.va f l) k)
      let y := fun k => v (elemGet f.t (c.env.vb f l) k)
      let z := f32.decode (c.env.vc f l)
      if usedOf f.t f.count = 1 then roundWide f32 (r l 0) [z, x 0, y 0] (z.add (rd l 0) ((x 0).mul (y 0)))
      else roundWide f32 (r l 0) [z, x 0, y 0, x 1, y 1] ((z.add (rd l 0) ((x 0).mul (y 0))).add (rd l 0) ((x 1).mul (y 1))))) ∧
  (∀ (f : VFmt) c s,
    let w := wideOf f.t
    let out := fun x => if (w.decode x).isNan then (w.nanCode, stNan) else (x, 0)
    (MayIssue (.vminFloat f) c s → GivesElems (.vminFloat f) f c s 6 fun _ _ a b _ => out (if keyOf w a ≤ keyOf w b then a else b)) ∧
    (MayIssue (.vmaxFloat f) c s → GivesElems (.vmaxFloat f) f c s 6 fun _ _ a b _ => out (if keyOf w a ≤ keyOf w b then b else a)) ∧
    (MayIssue (.vabsFloat f) c s → GivesElems (.vabsFloat f) f c s 6 fun _ _ a _ _ => out (a % w.signBit)) ∧
    (MayIssue (.vnegFloat f) c s → GivesElems (.vnegFloat f) f c s 6 fun _ _ a _ _ => out (a ^^^ w.signBit)) ∧
    (MayIssue (.vfcopysign f) c s → GivesElems (.vfcopysign f) f c s 6 fun _ _ a b _ =>
      out (a % w.signBit + b / w.signBit % 2 * w.signBit)) ∧
    (MayIssue (.vfclass f) c s → GivesV (.vfclass f) f c s fun l =>
      (2 ^ floatClass w (elemGet f.t (c.env.va f l) 0), 0))) ∧
  (∀ w ∈ [f32, bf16, f16, f24], ∀ x < 2 * w.signBit,
    let neg := w.signBit ≤ x
    let k := floatClass w x
    (w.decode x = .nan ↔ k = 0 ∨ k = 9) ∧
    (w.decode x = .inf true ↔ k = 1) ∧ (w.decode x = .inf false ↔ k = 8) ∧
    ((w.decode x).isZero = true ↔ k = 4 ∨ k = 5) ∧ (neg ↔ k ≤ 4) ∧ k ≤ 9 ∧
    ((k = 3 ∨ k = 6) ↔ 0 < x % w.signBit ∧ x % w.signBit < 2 ^ w.mb)) ∧
  (∀ w ∈ [f32, bf16, f16, f24], ∀ r : Rnd,
    w.encode r .nan = (w.nanCode, stNan) ∧
    (∀ n : Bool, w.encode r (.inf n) = ((if n then w.signBit else 0) + w.infCode, 0)) ∧
    (∀ x < 2 * w.signBit, x % w.signBit < w.infCode → w.encode r (w.decode x) = (x, 0)) ∧
    ∀ (neg : Bool) m e, ∃ a d c, RoundsTo w.grid.mag r neg (magnitude m e) a d c ∧
      let z := w.encode r (.fin neg m e)
      z.1 = (if neg then w.signBit else 0) + (if c < w.infCode then c
        else match r with
          | .rz => w.infCode - 1
          | .rd => if neg then w.infCode else w.infCode - 1
          | .ru => if neg then w.infCode - 1 else w.infCode
          | _ => w.infCode) ∧
      (w.infCode ≤ c → z.2 = stOvf ||| stInx) ∧
      (c < w.infCode → ∃ u : Bool, z.2 = stIf (decide (d ≠ 0)) stInx ||| stIf u stUnf ∧ (u = true ↔ d ≠ 0 ∧ TinyOn w.grid r neg m e)))

/-- VCMP on integers and floats, and VQOP (R78, R85): only active lanes' bits of the predicate change. Where the manual leaves more than one
reading, the clauses rest on the model's readings in log 106. -/
def Obligations.PredicateResults : Prop :=
  ∀ (f : VFmt) c s,
    let code := f.func.toNat % 8
    let w := wideOf f.t
    let a := fun l => elemGet f.t (c.env.va f l) 0
    let b := fun l => elemGet f.t (c.env.vb f l) 0
    (MayIssue (.vcmpInteger f) c s → GivesPred (.vcmpInteger f) f c s fun l =>
      relHolds code (intVal f.t (c.env.va f l)) (intVal f.t (c.env.vb f l))) ∧
    (MayIssue (.vcmpFloat f) c s → GivesPred (.vcmpFloat f) f c s fun l =>
      if code = 6 then (w.decode (a l)).isNan || (w.decode (b l)).isNan
      else relHolds code (keyOf w (a l)) (keyOf w (b l))) ∧
    (MayIssue (.vqop f) c s → GivesPred (.vqop f) f c s fun l =>
      predOp code ((c.env.pred (fIdx f.sa)).getLsbD l) ((c.env.pred (fIdx f.sb)).getLsbD l))

/-- The special functions (R87, R88): each used element is the function of the decoded operand, rounded once; the result lands 12 cycles
after issue, 13 in a 64-lane warp, and with no active lane the flag completes after 6 (R62; log 106). The value before rounding is exact
where it is representable and otherwise the model's stand-in (log 9). The values that R88 fixes exactly. -/
def Obligations.SpecialFunctionResults : Prop :=
  (∀ (f : VFmt) c s,
    let lat := if c.warp.width = 64 then 13 else 12
    let E := fun (op : SpecOp) (l k a _b _d : Nat) =>
      let z := (wideOf f.t).encode (c.env.mode f.round l 1 k) (specEval op ((wideOf f.t).decode a)).1
      (z.1, (specEval op ((wideOf f.t).decode a)).2 ||| z.2)
    (MayIssue (.vrcp f) c s → GivesElems (.vrcp f) f c s lat (E .rcp)) ∧
    (MayIssue (.vrsqrt f) c s → GivesElems (.vrsqrt f) f c s lat (E .rsqrt)) ∧
    (MayIssue (.vsqrt f) c s → GivesElems (.vsqrt f) f c s lat (E .sqrt)) ∧
    (MayIssue (.vexp2 f) c s → GivesElems (.vexp2 f) f c s lat (E .exp2)) ∧
    (MayIssue (.vlog2 f) c s → GivesElems (.vlog2 f) f c s lat (E .log2)) ∧
    (MayIssue (.vsin f) c s → GivesElems (.vsin f) f c s lat (E .sin)) ∧
    (MayIssue (.vcos f) c s → GivesElems (.vcos f) f c s lat (E .cos)) ∧
    (MayIssue (.vtanh f) c s → GivesElems (.vtanh f) f c s lat (E .tanh))) ∧
  ((∀ op, specEval op .nan = (.nan, 0)) ∧
  (∀ n, specEval .rcp (.inf n) = (.fin n 0 0, 0)) ∧ (∀ n e, specEval .rcp (.fin n 0 e) = (.inf n, stDz)) ∧
  (∀ m e, m ≠ 0 → specEval .rsqrt (.fin true m e) = (.nan, stInv) ∧ specEval .sqrt (.fin true m e) = (.nan, stInv) ∧
    specEval .log2 (.fin true m e) = (.nan, stInv)) ∧
  (∀ n e, specEval .log2 (.fin n 0 e) = (.inf true, stDz) ∧ specEval .sqrt (.fin n 0 e) = (.fin n 0 0, 0) ∧
    specEval .exp2 (.fin n 0 e) = (.fin false 1 0, 0) ∧ specEval .tanh (.fin n 0 e) = (.fin n 0 0, 0)) ∧
  (∀ n, specEval .sin (.inf n) = (.nan, stInv) ∧ specEval .cos (.inf n) = (.nan, stInv) ∧ specEval .tanh (.inf n) = (.fin n 1 0, 0)) ∧
  (∀ n e, specEval .rsqrt (.fin n 0 e) = (.inf n, stDz)) ∧
  specEval .rsqrt (.inf false) = (.fin false 0 0, 0) ∧ specEval .rsqrt (.inf true) = (.nan, stInv) ∧
  specEval .sqrt (.inf false) = (.inf false, 0) ∧ specEval .sqrt (.inf true) = (.nan, stInv) ∧
  specEval .log2 (.inf false) = (.inf false, 0) ∧ specEval .log2 (.inf true) = (.nan, stInv) ∧
  specEval .exp2 (.inf false) = (.inf false, 0) ∧ specEval .exp2 (.inf true) = (.fin false 0 0, 0) ∧
  (∀ (n : Bool) m e, (∃ k : Nat, magnitude m e = k / 2) → specEval .sin (.fin n m e) = (.fin n 0 0, 0)) ∧
  (∀ (n : Bool) m e, (∃ k : Nat, magnitude m e = k + 1 / 4 ∨ magnitude m e = k + 3 / 4) → specEval .cos (.fin n m e) = (.fin false 0 0, 0)) ∧
  (∀ k : Nat, k ≤ 4096 → specEval .exp2 (.fin false k 0) = (.fin false 1 k, 0)) ∧
  (∀ (k : Nat) (e : Int), specEval .log2 (.fin false (2 ^ k) e) = (.fin (decide (e + k < 0)) (e + k).natAbs 0, 0)))

/-- VCVT (R90, R91), VQBLK (R92, R93) and VQCVT (R96). With no active lane VQBLK and VQCVT write nothing and take 6 cycles (R62; log 106),
and a NaN operand of VQCVT is an outlier whatever THR holds (log 107). What a conversion to a narrow format or an integer gives (R49 to R51,
R55, R70): the exact value rounded to the target's grid with its codes going on upward, then what R50's table says of an overflow, an
infinity and a NaN; integers are clamped. Where the manual leaves more than one reading, the clauses rest on the model's readings in log 35
and 36. -/
def Obligations.ConversionResults : Prop :=
  (∀ (f : VFmt) c s,
    let m := c.env.active f.guard
    let cvt := fun l n k x => elemEnc f.t f.dstTag c.env.fp8sat (c.env.mode f.round l n k) (elemVal f.srcType f.srcTag x)
    let ps := packOf f.srcType
    let pd := packOf f.t
    (MayIssue (.vcvt f) c s → ∃ g, GivesV (.vcvt f) f c s g ∧ ∀ l,
      let a := c.env.va f l
      (pd = ps → ∀ k < pd, elemGet f.t (g l).1 k =
        if k < usedOf f.t f.count then (cvt l (usedOf f.t f.count) k (elemGet f.srcType a k)).1 % 2 ^ elemBits f.t else elemGet f.t a k) ∧
      (ps < pd → ∀ k < pd,
        let n := if f.count = 0 then 2 * ps else f.count
        let j := k - 2 * ps * f.sat.toNat
        elemGet f.t (g l).1 k =
          if 2 * ps * f.sat.toNat ≤ k ∧ j < n then
            (cvt l n j (if j < ps then elemGet f.srcType a j else elemGet f.srcType (c.env.vb f l) (j - ps))).1 % 2 ^ elemBits f.t
          else elemGet f.t (c.env.vc f l) k) ∧
      (pd < ps → ∀ k < pd, elemGet f.t (g l).1 k =
        (cvt l pd k (elemGet f.srcType a (pd * f.count + k))).1 % 2 ^ elemBits f.t) ∧
      ∀ b, (g l).2.getLsbD b = true ↔ ∃ k < pd,
        (pd = ps ∧ k < usedOf f.t f.count ∧ (cvt l (usedOf f.t f.count) k (elemGet f.srcType a k)).2.getLsbD b = true) ∨
        (ps < pd ∧ 2 * ps * f.sat.toNat ≤ k ∧
          let n := if f.count = 0 then 2 * ps else f.count
          let j := k - 2 * ps * f.sat.toNat
          j < n ∧ (cvt l n j (if j < ps then elemGet f.srcType a j else elemGet f.srcType (c.env.vb f l) (j - ps))).2.getLsbD b = true) ∨
        (pd < ps ∧ (cvt l pd k (elemGet f.srcType a (pd * f.count + k))).2.getLsbD b = true)) ∧
    (MayIssue (.vqblk f) c s →
      let k := if f.blkFour then narrow4 f.dstTag else narrow8 f.dstTag
      let blk := fun l => quantBlock k f.dstTag (f.func.getLsbD 11) (c.env.mode f.round l 24 0) (blockVals c.env f f.blkCount l)
      let n := if f.blkFour then 4 else 7
      GivesWrites (.vqblk f) c s (latIn false m (if c.warp.width = 64 then 11 else 10))
        (if m = 0 then [] else (List.range n).map fun j => .vec (c.env.phys (dIdx f.dst + j)) m
          (laneWords c m fun l => (blockRegsOf f (blk l).1 (blk l).2.1).getD j 0))
        (stickyOf c false m fun l => (blk l).2.2) none) ∧
    (MayIssue (.vqcvt f) c s →
      let a := fun l => (c.env.src f.sa f.uniA l).toNat
      let out := fun l => m.getLsbD l && ((f32.decode (a l)).isNan || keyOf f32 c.env.thr.toNat < keyOf f32 (a l % 2 ^ 31))
      let side := ((List.range c.warp.width).filter out).map fun l => (bf16.encode .rne (f32.decode (a l))).1
      let h := f.func.toNat / 256 % 8
      ∃ vals bits st, GivesWrites (.vqcvt f) c s (latIn false m (if c.warp.width = 64 then 9 else 8))
          (if m = 0 then [] else
          [.vec (c.env.phys (dIdx f.dst)) m (laneWords c m vals),
           .vec (c.env.phys (fIdx f.sb)) (lowMask c.warp.width)
             ((List.range c.warp.width).map fun l => BitVec.ofNat 32 (side.getD (2 * l) 0 + 2 ^ 16 * side.getD (2 * l + 1) 0)),
           .pred (f.func.toNat / 16 % 8) m bits]) st none ∧
        (∀ l, m.getLsbD l = true → bits.getLsbD l = out l) ∧
        (∀ b, st.getLsbD b = true ↔ ∃ l < c.warp.width, m.getLsbD l = true ∧
          ((out l = false ∧ (elemEnc f.t f.dstTag c.env.fp8sat (c.env.mode f.round l 1 0) (f32.decode (a l))).2.getLsbD b = true) ∨
            (out l = true ∧ (bf16.encode .rne (f32.decode (a l))).2.getLsbD b = true))) ∧
        ∀ l, m.getLsbD l = true → ∀ k < pd, elemGet f.t (vals l) k =
          if k ≠ h then elemGet f.t (c.env.src f.sc f.uniC l).toNat k
          else if out l then 0 else (elemEnc f.t f.dstTag c.env.fp8sat (c.env.mode f.round l 1 0) (f32.decode (a l))).1 % 2 ^ elemBits f.t)) ∧
  ((∀ k ∈ [Narrow.e4m3, .e5m2, .e3m4, .e2m1, .e1m2, .e3m0], ∀ sat (r : Rnd),
    let hi := if k.bits = 8 then 128 else 8
    let keeps := k = .e4m3 ∨ k = .e5m2
    let nan := if k = .e4m3 then 0x7F else if k = .e5m2 then 0x7E else 0
    k.encode sat r .nan = (nan, if keeps then stNan else stInv) ∧
    (∀ n : Bool, k.encode sat r (.inf n) =
      if sat = false ∧ k = .e4m3 then (0x7F, stNv8 ||| stNan)
      else if sat = false ∧ k = .e5m2 then ((if n then hi else 0) + 0x7C, 0)
      else ((if n then hi else 0) + k.maxCode, stSat8)) ∧
    ∀ (neg : Bool) m e, ∃ a d c, RoundsTo (if k = .e3m0 then e3m0Mag else k.grid.mag) r neg (magnitude m e) a d c ∧
      let z := k.encode sat r (.fin neg m e)
      (k.maxCode < c → z = if sat = false ∧ keeps then (nan, stNv8 ||| stNan ||| stInx) else ((if neg then hi else 0) + k.maxCode, stSat8 ||| stInx)) ∧
      (c ≤ k.maxCode → z.1 = (if c = 0 ∧ k.bits = 4 then 0 else (if neg then hi else 0) + c) ∧
        ∃ u : Bool, z.2 = stIf (decide (d ≠ 0)) stInx ||| stIf u stUnf ∧
          (u = true ↔ d ≠ 0 ∧ (if k = .e3m0 then magnitude m e < 1 / 4 ∧
            (magnitude m e < 1 / 8 ∨ chosenCode r neg 0 (8 * magnitude m e - 1) = 0) else TinyOn k.grid r neg m e)))) ∧
  (∀ (n : Nat) (signed : Bool) (r : Rnd), 0 < n →
    let hi : Int := if signed then 2 ^ (n - 1) - 1 else 2 ^ n - 1
    let lo : Int := if signed then -(2 ^ (n - 1)) else 0
    let code := fun (i : Int) => (BitVec.ofInt n (max lo (min hi i))).toNat
    let out := fun (st : Word) (i : Int) => if lo ≤ i ∧ i ≤ hi then (0 : Word) else st
    toIntBits n signed r .nan = (0, stInv) ∧
    (∀ neg : Bool, toIntBits n signed r (.inf neg) = (code (if neg then lo else hi), stIsat)) ∧
    (∀ (neg : Bool) m e, ∃ a d c, RoundsTo (fun k => (k : ℚ)) r neg (magnitude m e) a d c ∧
      let i : Int := if neg then -c else c
      toIntBits n signed r (.fin neg m e) = (code i, out stIsat i ||| stIf (decide (d ≠ 0)) stInx)) ∧
    ∀ k ∈ [Narrow.int8, .int4], k.bits = n → signed = true → ∀ sat, k.encode sat r .nan = (0, stInv) ∧
      (∀ neg : Bool, k.encode sat r (.inf neg) = (code (if neg then lo else hi), stSat8)) ∧
      ∀ (neg : Bool) m e, ∃ a d c, RoundsTo (fun k => (k : ℚ)) r neg (magnitude m e) a d c ∧
        let i : Int := if neg then -c else c
        k.encode sat r (.fin neg m e) = (code i, out stSat8 i ||| stIf (decide (d ≠ 0)) stInx)))

/-- VSHFL, VPSWAP and VBCAST (R98 to R100): all lanes read A as it stood at issue. VVOTE, VSCAN and VRED (R101 to R103). With no active lane
a vector result is not written (R62; log 106). -/
def Obligations.CrossLaneResults : Prop :=
  (∀ (f : VFmt) c s,
    let a := fun l => (c.env.src f.sa f.uniA l).toNat
    let on := activeIn c f
    (MayIssue (.vshfl f) c s → GivesV (.vshfl f) f c s fun l =>
      let k := f.func.toNat / 64
      let from_ := match f.func.toNat % 8 with
        | 0 => (c.env.src f.sb f.uniB l).toNat % c.warp.width
        | 1 => if l < k then l else l - k
        | 2 => if c.warp.width ≤ l + k then l else l + k
        | _ => l ^^^ k
      (if on from_ then a from_ else a l, 0)) ∧
    (MayIssue (.vpswap f) c s → f.func.toNat % 4 = 0 → GivesV (.vpswap f) f c s fun l =>
      (if on (l ^^^ 1) then a (l ^^^ 1) else a l, 0)) ∧
    (MayIssue (.vpswap f) c s → f.func.toNat % 4 = 2 → GivesV (.vpswap f) f c s fun l =>
      if on (l ^^^ 1) = false then (a l, 0)
      else if l % 2 = 1 then (a (l ^^^ 1), 0)
      else if (f32.decode (a (l ^^^ 1))).isNan then (f32.nanCode, stNan) else (a (l ^^^ 1) ^^^ 2 ^ 31, 0)) ∧
    (MayIssue (.vpswap f) c s → f.func.toNat % 2 = 1 → ∃ g, GivesV (.vpswap f) f c s g ∧ ∀ l,
      let w := wideOf f.t
      let hi := elemGet f.t (a l) 1
      let neg := f.func.toNat % 4 = 3
      elemGet f.t (g l).1 1 = elemGet f.t (a l) 0 ∧
      elemGet f.t (g l).1 0 = (if neg then (if (w.decode hi).isNan then w.nanCode else hi ^^^ 2 ^ 15) else hi) ∧
      (g l).2 = if neg ∧ (w.decode hi).isNan then stNan else 0) ∧
    (MayIssue (.vbcast f) c s →
      let k := f.func.toNat % 64
      Gives (.vbcast f) c s f.dst f.isScalar false (c.env.active f.guard) 6 fun l =>
        (if on k then a k else if f.isScalar then 0 else a l, 0))) ∧
  (∀ (f : VFmt) c s,
    let m := c.env.active f.guard
    let op := f.func.toNat / 2 % 8
    let r := c.env.mode f.round 0 1 0
    (MayIssue (.vvote f) c s →
      let q := c.env.pred (fIdx f.sa)
      let v := match f.func.toNat % 4 with
        | 0 => (q &&& m).toNat
        | 1 => if q &&& m = 0 then 0 else 1
        | 2 => if m &&& ~~~ q = 0 then 1 else 0
        | _ => ((Finset.range 64).filter fun l => m.getLsbD l = true ∧ q.getLsbD l = true).card
      if c.warp.width = 64 ∧ f.func.toNat % 4 = 0 then
        GivesWrites (.vvote f) c s 6 [.sca (dIdx f.dst) (BitVec.ofNat 32 v), .sca (dIdx f.dst + 1) (BitVec.ofNat 32 (v / 2 ^ 32))] 0 none
      else Gives (.vvote f) c s f.dst true false m 6 fun _ => (v, 0)) ∧
    (MayIssue (.vscan f) c s → ∃ g st, GivesWrites (.vscan f) c s 6
        (if dNowb f.dst = true ∨ m = 0 then [] else [.vec (c.env.phys (dIdx f.dst)) m (laneWords c m g)]) st (some (true, laneWords c m g)) ∧
      st = (foldElems f.t op r (activeElems c f c.warp.width)).2 ∧
      ∀ l < c.warp.width, activeIn c f l = true →
        elemGet f.t (g l) 0 = (if f.func.getLsbD 0 = false then (foldElems f.t op r (activeElems c f (l + 1))).1
          else if activeElems c f l = [] then identityOut f.t op
          else (foldElems f.t op r (activeElems c f l)).1) % 2 ^ elemBits f.t) ∧
    (MayIssue (.vred f) c s → c.warp.width ∈ [16, 32, 64] →
      let n := if c.warp.width = 16 then 4 else if c.warp.width = 32 then 5 else 6
      let z := reduceTree f.t op r (fun l => if activeIn c f l then some (elemGet f.t (laneA c.env f l) 0) else none) n 0
      let x := elemPut f.t 0 (z.1.getD (identityOut f.t op))
      GivesWrites (.vred f) c s 6
        (if dNowb f.dst then [] else if f.isScalar then [.sca (dIdx f.dst) (BitVec.ofNat 32 x)]
          else if m = 0 then [] else [.vec (c.env.phys (dIdx f.dst)) m (laneWords c m fun _ => x)]) z.2
        (some (!f.isScalar, if f.isScalar then [BitVec.ofNat 32 x] else laneWords c m fun _ => x))))

/-- On integers the tree of VRED is the fold over the active lanes, whatever its shape: addition wraps, and the other operations are
associative (R103). -/
def Obligations.IntegerReductionIsFold : Prop :=
  ∀ (c : Issuer) (f : VFmt) n, f.t = 0 ∨ f.t = 1 → f.func.toNat / 2 % 8 ≤ 5 → n ≤ 6 →
    let op := f.func.toNat / 2 % 8
    (reduceTree f.t op .rne (fun l => if activeIn c f l then some (elemGet f.t (laneA c.env f l) 0) else none) n 0).1.getD
        (identityOf f.t op) = (foldElems f.t op .rne (activeElems c f (2 ^ n))).1

/-! ## Memory -/

/-- LD: its registers are written when its bytes are there; nothing in memory changes, unless the read of a scratchpad corrects an ECC
error, of which the error log takes a record (R344). From a scratchpad the bytes are read at issue and the operation completes after the
space's latency (R137, R210, R211); from memory one request goes to each place that holds a byte which the group has not buffered (R137,
R140). Where the manual leaves more than one reading, the clauses rest on the model's readings in log 11. -/
def Obligations.LoadsIssue : Prop :=
  ∀ (f : MFmt) c s l, MayIssue (.ld f) c s → pieces (.ld f) f .read c s = .ok l →
    ∃ t q, exec (.ld f) s = .next t ∧ OwnWarp (.ld f) c s t q ∧ OtherWarps c s t ∧ (s.soft = [] ∨ 3 ≤ f.space.toNat → t.mem = s.mem) ∧
      t.groups = s.groups ∧ q.items = ldItems c.env f ∧ q.writes = [] ∧
      (f.space.toNat < 3 → q.kind = .long ∧ q.due = s.cycle + delayOf f.space.toNat l ∧ q.got = (scratchGot s c.grp l).1) ∧
      (3 ≤ f.space.toNat → q.kind = .load ∧
        q.left = ((unitsIn l).filter fun u => (l.filter (·.unit = u)).any fun x => spotPieces c.grp x ≠ []).length ∧
        (∀ u ∈ unitsIn l, let ps := (l.filter (·.unit = u)).flatMap (spotPieces c.grp)
          ps ≠ [] → ∃ r ∈ (t.place u).queue, r.gid = c.ref.gid ∧ r.wid = c.ref.wid ∧ r.pid = q.id ∧ r.pieces = ps) ∧
        (∀ u, (∀ r ∈ (s.place u).queue, r ∈ (t.place u).queue) ∧
          ∀ r ∈ (t.place u).queue, r ∈ (s.place u).queue ∨ (r.gid = c.ref.gid ∧ r.pid = q.id ∧ r.pieces ≠ []))) ∧
      (∀ pre x post, l = pre ++ x :: post → ∀ k < x.n, let at_ := 256 * x.lane + x.off + k
        (∀ y ∈ post, at_ < 256 * y.lane + y.off ∨ 256 * y.lane + y.off + y.n ≤ at_) →
        (f.space.toNat < 3 → fget 0 at_ q.got = (s.scratchBytes c.grp x).bytes.getD k 0) ∧
        (3 ≤ f.space.toNat → ∀ b, flook (x.key + k) c.grp.sbuf = some b → fget 0 at_ q.got = b.val)) ∧
      (∀ y, y ∈ ldItems c.env f ↔ ∃ lane ∈ mLanes c.env f,
        if mBlock f then ∃ i < extent f.height, ∃ j < extent f.width,
          y = { key := 256 * lane + 4 * (extent f.width * i + j), n := 4, reg := c.env.phys (dIdx f.data + 16 * i + j), lane := lane }
        else ∃ k < sizeRegs f.size.toNat,
          y = { key := 256 * lane + 4 * k, n := min 4 (mSize f), sx := f.mode.getLsbD 0, scalar := mSca f,
                reg := if mSca f then dIdx f.data + k else c.env.phys (dIdx f.data + k), lane := lane }) ∧
      (∀ y ∈ ldItems c.env f, ∀ got : FMap Byte,
        let n := bytesNat ((List.range y.n).map fun i => fget 0 (y.key + i) got)
        y.value got = if f.mode.getLsbD 0 = true ∧ mBlock f = false then (BitVec.ofNat (8 * y.n) n).signExtend 32 else BitVec.ofNat 32 n)

/-- ST: the bytes of a scratchpad store are in their bank, those of a later lane over an earlier one's, the bench words are valid, and every
other byte of memory stands (R138, R143). ST to memory: the bytes enter the group's store buffer, over older ones, and no byte of memory
changes (R138, R347). Its flag completes after one cycle, with no lane that stores after six (R62; log 106). Where the manual leaves more
than one reading, the clauses rest on the model's readings in log 47. -/
def Obligations.StoresBufferOrWrite : Prop :=
  (∀ (f : MFmt) c s l, MayIssue (.st f) c s → Memory.wf s.mem = true → f.space.toNat < 3 → c.task.redundant = false →
    pieces (.st f) f .write c s = .ok l →
    ∃ t q, exec (.st f) s = .next t ∧ (∃ w, t.warp? c.ref.gid c.ref.wid = some w ∧ q ∈ w.pend ∧ w.vregs = c.warp.vregs ∧
        w.sregs = c.warp.sregs ∧ w.preds = c.warp.preds) ∧
      q.kind = .store f.space.toNat ∧ q.due = s.cycle + delayOf f.space.toNat l ∧ q.flag = postFlag f.post ∧
      (∀ a, (∀ x ∈ l, x.holds a = false ∧ x.validates a = false) → rdByte t.mem a = rdByte s.mem a) ∧
      (∀ x ∈ l, keyRegion x.key = 4 → ∀ w ∈ benchWords x.key x.n, (∀ y ∈ l, y.holds (validKey (benchCore x.key) w) = false) →
        t.isValid (benchCore x.key) w = true) ∧
      (∀ pre x post, l = pre ++ x :: post → ∀ k < x.n, (∀ y ∈ post, y.holds (x.key + k) = false) →
        rdByte t.mem (x.key + k) = (stBytes c.env f x.lane).getD (x.off + k) 0)) ∧
  (∀ (f : MFmt) c s l, MayIssue (.st f) c s → 3 ≤ f.space.toNat → c.task.redundant = false → pieces (.st f) f .write c s = .ok l →
    (∀ x ∈ l, keyRegion x.key < 4) →
    ∃ t q g, exec (.st f) s = .next t ∧ OwnWarp (.st f) c s t q ∧ OtherWarps c s t ∧ t.mem = s.mem ∧
      q.kind = .store f.space.toNat ∧ q.due = s.cycle + (if mLanes c.env f = [] then 6 else 1) ∧ t.group? c.ref.gid = some g ∧
      (∀ pre x post, l = pre ++ x :: post → ∀ k < x.n, (∀ y ∈ post, y.names (x.key + k) = false) →
        let v := (stBytes c.env f x.lane).getD (x.off + k) 0
        (((l.flatMap fun x => (List.range x.n).map fun k => (x.key + k) / 32).foldl (fun a b => sins b a) []).length ≤ 2048 →
          ((flook (x.key + k) g.sbuf).map (·.val)) = some v) ∧
        (c.grp.member ≠ 2 → ((flook (x.key + k) g.sbuf).map (·.val)) = some v ∨
          ∃ e ∈ g.draining, (flook (x.key + k) e.bytes).map (·.val) = some v)) ∧
      (∀ a, (∀ x ∈ l, x.names a = false) → flook a g.sbuf = flook a c.grp.sbuf ∨ flook a g.sbuf = none))

/-- A lane's access that fails a check leaves nothing: LD and ST trap in the state before (R139, R335). A misaligned address in the lowest
lane that accesses traps MISALIGNED with that address in TVAL (R139). Where the manual leaves more than one reading, the clauses rest on the
model's readings in log 53. -/
def Obligations.AccessTrapsArePrecise : Prop :=
  ((∀ (f : MFmt) c s e, MayIssue (.ld f) c s → pieces (.ld f) f .read c s = .error e → exec (.ld f) s = .next (raise s c.ref e)) ∧
  (∀ (f : MFmt) c s e, MayIssue (.st f) c s → pieces (.st f) f .write c s = .error e → exec (.st f) s = .next (raise s c.ref e)) ∧
  (∀ op (f : AFmt) c s e, MayIssue (atomRow op f) c s → atomRefused f c = false → atomPieces op f c s = .error e →
    exec (atomRow op f) s = .next (raise s c.ref e))) ∧
  ((∀ (f : MFmt) c s lane rest, MayIssue (.ld f) c s → f.space.toNat < 4 → mLanes c.env f = lane :: rest →
    mAddr c.env f lane % (mAcc f .read).align ≠ 0 →
    exec (.ld f) s = .next (raise s c.ref { cause := 0x0A, tval := BitVec.ofNat 64 (mAddr c.env f lane), epc := c.split.pc })) ∧
  (∀ (f : MFmt) c s lane rest, MayIssue (.st f) c s → f.space.toNat < 4 → mLanes c.env f = lane :: rest →
    mAddr c.env f lane % (mAcc f .write).align ≠ 0 →
    exec (.st f) s = .next (raise s c.ref { cause := 0x0A, tval := BitVec.ofNat 64 (mAddr c.env f lane), epc := c.split.pc })))

/-- TMOV queues a copy of its length between two aligned places (R142), and BVCLR, BVSET and BVTST act on the valid bits of a range of the
bench (R144): only those valid bits change in memory. Where the manual leaves more than one reading, the clauses rest on the model's
readings in log 106. -/
def Obligations.TileMovesAndValidBits : Prop :=
  (∀ (f : MFmt) c s, MayIssue (.tmov f) c s →
    let src := scaAddr c.env f.base f.space.toNat
    let dst := scaAddr c.env f.data f.mode.toNat
    let len := f.offset.toNat * 16
    src % 16 = 0 → dst % 16 = 0 →
    (f.mode.toNat < 3 → dst + len ≤ (s.alloc c f.mode.toNat).2.1) → (f.space.toNat < 3 → src + len ≤ (s.alloc c f.space.toNat).2.1) →
    ∃ t q e, exec (.tmov f) s = .next t ∧ OwnWarp (.tmov f) c s t q ∧ OtherWarps c s t ∧ t.mem = s.mem ∧
      (t.core c.grp.core).engine = (s.core c.grp.core).engine ++ [e] ∧ q.kind = .store f.mode.toNat ∧ q.left = 1 ∧
      e.kind = .tmov ∧ e.pid = q.id ∧ e.src = f.space.toNat ∧ e.dst = f.mode.toNat ∧ e.srcA = src ∧ e.dstA = dst ∧ e.len = len) ∧
  (∀ (f : MFmt) c s, MayIssue (.tmov f) c s →
    let src := scaAddr c.env f.base f.space.toNat
    let dst := scaAddr c.env f.data f.mode.toNat
    let len := f.offset.toNat * 16
    let outD := f.mode.toNat < 3 ∧ (s.alloc c f.mode.toNat).2.1 < dst + len
    (dst % 16 ≠ 0 → Traps (.tmov f) c s 0x0A dst) ∧
    (dst % 16 = 0 → src % 16 ≠ 0 → Traps (.tmov f) c s 0x0A src) ∧
    (dst % 16 = 0 → src % 16 = 0 → outD → Traps (.tmov f) c s 0x09 dst) ∧
    (dst % 16 = 0 → src % 16 = 0 → ¬ outD → f.space.toNat < 3 → (s.alloc c f.space.toNat).2.1 < src + len →
      Traps (.tmov f) c s 0x09 src)) ∧
  (∀ (f : MFmt) c s (v : Byte), v = 0 ∨ v = 1 →
    let i := if v = 0 then Instr.bvclr f else Instr.bvset f
    let a := mAddr c.env f 0
    let n := (c.env.ssrc f.data).toNat
    let base := (c.grp.benchBase + a) % 2 ^ 19
    MayIssue i c s → Memory.wf s.mem = true → a % 4 = 0 → n % 4 = 0 → (n ≠ 0 → a + n ≤ c.grp.benchSize) →
    c.grp.core < 384 → c.grp.benchBase % 4 = 0 → c.grp.benchBase + c.grp.benchSize ≤ 2 ^ 19 →
    ∃ t q, exec i s = .next t ∧ OwnWarp i c s t q ∧ OtherWarps c s t ∧ q.writes = [] ∧
      q.due = s.cycle + (if c.warp.width = 64 then 9 else 8) ∧
      (∀ w < n / 4, rdByte t.mem (validKey c.grp.core (base / 4 + w)) = v) ∧
      (∀ k, (∀ w < n / 4, k ≠ validKey c.grp.core (base / 4 + w)) → rdByte t.mem k = rdByte s.mem k)) ∧
  (∀ (f : MFmt) c s l, MayIssue (.bvtst f) c s →
    (issued (.bvtst f) c s).allSpots c { mAcc f .read with atomic := true, need := .write }
      ((bitsSet (c.env.active f.guard)).map fun k => (k, mAddr c.env f k)) = .ok l →
    ∃ bits, GivesWrites (.bvtst f) c s (latIn false (c.env.active f.guard) (if c.warp.width = 64 then 9 else 8)) [.pred (dIdx f.data) (c.env.active f.guard) bits] 0 none ∧
      ∀ k, (c.env.active f.guard).getLsbD k = true →
        (bits.getLsbD k = true ↔ ∀ x ∈ l, x.lane = k → keyRegion x.key = 4 →
          ∀ w ∈ benchWords x.key x.n, s.isValid (benchCore x.key) w = true))

/-- What an atomic stores, from the old value and the operands (R145). The float atomics round to nearest and order by totalOrder (R150).
The lanes of an atomic at one place are applied one after another, each to what the lanes before it at the same bytes have left, and each
gets the value before its own operation; of a CAS only the lowest lane at an address compares, and the others get the value that it has left
(R149). On bench, shop and yard, whose bytes no ECC error touches; no other byte changes but valid bits of the bench words. -/
def Obligations.AtomicResultValues : Prop :=
  (∀ size ∈ [4, 8], ∀ old b d : Nat, old < 2 ^ (8 * size) →
    let w := 8 * size
    let x := BitVec.ofNat w old
    let y := BitVec.ofNat w b
    let new := fun op => (atomNew op size old b d).map (BitVec.ofNat w)
    new .add = some (x + y) ∧ new .umin = some (if x ≤ y then x else y) ∧ new .umax = some (if x ≤ y then y else x) ∧
    new .smin = some (if x.sle y then x else y) ∧ new .smax = some (if x.sle y then y else x) ∧
    new .and = some (x &&& y) ∧ new .or = some (x ||| y) ∧ new .xor = some (x ^^^ y) ∧ new .exch = some y ∧ new .st = some y ∧
    new .cas = some (if x = BitVec.ofNat w d then y else x) ∧ new .ld = none) ∧
  (∀ old b d : Nat,
    atomNew .fadd 4 old b d = some (roundWide f32 .rne [f32.decode old, f32.decode b] ((f32.decode old).add false (f32.decode b))).1 ∧
    atomNew .fmin 4 old b d = some (canon f32 (if keyOf f32 old ≤ keyOf f32 b then old else b)).1 ∧
    atomNew .fmax 4 old b d = some (canon f32 (if keyOf f32 old ≤ keyOf f32 b then b else old)).1) ∧
  (∀ (s : State) (g : Group) stamp (a : AtomSpec), Memory.wf s.mem = true → s.poison = [] → s.soft = [] →
    a.size = 4 ∨ a.size = 8 → (a.lanes.map (·.lane)).Nodup →
    (∀ x ∈ a.lanes, 4 ≤ keyRegion x.addr ∧ keyRegion (x.addr + a.size) ≤ 6) →
    (∀ x ∈ a.lanes, ∀ y ∈ a.lanes, x.addr = y.addr ∨ x.addr + a.size ≤ y.addr ∨ y.addr + a.size ≤ x.addr) →
    let r := atomAt s g stamp a
    let old := fun (x : AtomLane) => bytesNat (rdBytes s.mem x.addr a.size)
    let after := fun (ls : List AtomLane) v =>
      (if a.op = .cas then ls.take 1 else ls).foldl (fun v l => (atomNew a.op a.size v l.b l.c).getD v) v
    (∀ pre x post, a.lanes = pre ++ x :: post →
      (List.range a.size).map (fun k => fget 0 (256 * x.lane + k) r.got) =
        natBytes a.size (after (pre.filter fun y => decide (y.addr = x.addr)) (old x))) ∧
    (∀ x ∈ a.lanes, rdBytes r.st.mem x.addr a.size =
      natBytes a.size (after (a.lanes.filter fun y => decide (y.addr = x.addr)) (old x))) ∧
    ∀ b, (∀ x ∈ a.lanes, ¬ (x.addr ≤ b ∧ b < x.addr + a.size)) →
      (∀ x ∈ a.lanes, keyRegion x.addr = 4 → ∀ w ∈ benchWords x.addr a.size, b ≠ validKey (benchCore x.addr) w) →
      rdByte r.st.mem b = rdByte s.mem b)

/-- An atomic that needs no wait on a bench, shop or yard is performed where it issues, lane by lane; its old values come back after the
latency of its space (R148, R149). Where one place performs it, it does so as the lanes of an atomic at one place do. An atomic on memory
that returns nothing enters the die's write buffer, one entry for each lane that performs an operation (of a CAS the lowest at each address,
R149); one that returns commits and goes to its places. Neither changes a byte of memory where it issues (R148, R151, R244). With no active
lane there is nothing to perform (R62). Every atomic that may issue, whose lanes' accesses pass the checks and that deterministic mode does
not refuse completes, whatever its order, scope and space: its operation is outstanding and no register has changed yet (R148). Where the
manual leaves more than one reading, the clauses rest on the model's readings in log 11, 56 and 116. -/
def Obligations.AtomicsPerformAndComplete : Prop :=
  (∀ op (f : AFmt) c s l, MayIssue (atomRow op f) c s → atomRefused f c = false → f.space.toNat < 3 → aRel f = false →
    c.split.fenceRel = none → aAcq f = false → (c.task.redundant = false ∨ f.space.toNat < 2) →
    atomPieces op f c s = .ok l →
    ∃ t q, exec (atomRow op f) s = .next t ∧
      (∃ w, t.warp? c.ref.gid c.ref.wid = some w ∧ q ∈ w.pend ∧ w.vregs = c.warp.vregs ∧ w.sregs = c.warp.sregs ∧ w.preds = c.warp.preds) ∧
      q.kind = .long ∧ q.due = s.cycle + delayOf f.space.toNat l ∧ q.items = atomItems c.env f ∧ q.flag = postFlag f.post ∧
      (∀ cnt p st, atomParts (issued (atomRow op f) c s) c op f cnt l = [p] →
        let r := atomAt s c.grp st p.2
        t.mem = r.st.mem ∧ ∀ k, fget 0 k q.got = fget 0 k r.got) ∧
      (∀ x, l = [x] → Memory.wf s.mem = true → s.poison = [] → s.soft = [] → keyRegion x.key ∈ [4, 5, 6] → x.n = aBytes f →
        let old := bytesNat (rdBytes s.mem x.key x.n)
        rdBytes t.mem x.key x.n = natBytes x.n ((atomNew op x.n old (if op = .ld then 0 else aVal c.env f f.opb x.lane)
          (if op = .cas then aVal c.env f f.opc x.lane else 0)).getD old) ∧
        (∀ a, x.holds a = false → x.validates a = false → rdByte t.mem a = rdByte s.mem a) ∧
        (List.range x.n).map (fun k => fget 0 (256 * x.lane + k) q.got) = rdBytes s.mem x.key x.n)) ∧
  (∀ op (f : AFmt) c s l, MayIssue (atomRow op f) c s → atomRefused f c = false → 3 ≤ f.space.toNat → c.task.redundant = false →
    atomPieces op f c s = .ok l → (c.task.determ = true → aRets f = false → c.grp.full [2 ^ 80] = false) →
    ∃ t q, exec (atomRow op f) s = .next t ∧ OwnWarp (atomRow op f) c s t q ∧ OtherWarps c s t ∧ t.mem = s.mem ∧
      (c.env.active f.guard = 0 → q.kind = .long ∧ q.due = s.cycle + 6 ∧ q.writes = [] ∧ q.items = []) ∧
      (c.env.active f.guard ≠ 0 → c.task.determ = false → aRets f = false → wideRelease f.order f.scope = false →
        let at_ := atomUnit (issued (atomRow op f) c s) c
        let first := fun x => op ≠ .cas ∨ (l.find? fun y => y.key = x.key && at_ y = at_ x).map (·.lane) = some x.lane
        q.kind = .atomic false ∧ q.left = (l.filter fun x => decide (first x)).length ∧
        ∃ g es, t.group? c.ref.gid = some g ∧ g.draining = c.grp.draining ++ es ∧
          (es.filter fun e => e.atom.isSome && e.pid = some (c.ref.wid, q.id)).length = q.left) ∧
      (c.env.active f.guard ≠ 0 → c.task.determ = true → aRets f = false → ∃ g h, t.group? c.ref.gid = some g ∧ g.held = c.grp.held ++ [.atomic h] ∧
        q.kind = .long ∧ q.writes = [] ∧ q.items = []) ∧
      (c.env.active f.guard ≠ 0 → aRets f = true → q.kind = .atomic true ∧ q.items = atomItems c.env f ∧
        ∀ x ∈ l, ∃ r ∈ (t.place (atomUnit (issued (atomRow op f) c s) c x)).queue, r.gid = c.ref.gid ∧ r.pid = q.id ∧ r.after ≠ none)) ∧
  (∀ op (f : AFmt) c s l, MayIssue (atomRow op f) c s → atomRefused f c = false → atomPieces op f c s = .ok l →
    (3 ≤ f.space.toNat → aRets f = false → c.task.determ = true → c.grp.full [2 ^ 80] = false) →
    ∃ t w q, exec (atomRow op f) s = .next t ∧ t.warp? c.ref.gid c.ref.wid = some w ∧ q ∈ w.pend ∧ s.fresh ≤ q.id ∧
      q.flag = postFlag f.post ∧ w.vregs = c.warp.vregs ∧ w.sregs = c.warp.sregs ∧ w.preds = c.warp.preds)

/-! ## Synchronisation -/

/-- FENCE: it changes no memory and no register, and is outstanding with its order and scope (R154). While a fence of the split's lanes is
outstanding, no memory, atomic, synchronisation, engine or matrix-transfer instruction of the split issues: exec leaves the state as it is
(R154). Where the manual leaves more than one reading, the clauses rest on the model's readings in log 60. -/
def Obligations.FencesIssueAndHold : Prop :=
  (∀ (f : AFmt) c s, MayIssue (.fence f) c s →
    ∃ t q commit, exec (.fence f) s = .next t ∧ OwnWarp (.fence f) c s t q ∧ OtherWarps c s t ∧ t.mem = s.mem ∧
      q.kind = .fence f.order.toNat f.scope.toNat commit ∧ (commit ≠ 0 ↔ 2 ≤ f.order.toNat ∧ 3 ≤ f.scope.toNat) ∧
      (∀ x, t.splitAt c.ref = some x → (2 ≤ f.order.toNat → ∃ n, x.fenceRel = some n ∧ f.scope.toNat ≤ n))) ∧
  (∀ i c s, s.issuer = some c → isEvent i = false → fenceHolds (c.profile i).head.op = true → c.split.second = false →
    (∃ q ∈ c.warp.pend, q.lanes &&& c.split.held ≠ 0 ∧ isFence q.kind = true) → exec i s = .next s)

/-- BARSYNC and BARARV: the split's lanes arrive at the barrier; the phase's first arrival gives the count; an arrival is a release (R155,
R156, R226): it raises the warp's release count by one modulo 256, and its group's where the arrival, or the release fence that it carries,
is at .crew or wider (R234). No byte of memory changes. A release raises the warp's count, and at .crew or wider its group's, by one modulo
256 (R234). Where the manual leaves more than one reading, the clauses rest on the model's readings in log 58. -/
def Obligations.BarrierArrivals : Prop :=
  (∀ (f : AFmt) c s,
    let crew := decide (f.scope = 2)
    let uid := if f.scope = 2 then c.grp.crew else c.ref.gid
    let count := if f.size = 1 then (c.env.ssrc f.opb).toNat else 0
    let there := fun t => let b := State.barrier s crew uid f.ident.toNat
      let b' := State.barrier t crew uid f.ident.toNat
      b'.splits = b.splits ++ [⟨c.ref.gid, c.ref.wid, c.split.held, 0⟩] ∧ b'.govern = some (b.govern.getD count) ∧ b'.phase = b.phase ∧
      (t.warp? c.ref.gid c.ref.wid).map (·.relCount) = some ((c.warp.relCount + 1) % 256) ∧
      (t.group? c.ref.gid).map (·.relCount) =
        some (if 2 ≤ max f.scope.toNat (c.split.fenceRel.getD 0) then (c.grp.relCount + 1) % 256 else c.grp.relCount)
    (f.scope = 2 → flook c.grp.crew s.crews ≠ none) →
    (MayIssue (.barsync f) c s → ∃ t q, exec (.barsync f) s = .next t ∧ OwnWarp (.barsync f) c s t q ∧ OtherWarps c s t ∧
      t.mem = s.mem ∧ q.kind = .barrier crew f.ident.toNat ∧ there t) ∧
    (MayIssue (.bararv f) c s → ∃ t q, exec (.bararv f) s = .next t ∧ OwnWarp (.bararv f) c s t q ∧ OtherWarps c s t ∧
      t.mem = s.mem ∧ q.kind = .long ∧ q.writes = [] ∧ there t)) ∧
  (∀ s gid wid scope w g, State.warp? s gid wid = some w → s.group? gid = some g →
    ((s.release gid wid scope).warp? gid wid).map (·.relCount) = some (if 1 ≤ scope then (w.relCount + 1) % 256 else w.relCount) ∧
    ((s.release gid wid scope).group? gid).map (·.relCount) = some (if 2 ≤ scope then (g.relCount + 1) % 256 else g.relCount) ∧
    (s.release gid wid scope).mem = s.mem)

/-- The fields of a phase barrier word after an update (R157, R158): the reserved bits are zero; with nothing pending and no byte awaited
the phase flips and the pending count starts again from the count; else they stand. PBINIT, PBARV and PBTX write the word in the bench and
complete 8 cycles after issue; PBARV returns the phase that stood. PBWAIT completes at once when the phase differs from its operand, and
else waits; of memory it changes only the valid bits of the words that it reads (R158, R212). -/
def Obligations.PhaseBarriers : Prop :=
  (∀ w < 2 ^ 64,
    let v := pbSettle w
    v < 2 ^ 64 ∧ bitsOf v 62 48 = 0 ∧ bitsOf v 47 40 = bitsOf w 47 40 ∧
    (if bitsOf w 39 32 = 0 ∧ w % 2 ^ 32 = 0 then
      bitsOf v 63 63 = 1 - bitsOf w 63 63 ∧ bitsOf v 39 32 = bitsOf w 47 40 ∧ v % 2 ^ 32 = 0
    else bitsOf v 63 63 = bitsOf w 63 63 ∧ bitsOf v 39 32 = bitsOf w 39 32 ∧ v % 2 ^ 32 = w % 2 ^ 32)) ∧
  (∀ (f : AFmt) c s,
    let a := (c.env.ssrc f.addr).toNat
    let n := (c.env.ssrc f.opb).toNat
    let key := phaseKey c a
    let old := rdNat s.mem key 8
    a % 8 = 0 → a + 8 ≤ c.grp.benchSize → s.soft = [] → s.poison = [] →
    (MayIssue (.pbinit f) c s → Memory.wf s.mem = true → ∃ t q, exec (.pbinit f) s = .next t ∧ Outstanding c t q ∧ q.kind = .long ∧
      q.due = s.cycle + 8 ∧ q.writes = [] ∧ rdNat t.mem key 8 = pbSettle (max 1 (n % 256) * 2 ^ 40 + max 1 (n % 256) * 2 ^ 32)) ∧
    (MayIssue (.pbarv f) c s → Memory.wf s.mem = true → ∃ t q, exec (.pbarv f) s = .next t ∧ Outstanding c t q ∧ q.kind = .long ∧
      q.due = s.cycle + 8 ∧ q.writes = [.sca (dIdx f.dst) (BitVec.ofNat 32 (bitsOf old 63 63))] ∧
      rdNat t.mem key 8 = pbSettle (pbAdd (pbArrive old) n)) ∧
    (MayIssue (.pbtx f) c s → Memory.wf s.mem = true → ∃ t q, exec (.pbtx f) s = .next t ∧ Outstanding c t q ∧ q.kind = .long ∧
      q.due = s.cycle + 8 ∧ q.writes = [] ∧ rdNat t.mem key 8 = pbSettle (pbAdd old n)) ∧
    (MayIssue (.pbwait f) c s → ∃ t q, exec (.pbwait f) s = .next t ∧ OwnWarp (.pbwait f) c s t q ∧ OtherWarps c s t ∧
      (∀ b < 9 * region, rdByte t.mem b = rdByte s.mem b) ∧
      (Memory.wf s.mem = true → ∀ w ∈ benchWords key 8, t.isValid (benchCore key) w = true) ∧
      (decide (bitsOf old 63 63 = 1) ≠ (c.env.ssrc f.opb).getLsbD 0 → q.kind = .long ∧ q.due = s.cycle ∧ q.writes = []) ∧
      (decide (bitsOf old 63 63 = 1) = (c.env.ssrc f.opb).getLsbD 0 → q.kind = .pbwait key ((c.env.ssrc f.opb).getLsbD 0))))

/-- WAITQ, WAKE, QPUSH, QPOP and QPOPW on memory: one request goes to the place that holds the address, behind a commit; WAKE and QPUSH
commit all that the group has buffered, the others what it has buffered of the bytes they read (R225). They trap DETERMINISM in
deterministic mode and ACCESS_DENIED in a redundant task (R160, R163, R303). -/
def Obligations.WaitsAndQueuesOnMemory : Prop :=
  ∀ k (f : AFmt) c s, MayIssue (waitRow k f) c s →
    let ea := scaAddr c.env f.addr f.space.toNat
    (c.task.determ = true → exec (waitRow k f) s = .next (raise s c.ref { cause := 0x0D, epc := c.split.pc })) ∧
    (c.task.determ = false → c.task.redundant = true →
      exec (waitRow k f) s = .next (raise s c.ref { cause := 0x09, tval := BitVec.ofNat 64 ea, epc := c.split.pc })) ∧
    (c.task.determ = false → c.task.redundant = false → f.space = 3 → ∀ x l, waitPiece k f c s = .ok (x :: l) →
      x.unit.kind = .glazier ∨ x.unit.kind = .peer →
      ∃ t q r, exec (waitRow k f) s = .next t ∧ OwnWarp (waitRow k f) c s t q ∧ OtherWarps c s t ∧ t.mem = s.mem ∧
        q.kind = .waiter x.unit x.key ∧ (t.place x.unit).queue = (s.place x.unit).queue ++ [r] ∧
        r.gid = c.ref.gid ∧ r.wid = c.ref.wid ∧ r.pid = q.id ∧ r.after ≠ none ∧
        ∃ y, r.sync = some y ∧ y.op = waitOp k f c ∧ y.addr = x.key ∧ y.va = ea ∧ y.reg = dIdx f.dst ∧ waitBytes k f ≤ y.ring ∧
          (k = 3 ∨ k = 4 → y.ring = 16 + 4 * fieldNat (s.scratchBytes c.grp x).bytes 8 4) ∧
          ∃ g, t.group? c.ref.gid = some g ∧ (k = 1 ∨ k = 2 → g.sbuf = []) ∧
            ∀ b ∈ g.sbuf, b.2.va < x.va ∨ x.va + y.ring ≤ b.2.va)

/-- WAITQ and WAKE in a shop or yard: WAITQ returns 1 at once when the value differs, sleeps when it is the same, and returns 2 when the
place's list is full; WAKE wakes the named number of the address's sleepers, all for 0, and returns how many (R160, R161). Where the manual
leaves more than one reading, the clauses rest on the model's readings in log 57. -/
def Obligations.WaitAndWakeInScratchpads : Prop :=
  ∀ (f : AFmt) c s x l, c.task.determ = false → c.task.redundant = false → f.space = 1 ∨ f.space = 2 → s.soft = [] →
    (MayIssue (.waitq f) c s → waitPiece 0 f c s = .ok (x :: l) →
      let val := if f.size = 3 then c.env.src64 f.opb true 0 else (c.env.ssrc f.opb).toNat
      let cur := bytesNat (s.found x.key (scaAddr c.env f.addr f.space.toNat) (2 ^ f.size.toNat)).bytes
      let room := waitersFull x.unit x.key (s.place x.unit).waiters = false
      ∃ t q, exec (.waitq f) s = .next t ∧ Outstanding c t q ∧ s.fresh ≤ q.id ∧ t.mem = s.mem ∧
        (cur ≠ val → q.kind = .long ∧ q.due = s.cycle + latencyOf f.space.toNat ∧ q.writes = [.sca (dIdx f.dst) 1]) ∧
        (cur = val → room → q.kind = .waiter x.unit x.key ∧
          (t.place x.unit).waiters = (s.place x.unit).waiters ++ [⟨x.key, c.ref.gid, c.ref.wid, q.id, dIdx f.dst, false⟩]) ∧
        (cur = val → ¬ room → q.kind = .long ∧ q.writes = [.sca (dIdx f.dst) 2])) ∧
    (MayIssue (.wake f) c s → waitPiece 1 f c s = .ok (x :: l) →
      let n := (c.env.ssrc f.opb).toNat
      let mine := (s.place x.unit).waiters.filter fun w => w.addr = x.key && !w.queue
      let out := if n = 0 then mine else mine.take n
      ∃ t q, exec (.wake f) s = .next t ∧ Outstanding c t q ∧ s.fresh ≤ q.id ∧ t.mem = s.mem ∧ q.kind = .long ∧
        q.due = s.cycle + latencyOf f.space.toNat ∧ q.writes = [.sca (dIdx f.dst) (BitVec.ofNat 32 out.length)] ∧
        (t.place x.unit).waiters = ((s.place x.unit).waiters.filter fun w => !out.contains w) ∧
        ∀ w ∈ out, w.pid < s.fresh → (∀ y ∈ out, y.gid * 32 + y.wid = w.gid * 32 + w.wid → y.pid = w.pid → y = w) →
          ∀ v p, s.warp? w.gid w.wid = some v → v.pend? w.pid = some p → ∃ v' p', t.warp? w.gid w.wid = some v' ∧
            v'.pend? w.pid = some p' ∧ p'.kind = .long ∧ p'.due = s.cycle ∧ p'.writes = [.sca w.reg 0])

/-- QPUSH, QPOP and QPOPW in a shop or yard (R162, R163): a push hands its value to a waiting pop (1), enters the ring (0) or finds it full
(2); a pop takes the head (status 0) or finds the queue empty (status 1); QPOPW waits there, or returns 2 when the list is full. Where the
manual leaves more than one reading, the clauses rest on the model's readings in log 57. -/
def Obligations.QueuesInScratchpads : Prop :=
  ∀ (f : AFmt) c s x l, c.task.determ = false → c.task.redundant = false → f.space = 1 ∨ f.space = 2 → Memory.wf s.mem = true →
    s.soft = [] → s.poison = [] → 5 ≤ keyRegion x.key → keyRegion x.key ≤ 6 → keyRegion (x.key + 2 ^ 32) ≤ 6 →
    let ea := scaAddr c.env f.addr f.space.toNat
    let u := x.unit
    let d := dIdx f.dst
    let head := rdNat s.mem x.key 4
    let tail := rdNat s.mem (x.key + 4) 4
    let cap := rdNat s.mem (x.key + 8) 4
    let count := (BitVec.ofNat 32 tail - BitVec.ofNat 32 head).toNat
    let room := fun off => ringKey x.key ((s.alloc c f.space.toNat).1 + (s.alloc c f.space.toNat).2.1 - x.key) off = .ok (x.key + off)
    let good := rdNat s.mem (x.key + 12) 4 = 0 ∧ ∃ k ≤ 24, cap = 2 ^ k
    let waits := (s.place u).waiters.find? fun w => w.addr = x.key && w.queue
    (MayIssue (.qpush f) c s → waitPiece 2 f c s = .ok (x :: l) →
      (¬ good → exec (.qpush f) s = .next (raise s c.ref { cause := 0x13, tval := BitVec.ofNat 64 ea, epc := c.split.pc })) ∧
      (good → (∀ w, waits = some w → ∃ t q, exec (.qpush f) s = .next t ∧ Outstanding c t q ∧ s.fresh ≤ q.id ∧ t.mem = s.mem ∧
          q.writes = [.sca d 1] ∧ (t.place u).waiters = ((s.place u).waiters.filter fun y => decide (y ≠ w)) ∧
          (w.pid < s.fresh → ∀ v p, s.warp? w.gid w.wid = some v → v.pend? w.pid = some p → ∃ v' p', t.warp? w.gid w.wid = some v' ∧
            v'.pend? w.pid = some p' ∧ p'.kind = .long ∧ p'.due = s.cycle ∧
            p'.writes = [.sca w.reg (c.env.ssrc f.opb), .sca (w.reg + 1) 1])) ∧
        (waits = none → cap ≤ count → ∃ t q, exec (.qpush f) s = .next t ∧ Outstanding c t q ∧ s.fresh ≤ q.id ∧ t.mem = s.mem ∧
          q.writes = [.sca d 2]) ∧
        (waits = none → count < cap → room (16 + 4 * (tail % cap)) →
          ∃ t q, exec (.qpush f) s = .next t ∧ Outstanding c t q ∧ s.fresh ≤ q.id ∧ q.writes = [.sca d 0] ∧
            rdNat t.mem (x.key + 16 + 4 * (tail % cap)) 4 = (c.env.ssrc f.opb).toNat ∧
            rdNat t.mem (x.key + 4) 4 = (tail + 1) % 2 ^ 32 ∧
            ∀ a, ¬ (x.key + 4 ≤ a ∧ a < x.key + 8) → ¬ (x.key + 16 + 4 * (tail % cap) ≤ a ∧ a < x.key + 20 + 4 * (tail % cap)) →
              rdByte t.mem a = rdByte s.mem a))) ∧
    (∀ k : Fin 5, k = 3 ∨ k = 4 → MayIssue (waitRow k f) c s → waitPiece k f c s = .ok (x :: l) →
      (¬ good → exec (waitRow k f) s = .next (raise s c.ref { cause := 0x13, tval := BitVec.ofNat 64 ea, epc := c.split.pc })) ∧
      (good → 0 < count → room (16 + 4 * (head % cap)) →
        ∃ t q, exec (waitRow k f) s = .next t ∧ Outstanding c t q ∧ s.fresh ≤ q.id ∧
          q.writes = [.sca d (BitVec.ofNat 32 (rdNat s.mem (x.key + 16 + 4 * (head % cap)) 4)), .sca (d + 1) 0] ∧
          rdNat t.mem x.key 4 = (head + 1) % 2 ^ 32 ∧
          ∀ a, ¬ (x.key ≤ a ∧ a < x.key + 4) → rdByte t.mem a = rdByte s.mem a) ∧
      (good → count = 0 → ∃ t q, exec (waitRow k f) s = .next t ∧ Outstanding c t q ∧ s.fresh ≤ q.id ∧ t.mem = s.mem ∧
        (k = 3 → q.writes = [.sca d 0, .sca (d + 1) 1]) ∧
        (k = 4 → waitersFull u x.key (s.place u).waiters = true → q.writes = [.sca d 0, .sca (d + 1) 2]) ∧
        (k = 4 → waitersFull u x.key (s.place u).waiters = false → q.kind = .waiter u x.key ∧
          (t.place u).waiters = (s.place u).waiters ++ [⟨x.key, c.ref.gid, c.ref.wid, q.id, d, true⟩])))

/-! ## Control flow -/

/-- BRA: taken or not, nothing but the program counter depends on the condition (R165, R166). -/
def Obligations.BranchGoesToTarget : Prop :=
  ∀ (f : BFmt) c s, MayIssue (.bra f) c s →
    let v := c.env.ssrc f.cond
    let taken := f.kind = 0 ∨ (f.kind = 1 ∧ v ≠ 0) ∨ (f.kind = 2 ∧ v = 0)
    let pc := directTarget c.split.pc f
    (¬ taken → ∃ w, Turned (.bra f) c s w ∧ Stands c w (nextPc c.split.pc) c.split.held c.split.exm) ∧
    (taken → (issued (.bra f) c s).targetBad c true pc = false →
      ∃ w, Turned (.bra f) c s w ∧ Stands c w pc c.split.held c.split.exm) ∧
    (taken → (issued (.bra f) c s).targetBad c true pc = true →
      exec (.bra f) s = .next (raise s c.ref { cause := 0x02, tval := pc, epc := c.split.pc }))

/-- BSPLIT: the lanes whose predicate says so go to the target and the others fall through; with both kinds the split's entry becomes a
frame that expects its lanes and two splits take the two lowest free entries; without room the split runs the one group and a serial record
holds the other (R167, R170). SWITCH: each active lane goes to the target of the lowest case whose key its register holds; the others fall
through (R168). The case line is one that the task may fetch and may read (R310; log 54). Where the manual leaves more than one reading, the
clauses rest on the model's readings in log 24. -/
def Obligations.BsplitAndSwitchDivide : Prop :=
  (∀ (f : BFmt) c s, MayIssue (.bsplit f) c s →
    let q := c.env.pred (fIdx f.cond % 8)
    let t := c.split.exm &&& (if f.kind = 0 then q else ~~~ q)
    let n := c.split.held &&& ~~~ t
    let pc := directTarget c.split.pc f
    let i := Instr.bsplit f
    (t = 0 → ∃ w, Turned i c s w ∧ Stands c w (nextPc c.split.pc) c.split.held c.split.exm) ∧
    (t ≠ 0 → (issued i c s).targetBad c true pc = false → n = 0 →
      ∃ w, Turned i c s w ∧ Stands c w pc c.split.held c.split.exm) ∧
    (t ≠ 0 → (issued i c s).targetBad c true pc = false → n ≠ 0 → c.split.chain = [] → ∀ a b rest,
      (List.range 16).filter (fun e => (flook e c.warp.table).isNone) = a :: b :: rest → c.warp.table.length ≤ 14 →
      ∃ w, Turned i c s w ∧ FrameAt c w c.ref.ent (f.func.setWidth 8) ∧ ChildAt c w a t t pc (some c.ref.ent) ∧
        ChildAt c w b n (c.split.exm &&& n) (nextPc c.split.pc) (some c.ref.ent)) ∧
    (t ≠ 0 → (issued i c s).targetBad c true pc = false → n ≠ 0 → (c.split.chain ≠ [] ∨ 14 < c.warp.table.length) → ∀ id,
      (List.range 64).find? (fun k => (flook k c.warp.records).isNone) = some id →
      ∃ w x rec, Turned i c s w ∧ w.split? c.ref.ent = some x ∧ x.held = t ∧ x.exm = t ∧ x.pc = pc ∧ x.chain = id :: c.split.chain ∧
        flook id w.records = some rec ∧ rec.rest = [⟨n, c.split.exm &&& n, nextPc c.split.pc, none, c.startsPair⟩] ∧ rec.held = c.split.held ∧
        rec.token = some (f.func.setWidth 8))) ∧
  (∀ (f : BFmt) c s text, MayIssue (.switch f) c s →
    let line := lineAt c.split.pc f.loff
    let n := min 8 (f.func.toNat / 256 + 1)
    let key := fun k => fieldNat text (4 * k) 4
    let word := fun k => BitVec.ofNat 32 (fieldNat text (32 + 4 * k) 4)
    let target := fun k => ((line + ((word k &&& 0xFFFFFFF8#32).signExtend 64 <<< 3)) &&& 0x1FFFFFFFFFFFFFF#64) +
      BitVec.ofNat 64 ((word k).toNat % 8)
    (issued (.switch f) c s).readCase c line.toNat = .text text →
    (∀ k < n, (issued (.switch f) c s).targetBad c true (target k) = false) → c.split.chain = [] → c.warp.table.length ≤ 6 →
    c.split.exm &&& ~~~ c.split.held = 0 →
    ∃ w, Turned (.switch f) c s w ∧ ∀ l < 64, c.split.held.getLsbD l = true →
      ∃ e y, w.split? e = some y ∧ y.held.getLsbD l = true ∧ y.exm.getLsbD l = c.split.exm.getLsbD l ∧ y.dix = c.split.dix + 1 ∧
        (∀ k < n, c.split.exm.getLsbD l = true → (c.env.src f.cond false l).toNat = key k →
          (∀ j < k, (c.env.src f.cond false l).toNat ≠ key j) → y.pc = target k) ∧
        ((c.split.exm.getLsbD l = false ∨ ∀ k < n, (c.env.src f.cond false l).toNat ≠ key k) → y.pc = nextPc c.split.pc))

/-- JOIN: a split whose frame has its token and window parks there; the last one to arrive resumes the frame as one split with all expected
lanes, the largest DIX and the window of the frame; any other JOIN only advances (R169). A serialised split that reaches its record's JOIN
runs the next group; after the last it goes on with all lanes that reached the JOIN (R170). Where the manual leaves more than one reading,
the clauses rest on the model's readings in log 26. -/
def Obligations.JoinReconverges : Prop :=
  (∀ (f : BFmt) c s, MayIssue (.join f) c s → c.split.chain = [] →
    let tok : Byte := f.func.setWidth 8
    let i := Instr.join f
    ((∀ e fr, c.split.frame = some e → flook e c.warp.table = some (.frame fr) → ¬ (fr.token = tok ∧ fr.wb = c.split.wb)) →
      ∃ w, Turned i c s w ∧ Stands c w (nextPc c.split.pc) c.split.held c.split.exm) ∧
    (∀ e fr, c.split.frame = some e → e ≠ c.ref.ent → flook e c.warp.table = some (.frame fr) → fr.token = tok → fr.wb = c.split.wb →
      (fr.arrived ||| c.split.held ≠ fr.expect →
        ∃ w fr', Turned i c s w ∧ flook c.ref.ent w.table = none ∧ flook e w.table = some (.frame fr') ∧
          fr'.arrived = fr.arrived ||| c.split.held ∧ fr'.arrivedExm = fr.arrivedExm ||| c.split.exm ∧ fr'.expect = fr.expect ∧
          fr'.arrivals = fr.arrivals ++ [(c.split.held, nextPc c.split.pc)]) ∧
      (fr.arrived ||| c.split.held = fr.expect → fr.expect ≠ 0 →
        ∃ w x, Turned i c s w ∧ flook c.ref.ent w.table = none ∧ w.split? e = some x ∧ x.held = fr.expect ∧
          x.exm = fr.arrivedExm ||| c.split.exm ∧ x.frame = fr.parent ∧ x.wb = fr.wb ∧ x.chain = [] ∧ x.handler = fr.handler ∧
          x.dix = (if fr.dixmax.toNat < (c.split.dix + 1).toNat then c.split.dix + 1 else fr.dixmax) ∧
          (fr.arrivals = [] → c.split.held.getLsbD (lowestBit fr.expect) = true → x.pc = nextPc c.split.pc)))) ∧
  (∀ (f : BFmt) c s id rest rec, MayIssue (.join f) c s → c.split.chain = id :: rest → flook id c.warp.records = some rec →
    rec.token = some (f.func.setWidth 8) → rec.wb = c.split.wb → rec.again = false →
    (∀ g gs, rec.rest = g :: gs → ∃ w x rec', Turned (.join f) c s w ∧ w.split? c.ref.ent = some x ∧ x.held = g.held ∧ x.exm = g.exm ∧
      x.pc = g.pc ∧ x.dix = rec.dix ∧ x.chain = c.split.chain ∧ flook id w.records = some rec' ∧ rec'.rest = gs ∧
      rec'.reached = rec.reached ||| c.split.held) ∧
    (rec.rest = [] → ∃ w x, Turned (.join f) c s w ∧ w.split? c.ref.ent = some x ∧ x.held = rec.reached ||| c.split.held ∧
      x.exm = rec.reachedExm ||| c.split.exm ∧ x.pc = nextPc c.split.pc ∧ x.chain = rest))

/-- EXIT completes whatever the split's frames and records; the last split of a warp that leaves no frame behind retires the warp, and a
split among others leaves its entry free (R171). Where the manual leaves more than one reading, the clauses rest on the model's readings in
log 25. -/
def Obligations.ExitRetires : Prop :=
  ∀ (f : BFmt) c s, MayIssue (.exit f) c s →
    (∃ t, exec (.exit f) s = .next t ∧ t.mem = s.mem ∧ OtherWarps c s t) ∧
    (c.split.chain = [] → c.split.frame = none → c.split.handler = none →
      ∃ w, Turned (.exit f) c s w ∧ flook c.ref.ent w.table = none ∧
        (∀ e, e ≠ c.ref.ent → flook e w.table = flook e c.warp.table) ∧
        ((∀ p ∈ c.warp.table, p.1 = c.ref.ent) → w.retired = true))

/-- BRX: with one target for all held lanes the split goes there; with two, the lowest lane's group stays in its entry and the other takes
the lowest free one, under the same frame (R172). -/
def Obligations.BrxScatters : Prop :=
  ∀ (f : BFmt) c s, MayIssue (.brx f) c s →
    let target := fun l => BitVec.ofNat 64 (c.env.src64 f.cond false l)
    let i := Instr.brx f
    (∀ pc, c.split.held ≠ 0 → (∀ l < 64, c.split.held.getLsbD l = true → target l = pc) → (issued i c s).targetBad c true pc = false →
      ∃ w, Turned i c s w ∧ Stands c w pc c.split.held c.split.exm) ∧
    (∀ pc pc' low m, pc ≠ pc' → low < 64 → c.split.held.getLsbD low = true → (∀ l < low, c.split.held.getLsbD l = false) →
      target low = pc → (∀ l < 64, c.split.held.getLsbD l = true → target l = if m.getLsbD l then pc else pc') →
      c.split.held &&& ~~~ m ≠ 0 → (∀ l < 64, m.getLsbD l = true → c.split.held.getLsbD l = true) →
      (issued i c s).targetBad c true pc = false → (issued i c s).targetBad c true pc' = false → c.split.chain = [] →
      ∀ a rest, (List.range 16).filter (fun e => (flook e c.warp.table).isNone) = a :: rest → c.warp.table.length ≤ 15 →
      ∃ w, Turned i c s w ∧ Stands c w pc m (c.split.exm &&& m) ∧
        ChildAt c w a (c.split.held &&& ~~~ m) (c.split.exm &&& (c.split.held &&& ~~~ m)) pc' c.split.frame)

/-- CALL and CALLX: each held lane's stack takes v0 to v(n−1) and the link word, the window slides by n and the split goes to the target;
every other byte of memory stands (R173). A CALL that a lane's stack cannot take traps in the state before (R175). -/
def Obligations.CallsPushAndSlide : Prop :=
  (∀ (f : BFmt) c s (x : Bool),
    let i := if x then Instr.callx f else Instr.call f
    let pc := if x then BitVec.ofNat 64 (c.env.src64 f.cond true 0) else directTarget c.split.pc f
    let n := 16 * (f.func.toNat % 16)
    let key := fun l off => c.stackKey l (c.depth l + off)
    MayIssue i c s → Memory.wf s.mem = true → (issued i c s).targetBad c true pc = false →
    (∀ l < 64, c.split.held.getLsbD l = true → c.depth l + 4 * n + 8 ≤ c.task.stack) →
    ∃ t w y, exec i s = .next t ∧ t.warp? c.ref.gid c.ref.wid = some w ∧ w.split? c.ref.ent = some y ∧ y.pc = pc ∧ y.held = c.split.held ∧
      y.exm = c.split.exm ∧ y.dix = c.split.dix + 1 ∧ y.wb = (c.split.wb + n) % c.warp.nregs ∧ y.run = {} ∧ y.bound = none ∧
      w.vregs = c.warp.vregs ∧ w.sregs = c.warp.sregs ∧ w.preds = c.warp.preds ∧
      (∀ l < 64, fget 0 l w.depth = if c.split.held.getLsbD l then c.depth l + 4 * n + 8 else c.depth l) ∧
      (∀ l < 64, c.split.held.getLsbD l = true →
        rdNat t.mem (key l (4 * n)) 8 = n / 16 * 2 ^ 60 + (nextPc c.split.pc).toNat % 2 ^ 57 ∧
        ∀ j < n, rdNat t.mem (key l (4 * j)) 4 = (c.env.vec j l).toNat) ∧
      (∀ a, (∀ l < 64, c.split.held.getLsbD l = true → ¬ (key l 0 ≤ a ∧ a < key l (4 * n + 8))) → rdByte t.mem a = rdByte s.mem a)) ∧
  (∀ (f : BFmt) c s l, MayIssue (.call f) c s → (issued (.call f) c s).targetBad c true (directTarget c.split.pc f) = false →
    c.split.held.getLsbD l = true → c.task.stack < c.depth l + (4 * (16 * (f.func.toNat % 16)) + 8) →
    (∀ k < l, c.split.held.getLsbD k = true → c.depth k + (4 * (16 * (f.func.toNat % 16)) + 8) ≤ c.task.stack) →
    exec (.call f) s = .next (raise s c.ref
      { cause := 0x09, tval := BitVec.ofNat 64 (c.warp.spill + 16384 + (l + 1) * c.task.stack), epc := c.split.pc }))

/-- RET: with one link word for all held lanes, the frame is popped, the window slides back and the split goes to the link (R173, R174): v0
to v(n−1) of each held lane are the words that were stacked, a poisoned one zero (R344); where the lanes' links differ they go their ways
under the same frame (R172). An empty stack or unequal slides trap RETURN_UNDERFLOW. LNKW replaces the target of each active lane's top link
word. -/
def Obligations.ReturnsAndLinkWrites : Prop :=
  ∀ (f : BFmt) c s,
    let top := fun l => c.popped s l (c.depth l - 8) 8
    let here := fun l => l < 64 ∧ c.split.held.getLsbD l = true
    (MayIssue (.ret f) c s → (∃ l, here l ∧ c.stackEmpty l = true) →
      exec (.ret f) s = .next (raise s c.ref { cause := 0x05, tval := 0, epc := c.split.pc })) ∧
    (MayIssue (.ret f) c s → (∀ l, here l → c.stackEmpty l = false) → (∃ l k, here l ∧ here k ∧ top l / 2 ^ 60 ≠ top k / 2 ^ 60) →
      exec (.ret f) s = .next (raise s c.ref { cause := 0x05, tval := 1, epc := c.split.pc })) ∧
    (MayIssue (.ret f) c s → ∀ link, c.split.held ≠ 0 → (∀ l, here l → c.stackEmpty l = false ∧ top l = link) →
      (issued (.ret f) c s).targetBad c false (BitVec.ofNat 64 (link % 2 ^ 57)) = false → 0 < c.warp.nregs →
      16 * (link / 2 ^ 60) ≤ c.warp.nregs → Canon 0 c.warp.depth → Canon 0 c.warp.vregs →
      let n := 16 * (link / 2 ^ 60)
      ∃ t w y, exec (.ret f) s = .next t ∧ (s.soft = [] → s.poison = [] → t.mem = s.mem) ∧ t.warp? c.ref.gid c.ref.wid = some w ∧ w.split? c.ref.ent = some y ∧
        y.pc = BitVec.ofNat 64 (link % 2 ^ 57) ∧ y.held = c.split.held ∧ y.exm = c.split.exm ∧
        y.wb = (c.split.wb + c.warp.nregs - n) % c.warp.nregs ∧ y.dix = c.split.dix + 1 ∧ w.sregs = c.warp.sregs ∧ w.preds = c.warp.preds ∧
        (∀ l < 64, fget 0 l w.depth = if c.split.held.getLsbD l then c.depth l - 8 - 4 * n else c.depth l) ∧
        (∀ l, here l → ∀ j < n, fget 0 ((y.wb + j) % c.warp.nregs * 64 + l) w.vregs =
          BitVec.ofNat 32 (c.popped s l (c.depth l - 8 - 4 * n + 4 * j) 4)) ∧
        ∀ r, ∀ l < 64, ¬ (here l ∧ ∃ j < n, r = (y.wb + j) % c.warp.nregs) → fget 0 (r * 64 + l) w.vregs = fget 0 (r * 64 + l) c.warp.vregs) ∧
    (MayIssue (.ret f) c s → ∀ link link' low m, link / 2 ^ 60 = link' / 2 ^ 60 → link % 2 ^ 57 ≠ link' % 2 ^ 57 → here low →
      (∀ l < low, c.split.held.getLsbD l = false) → m.getLsbD low = true → (∀ l < 64, m.getLsbD l = true → c.split.held.getLsbD l = true) →
      c.split.held &&& ~~~ m ≠ 0 → (∀ l, here l → c.stackEmpty l = false ∧ top l = if m.getLsbD l then link else link') →
      (issued (.ret f) c s).targetBad c false (BitVec.ofNat 64 (link % 2 ^ 57)) = false →
      (issued (.ret f) c s).targetBad c false (BitVec.ofNat 64 (link' % 2 ^ 57)) = false → 0 < c.warp.nregs →
      16 * (link / 2 ^ 60) ≤ c.warp.nregs → c.split.chain = [] →
      ∀ a rest, (List.range 16).filter (fun e => (flook e c.warp.table).isNone) = a :: rest → c.warp.table.length ≤ 15 →
      let wb := (c.split.wb + c.warp.nregs - 16 * (link / 2 ^ 60)) % c.warp.nregs
      ∃ t w x y, exec (.ret f) s = .next t ∧ t.warp? c.ref.gid c.ref.wid = some w ∧ w.split? c.ref.ent = some x ∧ w.split? a = some y ∧
        x.pc = BitVec.ofNat 64 (link % 2 ^ 57) ∧ x.held = m ∧ x.exm = c.split.exm &&& m ∧ x.wb = wb ∧ x.dix = c.split.dix + 1 ∧
        y.pc = BitVec.ofNat 64 (link' % 2 ^ 57) ∧ y.held = c.split.held &&& ~~~ m ∧ y.exm = c.split.exm &&& (c.split.held &&& ~~~ m) ∧
        y.wb = wb ∧ y.dix = c.split.dix + 1 ∧ y.frame = c.split.frame) ∧
    (MayIssue (.lnkw f) c s → Memory.wf s.mem = true →
      (∀ l < 64, c.split.exm.getLsbD l = true → c.stackEmpty l = false ∧ c.depth l ≤ c.task.stack ∧ c.env.src64 f.cond false l < 2 ^ 57) →
      ∃ w t, exec (.lnkw f) s = .next t ∧ t.warp? c.ref.gid c.ref.wid = some w ∧ w.vregs = c.warp.vregs ∧ w.depth = c.warp.depth ∧
        Stands c w (nextPc c.split.pc) c.split.held c.split.exm ∧
        (∀ l < 64, c.split.exm.getLsbD l = true → rdNat t.mem (c.stackKey l (c.depth l - 8)) 8 =
          top l / 2 ^ 57 * 2 ^ 57 + c.env.src64 f.cond false l) ∧
        ∀ a, (∀ l < 64, c.split.exm.getLsbD l = true →
            ¬ (c.stackKey l (c.depth l - 8) ≤ a ∧ a < c.stackKey l (c.depth l - 8) + 8)) → rdByte t.mem a = rdByte s.mem a)

/-! ## System instructions -/

/-- NOP and SEAL, SYSRD and SYSWR of every register, LSYNC and LOGMK (R19, R20, R56, R59, R68, R71, R188, R189, R302, R358). A register is
read as it stands before the instruction's own increment. -/
def Obligations.SystemRegisterInstructions : Prop :=
  ∀ (f : TFmt) c s,
    let n := f.sysreg.toNat
    let wide := sysWide c.warp.width n
    let v := [c.split.exm.toNat, c.split.wb, c.split.dix.toNat, c.warp.lclk, c.warp.seed.toNat, c.warp.fpctl.toNat, c.warp.thr.toNat,
      c.warp.sticky.toNat, c.split.cause.toNat, c.split.tval.toNat, c.split.epc.toNat, c.warp.trapbase.toNat, mbxStat s c].getD n 0
    let W := RegWrite.sca (dIdx f.dst) (BitVec.ofNat 32 v) :: (if wide then [.sca (dIdx f.dst + 1) (BitVec.ofNat 32 (v / 2 ^ 32))] else [])
    let src := if wide then c.env.src64 f.sa true 0 else (c.env.ssrc f.sa).toNat
    let shared := c.task.determ = true ∧ 1 < c.warp.splits.length
    let special := fun (w : Warp) => (w.seed, w.thr, w.trapbase)
    let saved := fun (x : Split) => (x.cause, x.tval, x.epc)
    (MayIssue (.nop f) c s → (postFlag f.post).isSome = true → Later (.nop f) c s 1 []) ∧
    (MayIssue (.nop f) c s → postFlag f.post = none → ∃ t w x, Silent (.nop f) c s t w x ∧ x.exm = c.split.exm) ∧
    (MayIssue (.seal f) c s → ∃ w, Turned (.seal f) c s w ∧ Stands c w (nextPc c.split.pc) c.split.held c.split.exm) ∧
    (MayIssue (.sysrd f) c s → Later (.sysrd f) c s 4 W) ∧
    (MayIssue (.sysrdSticky f) c s → ¬ shared → Later (.sysrdSticky f) c s 4 W) ∧
    (MayIssue (.sysrdSticky f) c s → shared → Traps (.sysrdSticky f) c s 0x0D 0) ∧
    (MayIssue (.sysrdLclk f) c s → ¬ shared → Later (.sysrdLclk f) c s 4 W) ∧
    (MayIssue (.sysrdLclk f) c s → shared → Traps (.sysrdLclk f) c s 0x0D 0) ∧
    (MayIssue (.syswr f) c s → ∃ t w x, Silent (.syswr f) c s t w x ∧ x.exm = c.split.exm ∧ w.fpctl = c.warp.fpctl ∧
      w.sticky = c.warp.sticky ∧ x.dix = (if n = 2 then BitVec.ofNat 64 src else c.split.dix + 1) ∧
      w.seed = (if n = 4 then BitVec.ofNat 64 src else c.warp.seed) ∧ w.thr = (if n = 6 then BitVec.ofNat 32 src else c.warp.thr) ∧
      x.cause = (if n = 8 then BitVec.ofNat 32 src else c.split.cause) ∧ x.tval = (if n = 9 then BitVec.ofNat 64 src else c.split.tval) ∧
      x.epc = (if n = 10 then BitVec.ofNat 64 src else c.split.epc) ∧
      w.trapbase = (if n = 11 then BitVec.ofNat 64 (src % 2 ^ 61) else c.warp.trapbase)) ∧
    (MayIssue (.syswrExm f) c s → ∃ t w x, Silent (.syswrExm f) c s t w x ∧ x.exm = BitVec.ofNat 64 src &&& c.split.held ∧
      x.dix = c.split.dix + 1 ∧ special w = special c.warp ∧ saved x = saved c.split ∧ w.fpctl = c.warp.fpctl ∧ w.sticky = c.warp.sticky) ∧
    (MayIssue (.syswrSticky f) c s → ¬ shared → ∃ t w x, Silent (.syswrSticky f) c s t w x ∧ x.exm = c.split.exm ∧
      w.sticky = (BitVec.ofNat 32 src ||| c.warp.landed) &&& stickyMask ∧ special w = special c.warp ∧ saved x = saved c.split ∧
      w.fpctl = c.warp.fpctl ∧ x.dix = c.split.dix + 1) ∧
    (MayIssue (.syswrSticky f) c s → shared → Traps (.syswrSticky f) c s 0x0D 0) ∧
    (MayIssue (.syswrFpctl f) c s → ∃ t w x, Silent (.syswrFpctl f) c s t w x ∧ x.exm = c.split.exm ∧
      w.fpctl.toNat = src / 64 % 2 * 64 + src / 8 % 4 * 8 + (if 4 < src % 8 then 0 else src % 8) ∧ special w = special c.warp ∧
      saved x = saved c.split ∧ w.sticky = c.warp.sticky ∧ x.dix = c.split.dix + 1) ∧
    (MayIssue (.lsync f) c s → c.task.determ = false → Later (.lsync f) c s 4 []) ∧
    (MayIssue (.lsync f) c s → c.task.determ = true → ∃ t q, exec (.lsync f) s = .next t ∧ OwnWarp (.lsync f) c s t q ∧ OtherWarps c s t ∧
      t.mem = s.mem ∧ t.groups = s.groups ∧ q.kind = .lsync ∧ q.due = s.cycle + 1 ∧ q.writes = []) ∧
    (MayIssue (.logmk f) c s → ∃ t w x, Silent (.logmk f) c s t w x ∧ x.exm = c.split.exm ∧ special w = special c.warp ∧
      saved x = saved c.split ∧ w.fpctl = c.warp.fpctl ∧ w.sticky = c.warp.sticky ∧
      ((s.core c.grp.core).frozen = none → (s.core c.grp.core).owes = false → (s.core c.grp.core).ringAt ≠ some s.cycle →
        (t.core c.grp.core).ring = (scrivRecord (BitVec.ofNat 64 (f.imm.toNat * 2 ^ 32 + (c.env.ssrc f.sa).toNat)) s.cycle c.task.asid
          c.task.part (c.warp.bay * 16 + c.warp.slot) c.ref.ent 0x10 :: (s.core c.grp.core).ring).take 8192))

/-- MBXSEND and MBXRECV (R188, R285): a message moves between the bench and its ring with status 0, or the ring has no room, or no message,
and the status is 1; a misaligned address, one outside the allocation and a mailbox of Dallum's trap. Where the manual leaves more than one
reading, the clauses rest on the model's readings in log 55. -/
def Obligations.MailboxInstructions : Prop :=
  ∀ (f : TFmt) c s,
    let m := f.imm.toNat
    let a := (c.env.ssrc f.sa).toNat
    let sp : Spot := ⟨0, 0, a, benchKey c.grp.core (c.grp.benchBase + a), 64, ⟨.bench, c.grp.core⟩⟩
    let box := (s.part c.task.part).box m
    let good := a % 64 = 0 ∧ a + 64 ≤ c.grp.benchSize ∧ s.dallumBox c.task.part m = false
    let status := fun (q : Pend) (v : Word) => q.kind = .long ∧ q.due = s.cycle + 4 ∧ q.writes = [.sca (dIdx f.dst) v]
    (∀ b : Bool, let i := if b then Instr.mbxsend f else Instr.mbxrecv f
      MayIssue i c s → (a % 64 ≠ 0 → Traps i c s 0x0A a) ∧
        (a % 64 = 0 → c.grp.benchSize < a + 64 ∨ s.dallumBox c.task.part m = true → Traps i c s 0x09 a)) ∧
    (MayIssue (.mbxsend f) c s → good → ∃ t q, exec (.mbxsend f) s = .next t ∧ Outstanding c t q ∧ s.fresh ≤ q.id ∧ OtherWarps c s t ∧
      t.mem = s.mem ∧
      (16 ≤ box.outbound.length → status q 1 ∧ t.parts = s.parts) ∧
      (box.outbound.length < 16 → status q 0 ∧
        (t.part c.task.part).box m = { box with outbound := box.outbound ++ [(s.scratchBytes c.grp sp).bytes] })) ∧
    (MayIssue (.mbxrecv f) c s → good → Memory.wf s.mem = true → c.grp.pair = none → ∃ t q, exec (.mbxrecv f) s = .next t ∧ Outstanding c t q ∧ s.fresh ≤ q.id ∧
      (box.inbound = [] → status q 1 ∧ t.mem = s.mem ∧ t.parts = s.parts) ∧
      (∀ x rest, box.inbound = x :: rest → x.1.length = 64 → status q 0 ∧ (t.part c.task.part).box m = { box with inbound := rest } ∧
        rdBytes t.mem sp.key 64 = x.1 ∧
        ∀ b, sp.holds b = false → sp.validates b = false → rdByte t.mem b = rdByte s.mem b))

/-- SPAWN, EVPUT and EVGET (R188, R289, R292). Where the manual leaves more than one reading, the clauses rest on the model's readings in
log 55 and 68. -/
def Obligations.SpawnAndEventInstructions : Prop :=
  ∀ (f : TFmt) c s,
    let n := f.imm.toNat
    let p := s.part c.task.part
    let ring := (flook n p.queues).getD []
    let status := fun (q : Pend) (v : Word) => q.kind = .long ∧ q.due = s.cycle + 4 ∧ q.writes = [.sca (dIdx f.dst) v]
    let isWord := fun (r : BitVec 128) => ∀ k < 4, r.extractLsb' (32 * k) 32 = c.env.sca (fIdx f.sa + k)
    let took := fun (q : Pend) (r : BitVec 128) => q.kind = .long ∧ q.due = s.cycle + 4 ∧
      q.writes = (List.range 4).map (fun k => RegWrite.sca (dIdx f.dst + k) (r.extractLsb' (32 * k) 32)) ++ [.sca (dIdx f.dst + 4) 0]
    (MayIssue (.spawn f) c s → c.task.determ = false → ∃ t q cid g, exec (.spawn f) s = .next t ∧ OwnWarp (.spawn f) c s t q ∧
      OtherWarps c s t ∧ t.mem = s.mem ∧ q.kind = .spawn (c.env.src64 f.sa true 0) cid (dIdx f.dst) ∧ q.due = s.cycle + 4 ∧
      t.group? c.ref.gid = some g ∧ g.sbuf = []) ∧
    (MayIssue (.spawn f) c s → c.task.determ = true → c.grp.full [2 ^ 80] = false → ∃ t q g, exec (.spawn f) s = .next t ∧
      OwnWarp (.spawn f) c s t q ∧ OtherWarps c s t ∧ t.mem = s.mem ∧ status q 0 ∧ t.group? c.ref.gid = some g ∧
      g.held = c.grp.held ++ [.spawn (c.env.src64 f.sa true 0)]) ∧
    (MayIssue (.spawn f) c s → c.task.determ = true → c.grp.full [2 ^ 80] = true → Traps (.spawn f) c s 0x0D 0) ∧
    (MayIssue (.evput f) c s → n = 255 → c.task.control = false → Traps (.evput f) c s 0x09 0) ∧
    (MayIssue (.evput f) c s → n = 255 → c.task.control = true → ∃ t q, exec (.evput f) s = .next t ∧ OwnWarp (.evput f) c s t q ∧
      OtherWarps c s t ∧ t.mem = s.mem ∧ (256 ≤ p.requests.length → status q 1 ∧ t.parts = s.parts) ∧
      (p.requests.length < 256 → status q 0 ∧ ∃ r, isWord r ∧ (t.part c.task.part).requests = p.requests ++ [(r, c.grp.task)])) ∧
    (MayIssue (.evput f) c s → n ≠ 255 → ∃ t q, exec (.evput f) s = .next t ∧ OwnWarp (.evput f) c s t q ∧ OtherWarps c s t ∧ t.mem = s.mem ∧
      (256 ≤ ring.length → status q 1 ∧ t.parts = s.parts) ∧
      (ring.length < 256 → status q 0 ∧ ∃ r, isWord r ∧ flook n (t.part c.task.part).queues = some (ring ++ [r]) ∧
        ∀ m tag, flook n p.forward = some (m, tag) →
          ((t.part c.task.part).box m).outbound = (p.box m).outbound ++ [message 0x8004 tag 0 (natBytes 16 r.toNat)])) ∧
    (MayIssue (.evget f) c s → c.task.control = false → Traps (.evget f) c s 0x09 0) ∧
    (MayIssue (.evget f) c s → c.task.control = true → ∃ t q, exec (.evget f) s = .next t ∧ OwnWarp (.evget f) c s t q ∧ OtherWarps c s t ∧
      t.mem = s.mem ∧
      ((n = 255 ∧ p.requests = []) ∨ (n ≠ 255 ∧ ring = []) → t.parts = s.parts ∧ q.kind = .long ∧ q.due = s.cycle + 4 ∧
        q.writes = [.sca (dIdx f.dst + 4) 1]) ∧
      (∀ r rest, n = 255 → p.requests = r :: rest → took q r.1 ∧ (t.part c.task.part).requests = rest) ∧
      (∀ r rest, n ≠ 255 → ring = r :: rest → took q r ∧ flook n (t.part c.task.part).queues = some rest))

/-! ## Exceptions -/

/-- Taking an exception and returning from one (R336, R337). Entry saves the split in a trap frame, writes CAUSE, TVAL and EPC, pushes v0 to
v(h−1) of each held lane, slides the window, masks no held lane, clears the predicates there and goes to TRAPBASE's address. TRET of a split
that holds all the frame's lanes restores all of it; the run goes on only if EPC is still the saved one. Where the manual leaves more than
one reading, the clauses rest on the model's readings in log 37 and 42. -/
def Obligations.TrapEntryAndReturn : Prop :=
  (∀ s r c t, s.issuerOf r = some c → t.note = none → t.cause ≠ 0x12 → c.split.handler = none → (t.cause ≠ 0x08 ∨ t.deferred = true) → c.trapWaits = false →
    Memory.wf s.mem = true → Canon 0 c.warp.preds →
    let entry := c.warp.trapbase &&& 0x1FFFFFFFFFFFFFF#64
    let h := 16 * (c.warp.trapbase.toNat / 2 ^ 57 % 16)
    let here := fun l => l < 64 ∧ c.split.held.getLsbD l = true
    let key := fun l off => c.stackKey l (c.depth l + off)
    entry ≠ 0 → h < c.warp.nregs → (∀ l, here l → c.depth l + 4 * h ≤ c.task.stack) →
    ∃ w x fr, (raise s r t).warp? r.gid r.wid = some w ∧ w.split? r.ent = some x ∧ x.pc = entry ∧ x.held = c.split.held ∧
      x.exm = c.split.held ∧ x.dix = c.split.dix ∧ x.wb = (c.split.wb + h) % c.warp.nregs ∧ x.frame = none ∧ x.chain = [] ∧
      x.handler = some s.fresh ∧ x.cause = t.causeWord ∧ x.tval = t.tval ∧ x.epc = t.epc ∧ x.run = {} ∧ x.bound = none ∧
      flook s.fresh w.tframes = some fr ∧ fr.pc = t.epc ∧ fr.held = c.split.held ∧ fr.exm = c.split.exm ∧ fr.dix = c.split.dix ∧
      fr.wb = c.split.wb ∧ fr.frame = c.split.frame ∧ fr.chain = c.split.chain ∧ fr.preds = c.warp.preds ∧ fr.slide = h ∧
      fr.run = (if c.split.run.count = 0 then none else some c.split.run) ∧ w.vregs = c.warp.vregs ∧ w.sregs = c.warp.sregs ∧
      w.flags = c.warp.flags ∧ w.pend = c.warp.pend ∧
      (∀ k < 8, fget 0 k w.preds = fget 0 k c.warp.preds &&& ~~~ c.split.held) ∧
      (∀ l, here l → ∀ j < h, rdNat (raise s r t).mem (key l (4 * j)) 4 = (c.env.vec j l).toNat) ∧
      ∀ a, (∀ l, here l → ¬ (key l 0 ≤ a ∧ a < key l (4 * h))) → rdByte (raise s r t).mem a = rdByte s.mem a) ∧
  (∀ (f : TFmt) c s id fr, MayIssue (.tret f) c s → c.split.handler = some id → flook id c.warp.tframes = some fr → fr.held = c.split.held →
    Canon 0 c.warp.preds → Canon 0 c.warp.vregs → fr.slide ≤ c.warp.nregs →
    ∃ t w x, exec (.tret f) s = .next t ∧ t.warp? c.ref.gid c.ref.wid = some w ∧ w.split? c.ref.ent = some x ∧
      (s.soft = [] → s.poison = [] → t.mem = s.mem) ∧ OtherWarps c s t ∧ x.pc = c.split.epc ∧ x.held = fr.held ∧ x.exm = fr.exm ∧ x.dix = fr.dix ∧ x.wb = fr.wb ∧ x.frame = fr.frame ∧
      x.chain = fr.chain ∧ x.handler = none ∧ x.run = (if c.split.epc = fr.pc then fr.run.getD {} else {}) ∧ flook id w.tframes = none ∧
      w.sregs = c.warp.sregs ∧ w.flags = c.warp.flags ∧ w.pend = c.warp.pend ∧
      (∀ k < 8, fget 0 k w.preds = (fget 0 k c.warp.preds &&& ~~~ fr.held) ||| (fget 0 k fr.preds &&& fr.held)) ∧
      ∀ l < 64, fr.held.getLsbD l = true → ∀ j < fr.slide, fget 0 ((fr.wb + j) % c.warp.nregs * 64 + l) w.vregs =
        BitVec.ofNat 32 (c.popped s l (fget 0 l fr.floors - 4 * fr.slide + 4 * j) 4))

/-- Software traps issue and save the next program counter; an unassigned opcode traps with reason 1 (R40, R188, R333); a trap inside a
handler and a TRET by a split that lacks lanes of its frame are a DOUBLE_FAULT, which ends the task (R338, R340, R342); a precise PAGE_FAULT
parks the split with its run (R203, R335); a trap waits for the split's outstanding register writes (R336). CHECKSUM_FATAL reports the core
and ends the crew, with no handler, and even from one (R333, R345; log 115). Where the manual leaves more than one reading, the clauses rest
on the model's readings in log 37. -/
def Obligations.TrapInstructionsAndFaults : Prop :=
  (∀ (f : TFmt) c s,
    let info := fun (k : Nat) => ({ cause := k, tval := BitVec.ofNat 64 (f.imm.toNat % 65536), epc := nextPc c.split.pc } : TrapInfo)
    (MayIssue (.trap f) c s → exec (.trap f) s = .next (raise (issued (.trap f) c s) c.ref (info 0x20))) ∧
    (MayIssue (.trapBkpt f) c s → exec (.trapBkpt f) s = .next (raise (issued (.trapBkpt f) c s) c.ref (info 0x21))) ∧
    (∀ id fr, MayIssue (.tret f) c s → c.split.handler = some id → flook id c.warp.tframes = some fr → fr.held ≠ c.split.held →
      exec (.tret f) s = .next (doubleFault (issued (.tret f) c s) c.grp))) ∧
  (∀ (f : UFmt) c s, s.issuer = some c → canIssue (.unassignedOpcode f) c s = true → c.split.run.count < 24 →
    Traps (.unassignedOpcode f) c s 0x01 (f.op.toNat * 16 + 1)) ∧
  (∀ s r c t, s.issuerOf r = some c → t.note = none → t.cause = 0x12 →
    raise s r t = relaunchOrEnd (s.reportCore t.core c.task c.grp.index 0x12) c.grp 0x12) ∧
  (∀ s r c t, s.issuerOf r = some c → t.note = none → t.cause ≠ 0x12 →
    (c.split.handler.isSome = true → raise s r t = doubleFault s c.grp) ∧
    (c.split.handler = none → t.cause = 0x08 → t.deferred = false → ∃ w x, (raise s r t).warp? r.gid r.wid = some w ∧
      w.split? r.ent = some x ∧ x.parked = some t.tval ∧ x.run = c.split.run ∧ x.pc = c.split.pc ∧ x.bound = none ∧ x.exm = c.split.exm ∧
      w.vregs = c.warp.vregs ∧ w.sregs = c.warp.sregs ∧ w.preds = c.warp.preds) ∧
    (c.split.handler = none → t.cause ≠ 0x08 ∨ t.deferred = true → c.trapWaits = true → ∃ w x, (raise s r t).warp? r.gid r.wid = some w ∧
      w.split? r.ent = some x ∧ x.trap = some t ∧ x.pc = c.split.pc ∧ x.bound = none ∧ (raise s r t).mem = s.mem)) ∧
  (∀ s (g : Group) k, flook g.task s.tasks = some k → k.ended = none → ∃ k', flook g.task (doubleFault s g).tasks = some k' ∧
    k'.ended = some 0x30 ∧ ∀ x cr, flook x s.crews = some cr → cr.task = g.task → cr.ending = none →
      ∃ cr', flook x (doubleFault s g).crews = some cr' ∧ cr'.ending = some 0x30)

/-! ## Matrix instructions -/

/-- MCLAIM and MFREE change the state of all their slots, or trap SLOT_STATE for the lowest slot whose state refuses it with none changed;
they complete one cycle later (R105, R108, R109). MFILL marks its slot LOADING and queues a fill, or traps: misaligned, outside the bench,
or for the slot's state (R110). Where the manual leaves more than one reading, the clauses rest on the model's readings in log 110. -/
def Obligations.SlotInstructions : Prop :=
  ∀ (f : XFmt) c s,
    let k0 := f.slota.toNat
    let kn := k0 + f.func.toNat % 32
    let st := fun k => (c.grp.slot k).state
    let set := fun t v => SlotsTiles c s t (fun k => if k0 ≤ k ∧ k ≤ kn then { c.grp.slot k with state := v } else c.grp.slot k) c.grp.tile
    let done := fun (i : Instr) v => ∃ t q, exec i s = .next t ∧ OwnWarp i c s t q ∧ OtherWarps c s t ∧ t.mem = s.mem ∧ q.kind = .long ∧
      q.due = s.cycle + 1 ∧ q.writes = [] ∧ set t v
    let refused := fun (i : Instr) (ok : Nat → Prop) => ∀ k, k0 ≤ k → k ≤ kn → ¬ ok (st k) → (∀ j, k0 ≤ j → j < k → ok (st j)) →
      Traps i c s 0x11 (k + st k * 512)
    let a := (c.env.ssrc f.pa).toNat
    let h := (c.env.ssrc f.pb).toNat
    let n := headerBytes f.fmta.toNat
    (MayIssue (.mclaim f) c s → ((∀ k, k0 ≤ k → k ≤ kn → st k = 0) → done (.mclaim f) 1) ∧ refused (.mclaim f) (· = 0)) ∧
    (MayIssue (.mfree f) c s → ((∀ k, k0 ≤ k → k ≤ kn → st k ≠ 0 ∧ st k ≠ 2) → done (.mfree f) 0) ∧
      refused (.mfree f) fun x => x ≠ 0 ∧ x ≠ 2) ∧
    (MayIssue (.mfill f) c s →
      (a % 64 ≠ 0 → Traps (.mfill f) c s 0x0A a) ∧ (a % 64 = 0 → c.grp.benchSize < a + 12288 → Traps (.mfill f) c s 0x09 a) ∧
      (a % 64 = 0 → a + 12288 ≤ c.grp.benchSize →
        (n ≠ 0 → h % 64 ≠ 0 → Traps (.mfill f) c s 0x0A h) ∧
        (n ≠ 0 → h % 64 = 0 → c.grp.benchSize < h + n → Traps (.mfill f) c s 0x09 h) ∧
        (n = 0 ∨ (h % 64 = 0 ∧ h + n ≤ c.grp.benchSize) →
          (st k0 = 0 ∨ st k0 = 2 → Traps (.mfill f) c s 0x11 (k0 + st k0 * 512)) ∧
          (st k0 ≠ 0 → st k0 ≠ 2 → ∃ e, Commands (.mfill f) c s e ∧ e.kind = .mfill ∧ e.dst = 5 ∧ e.srcA = a ∧ e.len = 12288 ∧
            e.hdrLen = n ∧ (n ≠ 0 → e.hdrA = h) ∧ e.lslot = k0 ∧ e.slot = (c.grp.slot k0).phys ∧ e.fmta = f.fmta.toNat ∧
            (e.sp = true ↔ f.func = 1) ∧ e.due = s.cycle + 96 + n / 128 ∧
            ∀ t, exec (.mfill f) s = .next t →
              SlotsTiles c s t (fun k => if k = k0 then { c.grp.slot k with state := 2 } else c.grp.slot k) c.grp.tile))))

/-- MMA and MMAS enter the queue of the warp's bay with their slots, tile, formats and extents; their slots have one more reader each, and
the first provisional command of a tile marks the tile and its partner. A slot that is FREE or CLAIMED and a tile whose state does not allow
the command trap SLOT_STATE (R105, R108, R112, R116, R124, R126). Where the manual leaves more than one reading, the clauses rest on the
model's readings in log 67. -/
def Obligations.TileProductsQueue : Prop :=
  ∀ (sparse : Bool) (f : XFmt) c s,
    let i := if sparse then Instr.mmas f else .mma f
    let a := f.slota.toNat
    let b := f.slotb.toNat
    let k := f.acc.toNat
    let p := f.prov.toNat % 64
    let prov := f.prov.getLsbD 6
    let st := fun k => (c.grp.slot k).state
    let ts := fun k => (c.grp.tile k).state
    let x := if f.func.getLsbD 1 then (c.env.ssrc f.pa).toNat else 0
    let ext := fun v full => if v = 0 ∨ full < v then full else v
    let first := prov && ts k = 0
    MayIssue i c s →
      (st a < 2 → Traps i c s 0x11 (a + st a * 512)) ∧
      (2 ≤ st a → st b < 2 → Traps i c s 0x11 (b + st b * 512)) ∧
      (2 ≤ st a → 2 ≤ st b →
        (prov = false → ts k ≠ 0 → Traps i c s 0x11 (k + 256 + ts k * 512)) ∧
        (prov = true → ts k = 0 → ts (k + 1) ≠ 0 → Traps i c s 0x11 (k + 1 + 256 + ts (k + 1) * 512)) ∧
        (prov = true → 2 ≤ ts k ∨ (ts k = 1 ∧ (c.grp.tile k).pred ≠ p) → Traps i c s 0x11 (k + 256 + ts k * 512)) ∧
        ((prov = false ∧ ts k = 0) ∨ (prov = true ∧ ((ts k = 0 ∧ ts (k + 1) = 0) ∨ (ts k = 1 ∧ (c.grp.tile k).pred = p))) →
          2 ≤ s.stage ∨ (sparse = false ∧ f.fmta = 8) → TileFree c s k →
          ∃ t m, Queues i c s t m ∧ m.kind = (if sparse then MKind.mmas else .mma) ∧ m.slotA = (c.grp.slot a).phys ∧
            m.slotB = (c.grp.slot b).phys ∧ m.tile = k ∧ m.fmta = f.fmta.toNat ∧ m.fmtb = f.fmtb.toNat ∧ m.z = f.func.getLsbD 0 ∧
            m.rows = ext (x % 256) 128 ∧ m.cols = ext (x / 256 % 256) 128 ∧
            m.kext = ext (x / 65536 % 65536) (24 * blocksOf f.fmta.toNat) ∧ m.prov = prov ∧ m.first = first ∧
            m.ovtrap = c.warp.fpctl.getLsbD 6 ∧
            (∀ n, n ∈ m.needs ↔ ∃ e ∈ (s.core c.grp.core).engine, e.id = n ∧ e.gid = c.ref.gid ∧ e.dst = 5 ∧
              (e.lslot = a ∨ e.lslot = b)) ∧
            SlotsTiles c s t
              (fun j => if j = a ∨ j = b then { c.grp.slot j with readers := (c.grp.slot j).readers + 1 } else c.grp.slot j)
              (fun j => if first = true ∧ j = k then { c.grp.tile j with state := 1, pred := p }
                else if first = true ∧ j = k + 1 then { c.grp.tile j with state := 2 } else c.grp.tile j)))

/-- MZERO, MACCLD and MACCST of a NORMAL tile enter the queue of the warp's bay; the transfers trap precisely where an address or a pitch is
no multiple of 16 or the range leaves the bench (R112, R114). MRESOLVE leaves a tile that is not PROVISIONAL with SLOT_STATE; on a commit,
and on a discard with nothing to drop, it is queued and both tiles leave the provisional state; a discard takes the tile's provisional
commands that have not started from the queues (R125). MSTAT writes the status record of the group's slots and tiles to the bench (R130).
Where the manual leaves more than one reading, the clauses rest on the model's readings in log 28 and 112. -/
def Obligations.TileTransfersAndStatus : Prop :=
  (∀ (f : XFmt) c s,
    let k := f.acc.toNat
    let ts := (c.grp.tile k).state
    let a := (c.env.ssrc f.pa).toNat
    let p := (c.env.ssrc f.pb).toNat
    let form := f.func.toNat % 4
    let rnd := f.func.toNat / 4 % 8
    let w := fun (i : Instr) => if i = .maccst f ∧ form ≠ 0 then 2 else 4
    (∀ i, i = Instr.mzero f ∨ i = .maccld f ∨ i = .maccst f → MayIssue i c s →
      i = .mzero f ∨ (a % 16 = 0 ∧ p % 16 = 0 ∧ a + 127 * p + 128 * w i ≤ c.grp.benchSize) →
      (ts ≠ 0 → Traps i c s 0x11 (k + 256 + ts * 512)) ∧
      (ts = 0 → ¬ TileFree c s k → Traps i c s 0x0D 0) ∧
      (ts = 0 → TileFree c s k → ∃ t m, Queues i c s t m ∧ t.groups = s.groups ∧ m.tile = k ∧
        m.kind = (if i = .mzero f then MKind.mzero else if i = .maccld f then .maccld else .maccst) ∧
        (i = .mzero f ∨ i = .maccld f → (m.clear = true ↔ f.func = 1)) ∧
        (i ≠ .mzero f → m.addr = a ∧ m.pitch = p) ∧
        (i = .maccst f → m.form = form ∧ m.rnd = if rnd = 5 then c.warp.fpctl.toNat % 8 else rnd))) ∧
    (∀ i, i = Instr.maccld f ∨ i = .maccst f → MayIssue i c s →
      (a % 16 ≠ 0 → Traps i c s 0x0A a) ∧ (a % 16 = 0 → p % 16 ≠ 0 → Traps i c s 0x0A p) ∧
      (a % 16 = 0 → p % 16 = 0 → c.grp.benchSize < a + 127 * p + 128 * w i → Traps i c s 0x09 a))) ∧
  (∀ (f : XFmt) c s,
    let k := f.acc.toNat
    let tl := c.grp.tile k
    let commit := decide (c.env.sca tl.pred ≠ 0)
    let drop := if commit then [] else unstarted (s.core c.grp.core) c.ref.gid k
    let normal := fun j => if j = k ∨ j = k + 1 then { c.grp.tile j with state := 0 } else c.grp.tile j
    let a := (c.env.ssrc f.pa).toNat
    let key := benchKey c.grp.core (c.grp.benchBase + a)
    let sp : Spot := ⟨0, 0, a, key, 128, ⟨.bench, c.grp.core⟩⟩
    let core := s.core c.grp.core
    (MayIssue (.mresolve f) c s → (tl.state ≠ 1 → Traps (.mresolve f) c s 0x11 (k + 256 + tl.state * 512)) ∧
      (tl.state = 1 → TileFree c s k →
        (drop = [] → ∃ t m, Queues (.mresolve f) c s t m ∧ m.kind = .mresolve ∧ m.tile = k ∧ m.commit = commit ∧ m.snap = !commit ∧
          SlotsTiles c s t c.grp.slot normal) ∧
        ∃ t m g, exec (.mresolve f) s = .next t ∧ m.kind = .mresolve ∧ m.tile = k ∧ m.commit = commit ∧
          flook c.warp.bay (t.core c.grp.core).queues =
            some (((flook c.warp.bay core.queues).getD []).filter (fun m => !drop.any (·.id = m.id)) ++ [m]) ∧
          t.group? c.ref.gid = some g ∧ ∀ j, (g.tile j).state = (normal j).state)) ∧
    (MayIssue (.mstat f) c s →
      (a % 64 ≠ 0 → Traps (.mstat f) c s 0x0A a) ∧ (a % 64 = 0 → c.grp.benchSize < a + 128 → Traps (.mstat f) c s 0x09 a) ∧
      (a % 64 = 0 → a + 128 ≤ c.grp.benchSize → c.grp.slotCount ≤ 32 → c.grp.tileCount ≤ 8 → Memory.wf s.mem = true →
        (∀ j, (c.grp.slot j).state < 4 ∧ (c.grp.tile j).state < 16) →
        ∃ t q g, exec (.mstat f) s = .next t ∧ Outstanding c t q ∧ s.fresh ≤ q.id ∧ q.kind = .long ∧ q.due = s.cycle + 8 ∧ q.writes = [] ∧
          (∀ j < c.grp.tileCount, rdNat t.mem (key + 2 * j) 1 = (c.grp.tile j).ovf % 256 ∧
            rdNat t.mem (key + 2 * j + 1) 1 = (c.grp.tile j).nan % 256) ∧
          (∀ j < 32, rdNat t.mem (key + 16) 8 / 4 ^ j % 4 = if j < c.grp.slotCount then (c.grp.slot j).state else 0) ∧
          (∀ j < 8, rdNat t.mem (key + 24) 4 / 16 ^ j % 16 = if j < c.grp.tileCount then (c.grp.tile j).state else 15) ∧
          rdNat t.mem (key + 32) 4 = s.budgetOf c.grp.core % 2 ^ 32 ∧ rdNat t.mem (key + 36) 4 = core.used % 2 ^ 32 ∧
          rdNat t.mem (key + 40) 8 = s.cycle / 1024 % 2 ^ 64 ∧
          (∀ j < 32, rdNat t.mem (key + 64 + 2 * j) 2 = if j < c.grp.slotCount then (c.grp.slot j).estimate % 65536 else 0) ∧
          (∀ b, sp.holds b = false → sp.validates b = false → rdByte t.mem b = rdByte s.mem b) ∧
          t.group? c.ref.gid = some g ∧
          ∀ j, g.tile j = if f.func = 1 then { c.grp.tile j with ovf := 0, nan := 0 } else c.grp.tile j)))

/-! ## Engines -/

/-- CPY and GATHER: a command whose block and object pass their checks goes to the copy engine with what the block says; a slot that it
fills is LOADING (R108, R177 to R180). Its follow-on is announced with it: a second operation is outstanding, whose flag counts from then
on. -/
def Obligations.CopiesLaunch : Prop :=
  ∀ (gather : Bool) (f : XFmt) c s b s1,
    let i := if gather then Instr.gather f else .cpy f
    let e := s1.objEntry c.task.asid f.obj.toNat
    let dst := copyDst f
    let k := f.slota.toNat
    let row := fieldNat b 24 4
    let len := if gather then row * fieldNat b 20 4 else fieldNat b 16 4
    let good := (gather = true ∨ fieldNat b 0 8 % 16 = 0) ∧ fieldNat b 8 8 % 16 = 0 ∧ (dst = 1 → fieldNat b 8 8 = 0 ∧ len = 12288) ∧
      (if gather then fieldNat b 16 4 % 4 = 0 ∧ 0 < fieldNat b 20 4 ∧ fieldNat b 20 4 ≤ 65536 ∧ 16 ≤ row ∧ row ≤ 65536 ∧ row % 16 = 0
        else 0 < len ∧ len % 16 = 0 ∧ fieldNat b 20 8 % 16 = 0 ∧ (dst ≠ 1 → fieldNat b 20 8 = 0))
    let holds := fun (x : ECmd) => x.kind = (if gather then EKind.gather else .cpy) ∧ x.entry = e ∧ x.block = b ∧ x.srcA = fieldNat b 0 8 ∧
      x.dstA = fieldNat b 8 8 ∧ x.len = len ∧ x.src = (if gather then 4 else f.func.toNat % 4 + 1) ∧
      x.dst = (if dst = 0 then 0 else if dst = 1 then 5 else 4) ∧ x.lslot = k ∧ x.slot = (c.grp.slot k).phys ∧
      (if gather then x.hdrA = fieldNat b 16 4 ∧ x.total = row ∧ x.pitch = (c.env.ssrc f.pb).toNat
        else x.hdrA = fieldNat b 20 8 ∧ x.hdrLen = if dst = 1 then headerBytes f.fmta.toNat else 0)
    MayIssue i c s → BlockRead i f 64 c s b s1 → ObjectGood i c s1 e → good → (dst = 2 → objDraft e ≠ 0) →
      (∀ op r, copyFollow f = true → followOf c.grp b = .error (op, r) → Traps i c s 0x01 (op * 16 + r)) ∧
      ((copyFollow f = true → ∃ j, followOf c.grp b = .ok j) → dst = 1 → (c.grp.slot k).state = 0 ∨ (c.grp.slot k).state = 2 →
        Traps i c s 0x11 (k + (c.grp.slot k).state * 512)) ∧
      ((dst = 1 → (c.grp.slot k).state ≠ 0 ∧ (c.grp.slot k).state ≠ 2) →
        (copyFollow f = false → ∃ x, Commands i c s x ∧ holds x ∧ x.follow = none) ∧
        (∀ j, copyFollow f = true → followOf c.grp b = .ok j → ∃ t q r x, exec i s = .next t ∧ Outstanding c t q ∧ Outstanding c t r ∧
          t.mem = s.mem ∧ r.id = q.id + 1 ∧ r.kind = .engine ∧ r.flag = postFlag (c.profile j).head.post ∧ q.kind = .engine ∧
          q.flag = postFlag f.post ∧ (t.core c.grp.core).engine = (s.core c.grp.core).engine ++ [x] ∧ x.pid = q.id ∧ holds x ∧
          x.follow = some (fieldNat b 32 12)) ∧
        ((copyFollow f = true → ∃ j, followOf c.grp b = .ok j) → ∃ t g, exec i s = .next t ∧ t.group? c.ref.gid = some g ∧
          (gather = true ∨ 2 ≤ f.func.toNat % 4 → g.sbuf = []) ∧
          ∀ j, g.slot j = if dst = 1 ∧ j = k then { c.grp.slot j with state := 2 } else c.grp.slot j))

/-! ## Method programs -/

/-- MLD, MST, MKILL and MEND trap ILLEGAL_INSTR on a core, with reason 8 unless a field of the instruction has a lower one (R40, R41, R187).
In the run of a method program, MLD reads a word of the record or the payload, the sample, the pixel or the sequence number; MST stages a
word; MKILL kills the active samples; MEND ends the run; each counts one instruction and changes nothing else. An illegal one ends the run
with nothing left of it (R187, R257). Where the manual leaves more than one reading, the clauses rest on the model's readings in log 99. -/
def Obligations.MethodInstructions : Prop :=
  (∀ (f : VFmt) c s i, i = Instr.mld f ∨ i = .mst f ∨ i = .mkill f ∨ i = .mend f → s.issuer = some c → canIssue i c s = true →
    c.split.run.count < 24 → ∃ r ≤ 8, (true, r) ∈ ckCommon i c ++ checks i c ∧ (∀ n, (true, n) ∈ ckCommon i c ++ checks i c → r ≤ n) ∧
      Traps i c s 0x01 ((c.profile i).head.op * 16 + r)) ∧
  (∀ (f : VFmt) pc s r, s.cur = .method pc → s.method = some r →
    let on := fun l => (r.env.active f.guard).getLsbD l
    let k := f.func.toNat
    let word := fun l => if k < 4 then r.words.getD (4 * l + k) 0 else if k < 16 then r.payload.getD (k - 8) 0
      else if k = 16 then BitVec.ofNat 32 l else if k = 17 then BitVec.ofNat 32 r.pos else BitVec.ofNat 32 r.seq
    let runs := fun (i : Instr) (q : MethodRun) => exec i s = .next { s with method := some q }
    let counted := { r.run with count := r.run.count + 1 }
    let bad := fun i => exec i s = .next { s with method := none }
    (Canon 0 r.vregs → lowest (ckMld r.env f) = none → ∃ q, runs (.mld f) q ∧ q = { r with run := counted, vregs := q.vregs } ∧
      ∀ n l, l < 64 → fget 0 (n * 64 + l) q.vregs = if n = dIdx f.dst ∧ on l = true then word l else fget 0 (n * 64 + l) r.vregs) ∧
    (lowest (ckMst r.env f) = none → ∃ q, runs (.mst f) q ∧ q = { r with run := counted, staged := q.staged } ∧
      ∀ l j, l < 64 → j < 4 → flook (4 * l + j) q.staged =
        if j = k % 4 ∧ on l = true then some (r.env.src f.sa false l) else flook (4 * l + j) r.staged) ∧
    (lowest (ckMethod f false false true 0) = none → ∃ q, runs (.mkill f) q ∧ q = { r with run := counted, killed := q.killed } ∧
      ∀ l < 64, q.killed.getLsbD l = (r.killed.getLsbD l || on l)) ∧
    (lowest (ckMethod f false false false 0) = none → runs (.mend f) { r with run := counted, ended := true }) ∧
    ((lowest (ckMld r.env f)).isSome → bad (.mld f)) ∧ ((lowest (ckMst r.env f)).isSome → bad (.mst f)) ∧
    ((lowest (ckMethod f false false true 0)).isSome → bad (.mkill f)) ∧
    ((lowest (ckMethod f false false false 0)).isSome → bad (.mend f)))

/-! ## Events of cores -/

/-- What completes: the fixed-latency write at its cycle, an operation of known latency, a store, atomic or packet with no piece left, and a
load when its last byte is there; before that the event changes nothing (R21, R23, R137). A barrier phase completes every waiter and the
next phase begins (R155). Where the manual leaves more than one reading, the clauses rest on the model's readings in log 11, 13 and 58. -/
def Obligations.OperationsComplete : Prop :=
  (∀ s gid wid id w q, Awaits s gid wid id w q →
    let done := fun e => ∃ t, exec e s = .next t ∧ Completes s t gid wid w q
    (q.kind = .fixed → if q.due ≤ s.cycle then done (.fixedLatencyWriteback gid wid id)
      else exec (.fixedLatencyWriteback gid wid id) s = .next s) ∧
    (q.kind = .load → if q.due ≤ s.cycle ∧ q.left = 0 then done (.loadCompletion gid wid id) else exec (.loadCompletion gid wid id) s = .next s) ∧
    (q.kind = .long → if q.due ≤ s.cycle then done (.longLatencyCompletion gid wid id)
      else exec (.longLatencyCompletion gid wid id) s = .next s) ∧
    ((∃ sp, q.kind = .store sp) ∨ (∃ b, q.kind = .atomic b) ∨ q.kind = .posts →
      if q.due ≤ s.cycle ∧ q.left = 0 then done (.longLatencyCompletion gid wid id) else exec (.longLatencyCompletion gid wid id) s = .next s)) ∧
  (∀ crew uid bar s n,
    let b := State.barrier s crew uid bar
    let members := s.barrierMembers crew uid
    let there := (b.arrived.filter fun a => members.contains (a.gid, a.wid)).length
    let need := if n = 0 then members.length else min n members.length
    (crew = false → s.group? uid ≠ none) → b.govern = some n → members ≠ [] →
    (there < need → exec (.barrierPhaseCompletion crew uid bar) s = .next s) ∧
    (need ≤ there → ∃ t, exec (.barrierPhaseCompletion crew uid bar) s = .next t ∧ State.barrier t crew uid bar = { phase := b.phase + 1 } ∧
      ∀ gid ∈ s.barrierGroups crew uid, ∀ wid < 32, ∀ w, t.warp? gid wid = some w → ∀ q ∈ w.pend, q.kind ≠ .barrier crew bar))

/-- Lines, ports and traps: a program counter that R14 calls invalid traps BAD_TARGET, a line that cannot be read parks or denies the split,
and a sound line is entered (R9 to R15); bad parity is fetched once more (R11); a split that a pre-emption has stopped fetches none (R318);
a free port binds the split that R198 picks; a parked split resumes with its run (R203); a trap that waited is entered (R336); a deferred
trap reaches its split at a run boundary, unless a pre-emption has stopped the split (R318, R341). Where the manual leaves more than one
reading, the clauses rest on the model's readings in log 49 and 52. -/
def Obligations.LinesPortsAndTraps : Prop :=
  (∀ s r c, s.issuerOf r = some c → c.fetching = true → c.saved s = false →
    let x := c.split
    let line := (lineOf x.pc).toNat
    let enters := fun e b => ∃ t, exec e s = .next t ∧ t.mem = s.mem ∧
      t.splitAt r = some { x with line := some (lineOf x.pc), text := b, via := none }
    let sound := fun b => parityOk b = true ∧ lineWordOk b = true ∧ (x.via = none ∨ targetBit b (slotOf x.pc) = true)
    (x.text = [] → pcBad x.pc = true →
      exec (.lineEntry r) s = .next (raise s r { cause := 0x02, tval := x.pc, epc := x.via.getD x.pc })) ∧
    (x.text = [] → pcBad x.pc = false →
      (s.readLine c line = .fault → ∃ note, exec (.lineEntry r) s =
        .next (raise s r { cause := 0x08, tval := lineOf x.pc, epc := x.pc, note := note })) ∧
      (s.readLine c line = .denied → ∃ note, exec (.lineEntry r) s =
        .next (raise s r { cause := 0x09, tval := lineOf x.pc, epc := x.pc, note := note })) ∧
      (∀ b, s.readLine c line = .text b → sound b → enters (.lineEntry r) b) ∧
      (∀ b, s.readLine c line = .text b → parityOk b = false → ∃ t, exec (.lineEntry r) s = .next t ∧
        t.splitAt r = some { x with text := b, line := none })) ∧
    (pcBad x.pc = false → ∀ b, s.readLine c line = .text b → sound b → enters (.lineRefetch r) b)) ∧
  (∀ s r c, s.issuerOf r = some c → c.saved s = true → exec (.lineEntry r) s = .next s ∧ exec (.lineRefetch r) s = .next s) ∧
  (∀ core bay s r, flook (bay * 2) (s.core core).ports = none → s.pick (s.baySplits core bay) = some r →
    ∃ t x, exec (.portBind core bay) s = .next t ∧ t.mem = s.mem ∧ t.splitAt r = some x ∧ x.bound = some 0 ∧ x.lastBind = s.cycle ∧
      flook (bay * 2) (t.core core).ports = some r ∧ ∃ l, t.issuing = s.issuing ++ l ∧ l.length ≤ 2) ∧
  (∀ s r x, s.splitAt r = some x → r ∈ s.woken → ∃ t, exec (.parkedSplitResume r) s = .next t ∧ t.splitAt r = some { x with parked := none } ∧
    r ∉ t.woken ∧ t.mem = s.mem) ∧
  (∀ s r, r ∉ s.woken → exec (.parkedSplitResume r) s = .next s) ∧
  (∀ s r c t, s.issuerOf r = some c → c.split.trap = some t →
    exec (.trapEntry r) s = .next (if c.trapWaits then s else enterTrap s r t)) ∧
  (∀ gid s g d ds w lane ent x, s.group? gid = some g → g.deferred = d :: ds → d.tile = none → s.warp? gid d.wid = some w →
    d.lane w = some lane → w.holder lane = some (ent, x) → d.waitsFor x = false → x.run.count = 0 → x.parked = none → x.trap = none →
    x.second = false → (x.handler = none → ((s.taskOf g).map (·.saving)).getD false = false) →
    exec (.deferredTrapDelivery gid 0) s = .next (raise (s.modGroup gid fun g => { g with deferred := g.deferred.tail }) ⟨gid, d.wid, ent⟩
      { d.info with epc := x.pc, deferred := true, tval := if d.info.cause = 0x0C then d.info.tval ||| 0x8000000000000000#64 else d.info.tval }))

/-! ## Events of the matrix array -/

/-- The array, once free, starts the only eligible head, charges the budget and is busy for the command's cycles (R126, R128, R129); the
first provisional product copies its tile to the odd partner (R124); a subtile that no fault disturbs passes its check and is written,
element by element, and one whose product residues are off is run again once (R117, R122, R123); a command of a task being saved keeps its
place after the subtile (R127); a budget window starts at each multiple of 1,024 cycles (R129). Where the manual leaves more than one
reading, the clauses rest on the model's readings in log 93 and 134. -/
def Obligations.MatrixCommandsRun : Prop :=
  (∀ core s q m rest g,
    let k := s.core core
    let ends := fun n => { m with ends := s.cycle + n }
    k.running = none → k.arrayFrom ≤ s.cycle → q < 5 → flook q k.queues = some (m :: rest) → (∀ p < 5, p ≠ q → (flook p k.queues).getD [] = []) →
    s.group? m.gid = some g → eligible s core m = true → m.sub = 0 → m.restores = false →
    ∃ t, exec (.matrixCommandStart core) s = .next t ∧ flook q (t.core core).queues = some rest ∧
      (t.core core).used = k.used + charge g m ∧
      (m.kind = .mma ∨ (m.kind = .mmas ∧ badMaskOf s.mem (m.opA core) = none) →
        (t.core core).running = some (q, ends (if m.first then 16 else 0)) ∧ (t.core core).finishing = k.finishing ∧
        (m.first = false → t.mem = s.mem) ∧ (m.first = true → Memory.wf s.mem = true → ∀ i < 128, ∀ j < 128,
          rdNat t.mem (tileKey core (g.tileBase + m.tile + 1) i j) 4 = rdNat s.mem (tileKey core (g.tileBase + m.tile) i j) 4)) ∧
      (∀ n, (m.kind = .mzero ∧ n = 16) ∨ ((m.kind = .maccld ∨ m.kind = .maccst) ∧ n = 128) ∨ (m.kind = .mresolve ∧ n = 0) →
        (t.core core).running = none ∧ (t.core core).finishing = k.finishing ++ [ends n] ∧ (t.core core).arrayFrom = max k.arrayFrom (s.cycle + n) ∧
        t.mem = s.mem)) ∧
  (∀ core s q m g,
    let k := s.core core
    k.running = some (q, m) → s.group? m.gid = some g → m.ends + m.cycles s.stage * (m.sub + 1) ≤ s.cycle + 1 →
    let cell := fun i j => 32 * (m.sub / 4) ≤ i ∧ i < 32 * (m.sub / 4) + 32 ∧ i < m.rows ∧ 32 * (m.sub % 4) ≤ j ∧ j < 32 * (m.sub % 4) + 32 ∧
      j < m.cols
    let val := fun i j => (elementOf s.mem (m.opA g.core) (m.opB g.core) m.kext i j
      (if m.z then .fin true 0 0 else f24.decode (rdNat s.mem (tileAt g m.tile i j) 4 / 256))).val
    (m.rows ≤ 128 → m.cols ≤ 128 → m.sub < 16 → Memory.wf s.mem = true → ∃ t, exec (.subtileCheck core 0) s = .next t ∧
      (∀ i j, cell i j → rdNat t.mem (tileAt g m.tile i j) 4 = (f24.encode .rne (val i j)).1 * 256) ∧
      (∀ a, (∀ i j, cell i j → ¬ (tileAt g m.tile i j ≤ a ∧ a < tileAt g m.tile i j + 4)) → rdByte t.mem a = rdByte s.mem a) ∧
      (m.sub < 15 → s.savingCmd core m = false → ∃ d, (t.core core).running = some (q, d) ∧ d.sub = m.sub + 1 ∧ d.ends = m.ends ∧
        (t.core core).finishing = k.finishing) ∧
      (m.sub < 15 → s.savingCmd core m = true → (t.core core).running = none ∧ ∃ d,
        flook q (t.core core).queues = some (d :: (flook q k.queues).getD []) ∧ d.id = m.id ∧ d.sub = m.sub + 1) ∧
      (m.sub = 15 → (t.core core).running = none ∧ s.cycle < (t.core core).arrayFrom ∧
        ∃ d, (t.core core).finishing = k.finishing ++ [d] ∧ d.ends = s.cycle + 12 ∧ d.id = m.id)) ∧
    (∀ err, err % (2 ^ 31 - 1) ≠ 0 → ∃ t, exec (.subtileCheck core err) s = .next t ∧ t.mem = s.mem ∧
      (m.reran = false → (t.core core).running = some (q, { m with reran := true, ends := m.ends + m.cycles s.stage })) ∧
      (m.reran = true → (t.core core).running = none ∧ (t.core core).finishing = k.finishing ++ [{ m with fatal := some m.sub, ends := s.cycle + 12 }]))) ∧
  (∀ s, exec .budgetWindowStart s = .next (if s.cycle % 1024 = 0 then { s with cores := s.cores.map fun (p : Nat × Core) => (p.1, { p.2 with used := 0 }) }
    else s))

/-- A command whose time has come completes (R114, R119, R120): a product adds its overflows and NaNs to the tile's counters, its slots have
one reader less; MZERO leaves +0 everywhere; MACCLD takes bits 31 to 8 of the bench words; MACCST writes its rows. MRESOLVE's discard
restores the tile from its snapshot once the array takes it, at no charge (R125, R129), and a fill whose slot has no reader left leaves the
bench's bytes in a READY slot (R110). Where the manual leaves more than one reading, the clauses rest on the model's readings in log 27 and
110. -/
def Obligations.MatrixCommandsComplete : Prop :=
  (∀ core s m g, (s.core core).finishing.find? (fun c => decide (c.ends ≤ s.cycle)) = some m → s.group? m.gid = some g →
    Sound s m.gid m.wid m.pid → s.poison = [] → s.soft = [] → Memory.wf s.mem = true → g.core = core → core < 384 →
    ∃ t v, exec (.matrixCommandCompletion core) s = .next t ∧ (∀ c, c ∈ (t.core core).finishing ↔ c ∈ (s.core core).finishing ∧ c.id ≠ m.id) ∧
      t.group? m.gid = some v ∧
      (m.kind = .mma ∨ m.kind = .mmas → t.mem = s.mem ∧
        (v.tile m.tile).ovf = min 255 ((g.tile m.tile).ovf + m.ovfs.length) ∧ (v.tile m.tile).nan = min 255 ((g.tile m.tile).nan + m.nans) ∧
        (∀ j, v.slot j = if j = m.lslotA ∨ j = m.lslotB then { g.slot j with readers := (g.slot j).readers - 1 } else g.slot j) ∧
        v.deferred = g.deferred ++ (match mmaTrap m with
          | some t => [⟨m.wid, m.pid, m.lanes, { t with deferred := true, core := g.core }, if m.prov then some m.tile else none⟩]
          | none => [])) ∧
      (m.kind = .mzero → (∀ i < 128, ∀ j < 128, rdNat t.mem (tileAt g m.tile i j) 4 = 0) ∧
        (∀ a, ¬ (tileAt g m.tile 0 0 ≤ a ∧ a < tileAt g m.tile 0 0 + 65536) → rdByte t.mem a = rdByte s.mem a) ∧
        (m.clear = true → (v.tile m.tile).ovf = 0 ∧ (v.tile m.tile).nan = 0)) ∧
      (m.kind = .maccld → (∀ i < 128, ∀ j < 128, rdBytes t.mem (tileAt g m.tile i j) 4 =
          0 :: ((s.scratchBytes g (benchSpot g (m.addr + i * m.pitch) 512)).bytes.drop (4 * j + 1)).take 3) ∧
        ∀ a, ¬ (tileAt g m.tile 0 0 ≤ a ∧ a < tileAt g m.tile 0 0 + 65536) → rdByte t.mem a = rdByte s.mem a) ∧
      (m.kind = .maccst → 128 * (if m.form = 0 then 4 else 2) ≤ m.pitch → g.benchBase + m.addr + 127 * m.pitch + 512 ≤ 2 ^ 19 → ∀ i < 128,
        rdBytes t.mem (benchKey g.core (g.benchBase + m.addr + i * m.pitch)) (128 * if m.form = 0 then 4 else 2) = (storedRow s.mem g m i).1) ∧
      (m.kind = .mresolve → ∀ d ∈ v.deferred, d.tile ≠ some m.tile)) ∧
  (∀ core queue s m n rest g, nextHead s core = some (queue, m, n) → flook queue (s.core core).queues = some (m :: rest) → m.restores = true →
    s.group? m.gid = some g → Memory.wf s.mem = true →
    ∃ t, exec (.mresolveRestore core queue) s = .next t ∧ flook queue (t.core core).queues = some rest ∧ (t.core core).used = (s.core core).used ∧
      s.cycle + 16 ≤ (t.core core).arrayFrom ∧
      (t.core core).finishing = (s.core core).finishing ++ [{ m with ends := s.cycle + 16 }] ∧ (m.snap = false → t.mem = s.mem) ∧
      (m.snap = true → ∀ i < 128, ∀ j < 128, rdNat t.mem (tileKey core (g.tileBase + m.tile) i j) 4 =
        rdNat s.mem (tileKey core (g.tileBase + m.tile + 1) i j) 4)) ∧
  (∀ core id s e g, (s.core core).engine.find? (fun x => decide (x.id = id) && decide (x.kind = .mfill)) = some e → s.group? e.gid = some g →
    (readersDone (s.core core) e = false → exec (.mfillCompletion core id) s = .next (s.setCmd core { e with due := s.cycle + 96 + e.hdrLen / 128 })) ∧
    (e.due ≤ s.cycle → readersDone (s.core core) e = true → s.poison = [] → s.soft = [] → Sound s e.gid e.wid e.pid → Memory.wf s.mem = true → e.len = 12288 → e.hdrLen ≤ 2048 →
    ∃ t v, exec (.mfillCompletion core id) s = .next t ∧ (∀ x ∈ (t.core core).engine, x.id ≠ id) ∧
      rdBytes t.mem (slotKey core e.slot 0) 12288 = (s.scratchBytes g (benchSpot g e.srcA 12288)).bytes ∧
      rdBytes t.mem (slotKey core e.slot 12288) e.hdrLen = (s.scratchBytes g (benchSpot g e.hdrA e.hdrLen)).bytes ∧
      t.group? e.gid = some v ∧ (v.slot e.lslot).state = 3 ∧ (v.slot e.lslot).estimate = toggleEstimate t.mem core e.slot))

/-- COLL, the opening and the closing of a window, RSTREAM and RAST: a command whose block and object pass their checks goes to its engine
with what the block says; in a redundant task it traps ACCESS_DENIED (R177, R181 to R183, R185, R247, R260, R350). A close is a release that
commits what the group has buffered. Where the manual leaves more than one reading, the clauses rest on the model's readings in log 29 and
67. -/
def Obligations.EngineCommandsLaunch : Prop :=
  ∀ (f : XFmt) c s b s1,
    let e := s.objEntry c.task.asid f.obj.toNat
    let d := (c.env.ssrc f.pb).toNat
    let target := s.objEntry c.task.asid (d % 1024)
    let win := fieldNat b 0 8 % 64 = 0 ∧ fieldNat b 8 8 % 64 = 0 ∧ fieldNat b 8 8 ≤ 512 * 2 ^ 20 ∧ fieldNat b 16 4 ≤ 255 ∧ fieldNat b 24 20 = 0
    let names := fun (x : ECmd) => x.srcA = fieldNat b 0 8 ∧ x.len = fieldNat b 8 8 ∧ x.total = fieldNat b 20 4 ∧ x.hdrLen = fieldNat b 16 4
    let commits := fun i => ∀ t g, exec i s = .next t → t.group? c.ref.gid = some g → g.sbuf = []
    (∀ i, i = Instr.coll f ∨ i = .rwinOpen f ∨ i = .rwinClose f ∨ i = .rstream f ∨ i = .rast f → MayIssue i c s → c.task.redundant = true →
      ∃ v, Traps i c s 0x09 v) ∧
    (MayIssue (.coll f) c s → c.task.redundant = false → BlockRead (.coll f) f 64 c s b s1 → ObjectGood (.coll f) c (issued (.coll f) c s) e →
      ObjectGood (.coll f) c (issued (.coll f) c s) target → d < 1024 → objDraft target ≠ 0 → fieldNat b 0 4 ≤ 255 → fieldNat b 4 1 ≤ 3 →
      redType (fieldNat b 5 1) = true → fieldNat b 6 2 ≤ 2 → fieldNat b 32 12 = 0 →
      (∃ x, Commands (.coll f) c s x ∧ x.kind = .coll ∧ x.block = b ∧ x.entry = e ∧ x.total = d ∧ x.srcA = fieldNat b 8 8 ∧
        x.dstA = fieldNat b 16 8 ∧ x.len = fieldNat b 24 4) ∧ commits (.coll f)) ∧
    (MayIssue (.rwinOpen f) c s → c.task.redundant = false → BlockRead (.rwinOpen f) f 64 c s b s1 → win →
      (c.task.determ = true → Traps (.rwinOpen f) c s 0x0D 0) ∧
      (c.task.determ = false → 16 ≤ windowsUsed s → ∃ v, Traps (.rwinOpen f) c s 0x09 v) ∧
      (c.task.determ = false → windowsUsed s < 16 → ∃ x, Commands (.rwinOpen f) c s x ∧ x.kind = .rwinOpen ∧ x.block = b ∧ names x)) ∧
    (MayIssue (.rwinClose f) c s → c.task.redundant = false → BlockRead (.rwinClose f) f 64 c s b s1 → win →
      (∃ x, Commands (.rwinClose f) c s x ∧ x.kind = .rwinClose ∧ x.block = b ∧ names x) ∧ commits (.rwinClose f) ∧
      ∀ t w, exec (.rwinClose f) s = .next t → t.warp? c.ref.gid c.ref.wid = some w → w.relCount = (c.warp.relCount + 1) % 256) ∧
    (MayIssue (.rstream f) c s → c.task.redundant = false → BlockRead (.rstream f) f 128 c s b s1 → ObjectGood (.rstream f) c (issued (.rstream f) c s) e →
      objDraft e ≠ 0 →
      let k := fieldNat b 12 1
      let n := fieldNat b 8 4 * redSize (fieldNat b 13 1)
      fieldNat b 0 8 % 32 = 0 → n % 32 = 0 → 2 ≤ k → k ≤ 8 → redType (fieldNat b 13 1) = true → fieldNat b 14 1 ≤ 2 → fieldNat b 15 1 = 0 →
      fieldNat b 16 28 = 0 → (∀ i < 8, if i < k then fieldNat b (64 + 8 * i) 8 % 32 = 0 else fieldNat b (64 + 8 * i) 8 = 0) →
      (∃ x, Commands (.rstream f) c s x ∧ x.kind = .rstream ∧ x.block = b ∧ x.entry = e ∧ x.dstA = fieldNat b 0 8 ∧
        x.total = (n + objDraft e % 32 + 31) / 32) ∧
        commits (.rstream f)) ∧
    (MayIssue (.rast f) c s → c.task.redundant = false → BlockRead (.rast f) f 64 c s b s1 → ObjectGood (.rast f) c (issued (.rast f) c s) e → objClass e = 2 →
      objKeyed e = false → objDraft e ≠ 0 → fieldNat b 0 8 % 32 = 0 → fieldNat b 24 2 ≤ 15 → fieldNat b 26 18 = 0 →
      let target := c.task.asid * 1024 + f.obj.toNat
      (c.task.determ = true → rastOrdered (issued (.rast f) c s) c target = false → Traps (.rast f) c s 0x0D 0) ∧
      (c.task.determ = false ∨ rastOrdered (issued (.rast f) c s) c target = true →
        (∃ x, Commands (.rast f) c s x ∧ x.kind = .rast ∧ x.block = b ∧ x.entry = e ∧ x.srcA = fieldNat b 0 8 ∧ x.len = fieldNat b 8 4 ∧
          x.total = fieldNat b 24 2 ∧
          ∀ t, exec (.rast f) s = .next t → t.draws = s.draws ++
              [{ id := x.id, cmd := x, asid := c.task.asid, obj := f.obj.toNat, die := c.die, method := fieldNat b 24 2, cls := 0 }] ∧
            flook target t.lastRast = some { task := c.grp.task, index := c.grp.index, wid := c.ref.wid, pid := x.id, flag := postFlag f.post }) ∧
          commits (.rast f)))

/-- PUBLISH commits and waits for its turn, or in deterministic mode is held until the group retires, and traps DETERMINISM when there is no
room (R184, R304). SAMPLE takes the coordinates of the active lanes and the published view, and will write four registers of each (R186,
R249). FPOST and FNULL send one packet for each active lane inside the target (R185, R262); where the draft's mapping does not reach the
tile, the packet's glazier is the model's choice (log 117). With no active lane SAMPLE, FPOST and FNULL complete in six cycles and do
nothing (R62). Where the manual leaves more than one reading, the clauses rest on the model's readings in log 116. -/
def Obligations.PublishSampleAndPackets : Prop :=
  ∀ (f : XFmt) c s,
    let e := s.objEntry c.task.asid f.obj.toNat
    let active := fun l => l < 64 ∧ c.split.exm.getLsbD l = true
    let at_ := fun (i : Instr) => issued i c s
    (MayIssue (.publish f) c s → ObjectGood (.publish f) c (at_ (.publish f)) e → objKeyed e = false → objDraft e ≠ 0 →
      (c.task.determ = true → c.grp.full [2 ^ 80] = true → Traps (.publish f) c s 0x0D 0) ∧
      (c.task.determ = true → c.grp.full [2 ^ 80] = false → ∃ t q g, exec (.publish f) s = .next t ∧ OwnWarp (.publish f) c s t q ∧
        OtherWarps c s t ∧ t.mem = s.mem ∧ q.kind = .long ∧ q.due = s.cycle + 1 ∧ q.writes = [] ∧ t.publishes = s.publishes ∧
        t.group? c.ref.gid = some g ∧ g = { c.grp with held := c.grp.held ++ [.publish f.obj.toNat] }) ∧
      (c.task.determ = false → ∃ t q x g, exec (.publish f) s = .next t ∧ OwnWarp (.publish f) c s t q ∧ OtherWarps c s t ∧ t.mem = s.mem ∧
        q.kind = .engine ∧ t.publishes = s.publishes ++ [{ id := q.id, asid := c.task.asid, obj := f.obj.toNat, part := c.task.part, cmd := some x }] ∧
        x.kind = .publish ∧ x.pid = q.id ∧ x.gid = c.ref.gid ∧ x.wid = c.ref.wid ∧ x.lanes = c.split.held ∧ t.group? c.ref.gid = some g ∧
        g.sbuf = [] ∧ g.relCount = (c.grp.relCount + 1) % 256)) ∧
    (MayIssue (.sample f) c s → ObjectGood (.sample f) c (at_ (.sample f)) e → objClass e ≠ 1 → (objClass e = 0 → objExtent e 0 ≤ 4) →
      if c.split.exm = 0 then Later (.sample f) c s 6 [] else
      ∃ x, Commands (.sample f) c s x ∧ x.kind = .sample ∧ x.entry = e ∧ x.total = f.func.toNat % 4 ∧ x.view = some (objPub e) ∧
        x.block = ((bitsSet c.split.exm).flatMap fun l => natBytes 1 l ++ natBytes 4 (c.env.vec (fIdx f.pa) l).toNat ++
          natBytes 4 (c.env.vec (fIdx f.pa + 1) l).toNat) ∧
        ∀ t, exec (.sample f) s = .next t → ∃ q, Outstanding c t q ∧ q.id = x.id ∧ ∀ y, y ∈ q.items ↔ ∃ l k, active l ∧ k < 4 ∧
          y = { key := 256 * l + 4 * k, n := 4, reg := c.env.phys (fIdx f.pb + k), lane := l }) ∧
    (∀ null : Bool, let i := if null then Instr.fnull f else .fpost f
      let inside := fun l => let w := (c.env.vec (fIdx f.pa) l).toNat
        if null then w % 65536 < tileCount e ∧ w / 65536 < (objExtent e 1 + 7) / 8 else w % 65536 < objExtent e 0 ∧ w / 65536 < objExtent e 1
      let owner := fun l => let w := (c.env.vec (fIdx f.pa) l).toNat
        let k := if null then tileIndex e (w % 65536) (w / 65536) else tileIndex e (w % 65536 / 8) (w / 65536 / 8)
        (s.tileOwner c.task.asid e k).getD (k % 64)
      MayIssue i c s → (c.task.redundant = true → ∃ v, Traps i c s 0x09 v) ∧
        (c.task.redundant = false → ObjectGood i c (at_ i) e → objClass e = 2 →
          ∃ t q l, exec i s = .next t ∧ OwnWarp i c s t q ∧ OtherWarps c s t ∧ t.mem = s.mem ∧ t.posts = s.posts ++ l ∧ q.left = l.length ∧
            q.writes = [] ∧ q.due = s.cycle + (if c.split.exm = 0 then 6 else 1) ∧ q.kind = (if l = [] then .long else .posts) ∧
            l.map (·.lane) = (bitsSet c.split.exm).filter (fun n => decide (inside n)) ∧
            ∀ p ∈ l, let w := (c.env.vec (fIdx f.pa) p.lane).toNat
              let v := (c.env.vec (fIdx f.pa + 1) p.lane).toNat
              p.gid = c.ref.gid ∧ p.wid = c.ref.wid ∧ p.pid = q.id ∧ p.lanes = c.split.held ∧ p.asid = c.task.asid ∧ p.obj = f.obj.toNat ∧
                p.null = null ∧ p.x = w % 65536 ∧ p.y = w / 65536 ∧ p.seq = v / 256 ∧ p.cover = v % 256 ∧ owner p.lane = p.pc ∧
                (null = false → p.method = f.func.toNat / 8 % 16 ∧
                  p.payload = (List.range (f.func.toNat % 8 + 1)).map fun k => c.env.vec (fIdx f.pb + k) p.lane)))

/-! ## Events of the engines -/

/-- The copy engine moves what a beat reads to its destination (R142, R159, R179): bytes land in a slot, a scratchpad, the store buffer of
its group, or the write buffer on the way to a draft (R142, R177, R179, R244), and are subtracted from the barrier word that the command
names (R159); a command whose last byte has landed signals in order: its data, its word, its record, its flag (R178, R251); its follow-on
enters queue 4, or its fault is deferred (R113, R179). PUBLISH_SWAP exchanges the views of an object and drops what glaziers held of its
methods (R184, R250, R256); an atom of a stream reduction is written from its sources (R183); a collective whose members match completes
into the draft (R181, R328), which a render target's draft refuses (R255); contributions of members merge in the switches and are delivered
when every member has closed (R182, R247). Where the manual leaves more than one reading, the clauses rest on the model's readings in log
111. -/
def Obligations.CopiesViewsAndReductions : Prop :=
  ((∀ core id s e c f un, s.cmd? core id = some e → movesBytes e.kind = true → e.fault = none → e.pos < e.bytesToMove → e.kind ≠ .tmov →
    s.agentFor e.gid e.wid (s.entryOf e.gid e.wid e.pid) e.lanes = some c → s.cmdTurn e = true → s.soft = [] →
    let e0 := { e with view := some (e.view.getD (objPub (s.objEntry e.asid e.obj))) }
    fetchBeat s c e0 = .ok (f, un) → f.bytes.length = 16 → e.dst = 5 → readersDone (s.core c.grp.core) e0 = true → e.pos % 16 = 0 → e.len % 16 = 0 →
    Memory.wf s.mem = true →
    let key := slotKey c.grp.core e.slot (if e.len ≤ e.pos then 12288 + (e.pos - e.len) else e.pos)
    let bar := benchKey c.grp.core (c.grp.benchBase + blkBarrier e.block)
    let counts := e.pos < e.len ∧ e.block ≠ [] ∧ blkBarrier e.block ≠ 0xFFFFFFFF
    c.grp.benchBase + blkBarrier e.block + 8 ≤ 2 ^ 19 ∨ ¬ counts → e.slot < 32 → c.grp.core < 384 → e.hdrLen ≤ 2048 → e.len ≤ 12288 →
    ∃ t, exec (.engineBytesLand core id 1) s = .next t ∧ rdBytes t.mem key 16 = f.bytes ∧ (t.cmd? core id).map (·.pos) = some (e.pos + 16) ∧
      (∀ a < 9 * region, ¬ (key ≤ a ∧ a < key + 16) → ¬ (counts ∧ bar ≤ a ∧ a < bar + 8) → rdByte t.mem a = rdByte s.mem a) ∧
      (counts → rdNat t.mem bar 8 = pbSettle (pbAdd (rdNat s.mem bar 8) (2 ^ 32 - 16)))) ∧
  (∀ core id s e c f un, s.cmd? core id = some e → movesBytes e.kind = true → e.fault = none → e.pos < e.bytesToMove →
    s.agentFor e.gid e.wid (s.entryOf e.gid e.wid e.pid) e.lanes = some c → s.cmdTurn e = true → s.soft = [] → s.deadFr = [] →
    c.task.redundant = false → fetchBeat s c { e with view := some (e.view.getD (objPub (s.objEntry e.asid e.obj))) } = .ok (f, un) →
    f.bytes.length = 16 → Memory.wf s.mem = true →
    (e.dst < 3 → e.block = [] ∨ blkBarrier e.block = 0xFFFFFFFF →
      let a := e.dstA + e.pos
      let key := (s.alloc c e.dst).1 + a
      a + 16 ≤ (s.alloc c e.dst).2.1 → 4 ≤ keyRegion key → s.stampFault c false ⟨0, 0, a, key, 16, (s.alloc c e.dst).2.2⟩ = none →
      ∃ t, exec (.engineBytesLand core id 1) s = .next t ∧ rdBytes t.mem key 16 = f.bytes ∧
        (∀ x < 9 * region, ¬ (key ≤ x ∧ x < key + 16) → rdByte t.mem x = rdByte s.mem x) ∧
        (keyRegion key = 4 → ∀ w ∈ benchWords key 16, t.isValid (benchCore key) w = true)) ∧
    (e.dst = 3 → e.kind = .tmov →
      let va := e.dstA + e.pos
      let tr := s.translate c .write va 16 16
      va % 16 = 0 → s.xfault c .write va tr = none → (spotsOf 0 va tr).findSome? (s.stampFault c false) = none →
      (c.warp.pend.find? fun q => decide (e.pid < q.id) && q.cover.isSome && q.kin &&& e.lanes != 0) = none →
      ∃ t v, exec (.engineBytesLand core id 1) s = .next t ∧ t.mem = s.mem ∧ t.group? e.gid = some v ∧
        ∀ x ∈ spotsOf 0 va tr, ∀ j < x.n, (flook (x.key + j) v.sbuf).map (·.val) = some (f.bytes.getD (x.off + j) 0)) ∧
    (e.dst = 4 → e.kind ≠ .tmov → objClass e.entry ≠ 2 →
      let off := e.dstA + e.pos
      let va := objDraft (s.objEntry e.asid e.obj) + off
      let n := min 16 (objEnd e.entry - off)
      let tr := s.translate c .write va n (if n = 16 ∧ va % 16 = 0 then 16 else 1)
      objDraft (s.objEntry e.asid e.obj) ≠ 0 → s.xfault c .write va tr = none → (spotsOf 0 va tr).findSome? (s.stampFault c false) = none →
      ∃ t v, exec (.engineBytesLand core id 1) s = .next t ∧ t.mem = s.mem ∧ t.group? e.gid = some v ∧
        ∀ x ∈ spotsOf 0 va tr, ∃ y ∈ v.draining, y.u = x.unit ∧ y.gid = e.gid ∧ y.cid = e.id ∧
          y.bytes = sbBytes x ((f.bytes.drop x.off).take x.n) (e.count % 256))) ∧
  (∀ core id s e, s.cmd? core id = some e → e.fault.isSome = true ∨ e.bytesToMove ≤ e.pos → ∀ n, exec (.engineBytesLand core id n) s = .next s) ∧
  (∀ core id s e c, s.cmd? core id = some e → s.agentFor e.gid e.wid (s.entryOf e.gid e.wid e.pid) e.lanes = some c → e.kind = .cpy ∨ e.kind = .gather →
    e.fault = none → s.hasEntries e.gid e.id = false →
    (e.stage = 0 → e.bytesToMove ≤ e.pos → e.follow = none → e.dst ≠ 4 → ∃ t, exec (.engineCommandCompletion core id) s = .next t ∧
      (t.cmd? core id).map (·.stage) = some 1 ∧
      (e.dst = 5 → ∀ g, s.group? e.gid = some g → ∃ v, t.group? e.gid = some v ∧ (v.slot e.lslot).state = 3)) ∧
    (e.stage = 1 → blkWord e.block = 0 → ∃ t, exec (.engineCommandCompletion core id) s = .next t ∧ (t.cmd? core id).map (·.stage) = some 2) ∧
    (2 ≤ e.stage → blkQueue e.block = 0xFFFF → e.unw = none → e.bad = none → ∀ w q, Awaits s e.gid e.wid e.pid w q →
      ∃ t v, exec (.engineCommandCompletion core id) s = .next t ∧ t.cmd? core id = none ∧ t.warp? e.gid e.wid = some v ∧
        v.pend = w.pend.filter fun x => decide (x.id ≠ e.pid))) ∧
  (∀ core id s e word g w x, s.cmd? core id = some e → e.follow = some word → s.group? e.gid = some g → s.warp? e.gid e.wid = some w →
    e.bytesToMove ≤ e.pos → e.fault = none → ((flook 4 (s.core core).queues).getD []).length < 4 → decodeWord (BitVec.ofNat 96 word) = .mma x →
    stageRefuses s x false = false →
    let foreign := s.gflag g Task.determ && s.foreignOn core e.gid e.wid x.acc.toNat
    let drops := fun cause (v : Nat) => Sound s e.gid e.wid (e.pid + 1) → ∃ t k, exec (.followOnEnqueue core id) s = .next t ∧
      (t.core core).queues = (s.core core).queues ∧ t.group? e.gid = some k ∧
      k.deferred = g.deferred ++ [⟨e.wid, e.pid, e.lanes, { cause := cause, tval := BitVec.ofNat 64 v, deferred := true, core := g.core }, none⟩]
    (mmaFault g x = none → foreign = true → drops 0x0D 0) ∧
    (mmaFault g x = none → foreign = false → ∃ t m, exec (.followOnEnqueue core id) s = .next t ∧
      flook 4 (t.core core).queues = some (((flook 4 (s.core core).queues).getD []) ++ [m]) ∧ m.kind = .mma ∧ m.pid = e.pid + 1 ∧ m.gid = e.gid ∧
      m.wid = e.wid ∧ m.tile = x.acc.toNat ∧ (t.cmd? core id).map (·.follow) = some none) ∧
    ∀ v, mmaFault g x = some v → drops 0x11 v)) ∧
  ((∀ id s p, s.publishes.find? (fun q => decide (q.id = id)) = some p →
    let key := s.entryKey p.asid p.obj
    (s.publishes.find? fun q => decide (q.asid = p.asid) && decide (q.obj = p.obj)).map (·.id) = some id → publishReady s p = true →
    s.mayStart ⟨.glazier, hbmChannel key false⟩ s.fresh [(key, 16)] = true → Memory.wf s.mem = true → s.deadFr = [] → s.poison = [] →
    key + 16 ≤ gangBase →
    (∀ e, p.cmd = some e → Sound s e.gid e.wid e.pid) →
    ∃ t, exec (.publishSwap id) s = .next t ∧ rdBytes t.mem key 8 = rdBytes s.mem (key + 8) 8 ∧ rdBytes t.mem (key + 8) 8 = rdBytes s.mem key 8 ∧
      (∀ a, ¬ (key ≤ a ∧ a < key + 16) → rdByte t.mem a = rdByte s.mem a) ∧ (∀ q ∈ t.publishes, q.id ≠ id) ∧
      ∀ k m, t.methodAt k p.asid p.obj m = none) ∧
  (∀ core id atom s e c t e1, s.cmd? core id = some e → e.kind = .rstream →
    s.agentFor e.gid e.wid (s.entryOf e.gid e.wid e.pid) e.lanes = some c → e.fault = none → s.cmdTurn e = true → atom < e.total →
    (e.needs.contains atom = true → exec (.streamReductionAtom core id atom) s = .next s) ∧
    (e.needs.contains atom = false → streamAtom s c e atom = .ok (t, e1) → blkBarrier e.block = 0xFFFFFFFF →
      exec (.streamReductionAtom core id atom) s = .next (t.setCmd core e1) ∧
        e1.needs = (atomParts32 s c e (objDraft (s.objEntry e.asid e.obj)) atom).foldl (fun a p => sins p a) e.needs)) ∧
  (∀ core id peers s e c ms f, s.cmd? core id = some e → e.kind = .coll →
    s.agentFor e.gid e.wid (s.entryOf e.gid e.wid e.pid) e.lanes = some c → e.pos = 0 → e.fault = none → s.cmdTurn e = true →
    (objClass (s.objEntry e.asid e.total) = 2 →
      exec (.collectiveCompletion core id peers) s = .next (s.setCmd core (e.fails (unstatedAt s 0x1C2 0x13)))) ∧
    (objClass (s.objEntry e.asid e.total) ≠ 2 → s.peerSet e.asid (fieldNat e.block 0 4) = some ms → peers.length = ms.length →
    let rank := s.rankIn e.asid ms
    let kind := fieldNat e.block 4 1
    let size := redSize (fieldNat e.block 5 1)
    let count := fieldNat e.block 24 4
    let e0 := { e with view := some (objPub (s.objEntry e.asid e.obj)) }
    let mine := collMatch e.block ms
    (∀ r < ms.length, r ≠ rank → (peers.getD r []).take mine.length = mine ∧ ((peers.getD r []).drop mine.length).take 8 = collHead e.block) →
    viewFetch s c e0 e.srcA (size * count * if kind = 1 then ms.length else 1) = .ok f → f.dead = none →
    let out := collResult kind (fieldNat e.block 5 1) (fieldNat e.block 6 2) size count rank
      ((List.range ms.length).map fun r => if r = rank then f.bytes else (peers.getD r []).drop (mine.length + 8))
    ∀ s3, draftBytes c e0 e.total e.dstA (s.objEntry e.asid e.total) out (out.length + 1)
        ((s.readAt f.from_).modPend e.gid e.wid e.pid fun q => { q with dead := none }) = .ok s3 →
      exec (.collectiveCompletion core id peers) s = .next (s3.setCmd core { e0 with pos := 1 + out.length, bad := f.bad }))) ∧
  (∀ window rank op size addr value s w, s.windows.find? (fun x => decide (x.id = window)) = some w →
    rank < w.ranks → w.local_ ≠ some rank → w.closedR.contains rank = false → windowMerges op = true → (atomSizes op).any (fun k => decide (size = 2 ^ k)) = true → addr % size = 0 →
    w.base ≤ addr → addr + size ≤ w.base + w.len →
    ∃ t, exec (.switchMerge window rank op size addr value) s = .next t ∧ t = { s with windows := t.windows } ∧
      t.windows.find? (fun x => decide (x.id = window)) = some { w.merge op size addr (value % 2 ^ (8 * size)) with members := sins rank w.members }) ∧
  (∀ window rank op s w, s.windows.find? (fun x => decide (x.id = window)) = some w → rank < w.ranks → w.local_ ≠ some rank →
    w.closedR.contains rank = false → ∃ t, exec (.switchMerge window rank op 0 0 0) s = .next t ∧ t = { s with windows := t.windows } ∧
      t.windows.find? (fun x => decide (x.id = window)) =
        some { w with members := sins rank w.members, closedR := sins rank w.closedR }) ∧
  (∀ window s w core e rest c t f, s.windows.find? (fun x => decide (x.id = window)) = some w →
    (s.cores.flatMap fun p => (p.2.engine.filter fun e => e.kind = .rwinClose && e.pos = 0 && s.windowOf e = some w).map fun e => (p.1, e)) =
      (core, e) :: rest →
    s.agentFor e.gid e.wid (s.entryOf e.gid e.wid e.pid) e.lanes = some c →
    ((∃ r < w.ranks, w.closedR.contains r = false) → exec (.reductionWindowDelivery window) s = .next s) ∧
    ((∀ r < w.ranks, w.closedR.contains r = true) → deliverAll c e w.merged s none = .ok (t, f) → ∃ v, exec (.reductionWindowDelivery window) s = .next v ∧
      v.mem = t.mem ∧ (∀ x ∈ v.windows, x.id ≠ window) ∧
      (w.clash = none → f = none → v.cores = (t.setCmd core { e with pos := 1, fault := none }).cores) ∧
      ∀ a, w.clash = some a → v.cores = (t.setCmd core { e with pos := 1, fault := some { c.precise 0x09 a with deferred := true } }).cores)))

/-! ## Events of the raster units and glaziers -/

/-- A pass without items has an entry in every tile (R268); a fault ends a draw (R177). Entries are appended while the list of their glazier
has room (R261, R267). A method is read when something first names it, from the table as it was last read (R187, R256; that a table nothing
has had read is read then is the model's choice, log 120). A packet finds its entry by tile and sequence number; one for a pixel that the
entry does not hold, or has received, is a stray: it is dropped with a deferred OBJECT_INVALID (R262, R263). A packet whose turn has come
runs its method on the pixel, one in a cycle at each glazier, writes what it staged and closes the pixel; with no sample covered the pixel
is only closed (R6, R187, R264 to R266). A page that grants no write stops the words of the application with a deferred trap (R16, R310;
that none of them is written is the model's choice, log 118). Where the manual leaves more than one reading, the clauses rest on the model's
readings in log 99. -/
def Obligations.DrawsAndPackets : Prop :=
  ((∀ die id s d c m, s.draws.find? (fun x => decide (x.id = id) && decide (x.die = die)) = some d →
    s.agentFor d.cmd.gid d.cmd.wid (s.entryOf d.cmd.gid d.cmd.wid d.cmd.pid) d.cmd.lanes = some c → d.cmd.fault = none → d.binned = false →
    drawTurn s d = true → s.cmdTurn d.cmd = true →
    s.methodAt (s.firstOwner d.asid d.obj) d.asid d.obj d.method = some m →
    let e := s.objEntry d.asid d.obj
    (m.cls = 2 → m.bad = none → d.cmd.len = 0 → fieldNat d.cmd.block 16 8 = 0 → copyOk s d.asid e (objPub e) = true →
      copyOk s d.asid e (objDraft e) = true →
      ∃ t, exec (.rasterBinning die id) s = .next t ∧ t = { s with draws := t.draws } ∧ ∃ y ∈ t.draws, y.id = id ∧ y.binned = true ∧ y.cls = 2 ∧
        y.todo.length = tileTotal e ∧ ∀ k < tileTotal e, ∃ x, y.todo[k]? = some x ∧ x.tx = k % tileCount e ∧ x.ty = k / tileCount e ∧ x.cls = 2 ∧
          x.seq = fieldNat d.cmd.block 12 4 % 2 ^ 24 ∧ ∀ j < 64, x.mask.getLsbD j = true ↔
            8 * x.tx + j % 8 < objExtent e 0 ∧ 8 * x.ty + j / 8 < objExtent e 1) ∧
    (m.cls = 0xFF → ∃ t, exec (.rasterBinning die id) s = .next t ∧ (∀ y ∈ t.draws, y.id ≠ id) ∧ t.places = s.places ∧ t.mem = s.mem)) ∧
  (∀ die id s d c x rest pc, s.draws.find? (fun x => decide (x.id = id) && decide (x.die = die)) = some d →
    s.agentFor d.cmd.gid d.cmd.wid 15 d.cmd.lanes = some c → d.binned = true → d.todo = x :: rest →
    s.tileOwner d.asid (s.objEntry d.asid d.obj) (tileIndex (s.objEntry d.asid d.obj) x.tx x.ty) = some pc →
    let g := s.place ⟨.glazier, pc⟩
    (4096 ≤ g.entries.length → exec (.expectationEntryAppend die id) s = .next s) ∧
    (g.entries.length < 4096 → ∃ t, exec (.expectationEntryAppend die id) s = .next t ∧ t.mem = s.mem ∧
      (t.place ⟨.glazier, pc⟩).entries = g.entries ++ [{ x with id := s.fresh }] ∧ (∃ y ∈ t.draws, y.id = id ∧ y.todo = rest))) ∧
  (∀ pc asid obj n s, let u : UnitRef := ⟨.glazier, pc⟩
    ((s.methodAt pc asid obj n).isSome = true ∨ s.namesMethod pc asid obj n = false → exec (.methodValidation pc asid obj n) s = .next s) ∧
    (s.methodAt pc asid obj n = none → s.namesMethod pc asid obj n = true → ∃ t, exec (.methodValidation pc asid obj n) s = .next t ∧
      (flook (asid * 1024 + obj) t.tables).isSome = true ∧
      ∃ m ms, m = readMethod (if (flook (asid * 1024 + obj) s.tables).isSome then s else s.readTable asid obj) asid obj n ∧
        (t.place u).methods = m :: ms ∧ (∀ x ∈ ms, x ∈ (s.place u).methods) ∧
        (m.bad = none → m.cls ≠ 0xFF → t = { s with places := t.places, tables := t.tables })))) ∧
  ((∀ gid id lane s p m, s.posts.find? (fun x => decide (x.gid = gid) && decide (x.pid = id) && decide (x.lane = lane)) = some p →
    p.null = false → s.methodAt p.pc p.asid p.obj p.method = some m → m.bad = none → m.cls < 2 →
    let u : UnitRef := ⟨.glazier, p.pc⟩
    let g := s.place u
    let pixel := p.y % 8 * 8 + p.x % 8
    let found := (g.tileEntries p.asid p.obj (p.x / 8) (p.y / 8)).find? fun e => decide (e.seq = p.seq)
    let gone := fun (t : State) => ∀ q ∈ t.posts, ¬ (q.gid = gid ∧ q.wid = p.wid ∧ q.pid = id ∧ q.lane = lane)
    let tval := p.x + p.y * 2 ^ 16 + p.seq % 2 ^ 24 * 2 ^ 32
    (found = none ∨ (∃ e, found = some e ∧ (e.mask.getLsbD pixel = false ∨ e.got.getLsbD pixel = true ∨ e.cls = 2)) →
      ∀ k, s.group? gid = some k → ∃ t v, exec (.packetAccept gid id lane) s = .next t ∧ gone t ∧ t.places = s.places ∧ t.mem = s.mem ∧
        t.group? gid = some v ∧
        v.deferred = k.deferred ++ [⟨p.wid, id, p.lanes, { cause := 0x13, tval := BitVec.ofNat 64 tval, deferred := true, core := k.core }, none⟩]) ∧
    (∀ e, found = some e → e.mask.getLsbD pixel = true → e.got.getLsbD pixel = false → e.cls < 2 → g.packets.length < 512 →
      ∃ t k, exec (.packetAccept gid id lane) s = .next t ∧ gone t ∧ t.mem = s.mem ∧ (t.place u).packets = g.packets ++ [k] ∧ k.entry = e.id ∧
        k.pixel = pixel ∧ k.cover = p.cover ∧ k.method = p.method ∧ k.payload = p.payload)) ∧
  (∀ pc entry pixel s x k, let u : UnitRef := ⟨.glazier, pc⟩
    let g := s.place u
    g.entries.find? (fun e => decide (e.id = entry)) = some x → x.mask.getLsbD pixel = true → x.closed.getLsbD pixel = false →
    g.eligible x pixel = true → s.stackHeld u = false → x.cls < 2 → (g.entries.map (·.id)).Nodup → g.packets = [k] → k.entry = entry → k.pixel = pixel →
    let e := s.objEntry x.asid x.obj
    let cover := k.cover &&& (2 ^ objSamples e - 1)
    let closed := fun (t : State) => (t.place u).packets = [] ∧ ∀ y ∈ (t.place u).entries, y.id = entry → y.closed.getLsbD pixel = true
    let word := fun sample n => match s.glazierKey x.asid (draftWord e x pixel sample n) with
      | some a => BitVec.ofNat 32 (bytesNat (s.found a 0 4).bytes)
      | none => 0
    (cover = 0 → ∃ t, exec (.methodApplication pc entry pixel) s = .next t ∧ t.mem = s.mem ∧ closed t) ∧
    (cover ≠ 0 → g.applied = some s.cycle ∨ recordFree s u e x pixel = false → exec (.methodApplication pc entry pixel) s = .next s) ∧
    (∀ m t' r, cover ≠ 0 → g.applied ≠ some s.cycle → recordFree s u e x pixel = true → s.methodAt pc x.asid x.obj k.method = some m →
      s.poison = [] → s.deadFr = [] →
      runMethod { s with method := some (startRun e x pixel cover k.payload word) } (m.prog.zip m.pcs) = .ok t' → t'.method = some r →
      let writes := writeStaged { t' with method := none, cur := .idle } (((s.group? k.gid).map (·.core)).getD 0) x k.stamp (stagedWords e x pixel r)
      ∃ t, exec (.methodApplication pc entry pixel) s = .next t ∧ closed t ∧ t.method = none ∧ (t.place u).applied = some s.cycle ∧
        (∀ t2, writes = .ok t2 → t.mem = t2.mem) ∧
        ∀ f v, writes = .error f → s.group? k.gid = some v → ∃ v', t.group? k.gid = some v' ∧
          v'.deferred = v.deferred ++ [⟨k.wid, k.pid, k.lanes, { f with deferred := true, note := none, core := v.core }, none⟩])))

/-! ## Events of memory -/

/-- A request leaves its core's send queue when it may and has then arrived (R217, R245). A read at its place delivers the bytes that are
there and its request leaves the queue (R140, R216); the oldest write of a bank is performed: its bytes are in memory, where a ganged frame
keeps them (R214), and no others change (R244); a commit's writes enter the banks (R347); an atomic executes at its place (R246). What must
wait changes nothing. Where the manual leaves more than one reading, the clauses rest on the model's readings in log 11. -/
def Obligations.PlacesPerform : Prop :=
  (∀ u idx s r, (s.place u).queue[idx]? = some r →
    let event := if r.pieces = [] then Instr.atomicExecution u idx else .glazierRequestService u idx
    (r.arrived = none → (s.sendable u r = false → exec event s = .next s) ∧
      (s.sendable u r = true → ∃ t, exec event s = .next t ∧ t.mem = s.mem ∧
        (t.place u).queue = (s.place u).queue.set idx { r with arrived := some s.fresh })) ∧
    (r.arrived ≠ none → s.servable u r = false → exec event s = .next s) ∧
    (s.servable u r = true → ∀ p w q, r.pieces = [p] → Awaits s r.gid r.wid r.pid w q → q.got = [] → u.kind ≠ .peer → s.poison = [] →
      s.soft = [] → s.deadFr = [] →
      ∃ t v x, exec (.glazierRequestService u idx) s = .next t ∧ t.mem = s.mem ∧ (t.place u).queue.length + 1 = (s.place u).queue.length ∧
        t.warp? r.gid r.wid = some v ∧ v.pend? r.pid = some x ∧ x.left = q.left - 1 ∧ x.bad = none ∧
        ∀ k < p.n, fget 0 (p.key + k) x.got = rdByte s.mem (cell (p.addr + k))) ∧
    (s.servable u r = true → ∀ a l g, r.pieces = [] → r.atom = some a → a.lanes = [l] → s.group? r.gid = some g → u.kind = .glazier →
      l.addr + a.size ≤ gangBase ∨ (gangBase ≤ l.addr ∧ l.addr + a.size ≤ 2 * gangBase) → s.poison = [] → s.soft = [] → s.deadFr = [] → Memory.wf s.mem = true → a.size = 4 ∨ a.size = 8 →
      let old := bytesNat (rdBytes s.mem l.addr a.size)
      ∃ t, exec (.atomicExecution u idx) s = .next t ∧ (t.place u).queue.length + 1 = (s.place u).queue.length ∧
        rdBytes t.mem l.addr a.size = natBytes a.size ((atomNew a.op a.size old l.b l.c).getD old) ∧
        ∀ x, (∀ k < a.size, cell (l.addr + k) ≠ x) → rdByte t.mem x = rdByte s.mem x)) ∧
  (∀ die bank s e rest, flook (die * 16 + bank) s.wbanks = some (e :: rest) →
    (s.drainHeld e = true → exec (.writeBufferDrain die bank) s = .next s) ∧
    (s.drainHeld e = false → e.atom = none → (e.bytes.map (·.1)).Pairwise (· < ·) → (e.bytes.map fun p => cell p.1).Nodup →
      (∀ p ∈ e.bytes, keyRegion p.1 = 0) → e.u.kind ≠ .peer → s.deadFr = [] → Memory.wf s.mem = true →
      ∃ t, exec (.writeBufferDrain die bank) s = .next t ∧ flook (die * 16 + bank) t.wbanks = some rest ∧
        (∀ p ∈ e.bytes, rdByte t.mem (cell p.1) = p.2.val) ∧ ∀ a, (∀ p ∈ e.bytes, cell p.1 ≠ a) → rdByte t.mem a = rdByte s.mem a)) ∧
  (∀ gid s g e, s.group? gid = some g → g.draining = [e] →
    let k := coreDie g.core * 16 + e.bank
    let b := (flook k s.wbanks).getD []
    (s.mayEnter e = true → b.length < 64 → ∃ t v, exec (.storeBufferCommit gid) s = .next t ∧ t.mem = s.mem ∧ flook k t.wbanks = some (b ++ [e]) ∧
      t.group? gid = some v ∧ v.draining = []) ∧
    (s.mayEnter e = false ∨ 64 ≤ b.length → ∃ t v, exec (.storeBufferCommit gid) s = .next t ∧ t.wbanks = s.wbanks ∧ t.group? gid = some v ∧
      v.draining = [e]))

/-- A walk caches its leaf for the die's clusters, unless an invalidation covers it (R311). A write of TRINV drops the leaves that it covers
and waits for earlier accesses; then the splits that its pages parked may resume (R312, R320, R335). A declaration takes effect at each
glazier of its own, after the accesses that came before it there, as zeros where a write has already revived the frame (R218, R220); a row
is refreshed unless every frame in it is dead (R218); in forced self-refresh a stack performs nothing; a partition with a request held there
when it begins gets a record of kind 4 (R353, R354, R355); what it has held for more than 2^24 cycles ends; an atom that moves keeps what it
holds (R370). Where the manual leaves more than one reading, the clauses rest on the model's readings in log 69, 71 and 76. -/
def Obligations.TranslationsAndStacks : Prop :=
  ((∀ die asid va s e l, s.walk asid va = .leaf e l →
    let n := 2 ^ pageBits l
    let page := va / n
    let covered := s.invals.any fun v => v.covers asid (page * n) n
    (covered = true → exec (.pageWalk die asid va) s = .next s) ∧
    (covered = false → ∃ t, exec (.pageWalk die asid va) s = .next t ∧ t = { s with tlb := t.tlb } ∧ (∀ x ∈ s.tlb, x ∈ t.tlb) ∧
      ∀ k < 12, ∃ x ∈ t.tlb, x.cluster = die * 12 + k ∧ x.asid = asid ∧ x.page = va / 2 ^ pageBits x.level)) ∧
  (∀ die asid va s, s.walk asid va = .absent ∨ (∃ pa, s.walk asid va = .malformed pa ∧ s.missing die asid (va / 65536) ≠ []) →
    exec (.pageWalk die asid va) s = .next s) ∧
  (∀ v s, let n := v.toNat
    (s.invals ≠ [] → exec (.trinvWrite v) s = .next s) ∧
    (s.invals = [] → ∃ t x, exec (.trinvWrite v) s = .next t ∧ t.invals = [x] ∧ x.asid = n % 4096 ∧ x.whole = bitOf n 12 ∧
      x.first = bitsOf s.traddr.toNat 56 16 * 65536 ∧ x.pages = bitsOf n 47 16 ∧ x.start = t.fresh ∧ t.mem = s.mem ∧
      ∀ y ∈ t.tlb, x.covers y.asid (y.page * 2 ^ pageBits y.level) (2 ^ pageBits y.level) = false)) ∧
  (∀ s v rest, s.invals = v :: rest → (s.invalWaits v = true → exec .invalidationComplete s = .next s) ∧
    (s.invalWaits v = false → ∃ t, exec .invalidationComplete s = .next t ∧ t.invals = rest ∧ t.mem = s.mem ∧ (∀ r ∈ s.woken, r ∈ t.woken) ∧
      (∀ r ∈ s.parkedUnder v, r ∈ t.woken) ∧
      ∀ y ∈ t.tlb, v.covers y.asid (y.page * 2 ^ pageBits y.level) (2 ^ pageBits y.level) = false))) ∧
  ((∀ pc s d rest, (s.place ⟨.glazier, pc⟩).deadReq = d :: rest →
    let waits := (s.pairQueue pc).any fun r => (r.arrived.map d.before.contains).getD false
    let dead := fun (x : State) f k => (fget 0 f x.deadFr).getLsbD k
    (waits = true → exec (.liveMapUpdate pc) s = .next s) ∧
    (waits = false → ∃ t, exec (.liveMapUpdate pc) s = .next t ∧ (t.place ⟨.glazier, pc⟩).deadReq = rest ∧
      (d.zeros = false → (Canon 0 s.deadFr → ∀ f, ∀ k < 64, dead t f k = if f = d.frame ∧ k = pc % 64 then !d.live else dead s f k) ∧
        (d.live = false ∨ dead s d.frame (pc % 64) = false → t.mem = s.mem)) ∧
      (d.zeros = true → t.deadFr = s.deadFr ∧
        ∀ a, rdByte t.mem a = if a / 65536 = d.frame ∧ hbmChannel a false = pc then 0 else rdByte s.mem a))) ∧
  (∀ pc row s, let fs := Config.rowFrames pc row
    let held := s.stackHeld ⟨.glazier, pc⟩
    (held = true ∨ (fs ≠ [] ∧ ∀ f ∈ fs, (fget 0 f s.deadFr).getLsbD (pc % 64) = true) → exec (.refresh pc row) s = .next s) ∧
    (held = false → fs = [] ∨ (∃ f ∈ fs, (fget 0 f s.deadFr).getLsbD (pc % 64) = false) → ∃ t, exec (.refresh pc row) s = .next t ∧ t = { s with places := t.places } ∧
      flook row (t.place ⟨.glazier, pc⟩).refreshed = some s.cycle)) ∧
  (∀ stack s, (8 ≤ stack → exec (.forcedSelfRefreshEntry stack) s = .next s) ∧
    (stack < 8 → ∃ t, exec (.forcedSelfRefreshEntry stack) s = .next t ∧ (flook stack t.refresh).isSome = true ∧
      ∀ pc, pc / 64 = stack → t.stackHeld ⟨.glazier, pc⟩ = true) ∧
    (stack < 8 → flook stack s.refresh = none → ∀ p, s.heldParts stack = [p] → fget 0 16 s.errq = 0 → fget 0 p s.conf.asidNum ≠ 0 →
      Memory.wf s.mem = true →
      let reg := (fget 0 p s.errq).toNat
      let cap := bitsOf reg 4 0
      let asid := fget 0 p s.conf.asidBase
      let at_ := fun o => match s.walk asid (bitsOf reg 56 12 * 4096 + o) with
        | .leaf e l => some (leafXlat e l (bitsOf reg 56 12 * 4096 + o)).key
        | _ => none
      ∀ kt kh kd kr, at_ 0 = some kt → at_ 8 = some kh → at_ 16 = some kd →
        let tail := rdNat s.mem kt 8
        at_ (64 + 32 * (tail % 2 ^ cap)) = some kr → 4 ≤ cap → cap ≤ 16 → (tail + 2 ^ 64 - rdNat s.mem kh 8) % 2 ^ 64 < 2 ^ cap →
        kt + 8 ≤ gangBase → kr + 32 ≤ gangBase → kr + 32 ≤ kt ∨ kt + 8 ≤ kr →
        ∃ t, exec (.forcedSelfRefreshEntry stack) s = .next t ∧ rdBytes t.mem kr 32 = errorRecord 0 s.cycle 0 0xFFFFFFFF 0 0 p 0 4 ∧
          rdNat t.mem kt 8 = (tail + 1) % 2 ^ 64) ∧
    (∃ t, exec (.forcedSelfRefreshExit stack) s = .next t ∧ flook stack t.refresh = none ∧ t.mem = s.mem ∧ t.places = s.places) ∧
    (∀ since, flook stack s.refresh = some since → (s.cycle ≤ since + 2 ^ 24 → exec (.selfRefreshTimeout stack) s = .next s) ∧
      (stack < 8 → since + 2 ^ 24 < s.cycle → ∃ t, exec (.selfRefreshTimeout stack) s = .next t ∧
        ∀ pc, pc / 64 = stack → ∀ r ∈ (t.place ⟨.glazier, pc⟩).queue, r.arrived = none))) ∧
  (∀ pc atom s, let p := s.place ⟨.glazier, pc⟩
    ∃ t, exec (.pseudoChannelMigration pc atom) s = .next t ∧ t = { s with places := t.places } ∧
      (p.away = 1 ∨ p.away = 3 → atom < channelAtoms → atom ∉ p.moved →
        let q := t.place ⟨.glazier, pc⟩
        if (sins atom p.moved).length = channelAtoms then q.away = (if p.away = 1 then 2 else 0) ∧ q.moved = []
        else q.away = p.away ∧ atom ∈ q.moved)))

/-! ## Events of groups and tasks -/

/-- A group with nothing left to do commits, applies what it held one by one in order, which is an atomic on its way to its place, an
exchange of views or a spawn, and gives its resources back (R184, R207, R244, R289, R304); a task whose last group has retired frees its
keys and is done (R291); a crew that is ended rolls back and, once its work is done, is freed (R342); the members of a pair compare and go
on from one commit point; where they differ each gets its record in a cycle of its own, and in the next they return to their checkpoint, or
the second time the task ends; after an instruction performed once the checkpoint holds its results (R349 to R352, R377, R379). Where the
manual leaves more than one reading, the clauses rest on the model's readings in log 95, 116 and 136. -/
def Obligations.GroupsAndTasksEnd : Prop :=
  (∀ gid s g k, s.group? gid = some g → flook g.task s.tasks = some k → s.atRest gid g = true →
    (∀ c, flook g.crew s.crews = some c → c.ending = none) → s.retireTurn g k = true → g.pair = none →
    (g.sbuf ≠ [] → ∃ t v, exec (.groupRetire gid) s = .next t ∧ t.group? gid = some v ∧ v.sbuf = [] ∧ t.mem = s.mem) ∧
    (g.sbuf = [] → s.hasDrains gid = true → exec (.groupRetire gid) s = .next s) ∧
    (∀ h rest, g.sbuf = [] → s.hasDrains gid = false → g.member ≠ 2 → g.held = h :: rest →
      (applyHeld s gid g k h = none → exec (.groupRetire gid) s = .next s) ∧
      (∀ s1, applyHeld s gid g k h = some s1 → exec (.groupRetire gid) s = .next (s1.modGroup gid fun v => { v with held := rest })) ∧
      (∀ tcb, h = .spawn tcb → s.spawnWaits (coreCluster g.core) k.asid k.part tcb = false →
        applyHeld s gid g k h = some ((s.expose g).spawn (coreCluster g.core) k.asid k.part tcb).1) ∧
      (∀ u a l u' l', h = .atomic [(u, a)] → a.lanes = [l] → s.heldLane g k a u l = .ok (u', l') → keyRegion l'.addr < 4 →
        ∃ t v e, exec (.groupRetire gid) s = .next t ∧ t.mem = s.mem ∧ t.group? gid = some v ∧ v.held = rest ∧
          v.draining = g.draining ++ [e] ∧ e.u = u' ∧ e.bytes = [] ∧ e.gid = gid ∧ e.bank = l'.addr / 64 % 16 ∧
          e.atom = some { a with lanes := [l'] }) ∧
      (∀ obj, h = .publish obj → (s.publishes.any fun q => decide (q.asid = k.asid) && decide (q.obj = obj)) = false →
        publishReady s { id := s.fresh, asid := k.asid, obj := obj, part := k.part, cmd := none } = true →
        let key := s.entryKey k.asid obj
        s.mayStart (keyUnit key) s.fresh [(key, 16)] = true → Memory.wf s.mem = true → s.deadFr = [] → s.poison = [] → key + 16 ≤ gangBase →
        ∃ t v, exec (.groupRetire gid) s = .next t ∧ rdBytes t.mem key 8 = rdBytes s.mem (key + 8) 8 ∧
          rdBytes t.mem (key + 8) 8 = rdBytes s.mem key 8 ∧ (∀ a, ¬ (key ≤ a ∧ a < key + 16) → rdByte t.mem a = rdByte s.mem a) ∧
          t.group? gid = some v ∧ v.held = rest)) ∧
    (g.sbuf = [] → s.hasDrains gid = false → g.held = [] → g.member ≠ 2 → gid < s.fresh → ∃ t v, exec (.groupRetire gid) s = .next t ∧
      t.group? gid = none ∧ flook g.task t.tasks = some v ∧ v.retired = k.retired + 1 ∧ v.nextRet = k.nextRet + 1)) ∧
  (∀ key s k, flook key s.tasks = some k → k.stage = .granted → k.ended = none → (∀ p ∈ s.groups, p.2.task ≠ key) → (∀ p ∈ s.crews, p.2.task ≠ key) →
    s.wordHeld k.asid k.tcb = false → s.successors k = [] → (∀ p ∈ s.lockWait, key ∉ p.2) →
    (k.retired < tcbGroups k.image → exec (.taskRetire key) s = .next s) ∧
    (tcbGroups k.image ≤ k.retired → ∃ t v, exec (.taskRetire key) s = .next t ∧ flook key t.tasks = some v ∧ v.stage = .done ∧ v.yard = [] ∧
      ∀ p ∈ t.keys, p.2 ≠ key)) ∧
  (∀ crew s c cause k, flook crew s.crews = some c → c.ending = some cause → flook c.task s.tasks = some k →
    let gids := (s.endingCrews crew c).flatMap (·.2.groups)
    let s1 := gids.foldl (fun s gid => s.rollbackGroup gid) s
    let busy := gids.any fun gid => ((s1.group? gid).map (s1.unfinished gid)).getD false
    (busy = true → exec (.groupEnd crew) s = .next s1) ∧
    (busy = false → ∃ t, exec (.groupEnd crew) s = .next t ∧ flook crew t.crews = none ∧ ∀ gid ∈ c.groups, t.group? gid = none) ∧
    (∀ gid ∈ gids, ∀ v, s1.group? gid = some v → v.sbuf = [] ∧ v.held = [] ∧ v.deferred = [])) ∧
  (∀ gid s g p h k, s.group? gid = some g → g.pair = some p → p ≠ gid → s.group? p = some h → flook g.task s.tasks = some k → h.task = g.task →
    k.ended = none → (∃ c, flook g.crew s.crews = some c ∧ c.ending = none) → (∃ c, flook h.crew s.crews = some c ∧ c.ending = none) →
    g.member = 1 → g.stopped = false → h.stopped = false → s.settledAt gid g = true → s.settledAt p h = true → g.held = [] →
    (g.differs = none → g.signature = h.signature → g.commitBy = h.commitBy → ∃ t, exec (.signatureCompare gid) s = .next t ∧ ∀ x, x = gid ∨ x = p →
      ∃ v, t.group? x = some v ∧ v.atCommit = none ∧ v.agreed = !(if x = gid then g.forced else h.forced) ∧ v.sbuf = []) ∧
    (g.differs = none → g.signature ≠ h.signature → ∃ t, exec (.signatureCompare gid) s = .next t ∧ t.mem = s.mem ∧ ∀ x, x = gid ∨ x = p →
      ∃ v, t.group? x = some v ∧ v.differs = some s.cycle ∧ v.sbuf = [] ∧ v.held = [] ∧ v.agreed = (if x = gid then g.agreed else h.agreed)) ∧
    (g.differs = some s.cycle → exec (.signatureCompare gid) s = .next s) ∧
    (∀ n, g.differs = some n → n ≠ s.cycle →
      (h.differs ≠ none → ∃ t v w, exec (.signatureCompare gid) s = .next t ∧ t.mem = s.mem ∧ t.group? gid = some v ∧ v.differs = some s.cycle ∧
        t.group? p = some w ∧ w.differs = none) ∧
      (h.differs = none → 1 ≤ fget 0 g.index k.mism → ∃ t v, exec (.signatureCompare gid) s = .next t ∧
        flook g.task t.tasks = some v ∧ v.ended = some 0x19) ∧
      (h.differs = none → fget 0 g.index k.mism = 0 → (flook g.index k.checkpt).isSome = true → ∃ t v, exec (.signatureCompare gid) s = .next t ∧
        flook g.task t.tasks = some v ∧ v.ended = none ∧ flook g.index v.mism = some 1))) ∧
  (∀ gid s g p h k, s.group? gid = some g → g.pair = some p → p ≠ gid → s.group? p = some h → flook g.task s.tasks = some k → h.task = g.task →
    k.ended = none → (∃ c, flook g.crew s.crews = some c ∧ c.ending = none) → (∃ c, flook h.crew s.crews = some c ∧ c.ending = none) →
    g.member = 1 → g.differs = none → g.stopped = true → h.stopped = true → (∀ w ∈ s.warpsOf gid, ∀ q ∈ w.2.pend, q.twin = none) →
    s.unfinished gid g ((s.core g.core).engine.filter fun e => decide (e.gid = gid)) = false →
    ∃ t v w x, exec (.signatureCompare gid) s = .next t ∧ t.mem = s.mem ∧ t.group? gid = some v ∧ v = { g with stopped := false } ∧
      t.group? p = some w ∧ w = { h with stopped := false } ∧ flook h.task t.tasks = some x ∧ (flook h.index x.checkpt).isSome = true)

/-- The dispatcher places a task's next group on an eligible core, or a whole crew on one cluster (R191, R192, R206, R296, R390): each
group's warps stand at the TCB's entry with their lanes, all flags set; the warps of a crew that was saved get what was saved of them
(R321). PREEMPT and RESTORE begin a save and a restore or set their fail bits; a drained crew is saved and freed (R318 to R321). A held
event record enters its queue when there is room (R292). Where the manual leaves more than one reading, the clauses rest on the model's
readings in log 66 and 135. -/
def Obligations.PlacementAndContexts : Prop :=
  (∀ (several : Bool) key s k idxs avoid r s1, flook key s.tasks = some k → s.nextUnit key k = some (.groups idxs avoid r) →
    (several = decide (1 < idxs.length)) → idxs ≠ [] → k.redundant = false → (∀ p ∈ s.groups, p.1 < s.fresh) →
    (∀ p ∈ s.placeable, p.2.1.order < k.order → s.placeNow s.blocking p.1 p.2.1 p.2.2 = none) →
    let e := if several then Instr.crewPlacement key else .groupPlacement key
    (s.placeNow s.blocking key k (.groups idxs avoid r) = none → exec e s = .next s) ∧
    (s.placeNow s.blocking key k (.groups idxs avoid r) = some s1 → ∃ t, exec e s = .next t ∧ ∀ i ∈ idxs, ∃ gid g, s.group? gid = none ∧
      t.group? gid = some g ∧ g.task = key ∧ g.index = i ∧ g.core ∈ s.eligible k.part k.image ∧ g.nwarps = tcbWarps k.image ∧ g.sbuf = [] ∧
      (∀ j ∈ idxs, ∃ hid h, t.group? hid = some h ∧ s.group? hid = none ∧ h.task = key ∧ h.index = j ∧ h.crew = g.crew ∧
        coreCluster h.core = coreCluster g.core) ∧
      ∀ w < g.nwarps, w < 32 → ∃ v x, t.warp? gid w = some v ∧ v.split? 0 = some x ∧ x.pc = BitVec.ofNat 64 (tcbField k.image 64 64) ∧
        x.held = warpLanes k.image w ∧ x.exm = x.held ∧ x.dix = 0 ∧ v.width = tcbWidth k.image ∧ v.nregs = warpRegs k.image w ∧ v.vregs = [] ∧
        v.flags = [] ∧ v.pend = [])) ∧
  (∀ key s k x s1, flook key s.tasks = some k → s.nextUnit key k = some (.saved x) → k.redundant = false → (∀ p ∈ s.groups, p.1 < s.fresh) →
    (∀ p ∈ s.placeable, p.2.1.order < k.order → s.placeNow s.blocking p.1 p.2.1 p.2.2 = none) →
    s.placeNow s.blocking key k (.saved x) = some s1 → (x.warps.map fun p => (p.1, p.2.1)).Nodup → (∀ p ∈ x.warps, p.2.1 < 32) →
    let gids := newGroups s s1
    ∃ t, exec (if 1 < x.groups.length then Instr.crewPlacement key else .groupPlacement key) s = .next t ∧
      (∀ p ∈ x.warps, p.1 < gids.length → ∀ n, s1.warp? (gids.getD p.1 0) p.2.1 = some n → ∃ v, t.warp? (gids.getD p.1 0) p.2.1 = some v ∧
        v = { p.2.2 with bay := n.bay, slot := n.slot, spill := n.spill, pend := v.pend }) ∧
      (k.saved = [x] → t.restore = none ∧ ∃ v, flook key t.tasks = some v ∧ v.saving = false ∧ v.saved = [])) ∧
  (∀ v s, s.preempt = none → (s.named v = none → exec (.preemptWrite v) s = .next { s with preFail := true }) ∧
    (∀ key k, s.named v = some (key, k) →
      (k.saving = true ∨ areaOk s s.ctxbase.toNat (areaNeed s key k) = false → exec (.preemptWrite v) s = .next { s with preFail := true }) ∧
      (k.saving = false → areaOk s s.ctxbase.toNat (areaNeed s key k) = true → flook key s.tasks = some k → ∃ t x,
        exec (.preemptWrite v) s = .next t ∧ t.preempt = some key ∧ t.preFail = false ∧ flook key t.tasks = some x ∧ x.saving = true ∧
        x.ctx = s.ctxbase.toNat ∧ x.ctxLen = areaNeed s key k ∧ t.mem = s.mem))) ∧
  (∀ v s, s.preempt ≠ none → exec (.preemptWrite v) s = .next s) ∧
  (∀ key s k, flook key s.tasks = some k → s.preempt = some key →
    (k.ended ≠ none ∨ k.stage = .done → exec (.preemptSaveComplete key) s = .next { s with preempt := none, preFail := true }) ∧
    (∀ cid c, k.ended = none → k.stage ≠ .done → s.crewsOf key = [(cid, c)] →
      let s1 := s.withdraw key
      (∀ gid ∈ c.groups, ∀ g, s1.group? gid = some g → k.redundant = true ∨ g.sbuf = []) →
      (s1.drained c = false → exec (.preemptSaveComplete key) s = .next s1) ∧
      (s1.drained c = true → ∃ t x, exec (.preemptSaveComplete key) s = .next t ∧ flook cid t.crews = none ∧ (∀ gid ∈ c.groups, t.group? gid = none) ∧
        flook key t.tasks = some x ∧ x.saved = k.saved ++ [s1.saveCrew k c])) ∧
    (k.ended = none → k.stage ≠ .done → s.crewsOf key = [] → ∃ t x, exec (.preemptSaveComplete key) s = .next t ∧ t.preempt = none ∧
      flook key t.tasks = some x ∧ x.yard = [])) ∧
  (∀ v s, (s.restore ≠ none → exec (.restoreWrite v) s = .next s) ∧
    (s.restore = none → s.named v = none → exec (.restoreWrite v) s = .next { s with resFail := true }) ∧
    (∀ key k, s.restore = none → s.named v = some (key, k) → k.saving = true → s.preempt ≠ some key → k.ctx = s.ctxbase.toNat → k.saved ≠ [] →
      exec (.restoreWrite v) s = .next { s with resFail := false, restore := some key }) ∧
    (∀ key k, s.restore = none → s.named v = some (key, k) → k.saving = true → s.preempt ≠ some key → k.ctx = s.ctxbase.toNat → k.saved = [] →
      flook key s.tasks = some k → ∃ t x, exec (.restoreWrite v) s = .next t ∧ t.restore = none ∧ flook key t.tasks = some x ∧
      x = { k with saving := false })) ∧
  (∀ part queue s r rest, flook queue (s.part part).heldRecs = some (r :: rest) →
    let ring := (flook queue (s.part part).queues).getD []
    (256 ≤ ring.length → exec (.eventRecordAppend part queue) s = .next s) ∧
    (ring.length < 256 → ∃ t, exec (.eventRecordAppend part queue) s = .next t ∧ t.mem = s.mem ∧
      flook queue (t.part part).queues = some (ring ++ [r]) ∧ flook queue (t.part part).heldRecs = some rest))

/-! ## Host, Dallum and the trust unit -/

/-- The host's accesses (R323 to R325): the window register keeps bits 51 to 38; a read, a write and an AtomicOp of HBM through the window
of function 0 act on its bytes; a refused one is recorded in the physical error log with kind 7, and a read is answered with nothing (R324,
R354, R355); the rings of a mailbox take and give messages, and its reserved bytes read as zero (R8); the registers of the control block
keep their writable bits (R320, R334, R355). Where the manual leaves more than one reading, the clauses rest on the model's readings in log
77, 79 and 80. -/
def Obligations.HostAccesses : Prop :=
  (∀ v s, exec (.apwinWrite v) s = .next { s with apwin := BitVec.ofNat 64 (bitsOf v.toNat 51 38 * 2 ^ 38) }) ∧
  (∀ off v s, let n := v.toNat
    ∃ t, exec (.controlBlockWrite off v) s = .next t ∧
      t = { s with traddr := t.traddr, ctxbase := t.ctxbase, wpaddr := t.wpaddr, wpctl := t.wpctl, errq := t.errq } ∧
      t.traddr.toNat = (if off = 0x000 then bitsOf n 56 16 * 65536 else s.traddr.toNat) ∧ t.ctxbase = (if off = 0x010 then v else s.ctxbase) ∧
      t.wpaddr.toNat = (if off = 0x028 then bitsOf n 56 3 * 8 else s.wpaddr.toNat) ∧
      t.wpctl.toNat = (if off = 0x030 then bitsOf n 47 16 * 65536 + n % 2 ^ 15 else s.wpctl.toNat) ∧
      (Canon 0 s.errq → ∀ p < 17, (fget 0 p t.errq).toNat =
        if off = (if p = 16 then 0x038 else 0x100 + 8 * p) then bitsOf n 56 12 * 4096 + n % 32 else (fget 0 p s.errq).toNat)) ∧
  (∀ off s, let pa := s.apwin.toNat + off
    let free := s.hostHeld = [] ∧ (∀ u, (s.place u).queue = [] ∧ (s.place u).deadReq = []) ∧ s.staleViews = [] ∧ s.refresh = [] ∧ s.badStacks = [] ∧ s.poison = [] ∧ s.soft = [] ∧ s.deadFr = [] ∧ Memory.wf s.mem = true
    free → 2 ≤ s.stage →
    (∀ n, off + n ≤ 2 ^ 38 → pa + n ≤ 2 ^ 39 → ∃ t, exec (.bar2HostRead 0 off n) s = .next t ∧ t.mem = s.mem ∧
      t.hostOut = rdBytes s.mem pa n :: s.hostOut) ∧
    (∀ n, off + n ≤ 2 ^ 38 → 2 ^ 39 ≤ pa → 0 < n → ¬ (2 ^ 51 ≤ pa ∧ pa + n ≤ 2 ^ 51 + 65536) → ∃ t, exec (.bar2HostRead 0 off n) s = .next t ∧
      t.hostOut = [] :: s.hostOut) ∧
    (∀ (data : List Byte), off + data.length ≤ 2 ^ 38 → 2 ^ 39 ≤ pa → data ≠ [] → ¬ (2 ^ 51 ≤ pa ∧ pa + data.length ≤ 2 ^ 51 + 65536) →
      let reg := (fget 0 16 s.errq).toNat
      let cap := bitsOf reg 4 0
      let ring := bitsOf reg 56 12 * 4096
      let tail := rdNat s.mem ring 8
      4 ≤ cap → cap ≤ 16 → ring + 64 + 32 * 2 ^ cap ≤ gangBase → (tail + 2 ^ 64 - rdNat s.mem (ring + 8) 8) % 2 ^ 64 < 2 ^ cap →
      ∀ e, e = Instr.bar2HostRead 0 off data.length ∨ e = .bar2HostWrite 0 off data → ∃ t, exec e s = .next t ∧
        rdBytes t.mem (ring + 64 + 32 * (tail % 2 ^ cap)) 32 = errorRecord pa s.cycle 0 0xFFFFFFFF 0 0 0 0 7 ∧
        rdNat t.mem ring 8 = (tail + 1) % 2 ^ 64) ∧
    (∀ data : List Byte, off + data.length ≤ 2 ^ 38 → pa + data.length ≤ 2 ^ 39 → ∃ t, exec (.bar2HostWrite 0 off data) s = .next t ∧
      rdBytes t.mem pa data.length = data ∧ ∀ a, ¬ (pa ≤ a ∧ a < pa + data.length) → rdByte t.mem a = rdByte s.mem a) ∧
    (∀ op size val cmp, off + size ≤ 2 ^ 38 → pa + size ≤ 2 ^ 39 → size = 4 ∨ size = 8 → off % size = 0 → op = .add ∨ op = .exch ∨ op = .cas →
      let old := bytesNat (rdBytes s.mem pa size)
      ∃ t, exec (.bar2HostAtomic 0 off op size val cmp) s = .next t ∧ t.hostOut = rdBytes s.mem pa size :: s.hostOut ∧
        rdBytes t.mem pa size = natBytes size ((atomNew op size old val cmp).getD old))) ∧
  (∀ fn mbx s part m, boxOf fn mbx = some (part, m) →
    let b := (s.part part).box m
    (∀ data : List Byte, data.length = 64 → b.inbound.length < 16 → ∃ t, exec (.mailboxInboundWrite fn mbx 0 data) s = .next t ∧ t.mem = s.mem ∧
      (t.part part).box m = { b with inbound := b.inbound ++ [(data, decide (fn = 0))] }) ∧
    (∀ off (data : List Byte), off < 0x40 → off ≠ 0 ∨ data.length ≠ 64 ∨ 16 ≤ b.inbound.length → ∃ t,
      exec (.mailboxInboundWrite fn mbx off data) s = .next t ∧ (t.part part).box m = { b with overrun := b.overrun + 1 }) ∧
    (∀ x rest, b.outbound = x :: rest → ∃ t, exec (.mailboxOutboundRead fn ⟨mbx, 0x40, 64⟩) s = .next t ∧ t.hostOut = x :: s.hostOut ∧
      (t.part part).box m = { b with outbound := rest }) ∧
    (b.outbound = [] → exec (.mailboxOutboundRead fn ⟨mbx, 0x40, 64⟩) s = .next (s.hostAnswer (List.replicate 64 0))) ∧
    (∃ t, exec (.mailboxStatusRead fn ⟨mbx, 0x80, 8⟩) s = .next t ∧ t = { s with free := t.free, hostOut := t.hostOut } ∧
      t.hostOut = natBytes 8 (b.overrun % 2 ^ 32 * 65536 + b.sent * 256 + b.inbound.length) :: s.hostOut) ∧
    (∀ off len, 0x88 ≤ off → off + len ≤ 0x100 → ∃ t, exec (.mailboxStatusRead fn ⟨mbx, off, len⟩) s = .next t ∧
      t = { s with free := t.free, hostOut := t.hostOut } ∧ t.hostOut = List.replicate len 0 :: s.hostOut))

/-- Dallum answers the message of a mailbox that it takes next, by its kind: the message leaves its ring, and one reply with its kind, tag
and address enters the other (R218, R285, R286, R292, R365). A message of no kind that it knows, or with bytes set that its kind does not
use, gets 0xFF. Where the manual leaves more than one reading, the clauses rest on the model's readings in log 73, 75, 82, 83 and 100. -/
def Obligations.DallumAnswers : Prop :=
  (∀ part m s x fn0, s.dallumHead part m = some (x, fn0) →
    let b := (s.part part).box m
    let reply := fun body => message (msgKind x % 2 ^ 15 + 2 ^ 15) (msgTag x) (msgAddr x) body
    let answers := fun (e : Instr) body => ∃ t, exec e s = .next t ∧ ((t.part part).box m).inbound = b.inbound.tail ∧
      ((t.part part).box m).outbound = b.outbound ++ [reply body]
    let seq := fieldNat x 16 8
    let seen := s.visible part fn0
    (msgOk x fn0 = false → answers (.mailboxInvalidMessage part m) (natBytes 1 0xFF)) ∧
    (msgOk x fn0 = true →
      exec (.mailboxInvalidMessage part m) s = .next s ∧
      (msgKind x = 1 → s.space0 part = none → answers (.dallumSpawn part m) (natBytes 4 1 ++ natBytes 4 0)) ∧
      (msgKind x = 1 → ∀ asid t r id, s.space0 part = some asid → s.spawnWaits 48 asid part (msgAddr x) = false →
        s.spawn 48 asid part (msgAddr x) = (t, r, id) →
        exec (.dallumSpawn part m) s = .next (t.answerMsg part m x (natBytes 4 r ++ natBytes 4 id))) ∧
      (msgKind x = 2 → ∀ asid l, s.space0 part = some asid → s.frameRange asid (msgAddr x) (fieldNat x 16 4) = some l →
        answers (.declareDead part m) (natBytes 1 0)) ∧
      (msgKind x = 3 → ∀ asid l, s.space0 part = some asid → s.frameRange asid (msgAddr x) (fieldNat x 16 4) = some l →
        answers (.declareLive part m) (natBytes 1 0)) ∧
      (∀ asid, s.space0 part = some asid → s.frameRange asid (msgAddr x) (fieldNat x 16 4) = none →
        (msgKind x = 2 → answers (.declareDead part m) (natBytes 1 1)) ∧ (msgKind x = 3 → answers (.declareLive part m) (natBytes 1 1))) ∧
      (msgKind x = 2 → s.space0 part = none → answers (.declareDead part m) (natBytes 1 1)) ∧
      (msgKind x = 3 → s.space0 part = none → answers (.declareLive part m) (natBytes 1 1)) ∧
      (msgKind x = 4 → answers (.forwardEventQueue part m) (natBytes 1 0) ∧
        (fieldNat x 16 2 < 256 → ∀ t, exec (.forwardEventQueue part m) s = .next t → flook (fieldNat x 16 2) (t.part part).forward = some (m, msgTag x))) ∧
      (msgKind x = 0x10 → answers (.listCapsules part m)
        (natBytes 2 0 ++ natBytes 2 seen.length ++ natBytes 4 0 ++ natBytes 8 ((seen.map (·.seq)).foldl min ((seen.map (·.seq)).headD 0)))) ∧
      (msgKind x = 0x11 → (∀ c ∈ seen, c.seq ≠ seq) → answers (.copyCapsule part m) (natBytes 1 1)) ∧
      (msgKind x = 0x11 → ∀ c l, seen.find? (fun c => decide (c.seq = seq)) = some c → fieldNat x 24 4 + fieldNat x 28 4 ≤ c.bytes.length →
        fieldNat x 28 4 % 64 = 0 → fieldNat x 28 4 ≤ 2 ^ 20 → s.copyTarget part fn0 (msgAddr x) (fieldNat x 28 4) = some l → s.hostLost l = false →
        answers (.copyCapsule part m) (natBytes 4 0)) ∧
      (msgKind x = 0x12 → (∃ c ∈ seen, c.seq = seq) → answers (.releaseCapsule part m) (natBytes 1 0) ∧
        ∀ t, exec (.releaseCapsule part m) s = .next t → ∀ c ∈ t.capsules, c.seq ≠ seq) ∧
      (msgKind x = 0x12 → (∀ c ∈ seen, c.seq ≠ seq) → answers (.releaseCapsule part m) (natBytes 1 1)) ∧
      (msgKind x = 0x13 → ∀ l, let r := s.report part ((x.drop 16).take 32)
        s.copyTarget part fn0 (msgAddr x) (r ++ s.sign (sha3 r)).length = some l → s.hostLost l = false →
        answers (.attest part m) (natBytes 4 0)) ∧
      (msgKind x = 0x14 → ∀ l, s.copyTarget part fn0 (msgAddr x) Config.certificates.length = some l → s.hostLost l = false →
        answers (.copyCertificates part m) (natBytes 4 0 ++ natBytes 4 Config.certificates.length)) ∧
      (msgKind x = 0x15 → answers (.serviceStatus part m) (natBytes 1 0 ++ natBytes 1 s.stage ++ natBytes 2 s.allCores.length ++
        natBytes 2 ((List.range 512).filter s.channelServes).length ++ natBytes 1 ((List.range 64).filter s.portServes).length)))) ∧
  (∀ part s rec_ key rest k, (s.part part).requests = (rec_, key) :: rest → s.stage ≠ 0 → s.handingOver = false → flook key s.tasks = some k →
    k.part = part → k.field 608 16 = 0xFFFF →
    ∃ t, exec (.dallumServiceRequest part) s = .next t ∧ (t.part part).requests = rest ∧ t.mem = s.mem)

/-- Replays and heat (R346, R374), the records that the core itself owes (R356, R358), device fatal events (R359), and the freezing and
sealing of a fatal event's rings (R360, R361). Where the manual leaves more than one reading, the clauses rest on the model's readings in
log 12, 50 and 81. -/
def Obligations.RecordsAndFatalEvents : Prop :=
  (∀ core s, core < 384 → (s.core core).recent = [] → ∃ t, exec (.shadowLatchReplay core) s = .next t ∧ t.mem = s.mem ∧
    (t.core core).stall = s.cycle + 2 ∧ (t.core core).replays = (s.core core).replays + 1 ∧ (t.core core).recent = [s.cycle]) ∧
  (∀ die temp s, die < 4 → ∃ t, exec (.thermalThreshold die temp) s = .next t ∧
    t = { s with halfBudget := t.halfBudget, halfClock := t.halfClock } ∧
    (s.conf.hotHalf < temp → die ∈ t.halfBudget) ∧ (temp ≤ s.conf.hotHalf → temp < s.conf.hotBack → die ∉ t.halfBudget) ∧
    (s.conf.clkHalf < temp → die ∈ t.halfClock) ∧ (temp ≤ s.conf.clkHalf → temp ≤ s.conf.clkBack → die ∉ t.halfClock)) ∧
  (∀ core s, let k := s.core core
    ((k.lost = 0 ∧ k.owes = false) ∨ k.frozen ≠ none ∨ k.ringAt = some s.cycle → exec (.lostRecords core) s = .next s) ∧
    (k.lost ≠ 0 ∨ k.owes = true → k.frozen = none → k.ringAt ≠ some s.cycle → ∃ t r, exec (.lostRecords core) s = .next t ∧ t.mem = s.mem ∧
      (t.core core).ring = (r :: k.ring).take 8192 ∧ recKind r = 0x12 ∧ r.toNat / 2 ^ 64 = k.lost % 2 ^ 64 ∧ (t.core core).lost = 0)) ∧
  (∀ s, (s.cycle = 0 ∨ s.cycle % 2 ^ 32 ≠ 0 → exec .cycleCountWrap s = .next s) ∧
    (s.cycle ≠ 0 → s.cycle % 2 ^ 32 = 0 → ∃ t, exec .cycleCountWrap s = .next t ∧ t.mem = s.mem ∧
      ∀ k < 384, (s.core k).frozen = none → (s.core k).owes = false → (s.core k).ringAt ≠ some s.cycle → ∃ r,
        (t.core k).ring.head? = some r ∧ recKind r = 0x01 ∧ recTask r = false ∧ recCycle r = s.cycle % 2 ^ 32 ∧
        r.toNat / 2 ^ 64 = s.cycle % 2 ^ 64)) ∧
  (∀ s, let all := s.allCores
    let begins := fun e (t : State) => exec e s = .next t ∧ (t.fatals.length + t.waiting.length = s.fatals.length + s.waiting.length + 1) ∧ t.mem = s.mem
    (∃ t, begins .controlCoreMemoryError t) ∧
    (s.watchdog < 2 ^ 30 → exec .dallumWatchdogExpiry s = .next s) ∧
    (2 ^ 30 ≤ s.watchdog → ∃ t, begins .dallumWatchdogExpiry t ∧ t.watchdog = 0) ∧
    (∀ k ∈ all, k < 384 ∧ s.inService k = true)) ∧
  (∀ event s f core rest, s.fatals.find? (fun x => decide (x.id = event)) = some f → f.todo = core :: rest → f.frozen = [] →
    (s.core core).ringAt ≠ some s.cycle → (s.core core).owes = false → (s.core core).frozen = none →
    ∃ t g r, exec (.coreFreeze event) s = .next t ∧ (t.core core).frozen = some event ∧ t.fatals.find? (fun x => decide (x.id = event)) = some g ∧
      g.todo = rest ∧ g.seq = s.capSeq ∧ t.capSeq = s.capSeq + 1 ∧ (t.core core).ring.head? = some r ∧ recKind r = 0x13) ∧
  (∀ event s f, s.fatals.find? (fun x => decide (x.id = event)) = some f →
    (f.todo ≠ [] → exec (.capsuleSeal event) s = .next s) ∧
    (f.todo = [] → s.waiting = [] → f.device = false → (s.capsules.foldl (fun n c => n + c.bytes.length) 0) +
        ((s.capsuleBytes f true 0 f.seq).length + (s.capsuleBytes f false f.part s.capSeq).length) ≤ 2 ^ 27 → s.dropped = 0 →
      ∃ t h k, exec (.capsuleSeal event) s = .next t ∧ t.capsules = s.capsules ++ [h, k] ∧ h.hyper = true ∧ h.seq = f.seq ∧ k.hyper = false ∧
        k.part = f.part ∧ k.seq = s.capSeq ∧ (∀ x ∈ t.fatals, x.id ≠ event) ∧ ∀ p ∈ f.frozen, (t.core p.1).frozen = none))

/-- The service requests of physical function 0, in the order of their arrival (R369 to R372), signed configuration (R366, R367) and reset
(R364, R368, R373). Where the manual leaves more than one reading, the clauses rest on the model's readings in log 84, 86, 87, 137 and 138. -/
def Obligations.ServiceAndReset : Prop :=
  (∀ s part m x, let q := (part, m, x)
    let n := fieldNat x 16 2
    let answers := fun (e : Instr) status => exec e s = .next (s.svcAnswer q status)
    s.service = none →
    (s.svcNext 0x20 = some q → s.emptied = s → (384 ≤ n ∨ s.inService n = false → answers .retireCore 2) ∧
      (n < 384 → s.inService n = true → (∀ k ∈ s.allCores, k = n ∨ coreDie k ≠ coreDie n) → answers .retireCore 3) ∧
      (n < 384 → s.inService n = true → (∃ k ∈ s.allCores, k ≠ n ∧ coreDie k = coreDie n) → ∃ t, exec .retireCore s = .next t ∧
        (t.core n).retiring = true ∧ (t.service.map (·.1)) = some (.retire n (fieldNat x 18 1 != 0)))) ∧
    (s.svcNext 0x21 = some q → (384 ≤ n ∨ s.inService n = true → answers .readmitCore 2) ∧
      (n < 384 → s.inService n = false → ∃ t, exec .readmitCore s = .next t ∧ (t.service.map (·.1)) = some (.selfTest n (s.cycle + 2 ^ 22)))) ∧
    (s.svcNext 0x22 = some q → s.svcWaits = [] → n < 512 → s.badStacks = [] → s.awayOf n = 0 →
      (s.stackUsed n = false → ∃ t, exec .recalibratePseudoChannel s = .next t ∧ t.awayOf n = 1 ∧
        (t.service.map (·.1)) = some (.migrate n 0x22 0)) ∧
      (s.stackUsed n = true → ∃ t, exec .recalibratePseudoChannel s = .next t ∧ t.awayOf n = 0 ∧ t.service = none ∧ t.svcWaits = [q] ∧
        t.svcQueue = s.svcQueue.tail)) ∧
    (s.svcNext 0x23 = some q → n < 512 → s.badStacks = [] → s.stackUsed n = false → s.awayOf n = 0 →
      (∃ k < 512, k / 128 = n / 128 ∧ k ≠ n ∧ s.channelServes k = true) → ∃ t, exec .retirePseudoChannel s = .next t ∧
      t.awayOf n = 1 ∧ (t.service.map (·.1)) = some (.migrate n 0x23 0)) ∧
    (s.svcNext 0x24 = some q → (s.awayOf n ≠ 4 → answers .readmitPseudoChannel 2) ∧
      (n < 512 → s.badStacks = [] → s.awayOf n = 4 → ∃ t, exec .readmitPseudoChannel s = .next t ∧ t.awayOf n = 3)) ∧
    (s.svcNext 0x25 = some q → (64 ≤ n ∨ 3 < fieldNat x 18 1 → answers .setPortLanes 2) ∧
      (n < 64 → fieldNat x 18 1 ≠ 0 → fieldNat x 18 1 ≤ 3 → ∃ t, exec .setPortLanes s = .next t ∧ flook n t.lanesOut = some (fieldNat x 18 1))) ∧
    (s.svcNext 0x27 = some q → (s.physBytes (msgAddr x) 64 = none → answers .stageImage 2) ∧
      (∀ h b, s.physBytes (msgAddr x) 64 = some h → s.physBytes (msgAddr x) (Config.imageLength h) = some b → ∃ t, exec .stageImage s = .next t ∧
        flook (1 - s.active) t.images = some (imageOf b) ∧ t.active = s.active)) ∧
    (s.svcNext 0x28 = some q → (flook (1 - s.active) s.images = none → answers .handover 2) ∧
      (∀ i, flook (1 - s.active) s.images = some i → s.imageOk i = true → ∃ t, exec .handover s = .next t ∧
        (t.service.map (·.1)) =
          some (.handover s.cycle s.active (((flook s.active s.images).map fun a => handoverBlock a s.cycle).getD [])))) ∧
    (s.svcNext 0x29 = some q → (s.physBytes (msgAddr x) 96 = none → answers .installConfiguration 2) ∧
      (∀ h b, s.physBytes (msgAddr x) 96 = some h → s.physBytes (msgAddr x) (96 + fieldNat h 20 4 + 1312 + 2420) = some b →
        (s.blockOk b = false → answers .installConfiguration 2) ∧
        (s.blockOk b = true → ∃ t, exec .installConfiguration s = .next t ∧ t.counter = blockVersion b ∧
          (s.tasks = [] →
            t.conf = { confFor b with outCores := s.conf.outCores.foldl (fun l k => sins k l) (confFor b).outCores } ∧ t.block = b ∧ t.errq = (confFor b).errBases))))) ∧
  (∀ s core pass k ends part m x, s.service = some (.selfTest k ends, part, m, x) →
    (k ≠ core ∨ s.cycle < ends → exec (.coreSelfTest core pass) s = .next s) ∧
    (k = core → ends ≤ s.cycle → ∃ t, exec (.coreSelfTest core pass) s = .next t ∧ t.service = none ∧
      (pass = true → core ∉ t.conf.outCores) ∧ (pass = false → t.conf = s.conf))) ∧
  (∀ s core, s.service = none → s.stage ≤ 1 → core < 384 → core ∉ s.conf.outCores → core ∉ s.tested →
    exec (.coreSelfTest core true) s = .next { s with tested := sins core s.tested } ∧
    ∃ t, exec (.coreSelfTest core false) s = .next t ∧ core ∈ t.conf.outCores ∧ t.tested = s.tested) ∧
  (∀ s started old block part m x, s.service = some (.handover started old block, part, m, x) →
    (s.cycle < started + 2 ^ 29 → exec .handoverTimeout s = .next s ∧
      (∀ a b, flook old s.images = some a → flook (1 - old) s.images = some b → 
        (Config.acceptsHandover b.bytes block = true → ∃ t, exec .handover s = .next t ∧ t.active = 1 - old ∧ t.service = none) ∧
        (Config.acceptsHandover b.bytes block = false → ∃ t, exec .handover s = .next t ∧ t.active = s.active ∧ t.service = none))) ∧
    (started + 2 ^ 29 ≤ s.cycle → ∃ t, exec .handoverTimeout s = .next t ∧ t.service = none ∧ t.active = s.active)) ∧
  (∀ s, (s.stage ≠ 0 → exec .reset s = .next s) ∧
    (s.stage = 0 → (∀ p ∈ s.images, p.1 ≤ 1 → s.imageOk p.2 = false) → exec .reset s = .next s) ∧
    (∀ k i, s.stage = 0 → s.images = [(k, i)] → k ≤ 1 → s.imageOk i = true → exec .reset s = .next { s with stage := 1, active := k }) ∧
    (s.fatals = [] → s.waiting = [] → ∃ t, exec .resetRequest s = .next t ∧ t.mem = [] ∧ t.warps = [] ∧ t.groups = [] ∧ t.tasks = [] ∧ t.stage = 0 ∧
      t.cycle = 0 ∧ t.capsules = s.capsules ∧ t.images = s.images ∧ t.counter = s.counter ∧ t.oneTime = s.oneTime ∧ t.block = s.staged.getD s.block) ∧
    (s.fatals ≠ [] → s.resetReq = none → exec .resetRequest s = .next { s with resetReq := some s.cycle }) ∧
    (∀ n, s.resetReq = some n → (s.cycle < n + 2 ^ 32 → exec .resetWaitExpiry s = .next s) ∧
      (n + 2 ^ 32 ≤ s.cycle → ∃ t, exec .resetWaitExpiry s = .next t ∧ t.mem = [] ∧ t.stage = 0)) ∧
    (s.stage ≠ 1 ∨ s.coresTested = false → exec .fullService s = .next s) ∧
    (s.stage = 1 → s.coresTested = true → ∃ t, exec .fullService s = .next t ∧ t.stage = 2 ∧ t.mem = s.mem ∧
      ∀ p m, s.conf.dallum = [(p, m)] → ((t.part p).box m).outbound =
        ((s.part p).box m).outbound ++ [message 0x8015 0 0 ({ s.trained with stage := 2 } : State).statusBody]))

/-! ## The machine as a whole -/

/-- What one step is: the next move of the agenda, else the instruction that the next issuing split's line copy holds in the slot of its
program counter, else the end of the cycle. The twelve bytes of that slot decode to the instruction that is executed (R9, R16). Where the
manual leaves more than one reading, the clauses rest on the model's readings in log 2. -/
def Obligations.StepRunsDecodedInstruction : Prop :=
  (∀ s r rest x i more, s.agenda = [] → s.issuing = r :: rest → s.splitAt r = some x → x.entered = true →
    decode (x.text.drop (12 * slotOf x.pc)) = .ok (i, more) →
    step s = mapNext (afterIssue r) (exec i { s with issuing := rest, cur := .split r })) ∧
  (∀ s i rest, s.agenda = i :: rest → isEvent i = true → step s = exec i { s with agenda := rest }) ∧
  (∀ s i rest, s.agenda = i :: rest → isEvent i = false → step s = .next { s with agenda := rest }) ∧
  (∀ s r rest, s.agenda = [] → s.issuing = r :: rest → (∀ x, s.splitAt r = some x → x.entered = false) →
    step s = .next { s with issuing := rest }) ∧
  (∀ s, s.agenda = [] → s.issuing = [] → ∃ t, step s = .next t ∧ t.cycle = s.cycle + 1 ∧ t.mem = s.mem ∧ t.groups = s.groups ∧ t.cores = s.cores)

/-- The words that the manual works out bit by bit decode to the instructions that it names. -/
def Obligations.DecodesSpecWords : Prop :=
  decodeTableWord 96 0x00000000000000000F000000 = some (.nop { dist := 0 }) ∧
  decodeTableWord 96 0x004008C0880000000F000000 = some (.seal { wait := 0x002, dist := 3, trailer := 0x022 }) ∧
  decodeTableWord 96 0x08400041002FFFFFFFBF0100 = some (.saddi { dst := 8, sa := 2, imm := 0xFFFFFFFB, subop := 1 }) ∧
  decodeTableWord 96 0x13C000404051F803C0800001 = some (.vcmpInteger { dst := 2, sa := 5, sb := 0x3F, uni := 2, func := 1 }) ∧
  decodeTableWord 96 0x20C0208A0080183040860000 = some (.vfma
    { wait := 0x008, dist := 2, dst := 0x50, sa := 8, sb := 3, sc := 12, post := 1, uni := 2, round := 1, type := 8 }) ∧
  decodeTableWord 96 0x3800004280201827C0031080 = some (.vcvt { dst := 0x14, sa := 2, sb := 3, sc := 9, type := 0xC, sat := 1, func := 0x080 }) ∧
  decodeTableWord 96 0x48C008400005000008000001 = some (.mma { wait := 0x002, slotb := 1, acc := 2, post := 4, func := 1 }) ∧
  decodeTableWord 96 0x50000041C040008020002200 = some (.ld { data := 0x0E, base := 4, offset := 0x80, space := 1, size := 2, post := 2 }) ∧
  decodeTableWord 96 0x5A40004280406039C6600010 = some (.atomCas
    { dst := 0x14, addr := 4, opb := 12, opc := 14, space := 3, scope := 4, order := 3, post := 3, size := 2 }) ∧
  decodeTableWord 96 0x600000400000000044600000 = some (.fence { scope := 4, order := 2, post := 3 }) ∧
  decodeTableWord 96 0x684000400000260200200005 = some (.bsplit { loff := 2, tslot := 3, cond := 2, trailer := 0x002, func := 5 }) ∧
  decodeTableWord 96 0x700000401000058008200016 = some (.cpy { obj := 1, pa := 0x16, post := 4, fmta := 1, func := 0x16 }) ∧
  decodeTableWord 96 0x71C000403000028288000029 = some (.fpost { obj := 3, pa := 10, pb := 20, post := 4, func := 0x29 })

/-- Decoding and encoding are inverse to each other: no bit of any field is lost, every 96-bit word is some well-formed instruction, and an
event of the machine has no word. Every instruction begins with the common header: the opcode that selects it, its wait mask and its
distance (R26). -/
def Obligations.DecodeEncodeRoundTrip : Prop :=
  (∀ i w rest, i.wf = true → encode i = some w → decode (bytesOfNat 12 w.toNat ++ rest) = .ok (i, rest)) ∧
  (∀ w, (decodeWord w).wf = true ∧ encode (decodeWord w) = some w) ∧
  (∀ i w, encode i = some w → let h := (profile 32 i).head
    w.extractLsb' 86 10 = BitVec.ofNat 10 h.op ∧ w.extractLsb' 74 12 = h.wait ∧ (w.extractLsb' 70 4).toNat = h.dist) ∧
  (∀ i, encode i = none ↔ isEvent i = true) ∧
  (∀ bs, bs.length < 12 → decode bs = .error .tooShort)

/-- Every instruction obeys one order of issue: it waits until it may issue (R12, R21, R22); then it traps RUN_OVERFLOW if its run has 24
instructions (R17), ILLEGAL_INSTR with the lowest of the reasons that apply (R41), or, in deterministic mode, DETERMINISM for a register
that a long-latency result has still to reach or another split wrote (R23, R196), with nothing of it done. Without an issuing split it is a
fault, the only one. No instruction and no event is refused, and an event never ends in a fault. Where the manual leaves more than one
reading, the clauses rest on the model's readings in log 31. -/
def Obligations.IssueConditions : Prop :=
  (∀ i c s, isEvent i = false →
    ((∀ pc, s.cur ≠ .method pc) → s.issuer = none → exec i s = .fault .noIssuer) ∧
    (s.issuer = some c →
      (canIssue i c s = false → exec i s = .next s) ∧
      (canIssue i c s = true →
        (24 ≤ c.split.run.count → exec i s = .next (raise s c.ref { cause := 0x03, tval := c.split.run.start, epc := c.split.pc })) ∧
        (c.split.run.count < 24 →
          (∀ r, (true, r) ∈ ckCommon i c ++ checks i c → (∀ q, (true, q) ∈ ckCommon i c ++ checks i c → r ≤ q) →
            exec i s = .next (raise s c.ref { cause := 0x01, tval := BitVec.ofNat 64 ((profile c.warp.width i).head.op * 16 + r), epc := c.split.pc })) ∧
          ((∀ p ∈ ckCommon i c ++ checks i c, p.1 = false) → c.task.determ = true → tagsOk i c = false ∨ readsPending i c = true →
            exec i s = .next (raise s c.ref { cause := 0x0D, epc := c.split.pc })))))) ∧
  ((∀ i s r, exec i s ≠ .refused r) ∧ (∀ i s, isEvent i = true → ∃ t, exec i s = .next t) ∧
  (∀ i c s, s.issuer = some c → ∃ t, exec i s = .next t))

/-- After reset the device is in stage 0 at cycle 0: no task, group, warp or request exists, every memory is empty and in canonical form,
and no capsule is held. Where the manual leaves more than one reading, the clauses rest on the model's readings in log 1 and 5. -/
def Obligations.ResetState : Prop :=
  Memory.wf State.reset.mem = true ∧ State.reset.stage = 0 ∧ State.reset.cycle = 0 ∧ State.reset.tasks = [] ∧ State.reset.groups = [] ∧
  State.reset.crews = [] ∧ State.reset.warps = [] ∧ State.reset.places = [] ∧ State.reset.cores = [] ∧ State.reset.capsules = [] ∧
  State.reset.apwin = 0 ∧ (∀ a, rdByte State.reset.mem a = 0)

/-- Every step keeps the canonical form of memory, whatever moves the agenda and the plan hold: equal memories stay equal data. -/
def Obligations.StepKeepsMemoryCanonical : Prop :=
  ∀ s t, Memory.wf s.mem = true → step s = .next t → Memory.wf t.mem = true
end

