-- ==== Sys2Proof/Laws/State.lean ====
section
/-! SUPPORT. The laws of the sparse maps and of the state's updates: what each update reads as, field by field. -/

namespace Sys2Proof.Machine

/-! ## Sparse maps -/

section maps
variable {α : Type}

@[simp] theorem flook_nil (k : Nat) : flook k ([] : FMap α) = none := rfl

theorem flook_cons (k a : Nat) (v : α) (t : FMap α) : flook k ((a, v) :: t) = if a = k then some v else flook k t := rfl

@[simp] theorem flook_fmod_self (k : Nat) (f : α → α) (m : FMap α) : flook k (fmod k f m) = (flook k m).map f := by
  induction m with
  | nil => rfl
  | cons p t ih =>
    obtain ⟨a, v⟩ := p
    by_cases h : a = k
    · simp [fmod, flook_cons, h]
    · simpa [fmod, flook_cons, h] using ih

theorem flook_fmod_ne {k j : Nat} (h : j ≠ k) (f : α → α) (m : FMap α) : flook j (fmod k f m) = flook j m := by
  induction m with
  | nil => rfl
  | cons p t ih =>
    obtain ⟨a, v⟩ := p
    by_cases ha : a = k
    · subst ha; simpa [fmod, flook_cons, h.symm] using ih
    · by_cases hj : a = j
      · subst hj; simp [fmod, flook_cons, ha]
      · simpa [fmod, flook_cons, ha, hj] using ih

@[simp] theorem flook_fput_self (k : Nat) (v : α) (m : FMap α) : flook k (fput k v m) = some v := by
  induction m with
  | nil => simp [fput, flook_cons]
  | cons p t ih =>
    obtain ⟨a, x⟩ := p
    unfold fput
    split
    · rename_i h; simp [flook_cons, Nat.ne_of_lt h, ih]
    · split <;> simp [flook_cons]

theorem flook_fput_ne {k j : Nat} (h : j ≠ k) (v : α) (m : FMap α) : flook j (fput k v m) = flook j m := by
  induction m with
  | nil => simp [fput, flook_cons, h.symm]
  | cons p t ih =>
    obtain ⟨a, x⟩ := p
    unfold fput
    split
    · simp [flook_cons, ih]
    · split
      · rename_i hk; subst hk; simp [flook_cons, h.symm]
      · simp [flook_cons, h.symm]

theorem fget_none {d : α} {k : Nat} {m : FMap α} (h : ∀ p ∈ m, k < p.1) : fget d k m = d := by
  induction m with
  | nil => rfl
  | cons p t ih =>
    obtain ⟨a, v⟩ := p
    have h1 := h (a, v) (by simp)
    simp only [fget]
    rw [if_neg (by simp at h1; omega)]
    exact ih fun q hq => h q (by simp [hq])

variable [DecidableEq α]

theorem fset_mem {d : α} {k : Nat} {v : α} {m : FMap α} {p : Nat × α} (h : p ∈ fset d k v m) : p.1 = k ∨ p ∈ m := by
  induction m with
  | nil => unfold fset at h; split at h <;> simp_all
  | cons q t ih =>
    obtain ⟨a, x⟩ := q
    unfold fset at h
    split at h
    · simp only [List.mem_cons] at h ⊢
      rcases h with h | h
      · simp [h]
      · rcases ih h with h | h <;> simp [h]
    · split at h
      · split at h
        · simp [h]
        · simp only [List.mem_cons] at h ⊢; rcases h with h | h <;> simp [h]
      · split at h
        · right; exact h
        · simp only [List.mem_cons] at h ⊢; rcases h with h | h | h <;> simp [h]

/-- Setting a key keeps the canonical form. -/
theorem fset_canon {d : α} {k : Nat} {v : α} {m : FMap α} (h : Canon d m) : Canon d (fset d k v m) := by
  induction m with
  | nil => unfold fset; split <;> simp_all [Canon]
  | cons q t ih =>
    obtain ⟨a, x⟩ := q
    obtain ⟨h1, h2, h3⟩ := h
    unfold fset
    split
    · refine ⟨h1, ?_, ih h3⟩
      intro p hp
      rcases fset_mem hp with hp | hp
      · omega
      · exact h2 p hp
    · split
      · split
        · exact h3
        · refine ⟨by assumption, ?_, h3⟩
          intro p hp; have := h2 p hp; omega
      · split
        · exact ⟨h1, h2, h3⟩
        · refine ⟨by assumption, ?_, h1, h2, h3⟩
          intro p hp
          simp only [List.mem_cons] at hp
          rcases hp with rfl | hp
          · simp; omega
          · have := h2 p hp; omega

/-- Reading the key that was set. -/
theorem fget_fset_self {d : α} {k : Nat} {v : α} {m : FMap α} (h : Canon d m) : fget d k (fset d k v m) = v := by
  induction m with
  | nil => unfold fset; split <;> simp_all [fget]
  | cons q t ih =>
    obtain ⟨a, x⟩ := q
    obtain ⟨h1, h2, h3⟩ := h
    unfold fset
    split
    · rename_i hlt; simp [fget, Nat.ne_of_lt hlt, ih h3]
    · split
      · rename_i hk
        split
        · rename_i hv; subst hv hk; exact fget_none h2
        · simp [fget]
      · split
        · rename_i hn hk hv
          subst hv
          apply fget_none
          intro p hp
          simp only [List.mem_cons] at hp
          rcases hp with rfl | hp
          · simp; omega
          · have := h2 p hp; omega
        · simp [fget]

/-- Reading a key that was set to a value other than the default, in any list. -/
theorem fget_fset_pos {d : α} {k : Nat} {v : α} (hv : v ≠ d) {m : FMap α} : fget d k (fset d k v m) = v := by
  induction m with
  | nil => simp [fset, hv, fget]
  | cons q t ih =>
    obtain ⟨a, x⟩ := q
    unfold fset
    split
    · rename_i hlt; simp [fget, Nat.ne_of_lt hlt, ih]
    · split <;> simp [fget]

/-- Reading another key. -/
theorem fget_fset_ne {d : α} {j k : Nat} (hj : j ≠ k) {v : α} {m : FMap α} : fget d j (fset d k v m) = fget d j m := by
  induction m with
  | nil => unfold fset; split <;> simp [fget, hj.symm]
  | cons q t ih =>
    obtain ⟨a, x⟩ := q
    unfold fset
    split
    · simp [fget, ih]
    · split
      · rename_i hk; subst hk
        split <;> simp [fget, hj.symm]
      · split
        · rfl
        · simp [fget, hj.symm]

end maps

/-! ## Updates of the state -/

@[simp] theorem modWarp_self (s : State) (g w : Nat) (f : Warp → Warp) : (s.modWarp g w f).warp? g w = (s.warp? g w).map f :=
  flook_fmod_self _ _ _
theorem modWarp_ne (s : State) {g w g' w' : Nat} (h : g' * 32 + w' ≠ g * 32 + w) (f : Warp → Warp) :
    (s.modWarp g w f).warp? g' w' = s.warp? g' w' := flook_fmod_ne h _ _
@[simp] theorem modWarp_mem (s : State) (g w : Nat) (f : Warp → Warp) : (s.modWarp g w f).mem = s.mem := rfl
@[simp] theorem modWarp_groups (s : State) (g w : Nat) (f : Warp → Warp) : (s.modWarp g w f).groups = s.groups := rfl
@[simp] theorem modWarp_crews (s : State) (g w : Nat) (f : Warp → Warp) : (s.modWarp g w f).crews = s.crews := rfl
@[simp] theorem modWarp_tasks (s : State) (g w : Nat) (f : Warp → Warp) : (s.modWarp g w f).tasks = s.tasks := rfl
@[simp] theorem modWarp_cores (s : State) (g w : Nat) (f : Warp → Warp) : (s.modWarp g w f).cores = s.cores := rfl
@[simp] theorem modWarp_core (s : State) (g w k : Nat) (f : Warp → Warp) : (s.modWarp g w f).core k = s.core k := rfl
@[simp] theorem modWarp_group (s : State) (g w k : Nat) (f : Warp → Warp) : (s.modWarp g w f).group? k = s.group? k := rfl
@[simp] theorem modWarp_places (s : State) (g w : Nat) (f : Warp → Warp) : (s.modWarp g w f).places = s.places := rfl
@[simp] theorem modWarp_cycle (s : State) (g w : Nat) (f : Warp → Warp) : (s.modWarp g w f).cycle = s.cycle := rfl
@[simp] theorem modWarp_fresh (s : State) (g w : Nat) (f : Warp → Warp) : (s.modWarp g w f).fresh = s.fresh := rfl
@[simp] theorem modWarp_cur (s : State) (g w : Nat) (f : Warp → Warp) : (s.modWarp g w f).cur = s.cur := rfl
@[simp] theorem modWarp_conf (s : State) (g w : Nat) (f : Warp → Warp) : (s.modWarp g w f).conf = s.conf := rfl

@[simp] theorem modRasts_mem (s : State) (g : Nat) (f : RastNote → RastNote) : (s.modRasts g f).mem = s.mem := rfl
@[simp] theorem modRasts_cycle (s : State) (g : Nat) (f : RastNote → RastNote) : (s.modRasts g f).cycle = s.cycle := rfl
@[simp] theorem modRasts_fresh (s : State) (g : Nat) (f : RastNote → RastNote) : (s.modRasts g f).fresh = s.fresh := rfl
@[simp] theorem modRasts_warps (s : State) (g : Nat) (f : RastNote → RastNote) : (s.modRasts g f).warps = s.warps := rfl
@[simp] theorem modRasts_groups (s : State) (g : Nat) (f : RastNote → RastNote) : (s.modRasts g f).groups = s.groups := rfl
@[simp] theorem noteWait_mem (s : State) (i : Instr) (c : Issuer) : (s.noteWait i c).mem = s.mem := rfl
@[simp] theorem noteWait_cycle (s : State) (i : Instr) (c : Issuer) : (s.noteWait i c).cycle = s.cycle := rfl
@[simp] theorem noteWait_fresh (s : State) (i : Instr) (c : Issuer) : (s.noteWait i c).fresh = s.fresh := rfl
@[simp] theorem noteWait_warps (s : State) (i : Instr) (c : Issuer) : (s.noteWait i c).warps = s.warps := rfl
@[simp] theorem noteWait_warp (s : State) (i : Instr) (c : Issuer) (g w : Nat) : (s.noteWait i c).warp? g w = s.warp? g w := rfl
@[simp] theorem noteWait_core (s : State) (i : Instr) (c : Issuer) (k : Nat) : (s.noteWait i c).core k = s.core k := rfl
@[simp] theorem noteWait_groups (s : State) (i : Instr) (c : Issuer) : (s.noteWait i c).groups = s.groups := rfl
@[simp] theorem noteArrival_mem (s : State) (c : Issuer) (a : Bool × Nat × Nat) : (s.noteArrival c a).mem = s.mem := rfl
@[simp] theorem notePass_mem (s : State) (g w : Nat) (m : Mask) (a : Bool × Nat × Nat) : (s.notePass g w m a).mem = s.mem := rfl

@[simp] theorem modSplit_mem (s : State) (r : SplitRef) (f : Split → Split) : (s.modSplit r f).mem = s.mem := rfl
@[simp] theorem modSplit_groups (s : State) (r : SplitRef) (f : Split → Split) : (s.modSplit r f).groups = s.groups := rfl
@[simp] theorem modSplit_crews (s : State) (r : SplitRef) (f : Split → Split) : (s.modSplit r f).crews = s.crews := rfl
@[simp] theorem modSplit_tasks (s : State) (r : SplitRef) (f : Split → Split) : (s.modSplit r f).tasks = s.tasks := rfl
@[simp] theorem modSplit_cores (s : State) (r : SplitRef) (f : Split → Split) : (s.modSplit r f).cores = s.cores := rfl
@[simp] theorem modSplit_core (s : State) (r : SplitRef) (k : Nat) (f : Split → Split) : (s.modSplit r f).core k = s.core k := rfl
@[simp] theorem modSplit_cycle (s : State) (r : SplitRef) (f : Split → Split) : (s.modSplit r f).cycle = s.cycle := rfl
@[simp] theorem modSplit_fresh (s : State) (r : SplitRef) (f : Split → Split) : (s.modSplit r f).fresh = s.fresh := rfl

@[simp] theorem setCore_self (s : State) (k : Nat) (v : Core) : (s.setCore k v).core k = v := by simp [State.setCore, State.core]
theorem setCore_ne (s : State) {j k : Nat} (h : j ≠ k) (v : Core) : (s.setCore k v).core j = s.core j := by
  simp [State.setCore, State.core, flook_fput_ne h]
@[simp] theorem setCore_mem (s : State) (k : Nat) (v : Core) : (s.setCore k v).mem = s.mem := rfl
@[simp] theorem setCore_fresh (s : State) (k : Nat) (v : Core) : (s.setCore k v).fresh = s.fresh := rfl
@[simp] theorem setCore_cycle (s : State) (k : Nat) (v : Core) : (s.setCore k v).cycle = s.cycle := rfl
@[simp] theorem setCore_warps (s : State) (k : Nat) (v : Core) : (s.setCore k v).warps = s.warps := rfl
@[simp] theorem setCore_groups (s : State) (k : Nat) (v : Core) : (s.setCore k v).groups = s.groups := rfl
@[simp] theorem setCore_warp (s : State) (k g w : Nat) (v : Core) : (s.setCore k v).warp? g w = s.warp? g w := rfl

@[simp] theorem modCore_mem (s : State) (k : Nat) (f : Core → Core) : (s.modCore k f).mem = s.mem := rfl
@[simp] theorem modCore_fresh (s : State) (k : Nat) (f : Core → Core) : (s.modCore k f).fresh = s.fresh := rfl
@[simp] theorem modCore_cycle (s : State) (k : Nat) (f : Core → Core) : (s.modCore k f).cycle = s.cycle := rfl
@[simp] theorem modCore_warps (s : State) (k : Nat) (f : Core → Core) : (s.modCore k f).warps = s.warps := rfl
@[simp] theorem modCore_warp (s : State) (k g w : Nat) (f : Core → Core) : (s.modCore k f).warp? g w = s.warp? g w := rfl
@[simp] theorem modCore_groups (s : State) (k : Nat) (f : Core → Core) : (s.modCore k f).groups = s.groups := rfl
@[simp] theorem modCore_self (s : State) (k : Nat) (f : Core → Core) : (s.modCore k f).core k = f (s.core k) := by simp [State.modCore]
theorem modCore_ne (s : State) {j k : Nat} (h : j ≠ k) (f : Core → Core) : (s.modCore k f).core j = s.core j := setCore_ne s h _

@[simp] theorem wr_mem (s : State) (a : Nat) (bs : List Byte) : (s.wr a bs).mem = wrBytes s.mem a bs := rfl
@[simp] theorem wr_warps (s : State) (a : Nat) (bs : List Byte) : (s.wr a bs).warps = s.warps := rfl
@[simp] theorem wr_groups (s : State) (a : Nat) (bs : List Byte) : (s.wr a bs).groups = s.groups := rfl
@[simp] theorem wr_cores (s : State) (a : Nat) (bs : List Byte) : (s.wr a bs).cores = s.cores := rfl

@[simp] theorem modGroup_mem (s : State) (g : Nat) (f : Group → Group) : (s.modGroup g f).mem = s.mem := rfl
@[simp] theorem modGroup_fresh (s : State) (g : Nat) (f : Group → Group) : (s.modGroup g f).fresh = s.fresh := rfl
@[simp] theorem modGroup_cycle (s : State) (g : Nat) (f : Group → Group) : (s.modGroup g f).cycle = s.cycle := rfl
@[simp] theorem modGroup_warps (s : State) (g : Nat) (f : Group → Group) : (s.modGroup g f).warps = s.warps := rfl
@[simp] theorem modGroup_self (s : State) (g : Nat) (f : Group → Group) : (s.modGroup g f).group? g = (s.group? g).map f :=
  flook_fmod_self _ _ _
@[simp] theorem modCrew_mem (s : State) (g : Nat) (f : Crew → Crew) : (s.modCrew g f).mem = s.mem := rfl
@[simp] theorem modCrew_fresh (s : State) (g : Nat) (f : Crew → Crew) : (s.modCrew g f).fresh = s.fresh := rfl
@[simp] theorem modCrew_cycle (s : State) (g : Nat) (f : Crew → Crew) : (s.modCrew g f).cycle = s.cycle := rfl
@[simp] theorem modCrew_warps (s : State) (g : Nat) (f : Crew → Crew) : (s.modCrew g f).warps = s.warps := rfl
@[simp] theorem modTask_mem (s : State) (g : Nat) (f : Task → Task) : (s.modTask g f).mem = s.mem := rfl
@[simp] theorem modTask_fresh (s : State) (g : Nat) (f : Task → Task) : (s.modTask g f).fresh = s.fresh := rfl
@[simp] theorem modTask_cycle (s : State) (g : Nat) (f : Task → Task) : (s.modTask g f).cycle = s.cycle := rfl
@[simp] theorem modTask_warps (s : State) (g : Nat) (f : Task → Task) : (s.modTask g f).warps = s.warps := rfl
@[simp] theorem setPlace_mem (s : State) (u : UnitRef) (v : Glazier) : (s.setPlace u v).mem = s.mem := rfl
@[simp] theorem setPlace_fresh (s : State) (u : UnitRef) (v : Glazier) : (s.setPlace u v).fresh = s.fresh := rfl
@[simp] theorem setPlace_cycle (s : State) (u : UnitRef) (v : Glazier) : (s.setPlace u v).cycle = s.cycle := rfl
@[simp] theorem setPlace_self (s : State) (u : UnitRef) (v : Glazier) : (s.setPlace u v).place u = v := by
  simp [State.setPlace, State.place]
@[simp] theorem modPlace_mem (s : State) (u : UnitRef) (f : Glazier → Glazier) : (s.modPlace u f).mem = s.mem := rfl
@[simp] theorem modPlace_fresh (s : State) (u : UnitRef) (f : Glazier → Glazier) : (s.modPlace u f).fresh = s.fresh := rfl
@[simp] theorem modPlace_cycle (s : State) (u : UnitRef) (f : Glazier → Glazier) : (s.modPlace u f).cycle = s.cycle := rfl
@[simp] theorem setPart_mem (s : State) (p : Nat) (v : Partition) : (s.setPart p v).mem = s.mem := rfl
@[simp] theorem setPart_fresh (s : State) (p : Nat) (v : Partition) : (s.setPart p v).fresh = s.fresh := rfl
@[simp] theorem setPart_cycle (s : State) (p : Nat) (v : Partition) : (s.setPart p v).cycle = s.cycle := rfl
@[simp] theorem setPart_self (s : State) (p : Nat) (v : Partition) : (s.setPart p v).part p = v := by simp [State.setPart, State.part]
@[simp] theorem setWarp_mem (s : State) (g w : Nat) (v : Warp) : (s.setWarp g w v).mem = s.mem := rfl
@[simp] theorem setWarp_fresh (s : State) (g w : Nat) (v : Warp) : (s.setWarp g w v).fresh = s.fresh := rfl
@[simp] theorem setWarp_cycle (s : State) (g w : Nat) (v : Warp) : (s.setWarp g w v).cycle = s.cycle := rfl
@[simp] theorem setGroup_mem (s : State) (g : Nat) (v : Group) : (s.setGroup g v).mem = s.mem := rfl
@[simp] theorem setGroup_fresh (s : State) (g : Nat) (v : Group) : (s.setGroup g v).fresh = s.fresh := rfl
@[simp] theorem setGroup_cycle (s : State) (g : Nat) (v : Group) : (s.setGroup g v).cycle = s.cycle := rfl

/-! ## The flags and the split table of a warp -/

theorem post_eq (w : Warp) (k : Option Nat) : w.post k = { w with flags := (w.post k).flags } := by cases k <;> rfl

theorem unpost_eq (w : Warp) (k : Option Nat) : w.unpost k = { w with flags := (w.unpost k).flags } := by cases k <;> rfl

/-- The splits of a warp whose table's entry has been changed. -/
theorem split?_modEntry (w : Warp) (e : Nat) (f : Split → Split) :
    ({ w with table := fmod e (Entry.modSplit f) w.table } : Warp).split? e = (w.split? e).map f := by
  simp only [Warp.split?, flook_fmod_self]
  cases flook e w.table with
  | none => rfl
  | some v => cases v <;> rfl

end Sys2Proof.Machine
end

