-- ==== Sys2Proof/Laws/Issue.lean ====
section
/-! SUPPORT. What issuing does: an instruction that may issue has its effect in the state where it has issued, and a register
instruction does nothing beside its outstanding writes. -/

namespace Sys2Proof.Machine

variable {i : Instr} {c : Issuer} {s : State}

/-! ## The issuer -/

theorem issuerOf_some {r : SplitRef} (h : s.issuerOf r = some c) :
    c.ref = r ∧ s.group? r.gid = some c.grp ∧ s.warp? r.gid r.wid = some c.warp ∧ s.taskOf c.grp = some c.task ∧
      c.warp.split? r.ent = some c.split := by
  unfold State.issuerOf at h
  split at h
  · rename_i g w hg hw
    split at h
    · rename_i t x ht hx
      cases h
      exact ⟨rfl, hg, hw, ht, hx⟩
    · cases h
  · cases h

theorem issuer_some (h : s.issuer = some c) :
    s.cur = .split c.ref ∧ s.group? c.ref.gid = some c.grp ∧ s.warp? c.ref.gid c.ref.wid = some c.warp ∧
      s.taskOf c.grp = some c.task ∧ c.warp.split? c.ref.ent = some c.split := by
  unfold State.issuer at h
  split at h
  · rename_i r hr
    obtain ⟨rfl, h⟩ := issuerOf_some h
    exact ⟨hr, h⟩
  · cases h

/-! ## Issue -/

theorem not_mustAgree {b : Bool} (h : c.task.redundant = false ∨ (b = false ∧ c.grp.agreed = false)) :
    mustAgree b c = false := by
  rcases h with h | ⟨h, -⟩ <;> simp [mustAgree, h]

theorem not_agreedOn {b : Bool} (h : c.task.redundant = false ∨ (b = false ∧ c.grp.agreed = false)) : c.agreedOn = false := by
  rcases h with h | ⟨-, h⟩ <;> simp [Issuer.agreedOn, h]

theorem resumePair_id {b : Bool} (h : c.task.redundant = false ∨ (b = false ∧ c.grp.agreed = false)) (p : Bool) (t : State) :
    State.resumePair s t i p c = t := by
  simp [State.resumePair, not_agreedOn h]

theorem raiseBoth_id {b : Bool} (h : c.task.redundant = false ∨ (b = false ∧ c.grp.agreed = false)) (t : TrapInfo) :
    raiseBoth s c t = raise s c.ref t := by
  simp [raiseBoth, not_agreedOn h]

/-- An instruction that may issue has its effect in the state where it has issued; a precise trap of the effect is raised in the
state before. -/
theorem issueAt_effect {point : Issuer → State → Bool} {ck : Issuer → Ck} {eff : Issuer → State → Except TrapInfo State}
    (h : MayIssue i c s) (hp : point c s = pointOf i c s) (hk : ck c = checks i c) :
    issueAt i point ck eff s = match eff c (issued i c s) with
      | .ok t => .next t
      | .error e => .next (raise s c.ref e) := by
  have hf : c.task.redundant = false ∨ (point c s = false ∧ c.grp.agreed = false) := by rw [hp]; exact h.free
  simp only [issueAt, h.issuer, h.can, if_true, hk, h.legal, not_mustAgree hf, issued]
  simp only [Bool.false_eq_true, if_false]
  cases eff c (State.tagWrites (advance i c s) i c) with
  | ok t => simp only [resumePair_id hf]
  | error e => simp only [raiseBoth_id hf]

theorem issue_effect {ck : Issuer → Ck} {eff : Issuer → State → Except TrapInfo State}
    (h : MayIssue i c s) (hp : commitPoint i = pointOf i c s) (hk : ck c = checks i c) :
    issue i ck eff s = match eff c (issued i c s) with
      | .ok t => .next t
      | .error e => .next (raise s c.ref e) := issueAt_effect h hp hk

/-- An instruction that may not issue yet waits. -/
theorem issueAt_waits {point : Issuer → State → Bool} {ck : Issuer → Ck} {eff : Issuer → State → Except TrapInfo State}
    (h : s.issuer = some c) (hc : canIssue i c s = false) : issueAt i point ck eff s = .next s := by
  simp [issueAt, h, hc]

/-- An instruction whose encoding is at fault traps before any effect. -/
theorem issueAt_traps {point : Issuer → State → Bool} {ck : Issuer → Ck} {eff : Issuer → State → Except TrapInfo State} {e : TrapInfo}
    (h : s.issuer = some c) (hc : canIssue i c s = true) (ht : preTrap i (ck c) c = some e) :
    issueAt i point ck eff s = .next (raise s c.ref e) := by
  simp [issueAt, h, hc, ht]

/-! ## Legal encodings -/

theorem lowest_none {l : Ck} : lowest l = none ↔ ∀ p ∈ l, p.1 = false := by
  induction l with
  | nil => simp [lowest]
  | cons p t ih =>
    obtain ⟨b, r⟩ := p
    simp only [lowest, List.mem_cons, forall_eq_or_imp]
    rw [← ih]
    cases ht : lowest t with
    | none => cases b <;> simp
    | some q => simp; split <;> simp

/-- No fault of a legal encoding is present. -/
theorem MayIssue.legal_all (h : MayIssue i c s) : ∀ p ∈ ckCommon i c ++ checks i c, p.1 = false := by
  have h1 := h.legal
  unfold preTrap at h1
  split at h1
  · cases h1
  · split at h1
    · cases h1
    · rename_i h2; exact lowest_none.1 h2

theorem MayIssue.check (h : MayIssue i c s) {b : Bool} {r : Nat} (hm : (b, r) ∈ checks i c) : b = false :=
  h.legal_all (b, r) (List.mem_append_right _ hm)

/-! ## The state in which an instruction has issued -/

@[simp] theorem fall_pc (x : Split) : x.fall.pc = nextPc x.pc := by
  unfold Split.fall; split <;> simp [Split.goto]

theorem fall_eq (x : Split) :
    x.fall = { x with pc := nextPc x.pc, line := x.fall.line, text := x.fall.text, via := x.fall.via, second := x.fall.second } := by
  unfold Split.fall; split <;> simp [Split.goto]

theorem advance_split (x : Split) (p : Profile) (lanes cycle : Nat) (b : Bool) :
    x.advance p lanes cycle b =
      { x with pc := nextPc x.pc, dix := x.dix + 1, line := x.fall.line, text := x.fall.text, via := x.fall.via, second := b,
               run := (x.advance p lanes cycle b).run, lastIssue := cycle + 16,
               nextIssue := (x.advance p lanes cycle b).nextIssue, noWatch := false, prio := false } := by
  unfold Split.advance
  simp only []
  rw [fall_eq]

/-- What issuing leaves of an instruction that does not end its run. -/
theorem issued_warp (hi : s.issuer = some c) (he : (c.profile i).head.ends = false) :
    ∃ tags, (issued i c s).warp? c.ref.gid c.ref.wid = some
      { c.warp.post (postFlag (c.profile i).head.post) with
        issued := c.warp.issued + 1, tags := tags,
        table := fmod c.ref.ent (Entry.modSplit fun x => x.advance (c.profile i) c.warp.width s.cycle c.startsPair) c.warp.table } := by
  obtain ⟨-, -, hw, -, -⟩ := issuer_some hi
  have ht : ∀ o, (c.warp.post o).table = c.warp.table := by intro o; cases o <;> rfl
  have hs : (advance i c s).warp? c.ref.gid c.ref.wid = some
      { c.warp.post (postFlag (c.profile i).head.post) with
        issued := c.warp.issued + 1,
        table := fmod c.ref.ent (Entry.modSplit fun x => x.advance (c.profile i) c.warp.width s.cycle c.startsPair) c.warp.table } := by
    simp only [advance, he, Bool.false_eq_true, if_false]
    split <;> simp [State.modSplit, hw, ht]
  unfold issued State.tagWrites
  split
  · rw [modWarp_self, hs]
    simp only [Option.map_some]
    split
    · exact ⟨_, rfl⟩
    · exact ⟨_, rfl⟩
  · exact ⟨_, hs⟩

theorem issued_others (he : (c.profile i).head.ends = false) {gid wid : Nat}
    (h : gid * 32 + wid ≠ c.ref.gid * 32 + c.ref.wid) : (issued i c s).warp? gid wid = s.warp? gid wid := by
  have h1 : (advance i c s).warp? gid wid = s.warp? gid wid := by
    simp only [advance, he, Bool.false_eq_true, if_false]
    split <;> simp [State.modSplit, modWarp_ne _ h]
  unfold issued State.tagWrites
  split
  · rw [modWarp_ne _ h, h1]
  · exact h1

theorem issued_core (he : (c.profile i).head.ends = false) (k : Nat) :
    (issued i c s).core k = { s.core k with busy := ((issued i c s).core k).busy } := by
  have h1 : (advance i c s).core k = { s.core k with busy := ((advance i c s).core k).busy } := by
    simp only [advance, he, Bool.false_eq_true, if_false]
    split
    · by_cases hk : k = c.grp.core
      · subst hk; simp
      · simp [modCore_ne _ hk]
    · simp
  unfold issued State.tagWrites
  split <;> exact h1

theorem issued_rest (he : (c.profile i).head.ends = false) :
    issued i c s = { s with warps := (issued i c s).warps, cores := (issued i c s).cores, lastRast := (s.noteWait i c).lastRast } := by
  have h1 : advance i c s = { s with warps := (advance i c s).warps, cores := (advance i c s).cores, lastRast := (s.noteWait i c).lastRast } := by
    simp only [advance, he, Bool.false_eq_true, if_false]
    split <;> simp [State.modSplit, State.modWarp, State.modCore, State.setCore, State.noteWait, State.modRasts]
  unfold issued State.tagWrites
  split
  · rw [h1]; rfl
  · exact h1

@[simp] theorem issued_mem : (issued i c s).mem = s.mem := by
  have h : (advance i c s).mem = s.mem := by
    unfold advance State.unbind
    simp only []
    repeat' split
    all_goals simp
  unfold issued State.tagWrites
  split <;> simp [h]

@[simp] theorem issued_cycle : (issued i c s).cycle = s.cycle := by
  have h : (advance i c s).cycle = s.cycle := by
    unfold advance State.unbind
    simp only []
    repeat' split
    all_goals simp
  unfold issued State.tagWrites
  split <;> simp [h]

@[simp] theorem issued_fresh : (issued i c s).fresh = s.fresh := by
  have h : (advance i c s).fresh = s.fresh := by
    unfold advance State.unbind
    simp only []
    repeat' split
    all_goals simp
  unfold issued State.tagWrites
  split <;> simp [h]

/-! ## Outstanding operations -/

/-- The operation that addPend adds. -/
def pendOf (s : State) (c : Issuer) (i : Instr) (q : Pend) : Pend :=
  { q with id := s.fresh, ent := c.ref.ent, lanes := c.split.held, kin := c.warp.kinOf c.split.held, flag := postFlag (c.profile i).head.post,
           sync := isSyncOp (c.profile i).head.op (memSpace i) }

theorem addPend_eq (t : State) (q : Pend) :
    t.addPend c i q = { t with fresh := t.fresh + 1 }.modWarp c.ref.gid c.ref.wid fun w => { w with pend := w.pend ++ [pendOf t c i q] } := rfl

/-- A register instruction leaves its operation, its latch entry and nothing else. -/
theorem leaves_addPend (hi : s.issuer = some c) (he : (c.profile i).head.ends = false) (q : Pend) (f : Split → Split)
    (hf : ∀ x, f x = { x with run := (f x).run }) :
    Leaves i c s (((issued i c s).addPend c i q).modSplit c.ref f) (pendOf s c i q) := by
  obtain ⟨-, -, hw, -, hx⟩ := issuer_some hi
  obtain ⟨tags, ht⟩ := issued_warp hi he
  have hW : (((issued i c s).addPend c i q).modSplit c.ref f).warp? c.ref.gid c.ref.wid = some
      { c.warp.post (postFlag (c.profile i).head.post) with
        issued := c.warp.issued + 1, tags := tags, pend := c.warp.pend ++ [pendOf s c i q],
        table := fmod c.ref.ent (Entry.modSplit f)
          (fmod c.ref.ent (Entry.modSplit fun x => x.advance (c.profile i) c.warp.width s.cycle c.startsPair) c.warp.table) } := by
    have hp : ∀ o, (c.warp.post o).pend = c.warp.pend := by intro o; cases o <;> rfl
    rw [addPend_eq]
    unfold State.modSplit
    rw [modWarp_self, modWarp_self]
    show Option.map _ (Option.map _ ((issued i c s).warp? c.ref.gid c.ref.wid)) = _
    rw [ht]
    simp [pendOf, hp]
  refine ⟨?_, ?_, ?_, ⟨_, hW, ?_, ?_, ?_, ?_⟩, ⟨rfl, rfl, rfl, rfl⟩⟩
  · rw [addPend_eq, issued_rest he]
    simp [State.modSplit, State.modWarp]
  · intro k
    exact issued_core he k
  · intro gid wid h
    rw [addPend_eq]
    unfold State.modSplit
    rw [modWarp_ne _ h, modWarp_ne _ h]
    exact issued_others he h
  · rw [post_eq]
  · intro k
    cases hp : postFlag (c.profile i).head.post with
    | none => simp [Warp.post, Warp.flag]
    | some j =>
      by_cases hk : j = k
      · subst hk; simp [Warp.post, Warp.flag, fget_fset_pos]
      · simp [Warp.post, Warp.flag, hk, fget_fset_ne (Ne.symm hk)]
  · intro e h
    simp [flook_fmod_ne h]
  · have h1 : ∀ (w : Warp) (x : Split), w.split? c.ref.ent = some x → flook c.ref.ent w.table = some (.split x) := by
      intro w x h
      unfold Warp.split? at h
      split at h
      · cases h; assumption
      · cases h
    have h2 := h1 _ _ hx
    refine ⟨f (c.split.advance (c.profile i) c.warp.width s.cycle c.startsPair), ?_, ?_⟩
    · simp [Warp.split?, h2, Entry.modSplit]
    · rw [hf, advance_split]

/-- A register instruction's result leaves its operation and nothing else. -/
theorem leaves_applyOut (hi : s.issuer = some c) (he : (c.profile i).head.ends = false) (o : VOut) :
    Leaves i c s (applyOut i c o (issued i c s))
      (pendOf s c i { id := 0, kind := outKind (c.profile i).head.op o, ent := 0, lanes := 0, due := s.cycle + o.delay, writes := o.writes c.env, sticky := o.sticky }) := by
  unfold applyOut
  simp only [issued_cycle]
  cases o.latch with
  | some l => exact leaves_addPend hi he _ _ fun x => rfl
  | none =>
    have h := fun q => leaves_addPend (i := i) hi he q id (fun x => rfl)
    have hid : ∀ (t : State) (r : SplitRef), t.modSplit r id = t := by
      intro t r
      have hE : Entry.modSplit id = id := by funext e; cases e <;> rfl
      have hm : ∀ {β : Type} (k : Nat) (m : FMap β), fmod k id m = m := by
        intro β k m
        simp [fmod]
      have hW : (fun w : Warp => { w with table := fmod r.ent (Entry.modSplit id) w.table }) = id := by
        funext w; rw [hE, hm]; rfl
      unfold State.modSplit State.modWarp
      rw [hW, hm]
    simp only [hid] at h
    exact h _

end Sys2Proof.Machine
end

