-- ==== Sys2Proof/Laws/Results.lean ====
section
/-! SUPPORT. Results in registers: from the value that an instruction computes for each lane to what it has done when it has
issued, and the elements of packed values. -/

namespace Sys2Proof.Machine

variable {i : Instr} {c : Issuer} {s : State}

/-! ## The issuing split -/

theorem split?_some {w : Warp} {e : Nat} {x : Split} : w.split? e = some x ↔ flook e w.table = some (.split x) := by
  unfold Warp.split?
  split
  · rename_i y h; simp [h]
  · rename_i h
    simp only [reduceCtorEq, false_iff]
    intro hc; exact h _ hc

@[simp] theorem splitAt_modSplit (s : State) (r : SplitRef) (f : Split → Split) : (s.modSplit r f).splitAt r = (s.splitAt r).map f := by
  unfold State.splitAt State.modSplit
  rw [modWarp_self]
  cases s.warp? r.gid r.wid with
  | none => rfl
  | some w => exact split?_modEntry w r.ent f

@[simp] theorem splitAt_addPend (t : State) (q : Pend) : (t.addPend c i q).splitAt c.ref = t.splitAt c.ref := by
  have h : (t.addPend c i q).warp? c.ref.gid c.ref.wid =
      (t.warp? c.ref.gid c.ref.wid).map fun w => { w with pend := w.pend ++ [pendOf t c i q] } := by
    rw [addPend_eq, modWarp_self]; rfl
  unfold State.splitAt
  rw [h]
  cases t.warp? c.ref.gid c.ref.wid <;> rfl

theorem splitAt_issued (hi : s.issuer = some c) (he : (c.profile i).head.ends = false) :
    (issued i c s).splitAt c.ref = some (c.split.advance (c.profile i) c.warp.width s.cycle c.startsPair) := by
  obtain ⟨-, -, hw, -, hx⟩ := issuer_some hi
  obtain ⟨tags, ht⟩ := issued_warp hi he
  unfold State.splitAt
  rw [ht]
  have h2 := split?_some.1 hx
  simp [Warp.split?, h2, Entry.modSplit]

theorem advance_latches (x : Split) (p : Profile) (lanes cycle : Nat) (b : Bool) (h : p.head.ends = false) :
    (x.advance p lanes cycle b).run.latches = x.run.latches := by simp [Split.advance, h]

/-- The run after a result's latch entry. -/
theorem splitAt_applyOut (hi : s.issuer = some c) (he : (c.profile i).head.ends = false) (o : VOut) :
    ∃ x, (applyOut i c o (issued i c s)).splitAt c.ref = some x ∧
      x.run.latches = (match o.latch with
        | some (v, vs) => (⟨v, vs, s.cycle + 4⟩ :: c.split.run.latches).take 8
        | none => c.split.run.latches) := by
  unfold applyOut
  simp only [issued_cycle]
  cases ho : o.latch with
  | some l =>
    obtain ⟨v, vs⟩ := l
    simp only [splitAt_modSplit, splitAt_addPend, splitAt_issued hi he, Option.map_some]
    exact ⟨_, rfl, by simp [advance_latches _ _ _ _ _ he]⟩
  | none =>
    simp only [splitAt_addPend, splitAt_issued hi he]
    exact ⟨_, rfl, advance_latches _ _ _ _ _ he⟩

/-! ## From an output to the result -/

/-- The output that a result of one or two registers stands for. -/
structure Delivers (c : Issuer) (o : VOut) (dst : BitVec 9) (sca wide : Bool) (mask : Mask) (lat : Nat) (g : Nat → Nat × Word) : Prop where
  writes : o.writes c.env = if sca = false ∧ mask = 0 then [] else regWrites c dst sca wide mask (fun l => (g l).1)
  sticky : o.sticky = stickyOf c sca mask (fun l => (g l).2)
  delay  : o.delay = latIn sca mask lat
  one    : lat = 6 → o.scas.length ≤ 1
  latch  : o.latch = if lat = 6 then
      some (!sca, if sca then [BitVec.ofNat 32 (g 0).1] else laneWords c mask (fun l => (g l).1)) else none

theorem gives_applyOut {o : VOut} {dst : BitVec 9} {sca wide : Bool} {mask : Mask} {lat : Nat} {g : Nat → Nat × Word}
    (h : MayIssue i c s) (he : (c.profile i).head.ends = false) (hf : lat = 6 → fixedBlock (c.profile i).head.op = true)
    (hx : exec i s = .next (applyOut i c o (issued i c s))) (d : Delivers c o dst sca wide mask lat g) :
    Gives i c s dst sca wide mask lat g := by
  obtain ⟨x, hx1, hx2⟩ := splitAt_applyOut h.issuer he o
  have h6 : lat = 6 → latIn sca mask lat = 6 := fun hl => by simp [latIn, hl]
  refine ⟨_, _, x, hx, leaves_applyOut h.issuer he o, hx1, ?_, ?_, ?_, ?_, ?_, ?_, ?_⟩
  · show s.cycle + o.delay = _
    rw [d.delay]
  · show outKind _ o = _ ∨ outKind _ o = _
    unfold outKind; split <;> simp
  · intro hl
    show outKind _ o = _
    simp [outKind, d.delay, h6 hl, hf hl, d.one hl]
  · intro hl
    show outKind _ o = _
    simp [outKind, d.delay, hl]
  · exact d.writes
  · exact d.sticky
  · rw [hx2, d.latch]
    by_cases hl : lat = 6 <;> simp [hl]

theorem givesWrites_applyOut {o : VOut} (h : MayIssue i c s) (he : (c.profile i).head.ends = false)
    (hx : exec i s = .next (applyOut i c o (issued i c s))) : GivesWrites i c s o.delay (o.writes c.env) o.sticky o.latch := by
  obtain ⟨x, hx1, hx2⟩ := splitAt_applyOut h.issuer he o
  exact ⟨_, _, x, hx, leaves_applyOut h.issuer he o, hx1, rfl, rfl, rfl, hx2⟩

/-! ## Lanes -/

theorem getLsbD_le63 {m : Mask} {l : Nat} (h : m.getLsbD l = true) : l < 64 := by
  by_contra hc
  rw [BitVec.getLsbD_of_ge _ _ (by omega)] at h
  cases h

theorem laneVals_words (lanes : Nat) (mask : Mask) (g : Nat → Nat × Word) :
    toWords (laneVals lanes mask g).1 = (List.range lanes).map fun l => if mask.getLsbD l then BitVec.ofNat 32 (g l).1 else 0 := by
  simp only [laneVals, toWords, List.map_map]
  apply List.map_congr_left
  intro l _
  simp only [Function.comp]
  split <;> rfl

theorem laneVals_hi (lanes : Nat) (mask : Mask) (g : Nat → Nat × Word) :
    hiWords (laneVals lanes mask g).1 =
      (List.range lanes).map fun l => if mask.getLsbD l then BitVec.ofNat 32 ((g l).1 / 2 ^ 32) else 0 := by
  simp only [laneVals, hiWords, List.map_map]
  apply List.map_congr_left
  intro l _
  simp only [Function.comp]
  split <;> simp

theorem laneVals_sticky (lanes : Nat) (mask : Mask) (g : Nat → Nat × Word) :
    (laneVals lanes mask g).2 = (List.range lanes).foldl (fun a l => if mask.getLsbD l then a ||| (g l).2 else a) 0 := by
  simp only [laneVals]
  rw [List.foldl_map]
  congr 1
  funext a l
  split <;> simp

theorem longer_ne (n k : Nat) (h : 6 < k) : longer n k ≠ 6 := by unfold longer; split <;> omega

theorem latOf_eq (c : Issuer) (t : Nat) : latOf c t = if is64 t then longer c.warp.width 8 else 6 := by
  unfold latOf longer; rfl

theorem latOf_six (c : Issuer) (t : Nat) : latOf c t = 6 ↔ is64 t = false := by
  unfold latOf
  cases is64 t <;> simp
  split <;> omega

/-- A vector output whose lanes are none is a wait of six cycles (R62). -/
theorem delivers_inLanes {o : VOut} {dst : BitVec 9} {wide : Bool} {m : Mask} {lat : Nat} {g : Nat → Nat × Word}
    (h1 : o.writes c.env = regWrites c dst false wide m (fun l => (g l).1)) (h2 : o.sticky = stickyOf c false m (fun l => (g l).2))
    (h3 : o.delay = lat) (h4 : lat = 6 → o.scas.length ≤ 1)
    (h5 : o.latch = if lat = 6 then some (true, laneWords c m (fun l => (g l).1)) else none) :
    Delivers c (VOut.inLanes m o) dst false wide m lat g := by
  by_cases hm : m = 0
  · constructor <;> simp [VOut.inLanes, hm, VOut.writes, latIn] <;> simp_all
  · constructor <;> simp [VOut.inLanes, latIn] <;> simp_all

/-- Format V's output (R63, R64). -/
theorem vResult_delivers (f : VFmt) (g : Nat → Nat × Word) :
    Delivers c (vResult c.env f none g) f.dst f.isScalar (is64 f.t) (c.env.active f.guard) (latOf c f.t) g := by
  have hl : c.env.lanes = c.warp.width := rfl
  cases hs : f.isScalar with
  | true =>
    constructor
    · simp only [vResult, hs, if_true, VOut.writes, regWrites]
      cases is64 f.t <;> cases dNowb f.dst <;> simp
    · simp [vResult, hs, stickyOf]
    · simp only [vResult, hs, if_true, latOf_eq, latIn]; rfl
    · intro h6; have h7 := (latOf_six c f.t).1 h6
      simp only [vResult, hs, if_true, h7]; cases dNowb f.dst <;> simp
    · by_cases hw : is64 f.t
      · simp [vResult, hs, hw, latOf_eq, longer_ne]
      · simp [vResult, hs, hw, latOf_eq]
  | false =>
    simp only [vResult, hs, Bool.false_eq_true, if_false]
    apply delivers_inLanes
    · simp only [VOut.writes, regWrites, laneVals_words, laneVals_hi, laneWords, hl]
      cases is64 f.t <;> cases dNowb f.dst <;> simp
    · simp [stickyOf, laneVals_sticky, hl]
    · simp only [latOf_eq]; rfl
    · intro _; simp
    · by_cases hw : is64 f.t
      · simp [hw, latOf_eq, longer_ne]
      · simp [hw, latOf_eq, laneVals_words, laneWords, hl]

/-- Format S's output (R73). -/
theorem sResult_delivers (f : SFmt) (one : Bool) (g : Nat → Nat × Word) :
    Delivers c (sResult c.env f one g) f.dst (!f.isVec) (is64 f.t && !one) (c.split.exm &&& lowMask c.warp.width) (latOf c f.t)
      fun l => g (c.env.sA f l) := by
  have hl : c.env.lanes = c.warp.width := rfl
  have hm : c.env.exm = c.split.exm := rfl
  cases hs : f.isVec with
  | false =>
    constructor
    · simp only [sResult, hs, VOut.writes, regWrites]
      cases is64 f.t <;> cases one <;> cases dNowb f.dst <;> simp
    · simp [sResult, hs, stickyOf]
    · simp only [sResult, hs, latOf_eq, latIn]; rfl
    · intro h6; have h7 := (latOf_six c f.t).1 h6
      simp only [sResult, hs, h7]; cases dNowb f.dst <;> simp
    · by_cases hw : is64 f.t
      · simp [sResult, hs, hw, latOf_eq, longer_ne]
      · simp [sResult, hs, hw, latOf_eq]
  | true =>
    simp only [sResult, hs, if_true, Bool.not_true]
    apply delivers_inLanes
    · simp only [VOut.writes, regWrites, laneVals_words, laneVals_hi, laneWords, hl, hm]
      cases is64 f.t <;> cases one <;> cases dNowb f.dst <;> simp
    · simp [stickyOf, laneVals_sticky, hl, hm]
    · simp only [latOf_eq]; rfl
    · intro _; simp
    · by_cases hw : is64 f.t
      · simp [hw, latOf_eq, longer_ne]
      · simp [hw, latOf_eq, laneVals_words, laneWords, hl, hm]

/-! ## Elements of packed values -/

/-- Digits to the base b joined, lowest first. -/
def digits (b : Nat) (v : Nat → Nat) : Nat → Nat
  | 0 => 0
  | n + 1 => digits b v n + v n % b * b ^ n

theorem digits_lt {b : Nat} (hb : 0 < b) (v : Nat → Nat) (n : Nat) : digits b v n < b ^ n := by
  induction n with
  | zero => simp [digits]
  | succ n ih =>
    have h1 : v n % b < b := Nat.mod_lt _ hb
    have h2 : v n % b * b ^ n ≤ (b - 1) * b ^ n := Nat.mul_le_mul_right _ (by omega)
    have h3 : (b - 1) * b ^ n + b ^ n = b ^ (n + 1) := by
      rw [← Nat.succ_mul, Nat.succ_eq_add_one, Nat.sub_add_cancel hb, Nat.pow_succ, Nat.mul_comm]
    simp only [digits]; omega

theorem digits_get {b : Nat} (hb : 0 < b) (v : Nat → Nat) (n k : Nat) (h : k < n) : digits b v n / b ^ k % b = v k % b := by
  induction n with
  | zero => omega
  | succ n ih =>
    simp only [digits]
    by_cases hk : k = n
    · subst hk
      rw [Nat.add_mul_div_right _ _ (Nat.pow_pos hb), Nat.div_eq_of_lt (digits_lt hb v k)]
      simp
    · have hn : b ^ n = b ^ k * (b * b ^ (n - k - 1)) := by
        rw [← Nat.pow_succ', ← Nat.pow_add]; congr 1; omega
      rw [hn, show v n % b * (b ^ k * (b * b ^ (n - k - 1))) = (v n % b * b ^ (n - k - 1) * b) * b ^ k by ring,
        Nat.add_mul_div_right _ _ (Nat.pow_pos hb), Nat.add_mul_mod_self_right]
      exact ih (by omega)

theorem foldl_digits (b : Nat) (v : Nat → Nat) (n : Nat) :
    (List.range n).foldl (fun a k => a + v k % b * b ^ k) 0 = digits b v n := by
  induction n with
  | zero => rfl
  | succ n ih => rw [List.range_succ, List.foldl_append, ih]; rfl

/-- A fold that joins elements and ORs STICKY bits, as two folds. -/
theorem foldl_pair {α : Type} (l : List α) (p : α → Nat) (q : α → Word) (z : Nat × Word) :
    l.foldl (fun (acc : Nat × Word) k => (acc.1 + p k, acc.2 ||| q k)) z =
      (l.foldl (fun a k => a + p k) z.1, l.foldl (fun a k => a ||| q k) z.2) := by
  induction l generalizing z with
  | nil => rfl
  | cons x xs ih => simp only [List.foldl_cons]; rw [ih]

theorem foldl_or_bit {α : Type} (l : List α) (q : α → Word) (z : Word) (b : Nat) :
    (l.foldl (fun a k => a ||| q k) z).getLsbD b = true ↔ z.getLsbD b = true ∨ ∃ k ∈ l, (q k).getLsbD b = true := by
  induction l generalizing z with
  | nil => simp
  | cons x xs ih => simp only [List.foldl_cons, ih]; simp [or_assoc]

theorem foldl_or_zero {α : Type} (l : List α) (q : α → Word) (b : Nat) :
    (l.foldl (fun a k => a ||| q k) 0).getLsbD b = true ↔ ∃ k ∈ l, (q k).getLsbD b = true := by simp [foldl_or_bit]

theorem elemPut_eq {t : Nat} (h : t ≠ 11) (k v : Nat) : elemPut t k v = v % 2 ^ typeBits t * (2 ^ typeBits t) ^ k := by
  simp [elemPut, h, Nat.pow_mul]

theorem elemGet_eq {t : Nat} (h : t ≠ 11) (x k : Nat) : elemGet t x k = x / (2 ^ typeBits t) ^ k % 2 ^ typeBits t := by
  simp [elemGet, h, Nat.pow_mul]

/-- The elements of a value joined from elements. -/
theorem elemGet_join (t : Nat) (v : Nat → Nat) (k : Nat) (h : k < packOf t) :
    elemGet t ((List.range (packOf t)).foldl (fun a k => a + elemPut t k (v k)) 0) k = v k % 2 ^ elemBits t := by
  by_cases ht : t = 11
  · subst ht
    have hp : packOf 11 = 1 := rfl
    rw [hp] at h ⊢
    obtain rfl : k = 0 := by omega
    simp [elemGet, elemPut, elemBits, List.range_succ]
  · simp only [elemPut_eq ht, foldl_digits, elemGet_eq ht, elemBits, ht, if_false]
    exact digits_get (Nat.two_pow_pos _) v _ _ h

theorem elemGet_small (t x k : Nat) : elemGet t x k % 2 ^ elemBits t = elemGet t x k := by
  by_cases ht : t = 11
  · subst ht; simp [elemGet, elemBits]
  · rw [elemGet_eq ht]; simp [elemBits, ht]

theorem elemwise_eq (t count : Nat) (op : ElemOp) (a b d : Nat) :
    elemwise t count op a b d =
      ((List.range (packOf t)).foldl (fun x k => x + elemPut t k
          (if k < usedOf t count then (op k (elemGet t a k) (elemGet t b k) (elemGet t d k)).1 else elemGet t a k)) 0,
       (List.range (packOf t)).foldl (fun x k => x |||
          (if k < usedOf t count then (op k (elemGet t a k) (elemGet t b k) (elemGet t d k)).2 else 0)) 0) := by
  unfold elemwise
  refine Eq.trans ?_ (foldl_pair (List.range (packOf t))
    (fun k => elemPut t k (if k < usedOf t count then (op k (elemGet t a k) (elemGet t b k) (elemGet t d k)).1 else elemGet t a k))
    (fun k => if k < usedOf t count then (op k (elemGet t a k) (elemGet t b k) (elemGet t d k)).2 else 0) (0, 0))
  refine congrArg (fun h => List.foldl h (0, 0) (List.range (packOf t))) (funext fun acc => funext fun k => ?_)
  by_cases hk : k < usedOf t count <;> simp [hk]

theorem elemwise_get (t count : Nat) (op : ElemOp) (a b d k : Nat) (h : k < packOf t) :
    elemGet t (elemwise t count op a b d).1 k = if k < usedOf t count
      then (op k (elemGet t a k) (elemGet t b k) (elemGet t d k)).1 % 2 ^ elemBits t else elemGet t a k := by
  rw [elemwise_eq, elemGet_join t _ k h]
  split
  · rfl
  · exact elemGet_small t a k

theorem elemwise_low (count : Nat) (op : ElemOp) (a b d : Nat) : (elemwise 11 count op a b d).1 % 256 = 0 := by
  have hp : packOf 11 = 1 := rfl
  rw [elemwise_eq, hp]
  simp [elemPut, List.range_succ]

theorem elemwise_sticky (t count : Nat) (op : ElemOp) (a b d j : Nat) :
    (elemwise t count op a b d).2.getLsbD j = true ↔
      ∃ k < packOf t, k < usedOf t count ∧ (op k (elemGet t a k) (elemGet t b k) (elemGet t d k)).2.getLsbD j = true := by
  rw [elemwise_eq]
  simp only [foldl_or_zero, List.mem_range]
  constructor
  · rintro ⟨k, h1, h2⟩
    by_cases hk : k < usedOf t count
    · exact ⟨k, h1, hk, by simpa [hk] using h2⟩
    · simp [hk] at h2
  · rintro ⟨k, h1, h2, h3⟩
    exact ⟨k, h1, by simpa [h2] using h3⟩

/-! ## The rows of formats S and V -/

theorem runS_gives {f : SFmt} {o : SOpts} {g : Issuer → Nat → Nat × Word} (h : MayIssue i c s) (hx : exec i s = runS i f o g s)
    (hk : ckS c.env f o = checks i c) (hp : commitPoint i = pointOf i c s) (he : (c.profile i).head.ends = false)
    (hf : fixedBlock (c.profile i).head.op = true) : GivesS i f o.one c s (g c) := by
  refine gives_applyOut h he (fun _ => hf) ?_ (sResult_delivers f o.one (g c))
  rw [hx, runS, issue_effect h hp hk]

theorem runV_gives {f : VFmt} {o : VOp} {g : Nat → Nat × Word} (h : MayIssue i c s) (hx : exec i s = runV i f o s)
    (hk : ckV c.env f o.opts = checks i c) (hp : commitPoint i = pointOf i c s) (he : (c.profile i).head.ends = false)
    (hf : fixedBlock (c.profile i).head.op = true) (hg : o.eval c.env = vResult c.env f none g) : GivesV i f c s g := by
  refine gives_applyOut h he (fun _ => hf) (o := o.eval c.env) ?_ (hg ▸ vResult_delivers f g)
  rw [hx, runV, issue_effect h hp hk]

/-- An elementwise result, element by element. -/
theorem givesElems {f : VFmt} {lat : Nat} {op : Nat → ElemOp}
    (h : Gives i c s f.dst f.isScalar (is64 f.t) (c.env.active f.guard) lat
      fun l => elemwise f.t f.count (op l) (c.env.va f l) (c.env.vb f l) (c.env.vc f l)) : GivesElems i f c s lat op := by
  refine ⟨_, h, fun l => ⟨fun k hk => elemwise_get _ _ _ _ _ _ k hk, ?_, fun b => elemwise_sticky _ _ _ _ _ _ b⟩⟩
  intro ht; rw [ht]; exact elemwise_low _ _ _ _ _

theorem elemGet_lt (t x k : Nat) : elemGet t x k < 2 ^ elemBits t := by
  rw [← elemGet_small]; exact Nat.mod_lt _ (Nat.two_pow_pos _)

/-- An elementwise row, element by element. -/
theorem runV_givesElems {f : VFmt} {o : VOp} {op : Nat → ElemOp} (h : MayIssue i c s) (hx : exec i s = runV i f o s)
    (hk : ckV c.env f o.opts = checks i c) (hp : commitPoint i = pointOf i c s) (he : (c.profile i).head.ends = false)
    (hf : fixedBlock (c.profile i).head.op = true) (hg : o.eval c.env = vElem c.env f op) : GivesElems i f c s (latOf c f.t) op :=
  givesElems (runV_gives h hx hk hp he hf hg)

/-- A result is given by any function that agrees with it on elements. -/
theorem GivesElems.of_eq {f : VFmt} {lat : Nat} {E F : Nat → Nat → Nat → Nat → Nat → Nat × Word} (h : GivesElems i f c s lat E)
    (he : ∀ l k a b d, a < 2 ^ elemBits f.t → b < 2 ^ elemBits f.t → d < 2 ^ elemBits f.t →
      (E l k a b d).1 % 2 ^ elemBits f.t = (F l k a b d).1 % 2 ^ elemBits f.t ∧ (E l k a b d).2 = (F l k a b d).2) :
    GivesElems i f c s lat F := by
  obtain ⟨g, hg, h⟩ := h
  refine ⟨g, hg, fun l => ?_⟩
  obtain ⟨h1, h2, h3⟩ := h l
  have e := fun k => he l k _ _ _ (elemGet_lt f.t (c.env.va f l) k) (elemGet_lt f.t (c.env.vb f l) k) (elemGet_lt f.t (c.env.vc f l) k)
  refine ⟨fun k hk => ?_, h2, fun b => ?_⟩
  · rw [h1 k hk]; split
    · exact (e k).1
    · rfl
  · rw [h3 b]; simp only [(e _).2]

/-! ## Every row that only writes registers -/

theorem Gives.completes {dst : BitVec 9} {sca wide : Bool} {m : Mask} {lat : Nat} {g : Nat → Nat × Word}
    (h : Gives i c s dst sca wide m lat g) : ∃ t q, exec i s = .next t ∧ Leaves i c s t q := by
  obtain ⟨t, q, x, h1, h2, -⟩ := h; exact ⟨t, q, h1, h2⟩

theorem GivesWrites.completes {lat : Nat} {W : List RegWrite} {st : Word} {e : Option (Bool × List Word)}
    (h : GivesWrites i c s lat W st e) : ∃ t q, exec i s = .next t ∧ Leaves i c s t q := by
  obtain ⟨t, q, x, h1, h2, -⟩ := h; exact ⟨t, q, h1, h2⟩

/-- A row whose effect is an output: what it writes, when, and its latch entry. -/
theorem issue_givesWrites {ck : Issuer → Ck} {o : Issuer → VOut} (h : MayIssue i c s)
    (hx : exec i s = issue i ck (fun c t => .ok (applyOut i c (o c) t)) s) (hk : ck c = checks i c)
    (hp : commitPoint i = pointOf i c s) (he : (c.profile i).head.ends = false) :
    GivesWrites i c s (o c).delay ((o c).writes c.env) (o c).sticky (o c).latch :=
  givesWrites_applyOut h he (hx.trans (issue_effect h hp hk))

/-- A row whose effect is an output that stands for a result. -/
theorem issue_gives {ck : Issuer → Ck} {o : Issuer → VOut} {dst : BitVec 9} {sca wide : Bool} {m : Mask} {lat : Nat}
    {g : Nat → Nat × Word} (h : MayIssue i c s)
    (hx : exec i s = issue i ck (fun c t => .ok (applyOut i c (o c) t)) s) (hk : ck c = checks i c)
    (hp : commitPoint i = pointOf i c s) (he : (c.profile i).head.ends = false)
    (hf : lat = 6 → fixedBlock (c.profile i).head.op = true) (d : Delivers c (o c) dst sca wide m lat g) :
    Gives i c s dst sca wide m lat g :=
  gives_applyOut h he hf (hx.trans (issue_effect h hp hk)) d

end Sys2Proof.Machine
end

