-- ==== Sys2Proof/Laws/Arith.lean ====
section
/-! SUPPORT. The integer arithmetic of the operand forms, as bit vectors: signed values, wrapping, clamping, shifts (R74, R76, R77). -/

namespace Sys2Proof.Machine

theorem bits_pos (t : Nat) : 0 < typeBits t := by unfold typeBits; split <;> omega

theorem signedOf_eq (w x : Nat) (hw : 0 < w) : signedOf w x = (BitVec.ofNat w x).toInt := by
  obtain ⟨n, rfl⟩ : ∃ n, w = n + 1 := ⟨w - 1, by omega⟩
  unfold signedOf
  rw [BitVec.toInt_eq_toNat_cond, BitVec.toNat_ofNat]
  have h : (2:Nat) ^ (n + 1) = 2 * 2 ^ n := Nat.pow_succ'
  simp only [Nat.add_sub_cancel]
  have h2 : ((2 ^ (n + 1) : Nat) : Int) = 2 ^ (n + 1) := by push_cast; rfl
  by_cases hc : x % 2 ^ (n + 1) < 2 ^ n
  · rw [if_pos hc, if_pos (by omega)]
  · rw [if_neg hc, if_neg (by omega), h2]

theorem wrapTo_eq (n : Nat) (i : Int) : wrapTo n i = (BitVec.ofInt n i).toNat := by
  simp [wrapTo, BitVec.toNat_ofInt]

theorem intOf_eq (t x : Nat) : intOf t x = intVal t x := by
  unfold intOf intVal
  split
  · exact signedOf_eq _ _ (bits_pos t)
  · simp

theorem intRes_eq (t : Nat) (sat : Bool) (i : Int) : intRes t sat i = fitInt t sat i := by
  unfold intRes fitInt
  cases sat with
  | false => simp [wrapTo_eq]
  | true =>
    have hp : (0:Int) < 2 ^ (typeBits t - 1) := by positivity
    have hp2 : (0:Int) < 2 ^ (typeBits t) := by positivity
    have : (let hi : Int := if isSigned t then 2 ^ (typeBits t - 1) - 1 else 2 ^ typeBits t - 1
      let lo : Int := if isSigned t then -(2 ^ (typeBits t - 1)) else 0
      (if i < lo then lo else if hi < i then hi else i)) = clampTo t i := by
      unfold clampTo
      split <;> simp only [] <;> (repeat' split) <;> omega
    simp only [if_true] at this ⊢
    rw [this, wrapTo_eq]
    by_cases h : clampTo t i = i
    · simp [h, stIf]
    · have h2 : i ≠ clampTo t i := Ne.symm h
      simp [h, h2, stIf]

theorem immVal_eq (f : SFmt) : immVal f = f.k := by
  unfold immVal SFmt.k
  simp

/-- The high half of a product. -/
theorem highHalf (w : Nat) (p : Int) : wrapTo w (p / (2 ^ w : Nat)) = ((BitVec.ofInt (2 * w) p).extractLsb' w w).toNat := by
  have hp : (0 : Int) < ((2 ^ w : Nat) : Int) := by positivity
  unfold wrapTo
  rw [BitVec.extractLsb'_toNat, BitVec.toNat_ofInt, Nat.shiftRight_eq_div_pow]
  have h2 : ((2 ^ (2 * w) : Nat) : Int) = ((2 ^ w : Nat) : Int) * ((2 ^ w : Nat) : Int) := by
    rw [Nat.two_mul, Nat.pow_add]; push_cast; rfl
  have h3 : 0 ≤ p % ((2 ^ (2 * w) : Nat) : Int) := Int.emod_nonneg _ (by positivity)
  apply Int.ofNat.inj
  show ((_ : Nat) : Int) = ((_ : Nat) : Int)
  rw [Int.toNat_of_nonneg (Int.emod_nonneg _ (by positivity))]
  push_cast
  rw [Int.toNat_of_nonneg (by push_cast at h3; exact h3)]
  push_cast at h2 ⊢
  have e := Int.emod_add_mul_ediv p ((2:Int) ^ (2 * w))
  have hq : p / 2 ^ w = (p % 2 ^ (2 * w)) / 2 ^ w + 2 ^ w * (p / 2 ^ (2 * w)) := by
    conv_lhs => rw [← e]
    rw [h2, show p % (2 ^ w * 2 ^ w) + 2 ^ w * 2 ^ w * (p / (2 ^ w * 2 ^ w)) = p % (2 ^ w * 2 ^ w) + (2 ^ w * (p / (2 ^ w * 2 ^ w))) * 2 ^ w by ring]
    exact Int.add_mul_ediv_right _ _ (by positivity)
  rw [hq, Int.add_mul_emod_self_left]

theorem shlBits_eq (t x n : Nat) : shlBits (typeBits t) x n = (BitVec.ofNat (typeBits t) x <<< n).toNat := by
  unfold shlBits
  rw [BitVec.toNat_shiftLeft, BitVec.toNat_ofNat, Nat.shiftLeft_eq]
  split
  · rename_i h
    obtain ⟨d, rfl⟩ : ∃ d, n = typeBits t + d := ⟨n - typeBits t, by omega⟩
    rw [Nat.pow_add, ← Nat.mul_assoc, Nat.mul_right_comm, Nat.mul_mod_left]
  · rw [Nat.mod_mul_mod]

theorem toInt_div_pow (w : Nat) (x : BitVec w) (n : Nat) : (x.sshiftRight n).toInt = x.toInt / (2 ^ n : Nat) := by
  rw [BitVec.toInt_sshiftRight, Int.shiftRight_eq_div_pow]

theorem shrBits_eq (t x n : Nat) : shrBits t x n = (shiftRightOf t (BitVec.ofNat (typeBits t) x) n).toNat := by
  have hw := bits_pos t
  unfold shrBits shiftRightOf
  simp only []
  split
  · rw [wrapTo_eq, signedOf_eq _ _ hw, ← toInt_div_pow, BitVec.ofInt_toInt]
    congr 1
    split
    · rename_i h
      apply BitVec.eq_of_toInt_eq
      rw [toInt_div_pow, toInt_div_pow]
      generalize BitVec.ofNat (typeBits t) x = y
      have h1 := BitVec.toInt_lt (x := y)
      have h2 := BitVec.le_toInt (x := y)
      have h3 : (2:Int) ^ (typeBits t - 1) ≤ 2 ^ typeBits t := pow_le_pow_right₀ (by norm_num) (by omega)
      have h4 : (2:Int) ^ typeBits t ≤ 2 ^ n := pow_le_pow_right₀ (by norm_num) h
      push_cast
      rcases Int.lt_or_le y.toInt 0 with hs | hs
      · rw [show y.toInt / 2 ^ typeBits t = -1 by
          rw [Int.ediv_eq_iff_of_pos (by positivity)]; constructor <;> omega,
          show y.toInt / 2 ^ n = -1 by rw [Int.ediv_eq_iff_of_pos (by positivity)]; constructor <;> omega]
      · rw [Int.ediv_eq_zero_of_lt hs (by omega), Int.ediv_eq_zero_of_lt hs (by omega)]
    · rfl
  · rw [BitVec.toNat_ushiftRight, BitVec.toNat_ofNat, Nat.shiftRight_eq_div_pow]
    split
    · rename_i h
      have hx : x % 2 ^ typeBits t < 2 ^ typeBits t := Nat.mod_lt _ (by positivity)
      have h4 : 2 ^ typeBits t ≤ 2 ^ n := Nat.pow_le_pow_right (by norm_num) h
      rw [Nat.div_eq_of_lt hx, Nat.div_eq_of_lt (by omega)]
    · rfl

theorem relHolds_eq (k : Nat) (x y : Int) : condOf k (x < y) (x = y) = relHolds k x y := by
  unfold condOf relHolds
  split <;> first
    | rfl
    | (rw [Bool.eq_iff_iff]
       simp only [Bool.or_eq_true, Bool.not_eq_true', Bool.not_or, Bool.and_eq_true, decide_eq_true_eq, decide_eq_false_iff_not]
         <;> omega)

/-- A format S result depends on the value for source A alone. -/
theorem GivesS.of_eq {i : Instr} {c : Issuer} {s : State} {f : SFmt} {one : Bool} {g h : Nat → Nat × Word}
    (H : GivesS i f one c s g) (e : ∀ l, g (c.env.sA f l) = h (c.env.sA f l)) : GivesS i f one c s h := by
  unfold GivesS at *
  simpa only [e] using H

theorem sA_lt (c : Issuer) (f : SFmt) (l : Nat) : c.env.sA f l < 2 ^ (if is64 f.t then 64 else 32) := by
  unfold Env.sA
  split
  · unfold Env.src64
    split
    · have h1 := (c.env.sca (fIdx f.sa)).isLt; have h2 := (c.env.sca (fIdx f.sa + 1)).isLt; omega
    · have h1 := (c.env.vec (fIdx f.sa) l).isLt; have h2 := (c.env.vec (fIdx f.sa + 1) l).isLt; omega
  · exact BitVec.isLt _

/-- The type of a legal format S instruction is one that it allows. -/
theorem sType {i : Instr} {c : Issuer} {s : State} {f : SFmt} {o : SOpts} (h : MayIssue i c s) (hk : checks i c = ckS c.env f o) :
    f.t ∈ o.types := by
  have h1 := h.check (b := !o.types.contains f.t) (r := 5) (by rw [hk]; simp [ckS])
  simpa using h1

/-- The type of a legal format V instruction is one that it allows. -/
theorem vType {i : Instr} {c : Issuer} {s : State} {f : VFmt} {o : VOpts} (h : MayIssue i c s) (hk : checks i c = ckV c.env f o) :
    f.t ∈ o.types := by
  have h1 := h.check (b := !o.types.contains f.t) (r := 5) (by rw [hk]; simp [ckV])
  simpa using h1

end Sys2Proof.Machine
end

