-- ==== Sys2Proof/Laws/Checksum.lean ====
section
/-! SUPPORT. The residues of R122: they respect exact products, so the two sums of a subtile that nothing disturbs agree. -/

namespace Sys2Proof.Laws

open Sys2Proof.Machine

theorem two_pow_mod31 (e f : Int) :
    (2 : Int) ^ ((e + f) % 31).toNat ≡ 2 ^ (e % 31).toNat * 2 ^ (f % 31).toNat [ZMOD 2 ^ 31 - 1] := by
  have h1 : 0 ≤ e % 31 ∧ e % 31 < 31 := ⟨Int.emod_nonneg _ (by norm_num), Int.emod_lt_of_pos _ (by norm_num)⟩
  have h2 : 0 ≤ f % 31 ∧ f % 31 < 31 := ⟨Int.emod_nonneg _ (by norm_num), Int.emod_lt_of_pos _ (by norm_num)⟩
  have h31 : (2 : Int) ^ 31 ≡ 1 [ZMOD 2 ^ 31 - 1] := by decide
  rw [← pow_add]
  by_cases h : (e % 31).toNat + (f % 31).toNat < 31
  · rw [show ((e + f) % 31).toNat = (e % 31).toNat + (f % 31).toNat by omega]
  · rw [show (e % 31).toNat + (f % 31).toNat = ((e + f) % 31).toNat + 31 by omega, pow_add]
    simpa using ((Int.ModEq.refl (2 ^ ((e + f) % 31).toNat)).mul h31).symm

theorem resOf_fin (neg : Bool) (m : Nat) (e : Int) :
    (resOf (.fin neg m e) : Int) ≡ (if neg then -(m : Int) else m) * 2 ^ (e % 31).toNat [ZMOD 2 ^ 31 - 1] := by
  have h : 0 ≤ (if neg then -(m : Int) else m) % (resMod : Int) := Int.emod_nonneg _ (by decide)
  have hm : ((resMod : Nat) : Int) = 2 ^ 31 - 1 := by decide
  simp only [resOf]
  push_cast
  rw [Int.toNat_of_nonneg h, hm]
  exact (Int.mod_modEq _ _).trans ((Int.mod_modEq _ _).mul_right _)

/-- Residues respect exact products; one of a value that is not finite is 0 (R122). -/
theorem resOf_mul (x y : Val) : resOf (x.mul y) ≡ resOf x * resOf y [MOD resMod] := by
  cases x with
  | nan => simp [Val.mul, resOf, Nat.ModEq]
  | inf a => cases y with
    | nan => simp [Val.mul, resOf, Nat.ModEq]
    | inf b => simp [Val.mul, resOf, Nat.ModEq]
    | fin b n f => by_cases h : n = 0 <;> simp [Val.mul, resOf, Nat.ModEq, h]
  | fin a m e => cases y with
    | nan => simp [Val.mul, resOf, Nat.ModEq]
    | inf b => by_cases h : m = 0 <;> simp [Val.mul, resOf, Nat.ModEq, h]
    | fin b n f =>
      rw [← Int.natCast_modEq_iff]
      push_cast
      rw [show ((resMod : Nat) : Int) = 2 ^ 31 - 1 by decide]
      refine (resOf_fin _ _ _).trans (Int.ModEq.trans ?_ ((resOf_fin a m e).mul (resOf_fin b n f)).symm)
      refine ((Int.ModEq.refl _).mul (two_pow_mod31 e f)).trans ?_
      have : (if (a != b) = true then -((m * n : Nat) : Int) else (m * n : Nat)) =
          (if a = true then -(m : Int) else m) * (if b = true then -(n : Int) else n) := by
        cases a <;> cases b <;> simp
      rw [this]
      exact congrArg (· % _) (by ring)

theorem sumNat_eq (l : List Nat) : sumNat l = l.sum := by
  simp [sumNat, List.sum_eq_foldl]

theorem sum_modEq {α : Type} (l : List α) (f g : α → Nat) (n : Nat) (h : ∀ x ∈ l, f x ≡ g x [MOD n]) :
    (l.map f).sum ≡ (l.map g).sum [MOD n] := by
  induction l with
  | nil => rfl
  | cons a t ih => exact (h a (by simp)).add (ih fun x hx => h x (by simp [hx]))

/-- The products of each row with each column, at one K index. -/
theorem products_modEq (as bs : List Val) :
    (as.map fun a => (bs.map fun b => resOf (a.mul b)).sum).sum ≡ (as.map resOf).sum * (bs.map resOf).sum [MOD resMod] := by
  induction as with
  | nil => simp [Nat.ModEq]
  | cons a t ih =>
    have h := sum_modEq bs (fun b => resOf (a.mul b)) (fun b => resOf a * resOf b) resMod fun b _ => resOf_mul a b
    rw [List.sum_map_mul_left] at h
    simpa [add_mul] using h.add ih

/-- Without a fault the two sums are equal, whatever the rows and columns hold. -/
theorem productSide_eq (n : Nat) (as bs : List (List Val)) : productSide n as bs = operandSide n as bs := by
  simp only [productSide, operandSide, sumNat_eq]
  refine sum_modEq _ _ _ _ fun k _ => ?_
  simpa [List.map_map, Function.comp_def] using
    products_modEq (as.map fun r => r.getD k .nan) (bs.map fun r => r.getD k .nan)

/-- A subtile that no fault disturbs passes its check (R122, R123). -/
theorem subtileAgrees_zero (m : List Host.Cell) (c : MCmd) (core : Nat) : subtileAgrees m c core 0 = true := by
  simp only [subtileAgrees, List.all_eq_true, decide_eq_true_eq, ite_self, Nat.add_zero, productSide_eq]
  exact fun b _ => Nat.mod_eq_of_lt (Nat.mod_lt _ (by decide))

end Sys2Proof.Laws
end

