-- ==== Sys2Proof/Laws/Memory.lean ====
section
/-! SUPPORT. Every memory operation keeps the canonical form, and what a byte reads as after each of them. -/

namespace Sys2Proof.Machine

/-! ## The canonical form -/

theorem memory_wf_iff {m : List Host.Cell} : Memory.wf m = true ↔ Canon memDefault m := by
  induction m with
  | nil => simp [Memory.wf, Canon]
  | cons p t ih =>
    obtain ⟨a, v⟩ := p
    cases t with
    | nil => simp [Memory.wf, Canon]
    | cons q t =>
      obtain ⟨b, w⟩ := q
      simp only [Memory.wf, Bool.and_eq_true, ih, Canon, bne_iff_ne, decide_eq_true_eq, List.mem_cons, forall_eq_or_imp]
      constructor
      · rintro ⟨⟨h1, h2⟩, h3, h4, h5⟩
        exact ⟨h1, ⟨h2, fun p hp => h2.trans (h4 p hp)⟩, h3, h4, h5⟩
      · rintro ⟨h1, ⟨h2, -⟩, h3, h4, h5⟩
        exact ⟨⟨h1, h2⟩, h3, h4, h5⟩

theorem canon_filter {α : Type} {d : α} {m : FMap α} (f : Nat × α → Bool) (h : Canon d m) : Canon d (m.filter f) := by
  induction m with
  | nil => exact h
  | cons p t ih =>
    obtain ⟨a, v⟩ := p
    obtain ⟨h1, h2, h3⟩ := h
    rw [List.filter_cons]
    split
    · exact ⟨h1, fun q hq => h2 q (List.mem_of_mem_filter hq), ih h3⟩
    · exact ih h3

theorem wf_wrByte {m : List Host.Cell} (a : Nat) (v : Byte) (h : Memory.wf m = true) : Memory.wf (wrByte m a v) = true :=
  memory_wf_iff.2 (fset_canon (memory_wf_iff.1 h))

theorem wf_wrBytes {m : List Host.Cell} (a : Nat) (bs : List Byte) (h : Memory.wf m = true) : Memory.wf (wrBytes m a bs) = true := by
  induction bs generalizing m a with
  | nil => exact h
  | cons b bs ih => exact ih _ (wf_wrByte _ b h)

theorem wf_filter {m : List Host.Cell} (f : Host.Cell → Bool) (h : Memory.wf m = true) : Memory.wf (m.filter f) = true :=
  memory_wf_iff.2 (canon_filter f (memory_wf_iff.1 h))

/-- A fold whose every step keeps the form keeps it. -/
theorem wf_foldl {β : Type} {f : List Host.Cell → β → List Host.Cell} (hf : ∀ m b, Memory.wf m = true → Memory.wf (f m b) = true)
    (l : List β) {m : List Host.Cell} (h : Memory.wf m = true) : Memory.wf (l.foldl f m) = true := by
  induction l generalizing m with
  | nil => exact h
  | cons b l ih => exact ih (hf m b h)

theorem wf_copyTile {m : List Host.Cell} (core dst src : Nat) (h : Memory.wf m = true) : Memory.wf (copyTile m core dst src) = true :=
  wf_wrBytes _ _ h

/-! ## Reading -/

theorem rdByte_wrByte_self {m : List Host.Cell} {a : Nat} {v : Byte} (h : Memory.wf m = true) : rdByte (wrByte m a v) a = v :=
  fget_fset_self (memory_wf_iff.1 h)

theorem rdByte_wrByte_ne {m : List Host.Cell} {a b : Nat} {v : Byte} (h : b ≠ a) : rdByte (wrByte m a v) b = rdByte m b := fget_fset_ne h

/-! ## Where a byte lies (R213, R214) -/

/-- A key outside the ganged ones is its byte's own. -/
theorem cell_plain {a : Nat} (h : a < gangBase ∨ 2 * gangBase ≤ a) : cell a = a := by
  unfold cell; rw [if_neg (by omega)]

/-- A range of keys in one layout: none ganged, or all. -/
def OneLayout (a n : Nat) : Prop := a + n ≤ gangBase ∨ 2 * gangBase ≤ a ∨ (gangBase ≤ a ∧ a + n ≤ 2 * gangBase)

/-- A ganged address, taken apart. -/
theorem cell_ganged {q r : Nat} (hq : q < 2 ^ 31) (hr : r < 512) :
    cell (gangBase + (512 * q + r)) = 512 * q + (r / 4 % 2 * 256 + r / 8 * 4 + r % 4) := by
  have e : gangBase = 512 * 2147483648 := rfl
  have h1 : (gangBase + (512 * q + r)) % 512 = r := by rw [e]; omega
  have h2 : (gangBase + (512 * q + r)) / 4 % 2 = r / 4 % 2 := by rw [e]; omega
  have h3 : (gangBase + (512 * q + r)) % 4 = r % 4 := by rw [e]; omega
  unfold cell
  rw [if_pos (by rw [e]; omega), h1, h2, h3, show (gangBase + (512 * q + r) - gangBase) / 512 * 512 = 512 * q by omega]
  omega

theorem cell_side_inj {q r q' r' : Nat} (hr : r < 512) (hr' : r' < 512)
    (e : 512 * q + (r / 4 % 2 * 256 + r / 8 * 4 + r % 4) = 512 * q' + (r' / 4 % 2 * 256 + r' / 8 * 4 + r' % 4)) : q = q' ∧ r = r' := by
  have b : ∀ r, r < 512 → r / 8 * 4 + r % 4 < 256 := by omega
  have hx : q = q' := by have := b r hr; have := b r' hr'; generalize r / 8 * 4 + r % 4 = x at *; omega
  subst hx
  have e1 : r / 4 % 2 * 256 + (r / 8 * 4 + r % 4) = r' / 4 % 2 * 256 + (r' / 8 * 4 + r' % 4) := by omega
  have e2 : r / 4 % 2 = r' / 4 % 2 ∧ r / 8 * 4 + r % 4 = r' / 8 * 4 + r' % 4 := by
    have := b r hr; have := b r' hr'; generalize r / 8 * 4 + r % 4 = x at *; generalize r' / 8 * 4 + r' % 4 = y at *; omega
  omega

/-- Two keys of one layout name one byte only if they are one. -/
theorem cell_inj {a b : Nat} (h : ((gangBase ≤ a ∧ a < 2 * gangBase) ↔ (gangBase ≤ b ∧ b < 2 * gangBase))) (e : cell a = cell b) : a = b := by
  by_cases ha : gangBase ≤ a ∧ a < 2 * gangBase
  · have g : ∀ x, gangBase ≤ x ∧ x < 2 * gangBase → ∃ q r, q < 2 ^ 31 ∧ r < 512 ∧ x = gangBase + (512 * q + r) := by
      intro x hx
      have e : gangBase = 512 * 2147483648 := rfl
      exact ⟨(x - gangBase) / 512, (x - gangBase) % 512, by rw [e] at hx ⊢; omega, by omega, by omega⟩
    obtain ⟨q, r, hq, hr, rfl⟩ := g a ha
    obtain ⟨q', r', hq', hr', rfl⟩ := g b (h.1 ha)
    rw [cell_ganged hq hr, cell_ganged hq' hr'] at e
    obtain ⟨rfl, rfl⟩ := cell_side_inj hr hr' e
    rfl
  · have hb : ¬ (gangBase ≤ b ∧ b < 2 * gangBase) := fun hb => ha (h.2 hb)
    rwa [cell, if_neg ha, cell, if_neg hb] at e

theorem cell_ne {a n j k : Nat} (h : OneLayout a n) (hj : j < n) (hk : k < n) (hne : j ≠ k) : cell (a + j) ≠ cell (a + k) := by
  intro e
  have := cell_inj (a := a + j) (b := a + k) (by unfold OneLayout at h; omega) e
  omega

/-- Bytes outside the written ones stand. -/
theorem rdByte_wrBytes_out {m : List Host.Cell} {a b : Nat} {bs : List Byte} (h : ∀ k < bs.length, cell (a + k) ≠ b) :
    rdByte (wrBytes m a bs) b = rdByte m b := by
  induction bs generalizing m a with
  | nil => rfl
  | cons x bs ih =>
    have h0 : cell a ≠ b := by simpa using h 0 (by simp)
    rw [wrBytes, ih (fun k hk => by simpa [Nat.add_assoc, Nat.add_comm 1 k] using h (k + 1) (by simpa using hk)), rdByte_wrByte_ne (Ne.symm h0)]

/-- So do those outside a range that no ganged mapping has a part in. -/
theorem rdByte_wrBytes_apart {m : List Host.Cell} {a b : Nat} {bs : List Byte} (ha : a + bs.length ≤ gangBase ∨ 2 * gangBase ≤ a)
    (h : b < a ∨ a + bs.length ≤ b) : rdByte (wrBytes m a bs) b = rdByte m b := by
  refine rdByte_wrBytes_out fun k hk => ?_
  rw [cell_plain (by omega)]; omega

/-- The written bytes read back. -/
theorem rdByte_wrBytes_in {m : List Host.Cell} {a k : Nat} {bs : List Byte} (h : Memory.wf m = true) (hl : OneLayout a bs.length)
    (hk : k < bs.length) : rdByte (wrBytes m a bs) (cell (a + k)) = bs[k] := by
  induction bs generalizing m a k with
  | nil => simp at hk
  | cons x bs ih =>
    cases k with
    | zero =>
      have h1 := rdByte_wrByte_self (a := cell a) (v := x) h
      rw [wrBytes, rdByte_wrBytes_out]
      · simpa using h1
      · intro j hj
        have := cell_ne hl (j := j + 1) (k := 0) (by simpa using hj) (by simp) (by omega)
        simpa [Nat.add_assoc, Nat.add_comm 1 j] using this
    | succ k =>
      have h2 : OneLayout (a + 1) bs.length := by
        unfold OneLayout at hl ⊢; simp only [List.length_cons] at hl; omega
      have := ih (m := wrByte m (cell a) x) (a := a + 1) (k := k) (wf_wrByte _ x h) h2 (by simpa using hk)
      rw [wrBytes, show a + (k + 1) = a + 1 + k by omega, this]; rfl

theorem rdBytes_wrBytes {m : List Host.Cell} {a : Nat} {bs : List Byte} (h : Memory.wf m = true) (hl : OneLayout a bs.length) :
    rdBytes (wrBytes m a bs) a bs.length = bs := by
  refine List.ext_getElem (by simp [rdBytes]) fun k h1 h2 => ?_
  simp only [rdBytes, List.getElem_map, List.getElem_range]
  exact rdByte_wrBytes_in h hl h2

theorem rdByte_filter {m : List Host.Cell} {f : Host.Cell → Bool} {a : Nat} (h : ∀ v, f (a, v) = true) : rdByte (m.filter f) a = rdByte m a := by
  unfold rdByte
  induction m with
  | nil => rfl
  | cons p t ih =>
    obtain ⟨b, v⟩ := p
    rw [List.filter_cons]
    split
    · simp only [fget, ih]
    · rename_i hf
      have : b ≠ a := by rintro rfl; exact hf (h v)
      simp only [fget, if_neg this, ih]

/-! ## The operations on the memory of a state -/

theorem wf_wr {s : State} (a : Nat) (bs : List Byte) (h : Memory.wf s.mem = true) : Memory.wf (s.wr a bs).mem = true := wf_wrBytes a bs h
theorem wf_wipe {s : State} (a n : Nat) (h : Memory.wf s.mem = true) : Memory.wf (s.wipe a n).mem = true := wf_filter _ h
theorem wf_setValid {s : State} (a n : Nat) (v : Byte) (h : Memory.wf s.mem = true) : Memory.wf (s.setValid a n v).mem = true :=
  wf_foldl (fun _ _ hm => wf_wrByte _ _ hm) _ h
theorem wf_freshZeros {s : State} (gone : Nat → Bool) (h : Memory.wf s.mem = true) : Memory.wf (s.freshZeros gone).mem = true :=
  wf_filter _ h
theorem wf_revive {s : State} (core : Nat) (st : Option Stamp) (key frame : Nat) (h : Memory.wf s.mem = true) :
    Memory.wf (s.revive core st key frame).mem = true := wf_filter _ h
theorem wf_reviveFree {s : State} (frame pc : Nat) (h : Memory.wf s.mem = true) : Memory.wf (s.reviveFree frame pc).mem = true := by
  unfold State.reviveFree
  generalize hl : List.range 4 = l
  extract_lets mask
  split
  · exact wf_foldl (fun _ _ hm => wf_wrBytes _ _ hm) _ (wf_filter _ h)
  · exact h
theorem wf_spread {s : State} (l : List Span) (bs : FMap Byte) (st : FMap Stamp) (h : Memory.wf s.mem = true) :
    Memory.wf (s.spread l bs st).mem = true := by
  refine wf_foldl (fun m p hm => ?_) _ (wf_filter _ h)
  split
  · exact wf_wrByte _ _ hm
  · exact hm

theorem reset_wf : Memory.wf State.reset.mem = true := rfl

end Sys2Proof.Machine
end

