-- ==== Sys2Proof/Tests/Slice0.lean ====
section
/-! SUPPORT. Small tests: terms that WellFormed refuses, words written out from the tables of chapter 01 and the class
chapters, one step on small states, and, for each statement, a state and operands that meet its hypotheses. -/

namespace Sys2Proof.Tests

set_option Elab.async false

open Sys2Proof.Machine

/-! ## Terms that are not well formed -/

/-- Rows that share an opcode are told apart by a field; an assigned opcode is no unassigned one. -/
theorem test_wf_refuses_instructions : ([.trap { imm := 0x800000 }, .trapBkpt {}, .sysrd { sysreg := 7 }, .sysrd { sysreg := 3 },
    .sysrdSticky {}, .sysrdLclk {}, .syswr {}, .syswr { sysreg := 7 }, .syswr { sysreg := 5 }, .syswrExm { sysreg := 1 }, .syswrSticky {},
    .syswrFpctl {}, .sclz { subop := 1 }, .sclz { subop := 2 }, .sclz { subop := 3 }, .sclz { subop := 4 }, .sctz {}, .spopc {}, .sbrev {},
    .sbswap {}, .rwinOpen { func := 1 }, .rwinClose {}, .unassignedOpcode { op := 0x020 }] : List Instr).all (fun i => !i.wf) = true := by decide

/-- Events at units that do not exist (R2, R3). -/
theorem test_wf_refuses_events : ([.lineEntry ⟨0, 32, 0⟩, .lineRefetch ⟨0, 0, 16⟩, .portBind 384 0, .portBind 0 4, .fixedLatencyWriteback 0 32 0,
    .longLatencyCompletion 0 32 0, .loadCompletion 0 32 0, .mfillCompletion 384 0, .matrixCommandStart 384, .subtileCheck 384 0,
    .matrixCommandCompletion 384, .mresolveRestore 384 0, .mresolveRestore 0 5, .engineBytesLand 384 0 0, .engineCommandCompletion 384 0,
    .followOnEnqueue 384 0, .writeBufferDrain 4 0, .writeBufferDrain 0 16, .glazierRequestService ⟨.bench, 384⟩ 0,
    .glazierRequestService ⟨.shop, 48⟩ 0, .glazierRequestService ⟨.yard, 4⟩ 0, .glazierRequestService ⟨.glazier, 512⟩ 0,
    .atomicExecution ⟨.capacity, 4⟩ 0, .atomicExecution ⟨.host, 1⟩ 0, .atomicExecution ⟨.peer, 1024⟩ 0, .atomicExecution ⟨.switch, 1⟩ 0,
    .pageWalk 4 0 0, .pageWalk 0 4096 0, .parkedSplitResume ⟨0, 32, 0⟩, .trapEntry ⟨0, 0, 16⟩, .eventRecordAppend 16 0, .eventRecordAppend 0 256,
    .rasterBinning 4 0, .expectationEntryAppend 4 0, .methodValidation 512 0 0 0, .methodValidation 0 4096 0 0, .methodValidation 0 0 1024 0,
    .methodValidation 0 0 0 16, .packetAccept 0 0 64, .methodApplication 512 0 0, .methodApplication 0 0 64] : List Instr).all
    (fun i => !i.wf) = true := by decide
theorem test_wf_refuses_device_events : ([.streamReductionAtom 384 0 0, .collectiveCompletion 384 0 [], .switchMerge 0 0 .add 2 0 0,
    .shadowLatchReplay 384, .forcedSelfRefreshEntry 8, .forcedSelfRefreshExit 8, .selfRefreshTimeout 8, .thermalThreshold 4 0,
    .mailboxInboundWrite 17 0 0 [], .mailboxInboundWrite 1 256 0 [], .mailboxInboundWrite 0 4096 0 [], .mailboxOutboundRead 17 ⟨0, 0, 0⟩,
    .mailboxOutboundRead 0 ⟨8192, 0, 0⟩, .mailboxStatusRead 1 ⟨256, 0, 0⟩, .mailboxStatusRead 0 ⟨0, 0, 257⟩, .bar2HostRead 17 0 0,
    .bar2HostWrite 17 0 [], .bar2HostAtomic 17 0 .add 4 0 0, .bar2HostAtomic 0 0 .umin 4 0 0, .bar2HostAtomic 0 0 .add 2 0 0, .dallumSpawn 16 0,
    .declareDead 0 256, .declareLive 16 0, .liveMapUpdate 512, .forwardEventQueue 16 0, .mailboxInvalidMessage 0 256, .dallumServiceRequest 16,
    .listCapsules 16 0, .copyCapsule 0 256, .releaseCapsule 16 0, .attest 0 256, .copyCertificates 16 0, .serviceStatus 0 256,
    .coreSelfTest 384 true, .pseudoChannelMigration 512 0, .lostRecords 384, .refresh 512 0] : List Instr).all (fun i => !i.wf) = true := by decide

/-! ## Decoding: each opcode of the opcode map (R39) with a distance of 5 in bits 73 to 70 (R26), and where rows share an opcode the
field that tells them apart (R74, R182, R188, R189). The words that the manual works out in full are in an obligation. -/

/-- The instruction word with an opcode, distance 5, and low bits. -/
def wordOf (op low : Nat) : Option Instr := decodeTableWord 96 (op * 2 ^ 86 + 5 * 2 ^ 70 + low)

def zT : TFmt := { dist := 5, post := 0 }
def zS : SFmt := { dist := 5, post := 0 }
def zV : VFmt := { dist := 5, post := 0 }
def zX : XFmt := { dist := 5, post := 0 }
def zM : MFmt := { dist := 5, post := 0, size := 0 }
def zA : AFmt := { dist := 5, post := 0 }
def zB : BFmt := { dist := 5 }

/-- The instructions of opcodes from base on. -/
def opened (base : Nat) (l : List Instr) : Bool := (List.range l.length).all fun k => decide (wordOf (base + k) 0 = l[k]?)

theorem test_decode_run_ends : opened 0x000 [.nop zT, .seal zT, .trap zT, .tret zT, .sysrd zT, .syswrExm zT] = true := by decide
/-- Bits 39 to 28 are the system register (R38), and bit 23 is imm[23]. -/
theorem test_decode_system_fields : wordOf 0x002 (2 ^ 23) = some (.trapBkpt { zT with imm := 0x800000 }) ∧
    wordOf 0x004 (7 * 2 ^ 28) = some (.sysrdSticky { zT with sysreg := 7 }) ∧ wordOf 0x004 (3 * 2 ^ 28) = some (.sysrdLclk { zT with sysreg := 3 }) ∧
    wordOf 0x005 (7 * 2 ^ 28) = some (.syswrSticky { zT with sysreg := 7 }) ∧ wordOf 0x005 (5 * 2 ^ 28) = some (.syswrFpctl { zT with sysreg := 5 }) ∧
    wordOf 0x005 (4 * 2 ^ 28) = some (.syswr { zT with sysreg := 4 }) := by decide
/-- Bits 11 to 8 are the subop (R33). -/
theorem test_decode_bit_counts : [1, 2, 3, 4].map (fun k => wordOf 0x02D (k * 2 ^ 8)) = [some (.sctz { zS with subop := 1 }),
    some (.spopc { zS with subop := 2 }), some (.sbrev { zS with subop := 3 }), some (.sbswap { zS with subop := 4 })] := by decide
theorem test_decode_window_close : wordOf 0x1C3 1 = some (.rwinClose { zX with func := 1 }) := by decide
theorem test_decode_system : opened 0x006 [.mbxsend zT, .mbxrecv zT, .spawn zT, .evput zT, .evget zT, .lsync zT, .logmk zT] = true := by decide
theorem test_decode_scalar : opened 0x020 [.smovi zS, .saddi zS, .ssubi zS, .smuli zS, .sandi zS, .sori zS, .sxori zS, .sshli zS,
    .sshri zS, .scmpi zS, .smini zS, .smaxi zS, .slea zS, .sclz zS, .sext zS, .sident zS] = true := by decide
theorem test_decode_vector_integer : opened 0x040 [.vaddInteger zV, .vsubInteger zV, .vmulInteger zV, .vmulhi zV, .vmad zV,
    .vminInteger zV, .vmaxInteger zV, .vabsInteger zV, .vnegInteger zV, .vand zV, .vor zV, .vxor zV, .vandn zV, .vshl zV, .vshr zV,
    .vcmpInteger zV, .vsel zV, .vmov zV, .vdiv zV, .vrem zV, .vdot4 zV, .vclz zV, .vpopc zV, .vbrev zV, .vbfx zV, .vbfi zV, .vlaneid zV,
    .vqop zV] = true := by decide
theorem test_decode_vector_float : opened 0x080 [.vaddFloat zV, .vsubFloat zV, .vmulFloat zV, .vfma zV, .vfms zV, .vfnma zV,
    .vminFloat zV, .vmaxFloat zV, .vcmpFloat zV, .vabsFloat zV, .vnegFloat zV, .vfclass zV, .vfdot2 zV, .vfscale zV, .vfrint zV,
    .vfcopysign zV] = true := by decide
theorem test_decode_special : opened 0x0C0 [.vrcp zV, .vrsqrt zV, .vsqrt zV, .vexp2 zV, .vlog2 zV, .vsin zV, .vcos zV, .vtanh zV] = true := by decide
theorem test_decode_conversion : opened 0x0E0 [.vcvt zV, .vqblk zV, .vqcvt zV] = true := by decide
theorem test_decode_cross_lane : opened 0x100 [.vshfl zV, .vpswap zV, .vbcast zV, .vvote zV, .vscan zV, .vred zV] = true := by decide
theorem test_decode_matrix : opened 0x120 [.mclaim zX, .mfree zX, .mfill zX, .mma zX, .mmas zX, .mzero zX, .maccld zX, .maccst zX,
    .mresolve zX, .mstat zX] = true := by decide
theorem test_decode_memory : opened 0x140 [.ld zM, .st zM, .tmov zM, .bvclr zM, .bvset zM, .bvtst zM] = true := by decide
theorem test_decode_atomics : opened 0x160 [.atomAdd zA, .atomUmin zA, .atomUmax zA, .atomSmin zA, .atomSmax zA, .atomAnd zA, .atomOr zA,
    .atomXor zA, .atomExch zA, .atomCas zA, .atomFadd zA, .atomFmin zA, .atomFmax zA, .atomLd zA, .atomSt zA] = true := by decide
theorem test_decode_synchronisation : opened 0x180 [.fence zA, .barsync zA, .bararv zA, .pbinit zA, .pbarv zA, .pbtx zA, .pbwait zA,
    .waitq zA, .wake zA, .qpush zA, .qpop zA, .qpopw zA] = true := by decide
theorem test_decode_control : opened 0x1A0 [.bra zB, .bsplit zB, .switch zB, .join zB, .brx zB, .call zB, .callx zB, .ret zB, .lnkw zB,
    .exit zB] = true := by decide
theorem test_decode_engines : opened 0x1C0 [.cpy zX, .gather zX, .coll zX, .rwinOpen zX, .rstream zX, .publish zX, .rast zX, .fpost zX,
    .fnull zX, .sample zX] = true := by decide
theorem test_decode_methods : opened 0x1E0 [.mld zV, .mst zV, .mkill zV, .mend zV] = true := by decide
/-- Opcodes that no chapter assigns, the last of a block and all above 0x1FF (R39). -/
theorem test_decode_unassigned : [0x00D, 0x01F, 0x030, 0x05C, 0x0C8, 0x146, 0x1E4, 0x200, 0x3FF].all (fun op =>
    wordOf op 0 = some (.unassignedOpcode { op := BitVec.ofNat 10 op, bits := BitVec.ofNat 86 (5 * 2 ^ 70) })) = true := by decide

/-! ## Hypotheses that can be met: instructions

Each theorem names the statements that it is for. -/

/-- One split of 32 lanes about to issue its next instruction, in stage 2. -/
def here : State := { State.reset.withFetchWord 96 0 with cur := .split ⟨0, 0, 0⟩ }

/-- The instruction may issue, and its issuer meets P. -/
def sat (i : Instr) (s : State) (P : Issuer → Bool := fun _ => true) : Bool :=
  match s.issuer with
  | some c => canIssue i c s && (preTrap i (checks i c) c).isNone && !c.task.redundant && P c
  | none => false

theorem of_sat {i : Instr} {s : State} {P : Issuer → Bool} (h : sat i s P = true) : ∃ c, MayIssue i c s ∧ P c = true := by
  unfold sat at h
  split at h
  · rename_i c hc
    simp only [Bool.and_eq_true, Bool.not_eq_true', Option.isNone_iff_eq_none] at h
    exact ⟨c, ⟨hc, h.1.1.1, h.1.1.2, .inl h.1.2⟩, h.2⟩
  · cases h

theorem of_sat' {i : Instr} {s : State} (h : sat i s = true) : ∃ c, MayIssue i c s := let ⟨c, hc, _⟩ := of_sat h; ⟨c, hc⟩

theorem of_each {l : List Instr} {s : State} (h : (l.all fun i => sat i s) = true) : ∀ i ∈ l, ∃ c, MayIssue i c s :=
  fun i hi => of_sat' (List.all_eq_true.1 h i hi)

theorem of_all {l : List Instr} {s : State} {p : Instr → Bool} (h : (l.all fun i => sat i s && p i) = true) :
    ∀ i ∈ l, p i = true ∧ ∃ c, MayIssue i c s := by
  intro i hi
  have := List.all_eq_true.1 h i hi
  simp only [Bool.and_eq_true] at this
  obtain ⟨c, hc, -⟩ := of_sat this.1
  exact ⟨this.2, c, hc⟩

/-- RegisterInstructionsCompleteAndFrame, ScalarResults. -/
theorem witness_scalar : ∀ i ∈ ([.smovi {}, .saddi {}, .ssubi {}, .smuli {}, .smuli { subop := 2 }, .sandi {}, .sori {}, .sxori {}, .sshli {},
    .sshri {}, .scmpi {}, .smini {}, .smaxi {}, .slea { type := 7, post := 1 }, .sclz {}, .sctz { subop := 1 }, .spopc { subop := 2 },
    .sbrev { subop := 3 }, .sbswap { subop := 4 }, .sext { type := 2 }, .sident { type := 1 }, .sident { type := 1, imm := 9 }] : List Instr),
    isRegisterOp i = true ∧ ∃ c, MayIssue i c here := of_all (by decide +kernel)
/-- VectorIntegerResults, PredicateResults. -/
theorem witness_vector_integer : ∀ i ∈ ([.vaddInteger {}, .vsubInteger {}, .vmulInteger {}, .vmulhi {}, .vmad {}, .vminInteger {},
    .vmaxInteger {}, .vabsInteger {}, .vnegInteger {}, .vand {}, .vor {}, .vxor {}, .vandn {}, .vshl {}, .vshr {}, .vcmpInteger {}, .vsel {},
    .vmov {}, .vdiv { post := 1 }, .vrem { post := 1 }, .vdot4 { type := 4 }, .vclz {}, .vpopc {}, .vbrev {}, .vbfx { func := 32 },
    .vbfi { func := 32 }, .vlaneid { type := 1 }, .vqop {}] : List Instr), isRegisterOp i = true ∧ ∃ c, MayIssue i c here := of_all (by decide +kernel)
/-- VectorFloatResults, PredicateResults, SpecialFunctionResults. -/
theorem witness_vector_float : ∀ i ∈ ([.vaddFloat { type := 8 }, .vsubFloat { type := 8 }, .vmulFloat { type := 8 }, .vfma { type := 8 },
    .vfms { type := 8 }, .vfnma { type := 8 }, .vminFloat { type := 8 }, .vmaxFloat { type := 8 }, .vcmpFloat { type := 8 },
    .vcmpFloat { type := 8, func := 6 }, .vabsFloat { type := 8 }, .vnegFloat { type := 8 }, .vfclass { type := 8 }, .vfdot2 { type := 9 },
    .vfscale { type := 8 }, .vfrint { type := 8 }, .vfcopysign { type := 8 }, .vrcp { type := 8 }, .vrsqrt { type := 8 }, .vsqrt { type := 8 },
    .vexp2 { type := 8 }, .vlog2 { type := 8 }, .vsin { type := 8 }, .vcos { type := 8 }, .vtanh { type := 8 }] : List Instr),
    isRegisterOp i = true ∧ ∃ c, MayIssue i c here := of_all (by decide +kernel)
/-- ConversionResults (one element to one, to two and from two), CrossLaneResults. -/
theorem witness_conversion_cross_lane : ∀ i ∈ ([.vcvt { type := 8, func := 0x080 }, .vcvt { type := 9, func := 0x080 },
    .vcvt { type := 8, func := 0x090 }, .vqblk { type := 8 }, .vqblk { type := 9 }, .vqcvt { type := 12, sb := 1 }, .vshfl {},
    .vshfl { func := 1 + 31 * 64 }, .vpswap {}, .vpswap { type := 8, func := 2 }, .vpswap { type := 9, func := 3 }, .vbcast {},
    .vbcast { sdst := 1, func := 31 }, .vvote { type := 1, sdst := 1 }, .vvote { type := 1, sdst := 1, func := 3 }, .vscan {},
    .vscan { func := 1 }, .vred { sdst := 1 }, .vred {}] : List Instr), isRegisterOp i = true ∧ ∃ c, MayIssue i c here := of_all (by decide +kernel)

/-! A world with memory: the address space's control block at 0, two objects, a cached page of 512 MiB with all permissions but execute,
and the first words of the bench written. -/

/-- Object 0 is a buffer, object 1 a render target of 8 by 8 pixels (R313, R315). -/
def objects : List Host.Cell := wrBytes (wrBytes [] 0x10000 (natBytes 8 0x100000 ++ natBytes 8 0x200000 ++ natBytes 16 0 ++ natBytes 4 0x01000000 ++
    natBytes 4 0x80000000 ++ natBytes 2 3)) 0x10040 (natBytes 8 0x300000 ++ natBytes 8 0x400000 ++ natBytes 16 0 ++ natBytes 4 0x21000000 ++
    natBytes 4 0x80000000 ++ natBytes 2 7 ++ natBytes 2 7)
def world : State :=
  { here with tlb := [⟨0, 0, 0, 2, 0x0D⟩], conf := { here.conf with owners := [(0, 0x80), (1, 0x80), (2, 0x80)] },
              mem := wrBytes objects 0 (natBytes 32 1 ++ natBytes 8 0x2000 ++ natBytes 8 0x10000) }
/-- The world with a command block at the bench address 0. -/
def withBlock (b : List Byte) : State :=
  (({ world with mem := wrBytes world.mem (benchKey 0 0) b }).setValid (benchKey 0 0) b.length 1)
def ok? (x : Except TrapInfo α) : Bool := match x with | .ok _ => true | .error _ => false
def cause? (x : Except TrapInfo α) : Option (Nat × DWord) := match x with | .ok _ => none | .error e => some (e.cause, e.tval)

def ldB : MFmt := { post := 1 }
def ldM : MFmt := { post := 1, space := 3 }
/-- A written command block with the common tail of R178: no barrier, no word, no queue. -/
def block (b : List Byte) : State :=
  withBlock (b ++ List.replicate (44 - b.length) 0 ++ natBytes 4 0xFFFFFFFF ++ natBytes 12 0 ++ natBytes 4 0xFFFF)
/-- The same with one active lane. -/
def lone : State := here.modSplit ⟨0, 0, 0⟩ fun x => { x with exm := 1 }

/-- LoadsIssue: from the bench and from memory. -/
theorem witness_loads : (∃ c, MayIssue (.ld ldB) c (block []) ∧ ok? (pieces (.ld ldB) ldB .read c (block [])) = true) ∧
    ∃ c, MayIssue (.ld ldM) c world ∧ ok? (pieces (.ld ldM) ldM .read c world) = true :=
  ⟨of_sat (by decide +kernel), of_sat (by decide +kernel)⟩
/-- StoresBufferOrWrite. -/
theorem witness_stores : Memory.wf here.mem = true ∧ (∃ c, MayIssue (.st ldB) c here ∧ ok? (pieces (.st ldB) ldB .write c here) = true) ∧
    ∃ c, MayIssue (.st ldM) c world ∧ (match pieces (.st ldM) ldM .write c world with
      | .ok l => l.all fun x => decide (keyRegion x.key < 4)
      | .error _ => false) = true :=
  ⟨by decide +kernel, of_sat (by decide +kernel), of_sat (by decide +kernel)⟩
/-- AccessTrapsArePrecise: one byte past the bench, and one byte off a word. -/
theorem witness_access_traps : (∀ off ∈ ([0x40000, 0x3FFFF] : List (BitVec 20)), ∃ c, MayIssue (.ld { ldB with offset := off }) c here ∧
      (cause? (pieces (.ld { ldB with offset := off }) { ldB with offset := off } .read c here)).isSome = true) ∧
    (∀ off ∈ ([0x40000, 0x3FFFF] : List (BitVec 20)), ∃ c, MayIssue (.st { ldB with offset := off }) c here ∧
      (cause? (pieces (.st { ldB with offset := off }) { ldB with offset := off } .write c here)).isSome = true) := by
  constructor <;> intro off h <;> fin_cases h <;> exact of_sat (by decide +kernel)
/-- TileMovesAndValidBits: sixteen bytes from the bench to the shop; a range of no bytes and of four. -/
theorem witness_tile_moves :
    let f : MFmt := { post := 1, offset := 1, mode := 1, size := 0 }
    let g : MFmt := { post := 1, mode := 4, size := 0 }
    let s := here.modWarp 0 0 fun w => { w with sregs := [(1, 4)] }
    (∃ c, MayIssue (.tmov f) c here ∧ (decide (scaAddr c.env f.base 0 % 16 = 0) && decide (scaAddr c.env f.data 1 + 16 ≤ (here.alloc c 1).2.1) &&
      decide (scaAddr c.env f.base 0 + 16 ≤ (here.alloc c 0).2.1)) = true) ∧
    (∀ i ∈ [Instr.bvclr g, .bvset g, .bvclr { g with data := 1 }, .bvset { g with data := 1 }], ∃ c, MayIssue i c s) ∧
    ∃ c, MayIssue (.bvtst { g with size := 2 }) c s ∧ ok? ((issued (.bvtst { g with size := 2 }) c s).allSpots c
      { mAcc { g with size := 2 } .read with atomic := true, need := .write }
      ((bitsSet (c.env.active 0)).map fun k => (k, mAddr c.env { g with size := 2 } k))) = true :=
  ⟨of_sat (by decide +kernel), of_each (by decide +kernel), of_sat (by decide +kernel)⟩

/-- AtomicsPerformAndComplete, AccessTrapsArePrecise: in the shop with one lane, on memory without and with a result, and misaligned. -/
theorem witness_atomics : ∀ op ∈ [AtomOp.add, .umin, .umax, .smin, .smax, .and, .or, .xor, .exch, .cas, .fadd, .fmin, .fmax, .ld, .st],
    let d : BitVec 9 := if op = .st then 1 else if op = .ld then 4 else 0
    let shop : AFmt := { post := 1, size := 2, space := 1, dst := d }
    let mem : AFmt := { post := 1, size := 2, space := 3, scope := 1, dst := d }
    (∃ c, MayIssue (atomRow op shop) c lone ∧ (!atomRefused shop c && !aRel shop && !aAcq shop && match atomPieces op shop c lone with
      | .ok [x] => [5, 6].contains (keyRegion x.key) && decide (x.n = aBytes shop)
      | _ => false) = true) ∧
    ∃ c, MayIssue (atomRow op mem) c world ∧ ok? (atomPieces op mem c world) = true := by
  intro op h
  fin_cases h <;> exact ⟨of_sat (by decide +kernel), of_sat (by decide +kernel)⟩

/-- FencesIssueAndHold: a fence, and a load while it is outstanding. -/
theorem witness_fences : (∃ c, MayIssue (.fence { post := 1, order := 3, scope := 3 }) c here) ∧
    let q : Pend := { id := 0, kind := .fence 2 4 0, ent := 0, lanes := 1 }
    let s := here.modWarp 0 0 fun w => { w with pend := [q] }
    (match s.issuer with
      | some c => fenceHolds (c.profile (.ld ldB)).head.op && !c.split.second && decide (q ∈ c.warp.pend) && decide (q.lanes &&& c.split.held ≠ 0)
      | none => false) = true :=
  ⟨of_sat' (by decide +kernel), by decide +kernel⟩
/-- BarrierArrivals (with a count and without, at a group's and a crew's barrier), PhaseBarriers (the last word of the bench). -/
theorem witness_barriers : ∀ i ∈ ([.barsync { post := 1, scope := 1 }, .barsync { post := 1, scope := 2, ident := 7, size := 1 },
    .bararv { post := 15, scope := 1, ident := 63 }, .bararv { post := 15, scope := 2, size := 1 }, .pbinit { post := 15 }, .pbarv { post := 1 }, .pbtx {},
    .pbwait { post := 1 }] : List Instr), ∃ c, MayIssue i c here := of_each (by decide +kernel)
theorem witness_phase_barrier_boundary :
    let s := here.modWarp 0 0 fun w => { w with sregs := [(1, 0x3FFF8)] }
    ∃ c, MayIssue (.pbtx { addr := 1 }) c s ∧ decide (s.soft = [] ∧ s.poison = [] ∧ (c.env.ssrc 1).toNat % 8 = 0 ∧ (c.env.ssrc 1).toNat + 8 ≤ c.grp.benchSize) = true :=
  of_sat (by decide +kernel)

/-- AtomicsPerformAndComplete: in deterministic mode, on memory without a result, with room for what is held; with no active lane; a CAS. -/
theorem witness_atomics_held_and_idle :
    let f : AFmt := { post := 1, size := 2, space := 3, scope := 1 }
    let g : AFmt := { f with dst := 1 }
    let ok := fun op (f : AFmt) s (P : Issuer → Bool) => sat (atomRow op f) s fun c => !atomRefused f c && ok? (atomPieces op f c s) && P c
    let determ := world.modTask 0 fun k => { k with image := k.image.set 54 1 }
    let idle := world.modSplit ⟨0, 0, 0⟩ fun x => { x with exm := 0 }
    ok .add { f with dst := 4 } idle (fun c => decide (c.env.active 0 = 0)) = true ∧ ok .st g idle (fun c => decide (c.env.active g.guard = 0)) = true ∧
    ok .st g determ (fun c => c.task.determ && !aRets g && !c.grp.full [2 ^ 80]) = true ∧ ok .st g world (fun c => !c.task.determ && !aRets g) = true := by
  decide +kernel

def waitF (space : BitVec 3) : AFmt := { post := 1, space := space, size := 2 }
/-- A queue in the shop with room for one value, empty and full (R162). -/
def queue (tail : Nat) : State := here.wr (match here.issuer with | some c => (here.alloc c 1).1 | none => 0) (natBytes 4 0 ++ natBytes 4 tail ++ natBytes 4 1)
/-- A warp that waits in the shop: a sleeper of its word, or a pop of its queue. -/
def waiting (pop : Bool) : State :=
  let at_ := match here.issuer with | some c => (here.alloc c 1).1 | none => 0
  let s := ({ queue 0 with fresh := 5 } : State).modWarp 0 0 fun w => { w with pend := [{ id := 2, kind := .waiter ⟨.shop, 0⟩ at_, ent := 0, lanes := 1 }] }
  s.modPlace ⟨.shop, 0⟩ fun p => { p with waiters := [⟨at_, 0, 0, 2, 8, pop⟩] }
/-- WaitAndWakeInScratchpads, QueuesInScratchpads: a waiter that a WAKE wakes, and one that a QPUSH hands its value. -/
theorem witness_waiters : ∀ pop ∈ [false, true], let s := waiting pop
    let f := { waitF 1 with size := 0, dst := 4 }
    let k : Fin 5 := if pop then 2 else 1
    s.soft = [] ∧ s.poison = [] ∧ Memory.wf s.mem = true ∧ sat (waitRow k f) s (fun c => match waitPiece k f c s with
      | .ok (x :: _) => (s.place x.unit).waiters.any fun w => w.addr = x.key && w.queue == pop && decide (w.pid < s.fresh) &&
          ((s.warp? w.gid w.wid).bind (·.pend? w.pid)).isSome
      | _ => false) = true := by decide +kernel
/-- WaitsAndQueuesOnMemory, WaitAndWakeInScratchpads, QueuesInScratchpads. -/
theorem witness_waits : ∀ k : Fin 5,
    let f := fun sp : BitVec 3 => if k = 0 then waitF sp else { waitF sp with size := 0 }
    (∃ c, MayIssue (waitRow k (f 3)) c world ∧ (match waitPiece k (f 3) c world with | .ok (x :: _) => decide (x.unit.kind = .glazier) | _ => false) = true) ∧
    ∃ c, MayIssue (waitRow k (f 1)) c (queue 1) ∧ (match waitPiece k (f 1) c (queue 1) with
      | .ok (x :: _) => decide (keyRegion x.key = 5) && decide (keyRegion (x.key + 2 ^ 32) ≤ 6) && decide (rdNat (queue 1).mem (x.key + 8) 4 = 1) &&
          decide (rdNat (queue 1).mem (x.key + 4) 4 = 1) && decide (rdNat (queue 1).mem (x.key + 12) 4 = 0)
      | _ => false) = true := by
  intro k
  fin_cases k <;> exact ⟨of_sat (by decide +kernel), of_sat (by decide +kernel)⟩
/-! Control flow. -/

/-- A state changed in its one warp, or its one split. -/
def withWarp (f : Warp → Warp) (s : State := here) : State := s.modWarp 0 0 f
def withSplit (f : Split → Split) (s : State := here) : State := s.modSplit ⟨0, 0, 0⟩ f

/-- BranchGoesToTarget: always, on a scalar that is not zero and on one that is; a target slot that does not exist. -/
theorem witness_branches : (∀ i ∈ ([.bra {}, .bra { kind := 1 }, .bra { kind := 2 }] : List Instr), ∃ c, MayIssue i c here) ∧
    (∃ c, MayIssue (.bra {}) c here ∧ (!(issued (.bra {}) c here).targetBad c true (directTarget c.split.pc {})) = true) ∧
    ∃ c, MayIssue (.bra { tslot := 5 }) c here ∧ (issued (.bra { tslot := 5 }) c here).targetBad c true (directTarget c.split.pc { tslot := 5 }) = true :=
  ⟨of_each (by decide +kernel), of_sat (by decide +kernel), of_sat (by decide +kernel)⟩
/-- BsplitAndSwitchDivide: no lane, all lanes and lane 0 alone; with room, and without. -/
theorem witness_divisions :
    let s := withWarp fun w => { w with preds := [(0, 1)] }
    let full := withWarp (s := s) fun w => { w with table := w.table ++ (List.range 14).map fun k => (k + 1, .split {}) }
    let div := fun (s : State) (f : BFmt) (c : Issuer) => decide (c.split.exm &&& (if f.kind = 0 then c.env.pred 0 else ~~~ c.env.pred 0) ≠ 0) &&
      decide (c.split.held &&& ~~~ (c.split.exm &&& (if f.kind = 0 then c.env.pred 0 else ~~~ c.env.pred 0)) ≠ 0) &&
      !(issued (.bsplit f) c s).targetBad c true (directTarget c.split.pc f)
    (∃ c, MayIssue (.bsplit {}) c here ∧ decide (c.split.exm &&& c.env.pred 0 = 0) = true) ∧
    (∃ c, MayIssue (.bsplit { kind := 1 }) c here ∧ decide (c.split.held &&& c.env.pred 0 = 0) = true) ∧
    (∃ c, MayIssue (.bsplit {}) c s ∧ (div s {} c && decide (c.warp.table.length ≤ 14)) = true) ∧
    ∃ c, MayIssue (.bsplit {}) c full ∧ (div full {} c && decide (14 < c.warp.table.length)) = true :=
  ⟨of_sat (by decide +kernel), of_sat (by decide +kernel), of_sat (by decide +kernel), of_sat (by decide +kernel)⟩
/-- SWITCH with a case line that can be read: execute permission on its page. -/
theorem witness_switch :
    let s := { world with tlb := [⟨0, 0, 0x400000000000 / 2 ^ 29, 2, 0x15⟩] }
    ∃ c, MayIssue (.switch {}) c s ∧ (decide (c.split.exm &&& ~~~ c.split.held = 0) && match (issued (.switch {}) c s).readCase c (lineAt c.split.pc 0).toNat with
      | .text b => !(issued (.switch {}) c s).targetBad c true ((lineAt c.split.pc 0 + (((BitVec.ofNat 32 (fieldNat b 32 4)) &&& 0xFFFFFFF8#32).signExtend 64 <<< 3)) &&& 0x1FFFFFFFFFFFFFF#64)
      | _ => false) = true := of_sat (by decide +kernel)
/-- JoinReconverges: no frame; a frame that another split still owes, and one that this split completes; a serial record with a group
left, and with none. -/
theorem witness_joins :
    let under := fun (expect : Mask) => withSplit (fun x => { x with frame := some 1 })
      (withWarp fun w => { w with table := w.table ++ [(1, .frame { token := 7, wb := 0, expect := expect })] })
    let serial := fun rest => withSplit (fun x => { x with chain := [3] })
      (withWarp fun w => { w with records := [(3, { rest := rest, held := 0xFFFFFFFF, exm := 0xFFFFFFFF, dix := 0, token := some 7 })] })
    (∃ c, MayIssue (.join { func := 7 }) c here ∧ decide (c.split.chain = [] ∧ c.split.frame = none) = true) ∧
    (∀ e ∈ [0x1FFFFFFFF, 0xFFFFFFFF], ∃ c, MayIssue (.join { func := 7 }) c (under e) ∧ decide (c.split.chain = [] ∧ c.split.frame = some 1 ∧
      flook 1 c.warp.table = some (.frame { token := 7, wb := c.split.wb, expect := e })) = true) ∧
    ∀ r ∈ [[], [⟨0xF, 0xF, 0x400000000001, none, false⟩]], ∃ c, MayIssue (.join { func := 7 }) c (serial r) ∧ decide (c.split.chain = [3] ∧
      (flook 3 c.warp.records).map (fun q => (q.rest, q.token, q.wb, q.again)) = some (r, some 7, c.split.wb, false)) = true := by
  refine ⟨of_sat (by decide +kernel), fun e h => ?_, fun r h => ?_⟩ <;> fin_cases h <;> exact of_sat (by decide +kernel)
/-- ExitRetires, BrxScatters (one target, and two: lane 0 alone, in the registers v2 and v3), CallsPushAndSlide (with a slide of 0 and of
240; a stack with no room), ReturnsAndLinkWrites (an empty stack, and one link word). -/
theorem witness_exit_brx :
    let pc := fun l => 0x400000000000 + if l = 0 then 0 else 1
    let two := withWarp fun w => { w with vregs := ((List.range 32).map fun l => (2 * 64 + l, BitVec.ofNat 32 (pc l))) ++ (List.range 32).map fun l => (3 * 64 + l, 0x4000) }
    let at_ := fun (s : State) (c : Issuer) l => let t := BitVec.ofNat 64 (c.env.src64 2 false l); decide (t.toNat = pc l) && !(issued (.brx { cond := 2 }) c s).targetBad c true t
    (∃ c, MayIssue (.exit {}) c here ∧ decide (c.split.frame = none ∧ c.split.chain = [] ∧ c.split.handler = none ∧ c.warp.table.length = 1) = true) ∧
    (∃ c, MayIssue (.brx {}) c here ∧ (!(issued (.brx {}) c here).targetBad c true (BitVec.ofNat 64 (c.env.src64 0 false 0))) = true) ∧
    ∃ c, MayIssue (.brx { cond := 2 }) c two ∧ ((List.range 32).all (at_ two c) && decide (c.warp.table.length ≤ 15 ∧ c.split.chain = [])) = true :=
  ⟨of_sat (by decide +kernel), of_sat (by decide +kernel), of_sat (by decide +kernel)⟩
theorem witness_calls :
    let deep := withWarp fun w => { w with depth := (List.range 32).map fun l => (l, 4092) }
    (∀ n ∈ ([0, 15] : List (BitVec 12)), ∃ c, MayIssue (.call { func := n }) c here ∧
      (!(issued (.call { func := n }) c here).targetBad c true (directTarget c.split.pc { func := n }) && decide (64 * n.toNat + 8 ≤ c.task.stack)) = true) ∧
    (∃ c, MayIssue (.callx { func := 15 }) c here ∧ (!(issued (.callx { func := 15 }) c here).targetBad c true (BitVec.ofNat 64 (c.env.src64 0 true 0))) = true) ∧
    ∃ c, MayIssue (.call {}) c deep ∧ (!(issued (.call {}) c deep).targetBad c true (directTarget c.split.pc {}) &&
      decide (c.split.held.getLsbD 0 = true ∧ c.task.stack < c.depth 0 + 8)) = true := by
  refine ⟨fun n h => ?_, of_sat (by decide +kernel), of_sat (by decide +kernel)⟩
  fin_cases h <;> exact of_sat (by decide +kernel)
/-- ReturnsAndLinkWrites: two links that differ, lane 0's and the others'. -/
theorem witness_return_ways :
    let s0 := withWarp fun w => { w with depth := (List.range 32).map fun l => (l, 8) }
    let link := fun l => 0x400000000000 + if l = 0 then 0 else 1
    let s := match s0.issuer with | some c => (List.range 32).foldl (fun s l => s.wr (c.stackKey l 0) (natBytes 8 (link l))) s0 | none => s0
    sat (.ret {}) s (fun c => (List.range 32).all (fun l => !c.stackEmpty l && decide (c.popped s l (c.depth l - 8) 8 = link l) &&
      !(issued (.ret {}) c s).targetBad c false (BitVec.ofNat 64 (link l))) && decide (c.split.chain = [] ∧ c.warp.table.length ≤ 15 ∧ 0 < c.warp.nregs)) = true := by
  decide +kernel
theorem witness_returns :
    let s0 := withWarp fun w => { w with depth := (List.range 32).map fun l => (l, 8) }
    let s := match s0.issuer with | some c => (List.range 32).foldl (fun s l => s.wr (c.stackKey l 0) (natBytes 8 0x400000000000)) s0 | none => s0
    (∃ c, MayIssue (.ret {}) c here ∧ c.stackEmpty 0 = true) ∧
    (∃ c, MayIssue (.ret {}) c s ∧ ((List.range 32).all (fun l => !c.stackEmpty l && decide (rdNat s.mem (c.stackKey l (c.depth l - 8)) 8 = 0x400000000000)) &&
      !(issued (.ret {}) c s).targetBad c false 0x400000000000) = true) ∧
    ∃ c, MayIssue (.lnkw {}) c s ∧ (Memory.wf s.mem && (List.range 32).all fun l => !c.stackEmpty l && decide (c.depth l ≤ c.task.stack ∧ c.env.src64 0 false l < 2 ^ 57)) = true :=
  ⟨of_sat (by decide +kernel), of_sat (by decide +kernel), of_sat (by decide +kernel)⟩
/-! System instructions, traps, matrix instructions and engines. -/

/-- The task's flags (R287): deterministic mode is 1, a control task 8. -/
def withFlags (n : Byte) (s : State := here) : State := s.modTask 0 fun k => { k with image := k.image.set 54 n }

/-- SystemRegisterInstructions: every register, also in deterministic mode with two splits, and LSYNC in both modes. -/
theorem witness_system :
    let two := withFlags 1 (withWarp fun w => { w with table := w.table ++ [(1, .split { held := 1#64 <<< 40 })] })
    (∀ i ∈ ([.nop {}, .nop { post := 1 }, .seal {}, .sysrdSticky { sysreg := 7, post := 1 }, .sysrdLclk { sysreg := 3, post := 1 }, .syswrExm {},
      .syswrSticky { sysreg := 7 }, .syswrFpctl { sysreg := 5 }, .lsync { post := 1 }, .logmk { imm := 0xFFFF }] : List Instr), ∃ c, MayIssue i c here) ∧
    (∀ n ∈ ([0, 1, 2, 4, 5, 6, 8, 9, 10, 11, 12] : List (BitVec 12)), ∃ c, MayIssue (.sysrd { sysreg := n, post := 1 }) c here) ∧
    (∀ n ∈ ([2, 4, 6, 8, 9, 10, 11] : List (BitVec 12)), ∃ c, MayIssue (.syswr { sysreg := n }) c here) ∧
    ∀ i ∈ ([.sysrdSticky { sysreg := 7, post := 1 }, .sysrdLclk { sysreg := 3, post := 1 }, .syswrSticky { sysreg := 7 }, .lsync { post := 1 }] : List Instr),
      (match two.issuer with | some c => c.task.determ && decide (1 < c.warp.splits.length) | none => false) = true ∧ ∃ c, MayIssue i c two := by
  refine ⟨of_each (by decide +kernel), fun n h => ?_, fun n h => ?_, of_all (by decide +kernel)⟩ <;> fin_cases h <;> exact of_sat' (by decide +kernel)
/-- SpawnAndEventInstructions, PublishSampleAndPackets: a buffer in which held effects leave no room, and one with room for one. -/
theorem witness_room_for_held_effects : ∀ n ∈ [2047, 2048],
    let s := (withFlags 1).modGroup 0 fun g => { g with held := List.replicate n (.spawn 0) }
    sat (.spawn { post := 1 }) s (fun c => c.task.determ && c.grp.full [2 ^ 80] == (n == 2048)) = true := by decide +kernel
/-- MailboxInstructions (a full ring, a message, an odd address and Dallum's mailbox), SpawnAndEventInstructions (deterministic and not,
queue 255 and queue 0). -/
theorem witness_mailboxes_events :
    let s := { here with parts := [(0, { boxes := [(0, { inbound := [(List.replicate 64 7, false)], outbound := List.replicate 16 [] })] })],
                         conf := { here.conf with dallum := [(0, 9)] } }
    let odd := withWarp (s := s) fun w => { w with sregs := [(1, 4)] }
    let ctl := withFlags 8
    (∀ i ∈ ([.mbxsend { post := 1 }, .mbxrecv { post := 1 }, .mbxsend { post := 1, imm := 1 }, .mbxrecv { post := 1, imm := 255 },
      .mbxsend { post := 1, imm := 9 }, .mbxrecv { post := 1, imm := 9 }] : List Instr), ∃ c, MayIssue i c s) ∧
    (∀ i ∈ ([.mbxsend { post := 1, sa := 1 }, .mbxrecv { post := 1, sa := 1 }] : List Instr), ∃ c, MayIssue i c odd) ∧
    (∀ i ∈ ([.spawn { post := 1 }, .evput { post := 1 }, .evput { post := 1, imm := 255 }, .evget { post := 1 }, .evget { post := 1, imm := 255 }] : List Instr),
      (∃ c, MayIssue i c here) ∧ ∃ c, MayIssue i c ctl) ∧
    ∃ c, MayIssue (.spawn { post := 1 }) c (withFlags 1) := by
  refine ⟨of_each (by decide +kernel), of_each (by decide +kernel), fun i h => ?_, of_sat' (by decide +kernel)⟩
  fin_cases h <;> exact ⟨of_sat' (by decide +kernel), of_sat' (by decide +kernel)⟩
/-- TrapEntryAndReturn: a handler with a slide of 0 and of 240 registers, a split with nothing outstanding; the split of a handler. -/
theorem witness_trap_entry : (∀ h ∈ [0, 15], (match (withWarp fun w => { w with trapbase := BitVec.ofNat 64 (h * 2 ^ 57 + 0x1000) }).issuerOf ⟨0, 0, 0⟩ with
      | some c => decide (c.split.handler = none) && !c.trapWaits && decide (16 * h < c.warp.nregs) && decide (c.depth 31 + 64 * h ≤ c.task.stack) &&
          decide (c.warp.trapbase &&& 0x1FFFFFFFFFFFFFF#64 ≠ 0)
      | none => false) = true) ∧ Memory.wf here.mem = true ∧ (here.issuerOf ⟨0, 0, 0⟩).isSome = true ∧ ∀ w, Canon 0 (loneWarp 0 w).preds := by
  refine ⟨fun h hh => ?_, by decide +kernel, by decide +kernel, fun w => trivial⟩
  fin_cases hh <;> decide +kernel
def handling (held : Mask) : State := withSplit (fun x => { x with handler := some 5 }) (withWarp fun w => { w with tframes := [(5,
  { pc := 0x400000000000, held := held, exm := held, dix := 0, wb := 0, frame := none, chain := [], preds := [], run := none, slide := 16, floors := [] })] })
/-- TrapEntryAndReturn, TrapInstructionsAndFaults. -/
theorem witness_trap_instructions : (∀ i ∈ ([.trap { imm := 0xFFFF }, .trapBkpt { imm := 0x800000 }] : List Instr), ∃ c, MayIssue i c here) ∧
    (∀ m ∈ ([0xFFFFFFFF, 0x1] : List Mask), ∃ c, MayIssue (.tret {}) c (handling m) ∧
      decide ((flook 5 c.warp.tframes).map (·.held) = some m ∧ c.split.handler = some 5) = true) ∧
    (match here.issuer with | some c => canIssue (.unassignedOpcode {}) c here && decide (c.split.run.count < 24) | none => false) = true ∧
    (match (withWarp fun w => { w with pend := [{ id := 0, kind := .fixed, ent := 0, lanes := 1, writes := [.sca 0 1] }] }).issuerOf ⟨0, 0, 0⟩ with
      | some c => c.trapWaits && decide (c.split.handler = none)
      | none => false) = true := by
  refine ⟨of_each (by decide +kernel), fun m h => ?_, by decide +kernel, by decide +kernel⟩
  fin_cases h <;> exact of_sat (by decide +kernel)

/-- A group whose slots have a state, and whose tiles have one. -/
def slotted (slot tile : Nat) (s : State := here) : State := s.modGroup 0 fun g =>
  { g with slots := if slot = 0 then [] else (List.range 32).map fun k => (k, { state := slot, phys := k }),
           tiles := if tile = 0 then [] else (List.range 8).map fun k => (k, { state := tile, pred := 3 }) }
/-- SlotInstructions, TileProductsQueue, TileTransfersAndStatus: every slot and tile state, the first and the last numbers. -/
theorem witness_slots : ∀ st ∈ [0, 1, 2, 3], ∀ i ∈ ([.mclaim { post := 1 }, .mclaim { post := 1, slota := 31 }, .mclaim { post := 1, func := 31 },
    .mfree { post := 1 }, .mfree { post := 1, slota := 31 }, .mfill { post := 1, slota := 31, fmta := 8 }, .mfill { post := 1, pa := 1 }] : List Instr),
    ∃ c, MayIssue i c (withWarp (s := slotted st 0) fun w => { w with sregs := [(1, 0x3FFC0)] }) := by
  intro st h
  fin_cases h <;> exact of_each (by decide +kernel)
theorem witness_tile_products : ∀ st ∈ [0, 1, 2, 3], ∀ ts ∈ [0, 1, 2], ∀ i ∈ ([.mma { post := 1, fmta := 8, fmtb := 8 },
    .mma { post := 1, fmta := 8, fmtb := 8, func := 3, slota := 31, slotb := 31, acc := 7 }, .mma { post := 1, fmta := 8, fmtb := 8, prov := 64 },
    .mma { post := 1, fmta := 8, fmtb := 8, prov := 67, acc := 6 }, .mmas { post := 1, fmta := 4, fmtb := 4 }] : List Instr),
    ∃ c, MayIssue i c (slotted st ts) := by
  intro st h ts h'
  fin_cases h <;> fin_cases h' <;> exact of_each (by decide +kernel)
theorem witness_tiles : ∀ ts ∈ [0, 1, 2], ∀ i ∈ ([.mzero { post := 1, acc := 7 }, .mzero { post := 1, func := 1 }, .maccld { post := 1, pb := 1 },
    .maccld { post := 1, pa := 2 }, .maccst { post := 1, pb := 1 }, .maccst { post := 1, func := 1 }, .mresolve { post := 1 }, .mstat { post := 1 },
    .mstat { post := 1, func := 1, pa := 3 }] : List Instr),
    ∃ c, MayIssue i c (withWarp (s := slotted 1 ts) fun w => { w with sregs := [(1, 512), (2, 8), (3, 0x3FF80)] }) := by
  intro ts h
  fin_cases h <;> exact of_each (by decide +kernel)
/-- The instruction may issue, its command block is read and has a good tail, and the object that it names passes its checks. -/
def commands (i : Instr) (f : XFmt) (n : Nat) (s : State) : Bool := sat i s fun c =>
  (match readBlock c f n (issued i c s) with
    | .ok (_, b, _) => decide (blkBarrier b = 0xFFFFFFFF ∧ blkWord b % 4 = 0 ∧ blkQueue b = 0xFFFF)
    | .error _ => false) && (objFault (issued i c s) i c (s.objEntry c.task.asid f.obj.toNat)).isNone
/-- CopiesLaunch: sixteen bytes to the bench and to a draft, an operand to a slot that is CLAIMED, a follow-on, and 65,536 rows of
sixteen bytes. -/
theorem witness_copies :
    let mma : XFmt := { dist := 0, fmta := 8, fmtb := 8 }
    let go := fun func fmta b => commands (.cpy { post := 1, func := func, fmta := fmta }) { post := 1, func := func, fmta := fmta } 64 (slotted 1 0 (block b))
    go 0 0 (natBytes 16 0 ++ natBytes 4 16) = true ∧ go 8 0 (natBytes 16 0 ++ natBytes 4 16) = true ∧
    go 4 8 (natBytes 16 0 ++ natBytes 4 12288) = true ∧
    commands (.gather { post := 1 }) { post := 1 } 64 (block (natBytes 20 0 ++ natBytes 4 65536 ++ natBytes 4 16)) = true ∧
    (match here.issuer with
      | some c => (match followOf c.grp (natBytes 32 0 ++ natBytes 12 ((encode (.mma mma)).getD 0).toNat ++ natBytes 20 0) with
        | .ok i => decide (i = .mma mma)
        | .error _ => false)
      | none => false) = true := by decide +kernel
/-- EngineCommandsLaunch: peer set 255, kind 3; a window of 512 MiB; two sources and eight; a draw with method 15. -/
theorem witness_engines :
    let t := withWarp (s := block (natBytes 24 0 ++ natBytes 4 1)) fun w => { w with sregs := [(1, 1)] }
    commands (.coll { post := 1, pb := 1 }) { post := 1, pb := 1 } 64 t = true ∧ objDraft (t.objEntry 0 1) ≠ 0 ∧
    sat (.rwinOpen { post := 1 }) (block (natBytes 8 0 ++ natBytes 8 (512 * 2 ^ 20) ++ natBytes 4 255)) = true ∧
    sat (.rwinClose { post := 1, func := 1 }) (block (natBytes 8 0 ++ natBytes 8 64 ++ natBytes 4 0)) = true ∧
    commands (.rstream { post := 1 }) { post := 1 } 128
      (withBlock (natBytes 8 0 ++ natBytes 4 8 ++ [2, 0, 0, 0] ++ natBytes 28 0 ++ natBytes 4 0xFFFFFFFF ++ natBytes 12 0 ++ natBytes 4 0xFFFF ++ natBytes 64 0)) = true ∧
    commands (.rast { post := 1, obj := 1 }) { post := 1, obj := 1 } 64 (block (natBytes 24 0 ++ natBytes 2 15)) = true ∧
    objClass (world.objEntry 0 1) = 2 ∧ objKeyed (world.objEntry 0 1) = false ∧ objDraft (world.objEntry 0 1) ≠ 0 := by decide +kernel
/-- PublishSampleAndPackets: also in deterministic mode; one payload word and eight. -/
theorem witness_packets : (∀ i ∈ ([.publish { post := 1 }, .publish { post := 1, obj := 1 }, .sample { post := 1, func := 0 }, .sample { post := 1, func := 1 },
      .fpost { post := 1, obj := 1 }, .fpost { post := 1, obj := 1, func := 7 }, .fpost { post := 1, obj := 1, func := 0x78 },
      .fnull { post := 1, obj := 1 }] : List Instr), (∃ c, MayIssue i c world) ∧ ∃ c, MayIssue i c (withFlags 1 world)) ∧
    objDraft (world.objEntry 0 0) ≠ 0 ∧ objValid (world.objEntry 0 0) = true ∧ objValid (world.objEntry 0 1) = true := by
  refine ⟨fun i h => ?_, by decide +kernel, by decide +kernel, by decide +kernel⟩
  fin_cases h <;> exact ⟨of_sat' (by decide +kernel), of_sat' (by decide +kernel)⟩
/-- MethodInstructions: on a core, and in a run on a glazier. -/
theorem witness_methods : (match here.issuer with
      | some c => canIssue (.mend {}) c here && decide (c.split.run.count < 24 ∧ lowest (ckCommon (.mend {}) c) = none)
      | none => false) = true ∧
    (let r : MethodRun := { lanes := 1, exm := 1 }
    lowest (ckMld r.env { func := 18 }) = none ∧ lowest (ckMld r.env { func := 19 }) ≠ none ∧ lowest (ckMst r.env { func := 3 }) = none ∧
    lowest (ckMethod {} false false true 0) = none ∧ lowest (ckMethod {} false false false 0) = none ∧
    lowest (ckMethod { sat := 1 } false false false 0) ≠ none) := by decide +kernel
/-- IssueConditions: a wait mask that names a flag in flight, a run of 24 instructions, an encoding with two faults, a tag that forbids the
read, and no split at all. -/
theorem witness_issue_conditions :
    let busy := withWarp fun w => { w with flags := [(0, 1)] }
    (match busy.issuer with | some c => !canIssue (.nop { wait := 1 }) c busy | none => false) = true ∧
    (match (withSplit fun x => { x with run := { count := 24 } }).issuer with | some c => decide (24 ≤ c.split.run.count) | none => false) = true ∧
    (match here.issuer with
      | some c => decide ((true, 2) ∈ checks (.smovi { rsv := 1, type := 7 }) c ∧ (true, 5) ∈ checks (.smovi { rsv := 1, type := 7 }) c)
      | none => false) = true ∧
    ((withFlags 1 (withWarp fun w => { w with tags := [(0, ⟨some 1, false⟩)], table := w.table ++ [(1, .split {})] })).issuer.map
      fun c => c.task.determ && !tagsOk (.saddi {}) c) = some true ∧
    ({ here with cur := .idle } : State).issuer = none := by decide +kernel
/-! ## Hypotheses that can be met: events -/

/-- The warp has one outstanding operation. -/
def pending (q : Pend) (s : State := here) : State := withWarp (s := s) fun w => { w with pend := [q] }
def op (kind : PendKind) : Pend := { id := 0, kind := kind, ent := 0, lanes := 1, due := 6, flag := some 1 }
/-- OperationsComplete: in the cycle before the operation is due, and in its cycle, with no piece left and with one. -/
theorem witness_operations : ∀ k ∈ ([.fixed, .load, .long, .store 0, .atomic false, .posts] : List PendKind), ∀ left ∈ [0, 1], ∀ now ∈ [5, 6],
    let s := { pending { op k with left := left } with cycle := now }
    ∃ w q, Awaits s 0 0 0 w q ∧ q.kind = k ∧ q.left = left ∧ q.due = 6 ∧ s.cycle = now := by
  intro k hk left hl now hn
  fin_cases hk <;> exact ⟨_, _, ⟨rfl, rfl, rfl, rfl, rfl⟩, rfl, rfl, rfl, rfl⟩
/-- A barrier that waits for every member, and one that has its only member. -/
theorem witness_barrier_phase : ∀ n ∈ [0, 1], ∀ l ∈ ([[], [⟨0, 0, 1, 0⟩]] : List (List Arrival)),
    let s := here.modGroup 0 fun g => { g with bars := [(3, { govern := some n, arrived := l })] }
    (State.barrier s false 0 3).govern = some n ∧ s.barrierMembers false 0 ≠ [] ∧ (s.group? 0).isSome = true := by decide +kernel
/-- LinesPortsAndTraps: a line on a page that may be executed, a line on none, a program counter that is invalid. -/
def lineAt0 (leaf : DWord) (pc : DWord) : State :=
  withSplit (s := { world with tlb := [⟨0, 0, 0x40000000, 0, leaf⟩] }) fun x => { x with line := none, text := [], pc := pc, bound := none }
def unbound : State := { withSplit (fun x => { x with bound := none }) with cores := [], issuing := [] }
theorem witness_lines :
    let reads := fun (s : State) (pc : Nat) (P : LineRead → Bool) => (s.issuerOf ⟨0, 0, 0⟩).map fun c => c.fetching && !c.saved s && !pcBad c.split.pc && decide (c.split.text = []) && P (s.readLine c pc)
    reads (lineAt0 0x20015 0x400000000000) 0x400000000000 (fun r => match r with | .text b => parityOk b && lineWordOk b | _ => false) = some true ∧
    reads (lineAt0 0x20005 0x400000000000) 0x400000000000 (fun r => match r with | .denied => true | _ => false) = some true ∧
    reads (lineAt0 0x20015 0x400000010000) 0x400000010000 (fun r => match r with | .fault => true | _ => false) = some true ∧
    reads { lineAt0 0x20015 0x400000000000 with mem := [(0x20000, 1)] } 0x400000000000 (fun r => match r with | .text b => !parityOk b | _ => false) = some true ∧
    ((lineAt0 0x20015 0x400000000008).issuerOf ⟨0, 0, 0⟩).map (fun c => c.fetching && !c.saved (lineAt0 0x20015 0x400000000008) && pcBad c.split.pc && decide (c.split.text = [])) = some true ∧
    (let s := (lineAt0 0x20015 0x400000000000).modTask 0 fun k => { k with saving := true }
     (s.issuerOf ⟨0, 0, 0⟩).map (·.saved s) = some true) ∧
    flook 0 (unbound.core 0).ports = none ∧ unbound.pick (unbound.baySplits 0 0) = some ⟨0, 0, 0⟩ := by decide +kernel
/-- A parked split that may resume, a trap that waits, a deferred trap at a run boundary. -/
theorem witness_resumes :
    let t : TrapInfo := { cause := 0x13, deferred := true }
    let d : Deferred := ⟨0, 9, 1, t, none⟩
    let s := here.modGroup 0 fun g => { g with deferred := [d] }
    (∀ saving ∈ [false, true], ((s.modTask 0 fun k => { k with saving := saving }).taskOf ((s.group? 0).getD { task := 0, index := 0, core := 0, crew := 0 })).map (·.saving) = some saving) ∧
    (({ withSplit fun x => { x with parked := some 0 } with woken := [⟨0, 0, 0⟩] } : State).splitAt ⟨0, 0, 0⟩).isSome = true ∧
    ((withSplit fun x => { x with trap := some t }).issuerOf ⟨0, 0, 0⟩).map (fun c => decide (c.split.trap = some t) && !c.trapWaits) = some true ∧
    ((s.warp? 0 0).bind fun w => (d.lane w).bind fun l => (w.holder l).map fun p => !d.waitsFor p.2 &&
      decide (p.1 = 0 ∧ p.2.run.count = 0 ∧ p.2.parked = none ∧ p.2.trap = none ∧ p.2.second = false)) = some true := by decide +kernel

/-- A matrix command of the one warp. -/
def matrixCmd (k : MKind) : MCmd :=
  { id := 1, kind := k, gid := 0, wid := 0, lanes := 1, flag := none, slotB := 1, lslotB := 1, fmta := 8, fmtb := 8, kext := 24, pid := 0, pitch := 512 }
def onCore (f : Core → Core) (s : State := here) : State := s.modCore 0 f
/-- MatrixCommandsRun: each kind of head, alone at its core. -/
theorem witness_matrix_start : ∀ k ∈ [MKind.mma, .mzero, .maccld, .maccst, .mresolve], ∀ q ∈ [0, 4],
    let m := { matrixCmd k with commit := true }
    let s := onCore fun c => { c with queues := [(q, [m])] }
    (s.core 0).arrayFrom ≤ s.cycle ∧ m.sub = 0 ∧ m.restores = false ∧ (s.core 0).running = none ∧ flook q (s.core 0).queues = some [m] ∧ (∀ p < 5, p ≠ q → (flook p (s.core 0).queues).getD [] = []) ∧
    eligible s 0 m = true ∧ (s.group? 0).isSome = true := by decide +kernel
theorem witness_subtiles : ∀ sub ∈ [0, 15], ∀ again ∈ [false, true],
    let m := { matrixCmd .mma with sub := sub, reran := again }
    let s := { (onCore fun c => { c with running := some (0, m) }).modTask 0 fun k => { k with saving := again } with cycle := 1000000 }
    (s.group? 0).isSome = true ∧ s.savingCmd 0 m = again ∧ 1 % (2 ^ 31 - 1) ≠ 0 ∧
    (s.core 0).running = some (0, m) ∧ m.ends + m.cycles s.stage * (m.sub + 1) ≤ s.cycle + 1 ∧ m.rows ≤ 128 ∧ m.cols ≤ 128 ∧ Memory.wf s.mem = true := by
  decide +kernel
/-- MatrixCommandsComplete: each kind; a discard with a snapshot and without; a fill of a slot with headers. -/
theorem witness_matrix_ends : (∀ k ∈ [MKind.mma, .mmas, .mzero, .maccld, .maccst, .mresolve],
      let s := onCore (fun c => { c with finishing := [matrixCmd k] }) (pending { op .engine with kind := .engine })
      (s.core 0).finishing.find? (fun c => decide (c.ends ≤ s.cycle)) = some (matrixCmd k) ∧ (s.group? 0).map (·.core) = some 0 ∧
      s.poison = [] ∧ s.soft = [] ∧ Memory.wf s.mem = true ∧ ((s.warp? 0 0).bind fun w => (w.pend? 0).map fun q => (q.dead, q.bad)) = some (none, none)) ∧
    (∀ snap ∈ [false, true], let m := { matrixCmd .mresolve with snap := snap }
      let s := onCore fun c => { c with queues := [(0, [m])] }
      nextHead s 0 = some (0, m, 0) ∧ flook 0 (s.core 0).queues = some [m] ∧ m.restores = true) ∧
    ∀ read ∈ [false, true],
    let e : ECmd := { id := 1, kind := .mfill, pid := 0, gid := 0, wid := 0, lanes := 1, len := 12288, hdrLen := 2048, dst := 5, needs := [1] }
    let s := onCore (fun c => { c with engine := [e], finishing := if read then [] else [matrixCmd .mma] }) (pending (op .engine))
    (s.core 0).engine.find? (fun x => decide (x.id = 1) && decide (x.kind = .mfill)) = some e ∧ e.due ≤ s.cycle ∧ readersDone (s.core 0) e = read := by
  decide +kernel
def cmd (k : EKind) (b : List Byte := []) : ECmd :=
  { id := 1, kind := k, pid := 0, gid := 0, wid := 0, lanes := 1, len := 16, block := b, entry := world.objEntry 0 0 }
def engineOn (e : ECmd) (s : State := block []) : State := onCore (s := pending (s := s) (op .engine)) fun c => { c with engine := [e] }
def agent (s : State) (e : ECmd) : Option Issuer := s.agentFor e.gid e.wid (s.entryOf e.gid e.wid e.pid) e.lanes
/-- A tail of a command block with no barrier, word or queue. -/
def bare : List Byte := natBytes 44 0 ++ natBytes 4 0xFFFFFFFF ++ natBytes 12 0 ++ natBytes 4 0xFFFF
/-- CopiesViewsAndReductions: the first beat of a copy to a slot; a copy that has moved all its bytes, at each stage of its signals; a
follow-on whose slots are READY, and FREE. -/
theorem witness_beats :
    (let e := { cmd .cpy with dst := 5 }
     let s := engineOn e
     let e0 := { e with view := some (objPub (s.objEntry 0 0)) }
     s.cmd? 0 1 = some e ∧ s.cmdTurn e = true ∧ s.soft = [] ∧ s.deadFr = [] ∧ readersDone (s.core 0) e0 = true ∧ Memory.wf s.mem = true ∧
       (agent s e).map (fun c => match fetchBeat s c e0 with | .ok (f, _) => decide (f.bytes.length = 16) | _ => false) = some true) ∧
    (∀ st ∈ [0, 1, 2], let e := { cmd .cpy bare with pos := 16, stage := st }
      let s := engineOn e
      s.cmd? 0 1 = some e ∧ s.hasEntries 0 1 = false ∧ e.bytesToMove ≤ e.pos ∧ blkWord e.block = 0 ∧ blkQueue e.block = 0xFFFF ∧ (agent s e).isSome = true ∧
        ((s.warp? 0 0).bind fun w => (w.pend? 0).map fun q => (q.twin, q.dead, q.bad)) = some (none, none, none)) ∧
    ∀ st ∈ [0, 3], let x : XFmt := { dist := 0, fmta := 8, fmtb := 8 }
      let e := { cmd .cpy with pos := 16, follow := some ((encode (.mma x)).getD 0).toNat }
      let s := engineOn e (slotted st 0)
      s.cmd? 0 1 = some e ∧ decodeWord (BitVec.ofNat 96 (e.follow.getD 0)) = .mma x ∧ stageRefuses s x false = false ∧
        ((s.group? 0).bind fun g => mmaFault g x).isSome = decide (st = 0) := by decide +kernel
/-- CopiesMove: a beat that counts a barrier word down, and the last one; a beat for the bench, one for the draft of an object, and one of a move to
memory, each with no access before it. -/
theorem witness_destinations :
    (∀ pos ∈ [0, 12272], let e := { cmd .cpy (natBytes 60 0 ++ natBytes 4 0xFFFF) with src := 3, srcA := 0x300000, dst := 5, len := 12288, pos := pos }
      let s := engineOn e
      s.cmdTurn e = true ∧ e.pos < e.len ∧ blkBarrier e.block ≠ 0xFFFFFFFF ∧ blkBarrier e.block + 8 ≤ 2 ^ 19 ∧
        (agent s e).map (fun c => match fetchBeat s c { e with view := some 0 } with | .ok (f, _) => decide (f.bytes.length = 16) | _ => false) = some true) ∧
    (∀ pos ∈ [0, 262128], let e := { cmd .cpy with dst := 0, len := 262144, pos := pos }
      let s := engineOn { e with srcA := 0 }
      (agent s e).map (fun c => let x := s.alloc c e.dst
        decide (e.pos + 16 ≤ x.2.1 ∧ 4 ≤ keyRegion (x.1 + e.pos)) && (s.stampFault c false ⟨0, 0, e.pos, x.1 + e.pos, 16, x.2.2⟩).isNone) = some true) ∧
    (let e := { cmd .tmov with dst := 3, dstA := 0x300000 }
     let s := engineOn e
     (agent s e).map (fun c => let tr := s.translate c .write 0x300000 16 16
       s.cmdTurn e && !c.task.redundant && (s.xfault c .write 0x300000 tr).isNone && ((spotsOf 0 0x300000 tr).findSome? (s.stampFault c false)).isNone &&
       (c.warp.pend.find? fun q => decide (e.pid < q.id) && q.cover.isSome && q.kin &&& e.lanes != 0).isNone && (spotsOf 0 0x300000 tr) != [] &&
       match fetchBeat s c { e with view := some 0 } with | .ok (f, _) => decide (f.bytes.length = 16) | _ => false) = some true) ∧
    (let e := { cmd .cpy with dst := 4 }
     let s := engineOn e
     let va := objDraft (s.objEntry 0 0)
     va ≠ 0 ∧ objClass e.entry ≠ 2 ∧ (agent s e).map (fun c => let n := min 16 (objEnd e.entry)
       let tr := s.translate c .write va n (if n = 16 ∧ va % 16 = 0 then 16 else 1)
       s.cmdTurn e && (s.xfault c .write va tr).isNone && ((spotsOf 0 va tr).findSome? (s.stampFault c false)).isNone && (spotsOf 0 va tr) != [] &&
       match fetchBeat s c { e with view := some 0 } with | .ok (f, _) => decide (f.bytes.length = 16) | _ => false) = some true) := by decide +kernel
/-- A peer set of this device alone, as number 255 of the address space. -/
def peers255 : State := { world with mem := wrBytes (wrBytes world.mem 48 (natBytes 8 0x100)) 0x10F0 (natBytes 6 0 ++ natBytes 2 1 ++ natBytes 8 0x1800) }
theorem witness_views_and_reductions :
    (let s := { world with publishes := [{ id := 1, asid := 0, obj := 0, part := 0, cmd := none }] }
     publishReady s { id := 1, asid := 0, obj := 0, part := 0, cmd := none } = true ∧ s.entryKey 0 0 + 16 ≤ gangBase ∧ s.deadFr = [] ∧ Memory.wf s.mem = true ∧
       s.mayStart ⟨.glazier, hbmChannel (s.entryKey 0 0) false⟩ s.fresh [(s.entryKey 0 0, 16)] = true) ∧
    (let b := natBytes 8 0 ++ natBytes 4 8 ++ [2, 0, 0, 0] ++ natBytes 28 0 ++ natBytes 4 0xFFFFFFFF ++ natBytes 12 0 ++ natBytes 4 0xFFFF ++ natBytes 64 0
     let e := { cmd .rstream b with total := 1 }
     let s := engineOn e world
     s.cmd? 0 1 = some e ∧ blkBarrier b = 0xFFFFFFFF ∧ s.cmdTurn e = true ∧ e.needs.contains 0 = false ∧
       ({ e with needs := [0] } : ECmd).needs.contains 0 = true ∧
       (agent s e).map (fun c => match streamAtom s c e 0 with | .ok _ => true | _ => false) = some true) ∧
    (let e := cmd .coll (natBytes 4 255 ++ natBytes 20 0 ++ natBytes 4 1 ++ natBytes 36 0)
     let s := engineOn e peers255
     let e0 := { e with view := some (objPub (s.objEntry 0 0)) }
     s.cmd? 0 1 = some e ∧ s.peerSet 0 255 = some [(0, 0)] ∧ s.cmdTurn e = true ∧ objClass (s.objEntry 0 0) ≠ 2 ∧ objClass (s.objEntry 0 1) = 2 ∧ s.rankIn 0 [(0, 0)] = 0 ∧
       (agent s e).map (fun c => match viewFetch s c e0 0 4 with
         | .ok f => decide (f.dead = none) && match draftBytes c e0 0 0 (s.objEntry 0 0) (collResult 0 0 0 4 1 0 [f.bytes]) 5
              ((s.readAt f.from_).modPend 0 0 0 fun q => { q with dead := none }) with | .ok _ => true | _ => false
         | _ => false) = some true) := by decide +kernel
theorem witness_windows : ∀ r ∈ [[], [0]],
    let w : Window := { id := 7, tag := 3, asid := 0, peerSet := 255, base := 0x300000, len := 64, part := 0, members := [0], closedR := r, local_ := some 0,
                        merged := [(0x300000, .add, 4, 5)] }
    let e : ECmd := { cmd .rwinClose with total := 3, hdrLen := 255, srcA := 0x300000, len := 64 }
    let s := { engineOn e peers255 with windows := [w] }
    s.windowOf e = some w ∧
    (s.cores.flatMap fun p => (p.2.engine.filter fun e => e.kind = .rwinClose && e.pos = 0 && s.windowOf e = some w).map fun e => (p.1, e)) = [(0, e)] ∧
    (agent s e).map (fun c => match deliverAll c e w.merged s none with | .ok (_, f) => f.isNone | _ => false) = some true ∧
    -- a contribution to a window that another member has opened, at its last word
    (let w2 := { w with ranks := 2 }; 1 < w2.ranks ∧ w2.local_ ≠ some 1 ∧ w2.closedR.contains 1 = false) ∧
    ((List.range w.ranks).all w.closedR.contains = true ↔ r = [0]) ∧ (w.merge .umin 4 0x300000 1).clash.isSome = true ∧ windowMerges .add = true ∧ (0x300000 + 60) % 4 = 0 ∧ (atomSizes .add).any (fun k => decide (4 = 2 ^ k)) = true ∧ w.base + 60 + 4 ≤ w.base + w.len ∧
    s.peerSet w.asid w.peerSet = some [(0, 0)] := by decide +kernel
/-- The world with page tables: its first 512 MiB are one page. -/
def walked : State := { world with mem := wrBytes (wrBytes (wrBytes world.mem 0x2000 (natBytes 8 0x4001)) 0x4000 (natBytes 8 0x5001)) 0x5000 (natBytes 8 0x0F) }
def entry (id : Nat) : ExpEntry := { id := id, asid := 0, obj := 1, tx := 0, ty := 0, seq := 5, mask := 1, method := 2, cls := 1, who := (0, 0, 0, 1) }
def draw (binned : Bool) (todo : List ExpEntry) : Draw :=
  { id := 1, cmd := { cmd .rast bare with len := 0, obj := 1 }, asid := 0, obj := 1, die := 0, method := 2, cls := 2, binned := binned, todo := todo }
def method (cls : Nat) : Method := { asid := 0, obj := 1, num := 2, cls := cls, prog := [.mend {}], pcs := [0], entry := walked.objEntry 0 1 }
def glazed (g : Glazier) : State := { walked with places := [((⟨.glazier, 0⟩ : UnitRef).num, g)] }
/-- DrawsAndPackets: a pass without items, a method that is not valid, an entry to append with room and with none, a method that a draw
names, a packet that meets its entry, and a pixel to apply with no sample and with one. -/
theorem witness_draws :
    (walked.tileOwner 0 (walked.objEntry 0 1) 0 = some 0) ∧
    (∀ c ∈ [2, 0xFF], let s := { pending (s := glazed { methods := [method c] }) (op .engine) with draws := [draw false []] }
      (s.agentFor 0 0 (s.entryOf 0 0 0) 1).isSome = true ∧ drawTurn s (draw false []) = true ∧ s.cmdTurn (draw false []).cmd = true ∧
      s.methodAt (s.firstOwner 0 1) 0 1 2 = some (method c) ∧ copyOk s 0 (s.objEntry 0 1) (objPub (s.objEntry 0 1)) = true ∧
      copyOk s 0 (s.objEntry 0 1) (objDraft (s.objEntry 0 1)) = true ∧ fieldNat (draw false []).cmd.block 16 8 = 0) ∧
    (let s := { pending (s := glazed {}) (op .engine) with draws := [draw true [entry 0]] }
     (s.agentFor 0 0 15 1).isSome = true ∧ (∀ tables ∈ [[], [(1, List.replicate 256 0)]], ({ s with tables := tables } : State).methodAt 0 0 1 2 = none ∧
       ({ s with tables := tables } : State).namesMethod 0 0 1 2 = true) ∧ s.tileOwner 0 (s.objEntry 0 1) (tileIndex (s.objEntry 0 1) 0 0) = some 0 ∧
       (s.place ⟨.glazier, 0⟩).entries.length < 4096) := by decide +kernel
theorem witness_packets_at_glazier :
    let p : Post := { gid := 0, wid := 0, pid := 0, lanes := 1, lane := 0, asid := 0, obj := 1, null := false, x := 0, y := 0, seq := 5, cover := 1, method := 2, payload := [], pc := 0 }
    let s := { pending (s := glazed { methods := [method 0], entries := [entry 3] }) (op .posts) with posts := [p] }
    s.methodAt 0 0 1 2 = some (method 0) ∧
    ((s.place ⟨.glazier, 0⟩).tileEntries 0 1 0 0).find? (fun e => decide (e.seq = 5)) = some (entry 3) ∧ (entry 3).mask.getLsbD 0 = true ∧
    ((s.place ⟨.glazier, 0⟩).tileEntries 0 1 0 0).find? (fun e => decide (e.seq = 6)) = none ∧
    (∀ cover ∈ [0, 1], let k : Packet := { entry := 3, pixel := 0, cover := cover, method := 2, payload := [], gid := 0, wid := 0, pid := 0, lanes := 1 }
      let g : Glazier := { methods := [method 0], entries := [entry 3], packets := [k] }
      g.eligible (entry 3) 0 = true ∧ (glazed g).stackHeld ⟨.glazier, 0⟩ = false ∧ (g.entries.map (·.id)).Nodup ∧
      (match runMethod { glazed g with method := some (startRun ((glazed g).objEntry 0 1) (entry 3) 0 1 [] fun _ _ => 0) } ((method 0).prog.zip (method 0).pcs) with
        | .ok t => t.method.isSome
        | .error _ => false) = true) := by decide +kernel
/-- The same: whose turn of the cycle is free and taken, and a page that may be written and one that may not. -/
theorem witness_applications :
    let k : Packet := { entry := 3, pixel := 0, cover := 1, method := 2, payload := [], gid := 0, wid := 0, pid := 0, lanes := 1 }
    let g : Glazier := { methods := [method 0], entries := [entry 3], packets := [k] }
    (glazed g).poison = [] ∧ (glazed g).deadFr = [] ∧ g.applied ≠ some (glazed g).cycle ∧
    ({ g with applied := some 0 } : Glazier).applied = some (glazed g).cycle ∧
    recordFree (glazed g) ⟨.glazier, 0⟩ ((glazed g).objEntry 0 1) (entry 3) 0 = true ∧
    (match writeStaged { glazed g with tlb := [⟨48, 0, 0, 2, 0x0D⟩] } 0 (entry 3) none [(0x400000, 7)] with
      | .ok _ => true
      | .error _ => false) = true ∧
    (match writeStaged { glazed g with tlb := [⟨48, 0, 0, 2, 0x05⟩] } 0 (entry 3) none [(0x400000, 7)] with
      | .ok _ => false
      | .error f => f.cause == 0x09) = true := by decide +kernel

def reading : Req := { gid := 0, wid := 0, pid := 0, pieces := [⟨0, 64, 64, 4⟩], arrived := some 0 }
/-- PlacesPerform: a read that may be served and one that a request before it holds; an atomic; a write to drain; a commit to enter, with
room for it and none. -/
theorem witness_places :
    (let s := pending (s := glazed { queue := [reading] }) { op .load with left := 1 }
     s.servable ⟨.glazier, 0⟩ reading = true ∧ s.soft = [] ∧ ((s.warp? 0 0).bind fun w => (w.pend? 0).map fun q => (q.twin, q.dead, q.bad)) = some (none, none, none) ∧
       s.poison = [] ∧ s.deadFr = []) ∧
    (let late := { reading with after := some 5, arrived := none }
     let w : WbEntry := { u := ⟨.glazier, 0⟩, bank := 0, bytes := [(640, ⟨1, 640, ⟨.glazier, 0⟩, 0⟩)], gid := 0, cid := 5, task := 0, group := 0 }
     let s := { glazed { queue := [late] } with wbanks := [(0, [w])] }
     s.sendable ⟨.glazier, 0⟩ late = false ∧ s.sendable ⟨.glazier, 0⟩ { late with after := none } = true ∧ s.drainHeld w = false ∧
       ({ s with places := [((⟨.glazier, 0⟩ : UnitRef).num, { queue := [{ reading with pieces := [⟨0, 640, 640, 4⟩] }] })] } : State).drainHeld w = true ∧
       ({ s with refresh := [(0, 0)] } : State).servable ⟨.glazier, 0⟩ reading = false ∧ flook 0 s.wbanks = some [w]) ∧
    (let a : AtomSpec := { op := .add, size := 4, rets := true, acq := false, rel := false, lanes := [{ lane := 0, addr := 64, va := 64, b := 1, c := 0 }], count := 0 }
     let r : Req := { gid := 0, wid := 0, pid := 0, atom := some a, arrived := some 0 }
     let s := pending (s := glazed { queue := [r] }) (op (.atomic true))
     s.servable ⟨.glazier, 0⟩ r = true ∧ 64 + 4 ≤ gangBase ∧ gangBase ≤ gangBase + 64 ∧ gangBase + 64 + 4 ≤ 2 * gangBase ∧ Memory.wf s.mem = true ∧ (s.group? 0).isSome = true) ∧
    (∀ full ∈ [false, true], let w : WbEntry := { u := ⟨.glazier, 0⟩, bank := 0, bytes := [(640, ⟨1, 640, ⟨.glazier, 0⟩, 0⟩)], gid := 0, cid := 5, task := 0, group := 0 }
      let s := { (here.modGroup 0 fun g => { g with draining := [w] }) with wbanks := if full then [(0, List.replicate 64 w)] else [] }
      (s.group? 0).map (·.draining) = some [w] ∧ s.mayEnter w = true ∧ decide (64 ≤ ((flook 0 s.wbanks).getD []).length) = full ∧
      (full = true → s.drainHeld w = false)) := by decide +kernel
/-- TranslationsAndStacks: a walk that an invalidation covers, and one that none does; an access that an invalidation, and a declaration,
wait for; a stack in self-refresh in its last cycle and after it; the last atom of a channel. -/
theorem witness_translations :
    walked.walk 0 0 = .leaf 0x0F 2 ∧ walked.walk 0 0x20000000 = .absent ∧ walked.invals = [] ∧
    (let v : Inval := { asid := 0, whole := false, first := 0, pages := 1, start := 10 }
     let s := { walked with invals := [v] }
     s.invals.any (fun v => v.covers 0 0 (2 ^ 29)) = true ∧ s.invalWaits v = false ∧
     ({ pending (s := s) (op .load) with places := [(0, { queue := [reading] })] } : State).invalWaits v = true) ∧
    (let s := { here with refresh := [(7, 5)], cycle := 5 + 2 ^ 24 }
     flook 7 s.refresh = some 5 ∧ s.cycle ≤ 5 + 2 ^ 24 ∧ s.stackHeld ⟨.glazier, 511⟩ = true ∧ s.stackHeld ⟨.glazier, 447⟩ = false) ∧
    (∀ before ∈ [[], [0]], let s := glazed { queue := [reading], deadReq := [⟨1, 0, true, before, false⟩] }
     ((s.place ⟨.glazier, 0⟩).queue.any fun r => (r.arrived.map before.contains).getD false) = !before.isEmpty) ∧
    0 < channelAtoms := by decide +kernel
/-- StacksAndFrames: a declaration that a write has overtaken; a request held at a stack whose partition has an error queue with room. -/
theorem witness_declared_and_held :
    (let s := glazed { deadReq := [⟨1, 0, false, [], true⟩] }
     (s.place ⟨.glazier, 0⟩).deadReq = [⟨1, 0, false, [], true⟩] ∧ ((s.pairQueue 0).any fun r => (r.arrived.map ([] : List Nat).contains).getD false) = false) ∧
    (let s := { glazed { queue := [reading] } with errq := [(0, BitVec.ofNat 64 (0x200000 + 4))], conf := { walked.conf with asidNum := [(0, 1)] } }
     s.heldParts 0 = [0] ∧ flook 0 s.refresh = none ∧ fget 0 16 s.errq = 0 ∧ fget 0 0 s.conf.asidNum ≠ 0 ∧ bitsOf (fget 0 0 s.errq).toNat 4 0 = 4 ∧
       (∀ o ∈ [0, 8, 16, 64], (match s.walk 0 (0x200000 + o) with | .leaf e l => some (leafXlat e l (0x200000 + o)).key | _ => none) = some (0x200000 + o)) ∧
       rdNat s.mem 0x200000 8 = 0 ∧ rdNat s.mem 0x200008 8 = 0 ∧ Memory.wf s.mem = true) := by decide +kernel
def wholeTask (f : Task → Task) (s : State := here) : State := s.modTask 0 f
/-- GroupsAndTasksEnd: a group whose warp has retired, with and without stores that its buffer holds; a task with a group to come and one with none;
a crew that is ending, alone and with an operation outstanding; a pair that agrees and one that differs. -/
theorem witness_group_retires : ∀ b ∈ [[], [(640, (⟨1, 640, ⟨.glazier, 0⟩, 0⟩ : SbByte))]],
    let s := { (withWarp (fun w => { w with retired := true, table := [] }) (here.modGroup 0 fun g => { g with sbuf := b })) with fresh := 1 }
    (s.group? 0).map (fun g => decide (g.sbuf = b ∧ g.pair = none ∧ g.held = [] ∧ g.member = 0) && s.atRest 0 g) = some true ∧ s.hasDrains 0 = false ∧
    (flook 0 s.crews).map (·.ending) = some none ∧ (flook 0 s.tasks).isSome = true := by decide +kernel
theorem witness_task_ends : ∀ n ∈ [0, 1],
    let s := { (wholeTask fun k => { k with retired := n }) with groups := [], crews := [], warps := [] }
    (flook 0 s.tasks).map (fun k => decide (k.stage = .granted ∧ k.ended = none ∧ s.wordHeld k.asid k.tcb = false ∧ s.successors k = [] ∧
      (tcbGroups k.image ≤ k.retired ↔ n = 1))) = some true := by decide +kernel
theorem witness_crew_ends : ∀ busy ∈ [false, true],
    let s0 := if busy then pending { op .load with left := 1 } else here
    let s := { s0 with crews := fmod 0 (fun k => { k with ending := some 0x30 }) s0.crews }
    (flook 0 s.crews).map (fun c => decide (c.ending = some 0x30 ∧ (s.endingCrews 0 c).flatMap (·.2.groups) = [0] ∧
      (((s.rollbackGroup 0).group? 0).map ((s.rollbackGroup 0).unfinished 0)).getD false = busy)) = some true := by decide +kernel
/-- The signature is a function that the manual leaves to the device: equal for the pair that agrees, free for the one that differs. -/
def pairOf (differ : Bool) (at_ : Option Nat := none) : State :=
  let s0 := here.modGroup 0 fun (g : Group) => { g with member := 1, pair := some 1, atCommit := some [1], commitBy := some (0, 0), differs := at_ }
  let trail : Group := { task := 0, index := 0, core := 1, crew := 1, member := 2, pair := some 0, atCommit := some (if differ then [2] else [1]), commitBy := some (0, 0) }
  ({ s0 with groups := fput 1 trail s0.groups, crews := fput 1 { task := 0, groups := [1], cluster := 0 } s0.crews } : State).modTask 0
    fun k => { k with mism := [(0, 1)] }
theorem witness_pair_compares : ∀ differ ∈ [false, true], ∀ at_ ∈ [none, some 0, some 7], let s := pairOf differ at_
    ((s.group? 0).bind fun g => (s.group? 1).map fun h => s.settledAt 0 g && s.settledAt 1 h && decide (g.member = 1 ∧ g.held = [] ∧ g.stopped = false ∧
      h.stopped = false ∧ g.differs = at_ ∧ s.cycle = 0 ∧ g.commitBy = h.commitBy ∧ g.sbuf = h.sbuf ∧ (g.atCommit = h.atCommit ↔ differ = false))) = some true ∧
    ((flook 0 s.tasks).map fun k => decide (k.ended = none ∧ 1 ≤ fget 0 0 k.mism)) = some true ∧
    (s.crews.all fun p => decide (p.2.ending = none)) = true := by decide +kernel

/-- A group about to retire that has held effects. -/
def retiring (held : List Held) : State :=
  { (withWarp (fun w => { w with retired := true, table := [] }) (world.modGroup 0 fun g => { g with held := held })) with fresh := 1 }
/-- GroupsAndTasksEnd: an atomic, a PUBLISH and a SPAWN that were held, with one more behind. -/
theorem witness_held_effects :
    let l : AtomLane := { lane := 0, addr := 64, va := 0x300000, b := 1, c := 0 }
    let a : AtomSpec := { op := .add, size := 4, rets := false, acq := false, rel := false, lanes := [l], count := 0 }
    (∀ h ∈ [Held.atomic [(⟨.glazier, 0⟩, a)], .publish 0, .spawn 0x1000], let s := retiring [h, .publish 1]
      (s.group? 0).map (fun g => decide (g.held = [h, .publish 1] ∧ g.pair = none ∧ g.sbuf = [] ∧ g.member ≠ 2) && s.atRest 0 g &&
        (match flook 0 s.tasks with
          | some k => s.retireTurn g k && (match s.heldLane g k a ⟨.glazier, 0⟩ l with | .ok x => decide (keyRegion x.2.addr < 4) | .error _ => false)
          | none => false)) = some true ∧ s.hasDrains 0 = false ∧ s.publishes = [] ∧ s.spawnWaits 0 0 0 0x1000 = false ∧
      publishReady s { id := s.fresh, asid := 0, obj := 0, part := 0, cmd := none } = true ∧ s.deadFr = [] ∧ s.poison = [] ∧
      s.mayStart (keyUnit (s.entryKey 0 0)) s.fresh [(s.entryKey 0 0, 16)] = true ∧ s.entryKey 0 0 + 16 ≤ gangBase ∧ Memory.wf s.mem = true) := by
  decide +kernel
/-- The same: a pair that differed in an earlier cycle, with the trailer's record to come and with none, the first time and the second; a
pair that stands until the result of an effect performed once is in the checkpoint. -/
theorem witness_pair_goes_on :
    (∀ later ∈ [none, some 7], ∀ n ∈ [0, 1], let s0 := pairOf true (some 7)
      let s := ({ s0 with groups := fmod 1 (fun (g : Group) => { g with differs := later }) s0.groups } : State).modTask 0 fun k =>
        { k with mism := [(0, n)], checkpt := match flook 0 s0.crews with | some c => [(0, s0.saveCrew k c)] | none => [] }
      ((s.group? 0).bind fun g => (s.group? 1).map fun h => decide (g.differs = some 7 ∧ h.differs = later) && s.settledAt 0 g && s.settledAt 1 h) = some true ∧
      s.cycle ≠ 7 ∧ (flook 0 s.tasks).map (fun k => decide (k.ended = none ∧ fget 0 0 k.mism = n ∧ (flook 0 k.checkpt).isSome = true)) = some true) ∧
    (let s0 := pairOf false
     let s := { s0 with groups := s0.groups.map fun (p : Nat × Group) => (p.1, { p.2 with stopped := true, atCommit := none }) }
     (s.group? 0).map (fun g => decide (g.stopped = true ∧ g.differs = none) && !s.unfinished 0 g ((s.core g.core).engine.filter fun e => decide (e.gid = 0))) = some true ∧
     (s.group? 1).map (·.stopped) = some true ∧ (s.warpsOf 0).all (fun w => w.2.pend.all fun q => q.twin.isNone) = true) := by decide +kernel

def wrList (l : List (Nat × Byte)) (b : List Byte) : List Byte := l.foldl (fun b p => b.set p.1 p.2) b
/-- A granted task of one group, or of a crew of two, that has not been placed. -/
def unplaced (crew : Bool) : State :=
  { here with groups := [], crews := [], warps := [], cores := [], conf := { here.conf with clusters := [(0, 1)] },
              tasks := [(0, { loneTask with image := wrList (if crew then [(36, 2), (53, 2), (72, 1), (74, 1), (144, 2)] else [(72, 1), (74, 1)]) loneTask.image,
                                            next := 0, yard := [(0, 0)], spills := [] })] }
/-- PlacementAndContexts: a group to place and a crew of two, with room and with the clusters taken; contexts to save, being saved, saved. -/
theorem witness_placement : ∀ crew ∈ [false, true], ∀ on ∈ [0, 1],
    let s0 := unplaced crew
    let s := { s0 with conf := { s0.conf with clusters := [(0, on)] } }
    (flook 0 s.tasks).map (fun k => decide (k.redundant = false) &&
      (match s.nextUnit 0 k with
        | some (.groups idxs avoid r) => decide (idxs = if crew then [0, 1] else [0]) && ((s.placeNow s.blocking 0 k (.groups idxs avoid r)).isSome == (on == 1))
        | _ => false) && s.placeable.all fun p => !decide (p.2.1.order < k.order)) = some true := by decide +kernel
/-- A saved crew that has a place. -/
theorem witness_saved_crew :
    let c : Crew := { task := 0, groups := [0], cluster := 0 }
    let w := withWarp (fun w => { w with vregs := [(3, 7)] }) here
    let x := w.saveCrew loneTask c
    let s := ({ unplaced false with restore := some 0 } : State).modTask 0 fun k => { k with saving := true, saved := [x], next := 1 }
    (flook 0 s.tasks).map (fun k => decide (k.redundant = false ∧ k.saved = [x]) && (s.placeable.all fun p => !decide (p.2.1.order < k.order)) && match s.nextUnit 0 k with
      | some (.saved y) => decide (y = x) && (match s.placeNow s.blocking 0 k (.saved x) with
        | some s1 => decide (newGroups s s1 = [1]) && x.warps.all fun p => (s1.warp? 1 p.2.1).isSome && decide (p.2.1 < 32)
        | none => false)
      | _ => false) = some true ∧ (∀ p ∈ s.groups, p.1 < s.fresh) := by decide +kernel
theorem witness_contexts :
    let s := { world with ctxbase := 0x1000000 }
    (here.named 2 = none) ∧ ((s.named 1).map fun p => p.1 == 0 && !p.2.saving) = some true ∧ areaOk s s.ctxbase.toNat (areaNeed s 0 loneTask) = true ∧
    areaOk { s with ctxbase := BitVec.ofNat 64 (2 ^ 39) } (2 ^ 39) (areaNeed s 0 loneTask) = false ∧
    (let t := wholeTask (fun k => { k with saving := true, ctx := 0x1000000 }) { s with preempt := some 0 }
     (t.crewsOf 0).map (·.1) = [0] ∧ ((flook 0 (t.withdraw 0).tasks).bind fun _ => (flook 0 (t.withdraw 0).crews).map fun c => (t.withdraw 0).drained c) = some true ∧
     ((t.withdraw 0).group? 0).map (·.sbuf) = some [] ∧
     (({ t with crews := [], groups := [], warps := [] } : State).crewsOf 0) = []) ∧
    (let c : Crew := { task := 0, groups := [0], cluster := 0 }
     let t := wholeTask (fun k => { k with saving := true, ctx := 0x1000000, saved := [s.saveCrew k c] }) s
     t.restore = none ∧ t.preempt ≠ some 0 ∧ ((t.named 1).map fun p => p.2.saving && p.2.ctx == t.ctxbase.toNat && !p.2.saved.isEmpty) = some true) ∧
    (∀ n ∈ [0, 255, 256], let r := [7]
     let p : Partition := { heldRecs := [(1, r)], queues := [(1, List.replicate n 5)] }
     (flook 1 p.heldRecs = some [7]) ∧ ((flook 1 p.queues).getD []).length = n) := by decide +kernel
/-! ## Hypotheses that can be met: the host, Dallum and service -/

/-- HostAccesses: the last bytes of the window and of HBM, an address past HBM, and messages at the ring's edges. -/
theorem witness_host : (here.hostHeld = [] ∧ here.refresh = [] ∧ here.badStacks = [] ∧ here.poison = [] ∧ here.soft = [] ∧ here.deadFr = [] ∧ Memory.wf here.mem = true ∧ 2 ≤ here.stage) ∧
    (2 ^ 38 - 8) + 8 ≤ 2 ^ 38 ∧ ({ here with apwin := 0x4000000000 } : State).apwin.toNat + (2 ^ 38 - 8) + 8 ≤ 2 ^ 39 ∧
    2 ^ 39 ≤ ({ here with apwin := 0x8000000000 } : State).apwin.toNat ∧
    ¬ (2 ^ 51 ≤ (0x8000000000 : Nat) ∧ 0x8000000000 + 8 ≤ 2 ^ 51 + 65536) ∧ boxOf 0 4095 = some (15, 255) ∧ boxOf 16 255 = some (15, 255) ∧ boxOf 1 0 = some (0, 0) ∧
    (∀ n ∈ [15, 16], ((here.setPart 0 { boxes := [(0, { inbound := List.replicate n ([], false), outbound := [[1]] })] }).part 0).box 0 =
      { inbound := List.replicate n ([], false), outbound := [[1]] }) := by decide +kernel

/-- HostAccesses: no place holds a request, and the physical log has room, where a window past HBM is refused. -/
theorem witness_host_refused : let s := { here with apwin := 0x8000000000, errq := [(16, BitVec.ofNat 64 (0x300000 + 4))] }
    s.places = [] ∧ s.staleViews = [] ∧ bitsOf (fget 0 16 s.errq).toNat 4 0 = 4 ∧ bitsOf (fget 0 16 s.errq).toNat 56 12 * 4096 = 0x300000 ∧
    0x300000 + 64 + 32 * 2 ^ 4 ≤ gangBase ∧ rdNat s.mem 0x300000 8 = 0 ∧ rdNat s.mem 0x300008 8 = 0 ∧ 2 ^ 39 ≤ s.apwin.toNat := by decide +kernel

/-- A message of a kind, from function 0 when so said, at the head of mailbox 0 of partition 0, which is assigned to Dallum. -/
def asked (kind : Nat) (body : List Byte) (fn0 : Bool := false) (s : State := walked) : State :=
  let conf := { s.conf with dallum := [(0, 0)], asidNum := [(0, 1)] }
  ({ s with conf := conf, svcQueue := [(0, 0)] } : State).setPart 0 { boxes := [(0, { inbound := [(message kind 7 0x100000 body, fn0)] })] }
def msg (kind : Nat) (body : List Byte) : List Byte := message kind 7 0x100000 body
def oneCapsule : State := { walked with capsules := [⟨4, false, 0, List.replicate 128 5⟩] }
/-- DallumAnswers: a message of each kind, with the answers' conditions; one of no kind, one with a byte its kind does not use, and one that only
function 0 may send. The sizes of certificates and signatures are the device's; no page of theirs is shown. -/
theorem witness_dallum :
    (∀ kind ∈ [1, 2, 3, 4, 0x10, 0x11, 0x12, 0x13, 0x14, 0x15], let s := asked kind []
      s.dallumHead 0 0 = some (msg kind [], false) ∧ msgKind (msg kind []) = kind ∧ msgOk (msg kind []) false = true) ∧
    (∀ x ∈ [(0x30, []), (0x10, [1]), (0x20, [])], msgOk (msg x.1 x.2) false = false) ∧ msgOk (msg 0x20 []) true = true ∧
    (asked 1 []).space0 0 = some 0 ∧ walked.space0 0 = none ∧ ((asked 2 (natBytes 4 1)).frameRange 0 0x100000 1).isSome = true ∧
    (let s := asked 0x11 (natBytes 8 4 ++ natBytes 4 64 ++ natBytes 4 64) false oneCapsule
     (s.visible 0 false).map (·.seq) = [4] ∧ ((s.copyTarget 0 false 0x100000 64).map s.hostLost) = some false) := by decide +kernel
/-- The same: a spawn that need not wait, and a range whose addresses reach above the address space. -/
theorem witness_dallum_ranges : (asked 1 []).spawnWaits 48 0 0 0x100000 = false ∧
    (∀ kind ∈ [2, 3], let x := message kind 7 (2 ^ 58 + 0x100000) (natBytes 4 1)
      msgOk x false = true ∧ (asked kind (natBytes 4 1)).frameRange 0 (msgAddr x) (fieldNat x 16 4) = none) := by decide +kernel
theorem witness_service_requests :
    let k : Task := { loneTask with image := wrList [(76, 0xFF), (77, 0xFF)] loneTask.image }
    let s := { here with tasks := [(0, k)], parts := [(0, { requests := [(0, 0)] })] }
    (s.part 0).requests = [(0, 0)] ∧ s.stage ≠ 0 ∧ s.handingOver = false ∧ flook 0 s.tasks = some k ∧ k.part = 0 ∧ k.field 608 16 = 0xFFFF := by decide +kernel

def onCore0 (f : Core → Core) (s : State := here) : State := s.modCore 0 f
def event : Fatal := { id := 3, cycle := 0, device := false, origin := 0, task := 0, part := 0, cause := 1, todo := [0], seq := 0 }
/-- RecordsAndFatalEvents. The length of a signature is the device's own, so the room for two capsules is not shown. -/
theorem witness_records :
    (here.core 0).recent = [] ∧ (here.core 0).frozen = none ∧ ((onCore0 fun k => { k with lost := 3 }).core 0).lost = 3 ∧
    ((onCore0 fun k => { k with owes := true }).core 0).ringAt ≠ some here.cycle ∧ ({ here with cycle := 2 ^ 32 } : State).cycle % 2 ^ 32 = 0 ∧ (here.core 383).frozen = none ∧ (here.core 383).owes = false ∧
    (here.core 383).ringAt ≠ some (2 ^ 32) ∧
    ({ here with watchdog := 2 ^ 30 } : State).watchdog = 2 ^ 30 ∧
    (∀ t ∈ [[0], []], let s := { here with fatals := [{ event with todo := t }] }
      s.fatals.find? (fun x => decide (x.id = 3)) = some { event with todo := t } ∧ (s.core 0).ringAt ≠ some s.cycle ∧ (s.core 0).owes = false) ∧
    (let s := { here with fatals := [{ event with todo := [] }] }
     s.waiting = [] ∧ s.dropped = 0) := by decide +kernel

/-- ServiceAndReset: each request first in the order, at its number's bound, in stage 2 and with nothing under way. The device's own functions (its
signatures and its acceptance of a handover) are free; no value of them is shown. -/
theorem witness_service :
    (∀ kind ∈ [0x20, 0x21, 0x22, 0x23, 0x24, 0x25], ∀ n ∈ [0, 383, 384, 512], let x := msg kind (natBytes 2 n)
      (asked kind (natBytes 2 n) true).svcNext kind = some (0, 0, x) ∧ fieldNat x 16 2 = n) ∧
    (∀ kind ∈ [0x27, 0x28, 0x29], (asked kind [] true).svcNext kind = some (0, 0, msg kind [])) ∧
    (asked 0x20 [] true).emptied.service = none ∧ here.inService 383 = true ∧ here.inService 384 = false ∧
    ({ here with conf := { here.conf with outCores := [5] } } : State).inService 5 = false ∧ here.stackUsed 511 = false ∧ here.awayOf 511 = 0 ∧
    here.channelServes 510 = true ∧ (here.setAway 9 4).awayOf 9 = 4 ∧ (walked.physBytes 0x100000 96).isSome = true ∧
    (walked.physBytes (2 ^ 39 - 64) 96) = none ∧ here.fatals = [] ∧ here.waiting = [] ∧ here.stage = 2 ∧ State.reset.stage = 0 ∧
    (∀ p ∈ State.reset.images, p.1 ≤ 1 → State.reset.imageOk p.2 = false) := by decide +kernel

/-- ServiceAndReset: a recalibration that must wait; cores of bring-up, tested and not; a handover under way. -/
theorem witness_bring_up :
    (let s := (asked 0x22 (natBytes 2 5) true).setAway 9 4
     s.svcNext 0x22 = some (0, 0, msg 0x22 (natBytes 2 5)) ∧ s.service = none ∧ s.svcWaits = [] ∧ s.badStacks = [] ∧ s.stackUsed 5 = true ∧ s.awayOf 5 = 0) ∧
    (let s := { State.reset with stage := 1 }
     s.service = none ∧ s.stage ≤ 1 ∧ 383 ∉ s.conf.outCores ∧ 383 ∉ s.tested ∧ s.coresTested = false) ∧
    ({ here with stage := 1, tested := List.range 384 } : State).coresTested = true ∧
    (let s := { here with service := some (.selfTest 5 9, 0, 0, []), cycle := 9 }
     s.service = some (.selfTest 5 9, 0, 0, []) ∧ 9 ≤ s.cycle) ∧
    (let s := { here with service := some (.handover 3 0 [], 0, 0, []), images := [(0, imageOf []), (1, imageOf [])] }
     s.service = some (.handover 3 0 [], 0, 0, []) ∧ s.cycle < 3 + 2 ^ 29 ∧ (flook 0 s.images).isSome = true ∧ (flook 1 s.images).isSome = true) := by
  decide +kernel

/-! ## Hypotheses that can be met: the machine as a whole -/

/-- StepRunsDecodedInstruction: the first split of the machine with a word where it fetches next; the last slot of a line too. -/
theorem witness_step : let s := State.reset.withFetchWord 96 0
    s.agenda = [] ∧ s.issuing = [⟨0, 0, 0⟩] ∧
    (s.splitAt ⟨0, 0, 0⟩).map (fun x => (x.entered, slotOf x.pc, x.text.length)) = some (true, 0, 64) ∧
    ((withSplit (fun x => { x with pc := x.pc + 4 }) s).splitAt ⟨0, 0, 0⟩).map (fun x => slotOf x.pc) = some 4 ∧
    isEvent (.cycleCountWrap) = true := by decide +kernel
/-- DecodeEncodeRoundTrip, StepKeepsMemoryCanonical, IntegerReductionIsFold. -/
theorem witness_round_trip : (Instr.saddi { dst := 31, imm := 0xFFFFFFFF, subop := 7, wait := 0xFFF, dist := 15 }).wf = true ∧
    (encode (.saddi { dst := 31, imm := 0xFFFFFFFF, subop := 7, wait := 0xFFF, dist := 15 })).isSome = true := by decide +kernel
theorem witness_canonical : Memory.wf State.reset.mem = true ∧ Memory.wf world.mem = true ∧ (match step here with | .next _ => true | _ => false) = true := by decide +kernel
/-- IntegerReductionIsFold: each bound of its type, its operation and its levels. -/
theorem witness_reduction : ∀ t ∈ [0, 1], ∀ op ∈ [0, 5], let f : VFmt := { type := t, func := 2 * op }
    (f.t = 0 ∨ f.t = 1) ∧ f.func.toNat / 2 % 8 = op.toNat ∧ op.toNat ≤ 5 := by decide +kernel
/-! ## One instruction on a small state

Each expected value is computed by hand from the rule that is cited. -/

/-- The split with scalar registers and lane 0 of vector registers set. -/
def given (sregs vregs : List (Nat × Word)) (s : State := here) : State :=
  withWarp (s := s) fun w => { w with sregs := sregs, vregs := vregs.map fun p => (p.1 * 64, p.2) }
/-- The value that an instruction's operation is to write, in lane 0 of a vector register, with what it adds to STICKY. -/
def writes (i : Instr) (s : State) : Option (Option Word × Word) :=
  match exec i s with
  | .next t => (t.warp? 0 0).bind fun w => w.pend.head?.bind fun q => q.writes.head?.map fun
    | .sca _ v => (some v, q.sticky)
    | .vec _ _ vs => (vs.head?, q.sticky)
    | .pred _ _ b => (some (b.setWidth 32), q.sticky)
  | _ => none
/-- The cause word, TVAL, EPC and program counter of the handler that an instruction's trap enters, with TRAPBASE 0x400000001000. -/
def trapsTo (i : Instr) (s : State := here) : Option (Word × DWord × DWord × DWord) :=
  match exec i (withWarp (fun w => { w with trapbase := 0x400000001000 }) s) with
  | .next t => (t.splitAt ⟨0, 0, 0⟩).bind fun x => x.handler.map fun _ => (x.cause, x.tval, x.epc, x.pc)
  | _ => none

/-- R73, R74: -5 added to 3; a sum that wraps; a high half of a product; 8 - 9 compared. -/
theorem test_scalar : writes (.saddi { dst := 2, sa := 2, imm := 0xFFFFFFFB, subop := 0 }) (given [(2, 3)] []) = some (some 0xFFFFFFFE, 0) ∧
    writes (.saddi { dst := 2, sa := 2, imm := 1 }) (given [(2, 0xFFFFFFFF)] []) = some (some 0, 0) ∧
    writes (.smuli { dst := 2, sa := 2, imm := 0x10000, subop := 2 }) (given [(2, 0x30000)] []) = some (some 3, 0) ∧
    writes (.ssubi { dst := 2, sa := 2, imm := 9 }) (given [(2, 8)] []) = some (some 0xFFFFFFFF, 0) := by decide +kernel
/-- R79: a divisor of zero gives all ones and the dividend; -7 / 2 is -3 with remainder -1; the most negative number by -1 wraps. -/
theorem test_division : (let x := fun (i : Instr) (a b : Word) => (writes i (given [] [(1, a), (2, b)])).bind (·.1)
    let q := .vdiv { dst := 6, sa := 1, sb := 2, post := 1 }
    let r := .vrem { dst := 6, sa := 1, sb := 2, post := 1 }
    x q 9 0 = some 0xFFFFFFFF ∧ x r 9 0 = some 9 ∧ x q 0xFFFFFFF9 2 = some 0xFFFFFFFD ∧ x r 0xFFFFFFF9 2 = some 0xFFFFFFFF ∧
    x q 0x80000000 0xFFFFFFFF = some 0x80000000 ∧ x r 0x80000000 0xFFFFFFFF = some 0) := by decide +kernel
/-- R47, R68, R83: 1.5 * 2.5 = 3.75; 1 - 1 = 0; 0 * infinity is the canonical NaN, with nan and inv set. -/
theorem test_float : writes (.vmulFloat { dst := 6, sa := 1, sb := 2, type := 8 }) (given [] [(1, 0x3FC00000), (2, 0x40200000)]) = some (some 0x40700000, 0) ∧
    writes (.vaddFloat { dst := 6, sa := 1, sb := 2, type := 8 }) (given [] [(1, 0x3F800000), (2, 0xBF800000)]) = some (some 0, 0) ∧
    writes (.vmulFloat { dst := 6, sa := 1, sb := 2, type := 8 }) (given [] [(1, 0), (2, 0x7F800000)]) = some (some 0x7FC00000, 0x30) := by decide +kernel
/-- R77: and-not, and a population count. -/
theorem test_vector_bits : writes (.vandn { dst := 6, sa := 1, sb := 2 }) (given [] [(1, 0xFF), (2, 0x0F)]) = some (some 0xF0, 0) ∧
    writes (.vpopc { dst := 6, sa := 1 }) (given [] [(1, 0xF000000F)]) = some (some 8, 0) := by decide +kernel
/-- R41, R333, R334, R336: TRAP 5 saves the next program counter; an element type that VADD does not take is ILLEGAL_INSTR (cause 1) with the
opcode and reason 5, at the instruction itself. -/
theorem test_traps : trapsTo (.trap { imm := 5 }) = some (0x20, 5, 0x400000000001, 0x400000001000) ∧
    trapsTo (.vaddInteger { dst := 6, sa := 1, sb := 2, type := 8 }) = some (1, 0x405, 0x400000000000, 0x400000001000) := by decide +kernel
/-- R78, R80, R90: 1 < 0xFFFFFFFF as unsigned numbers only; bits 11 to 4 as a signed and an unsigned field; -1.5 is -2 to the nearest even, inexact. -/
theorem test_compare_field_convert :
    writes (.vcmpInteger { dst := 2, sa := 1, sb := 2, type := 0, func := 2 }) (given [] [(1, 1), (2, 0xFFFFFFFF)]) = some (some 0, 0) ∧
    writes (.vcmpInteger { dst := 2, sa := 1, sb := 2, type := 1, func := 2 }) (given [] [(1, 1), (2, 0xFFFFFFFF)]) = some (some 1, 0) ∧
    writes (.vbfx { dst := 6, sa := 1, func := 4 + 8 * 32 }) (given [] [(1, 0xAB5)]) = some (some 0xFFFFFFAB, 0) ∧
    writes (.vbfx { dst := 6, sa := 1, type := 1, func := 4 + 8 * 32 }) (given [] [(1, 0xAB5)]) = some (some 0xAB, 0) ∧
    writes (.vcvt { dst := 6, sa := 1, type := 0, func := 0x080 }) (given [] [(1, 0xBFC00000)]) = some (some 0xFFFFFFFE, 1) := by decide +kernel
/-- R9, R14, R16: a step runs the word at the program counter and goes to the next slot; from slot 4 on to the next line. -/
theorem test_step_runs_word : (match step (State.reset.withFetchWord 96 0x08400041002FFFFFFFBF0100) with
    | .next t => (t.warp? 0 0).bind fun w => (w.split? 0).map fun x => (x.pc, w.pend.length)
    | _ => none) = some (0x400000000001, 1) ∧
    nextPc 0x400000000004 = 0x400000000040 := by decide +kernel

end Sys2Proof.Tests
end

section
/-! SUPPORT. Numbers as bytes (R7), and what the shared operations of memory and of the logs do: a store of bytes in HBM, and a record of
the physical log (R355). -/

namespace Sys2Proof.Laws

open Sys2Proof.Machine

/-! ## Numbers as bytes -/

@[simp] theorem length_natBytes (n v : Nat) : (natBytes n v).length = n := by
  induction n generalizing v with
  | zero => rfl
  | succ n ih => simp [natBytes, ih]

@[simp] theorem length_rdBytes (m : List Host.Cell) (a n : Nat) : (rdBytes m a n).length = n := by simp [rdBytes]

/-- The low bytes of a number hold what is left of it modulo their range. -/
theorem bytesNat_natBytes (n v : Nat) : bytesNat (natBytes n v) = v % 256 ^ n := by
  induction n generalizing v with
  | zero => simp [natBytes, bytesNat, Nat.mod_one]
  | succ n ih =>
    calc (BitVec.ofNat 8 v).toNat + 256 * bytesNat (natBytes n (v / 256))
        = v % 256 + 256 * (v / 256 % 256 ^ n) := by rw [ih, BitVec.toNat_ofNat]
      _ = v % 256 ^ (n + 1) := by rw [Nat.pow_succ', Nat.mod_mul]

/-- Bytes are those of the number that they hold. -/
theorem natBytes_bytesNat (bs : List Byte) : natBytes bs.length (bytesNat bs) = bs := by
  induction bs with
  | nil => rfl
  | cons b bs ih =>
    have hlow : BitVec.ofNat 8 (b.toNat + 256 * bytesNat bs) = b := by
      apply BitVec.eq_of_toNat_eq
      have := b.isLt
      rw [BitVec.toNat_ofNat]
      omega
    have hhigh : (b.toNat + 256 * bytesNat bs) / 256 = bytesNat bs := by
      have := b.isLt
      omega
    rw [List.length_cons, natBytes, bytesNat, hlow, hhigh, ih]

theorem natBytes_rdBytes (m : List Host.Cell) (a n : Nat) : natBytes n (bytesNat (rdBytes m a n)) = rdBytes m a n := by
  simpa using natBytes_bytesNat (rdBytes m a n)

/-- The bytes of a list by their places. -/
theorem map_getD_range (bs : List Byte) : ((List.range bs.length).map fun i => bs.getD i 0) = bs :=
  List.ext_getElem (by simp) fun i h1 h2 => by simp [h2]

theorem bitsOf_lt (x hi lo : Nat) : bitsOf x hi lo < 2 ^ (hi - lo + 1) := Nat.mod_lt _ (Nat.two_pow_pos _)

/-! ## Stores -/

/-- Bytes written below the ganged keys read back. -/
theorem rdBytes_wrBytes_self {m : List Host.Cell} {a n : Nat} {bs : List Byte} (hwf : Memory.wf m = true) (hn : bs.length = n)
    (ha : a + n ≤ gangBase) : rdBytes (wrBytes m a bs) a n = bs := by
  subst hn
  exact rdBytes_wrBytes hwf (.inl ha)

/-- Bytes below the ganged keys stand where others are written below them. -/
theorem rdBytes_wrBytes_below {m : List Host.Cell} {a b n : Nat} {bs : List Byte} (ha : a + n ≤ gangBase) (hb : b + bs.length ≤ a) :
    rdBytes (wrBytes m b bs) a n = rdBytes m a n := by
  refine List.map_congr_left fun i hi => ?_
  have := List.mem_range.1 hi
  exact rdByte_wrBytes_apart (by omega) (by rw [cell_plain (by omega)]; omega)

theorem readTables_mem (l : List (Nat × Nat)) (s : State) : (l.foldl (fun s p => s.readTable p.1 p.2) s).mem = s.mem := by
  induction l generalizing s with
  | nil => rfl
  | cons p l ih => exact ih _

theorem readTables_hostOut (l : List (Nat × Nat)) (s : State) : (l.foldl (fun s p => s.readTable p.1 p.2) s).hostOut = s.hostOut := by
  induction l generalizing s with
  | nil => rfl
  | cons p l ih => exact ih _

section store
variable {s : State} {core key : Nat} {bs : List Byte} {st : Option Stamp} (hdead : s.deadFr = []) (hkey : keyRegion key ≠ 4)
include hdead hkey

/-- Outside the benches, and where no frame is dead, a store puts its bytes and reads method tables again. -/
theorem store_eq_readTables (hbs : bs ≠ []) :
    s.store core key bs st = ((s.put key bs st).targetsAt key bs.length).foldl (fun s p => s.readTable p.1 p.2) (s.put key bs st) := by
  simp [State.store, State.deadIn, hdead, hkey, hbs]

theorem store_mem : (s.store core key bs st).mem = wrBytes s.mem key bs := by
  by_cases hbs : bs = []
  · subst hbs; rfl
  · rw [store_eq_readTables hdead hkey hbs, readTables_mem]; rfl

theorem store_hostOut : (s.store core key bs st).hostOut = s.hostOut := by
  by_cases hbs : bs = []
  · subst hbs; rfl
  · rw [store_eq_readTables hdead hkey hbs, readTables_hostOut]; rfl

end store

/-! ## The physical error log (R355) -/

@[simp] theorem put_mem (s : State) (key : Nat) (bs : List Byte) (st : Option Stamp) : (s.put key bs st).mem = wrBytes s.mem key bs := rfl
@[simp] theorem put_hostOut (s : State) (key : Nat) (bs : List Byte) (st : Option Stamp) : (s.put key bs st).hostOut = s.hostOut := rfl

@[simp] theorem length_errorRecord (addr cycle task group detail asid part cause kind : Nat) :
    (errorRecord addr cycle task group detail asid part cause kind).length = 32 := by simp [errorRecord]

theorem ringAppend_hostOut (s : State) (key : Nat → Option Nat) (cap : Nat) (r : List Byte) :
    (s.ringAppend key cap r).hostOut = s.hostOut := by
  unfold State.ringAppend
  split
  · extract_lets
    split
    · rfl
    · split <;> rfl
  · rfl

theorem logRecord_hostOut (s : State) (addr task group detail asid part cause kind : Nat) :
    (s.logRecord addr task group detail asid part cause kind).hostOut = s.hostOut := by
  unfold State.logRecord
  extract_lets
  split
  · exact ringAppend_hostOut ..
  · rfl

/-- A ring with room takes a record in the place of its tail, and then the next tail. -/
theorem ringAppend_room {s : State} {key : Nat → Option Nat} {cap kt kh kd kr : Nat} {r : List Byte}
    (ht : key 0 = some kt) (hh : key 8 = some kh) (hd : key 16 = some kd) (hr : key (64 + 32 * (rdNat s.mem kt 8 % 2 ^ cap)) = some kr)
    (hroom : (rdNat s.mem kt 8 + 2 ^ 64 - rdNat s.mem kh 8) % 2 ^ 64 < 2 ^ cap) :
    s.ringAppend key cap r = (s.put kr r none).put kt (natBytes 8 (rdNat s.mem kt 8 + 1)) none := by
  simp only [State.ringAppend, ht, hh, hd, hr]
  rw [if_neg (Nat.not_le.2 hroom)]

/-- The physical log with room: the record stands in the place of the tail, and the tail has gone on by one. -/
theorem logRecord_room {s : State} {cap ring tail : Nat} (addr task group detail asid part cause kind : Nat) (hwf : Memory.wf s.mem = true)
    (hcap : bitsOf (fget 0 16 s.errq).toNat 4 0 = cap) (hring : bitsOf (fget 0 16 s.errq).toNat 56 12 * 4096 = ring)
    (htail : rdNat s.mem ring 8 = tail) (h4 : 4 ≤ cap) (h16 : cap ≤ 16) (hend : ring + 64 + 32 * 2 ^ cap ≤ gangBase)
    (hroom : (tail + 2 ^ 64 - rdNat s.mem (ring + 8) 8) % 2 ^ 64 < 2 ^ cap) :
    let t := s.logRecord addr task group detail asid part cause kind
    rdBytes t.mem (ring + 64 + 32 * (tail % 2 ^ cap)) 32 = errorRecord addr s.cycle task group detail asid part cause kind ∧
      rdNat t.mem ring 8 = (tail + 1) % 2 ^ 64 := by
  intro t
  have hslot : tail % 2 ^ cap < 2 ^ cap := Nat.mod_lt _ (Nat.two_pow_pos _)
  have ht : t = (s.put (ring + 64 + 32 * (tail % 2 ^ cap)) (errorRecord addr s.cycle task group detail asid part cause kind) none).put ring
      (natBytes 8 (tail + 1)) none := by
    subst htail
    simp only [t, State.logRecord, hcap, hring, h4, h16, decide_true, Bool.and_true, if_true]
    exact ringAppend_room rfl rfl rfl (by simp only [hbmKey, Nat.add_assoc]) hroom
  have hrecord := rdBytes_wrBytes_self (a := ring + 64 + 32 * (tail % 2 ^ cap)) hwf
    (length_errorRecord addr s.cycle task group detail asid part cause kind) (by omega)
  have hnext := rdBytes_wrBytes_self (a := ring) (wf_wrBytes (ring + 64 + 32 * (tail % 2 ^ cap))
    (errorRecord addr s.cycle task group detail asid part cause kind) hwf) (length_natBytes 8 (tail + 1)) (by omega)
  constructor
  · rw [ht, put_mem, put_mem, rdBytes_wrBytes_below (by omega) (by rw [length_natBytes]; omega), hrecord]
  · rw [ht, put_mem, put_mem, rdNat, hnext, bytesNat_natBytes, show 256 ^ 8 = 2 ^ 64 by norm_num]

end Sys2Proof.Laws
end

section
/-! SUPPORT. The host's accesses: the control block (R320, R334, R355), BAR2 of function 0 (R324) and the mailboxes (R285, R325). -/

namespace Sys2Proof.Laws

open Sys2Proof.Machine

/-! ## The control block -/

/-- A write changes none but the registers that only hold their value. -/
theorem controlWrite_eq (s : State) (off : Nat) (v : DWord) : ∃ a b c d e,
    s.controlWrite off v = { s with traddr := a, ctxbase := b, wpaddr := c, wpctl := d, errq := e } := by
  unfold State.controlWrite
  extract_lets
  split_ifs <;> exact ⟨_, _, _, _, _, rfl⟩

theorem controlWrite_traddr (s : State) (off : Nat) (v : DWord) : (s.controlWrite off v).traddr.toNat =
    if off = 0x000 then bitsOf v.toNat 56 16 * 65536 else s.traddr.toNat := by
  have hbits := bitsOf_lt v.toNat 56 16
  by_cases h : off = 0x000
  · subst h
    change (BitVec.ofNat 64 (bitsOf v.toNat 56 16 * 65536)).toNat = _
    rw [if_pos rfl, BitVec.toNat_ofNat]; omega
  · unfold State.controlWrite
    extract_lets n
    rw [if_neg h, if_neg h]; split_ifs <;> rfl

theorem controlWrite_ctxbase (s : State) (off : Nat) (v : DWord) : (s.controlWrite off v).ctxbase = if off = 0x010 then v else s.ctxbase := by
  unfold State.controlWrite
  extract_lets n
  by_cases h : off = 0x010
  · subst h; rfl
  · rw [if_neg h, if_neg h]; split_ifs <;> rfl

theorem controlWrite_wpaddr (s : State) (off : Nat) (v : DWord) : (s.controlWrite off v).wpaddr.toNat =
    if off = 0x028 then bitsOf v.toNat 56 3 * 8 else s.wpaddr.toNat := by
  have hbits := bitsOf_lt v.toNat 56 3
  by_cases h : off = 0x028
  · subst h
    change (BitVec.ofNat 64 (bitsOf v.toNat 56 3 * 8)).toNat = _
    rw [if_pos rfl, BitVec.toNat_ofNat]; omega
  · unfold State.controlWrite
    extract_lets n
    rw [if_neg h, if_neg h]; split_ifs <;> rfl

theorem controlWrite_wpctl (s : State) (off : Nat) (v : DWord) : (s.controlWrite off v).wpctl.toNat =
    if off = 0x030 then bitsOf v.toNat 47 16 * 65536 + v.toNat % 2 ^ 15 else s.wpctl.toNat := by
  have hbits := bitsOf_lt v.toNat 47 16
  by_cases h : off = 0x030
  · subst h
    change (BitVec.ofNat 64 (bitsOf v.toNat 47 16 * 65536 + v.toNat % 2 ^ 15)).toNat = _
    rw [if_pos rfl, BitVec.toNat_ofNat]; omega
  · unfold State.controlWrite
    extract_lets n
    rw [if_neg h, if_neg h]; split_ifs <;> rfl

/-- The offset of the register of an error queue: that of the physical log, 16, or of a partition. -/
def errqOff (p : Nat) : Nat := if p = 16 then 0x038 else 0x100 + 8 * p

/-- At its offset a write sets an error queue's register. -/
theorem controlWrite_errq_at (s : State) {p : Nat} (hp : p < 17) (v : DWord) : (s.controlWrite (errqOff p) v).errq =
    fset 0 p (BitVec.ofNat 64 (bitsOf v.toNat 56 12 * 4096 + v.toNat % 32)) s.errq := by
  by_cases h : p = 16
  · subst h; rfl
  · simp only [errqOff, if_neg h, State.controlWrite]
    rw [if_neg (by omega), if_neg (by omega), if_neg (by omega), if_neg (by omega), if_neg (by omega), if_pos (by simp; omega)]
    simp only [show (0x100 + 8 * p - 0x100) / 8 = p by omega]

/-- At any other offset it leaves it as it is. -/
theorem controlWrite_errq_other (s : State) {off p : Nat} (hp : p < 17) (h : off ≠ errqOff p) (v : DWord) :
    fget 0 p (s.controlWrite off v).errq = fget 0 p s.errq := by
  unfold State.controlWrite
  extract_lets n
  split_ifs with h0 h1 h2 h3 h4 h5
  · rfl
  · rfl
  · rfl
  · rfl
  · exact fget_fset_ne (by rintro rfl; exact h h4)
  · simp only [Bool.and_eq_true, decide_eq_true_eq] at h5
    refine fget_fset_ne fun e => h ?_
    rw [errqOff, if_neg (by omega)]; omega
  · rfl

theorem controlWrite_errq (s : State) (hc : Canon 0 s.errq) (off : Nat) (v : DWord) {p : Nat} (hp : p < 17) :
    (fget 0 p (s.controlWrite off v).errq).toNat =
      if off = errqOff p then bitsOf v.toNat 56 12 * 4096 + v.toNat % 32 else (fget 0 p s.errq).toNat := by
  by_cases h : off = errqOff p
  · have hbits := bitsOf_lt v.toNat 56 12
    rw [if_pos h, h, controlWrite_errq_at s hp, fget_fset_self hc, BitVec.toNat_ofNat]; omega
  · rw [if_neg h, controlWrite_errq_other s hp h]

/-! ## The bytes that a host access reaches -/

theorem allSome_map {α β : Type} {f : α → Option β} {g : α → β} {l : List α} (h : ∀ x ∈ l, f x = some (g x)) :
    allSome (l.map f) = some (l.map g) := by
  induction l with
  | nil => rfl
  | cons x l ih =>
    simp only [List.map_cons, h x (by simp), allSome, ih fun y hy => h y (by simp [hy]), Option.map_some]

/-- The bytes of HBM at a physical address, each with its glazier. -/
def hbmBytes (pa n : Nat) : List (Nat × UnitRef) := (List.range n).map fun i => (pa + i, ⟨.glazier, hbmChannel (pa + i) false⟩)

theorem hbmBytes_keys (pa n : Nat) : (hbmBytes pa n).map (·.1) = List.range' pa n := by
  simp [hbmBytes, List.range'_eq_map_range, Function.comp_def]

theorem hbmBytes_kind {pa n : Nat} {x : Nat × UnitRef} (h : x ∈ hbmBytes pa n) : x.2.kind = .glazier := by
  obtain ⟨i, -, rfl⟩ := List.mem_map.1 h
  rfl

/-- Nothing holds or disturbs a host access to HBM: no older one and no request waits, no view holds its bytes, every stack serves, and no
atom is poisoned, in error or dead. -/
structure HostFree (s : State) : Prop where
  held : s.hostHeld = []
  idle : ∀ u, (s.place u).queue = [] ∧ (s.place u).deadReq = []
  views : s.staleViews = []
  refresh : s.refresh = []
  serving : s.badStacks = []
  poison : s.poison = []
  soft : s.soft = []
  dead : s.deadFr = []
  wf : Memory.wf s.mem = true
  stage : 2 ≤ s.stage

/-- Bytes that lie in the control block, as the window of function 0 reaches it (R320, R324; log 79). -/
def InBlock (pa n : Nat) : Prop := 2 ^ 51 ≤ pa ∧ pa + n ≤ 2 ^ 51 + 65536

theorem hostTarget_window {s : State} {off n : Nat} (need : Need) (hoff : off + n ≤ 2 ^ 38) (hb : ¬ InBlock (s.apwin.toNat + off) n) :
    s.hostTarget 0 off n need =
      (allSome ((List.range n).map fun i => s.physByte (s.apwin.toNat + off + i))).elim HostTarget.refused HostTarget.bytes := by
  have hblock : (decide (2 ^ 51 ≤ s.apwin.toNat + off) && decide (s.apwin.toNat + off + n ≤ 2 ^ 51 + 65536)) = false := by
    simpa [InBlock] using hb
  unfold State.hostTarget
  rw [if_neg (Nat.not_lt.2 hoff), if_pos rfl]
  extract_lets pa
  rw [if_neg (by simp only [pa, hblock, Bool.false_eq_true, not_false_eq_true])]
  show _ = (allSome ((List.range n).map fun i => s.physByte (pa + i))).elim HostTarget.refused HostTarget.bytes
  cases allSome ((List.range n).map fun i => s.physByte (pa + i)) <;> rfl

/-- The window past the end of HBM reaches nothing but the control block. -/
theorem hostTarget_past {s : State} {off n : Nat} (need : Need) (hoff : off + n ≤ 2 ^ 38) (hpa : 2 ^ 39 ≤ s.apwin.toNat + off) (hn : 0 < n)
    (hb : ¬ InBlock (s.apwin.toNat + off) n) : s.hostTarget 0 off n need = .refused := by
  obtain ⟨k, rfl⟩ : ∃ k, n = k + 1 := ⟨n - 1, by omega⟩
  have hfirst : s.physByte (s.apwin.toNat + off + 0) = none := by
    unfold State.physByte
    rw [if_pos (by simp only [Bool.or_eq_true, decide_eq_true_eq]; omega)]
  rw [hostTarget_window need hoff hb, List.range_succ_eq_map, List.map_cons, hfirst]
  rfl

section free
variable {s : State} (h : HostFree s)
include h

theorem physByte_hbm {pa : Nat} (hpa : pa < 2 ^ 39) : s.physByte pa = some (pa, ⟨.glazier, hbmChannel pa false⟩) := by
  have hstage := h.stage
  unfold State.physByte
  rw [if_neg (by simp [h.serving]; omega)]
  rfl

theorem hostTarget_hbm {off n : Nat} (need : Need) (hoff : off + n ≤ 2 ^ 38) (hpa : s.apwin.toNat + off + n ≤ 2 ^ 39) :
    s.hostTarget 0 off n need = .bytes (hbmBytes (s.apwin.toNat + off) n) := by
  have hall : allSome ((List.range n).map fun i => s.physByte (s.apwin.toNat + off + i)) = some (hbmBytes (s.apwin.toNat + off) n) :=
    allSome_map fun i hi => physByte_hbm h (by have := List.mem_range.1 hi; omega)
  rw [hostTarget_window need hoff (by unfold InBlock; omega), hall, Option.elim_some]

theorem stackHeld_free (u : UnitRef) : s.stackHeld u = false := by simp [State.stackHeld, h.refresh]

theorem hostLost_free (l : List (Nat × UnitRef)) : s.hostLost l = false := by simp [State.hostLost, stackHeld_free h]

theorem mayStart_free (u : UnitRef) (n : Nat) (spans : List (Nat × Nat)) : s.mayStart u n spans = true := by
  have hdeclared : s.declaredBefore u n spans = false := by simp [State.declaredBefore, (h.idle _).2]
  simp [State.mayStart, stackHeld_free h, hdeclared, (h.idle u).1]

theorem hostWaits_free (off : Nat) (l : List (Nat × UnitRef)) (writes : Bool) : s.hostWaits 0 off l writes = false := by
  simp [State.hostWaits, h.held, mayStart_free h, State.staleCell, h.views]

theorem deadAt_free (key : Nat) : s.deadAt key = false := by simp [State.deadAt, State.deadCell, h.dead, fget]

/-- Bytes are found as memory holds them. -/
theorem found_free (key va n : Nat) : (s.found key va n).bytes = rdBytes s.mem key n ∧ (s.found key va n).bad = none := by
  constructor
  · simp [State.found, deadAt_free h, h.poison, rdBytes]
  · simp [State.found, deadAt_free h, h.poison]

theorem hostBytes_hbm (pa n : Nat) : s.hostBytes (hbmBytes pa n) = rdBytes s.mem pa n := by
  refine List.ext_getElem (by simp [State.hostBytes, hbmBytes]) fun i h1 h2 => ?_
  have hn : i < n := by simpa using h2
  simp [State.hostBytes, hbmBytes, (found_free h _ _ _).1, (found_free h _ _ _).2, rdBytes]

end free

/-! ## What an access that is performed does -/

theorem started_places (s : State) (u : UnitRef) (n : Nat) (spans : List (Nat × Nat)) :
    ∃ p, s.started u n spans = { s with places := p } := by
  unfold State.started
  split <;> exact ⟨_, rfl⟩

theorem starts_places (l : List (UnitRef × List (Nat × Nat))) (s : State) :
    ∃ p, l.foldl (fun s p => s.started p.1 s.fresh p.2) s = { s with places := p } := by
  induction l generalizing s with
  | nil => exact ⟨s.places, rfl⟩
  | cons x l ih =>
    obtain ⟨p, hp⟩ := started_places s x.1 s.fresh x.2
    rw [List.foldl_cons, hp]
    exact ih _

/-- An access that reaches its places changes these alone. -/
theorem hostVisit_places (s : State) (l : List (Nat × UnitRef)) : ∃ p, s.hostVisit l = { s with places := p } := starts_places _ s

theorem correct_free {s : State} (hs : s.soft = []) (l : List (Nat × UnitRef)) : l.foldl (fun s x => s.correct x.1 1) s = s := by
  induction l with
  | nil => rfl
  | cons x l ih => rw [List.foldl_cons, State.correct, if_pos hs, ih]

/-- Bytes at consecutive keys are one run. -/
theorem keyRuns_range' (a : Nat) (bs : List Byte) (hbs : bs ≠ []) : keyRuns ((List.range' a bs.length).zip bs) = [(a, bs)] := by
  induction bs generalizing a with
  | nil => exact absurd rfl hbs
  | cons b bs ih =>
    rw [List.length_cons, List.range'_succ, List.zip_cons_cons, keyRuns]
    cases bs with
    | nil => rfl
    | cons c bs => rw [ih (a + 1) (by simp)]; simp

/-- So they are stored at once. -/
theorem plainStore_range' (s : State) (a : Nat) (bs : List Byte) : s.plainStore (List.range' a bs.length) bs = s.store 0 a bs none := by
  by_cases hbs : bs = []
  · subst hbs; rfl
  · rw [State.plainStore, keyRuns_range' a bs hbs]; rfl

/-- An AtomicOp on sound bytes that are found whole stores its result and answers the old value. -/
theorem hostAtomic_stores {s : State} {pa n val cmp v : Nat} {old : List Byte} {op : AtomOp} (hn : 0 < n) (hold : (s.found pa 0 n).bytes = old)
    (hbad : (s.found pa 0 n).bad = none) (hv : atomNew op n (bytesNat old) val cmp = some v) :
    s.hostAtomic (hbmBytes pa n) op n val cmp = (s.store 0 pa (natBytes n v) none).hostAnswer (natBytes n (bytesNat old)) := by
  have hfirst : (List.range' pa n).headD 0 = pa := by
    obtain ⟨k, rfl⟩ : ∃ k, n = k + 1 := ⟨n - 1, by omega⟩
    rfl
  have hstore := plainStore_range' s pa (natBytes n v)
  rw [length_natBytes] at hstore
  simp only [State.hostAtomic, hbmBytes_keys, hfirst, hold, hbad, hv, Option.isSome_none, Bool.false_eq_true, if_false, hstore]

/-! ## Accesses of function 0 through BAR2 -/

theorem exec_bar2HostRead (fn off len : Nat) (s : State) : exec (.bar2HostRead fn off len) s = execBar2HostRead fn off len s := rfl
theorem exec_bar2HostWrite (fn off : Nat) (data : List Byte) (s : State) :
    exec (.bar2HostWrite fn off data) s = execBar2HostWrite fn off data s := rfl
theorem exec_bar2HostAtomic (fn off : Nat) (op : AtomOp) (size val cmp : Nat) (s : State) :
    exec (.bar2HostAtomic fn off op size val cmp) s = execBar2HostAtomic fn off op size val cmp s := rfl

section hbm
variable {s : State} (h : HostFree s) {off n : Nat}
include h

theorem hostRead_hbm (hoff : off + n ≤ 2 ^ 38) (hpa : s.apwin.toNat + off + n ≤ 2 ^ 39) :
    ∃ t, exec (.bar2HostRead 0 off n) s = .next t ∧ t.mem = s.mem ∧ t.hostOut = rdBytes s.mem (s.apwin.toNat + off) n :: s.hostOut := by
  obtain ⟨p, hp⟩ := hostVisit_places s (hbmBytes (s.apwin.toNat + off) n)
  rw [exec_bar2HostRead, execBar2HostRead, hostTarget_hbm h _ hoff hpa]
  simp only [hostWaits_free h, hostLost_free h, Bool.false_eq_true, if_false, hostBytes_hbm h]
  rw [hp, correct_free (s := { s with places := p, free := s.free + n }) h.soft]
  exact ⟨_, rfl, rfl, rfl⟩

theorem hostWrite_hbm {data : List Byte} (hoff : off + data.length ≤ 2 ^ 38) (hpa : s.apwin.toNat + off + data.length ≤ 2 ^ 39) :
    ∃ t, exec (.bar2HostWrite 0 off data) s = .next t ∧ t.mem = wrBytes s.mem (s.apwin.toNat + off) data := by
  obtain ⟨p, hp⟩ := hostVisit_places s (hbmBytes (s.apwin.toNat + off) data.length)
  rw [exec_bar2HostWrite, execBar2HostWrite, hostTarget_hbm h _ hoff hpa]
  simp only [hostWaits_free h, hostLost_free h, Bool.false_eq_true, if_false, hbmBytes_keys, plainStore_range']
  rw [hp]
  exact ⟨_, rfl, store_mem h.dead (by unfold keyRegion region; omega)⟩

theorem hostAtomic_hbm {op : AtomOp} {val cmp v : Nat} (hop : hostTakes op = true) (hsize : n = 4 ∨ n = 8) (halign : off % n = 0)
    (hoff : off + n ≤ 2 ^ 38) (hpa : s.apwin.toNat + off + n ≤ 2 ^ 39)
    (hv : atomNew op n (bytesNat (rdBytes s.mem (s.apwin.toNat + off) n)) val cmp = some v) :
    ∃ t, exec (.bar2HostAtomic 0 off op n val cmp) s = .next t ∧ t.hostOut = rdBytes s.mem (s.apwin.toNat + off) n :: s.hostOut ∧
      t.mem = wrBytes s.mem (s.apwin.toNat + off) (natBytes n v) := by
  obtain ⟨p, hp⟩ := hostVisit_places s (hbmBytes (s.apwin.toNat + off) n)
  have hok : hostAtomicOk off op n = true := by simp [hostAtomicOk, hop, hsize, halign]
  have hhost : (hbmBytes (s.apwin.toNat + off) n).any (fun x => x.2.kind = .host) = false :=
    List.any_eq_false.2 fun x hx => by simp [hbmBytes_kind hx]
  have hfound := found_free h (s.apwin.toNat + off) 0 n
  rw [exec_bar2HostAtomic, execBar2HostAtomic, hok, if_pos rfl, hostTarget_hbm h _ hoff hpa]
  simp only [hostWaits_free h, hostLost_free h, hhost, Bool.false_eq_true, if_false, hp]
  rw [hostAtomic_stores (s := { s with places := p }) (by omega) hfound.1 hfound.2 hv]
  have hkey : keyRegion (s.apwin.toNat + off) ≠ 4 := by unfold keyRegion region; omega
  refine ⟨_, rfl, ?_, store_mem h.dead hkey⟩
  rw [natBytes_rdBytes]
  exact congrArg (_ :: ·) (store_hostOut h.dead hkey)

end hbm

/-! ## Refusals (R354, R355) -/

/-- A refused access of function 0 leaves the Scrivener's record and that of the physical log (R355, R358). -/
theorem hostRefused_eq (s : State) (off n : Nat) (need : Need) : s.hostRefused 0 off n need =
    (s.recordWalk 0 0 (some (0x11, s.apwin.toNat + off, 0))).logRecord (s.apwin.toNat + off) 0 0xFFFFFFFF 0 0 0 0 7 := rfl

theorem hostRefused_hostOut (s : State) (off n : Nat) (need : Need) : (s.hostRefused 0 off n need).hostOut = s.hostOut := by
  rw [hostRefused_eq, logRecord_hostOut]; rfl

theorem hostRead_past {s : State} {off n : Nat} (hoff : off + n ≤ 2 ^ 38) (hpa : 2 ^ 39 ≤ s.apwin.toNat + off) (hn : 0 < n)
    (hb : ¬ InBlock (s.apwin.toNat + off) n) :
    exec (.bar2HostRead 0 off n) s = .next ((s.hostRefused 0 off n .read).hostAnswer []) := by
  rw [exec_bar2HostRead, execBar2HostRead, hostTarget_past _ hoff hpa hn hb]

theorem hostWrite_past {s : State} {off : Nat} {data : List Byte} (hoff : off + data.length ≤ 2 ^ 38)
    (hpa : 2 ^ 39 ≤ s.apwin.toNat + off) (hdata : data ≠ []) (hb : ¬ InBlock (s.apwin.toNat + off) data.length) :
    exec (.bar2HostWrite 0 off data) s = .next (s.hostRefused 0 off data.length .write) := by
  rw [exec_bar2HostWrite, execBar2HostWrite, hostTarget_past _ hoff hpa (List.length_pos_iff.2 hdata) hb]

/-! ## Mailboxes (R285, R325) -/

@[simp] theorem modBox_box (s : State) (part m : Nat) (f : Mailbox → Mailbox) :
    ((s.modBox part m f).part part).box m = f ((s.part part).box m) := by
  simp [State.modBox, Partition.box]

@[simp] theorem modBox_mem (s : State) (part m : Nat) (f : Mailbox → Mailbox) : (s.modBox part m f).mem = s.mem := rfl

theorem exec_mailboxInboundWrite (fn mbx off : Nat) (data : List Byte) (s : State) :
    exec (.mailboxInboundWrite fn mbx off data) s = execMailboxInboundWrite fn mbx off data s := rfl
theorem exec_mailboxOutboundRead (fn : Nat) (r : BoxRead) (s : State) :
    exec (.mailboxOutboundRead fn r) s = execMailboxOutboundRead fn r s := rfl
theorem exec_mailboxStatusRead (fn : Nat) (r : BoxRead) (s : State) : exec (.mailboxStatusRead fn r) s = .next (s.bar0Read fn r) := rfl

section mailbox
variable {fn mbx part m : Nat} {s : State} (hbox : boxOf fn mbx = some (part, m))
include hbox

/-- A message that finds room enters the ring. -/
theorem inboundWrite_room {data : List Byte} (hlen : data.length = 64) (hroom : ((s.part part).box m).inbound.length < 16) :
    ∃ t, exec (.mailboxInboundWrite fn mbx 0 data) s = .next t ∧ t.mem = s.mem ∧ (t.part part).box m =
      { (s.part part).box m with inbound := ((s.part part).box m).inbound ++ [(data, decide (fn = 0))] } := by
  have hfits : ((0 != 0) || data.length != 64 || decide (16 ≤ ((s.part part).box m).inbound.length)) = false := by simp [hlen, hroom]
  rw [exec_mailboxInboundWrite, execMailboxInboundWrite, hbox]
  simp only [hfits, Bool.false_eq_true, if_false, show ¬ 0x40 ≤ 0 by omega]
  have hring := modBox_box s part m fun b => { b with inbound := b.inbound ++ [(data, decide (fn = 0))] }
  refine ⟨_, rfl, ?_⟩
  split
  · exact ⟨rfl, hring⟩
  · exact ⟨rfl, hring⟩

/-- Any other write in the ring's window is dropped and counted. -/
theorem inboundWrite_dropped {off : Nat} {data : List Byte} (hoff : off < 0x40)
    (hbad : off ≠ 0 ∨ data.length ≠ 64 ∨ 16 ≤ ((s.part part).box m).inbound.length) :
    ∃ t, exec (.mailboxInboundWrite fn mbx off data) s = .next t ∧ (t.part part).box m =
      { (s.part part).box m with overrun := ((s.part part).box m).overrun + 1 } := by
  have hdrop : (off != 0 || data.length != 64 || decide (16 ≤ ((s.part part).box m).inbound.length)) = true := by
    simpa [or_assoc] using hbad
  rw [exec_mailboxInboundWrite, execMailboxInboundWrite, hbox]
  simp only [hdrop, if_true, if_neg (Nat.not_le.2 hoff)]
  exact ⟨_, rfl, modBox_box s part m _⟩

/-- A read of the outbound window takes the oldest message. -/
theorem outboundRead_message {x : List Byte} {rest : List (List Byte)} (hout : ((s.part part).box m).outbound = x :: rest) :
    ∃ t, exec (.mailboxOutboundRead fn ⟨mbx, 0x40, 64⟩) s = .next t ∧ t.hostOut = x :: s.hostOut ∧
      (t.part part).box m = { (s.part part).box m with outbound := rest } := by
  have hring := modBox_box s part m fun b => { b with outbound := rest }
  simp only [exec_mailboxOutboundRead, execMailboxOutboundRead, hbox, hout]
  exact ⟨_, rfl, rfl, hring⟩

theorem outboundRead_empty (hout : ((s.part part).box m).outbound = []) :
    exec (.mailboxOutboundRead fn ⟨mbx, 0x40, 64⟩) s = .next (s.hostAnswer (List.replicate 64 0)) := by
  simp only [exec_mailboxOutboundRead, execMailboxOutboundRead, hbox, hout]
  rfl

/-- From 0x80 on a mailbox window holds the status word, and zero after it. -/
theorem bar0Byte_status {k : Nat} (hk : 0x80 ≤ k) :
    s.bar0Byte fn mbx k = (natBytes 8 ((s.part part).box m).status).getD (k - 0x80) 0 := by
  simp only [State.bar0Byte, hbox]
  rw [if_neg (by omega)]

theorem statusRead_word : ((List.range 8).map fun i => s.bar0Byte fn mbx (0x80 + i)) = natBytes 8 ((s.part part).box m).status := by
  have hbytes := map_getD_range (natBytes 8 ((s.part part).box m).status)
  rw [length_natBytes] at hbytes
  refine (List.map_congr_left fun i _ => ?_).trans hbytes
  rw [bar0Byte_status hbox (by omega), Nat.add_sub_cancel_left]

theorem statusRead_reserved {off : Nat} (hoff : 0x88 ≤ off) (len : Nat) :
    ((List.range len).map fun i => s.bar0Byte fn mbx (off + i)) = List.replicate len 0 := by
  refine List.eq_replicate_iff.2 ⟨by simp, fun b hb => ?_⟩
  obtain ⟨i, -, rfl⟩ := List.mem_map.1 hb
  rw [bar0Byte_status hbox (by omega)]
  exact List.getD_eq_default _ _ (by rw [length_natBytes]; omega)

end mailbox

end Sys2Proof.Laws
end

section
/-! THEOREMS. What the host's accesses do. -/

namespace Sys2Proof.Laws

open Sys2Proof.Machine

/-- Settles O51: the access reaches HBM where nothing holds it, and acts there as one store; past HBM it leaves its record in the ring of the
physical log; the mailboxes and the registers change one by one. -/
theorem hostAccesses : Obligations.HostAccesses := by
  unfold Obligations.HostAccesses
  refine ⟨fun v s => rfl, ?controlBlock, ?window, ?mailboxes⟩
  case controlBlock =>
    intro off v s n
    obtain ⟨a, b, c, d, e, heq⟩ := controlWrite_eq s off v
    refine ⟨s.controlWrite off v, rfl, ?_, controlWrite_traddr s off v, controlWrite_ctxbase s off v, controlWrite_wpaddr s off v,
      controlWrite_wpctl s off v, fun hc p hp => controlWrite_errq s hc off v hp⟩
    rw [heq]
  case window =>
    rintro off s pa free ⟨held, idle, views, refresh, serving, poison, soft, dead, wf⟩ stage
    have h : HostFree s := ⟨held, idle, views, refresh, serving, poison, soft, dead, wf, stage⟩
    have hbelow : ∀ n, pa + n ≤ 2 ^ 39 → pa + n ≤ gangBase := fun n hn => by unfold gangBase; omega
    refine ⟨fun n hoff hpa => hostRead_hbm h hoff hpa, ?refusedRead, ?recorded, ?write, ?atomic⟩
    case refusedRead =>
      intro n hoff hpa hn hb
      exact ⟨_, hostRead_past hoff hpa hn hb, congrArg ([] :: ·) (hostRefused_hostOut s off n .read)⟩
    case recorded =>
      intro data hoff hpa hdata hb reg cap ring tail h4 h16 hend hroom e he
      have hlog := logRecord_room (s := s.recordWalk 0 0 (some (0x11, pa, 0))) pa 0 0xFFFFFFFF 0 0 0 0 7 wf rfl rfl rfl h4 h16 hend hroom
      rcases he with rfl | rfl
      · exact ⟨_, hostRead_past hoff hpa (List.length_pos_iff.2 hdata) hb, hlog⟩
      · exact ⟨_, hostWrite_past hoff hpa hdata hb, hlog⟩
    case write =>
      intro data hoff hpa
      obtain ⟨t, ht, hmem⟩ := hostWrite_hbm h hoff hpa
      refine ⟨t, ht, ?_, fun a ha => ?_⟩ <;> rw [hmem]
      · exact rdBytes_wrBytes_self wf rfl (hbelow _ hpa)
      · exact rdByte_wrBytes_apart (.inl (hbelow _ hpa)) (by omega)
    case atomic =>
      intro op size val cmp hoff hpa hsize halign hop old
      have htakes : hostTakes op = true := by rcases hop with rfl | rfl | rfl <;> rfl
      obtain ⟨v, hv⟩ : ∃ v, atomNew op size old val cmp = some v := by rcases hop with rfl | rfl | rfl <;> exact ⟨_, rfl⟩
      obtain ⟨t, ht, hout, hmem⟩ := hostAtomic_hbm h htakes hsize halign hoff hpa hv
      refine ⟨t, ht, hout, ?_⟩
      rw [hmem, hv, Option.getD_some]
      exact rdBytes_wrBytes_self wf (length_natBytes size v) (hbelow _ hpa)
  case mailboxes =>
    intro fn mbx s part m hbox b
    refine ⟨fun data hlen hroom => inboundWrite_room hbox hlen hroom, fun off data hoff hbad => inboundWrite_dropped hbox hoff hbad,
      fun x rest hout => outboundRead_message hbox hout, outboundRead_empty hbox, ?status, ?reserved⟩
    case status => exact ⟨_, exec_mailboxStatusRead fn _ s, rfl, congrArg (· :: s.hostOut) (statusRead_word hbox)⟩
    case reserved =>
      intro off len hoff _
      exact ⟨_, exec_mailboxStatusRead fn _ s, rfl, congrArg (· :: s.hostOut) (statusRead_reserved hbox hoff len)⟩

end Sys2Proof.Laws
end

section
/-! SUPPORT. What rounding gives (R55, R68): the multiple of a last place that roundAt chooses, the code that a grid chooses, and when a
value is tiny. -/

namespace Sys2Proof.Laws

open Sys2Proof.Machine

/-! ## Magnitudes -/

theorem magnitude_zero (e : Int) : magnitude 0 e = 0 := by simp [magnitude]

theorem magnitude_lt {m n : Nat} {e : Int} : magnitude m e < magnitude n e ↔ m < n := by
  unfold magnitude
  rw [mul_lt_mul_iff_of_pos_right (by positivity), Nat.cast_lt]

theorem magnitude_le {m n : Nat} {e : Int} : magnitude m e ≤ magnitude n e ↔ m ≤ n := by
  unfold magnitude
  rw [mul_le_mul_iff_of_pos_right (by positivity), Nat.cast_le]

/-- A magnitude as a multiple of a smaller power of two. -/
theorem magnitude_shift (m : Nat) {e q : Int} (h : q ≤ e) : magnitude (m * 2 ^ (e - q).toNat) q = magnitude m e := by
  have hexp : e = (e - q).toNat + q := by omega
  conv_rhs => rw [hexp]
  unfold magnitude
  rw [zpow_add₀ two_ne_zero, zpow_natCast]
  push_cast
  ring

theorem magnitude_two_pow (k : Nat) (e : Int) : magnitude (2 ^ k) e = magnitude 1 (e + k) := by
  have h := magnitude_shift 1 (q := e) (e := e + k) (by omega)
  rwa [one_mul, show (e + k - e).toNat = k by omega] at h

theorem scaledInt_pos (m : Nat) (e f : Int) : Val.scaledInt false m e f = (m * 2 ^ (e - f).toNat : Nat) := by
  simp [Val.scaledInt]

theorem cmpFin_neg_iff (m : Nat) (e : Int) (n : Nat) (f : Int) : Val.cmpFin false m e false n f < 0 ↔ magnitude m e < magnitude n f := by
  have hcmp : Val.cmpFin false m e false n f < 0 ↔ m * 2 ^ (e - min e f).toNat < n * 2 ^ (f - min e f).toNat := by
    unfold Val.cmpFin
    rw [show (if e ≤ f then e else f) = min e f from (min_def e f).symm]
    simp only [scaledInt_pos, Nat.cast_lt]
    split_ifs with h1 h2
    · simp [h1]
    · simp [h1]
    · simp [h1]
  rw [hcmp, ← magnitude_shift m (min_le_left e f), ← magnitude_shift n (min_le_right e f), magnitude_lt]

/-- The binary length of a number bounds its magnitude. -/
theorem bitLen_bounds {m : Nat} (hm : m ≠ 0) : 1 ≤ bitLen m ∧ 2 ^ (bitLen m - 1) ≤ m ∧ m < 2 ^ bitLen m := by
  have h : bitLen m = Nat.log2 m + 1 := by simp [bitLen, hm]
  exact ⟨by omega, by rw [h]; exact Nat.log2_self_le hm, by rw [h]; exact Nat.lt_log2_self⟩

theorem magnitude_bounds {m : Nat} (hm : m ≠ 0) (e : Int) :
    magnitude 1 (e + bitLen m - 1) ≤ magnitude m e ∧ magnitude m e < magnitude 1 (e + bitLen m) := by
  obtain ⟨h1, h2, h3⟩ := bitLen_bounds hm
  rw [← magnitude_two_pow, show e + bitLen m - 1 = e + ((bitLen m - 1 : Nat) : Int) by omega, ← magnitude_two_pow]
  exact ⟨magnitude_le.2 h2, magnitude_lt.2 h3⟩

/-! ## The choice between two neighbours -/

/-- The model's choice by remainder and divisor is R55's choice by their quotient. -/
theorem chosenCode_quotient (r : Rnd) (neg : Bool) (a : Nat) {rem den : Nat} (hden : 0 < den) :
    chosenCode r neg a (rem / den) = if roundUp r neg (a % 2 = 1) rem den then a + 1 else a := by
  have hpos : (0 : ℚ) < den := by exact_mod_cast hden
  by_cases hrem : rem = 0
  · simp [chosenCode, roundUp, hrem]
  have hd : ((rem : ℚ) / den) ≠ 0 := by positivity
  unfold chosenCode roundUp
  rw [if_neg hd, if_neg hrem]
  cases r with
  | rne =>
    have hlt : (rem : ℚ) / den < 1 / 2 ↔ 2 * rem < den := by
      rw [div_lt_div_iff₀ hpos two_pos]; exact_mod_cast (by constructor <;> intro h <;> linarith : rem * 2 < 1 * den ↔ 2 * rem < den)
    have heq : (rem : ℚ) / den = 1 / 2 ↔ 2 * rem = den := by
      rw [div_eq_div_iff hpos.ne' two_ne_zero]; exact_mod_cast (by constructor <;> intro h <;> linarith : rem * 2 = 1 * den ↔ 2 * rem = den)
    simp only [hlt, heq]
    by_cases h1 : 2 * rem = den
    · rcases Nat.mod_two_eq_zero_or_one a with h2 | h2 <;> simp [h1, h2]
    · by_cases h2 : 2 * rem < den
      · simp [h1, h2, h2.le]
      · simp [h1, h2, show den < 2 * rem by omega]
  | rz => simp
  | rd => simp
  | ru => cases neg <;> simp
  | sr z n =>
    have hz : (z : ℚ) + 1 ≤ rem / den * 2 ^ n ↔ z < rem * 2 ^ n / den := by
      rw [← Nat.add_one_le_iff, Nat.le_div_iff_mul_le hden, div_mul_eq_mul_div, le_div_iff₀ hpos]
      exact_mod_cast Iff.rfl
    simp [hz]

/-- The choice depends on the code's parity alone. -/
theorem chosenCode_add_even (r : Rnd) (neg : Bool) {b : Nat} (hb : b % 2 = 0) (a : Nat) (d : ℚ) :
    chosenCode r neg (b + a) d = b + chosenCode r neg a d := by
  have hpar : (b + a) % 2 = a % 2 := by omega
  unfold chosenCode
  rw [hpar]
  split
  · rfl
  · cases r <;> simp only [] <;> split_ifs <;> omega

theorem chosenCode_cases (r : Rnd) (neg : Bool) (a : Nat) (d : ℚ) : chosenCode r neg a d = a ∨ chosenCode r neg a d = a + 1 := by
  unfold chosenCode
  repeat' split
  all_goals simp

/-- Rounding to a multiple of 2^q: the value is a + d of them, and the choice falls between a and the next. -/
theorem roundAt_spec (r : Rnd) (neg : Bool) (m : Nat) (e q : Int) : ∃ (a : Nat) (d : ℚ), 0 ≤ d ∧ d < 1 ∧
    magnitude m e = (a + d) * 2 ^ q ∧ roundAt r neg m e q = (chosenCode r neg a d, decide (d ≠ 0)) := by
  by_cases h : q ≤ e
  · refine ⟨m * 2 ^ (e - q).toNat, 0, le_rfl, one_pos, ?_, ?_⟩
    · rw [← magnitude_shift m h, add_zero, magnitude]
    · simp [roundAt, h, chosenCode]
  · have hden : 0 < 2 ^ (q - e).toNat := Nat.two_pow_pos _
    have hpos : (0 : ℚ) < (2 ^ (q - e).toNat : Nat) := by exact_mod_cast hden
    refine ⟨m / 2 ^ (q - e).toNat, (m % 2 ^ (q - e).toNat : Nat) / (2 ^ (q - e).toNat : Nat), by positivity, ?_, ?_, ?_⟩
    · rw [div_lt_one hpos]; exact_mod_cast Nat.mod_lt m hden
    · have hsplit : (m : ℚ) = (2 ^ (q - e).toNat : Nat) * (m / 2 ^ (q - e).toNat : Nat) + (m % 2 ^ (q - e).toNat : Nat) := by
        exact_mod_cast (Nat.div_add_mod m (2 ^ (q - e).toNat)).symm
      have hunit : (2 : ℚ) ^ q = (2 ^ (q - e).toNat : Nat) * 2 ^ e := by
        have := magnitude_shift 1 (show e ≤ q by omega)
        simpa [magnitude] using this.symm
      rw [magnitude, hunit, ← mul_assoc, add_mul, div_mul_cancel₀ _ hpos.ne', mul_comm (Nat.cast (m / _)), ← hsplit]
    · rw [chosenCode_quotient r neg _ hden]
      have hinx : (m % 2 ^ (q - e).toNat != 0) = decide (m % 2 ^ (q - e).toNat ≠ 0) := by rw [Bool.eq_iff_iff]; simp
      simp [roundAt, h, hinx]

/-! ## Grids -/

/-- Where R55's value lies between neighbours, and the choice, is determined where the magnitudes rise. -/
theorem roundsTo_unique {mag : Nat → ℚ} (hmono : StrictMono mag) {r : Rnd} {neg : Bool} {x : ℚ} {a b c c' : Nat} {d d' : ℚ}
    (h : RoundsTo mag r neg x a d c) (h' : RoundsTo mag r neg x b d' c') : a = b ∧ d = d' ∧ c = c' := by
  obtain ⟨hlo, hhi, rfl, rfl⟩ := h
  obtain ⟨hlo', hhi', rfl, rfl⟩ := h'
  have h1 : a < b + 1 := hmono.lt_iff_lt.1 (hlo.trans_lt hhi')
  have h2 : b < a + 1 := hmono.lt_iff_lt.1 (hlo'.trans_lt hhi)
  obtain rfl : a = b := by omega
  exact ⟨rfl, rfl, rfl⟩

/-- A code's magnitude rounds to that code, exactly. -/
theorem roundsTo_of_mag {mag : Nat → ℚ} (hmono : StrictMono mag) (r : Rnd) (neg : Bool) (c : Nat) : RoundsTo mag r neg (mag c) c 0 c :=
  ⟨le_rfl, hmono c.lt_succ_self, by simp, by simp [chosenCode]⟩

/-- A value that lies d of the way from a multiple of u to the next, on magnitudes that go from one to the other. -/
theorem roundsTo_of_units {mag : Nat → ℚ} {r : Rnd} {neg : Bool} {x lo u d : ℚ} {a : Nat} (hu : 0 < u) (h0 : 0 ≤ d) (h1 : d < 1)
    (hx : x = lo + d * u) (hlo : mag a = lo) (hhi : mag (a + 1) = lo + u) : RoundsTo mag r neg x a d (chosenCode r neg a d) := by
  refine ⟨?_, ?_, ?_, rfl⟩
  · rw [hx, hlo]; nlinarith
  · rw [hx, hhi]; nlinarith
  · rw [hx, hlo, hhi, add_sub_cancel_left, add_sub_cancel_left, mul_div_cancel_right₀ _ hu.ne']

/-- The integers as magnitudes (R91). -/
theorem roundAt_rounds (r : Rnd) (neg : Bool) (m : Nat) (e : Int) : ∃ a d,
    RoundsTo (fun k => (k : ℚ)) r neg (magnitude m e) a d (roundAt r neg m e 0).1 ∧ (roundAt r neg m e 0).2 = decide (d ≠ 0) := by
  obtain ⟨a, d, h0, h1, hx, hr⟩ := roundAt_spec r neg m e 0
  rw [hr]
  exact ⟨a, d, roundsTo_of_units one_pos h0 h1 (by simpa using hx) rfl (by simp), rfl⟩

/-- The magnitude of the code that stands for a multiple of the last place (R45). -/
theorem mag_of_units (g : Grid) {j a : Nat} (ha : a ≤ 2 ^ (g.mb + 1)) (hj : j = 0 ∨ 2 ^ g.mb ≤ a) :
    g.mag (j * 2 ^ g.mb + a) = magnitude a (g.q0 + j) := by
  have hpos : 0 < 2 ^ g.mb := Nat.two_pow_pos _
  have hpow : 2 ^ (g.mb + 1) = 2 * 2 ^ g.mb := Nat.pow_succ'
  by_cases hsub : a < 2 ^ g.mb
  · obtain rfl : j = 0 := by omega
    simp [Grid.mag, hsub]
  obtain ⟨f, rfl⟩ : ∃ f, a = 2 ^ g.mb + f := ⟨a - 2 ^ g.mb, by omega⟩
  have hcode : j * 2 ^ g.mb + (2 ^ g.mb + f) = f + (j + 1) * 2 ^ g.mb := by ring
  have hnorm : ¬ f + (j + 1) * 2 ^ g.mb < 2 ^ g.mb := by nlinarith
  rw [Grid.mag, hcode, if_neg hnorm, Nat.add_mul_mod_self_right, Nat.add_mul_div_right _ _ hpos]
  by_cases hf : f < 2 ^ g.mb
  · rw [Nat.mod_eq_of_lt hf, Nat.div_eq_of_lt hf]
    congr 1
    push_cast; ring
  · obtain rfl : f = 2 ^ g.mb := by omega
    rw [Nat.mod_self, Nat.div_self hpos, show 2 ^ g.mb + 2 ^ g.mb = 2 ^ (g.mb + 1) by omega, Nat.add_zero, magnitude_two_pow,
      magnitude_two_pow]
    congr 1
    push_cast; ring

/-- Every code stands for a multiple of a last place. -/
theorem code_units (g : Grid) (c : Nat) : ∃ j a, c = j * 2 ^ g.mb + a ∧ a < 2 ^ (g.mb + 1) ∧ (j = 0 ∨ 2 ^ g.mb ≤ a) := by
  have hpow : 2 ^ (g.mb + 1) = 2 * 2 ^ g.mb := Nat.pow_succ'
  have hmod : c % 2 ^ g.mb < 2 ^ g.mb := Nat.mod_lt _ (Nat.two_pow_pos _)
  have hdiv := Nat.div_add_mod' c (2 ^ g.mb)
  rcases Nat.eq_zero_or_pos (c / 2 ^ g.mb) with h | h
  · exact ⟨0, c, by omega, by rw [h] at hdiv; omega, .inl rfl⟩
  · refine ⟨c / 2 ^ g.mb - 1, 2 ^ g.mb + c % 2 ^ g.mb, ?_, by omega, .inr (by omega)⟩
    obtain ⟨k, hk⟩ : ∃ k, c / 2 ^ g.mb = k + 1 := ⟨c / 2 ^ g.mb - 1, by omega⟩
    rw [hk] at hdiv ⊢
    rw [Nat.add_sub_cancel]
    linarith

theorem mag_strictMono (g : Grid) : StrictMono g.mag := by
  refine strictMono_nat_of_lt_succ fun c => ?_
  obtain ⟨j, a, rfl, ha, hj⟩ := code_units g c
  rw [add_assoc, mag_of_units g ha.le hj, mag_of_units g ha (hj.imp_right Nat.le_succ_of_le)]
  exact magnitude_lt.2 a.lt_succ_self

/-- The last place at a value leaves room for it: below it the value has a number of units that the code can hold, and above the
smallest last place that number is normal. -/
theorem units_at_ulp (g : Grid) {m : Nat} (hm : m ≠ 0) (e : Int) {a : Nat} {d : ℚ} (h0 : 0 ≤ d) (h1 : d < 1)
    (hx : magnitude m e = (a + d) * 2 ^ g.ulp m e) : a < 2 ^ (g.mb + 1) ∧ (g.ulp m e = g.q0 ∨ 2 ^ g.mb ≤ a) := by
  obtain ⟨hlo, hhi⟩ := magnitude_bounds hm e
  have hpos : (0 : ℚ) < 2 ^ g.ulp m e := by positivity
  have hulp : e + bitLen m - (g.mb + 1) ≤ g.ulp m e ∧ (g.ulp m e = g.q0 ∨ g.ulp m e = e + bitLen m - (g.mb + 1)) := by
    unfold Grid.ulp
    simp only []
    split <;> omega
  constructor
  · have hroom : magnitude 1 (e + bitLen m) ≤ (2 ^ (g.mb + 1) : Nat) * 2 ^ g.ulp m e := by
      rw [← magnitude, magnitude_two_pow]
      simpa [magnitude] using zpow_le_zpow_right₀ (one_le_two (α := ℚ)) (show e + bitLen m ≤ g.ulp m e + (g.mb + 1 : Nat) by omega)
    have : ((a : ℚ) + d) < (2 ^ (g.mb + 1) : Nat) := lt_of_mul_lt_mul_right (hx ▸ hhi.trans_le hroom) hpos.le
    exact_mod_cast (by linarith : (a : ℚ) < (2 ^ (g.mb + 1) : Nat))
  · refine hulp.2.imp_right fun hq => ?_
    have hnormal : magnitude 1 (e + bitLen m - 1) = (2 ^ g.mb : Nat) * 2 ^ g.ulp m e := by
      rw [← magnitude, magnitude_two_pow, hq]
      congr 1
      ring
    have : ((2 ^ g.mb : Nat) : ℚ) ≤ a + d := le_of_mul_le_mul_right (hx ▸ hnormal ▸ hlo) hpos
    exact Nat.lt_succ_iff.1 (by exact_mod_cast (by push_cast at this ⊢; linarith : ((2 ^ g.mb : Nat) : ℚ) < (a + 1 : Nat)))

theorem ulp_ge (g : Grid) (m : Nat) (e : Int) : g.q0 ≤ g.ulp m e := by
  unfold Grid.ulp
  simp only []
  split <;> omega

/-- What a grid's rounding gives (R55): the code that is chosen, its magnitude, and whether it is inexact. -/
theorem round_spec (g : Grid) (hmb : 0 < g.mb) (r : Rnd) (neg : Bool) {m : Nat} (hm : m ≠ 0) (e : Int) : ∃ a d,
    RoundsTo g.mag r neg (magnitude m e) a d (g.round r neg m e).1 ∧ (g.round r neg m e).2 = decide (d ≠ 0) ∧
      g.mag (g.round r neg m e).1 = magnitude (roundAt r neg m e (g.ulp m e)).1 (g.ulp m e) := by
  obtain ⟨a, d, h0, h1, hx, hr⟩ := roundAt_spec r neg m e (g.ulp m e)
  obtain ⟨ha, hj⟩ := units_at_ulp g hm e h0 h1 hx
  have hulp := ulp_ge g m e
  obtain ⟨j, hj', hq⟩ : ∃ j : Nat, (j = 0 ∨ 2 ^ g.mb ≤ a) ∧ g.ulp m e = g.q0 + j :=
    ⟨(g.ulp m e - g.q0).toNat, by omega, by omega⟩
  have heven : j * 2 ^ g.mb % 2 = 0 := by
    obtain ⟨k, hk⟩ : ∃ k, g.mb = k + 1 := ⟨g.mb - 1, by omega⟩
    rw [hk, Nat.pow_succ, ← mul_assoc, Nat.mul_mod_left]
  have hround : g.round r neg m e = (chosenCode r neg (j * 2 ^ g.mb + a) d, decide (d ≠ 0)) := by
    rw [chosenCode_add_even r neg heven]
    simp only [Grid.round, if_neg hm, hr]
    rw [hq, show (g.q0 + (j : Int) - g.q0).toNat = j by omega]
  have hmag : ∀ b, b = a ∨ b = a + 1 → g.mag (j * 2 ^ g.mb + b) = magnitude b (g.ulp m e) := by
    intro b hb
    rw [hq]
    exact mag_of_units g (by omega) (hj'.imp_right fun h => by omega)
  refine ⟨j * 2 ^ g.mb + a, d, ?_, by rw [hround], ?_⟩
  · rw [hround]
    refine roundsTo_of_units (u := 2 ^ g.ulp m e) (by positivity) h0 h1 ?_ (hmag a (.inl rfl)) ?_
    · rw [hx, magnitude]; ring
    · rw [add_assoc, hmag _ (.inr rfl), magnitude, magnitude]; push_cast; ring
  · rw [hround, hr, chosenCode_add_even r neg heven]
    exact hmag _ (chosenCode_cases r neg a d)

/-- The model's test of a tiny value is R68's. -/
theorem tiny_iff (g : Grid) (hmb : 0 < g.mb) (r : Rnd) (neg : Bool) (m : Nat) (e : Int) :
    g.tiny r neg m e = true ↔ TinyOn g r neg m e := by
  by_cases hm : m = 0
  · simp [Grid.tiny, TinyOn, hm]
  have hlen := (bitLen_bounds hm).1
  have htiny : g.tiny r neg m e = true ↔
      magnitude (roundAt r neg m e (e + bitLen m - (g.mb + 1))).1 (e + bitLen m - (g.mb + 1)) < magnitude 1 (g.q0 + g.mb) := by
    simp only [Grid.tiny, if_neg hm, decide_eq_true_eq, cmpFin_neg_iff]
  have hulp : ∀ q : Int, q ≤ e - g.mb → Grid.ulp ⟨g.mb, q⟩ m e = e + bitLen m - (g.mb + 1) := by
    intro q hq
    unfold Grid.ulp
    simp only []
    rw [if_neg (by omega)]
  rw [htiny]
  constructor
  · refine fun h => ⟨hm, fun q hq _ => ?_⟩
    obtain ⟨a, d, hround, -, hmag⟩ := round_spec ⟨g.mb, q⟩ hmb r neg hm e
    exact ⟨a, d, _, hround, by rw [hmag, hulp q hq]; exact h⟩
  · rintro ⟨-, h⟩
    obtain ⟨a, d, c, hc, hlt⟩ := h (min (e - g.mb) g.q0) (min_le_left _ _) (min_le_right _ _)
    obtain ⟨a', d', hround, -, hmag⟩ := round_spec ⟨g.mb, min (e - g.mb) g.q0⟩ hmb r neg hm e
    obtain ⟨-, -, rfl⟩ := roundsTo_unique (mag_strictMono _) hc hround
    rwa [hmag, hulp _ (min_le_left _ _)] at hlt

/-- A grid's rounding and its STICKY conditions, for every value (R55, R68). -/
theorem round_rounds (g : Grid) (hmb : 0 < g.mb) (r : Rnd) (neg : Bool) (m : Nat) (e : Int) : ∃ a d,
    RoundsTo g.mag r neg (magnitude m e) a d (g.round r neg m e).1 ∧ (g.round r neg m e).2 = decide (d ≠ 0) ∧
      (((g.round r neg m e).2 && g.tiny r neg m e) = true ↔ d ≠ 0 ∧ TinyOn g r neg m e) := by
  by_cases hm : m = 0
  · have hzero : g.mag 0 = 0 := by simp [Grid.mag, magnitude_zero]
    have hround := roundsTo_of_mag (mag_strictMono g) r neg 0
    rw [hzero] at hround
    refine ⟨0, 0, ?_, ?_, ?_⟩ <;> simp [hm, Grid.round, magnitude_zero, hround]
  · obtain ⟨a, d, hround, hinx, -⟩ := round_spec g hmb r neg hm e
    exact ⟨a, d, hround, hinx, by simp [hinx, tiny_iff g hmb]⟩

/-- A value that a grid holds stands, exact, in every mode. -/
theorem round_of_mag (g : Grid) (hmb : 0 < g.mb) (r : Rnd) (neg : Bool) {m c : Nat} {e : Int} (h : magnitude m e = g.mag c) :
    g.round r neg m e = (c, false) := by
  obtain ⟨a, d, hround, hinx, -⟩ := round_rounds g hmb r neg m e
  rw [h] at hround
  obtain ⟨-, hd, hc⟩ := roundsTo_unique (mag_strictMono g) hround (roundsTo_of_mag (mag_strictMono g) r neg c)
  exact Prod.ext hc (by simp [hinx, hd])

/-- The value of a code has the code's magnitude. -/
theorem value_eq (g : Grid) (neg : Bool) (c : Nat) : ∃ m e, g.value neg c = .fin neg m e ∧ magnitude m e = g.mag c ∧ (m = 0 ↔ c = 0) := by
  have hpos : 0 < 2 ^ g.mb := Nat.two_pow_pos _
  have hsub : c / 2 ^ g.mb = 0 ↔ c < 2 ^ g.mb := by rw [Nat.div_eq_zero_iff]; omega
  by_cases h : c < 2 ^ g.mb
  · exact ⟨c, g.q0, by simp [Grid.value, h, Nat.mod_eq_of_lt h], by simp [Grid.mag, h], Iff.rfl⟩
  · refine ⟨2 ^ g.mb + c % 2 ^ g.mb, g.q0 + (c / 2 ^ g.mb - 1 : Nat), by simp [Grid.value, hsub, h], ?_, by omega⟩
    have hdiv : c / 2 ^ g.mb ≠ 0 := fun hc => h (hsub.1 hc)
    rw [Grid.mag, if_neg h, Nat.cast_sub (Nat.one_le_iff_ne_zero.2 hdiv), Nat.cast_one]

end Sys2Proof.Laws
end

section
/-! SUPPORT. The wide formats (R45, R47, R55, R86): what an encoding decodes to, its class, and what rounding to a format gives. -/

namespace Sys2Proof.Laws

open Sys2Proof.Machine

/-! ## Decoding -/

theorem wide_pos : ∀ w ∈ [f32, bf16, f16, f24], 0 < w.eb ∧ 0 < w.mb := by decide

theorem infCode_add (w : Wide) : w.infCode + 2 ^ w.mb = w.signBit := by
  have hpos : 0 < 2 ^ w.eb := Nat.two_pow_pos _
  rw [Wide.infCode, Wide.signBit, ← Nat.succ_mul, Nat.succ_eq_add_one, Nat.sub_add_cancel hpos, ← Nat.pow_add]

/-- The infinities stand above the subnormal codes. -/
theorem infCode_ge {w : Wide} (heb : 0 < w.eb) : 2 ^ w.mb ≤ w.infCode := by
  have : 2 ≤ 2 ^ w.eb := Nat.le_self_pow heb.ne' 2
  exact Nat.le_mul_of_pos_left _ (by omega)

section decode
variable {w : Wide} {x : Nat} (hx : x < 2 * w.signBit)
include hx

theorem decode_inf (h : x % w.signBit = w.infCode) : w.decode x = .inf (decide (w.signBit ≤ x)) := by
  simp [Wide.decode, Nat.mod_eq_of_lt hx, h]

theorem decode_fin (h : x % w.signBit < w.infCode) : ∃ m e, w.decode x = .fin (decide (w.signBit ≤ x)) m e ∧
    magnitude m e = w.grid.mag (x % w.signBit) ∧ (m = 0 ↔ x % w.signBit = 0) := by
  obtain ⟨m, e, hv, hmag, hm⟩ := value_eq w.grid (decide (w.signBit ≤ x)) (x % w.signBit)
  refine ⟨m, e, ?_, hmag, hm⟩
  rw [← hv]
  simp only [Wide.decode, Nat.mod_eq_of_lt hx, if_neg h.ne, if_neg h.not_gt]

end decode

theorem decode_nan {w : Wide} {x : Nat} (h : w.infCode < x % w.signBit) : w.decode x = .nan := by
  simp [Wide.decode, h, h.ne']

/-! ## Classes (R86) -/

/-- Each encoding's class is that of its value. -/
theorem floatClass_spec {w : Wide} (heb : 0 < w.eb) {x : Nat} (hx : x < 2 * w.signBit) :
    let k := floatClass w x
    (w.decode x = .nan ↔ k = 0 ∨ k = 9) ∧ (w.decode x = .inf true ↔ k = 1) ∧ (w.decode x = .inf false ↔ k = 8) ∧
      ((w.decode x).isZero = true ↔ k = 4 ∨ k = 5) ∧ (w.signBit ≤ x ↔ k ≤ 4) ∧ k ≤ 9 ∧
      ((k = 3 ∨ k = 6) ↔ 0 < x % w.signBit ∧ x % w.signBit < 2 ^ w.mb) := by
  have hsub := infCode_ge heb
  have hpos : 0 < 2 ^ w.mb := Nat.two_pow_pos _
  rcases lt_trichotomy (x % w.signBit) w.infCode with h | h | h
  · obtain ⟨m, e, hv, -, hm⟩ := decode_fin hx h
    have hzero : (w.decode x).isZero = decide (x % w.signBit = 0) := by
      rw [hv, Bool.eq_iff_iff, decide_eq_true_eq, ← hm]
      cases m <;> simp [Val.isZero]
    rw [hzero, hv]
    simp only [floatClass, Wide.mag, h.not_gt, h.ne, if_false]
    by_cases h0 : x % w.signBit = 0
    · by_cases hneg : w.signBit ≤ x <;> simp [hneg, h0]
    by_cases hs : x % w.signBit < 2 ^ w.mb
    · by_cases hneg : w.signBit ≤ x <;> simp [hneg, h0, hs, Nat.pos_of_ne_zero]
    · by_cases hneg : w.signBit ≤ x <;> simp [hneg, h0, hs]
  · rw [decode_inf hx h]
    simp only [floatClass, Wide.mag, h, lt_irrefl, if_false, if_true, not_lt.2 hsub]
    by_cases hneg : w.signBit ≤ x <;> simp [hneg, Val.isZero]
  · rw [decode_nan h]
    simp only [floatClass, Wide.mag, if_pos h, not_lt.2 (hsub.trans h.le)]
    by_cases hneg : w.signBit ≤ x <;> simp [hneg, Val.isZero]

/-! ## Rounding to a wide format -/

theorem encode_fin (w : Wide) (r : Rnd) (neg : Bool) (m : Nat) (e : Int) :
    w.encode r (.fin neg m e) = if w.infCode ≤ (w.grid.round r neg m e).1
      then ((if neg then w.signBit else 0) + w.overflow r neg, stOvf ||| stInx)
      else ((if neg then w.signBit else 0) + (w.grid.round r neg m e).1,
        stIf (w.grid.round r neg m e).2 stInx ||| stIf ((w.grid.round r neg m e).2 && w.grid.tiny r neg m e) stUnf) := rfl

/-- A value that the format holds stands, exact, in every mode. -/
theorem encode_decode {w : Wide} (hmb : 0 < w.mb) (r : Rnd) {x : Nat} (hx : x < 2 * w.signBit) (h : x % w.signBit < w.infCode) :
    w.encode r (w.decode x) = (x, 0) := by
  obtain ⟨m, e, hv, hmag, -⟩ := decode_fin hx h
  have hsplit : (if w.signBit ≤ x then w.signBit else 0) + x % w.signBit = x := by
    split
    · have : x / w.signBit = 1 := Nat.div_eq_of_lt_le (by omega) (by omega)
      have := Nat.div_add_mod x w.signBit
      simp_all
    · rw [Nat.mod_eq_of_lt (by omega), zero_add]
  rw [hv, encode_fin, round_of_mag w.grid hmb r _ hmag, if_neg (Nat.not_le.2 h)]
  simp [hsplit, stIf]

/-- Any magnitude goes to one of its neighbours, as the mode says, or overflows (R55, R68, R83). -/
theorem encode_rounds {w : Wide} (hmb : 0 < w.mb) (r : Rnd) (neg : Bool) (m : Nat) (e : Int) : ∃ a d c,
    RoundsTo w.grid.mag r neg (magnitude m e) a d c ∧
      let z := w.encode r (.fin neg m e)
      z.1 = (if neg then w.signBit else 0) + (if c < w.infCode then c else w.overflow r neg) ∧
      (w.infCode ≤ c → z.2 = stOvf ||| stInx) ∧
      (c < w.infCode → ∃ u : Bool, z.2 = stIf (decide (d ≠ 0)) stInx ||| stIf u stUnf ∧ (u = true ↔ d ≠ 0 ∧ TinyOn w.grid r neg m e)) := by
  obtain ⟨a, d, hround, hinx, htiny⟩ := round_rounds w.grid hmb r neg m e
  refine ⟨a, d, _, hround, ?_⟩
  rw [encode_fin]
  by_cases h : w.infCode ≤ (w.grid.round r neg m e).1
  · simp [h, Nat.not_lt.2 h]
  · simp only [if_neg h, if_pos (Nat.not_le.1 h), true_and]
    exact ⟨fun hc => absurd hc h, fun _ => ⟨_, by rw [← hinx], htiny⟩⟩

end Sys2Proof.Laws
end

section
/-! SUPPORT. The narrow formats and the integers (R49 to R51, R70, R91): what rounding to E3M0 gives, and what each conversion does with a
NaN, an infinity and a finite value. -/

namespace Sys2Proof.Laws

open Sys2Proof.Machine

/-! ## E3M0 -/

theorem e3m0Mag_succ (t : Nat) : e3m0Mag (t + 1) = 2 ^ ((t : Int) - 2) := by
  have hexp : ((t + 1 : Nat) : Int) - 3 = t - 2 := by push_cast; ring
  rw [e3m0Mag, if_neg t.succ_ne_zero, hexp, magnitude, Nat.cast_one, one_mul]

theorem e3m0Mag_zero : e3m0Mag 0 = 0 := rfl

/-- Above the smallest magnitude the codes of E3M0 are a power of two apart. -/
theorem e3m0Mag_double (t : Nat) : e3m0Mag (t + 1 + 1) = e3m0Mag (t + 1) + e3m0Mag (t + 1) := by
  rw [e3m0Mag_succ, e3m0Mag_succ, show ((t + 1 : Nat) : Int) - 2 = (t - 2) + 1 by push_cast; ring, zpow_add_one₀ two_ne_zero]
  ring

/-- A nonzero value lies between two powers of two: the remainder above the lower one, as a part of it. -/
theorem above_two_pow {m : Nat} (hm : m ≠ 0) (e : Int) {t : Int} (ht : t = e + bitLen m - 1) : e ≤ t ∧
    m - 2 ^ (t - e).toNat < 2 ^ (t - e).toNat ∧
    magnitude m e = (1 + ((m - 2 ^ (t - e).toNat : Nat) : ℚ) / (2 ^ (t - e).toNat : Nat)) * 2 ^ t := by
  obtain ⟨h1, h2, h3⟩ := bitLen_bounds hm
  have hexp : (t - e).toNat = bitLen m - 1 := by omega
  have hpow : 2 ^ bitLen m = 2 * 2 ^ (bitLen m - 1) := by rw [← Nat.pow_succ']; congr 1; omega
  have hpos : (0 : ℚ) < (2 ^ (bitLen m - 1) : Nat) := by exact_mod_cast Nat.two_pow_pos _
  have hunit : (2 : ℚ) ^ t = (2 ^ (bitLen m - 1) : Nat) * 2 ^ e := by
    have := magnitude_two_pow (bitLen m - 1) e
    rw [show e + ((bitLen m - 1 : Nat) : Int) = t by omega] at this
    simpa [magnitude] using this.symm
  rw [hexp]
  refine ⟨by omega, by omega, ?_⟩
  rw [hunit, ← mul_assoc, add_mul, one_mul, div_mul_cancel₀ _ hpos.ne', magnitude]
  congr 1
  exact_mod_cast (Nat.add_sub_of_le h2).symm

/-- A value lies below a power of two where its leading bit does. -/
theorem magnitude_lt_two_pow {m : Nat} (hm : m ≠ 0) (e k : Int) : magnitude m e < 2 ^ k ↔ e + bitLen m - 1 < k := by
  obtain ⟨hlo, hhi⟩ := magnitude_bounds hm e
  simp only [magnitude, Nat.cast_one, one_mul] at hlo hhi ⊢
  constructor
  · exact fun h => (zpow_lt_zpow_iff_right₀ one_lt_two).1 (hlo.trans_lt h)
  · exact fun h => hhi.trans_le (zpow_le_zpow_right₀ one_le_two (by omega))

/-- Below its smallest magnitude E3M0 rounds as integers of that magnitude do. -/
theorem e3m0Round_small (r : Rnd) (neg : Bool) {m : Nat} (hm : m ≠ 0) {e : Int} (h : e + bitLen m - 1 < -2) :
    e3m0Round r neg m e = roundAt r neg m e (-2) := by
  obtain ⟨h1, -, h3⟩ := bitLen_bounds hm
  have hden : m / 2 ^ (-2 - e).toNat = 0 :=
    Nat.div_eq_of_lt (h3.trans_le (Nat.pow_le_pow_right two_pos (by omega)))
  have he : ¬ -2 ≤ e := by omega
  simp [e3m0Round, roundAt, hm, h, he, hden]

/-- From there on it rounds between a power of two and the next. -/
theorem e3m0Round_normal (r : Rnd) (neg : Bool) {m : Nat} (hm : m ≠ 0) {e : Int} {t : Nat} (h : e + bitLen m - 1 = (t : Int) - 2) :
    ∃ d, 0 ≤ d ∧ d < 1 ∧ magnitude m e = (1 + d) * 2 ^ ((t : Int) - 2) ∧
      e3m0Round r neg m e = (chosenCode r neg (t + 1) d, decide (d ≠ 0)) := by
  obtain ⟨he, hrem, hx⟩ := above_two_pow hm e h.symm
  have hden : 0 < 2 ^ ((t : Int) - 2 - e).toNat := Nat.two_pow_pos _
  have hpos : (0 : ℚ) < (2 ^ ((t : Int) - 2 - e).toNat : Nat) := by exact_mod_cast hden
  refine ⟨_, by positivity, (div_lt_one hpos).2 (by exact_mod_cast hrem), hx, ?_⟩
  rw [chosenCode_quotient r neg _ hden]
  have hcode : ((t : Int) - 2 + 3).toNat = t + 1 := by omega
  have hlow : ¬ (t : Int) - 2 < -2 := by omega
  generalize hk : 2 ^ ((t : Int) - 2 - e).toNat = den at *
  have hinx : (m - den != 0) = decide (((m - den : Nat) : ℚ) / (den : Nat) ≠ 0) := by
    rw [Bool.eq_iff_iff, bne_iff_ne, decide_eq_true_eq, ne_eq, ne_eq, div_eq_zero_iff, or_iff_left hpos.ne', Nat.cast_eq_zero]
  simp only [e3m0Round, if_neg hm, h, if_neg hlow, if_pos he, hk, hcode, hinx]

/-- Rounding to E3M0 (R55). -/
theorem e3m0Round_rounds (r : Rnd) (neg : Bool) (m : Nat) (e : Int) : ∃ a d,
    RoundsTo e3m0Mag r neg (magnitude m e) a d (e3m0Round r neg m e).1 ∧ (e3m0Round r neg m e).2 = decide (d ≠ 0) := by
  have hunit : e3m0Mag (0 + 1) = 0 + 2 ^ (-2 : Int) := by rw [e3m0Mag_succ, zero_add]; rfl
  by_cases hm : m = 0
  · refine ⟨0, 0, ?_, by simp [e3m0Round, hm]⟩
    rw [e3m0Round, if_pos hm, hm, magnitude_zero]
    exact roundsTo_of_units (by positivity) le_rfl one_pos (by simp) e3m0Mag_zero hunit
  by_cases hsmall : e + bitLen m - 1 < -2
  · obtain ⟨a, d, h0, h1, hx, hr⟩ := roundAt_spec r neg m e (-2)
    have hlt := (magnitude_lt_two_pow hm e (-2)).2 hsmall
    have ha : a = 0 := by
      have : ((a : ℚ) + d) < 1 := lt_of_mul_lt_mul_right (by rwa [← hx, one_mul]) (by positivity)
      exact Nat.lt_one_iff.1 (by exact_mod_cast (by linarith : (a : ℚ) < 1))
    subst ha
    rw [e3m0Round_small r neg hm hsmall, hr]
    exact ⟨0, d, roundsTo_of_units (by positivity) h0 h1 (by simpa using hx) e3m0Mag_zero hunit, rfl⟩
  · obtain ⟨t, ht⟩ : ∃ t : Nat, e + bitLen m - 1 = (t : Int) - 2 := ⟨(e + bitLen m - 1 + 2).toNat, by omega⟩
    obtain ⟨d, h0, h1, hx, hr⟩ := e3m0Round_normal r neg hm ht
    rw [hr]
    refine ⟨t + 1, d, roundsTo_of_units (u := 2 ^ ((t : Int) - 2)) (by positivity) h0 h1 ?_ (e3m0Mag_succ t) ?_, rfl⟩
    · rw [hx]; ring
    · rw [e3m0Mag_double, e3m0Mag_succ]

/-- The model's test of a tiny value for E3M0: below the smallest magnitude, and still so when rounded to a power of two (R68). -/
theorem e3m0Tiny_iff (r : Rnd) (neg : Bool) {m : Nat} (hm : m ≠ 0) (e : Int) : e3m0Tiny r neg m e = true ↔
    magnitude m e < 1 / 4 ∧ (magnitude m e < 1 / 8 ∨ chosenCode r neg 0 (8 * magnitude m e - 1) = 0) := by
  have h4 := magnitude_lt_two_pow hm e (-2)
  have h8 := magnitude_lt_two_pow hm e (-3)
  rw [show (2 : ℚ) ^ (-2 : Int) = 1 / 4 by norm_num] at h4
  rw [show (2 : ℚ) ^ (-3 : Int) = 1 / 8 by norm_num] at h8
  rw [h4, h8]
  have hm' : (m != 0) = true := by simpa using hm
  by_cases h : e + bitLen m - 1 = -3
  · obtain ⟨he, -, hx⟩ := above_two_pow hm e h.symm
    have hchosen : (8 * magnitude m e - 1) = ((m - 2 ^ (-3 - e).toNat : Nat) : ℚ) / (2 ^ (-3 - e).toNat : Nat) := by
      rw [hx, show (2 : ℚ) ^ (-3 : Int) = 1 / 8 by norm_num]; ring
    rw [hchosen, chosenCode_quotient r neg _ (Nat.two_pow_pos _)]
    simp [e3m0Tiny, hm', h, he]
  · simp only [e3m0Tiny, hm', h, decide_false, Bool.false_and, Bool.or_false, Bool.true_and, decide_eq_true_eq]
    omega

/-! ## The narrow formats -/

/-- The code of a finite value on a floating-point member's grid and whether it is inexact, and whether the value is tiny. -/
def narrowRound (k : Narrow) (r : Rnd) (neg : Bool) (m : Nat) (e : Int) : Nat × Bool :=
  if k = .e3m0 then e3m0Round r neg m e else k.grid.round r neg m e
def narrowTiny (k : Narrow) (r : Rnd) (neg : Bool) (m : Nat) (e : Int) : Bool :=
  if k = .e3m0 then e3m0Tiny r neg m e else k.grid.tiny r neg m e

theorem narrow_mb_pos : ∀ k ∈ [Narrow.e4m3, .e5m2, .e3m4, .e2m1, .e1m2, .e3m0], k ≠ .e3m0 → 0 < k.grid.mb := by decide

theorem narrowRound_rounds {k : Narrow} (hk : k ∈ [Narrow.e4m3, .e5m2, .e3m4, .e2m1, .e1m2, .e3m0]) (r : Rnd) (neg : Bool) (m : Nat)
    (e : Int) : ∃ a d, RoundsTo (if k = .e3m0 then e3m0Mag else k.grid.mag) r neg (magnitude m e) a d (narrowRound k r neg m e).1 ∧
      (narrowRound k r neg m e).2 = decide (d ≠ 0) ∧
      (((narrowRound k r neg m e).2 && narrowTiny k r neg m e) = true ↔ d ≠ 0 ∧ (if k = .e3m0 then magnitude m e < 1 / 4 ∧
        (magnitude m e < 1 / 8 ∨ chosenCode r neg 0 (8 * magnitude m e - 1) = 0) else TinyOn k.grid r neg m e)) := by
  by_cases h : k = .e3m0
  · simp only [narrowRound, narrowTiny, if_pos h]
    obtain ⟨a, d, hround, hinx⟩ := e3m0Round_rounds r neg m e
    refine ⟨a, d, hround, hinx, ?_⟩
    by_cases hm : m = 0
    · have hd : d = 0 := by simpa [e3m0Round, hm] using hinx
      simp [hinx, hd]
    · rw [Bool.and_eq_true, e3m0Tiny_iff r neg hm, hinx, decide_eq_true_eq]
  · simp only [narrowRound, narrowTiny, if_neg h]
    exact round_rounds k.grid (narrow_mb_pos k hk h) r neg m e

/-- What R50's table says of a NaN and of an infinity. -/
theorem narrowEncode_nan {k : Narrow} (hk : k ∈ [Narrow.e4m3, .e5m2, .e3m4, .e2m1, .e1m2, .e3m0]) (sat : Bool) (r : Rnd) :
    k.encode sat r .nan = (if k = .e4m3 then 0x7F else if k = .e5m2 then 0x7E else 0,
      if k = .e4m3 ∨ k = .e5m2 then stNan else stInv) := by
  fin_cases hk <;> rfl

theorem narrowEncode_inf {k : Narrow} (hk : k ∈ [Narrow.e4m3, .e5m2, .e3m4, .e2m1, .e1m2, .e3m0]) (sat : Bool) (r : Rnd) (neg : Bool) :
    k.encode sat r (.inf neg) =
      let hi := if k.bits = 8 then 128 else 8
      if sat = false ∧ k = .e4m3 then (0x7F, stNv8 ||| stNan)
      else if sat = false ∧ k = .e5m2 then ((if neg then hi else 0) + 0x7C, 0)
      else ((if neg then hi else 0) + k.maxCode, stSat8) := by
  fin_cases hk <;> cases sat <;> rfl

/-- What R50's table says of a finite value whose code is known. -/
theorem narrowEncode_fin {k : Narrow} (hk : k ∈ [Narrow.e4m3, .e5m2, .e3m4, .e2m1, .e1m2, .e3m0]) (sat : Bool) (r : Rnd) (neg : Bool)
    (m : Nat) (e : Int) : k.encode sat r (.fin neg m e) =
      let c := (narrowRound k r neg m e).1
      let hi := if neg then (if k.bits = 8 then 128 else 8) else 0
      if k.maxCode < c then
        (if sat = false ∧ (k = .e4m3 ∨ k = .e5m2) then (if k = .e4m3 then 0x7F else 0x7E, stNv8 ||| stNan ||| stInx)
          else (hi + k.maxCode, stSat8 ||| stInx))
      else (if c = 0 ∧ k.bits = 4 then 0 else hi + c, stIf (narrowRound k r neg m e).2 stInx |||
        stIf ((narrowRound k r neg m e).2 && narrowTiny k r neg m e) stUnf) := by
  cases sat <;> fin_cases hk <;> simp [Narrow.encode, narrowRound, narrowTiny, Narrow.bits, Narrow.maxCode] <;> rfl

/-- What a finite value gives (R50, R55, R68): the code of its rounding, or what R50's table says past the largest finite code. -/
theorem narrowEncode_rounds {k : Narrow} (hk : k ∈ [Narrow.e4m3, .e5m2, .e3m4, .e2m1, .e1m2, .e3m0]) (sat : Bool) (r : Rnd) (neg : Bool)
    (m : Nat) (e : Int) : ∃ a d c, RoundsTo (if k = .e3m0 then e3m0Mag else k.grid.mag) r neg (magnitude m e) a d c ∧
      let hi := if k.bits = 8 then 128 else 8
      let z := k.encode sat r (.fin neg m e)
      (k.maxCode < c → z = if sat = false ∧ (k = .e4m3 ∨ k = .e5m2) then (if k = .e4m3 then 0x7F else if k = .e5m2 then 0x7E else 0,
          stNv8 ||| stNan ||| stInx)
        else ((if neg then hi else 0) + k.maxCode, stSat8 ||| stInx)) ∧
      (c ≤ k.maxCode → z.1 = (if c = 0 ∧ k.bits = 4 then 0 else (if neg then hi else 0) + c) ∧
        ∃ u : Bool, z.2 = stIf (decide (d ≠ 0)) stInx ||| stIf u stUnf ∧
          (u = true ↔ d ≠ 0 ∧ (if k = .e3m0 then magnitude m e < 1 / 4 ∧
            (magnitude m e < 1 / 8 ∨ chosenCode r neg 0 (8 * magnitude m e - 1) = 0) else TinyOn k.grid r neg m e))) := by
  obtain ⟨a, d, hround, hinx, htiny⟩ := narrowRound_rounds hk r neg m e
  refine ⟨a, d, _, hround, ?_⟩
  simp only [narrowEncode_fin hk]
  constructor
  · intro h
    rw [if_pos h]
    split
    · rename_i hkeeps
      rcases hkeeps.2 with rfl | rfl <;> rfl
    · rfl
  · intro h
    rw [if_neg (Nat.not_lt.2 h)]
    exact ⟨rfl, _, by rw [← hinx], htiny⟩

/-! ## Integers (R91) -/

/-- The clamp of the model, and when it changes a value (R70, R91). -/
theorem clamp_eq {lo hi : Int} (h : lo ≤ hi) (i : Int) : (if i < lo then lo else if hi < i then hi else i) = max lo (min hi i) := by
  split_ifs <;> omega

theorem clamp_id_iff {lo hi : Int} (h : lo ≤ hi) (i : Int) : max lo (min hi i) = i ↔ lo ≤ i ∧ i ≤ hi := by omega

theorem clamp_sticky {lo hi : Int} (h : lo ≤ hi) (i : Int) (st : Word) :
    stIf (i != max lo (min hi i)) st = if lo ≤ i ∧ i ≤ hi then 0 else st := by
  by_cases hi' : lo ≤ i ∧ i ≤ hi
  · simp [stIf, hi']
  · have : i ≠ max lo (min hi i) := fun hc => hi' ((clamp_id_iff h i).1 hc.symm)
    simp [stIf, hi', this]

/-- The range of an n-bit integer type. -/
def intHi (n : Nat) (signed : Bool) : Int := if signed then 2 ^ (n - 1) - 1 else 2 ^ n - 1
def intLo (n : Nat) (signed : Bool) : Int := if signed then -(2 ^ (n - 1)) else 0

theorem intRange (n : Nat) (signed : Bool) : intLo n signed ≤ intHi n signed := by
  have h1 : (0 : Int) < 2 ^ (n - 1) := by positivity
  have h2 : (0 : Int) < 2 ^ n := by positivity
  cases signed <;> simp only [intLo, intHi, if_true, Bool.false_eq_true, if_false] <;> omega

/-- An end of the range is left where it is. -/
theorem clamp_end {lo hi : Int} (h : lo ≤ hi) (neg : Bool) : max lo (min hi (if neg then lo else hi)) = if neg then lo else hi := by
  cases neg
  · simpa using h
  · simp

/-- The code of an end of the range, which an infinity gives. -/
theorem intEnd_code (n : Nat) (signed neg : Bool) : wrapTo n (if neg then intLo n signed else intHi n signed) =
    (BitVec.ofInt n (max (intLo n signed) (min (intHi n signed) (if neg then intLo n signed else intHi n signed)))).toNat := by
  rw [clamp_end (intRange n signed), wrapTo_eq]

theorem toIntBits_inf (n : Nat) (signed : Bool) (r : Rnd) (neg : Bool) : toIntBits n signed r (.inf neg) =
    ((BitVec.ofInt n (max (intLo n signed) (min (intHi n signed) (if neg then intLo n signed else intHi n signed)))).toNat, stIsat) :=
  Prod.ext (intEnd_code n signed neg) rfl

theorem narrowInt_nan {k : Narrow} (hk : k ∈ [Narrow.int8, .int4]) (sat : Bool) (r : Rnd) : k.encode sat r .nan = (0, stInv) := by
  fin_cases hk <;> rfl

theorem narrowInt_inf {k : Narrow} (hk : k ∈ [Narrow.int8, .int4]) (sat : Bool) (r : Rnd) (neg : Bool) : k.encode sat r (.inf neg) =
    ((BitVec.ofInt k.bits (max (intLo k.bits true) (min (intHi k.bits true) (if neg then intLo k.bits true else intHi k.bits true)))).toNat,
      stSat8) := by
  rw [← intEnd_code]
  fin_cases hk <;> rfl

/-- A finite value as an n-bit integer: rounded, then clamped, with a STICKY bit when that changes it. -/
def intEncode (n : Nat) (signed : Bool) (st : Word) (r : Rnd) (neg : Bool) (m : Nat) (e : Int) : Nat × Word :=
  let i : Int := if neg then -((roundAt r neg m e 0).1 : Int) else (roundAt r neg m e 0).1
  ((BitVec.ofInt n (max (intLo n signed) (min (intHi n signed) i))).toNat,
    (if intLo n signed ≤ i ∧ i ≤ intHi n signed then 0 else st) ||| stIf (roundAt r neg m e 0).2 stInx)

theorem toIntBits_fin (n : Nat) (signed : Bool) (r : Rnd) (neg : Bool) (m : Nat) (e : Int) :
    toIntBits n signed r (.fin neg m e) = intEncode n signed stIsat r neg m e := by
  simp only [toIntBits, intEncode, ← clamp_sticky (intRange n signed), ← clamp_eq (intRange n signed), wrapTo_eq]
  rfl

theorem narrowInt_fin {k : Narrow} (hk : k ∈ [Narrow.int8, .int4]) (sat : Bool) (r : Rnd) (neg : Bool) (m : Nat) (e : Int) :
    k.encode sat r (.fin neg m e) = intEncode k.bits true stSat8 r neg m e := by
  simp only [intEncode, ← clamp_sticky (intRange k.bits true), ← clamp_eq (intRange k.bits true), ← wrapTo_eq]
  fin_cases hk <;> rfl

/-- The rounding behind an integer's code (R55, R91). -/
theorem intEncode_rounds (n : Nat) (signed : Bool) (st : Word) (r : Rnd) (neg : Bool) (m : Nat) (e : Int) : ∃ a d c,
    RoundsTo (fun k => (k : ℚ)) r neg (magnitude m e) a d c ∧
      let i : Int := if neg then -c else c
      intEncode n signed st r neg m e = ((BitVec.ofInt n (max (intLo n signed) (min (intHi n signed) i))).toNat,
        (if intLo n signed ≤ i ∧ i ≤ intHi n signed then 0 else st) ||| stIf (decide (d ≠ 0)) stInx) := by
  obtain ⟨a, d, hround, hinx⟩ := roundAt_rounds r neg m e
  exact ⟨a, d, _, hround, by rw [← hinx]; rfl⟩

end Sys2Proof.Laws
end

section
/-! SUPPORT. The float rows of format V (R82 to R86): from what a row computes in a lane to its result. -/

namespace Sys2Proof.Laws

open Sys2Proof.Machine

variable {i : Instr} {c : Issuer} {s : State} {f : VFmt}

/-! ## Elementwise rows -/

theorem latOf_float {t : Nat} (c : Issuer) (ht : t ∈ tFloat) : latOf c t = 6 := (latOf_six c t).2 (by revert t; decide)

/-- An elementwise float row, element by element, 6 cycles after issue (R66). -/
theorem floatRow_givesElems {o : VOp} {op : Nat → ElemOp} (h : MayIssue i c s) (hx : exec i s = runV i f o s)
    (hk : checks i c = ckV c.env f o.opts) (hp : commitPoint i = pointOf i c s) (he : (c.profile i).head.ends = false)
    (hf : fixedBlock (c.profile i).head.op = true) (ht : o.opts.types = tFloat) (hg : o.eval c.env = vElem c.env f op) :
    f.t ∈ tFloat ∧ GivesElems i f c s 6 op := by
  have htype : f.t ∈ tFloat := ht ▸ vType h hk
  exact ⟨htype, latOf_float c htype ▸ runV_givesElems h hx hk.symm hp he hf hg⟩

/-- An element of a format is below twice its sign bit (R46). -/
theorem elemBits_float {t : Nat} (ht : t ∈ tFloat) : 2 ^ elemBits t = 2 * (wideOf t).signBit := by revert t; decide

theorem elemGet_put_zero (t v : Nat) : elemGet t (elemPut t 0 v) 0 = v % 2 ^ elemBits t := by
  by_cases ht : t = 11
  · subst ht; simp [elemGet, elemPut, elemBits]
  · rw [elemGet_eq ht, elemPut_eq ht]; simp [elemBits, ht]

/-- Changing the sign bit is exclusive or with it. -/
theorem flip_eq_xor {w : Wide} {x : Nat} (hx : x < 2 * w.signBit) : w.flip x = x ^^^ w.signBit := by
  obtain ⟨n, hn⟩ : ∃ n, w.signBit = 2 ^ n := ⟨_, rfl⟩
  have hpos : 0 < 2 ^ n := Nat.two_pow_pos n
  have hmod : (x ^^^ 2 ^ n) % 2 ^ n = x % 2 ^ n := by rw [Nat.xor_mod_two_pow, Nat.mod_self, Nat.xor_zero]
  have hdiv : (x ^^^ 2 ^ n) / 2 ^ n = x / 2 ^ n ^^^ 1 := by rw [Nat.xor_div_two_pow, Nat.div_self hpos]
  have hsplit := Nat.div_add_mod (x ^^^ 2 ^ n) (2 ^ n)
  rw [hmod, hdiv] at hsplit
  have hx' := Nat.div_add_mod x (2 ^ n)
  rw [Wide.flip, hn]
  rw [hn] at hx
  split
  · rename_i h
    rw [Nat.div_eq_of_lt_le (k := 1) (by omega) (by omega)] at hsplit hx'
    simp at hsplit hx'
    omega
  · rename_i h
    rw [Nat.div_eq_of_lt (by omega)] at hsplit hx'
    simp at hsplit hx'
    omega

/-- The sign bit of an encoding, in its place. -/
theorem sign_eq {w : Wide} {x : Nat} (hx : x < 2 * w.signBit) : (if w.signBit ≤ x then w.signBit else 0) = x / w.signBit % 2 * w.signBit := by
  split
  · rename_i h
    rw [Nat.div_eq_of_lt_le (k := 1) (by omega) (by omega), Nat.one_mod, one_mul]
  · rename_i h
    rw [Nat.div_eq_of_lt (by omega), Nat.zero_mod, zero_mul]

/-- An elementwise row whose operation is another one on the elements of its type. -/
theorem floatRow_of_eq {o : VOp} {op E : Nat → ElemOp} (h : MayIssue i c s) (hx : exec i s = runV i f o s)
    (hk : checks i c = ckV c.env f o.opts) (hp : commitPoint i = pointOf i c s) (he : (c.profile i).head.ends = false)
    (hf : fixedBlock (c.profile i).head.op = true) (ht : o.opts.types = tFloat) (hg : o.eval c.env = vElem c.env f op)
    (heq : ∀ l k a b d, a < 2 * (wideOf f.t).signBit → b < 2 * (wideOf f.t).signBit → op l k a b d = E l k a b d) :
    GivesElems i f c s 6 E := by
  obtain ⟨htype, hgives⟩ := floatRow_givesElems h hx hk hp he hf ht hg
  refine hgives.of_eq fun l k a b d ha hb _ => ?_
  rw [elemBits_float htype] at ha hb
  rw [heq l k a b d ha hb]
  exact ⟨rfl, rfl⟩

/-! ## The rows with one element -/

/-- VFSCALE rounds the scaled value once (R86). -/
theorem vfscale_gives (h : MayIssue (.vfscale f) c s) : ∃ g, GivesV (.vfscale f) f c s g ∧ ∀ l,
    let z := roundWide (wideOf f.t) (c.env.mode f.round l 1 0) [(wideOf f.t).decode (elemGet f.t (c.env.va f l) 0)]
      (scaleVal ((wideOf f.t).decode (elemGet f.t (c.env.va f l) 0)) (BitVec.ofNat 32 (c.env.vb f l)).toInt)
    elemGet f.t (g l).1 0 = z.1 % 2 ^ elemBits f.t ∧ (g l).2 = z.2 := by
  refine ⟨_, runV_gives h rfl rfl rfl rfl rfl rfl, fun l => ⟨?_, ?_⟩⟩
  · rw [← signedOf_eq _ _ (by omega)]
    exact elemGet_put_zero _ _
  · rw [← signedOf_eq _ _ (by omega)]

/-- The used count of VFDOT2 is one or two (R65, R86). -/
theorem vfdot2_used (h : MayIssue (.vfdot2 f) c s) : usedOf f.t f.count = 1 ∨ usedOf f.t f.count = 2 := by
  have htype : f.t ∈ [9, 10] := vType h rfl
  have hpack : packOf f.t = 2 := by revert htype; generalize f.t = t; revert t; decide
  have hcount := h.check (b := packOf f.t ≤ f.count && f.count != 0) (r := 2) (by simp [checks, ckV, vfdot2Op])
  rw [hpack] at hcount
  simp only [Bool.and_eq_false_iff, decide_eq_false_iff_not, bne_eq_false_iff_eq] at hcount
  unfold usedOf
  rw [hpack]
  split <;> omega

/-- VFDOT2 rounds the sum of the products once (R86). -/
theorem vfdot2_gives (h : MayIssue (.vfdot2 f) c s) : GivesV (.vfdot2 f) f c s fun l =>
    let r := c.env.mode f.round l (usedOf f.t f.count) 0
    let x := fun k => (wideOf f.t).decode (elemGet f.t (c.env.va f l) k)
    let y := fun k => (wideOf f.t).decode (elemGet f.t (c.env.vb f l) k)
    let z := f32.decode (c.env.vc f l)
    if usedOf f.t f.count = 1 then roundWide f32 r [z, x 0, y 0] (z.add r.isRd ((x 0).mul (y 0)))
    else roundWide f32 r [z, x 0, y 0, x 1, y 1] ((z.add r.isRd ((x 0).mul (y 0))).add r.isRd ((x 1).mul (y 1))) := by
  refine runV_gives h rfl rfl rfl rfl rfl (congrArg (vResult c.env f none) (funext fun l => ?_))
  rcases vfdot2_used h with hn | hn <;> rw [hn] <;> rfl

end Sys2Proof.Laws
end

section
/-! SUPPORT. The conversion rows (R90 to R96): the elements of a joined register, the lanes of a mask, and what each row writes. -/

namespace Sys2Proof.Laws

open Sys2Proof.Machine

variable {i : Instr} {c : Issuer} {s : State} {f : VFmt}

/-! ## Joined elements and masks -/

theorem joinElems_eq (t : Nat) (g : Nat → Nat × Word) :
    joinElems t g = ((List.range (packOf t)).foldl (fun a k => a + elemPut t k (g k).1) 0,
      (List.range (packOf t)).foldl (fun a k => a ||| (g k).2) 0) :=
  foldl_pair (List.range (packOf t)) (fun k => elemPut t k (g k).1) (fun k => (g k).2) (0, 0)

theorem joinElems_get (t : Nat) (g : Nat → Nat × Word) {k : Nat} (h : k < packOf t) :
    elemGet t (joinElems t g).1 k = (g k).1 % 2 ^ elemBits t := by
  rw [joinElems_eq]; exact elemGet_join t (fun k => (g k).1) k h

theorem joinElems_sticky (t : Nat) (g : Nat → Nat × Word) (b : Nat) :
    (joinElems t g).2.getLsbD b = true ↔ ∃ k < packOf t, (g k).2.getLsbD b = true := by
  simp only [joinElems_eq, foldl_or_zero, List.mem_range]

section kept
variable (t x : Nat) (p : Nat → Prop) [DecidablePred p] (g : Nat → Nat × Word)

/-- Elements of which some are given and the others are those of a register. -/
theorem joinElems_kept_get {k : Nat} (h : k < packOf t) : elemGet t (joinElems t fun k => if p k then g k else (elemGet t x k, 0)).1 k =
    if p k then (g k).1 % 2 ^ elemBits t else elemGet t x k := by
  rw [joinElems_get t _ h]
  split
  · rfl
  · exact elemGet_small t x k

theorem joinElems_kept_sticky (b : Nat) : (joinElems t fun k => if p k then g k else (elemGet t x k, 0)).2.getLsbD b = true ↔
    ∃ k < packOf t, p k ∧ (g k).2.getLsbD b = true := by
  rw [joinElems_sticky]
  refine exists_congr fun k => and_congr_right fun _ => ?_
  by_cases hp : p k <;> simp [hp]

end kept

theorem maskOf_getLsbD (p : Nat → Bool) {l : Nat} (hl : l < 64) : (maskOf p).getLsbD l = p l := by
  have hsum : (List.range 64).foldl (fun a k => if p k then a + 2 ^ k else a) 0 = digits 2 (fun k => (p k).toNat) 64 := by
    rw [← foldl_digits]
    congr 1
    funext a k
    cases p k <;> simp
  rw [maskOf, hsum, BitVec.getLsbD_ofNat, Nat.testBit_eq_decide_div_mod_eq, digits_get two_pos _ _ _ hl]
  cases p l <;> simp [hl]

/-- The STICKY bits of a mask's lanes. -/
theorem laneVals_sticky_bit (lanes : Nat) (m : Mask) (g : Nat → Nat × Word) (b : Nat) :
    (laneVals lanes m g).2.getLsbD b = true ↔ ∃ l < lanes, m.getLsbD l = true ∧ (g l).2.getLsbD b = true := by
  have hfold : (laneVals lanes m g).2 = (List.range lanes).foldl (fun a l => a ||| if m.getLsbD l then (g l).2 else 0) 0 := by
    rw [laneVals_sticky]
    refine congrArg (fun h => List.foldl h 0 _) (funext fun a => funext fun l => ?_)
    split <;> simp
  rw [hfold, foldl_or_zero]
  refine exists_congr fun l => ?_
  rw [List.mem_range]
  by_cases hm : m.getLsbD l = true <;> simp [hm]

/-! ## VCVT (R90, R91) -/

theorem vcvt_gives (h : MayIssue (.vcvt f) c s) : GivesV (.vcvt f) f c s (cvtLane c.env f) :=
  issue_gives h (ck := fun c => ckVcvt c.env f) (o := fun c => (vcvtOp f).eval c.env) rfl rfl rfl rfl (fun _ => rfl)
    (vResult_delivers f _)

/-- No operand of VCVT is a pair. -/
theorem vcvt_narrow (h : MayIssue (.vcvt f) c s) : is64 f.t = false := by
  have htype : f.t ∈ cvtTypes := vType (f := { f with sat := 0 }) (o := (vcvtOp f).opts) h rfl
  revert htype; generalize f.t = t; revert t; decide

section lane
variable (e : Env) (l : Nat)

/-- A lane of VCVT from elements to as many: the used ones are converted, the others are A's. -/
theorem cvtLane_same (h : packOf f.t = packOf f.srcType) : cvtLane e f l = joinElems f.t fun k =>
    if k < usedOf f.t f.count then cvtElem e f l (usedOf f.t f.count) k (elemGet f.srcType (e.src f.sa f.uniA l).toNat k)
    else (elemGet f.t (e.src f.sa f.uniA l).toNat k, 0) := by
  rw [cvtLane, if_pos h]

/-- A lane of VCVT to more elements: those of A and then of B from the half that sat names on, the others are C's. -/
theorem cvtLane_widens (h : packOf f.srcType < packOf f.t) : cvtLane e f l = joinElems f.t fun k =>
    let ps := packOf f.srcType
    let n := if f.count = 0 then 2 * ps else f.count
    let j := k - 2 * ps * f.sat.toNat
    if 2 * ps * f.sat.toNat ≤ k ∧ j < n then
      cvtElem e f l n j (if j < ps then elemGet f.srcType (e.src f.sa f.uniA l).toNat j
        else elemGet f.srcType (e.src f.sb f.uniB l).toNat (j - ps))
    else (elemGet f.t (e.src f.sc f.uniC l).toNat k, 0) := by
  rw [cvtLane, if_neg h.ne', if_pos h]
  simp only [Bool.and_eq_true, decide_eq_true_eq]

/-- A lane of VCVT to fewer elements: a part of A is converted. -/
theorem cvtLane_narrows (h : packOf f.t < packOf f.srcType) : cvtLane e f l = joinElems f.t fun k =>
    cvtElem e f l (packOf f.t) k (elemGet f.srcType (e.src f.sa f.uniA l).toNat (packOf f.t * f.count + k)) := by
  rw [cvtLane, if_neg h.ne, if_neg h.not_gt]

end lane

/-! ## VQBLK (R92, R93) -/

/-- An output that acts in the lanes of a mask: when it lands (R62), and what it leaves. -/
theorem inLanes_delay (m : Mask) (o : VOut) : (VOut.inLanes m o).delay = latIn false m o.delay := by
  unfold VOut.inLanes latIn; split <;> simp_all

theorem inLanes_writes (m : Mask) (o : VOut) (e : Env) : (VOut.inLanes m o).writes e = if m = 0 then [] else o.writes e := by
  unfold VOut.inLanes; split <;> rfl

theorem inLanes_sticky (m : Mask) (o : VOut) : (VOut.inLanes m o).sticky = o.sticky := by unfold VOut.inLanes; split <;> rfl

theorem inLanes_latch (m : Mask) (o : VOut) : (VOut.inLanes m o).latch = o.latch := by unfold VOut.inLanes; split <;> rfl

/-- The block of a lane: its codes, header and STICKY bits (R93). -/
def laneBlock (e : Env) (f : VFmt) (l : Nat) : List Nat × Nat × Word :=
  quantBlock (if f.blkFour then narrow4 f.dstTag else narrow8 f.dstTag) f.dstTag (f.func.getLsbD 11) (e.mode f.round l 24 0)
    (blockVals e f f.blkCount l)

theorem evalVqblk_eq (e : Env) (f : VFmt) :
    let m := e.active f.guard
    let lanes := (List.range e.lanes).map fun l =>
      if m.getLsbD l then (blockRegsOf f (laneBlock e f l).1 (laneBlock e f l).2.1, (laneBlock e f l).2.2) else ([], 0)
    evalVqblk e f = VOut.inLanes m
      { vecs := (List.range (if f.blkFour then 4 else 7)).map fun j => (dIdx f.dst + j, m, toWords (lanes.map fun x => x.1.getD j 0)),
        sticky := lanes.foldl (fun a x => a ||| x.2) 0, delay := longer e.lanes 10 } := rfl

theorem vqblk_writes (c : Issuer) (f : VFmt) :
    let m := c.env.active f.guard
    (evalVqblk c.env f).writes c.env = if m = 0 then [] else
      (List.range (if f.blkFour then 4 else 7)).map fun j => .vec (c.env.phys (dIdx f.dst + j)) m
        (laneWords c m fun l => (blockRegsOf f (laneBlock c.env f l).1 (laneBlock c.env f l).2.1).getD j 0) := by
  intro m
  rw [evalVqblk_eq, inLanes_writes]
  have hl : c.env.lanes = c.warp.width := rfl
  simp only [VOut.writes, List.map_map, List.map_nil, List.append_nil, toWords, laneWords, hl]
  refine if_congr Iff.rfl rfl (List.map_congr_left fun j _ => ?_)
  refine congrArg (RegWrite.vec _ _) (List.map_congr_left fun l _ => ?_)
  simp only [Function.comp]
  split <;> rfl

theorem vqblk_sticky (c : Issuer) (f : VFmt) :
    (evalVqblk c.env f).sticky = stickyOf c false (c.env.active f.guard) fun l => (laneBlock c.env f l).2.2 := by
  rw [evalVqblk_eq, inLanes_sticky]
  simp only [stickyOf, List.foldl_map, Bool.false_eq_true, if_false]
  refine congrArg (fun g => List.foldl g 0 _) (funext fun a => funext fun l => ?_)
  split <;> simp

/-- VQBLK writes the lanes' blocks, with the STICKY bits of the active ones. -/
theorem vqblk_gives (h : MayIssue (.vqblk f) c s) :
    let m := c.env.active f.guard
    GivesWrites (.vqblk f) c s (latIn false m (longer c.warp.width 10))
      (if m = 0 then [] else (List.range (if f.blkFour then 4 else 7)).map fun j => .vec (c.env.phys (dIdx f.dst + j)) m
        (laneWords c m fun l => (blockRegsOf f (laneBlock c.env f l).1 (laneBlock c.env f l).2.1).getD j 0))
      (stickyOf c false m fun l => (laneBlock c.env f l).2.2) none := by
  have hdelay : (evalVqblk c.env f).delay = latIn false (c.env.active f.guard) (longer c.warp.width 10) := inLanes_delay _ _
  have hlatch : (evalVqblk c.env f).latch = none := inLanes_latch _ _
  have hgives := issue_givesWrites h (ck := fun c => ckVqblk c.env f) (o := fun c => evalVqblk c.env f) rfl rfl rfl rfl
  rwa [vqblk_writes, vqblk_sticky, hdelay, hlatch] at hgives

/-! ## VQCVT (R96) -/

/-- Lane l's operand, and whether the lane is an outlier. -/
def outlierOperand (e : Env) (f : VFmt) (l : Nat) : Nat := (e.src f.sa f.uniA l).toNat
def isOutlier (e : Env) (f : VFmt) (l : Nat) : Bool :=
  (e.active f.guard).getLsbD l && ((f32.decode (outlierOperand e f l)).isNan ||
    keyOf f32 e.thr.toNat < keyOf f32 (outlierOperand e f l % 2 ^ 31))
/-- The element that a lane converts, an outlier's being zero, and the lane's register. -/
def convertedElem (e : Env) (f : VFmt) (l : Nat) : Nat × Word :=
  if isOutlier e f l then (0, 0) else elemEnc f.t f.dstTag e.fp8sat (e.mode f.round l 1 0) (f32.decode (outlierOperand e f l))
def convertedLane (e : Env) (f : VFmt) (l : Nat) : Nat × Word :=
  ((joinElems f.t fun k =>
    (if k = f.func.toNat / 256 % 8 then (convertedElem e f l).1 else elemGet f.t (e.src f.sc f.uniC l).toNat k, 0)).1, (convertedElem e f l).2)
/-- The side list: the outliers as BF16, in lane order. -/
def sideList (e : Env) (f : VFmt) : List (Nat × Word) :=
  ((List.range e.lanes).filter (isOutlier e f)).map fun l => bf16.encode .rne (f32.decode (outlierOperand e f l))

theorem evalVqcvt_eq (e : Env) (f : VFmt) :
    let m := e.active f.guard
    let half := fun j => (((sideList e f)[j]?).map (·.1)).getD 0
    evalVqcvt e f = VOut.inLanes m
      { vecs := [(dIdx f.dst, m, toWords (laneVals e.lanes m (convertedLane e f)).1),
          (fIdx f.sb, lowMask e.lanes, toWords ((List.range e.lanes).map fun l => half (2 * l) + 2 ^ 16 * half (2 * l + 1)))],
        preds := [(f.func.toNat / 16 % 8, m, maskOf (isOutlier e f))],
        sticky := (sideList e f).foldl (fun x y => x ||| y.2) (laneVals e.lanes m (convertedLane e f)).2, delay := longer e.lanes 8 } := rfl

theorem vqcvt_writes (c : Issuer) (f : VFmt) :
    let m := c.env.active f.guard
    let side := ((List.range c.warp.width).filter (isOutlier c.env f)).map fun l =>
      (bf16.encode .rne (f32.decode (outlierOperand c.env f l))).1
    (evalVqcvt c.env f).writes c.env = if m = 0 then [] else
      [.vec (c.env.phys (dIdx f.dst)) m (laneWords c m fun l => (convertedLane c.env f l).1),
       .vec (c.env.phys (fIdx f.sb)) (lowMask c.warp.width)
         ((List.range c.warp.width).map fun l => BitVec.ofNat 32 (side.getD (2 * l) 0 + 2 ^ 16 * side.getD (2 * l + 1) 0)),
       .pred (f.func.toNat / 16 % 8) m (maskOf (isOutlier c.env f))] := by
  intro m side
  have hcodes : (sideList c.env f).map (·.1) = side := List.map_map
  have hside : ∀ j, (((sideList c.env f)[j]?).map (·.1)).getD 0 = side.getD j 0 := fun j => by
    rw [← hcodes, List.getD_eq_getElem?_getD, List.getElem?_map]
  rw [evalVqcvt_eq, inLanes_writes]
  simp only [VOut.writes, List.map_cons, List.map_nil, List.append_nil, laneVals_words, hside]
  rw [toWords, List.map_map]
  rfl

/-- The STICKY bits are those of the elements of the lanes that convert and of the outliers' roundings. -/
theorem vqcvt_sticky (c : Issuer) (f : VFmt) (b : Nat) : (evalVqcvt c.env f).sticky.getLsbD b = true ↔
    ∃ l < c.warp.width, (c.env.active f.guard).getLsbD l = true ∧
      ((isOutlier c.env f l = false ∧
          (elemEnc f.t f.dstTag c.env.fp8sat (c.env.mode f.round l 1 0) (f32.decode (outlierOperand c.env f l))).2.getLsbD b = true) ∨
        (isOutlier c.env f l = true ∧ (bf16.encode .rne (f32.decode (outlierOperand c.env f l))).2.getLsbD b = true)) := by
  rw [evalVqcvt_eq, inLanes_sticky]
  simp only [foldl_or_bit, laneVals_sticky_bit, sideList, List.mem_map, List.mem_filter, List.mem_range]
  constructor
  · rintro (⟨l, hl, hm, hb⟩ | ⟨_, ⟨l, ⟨hl, hout⟩, rfl⟩, hb⟩)
    · cases hout : isOutlier c.env f l with
      | true => simp [convertedLane, convertedElem, hout] at hb
      | false => exact ⟨l, hl, hm, .inl ⟨hout, by simpa [convertedLane, convertedElem, hout] using hb⟩⟩
    · exact ⟨l, hl, (Bool.and_eq_true _ _ ▸ hout).1, .inr ⟨hout, hb⟩⟩
  · rintro ⟨l, hl, hm, ⟨hout, hb⟩ | ⟨hout, hb⟩⟩
    · exact .inl ⟨l, hl, hm, by simpa [convertedLane, convertedElem, hout] using hb⟩
    · exact .inr ⟨_, ⟨l, ⟨hl, hout⟩, rfl⟩, hb⟩

/-- An active lane's register of VQCVT: the converted element in its place, the others C's (R96). -/
theorem convertedLane_get (e : Env) (f : VFmt) (l : Nat) {k : Nat} (hk : k < packOf f.t) :
    elemGet f.t (convertedLane e f l).1 k = if k ≠ f.func.toNat / 256 % 8 then elemGet f.t (e.src f.sc f.uniC l).toNat k
      else if isOutlier e f l then 0
      else (elemEnc f.t f.dstTag e.fp8sat (e.mode f.round l 1 0) (f32.decode (outlierOperand e f l))).1 % 2 ^ elemBits f.t := by
  rw [convertedLane, joinElems_get _ _ hk, ite_not]
  split
  · rw [convertedElem]
    split
    · exact Nat.zero_mod _
    · rfl
  · exact elemGet_small _ _ _

/-- VQCVT writes the lanes' registers, the side list and the outliers' predicate. -/
theorem vqcvt_gives (h : MayIssue (.vqcvt f) c s) :
    let m := c.env.active f.guard
    GivesWrites (.vqcvt f) c s (latIn false m (longer c.warp.width 8)) ((evalVqcvt c.env f).writes c.env) (evalVqcvt c.env f).sticky none := by
  have hdelay : (evalVqcvt c.env f).delay = latIn false (c.env.active f.guard) (longer c.warp.width 8) := inLanes_delay _ _
  have hlatch : (evalVqcvt c.env f).latch = none := inLanes_latch _ _
  have hgives := issue_givesWrites h (ck := fun c => ckVqcvt c.env f) (o := fun c => evalVqcvt c.env f) rfl rfl rfl rfl
  rwa [hdelay, hlatch] at hgives

end Sys2Proof.Laws
end

section
/-! THEOREMS. What the float instructions compute, and what rounding to a wide format gives. -/

namespace Sys2Proof.Laws

open Sys2Proof.Machine

/-- Settles O4: each row completes with its operation on the used elements, and the code that a format's rounding chooses is R55's choice between
the two codes around the exact value. -/
theorem vectorFloatResults : Obligations.VectorFloatResults := by
  unfold Obligations.VectorFloatResults
  refine ⟨fun f c s => ?rounded, fun f c s => ?selected, fun w hw x hx => floatClass_spec (wide_pos w hw).1 hx, fun w hw r => ?rounding⟩
  case rounded =>
    refine ⟨fun h => ?_, fun h => ?_, fun h => ?_, fun h => ?_, fun h => ?_, fun h => ?_, fun h => ?_, vfscale_gives, vfdot2_gives⟩
    all_goals exact (floatRow_givesElems h rfl rfl rfl rfl rfl rfl rfl).2
  case selected =>
    refine ⟨fun h => ?_, fun h => ?_, fun h => ?_, fun h => ?neg, fun h => ?copysign, fun h => runV_gives h rfl rfl rfl rfl rfl rfl⟩
    case neg =>
      refine floatRow_of_eq h rfl rfl rfl rfl rfl rfl rfl fun l k a b d ha hb => ?_
      rw [← flip_eq_xor ha]; rfl
    case copysign =>
      refine floatRow_of_eq h rfl rfl rfl rfl rfl rfl rfl fun l k a b d ha hb => ?_
      rw [← sign_eq hb]; rfl
    all_goals exact (floatRow_givesElems h rfl rfl rfl rfl rfl rfl rfl).2
  case rounding =>
    obtain ⟨-, hmb⟩ := wide_pos w hw
    refine ⟨rfl, fun n => rfl, fun x hx h => encode_decode hmb r hx h, fun neg m e => ?_⟩
    obtain ⟨a, d, c, hround, hz⟩ := encode_rounds hmb r neg m e
    refine ⟨a, d, c, hround, ?_⟩
    cases r <;> exact hz

end Sys2Proof.Laws
end

section
/-! THEOREMS. What the conversions compute, and what rounding to a narrow format or an integer gives. -/

namespace Sys2Proof.Laws

open Sys2Proof.Machine

/-- Settles O7: each row writes the joined elements of its lanes, and a conversion's code is R55's choice between the two codes around the
exact value, or what R50's table and the clamp of R91 make of it. -/
theorem conversionResults : Obligations.ConversionResults := by
  unfold Obligations.ConversionResults
  refine ⟨fun f c s => ⟨?vcvt, ?vqblk, ?vqcvt⟩, fun k hk sat r => ?narrow, fun n signed r hn => ?integer⟩
  case vcvt =>
    intro h
    have hnarrow := vcvt_narrow h
    refine ⟨cvtLane c.env f, vcvt_gives h, fun l => ?_⟩
    simp only [Env.va, Env.vb, Env.vc, hnarrow, Bool.false_eq_true, if_false]
    rcases lt_trichotomy (packOf f.t) (packOf f.srcType) with hp | hp | hp
    · rw [cvtLane_narrows c.env l hp]
      refine ⟨fun hc => absurd hc hp.ne, fun hc => absurd hc hp.not_gt, fun _ k hk => joinElems_get _ _ hk, fun b => ?_⟩
      rw [joinElems_sticky]
      simp only [hp, hp.ne, hp.not_gt, false_and, false_or, true_and, cvtElem]
    · rw [cvtLane_same c.env l hp]
      refine ⟨fun _ k hk => joinElems_kept_get _ _ _ _ hk, fun hc => absurd hc hp.not_gt, fun hc => absurd hc hp.not_lt, fun b => ?_⟩
      rw [joinElems_kept_sticky]
      simp only [hp, lt_irrefl, false_and, or_false, true_and, cvtElem]
    · rw [cvtLane_widens c.env l hp]
      refine ⟨fun hc => absurd hc hp.ne', fun _ k hk => joinElems_kept_get _ _ _ _ hk, fun hc => absurd hc hp.not_gt, fun b => ?_⟩
      rw [joinElems_kept_sticky]
      simp only [hp, hp.ne', hp.not_gt, false_and, false_or, or_false, true_and, and_assoc, cvtElem]
  case vqblk => exact vqblk_gives
  case vqcvt =>
    intro h
    exact ⟨fun l => (convertedLane c.env f l).1, maskOf (isOutlier c.env f), (evalVqcvt c.env f).sticky, vqcvt_writes c f ▸ vqcvt_gives h,
      fun l hl => maskOf_getLsbD _ (getLsbD_le63 hl), vqcvt_sticky c f, fun l _ k hk => convertedLane_get c.env f l hk⟩
  case narrow => exact ⟨narrowEncode_nan hk sat r, narrowEncode_inf hk sat r, narrowEncode_rounds hk sat r⟩
  case integer =>
    refine ⟨rfl, toIntBits_inf n signed r, fun neg m e => ?_, fun k hk hbits hsigned sat => ?_⟩
    · rw [toIntBits_fin]
      exact intEncode_rounds n signed stIsat r neg m e
    · subst hbits hsigned
      refine ⟨narrowInt_nan hk sat r, narrowInt_inf hk sat r, fun neg m e => ?_⟩
      rw [narrowInt_fin hk]
      exact intEncode_rounds _ true stSat8 r neg m e

end Sys2Proof.Laws
end

section
/-! SUPPORT. Integer reductions (R102, R103): an operation on 32-bit elements is associative, its identity is neutral on both sides, and so
a fold over two parts is the combination of the folds over each, as a node of VRED's tree is. -/

namespace Sys2Proof.Laws

open Sys2Proof.Machine

/-! ## The operations on integers -/

section integers
variable {t : Nat} (ht : t = 0 ∨ t = 1) (r : Rnd) (a x : Nat)
include ht

theorem combine_add : (combine t 0 r a x).1 = (a + x) % 2 ^ 32 := by
  have htype : typeBits t = 32 ∧ isWide t = false := by rcases ht with rfl | rfl <;> exact ⟨rfl, rfl⟩
  have hval (y : Nat) : BitVec.ofInt 32 (intOf t y) = BitVec.ofNat 32 y := by
    rw [intOf_eq, intVal, htype.1]
    split
    · exact BitVec.ofInt_toInt
    · rw [BitVec.ofInt_natCast, BitVec.ofNat_toNat, BitVec.setWidth_eq]
  simp only [combine, htype, Bool.false_eq_true, if_false]
  rw [wrapTo_eq, BitVec.ofInt_add, hval, hval, ← BitVec.ofNat_add, BitVec.toNat_ofNat]

theorem combine_min : (combine t 1 r a x).1 = if intOf t a ≤ intOf t x then a else x := by rcases ht with rfl | rfl <;> rfl

theorem combine_max : (combine t 2 r a x).1 = if intOf t a ≤ intOf t x then x else a := by rcases ht with rfl | rfl <;> rfl

theorem combine_and : (combine t 3 r a x).1 = a &&& x := by rcases ht with rfl | rfl <;> rfl

theorem combine_or : (combine t 4 r a x).1 = a ||| x := by rcases ht with rfl | rfl <;> rfl

theorem combine_xor : (combine t 5 r a x).1 = a ^^^ x := by rcases ht with rfl | rfl <;> rfl

theorem identityOf_zero {op : Nat} (h : op ∈ [0, 4, 5]) : identityOf t op = 0 := by
  rcases ht with rfl | rfl <;> fin_cases h <;> rfl

theorem identityOf_and : identityOf t 3 = 2 ^ 32 - 1 := by rcases ht with rfl | rfl <;> rfl

theorem intOf_inj {a x : Nat} (ha : a < 2 ^ 32) (hx : x < 2 ^ 32) (h : intOf t a = intOf t x) : a = x := by
  rcases ht with rfl | rfl
  all_goals
    simp only [intOf, isSigned, typeBits, signedOf] at h
    norm_num at h
    omega

theorem intOf_le_identity_min (x : Nat) : intOf t x ≤ intOf t (identityOf t 1) := by
  rcases ht with rfl | rfl
  · show signedOf 32 x ≤ 2 ^ 31 - 1
    simp only [signedOf]; omega
  · show ((x % 2 ^ 32 : Nat) : Int) ≤ 2 ^ 32 - 1
    omega

theorem identity_max_le_intOf (x : Nat) : intOf t (identityOf t 2) ≤ intOf t x := by
  rcases ht with rfl | rfl
  · show -2 ^ 31 ≤ signedOf 32 x
    simp only [signedOf]; omega
  · show (0 : Int) ≤ (x % 2 ^ 32 : Nat)
    omega

end integers

/-! ## The laws of an operation -/

/-- The six operations on integers by name (R102), for case splits. -/
theorem integer_op_cases {motive : (op : Nat) → op ≤ 5 → Prop} (add : motive 0 (by decide)) (min : motive 1 (by decide))
    (max : motive 2 (by decide)) (and : motive 3 (by decide)) (or : motive 4 (by decide)) (xor : motive 5 (by decide))
    (op : Nat) (hop : op ≤ 5) : motive op hop := by
  interval_cases op <;> assumption

section laws
variable {t op : Nat} (ht : t = 0 ∨ t = 1) (hop : op ≤ 5) (r : Rnd)
include ht hop

theorem identityOf_lt : identityOf t op < 2 ^ 32 := by
  rcases ht with rfl | rfl <;> interval_cases op <;> decide

theorem combine_lt {a x : Nat} (ha : a < 2 ^ 32) (hx : x < 2 ^ 32) : (combine t op r a x).1 < 2 ^ 32 := by
  cases op, hop using integer_op_cases with
  | add => rw [combine_add ht]; exact Nat.mod_lt _ (Nat.two_pow_pos _)
  | min => rw [combine_min ht]; split <;> assumption
  | max => rw [combine_max ht]; split <;> assumption
  | and => rw [combine_and ht]; exact Nat.and_lt_two_pow _ hx
  | or => rw [combine_or ht]; exact Nat.or_lt_two_pow ha hx
  | xor => rw [combine_xor ht]; exact Nat.xor_lt_two_pow ha hx

theorem combine_assoc (a b d : Nat) :
    (combine t op r (combine t op r a b).1 d).1 = (combine t op r a (combine t op r b d).1).1 := by
  cases op, hop using integer_op_cases with
  | add => simp only [combine_add ht]; omega
  | min => simp only [combine_min ht]; split_ifs <;> omega
  | max => simp only [combine_max ht]; split_ifs <;> omega
  | and => simp only [combine_and ht, Nat.and_assoc]
  | or => simp only [combine_or ht, Nat.or_assoc]
  | xor => simp only [combine_xor ht, Nat.xor_assoc]

theorem combine_identity {x : Nat} (hx : x < 2 ^ 32) : (combine t op r x (identityOf t op)).1 = x := by
  cases op, hop using integer_op_cases with
  | add => rw [combine_add ht, identityOf_zero ht (by decide)]; exact Nat.mod_eq_of_lt hx
  | min => rw [combine_min ht, if_pos (intOf_le_identity_min ht x)]
  | max =>
    rw [combine_max ht]
    split
    case isTrue h => exact intOf_inj ht (identityOf_lt ht (by decide)) hx (le_antisymm (identity_max_le_intOf ht x) h)
    case isFalse => rfl
  | and => rw [combine_and ht, identityOf_and ht]; exact Nat.and_two_pow_sub_one_of_lt_two_pow hx
  | or => rw [combine_or ht, identityOf_zero ht (by decide), Nat.or_zero]
  | xor => rw [combine_xor ht, identityOf_zero ht (by decide), Nat.xor_zero]

theorem combine_comm {a x : Nat} (ha : a < 2 ^ 32) (hx : x < 2 ^ 32) : (combine t op r a x).1 = (combine t op r x a).1 := by
  cases op, hop using integer_op_cases with
  | add => rw [combine_add ht, combine_add ht, Nat.add_comm]
  | min | max =>
    simp only [combine_min ht, combine_max ht]
    rcases lt_trichotomy (intOf t a) (intOf t x) with h | h | h
    · rw [if_pos h.le, if_neg h.not_ge]
    · rw [intOf_inj ht ha hx h]
    · rw [if_neg h.not_ge, if_pos h.le]
  | and => rw [combine_and ht, combine_and ht, Nat.and_comm]
  | or => rw [combine_or ht, combine_or ht, Nat.or_comm]
  | xor => rw [combine_xor ht, combine_xor ht, Nat.xor_comm]

theorem identity_combine {x : Nat} (hx : x < 2 ^ 32) : (combine t op r (identityOf t op) x).1 = x := by
  rw [combine_comm ht hop r (identityOf_lt ht hop) hx, combine_identity ht hop r hx]

/-! ## Folds and trees -/

omit ht hop in
theorem foldElems_concat (xs : List Nat) (x : Nat) :
    (foldElems t op r (xs ++ [x])).1 = (combine t op r (foldElems t op r xs).1 x).1 := by
  simp [foldElems]

theorem foldElems_lt (xs : List Nat) (h : ∀ x ∈ xs, x < 2 ^ 32) : (foldElems t op r xs).1 < 2 ^ 32 := by
  induction xs using List.reverseRecOn with
  | nil => exact identityOf_lt ht hop
  | append_singleton xs x ih =>
    rw [foldElems_concat]
    exact combine_lt ht hop r (ih fun y hy => h y (by simp [hy])) (h x (by simp))

theorem foldElems_append (xs ys : List Nat) (hx : ∀ x ∈ xs, x < 2 ^ 32) :
    (foldElems t op r (xs ++ ys)).1 = (combine t op r (foldElems t op r xs).1 (foldElems t op r ys).1).1 := by
  induction ys using List.reverseRecOn with
  | nil => rw [List.append_nil]; exact (combine_identity ht hop r (foldElems_lt ht hop r xs hx)).symm
  | append_singleton ys y ih => rw [← List.append_assoc, foldElems_concat, ih, foldElems_concat, combine_assoc ht hop]

/-- A node combines its two subtrees, also where all leaves are inactive: the identity combined with itself is the identity. -/
theorem reduceTree_succ_getD (leaf : Nat → Option Nat) (n k : Nat) :
    (reduceTree t op r leaf (n + 1) k).1.getD (identityOf t op) =
      (combine t op r ((reduceTree t op r leaf n (2 * k)).1.getD (identityOf t op))
        ((reduceTree t op r leaf n (2 * k + 1)).1.getD (identityOf t op))).1 := by
  rw [reduceTree]
  split
  case h_1 ha hb => simp [ha, hb, combine_identity ht hop r (identityOf_lt ht hop)]
  case h_2 => rfl

theorem reduceTree_getD (leaf : Nat → Option Nat) (h : ∀ l, ∀ x ∈ leaf l, x < 2 ^ 32) (n k : Nat) :
    (reduceTree t op r leaf n k).1.getD (identityOf t op) =
      (foldElems t op r ((List.range' (2 ^ n * k) (2 ^ n)).filterMap leaf)).1 := by
  induction n generalizing k with
  | zero =>
    cases hk : leaf k with
    | none => simp [reduceTree, foldElems, hk]
    | some x => simp [reduceTree, foldElems, hk, identity_combine ht hop r (h k x hk)]
  | succ n ih =>
    have hsplit : List.range' (2 ^ (n + 1) * k) (2 ^ (n + 1)) =
        List.range' (2 ^ n * (2 * k)) (2 ^ n) ++ List.range' (2 ^ n * (2 * k + 1)) (2 ^ n) := by
      rw [show 2 ^ (n + 1) * k = 2 ^ n * (2 * k) by ring, Nat.mul_succ, List.range'_append_1, Nat.pow_succ, Nat.mul_two]
    have hlt : ∀ x ∈ (List.range' (2 ^ n * (2 * k)) (2 ^ n)).filterMap leaf, x < 2 ^ 32 := by
      intro x hx
      obtain ⟨l, -, hl⟩ := List.mem_filterMap.mp hx
      exact h l x hl
    rw [reduceTree_succ_getD ht hop, ih, ih, hsplit, List.filterMap_append, foldElems_append ht hop r _ _ hlt]

end laws

/-- The values of the leaves of active lanes are the elements of the active lanes. -/
theorem activeElems_eq_filterMap (c : Issuer) (f : VFmt) (n : Nat) :
    activeElems c f n =
      (List.range n).filterMap fun l => if activeIn c f l then some (elemGet f.t (laneA c.env f l) 0) else none := by
  rw [activeElems, ← List.filterMap_eq_map, List.filterMap_filter]; rfl

end Sys2Proof.Laws
end

section
/-! THEOREMS. VRED's tree on integers. -/

namespace Sys2Proof.Laws

open Sys2Proof.Machine

/-- Settles O9, by induction on the levels of the tree: each node combines the folds over its two halves, and on integers that is the fold
over both. -/
theorem integerReductionIsFold : Obligations.IntegerReductionIsFold := by
  unfold Obligations.IntegerReductionIsFold
  intro c f n ht hop _
  have hbits : elemBits f.t = 32 := by rcases ht with h | h <;> rw [h] <;> rfl
  have hleaf : ∀ l, ∀ x ∈ (if activeIn c f l then some (elemGet f.t (laneA c.env f l) 0) else none), x < 2 ^ 32 := by
    intro l x hx
    obtain ⟨-, hx⟩ := Option.ite_none_right_eq_some.mp hx
    obtain rfl := Option.some.inj hx
    exact hbits ▸ elemGet_lt f.t _ 0
  simp only [reduceTree_getD ht hop .rne _ hleaf, activeElems_eq_filterMap, Nat.mul_zero, ← List.range_eq_range']

end Sys2Proof.Laws
end

section
/-! SUPPORT. What the matrix instructions act on (R105, R108, R112, R126): what each update of a group's slots and tiles and of a core's
queues reads as, and what issuing an instruction that leaves one operation outstanding has done. -/

namespace Sys2Proof.Laws

open Sys2Proof.Machine

/-! ## Groups -/

theorem modGroup_ne (s : State) {j k : Nat} (h : j ≠ k) (f : Group → Group) : (s.modGroup k f).group? j = s.group? j := flook_fmod_ne h _ _

theorem fmod_fmod {α : Type} (k : Nat) (f h : α → α) (m : FMap α) : fmod k h (fmod k f m) = fmod k (h ∘ f) m := by
  rw [fmod, fmod, List.map_map]
  refine List.map_congr_left fun p _ => ?_
  by_cases hp : p.1 = k <;> simp [hp]

@[simp] theorem modGroup_modGroup (s : State) (k : Nat) (f h : Group → Group) :
    (s.modGroup k f).modGroup k h = s.modGroup k (h ∘ f) := congrArg (fun m => ({ s with groups := m } : State)) (fmod_fmod k f h s.groups)

/-- A group with one of its slots, or of its tiles, as given. -/
def withSlot (g : Group) (k : Nat) (x : Slot) : Group := { g with slots := fput k x g.slots }
def withTile (g : Group) (k : Nat) (x : Tile) : Group := { g with tiles := fput k x g.tiles }

theorem modSlot_eq (s : State) (gid k : Nat) (f : Slot → Slot) : s.modSlot gid k f = s.modGroup gid fun g => withSlot g k (f (g.slot k)) := rfl
theorem modTile_eq (s : State) (gid k : Nat) (f : Tile → Tile) : s.modTile gid k f = s.modGroup gid fun g => withTile g k (f (g.tile k)) := rfl

@[simp] theorem withSlot_slot (g : Group) (k j : Nat) (x : Slot) : (withSlot g k x).slot j = if j = k then x else g.slot j := by
  by_cases h : j = k
  · subst h; simp [withSlot, Group.slot]
  · simp [withSlot, Group.slot, h, flook_fput_ne h]
@[simp] theorem withSlot_tile (g : Group) (k j : Nat) (x : Slot) : (withSlot g k x).tile j = g.tile j := rfl
@[simp] theorem withTile_tile (g : Group) (k j : Nat) (x : Tile) : (withTile g k x).tile j = if j = k then x else g.tile j := by
  by_cases h : j = k
  · subst h; simp [withTile, Group.tile]
  · simp [withTile, Group.tile, h, flook_fput_ne h]
@[simp] theorem withTile_slot (g : Group) (k j : Nat) (x : Tile) : (withTile g k x).slot j = g.slot j := rfl

/-- A group with a change made to two of its slots, once where they are one. -/
def withSlots (g : Group) (a b : Nat) (f : Slot → Slot) : Group :=
  let h := withSlot g a (f (g.slot a))
  if a = b then h else withSlot h b (f (h.slot b))

theorem withSlots_slot (g : Group) (a b j : Nat) (f : Slot → Slot) :
    (withSlots g a b f).slot j = if j = a ∨ j = b then f (g.slot j) else g.slot j := by
  unfold withSlots
  by_cases hab : a = b
  · rw [if_pos hab, withSlot_slot, ← hab]
    by_cases ha : j = a
    · subst ha; simp
    · simp [ha]
  · rw [if_neg hab, withSlot_slot, withSlot_slot, withSlot_slot]
    by_cases hb : j = b
    · subst hb; simp [Ne.symm hab]
    · by_cases ha : j = a
      · subst ha; simp [hab]
      · simp [ha, hb]

/-- Beside slots it changes nothing. -/
theorem withSlots_rest (g : Group) (a b : Nat) (f : Slot → Slot) : withSlots g a b f = { g with slots := (withSlots g a b f).slots } := by
  unfold withSlots
  split <;> rfl

theorem withSlots_tile (g : Group) (a b j : Nat) (f : Slot → Slot) : (withSlots g a b f).tile j = g.tile j := by
  rw [withSlots_rest]; rfl

/-- A group whose slots and tiles alone have changed. -/
def Reslotted (g h : Group) : Prop := h = { g with slots := h.slots, tiles := h.tiles }

theorem Reslotted.refl (g : Group) : Reslotted g g := rfl
theorem Reslotted.withSlot {g h : Group} (hr : Reslotted g h) (k : Nat) (x : Slot) : Reslotted g (withSlot h k x) := by
  unfold Reslotted at *; rw [hr]; rfl
theorem Reslotted.withTile {g h : Group} (hr : Reslotted g h) (k : Nat) (x : Tile) : Reslotted g (withTile h k x) := by
  unfold Reslotted at *; rw [hr]; rfl

theorem Reslotted.withSlots {g h : Group} (hr : Reslotted g h) (a b : Nat) (f : Slot → Slot) : Reslotted g (withSlots h a b f) := by
  unfold Reslotted at *; rw [withSlots_rest, hr]

theorem modSlots_eq (s : State) (gid a b : Nat) (f : Slot → Slot) :
    (if a = b then s.modSlot gid a f else (s.modSlot gid a f).modSlot gid b f) = s.modGroup gid fun g => withSlots g a b f := by
  by_cases h : a = b
  · rw [if_pos h, modSlot_eq]
    exact congrArg _ (funext fun g => (if_pos h).symm)
  · rw [if_neg h, modSlot_eq, modSlot_eq, modGroup_modGroup]
    exact congrArg _ (funext fun g => (if_neg h).symm)

/-- The slots and tiles of the issuing group after a change of its group alone. -/
theorem slotsTiles_of_modGroup {c : Issuer} {s t : State} {f : Group → Group} {slot : Nat → Slot} {tile : Nat → Tile}
    (hg : s.group? c.ref.gid = some c.grp) (ht : t.groups = (s.modGroup c.ref.gid f).groups) (hr : Reslotted c.grp (f c.grp))
    (hslot : ∀ k, (f c.grp).slot k = slot k) (htile : ∀ k, (f c.grp).tile k = tile k) : SlotsTiles c s t slot tile := by
  have hgroup : ∀ gid, t.group? gid = (s.modGroup c.ref.gid f).group? gid := fun gid => by rw [State.group?, ht]; rfl
  refine ⟨fun gid h => (hgroup gid).trans (modGroup_ne s h f), f c.grp, ?_, hr, hslot, htile⟩
  rw [hgroup, modGroup_self, hg]; rfl

/-! ## Slots and tiles that refuse (R105) -/

theorem badSlot_none {g : Group} {refuse : Nat → Bool} {ks : List Nat} (h : ∀ k ∈ ks, refuse (g.slot k).state = false) :
    badSlot g refuse ks = none := by
  simpa [badSlot] using h

theorem badSlot_find {g : Group} {refuse : Nat → Bool} {ks : List Nat} {k : Nat}
    (h : (ks.find? fun j => refuse (g.slot j).state) = some k) : badSlot g refuse ks = some (k + (g.slot k).state * 512) := by
  simp [badSlot, h, slotTval]

@[simp] theorem badSlot_nil (g : Group) (refuse : Nat → Bool) : badSlot g refuse [] = none := rfl
theorem badSlot_cons_bad {g : Group} {refuse : Nat → Bool} {k : Nat} (ks : List Nat) (h : refuse (g.slot k).state = true) :
    badSlot g refuse (k :: ks) = some (k + (g.slot k).state * 512) := badSlot_find (by simp [h])
theorem badSlot_cons_good {g : Group} {refuse : Nat → Bool} {k : Nat} (ks : List Nat) (h : refuse (g.slot k).state = false) :
    badSlot g refuse (k :: ks) = badSlot g refuse ks := by simp [badSlot, h]

theorem upFrom_eq_range' (i n : Nat) : upFrom i n = List.range' i n := by
  simpa [upFrom] using (List.range'_eq_map_range (s := i) (n := n)).symm

@[simp] theorem mem_upFrom {i n k : Nat} : k ∈ upFrom i n ↔ i ≤ k ∧ k < i + n := by
  simp [upFrom_eq_range', List.mem_range'_1]

/-- The lowest slot of a range that refuses is the one that a trap names. -/
theorem badSlot_lowest {g : Group} {refuse : Nat → Bool} {i n k : Nat} (hk : i ≤ k ∧ k < i + n) (hbad : refuse (g.slot k).state = true)
    (hok : ∀ j, i ≤ j → j < k → refuse (g.slot j).state = false) : badSlot g refuse (upFrom i n) = some (k + (g.slot k).state * 512) := by
  refine badSlot_find ?_
  rw [upFrom_eq_range', List.find?_range'_eq_some]
  exact ⟨hbad, List.mem_range'_1.2 hk, fun j h1 h2 => by simp [hok j h1 h2]⟩

/-- The state of slots set one after another. -/
def claimAll (v : Nat) (ks : List Nat) (g : Group) : Group := ks.foldl (fun g k => withSlot g k { g.slot k with state := v }) g

theorem claimAll_slot (v : Nat) (ks : List Nat) (g : Group) (j : Nat) :
    (claimAll v ks g).slot j = if j ∈ ks then { g.slot j with state := v } else g.slot j := by
  induction ks generalizing g with
  | nil => simp [claimAll]
  | cons k ks ih =>
    rw [claimAll, List.foldl_cons, ← claimAll, ih]
    by_cases h : j = k <;> by_cases hm : j ∈ ks <;> simp [h, hm]

theorem claimAll_tile (v : Nat) (ks : List Nat) (g : Group) (j : Nat) : (claimAll v ks g).tile j = g.tile j := by
  induction ks generalizing g with
  | nil => rfl
  | cons k ks ih => rw [claimAll, List.foldl_cons, ← claimAll, ih]; rfl

theorem claimAll_reslotted (v : Nat) (ks : List Nat) {g h : Group} (hr : Reslotted g h) : Reslotted g (claimAll v ks h) := by
  induction ks generalizing h with
  | nil => exact hr
  | cons k ks ih => exact ih (hr.withSlot k _)

theorem modGroup_id (s : State) (k : Nat) : s.modGroup k id = s := by
  have h : fmod k id s.groups = s.groups := by simp [fmod]
  rw [State.modGroup, h]

theorem foldl_modSlot (gid v : Nat) (ks : List Nat) (s : State) :
    ks.foldl (fun s k => s.modSlot gid k fun x => { x with state := v }) s = s.modGroup gid (claimAll v ks) := by
  induction ks generalizing s with
  | nil => exact (modGroup_id s gid).symm
  | cons k ks ih => rw [List.foldl_cons, ih, modSlot_eq, modGroup_modGroup]; rfl

/-! ## Issue -/

section issue
variable {i : Instr} {c : Issuer} {s t : State}

@[simp] theorem issued_groups : (issued i c s).groups = s.groups := by
  have h : (advance i c s).groups = s.groups := by
    unfold advance State.unbind
    simp only []
    repeat' split
    all_goals simp
  unfold issued State.tagWrites
  split <;> simp [h]

@[simp] theorem issued_group (k : Nat) : (issued i c s).group? k = s.group? k := by simp [State.group?]

section core
variable (he : (c.profile i).head.ends = false)
include he

theorem issued_stage : (issued i c s).stage = s.stage := by rw [issued_rest he]
theorem issued_queues (k : Nat) : ((issued i c s).core k).queues = (s.core k).queues := by rw [issued_core he]
theorem issued_engine (k : Nat) : ((issued i c s).core k).engine = (s.core k).engine := by rw [issued_core he]
theorem issued_commands (k : Nat) : ((issued i c s).core k).commands = (s.core k).commands := by rw [issued_core he]; rfl

end core

/-- An instruction whose effect ends well has it in the state where it has issued. -/
theorem issue_next {ck : Issuer → Ck} {eff : Issuer → State → Except TrapInfo State} (h : MayIssue i c s)
    (hx : exec i s = issue i ck eff s) (hp : commitPoint i = pointOf i c s) (hk : ck c = checks i c)
    (he : eff c (issued i c s) = .ok t) : exec i s = .next t := by
  rw [hx, issue_effect h hp hk, he]

/-- One whose effect ends in a precise trap takes it with nothing done. -/
theorem issue_trap {ck : Issuer → Ck} {eff : Issuer → State → Except TrapInfo State} {cause tval : Nat} (h : MayIssue i c s)
    (hx : exec i s = issue i ck eff s) (hp : commitPoint i = pointOf i c s) (hk : ck c = checks i c)
    (he : eff c (issued i c s) = .error (c.precise cause tval)) : Traps i c s cause tval := by
  rw [Traps, hx, issue_effect h hp hk, he]; rfl

@[simp] theorem addPend_mem (u : State) (q : Pend) : (u.addPend c i q).mem = u.mem := rfl
@[simp] theorem addPend_groups (u : State) (q : Pend) : (u.addPend c i q).groups = u.groups := rfl
@[simp] theorem addPend_group (u : State) (q : Pend) (k : Nat) : (u.addPend c i q).group? k = u.group? k := rfl
@[simp] theorem addPend_core (u : State) (q : Pend) (k : Nat) : (u.addPend c i q).core k = u.core k := rfl
@[simp] theorem addPend_fresh (u : State) (q : Pend) : (u.addPend c i q).fresh = u.fresh + 1 := rfl

/-- A posted flag changes neither registers nor operations. -/
theorem post_keeps (w : Warp) (o : Option Nat) : (w.post o).pend = w.pend ∧ (w.post o).vregs = w.vregs ∧ (w.post o).sregs = w.sregs ∧
    (w.post o).preds = w.preds := by
  cases o <;> exact ⟨rfl, rfl, rfl, rfl⟩

/-- The issuing warp after an instruction that leaves one operation outstanding, and the other warps: what else the instruction has changed
lies outside the warps. -/
theorem ownWarp_addPend (hi : s.issuer = some c) (he : (c.profile i).head.ends = false) {u : State} {q : Pend}
    (hu : u.warps = (issued i c s).warps) (hf : s.fresh ≤ u.fresh) (ht : t.warps = (u.addPend c i q).warps) :
    OwnWarp i c s t (pendOf u c i q) ∧ OtherWarps c s t := by
  obtain ⟨-, -, -, -, hx⟩ := issuer_some hi
  obtain ⟨tags, hw⟩ := issued_warp hi he
  have hwarp : ∀ g w, t.warp? g w = (u.addPend c i q).warp? g w := fun g w => by rw [State.warp?, ht]; rfl
  have hbase : ∀ g w, u.warp? g w = (issued i c s).warp? g w := fun g w => by rw [State.warp?, hu]; rfl
  have hpend : ∀ o, (c.warp.post o).pend = c.warp.pend := fun o => (post_keeps c.warp o).1
  have hself : t.warp? c.ref.gid c.ref.wid = some
      { c.warp.post (postFlag (c.profile i).head.post) with
        issued := c.warp.issued + 1, tags := tags, pend := c.warp.pend ++ [pendOf u c i q],
        table := fmod c.ref.ent (Entry.modSplit fun x => x.advance (c.profile i) c.warp.width s.cycle c.startsPair) c.warp.table } := by
    rw [hwarp, addPend_eq, modWarp_self]
    show Option.map _ (u.warp? c.ref.gid c.ref.wid) = _
    rw [hbase, hw]
    simp [hpend]
  refine ⟨⟨⟨_, hself, ?_, ?_, ?_⟩, ⟨hf, rfl, rfl, rfl⟩⟩, fun g w h => ?_⟩
  · rw [post_eq]
  · intro k
    cases hp : postFlag (c.profile i).head.post with
    | none => simp [Warp.post, Warp.flag]
    | some j =>
      by_cases hk : j = k
      · subst hk; simp [Warp.post, Warp.flag, fget_fset_pos]
      · simp [Warp.post, Warp.flag, hk, fget_fset_ne (Ne.symm hk)]
  · refine ⟨c.split.advance (c.profile i) c.warp.width s.cycle c.startsPair, ?_, ?_⟩
    · simp [Warp.split?, split?_some.1 hx, Entry.modSplit]
    · rw [advance_split]
  · rw [hwarp, addPend_eq, modWarp_ne _ h]
    exact (hbase g w).trans (issued_others he h)

end issue

end Sys2Proof.Laws
end

section
/-! SUPPORT. MCLAIM, MFREE and MFILL (R105, R108 to R110): a range of slots that change state together, the checks of a range of the bench,
and a fill's command. -/

namespace Sys2Proof.Laws

open Sys2Proof.Machine

variable {i : Instr} {c : Issuer} {s : State} {f : XFmt}

/-! ## Ranges of slots (R109) -/

section range
variable {refuse : Nat → Bool} {v : Nat} (h : MayIssue i c s)
  (hx : exec i s = issue i (fun c => ckRange c.grp f) (rangeEff i f refuse v) s) (hp : commitPoint i = pointOf i c s)
  (hk : ckRange c.grp f = checks i c)
include h hx hp hk

/-- A range none of whose slots refuses changes its state; the instruction completes one cycle later. -/
theorem slotRange_taken (he : (c.profile i).head.ends = false)
    (hok : ∀ k, f.slota.toNat ≤ k → k ≤ f.slota.toNat + f.func.toNat % 32 → refuse (c.grp.slot k).state = false) :
    ∃ t q, exec i s = .next t ∧ OwnWarp i c s t q ∧ OtherWarps c s t ∧ t.mem = s.mem ∧ q.kind = .long ∧ q.due = s.cycle + 1 ∧ q.writes = [] ∧
      SlotsTiles c s t (fun k => if f.slota.toNat ≤ k ∧ k ≤ f.slota.toNat + f.func.toNat % 32 then { c.grp.slot k with state := v }
        else c.grp.slot k) c.grp.tile := by
  obtain ⟨-, hg, -, -, -⟩ := issuer_some h.issuer
  have hmem : ∀ k, k ∈ slotRange f ↔ f.slota.toNat ≤ k ∧ k ≤ f.slota.toNat + f.func.toNat % 32 := fun k => by
    rw [slotRange, mem_upFrom]; omega
  have hnone : badSlot c.grp refuse (slotRange f) = none := badSlot_none fun k hm => hok k ((hmem k).1 hm).1 ((hmem k).1 hm).2
  have heff : rangeEff i f refuse v c (issued i c s) =
      .ok (((issued i c s).modGroup c.ref.gid (claimAll v (slotRange f))).later c i 1 []) := by
    rw [rangeEff, hnone, ← foldl_modSlot]
  obtain ⟨hown, hothers⟩ := ownWarp_addPend (t := ((issued i c s).modGroup c.ref.gid (claimAll v (slotRange f))).later c i 1 []) h.issuer he
    (u := (issued i c s).modGroup c.ref.gid (claimAll v (slotRange f))) rfl (by simp) rfl
  refine ⟨_, _, issue_next h hx hp hk heff, hown, hothers, issued_mem, rfl, congrArg (· + 1) issued_cycle, rfl, ?_⟩
  refine slotsTiles_of_modGroup (f := claimAll v (slotRange f)) hg ?_ (claimAll_reslotted v _ (.refl _)) (fun k => ?_)
    (claimAll_tile v _ _)
  · simp [State.later, State.modGroup]
  · simp only [claimAll_slot, hmem]

/-- The lowest slot that refuses is named, and none has changed. -/
theorem slotRange_refused {k : Nat} (h1 : f.slota.toNat ≤ k) (h2 : k ≤ f.slota.toNat + f.func.toNat % 32)
    (hbad : refuse (c.grp.slot k).state = true) (hok : ∀ j, f.slota.toNat ≤ j → j < k → refuse (c.grp.slot j).state = false) :
    Traps i c s 0x11 (k + (c.grp.slot k).state * 512) := by
  have hfirst : badSlot c.grp refuse (slotRange f) = some (k + (c.grp.slot k).state * 512) := badSlot_lowest ⟨h1, by omega⟩ hbad hok
  exact issue_trap h hx hp hk (by rw [rangeEff, hfirst])

end range

/-! ## Ranges of the bench -/

theorem benchFault_misaligned {a n align : Nat} (h : a % align ≠ 0) : benchFault c a n align = some (c.precise 0x0A a) := by
  simp [benchFault, h]
theorem benchFault_outside {a n align : Nat} (h : a % align = 0) (ho : c.grp.benchSize < a + n) :
    benchFault c a n align = some (c.precise 0x09 a) := by simp [benchFault, h, ho]
theorem benchFault_none {a n align : Nat} (h : a % align = 0) (hi : a + n ≤ c.grp.benchSize) : benchFault c a n align = none := by
  simp [benchFault, h, hi]

/-- The one slot that a fill or a copy names refuses it while it is FREE or LOADING (R108, R110). -/
theorem badSlot_one_bad {g : Group} {k : Nat} (h : (g.slot k).state = 0 ∨ (g.slot k).state = 2) :
    badSlot g (fun st => st = 0 || st = 2) [k] = some (k + (g.slot k).state * 512) := badSlot_cons_bad [] (by simpa using h)
theorem badSlot_one_good {g : Group} {k : Nat} (h0 : (g.slot k).state ≠ 0) (h2 : (g.slot k).state ≠ 2) :
    badSlot g (fun st => st = 0 || st = 2) [k] = none := badSlot_none (by simp [h0, h2])

/-! ## Commands of the copy engine -/

@[simp] theorem addCmd_mem (s : State) (k : Nat) (e : ECmd) : (s.addCmd k e).mem = s.mem := rfl
@[simp] theorem addCmd_groups (s : State) (k : Nat) (e : ECmd) : (s.addCmd k e).groups = s.groups := rfl
@[simp] theorem addCmd_engine (s : State) (k : Nat) (e : ECmd) : ((s.addCmd k e).core k).engine = (s.core k).engine ++ [e] := by
  simp [State.addCmd]

/-! ## MFILL (R110) -/

/-- The command of a fill. -/
def fillCmd (f : XFmt) (c : Issuer) (s : State) : ECmd :=
  { id := s.fresh, kind := .mfill, gid := c.ref.gid, wid := c.ref.wid, lanes := c.split.held, pid := s.fresh, dst := 5,
    srcA := (c.env.ssrc f.pa).toNat, hdrA := (c.env.ssrc f.pb).toNat, hdrLen := headerBytes f.fmta.toNat, len := 12288,
    lslot := f.slota.toNat, slot := (c.grp.slot f.slota.toNat).phys, fmta := f.fmta.toNat, sp := f.func = 1,
    warn := c.warp.fpctl.getLsbD 4, due := s.cycle + 96 + headerBytes f.fmta.toNat / 128,
    needs := slotReaders s c.grp.core c.ref.gid f.slota.toNat }

/-- The slot of a fill, LOADING. -/
def fillSlot (f : XFmt) (g : Group) : Group := withSlot g f.slota.toNat { g.slot f.slota.toNat with state := 2 }

/-- A fill under way: its slot LOADING, its operation outstanding, its command with the copy engine. -/
def filling (f : XFmt) (c : Issuer) (s : State) : State :=
  ((s.modGroup c.ref.gid (fillSlot f)).addPend c (.mfill f) { id := 0, kind := .engine, ent := 0, lanes := 0 }).addCmd c.grp.core (fillCmd f c s)

/-- The headers that a layout has lie in the bench, at an aligned address. -/
def headersFault (f : XFmt) (c : Issuer) : Option TrapInfo :=
  if headerBytes f.fmta.toNat = 0 then none else benchFault c (c.env.ssrc f.pb).toNat (headerBytes f.fmta.toNat) 64

theorem headersFault_none (h : headerBytes f.fmta.toNat = 0 ∨
    ((c.env.ssrc f.pb).toNat % 64 = 0 ∧ (c.env.ssrc f.pb).toNat + headerBytes f.fmta.toNat ≤ c.grp.benchSize)) : headersFault f c = none := by
  unfold headersFault
  split
  · rfl
  · obtain ⟨halign, hin⟩ := h.resolve_left ‹_›
    exact benchFault_none halign hin

theorem mfillEff_eq (f : XFmt) (c : Issuer) (s : State) : mfillEff f c s =
    match benchFault c (c.env.ssrc f.pa).toNat 12288 64 with
    | some t => .error t
    | none => match headersFault f c with
      | some t => .error t
      | none => match badSlot c.grp (fun st => st = 0 || st = 2) [f.slota.toNat] with
        | some v => .error (c.precise 0x11 v)
        | none => .ok (filling f c s) := rfl

section mfill
variable (h : MayIssue (.mfill f) c s)
include h

theorem mfill_trap {cause tval : Nat} (he : mfillEff f c (issued (.mfill f) c s) = .error (c.precise cause tval)) :
    Traps (.mfill f) c s cause tval := issue_trap h rfl rfl rfl he

/-- A fill whose addresses and slot pass the checks is queued, and its slot is LOADING. -/
theorem mfill_queued (hdata : benchFault c (c.env.ssrc f.pa).toNat 12288 64 = none) (hhdr : headersFault f c = none)
    (h0 : (c.grp.slot f.slota.toNat).state ≠ 0) (h2 : (c.grp.slot f.slota.toNat).state ≠ 2) :
    Commands (.mfill f) c s (fillCmd f c (issued (.mfill f) c s)) ∧ ∀ t, exec (.mfill f) s = .next t →
      SlotsTiles c s t (fun k => if k = f.slota.toNat then { c.grp.slot k with state := 2 } else c.grp.slot k) c.grp.tile := by
  obtain ⟨-, hg, -, -, -⟩ := issuer_some h.issuer
  have hnext : exec (.mfill f) s = .next (filling f c (issued (.mfill f) c s)) :=
    issue_next h rfl rfl rfl (by rw [mfillEff_eq, hdata, hhdr, badSlot_one_good h0 h2])
  obtain ⟨hown, hothers⟩ := ownWarp_addPend (t := filling f c (issued (.mfill f) c s)) h.issuer rfl
    (u := (issued (.mfill f) c s).modGroup c.ref.gid (fillSlot f)) rfl (by simp) rfl
  refine ⟨⟨_, _, hnext, hown, hothers, ?_, rfl, ?_, rfl, rfl, rfl, rfl, rfl, ?_⟩, fun t ht => ?_⟩
  · simp [filling]
  · rw [filling, addCmd_engine]
    exact congrArg (· ++ [_]) (issued_engine rfl c.grp.core)
  · simp [fillCmd]
  · obtain rfl : t = filling f c (issued (.mfill f) c s) := by simpa [eq_comm] using hnext.symm.trans ht
    refine slotsTiles_of_modGroup (f := fillSlot f) hg ?_ (Reslotted.withSlot (.refl _) _ _) (fun k => ?_) fun _ => rfl
    · simp [filling, State.modGroup]
    · by_cases hj : k = f.slota.toNat <;> simp [fillSlot, hj]

end mfill

end Sys2Proof.Laws
end

section
/-! THEOREMS. What the instructions on slots do. -/

namespace Sys2Proof.Laws

open Sys2Proof.Machine

/-- Settles O34: a range of slots changes as one or traps at its lowest slot that refuses; MFILL's checks come in the order of the data, the
headers, the slot. -/
theorem slotInstructions : Obligations.SlotInstructions := by
  unfold Obligations.SlotInstructions
  intro f c s
  refine ⟨fun h => ⟨fun hok => ?_, fun k h1 h2 hbad hok => ?_⟩, fun h => ⟨fun hok => ?_, fun k h1 h2 hbad hok => ?_⟩, fun h => ?mfill⟩
  · exact slotRange_taken h rfl rfl rfl rfl fun k h1 h2 => by simp [hok k h1 h2]
  · exact slotRange_refused h rfl rfl rfl h1 h2 (by simpa using hbad) fun j h1 h2 => by simp [hok j h1 h2]
  · exact slotRange_taken h rfl rfl rfl rfl fun k h1 h2 => by simp [hok k h1 h2]
  · exact slotRange_refused h rfl rfl rfl h1 h2 (by simpa [or_iff_not_imp_left] using hbad) fun j h1 h2 => by simp [hok j h1 h2]
  case mfill =>
    refine ⟨fun ha => ?_, fun ha ho => ?_, fun ha hi => ⟨fun hn hh => ?_, fun hn hh ho => ?_, fun hhdr => ⟨fun hst => ?_, fun h0 h2 => ?_⟩⟩⟩
    · exact mfill_trap h (by rw [mfillEff_eq, benchFault_misaligned ha])
    · exact mfill_trap h (by rw [mfillEff_eq, benchFault_outside ha ho])
    · exact mfill_trap h (by rw [mfillEff_eq, benchFault_none ha hi, headersFault, if_neg hn, benchFault_misaligned hh])
    · exact mfill_trap h (by rw [mfillEff_eq, benchFault_none ha hi, headersFault, if_neg hn, benchFault_outside hh ho])
    · exact mfill_trap h (by rw [mfillEff_eq, benchFault_none ha hi, headersFault_none hhdr, badSlot_one_bad hst])
    · obtain ⟨hcmd, hslots⟩ := mfill_queued h (benchFault_none ha hi) (headersFault_none hhdr) h0 h2
      refine ⟨_, hcmd, rfl, rfl, rfl, rfl, rfl, fun _ => rfl, rfl, rfl, rfl, ?_, ?_, hslots⟩
      · simp [fillCmd]
      · simp [fillCmd]

end Sys2Proof.Laws
end

section
/-! SUPPORT. The queues of the matrix array (R126), and the tile products that enter them (R108, R112, R116, R124). -/

namespace Sys2Proof.Laws

open Sys2Proof.Machine

variable {i : Instr} {c : Issuer} {s t : State} {f : XFmt}

/-! ## Queues -/

@[simp] theorem enqueue_groups (s : State) (k q : Nat) (m : MCmd) : (s.enqueue k q m).groups = s.groups := rfl
theorem enqueue_queue (s : State) (k q : Nat) (m : MCmd) :
    flook q ((s.enqueue k q m).core k).queues = some ((flook q (s.core k).queues).getD [] ++ [m]) := by simp [State.enqueue]

/-- A command has entered its queue: u is the state in which its operation became outstanding. -/
theorem queues_of_enqueue (h : MayIssue i c s) (he : (c.profile i).head.ends = false) (hnext : exec i s = .next t) {u v : State} {q : Pend}
    {m : MCmd} (hkind : q.kind = .engine) (hu : u.warps = (issued i c s).warps) (hfresh : s.fresh ≤ u.fresh)
    (hv : v.warps = (u.addPend c i q).warps) (hmem : v.mem = s.mem)
    (hqueue : flook c.warp.bay (v.core c.grp.core).queues = flook c.warp.bay (s.core c.grp.core).queues)
    (ht : t = v.enqueue c.grp.core c.warp.bay m) (hm : m.pid = u.fresh ∧ m.gid = c.ref.gid ∧ m.wid = c.ref.wid ∧ m.lanes = c.split.held)
    (hid : s.fresh ≤ m.id) : Queues i c s t m := by
  subst ht
  obtain ⟨hown, hothers⟩ := ownWarp_addPend (t := v.enqueue c.grp.core c.warp.bay m) h.issuer he hu hfresh hv
  obtain ⟨hpid, hgid, hwid, hlanes⟩ := hm
  exact ⟨_, hnext, hown, hothers, hmem, hkind, by rw [enqueue_queue, hqueue], hpid, hgid, hwid, hlanes, hid⟩

/-- Whether another warp holds a tile, in the state where the instruction has issued (R113). -/
theorem tileForeign_issued (he : (c.profile i).head.ends = false) (k : Nat) : tileForeign (issued i c s) c k = false ↔ TileFree c s k := by
  simp only [tileForeign, State.foreignOn, issued_commands he, Bool.and_eq_false_imp, List.any_eq_false, Bool.and_eq_true, bne_iff_ne,
    not_and, not_not, TileFree, ne_eq]

/-! ## What a tile product asks of its slots and tile -/

section fault
variable {g : Group}

theorem mmaFault_slotA (h : (g.slot f.slota.toNat).state < 2) :
    mmaFault g f = some (f.slota.toNat + (g.slot f.slota.toNat).state * 512) := by
  rw [mmaFault, badSlot_cons_bad _ (decide_eq_true h)]

theorem mmaFault_slotB (ha : 2 ≤ (g.slot f.slota.toNat).state) (h : (g.slot f.slotb.toNat).state < 2) :
    mmaFault g f = some (f.slotb.toNat + (g.slot f.slotb.toNat).state * 512) := by
  rw [mmaFault, badSlot_cons_good _ (decide_eq_false (Nat.not_lt.2 ha)), badSlot_cons_bad _ (decide_eq_true h)]

variable (hslots : 2 ≤ (g.slot f.slota.toNat).state ∧ 2 ≤ (g.slot f.slotb.toNat).state)
include hslots

/-- What is left to check once both slots hold data: the tile, and its partner. -/
theorem mmaFault_slots : mmaFault g f =
    if !xProv f then (if (g.tile f.acc.toNat).state = 0 then none else some (slotTval true f.acc.toNat (g.tile f.acc.toNat).state))
    else if (g.tile f.acc.toNat).state = 0 then
      (if (g.tile (f.acc.toNat + 1)).state = 0 then none else some (slotTval true (f.acc.toNat + 1) (g.tile (f.acc.toNat + 1)).state))
    else if (g.tile f.acc.toNat).state = 1 ∧ (g.tile f.acc.toNat).pred = f.prov.toNat % 64 then none
    else some (slotTval true f.acc.toNat (g.tile f.acc.toNat).state) := by
  obtain ⟨ha, hb⟩ := hslots
  rw [mmaFault, badSlot_cons_good _ (decide_eq_false (Nat.not_lt.2 ha)), badSlot_cons_good _ (decide_eq_false (Nat.not_lt.2 hb))]
  simp only [badSlot_nil]
  split
  · rfl
  · split
    · simp [*]
    · rename_i h1
      simp [h1]
    · rename_i h0 h1
      rw [if_neg h0, if_neg fun h => h1 h.1]

theorem mmaFault_plain (hp : xProv f = false) (h : (g.tile f.acc.toNat).state ≠ 0) :
    mmaFault g f = some (f.acc.toNat + 256 + (g.tile f.acc.toNat).state * 512) := by
  simp [mmaFault_slots hslots, hp, h, slotTval]

theorem mmaFault_partner (hp : xProv f = true) (h0 : (g.tile f.acc.toNat).state = 0) (h : (g.tile (f.acc.toNat + 1)).state ≠ 0) :
    mmaFault g f = some (f.acc.toNat + 1 + 256 + (g.tile (f.acc.toNat + 1)).state * 512) := by
  simp [mmaFault_slots hslots, hp, h0, h, slotTval]

theorem mmaFault_series (hp : xProv f = true)
    (h : 2 ≤ (g.tile f.acc.toNat).state ∨ ((g.tile f.acc.toNat).state = 1 ∧ (g.tile f.acc.toNat).pred ≠ f.prov.toNat % 64)) :
    mmaFault g f = some (f.acc.toNat + 256 + (g.tile f.acc.toNat).state * 512) := by
  rw [mmaFault_slots hslots, if_neg (by simp [hp]), if_neg (by omega), if_neg (by omega)]
  rfl

theorem mmaFault_none (h : (xProv f = false ∧ (g.tile f.acc.toNat).state = 0) ∨ (xProv f = true ∧
      (((g.tile f.acc.toNat).state = 0 ∧ (g.tile (f.acc.toNat + 1)).state = 0) ∨
        ((g.tile f.acc.toNat).state = 1 ∧ (g.tile f.acc.toNat).pred = f.prov.toNat % 64)))) : mmaFault g f = none := by
  rw [mmaFault_slots hslots]
  rcases h with ⟨hp, h0⟩ | ⟨hp, ⟨h0, h1⟩ | ⟨h1, hpred⟩⟩
  · simp [hp, h0]
  · simp [hp, h0, h1]
  · simp [hp, h1, hpred]

end fault

/-! ## A tile product's command -/

/-- The first command of a provisional series on a tile (R124). -/
def startsSeries (g : Group) (f : XFmt) : Bool := xProv f && (g.tile f.acc.toNat).state = 0

/-- The extents of a tile product: those of its operand, or none (R116). -/
def productExtents (c : Issuer) (f : XFmt) : Nat := if f.func.getLsbD 1 then (c.env.ssrc f.pa).toNat else 0

/-- A tile product's command, issued in a state whose next number its operation has taken. -/
def productCmd (sparse : Bool) (f : XFmt) (c : Issuer) (s : State) : MCmd :=
  { id := s.fresh + 1, pid := s.fresh, kind := if sparse then .mmas else .mma, gid := c.ref.gid, wid := c.ref.wid, lanes := c.split.held,
    flag := none, slotA := (c.grp.slot f.slota.toNat).phys, slotB := (c.grp.slot f.slotb.toNat).phys, lslotA := f.slota.toNat,
    lslotB := f.slotb.toNat, tile := f.acc.toNat, fmta := f.fmta.toNat, fmtb := f.fmtb.toNat, z := f.func.getLsbD 0,
    rows := extentOf (productExtents c f % 256) 128, cols := extentOf (productExtents c f / 256 % 256) 128,
    kext := extentOf (productExtents c f / 65536 % 65536) (24 * blocksOf f.fmta.toNat), prov := xProv f, first := startsSeries c.grp f,
    ovtrap := c.warp.fpctl.getLsbD 6,
    needs := slotFills s c.grp.core c.ref.gid f.slota.toNat ++ slotFills s c.grp.core c.ref.gid f.slotb.toNat }

/-- The operand slots of a product with one more reader each. -/
def moreReaders (f : XFmt) (g : Group) : Group := withSlots g f.slota.toNat f.slotb.toNat Slot.more

/-- A tile and its partner as they stand once a product is queued: marked where it starts a series. -/
def markSeries (first : Bool) (f : XFmt) (g : Group) : Group :=
  let h := withTile g f.acc.toNat { g.tile f.acc.toNat with state := 1, pred := f.prov.toNat % 64 }
  if first then withTile h (f.acc.toNat + 1) { h.tile (f.acc.toNat + 1) with state := 2 } else g

theorem markSeries_slot (first : Bool) (f : XFmt) (g : Group) (j : Nat) : (markSeries first f g).slot j = g.slot j := by
  cases first <;> rfl

theorem markSeries_tile (first : Bool) (f : XFmt) (g : Group) (j : Nat) : (markSeries first f g).tile j =
    if first = true ∧ j = f.acc.toNat then { g.tile j with state := 1, pred := f.prov.toNat % 64 }
    else if first = true ∧ j = f.acc.toNat + 1 then { g.tile j with state := 2 } else g.tile j := by
  cases first with
  | false => simp [markSeries]
  | true =>
    simp only [markSeries, if_true, withTile_tile, true_and]
    by_cases h0 : j = f.acc.toNat
    · subst h0; simp
    · by_cases h1 : j = f.acc.toNat + 1
      · subst h1; simp
      · simp [h0, h1]

theorem markSeries_moreReaders (first : Bool) (f : XFmt) (g : Group) : Reslotted g (markSeries first f (moreReaders f g)) := by
  have hmore : Reslotted g (moreReaders f g) := (Reslotted.refl g).withSlots _ _ _
  cases first with
  | false => exact hmore
  | true => exact (hmore.withTile _ _).withTile _ _

theorem modGroup_moreReaders (u : State) (gid : Nat) (f : XFmt) :
    (if f.slota.toNat = f.slotb.toNat then u.modSlot gid f.slota.toNat Slot.more
      else (u.modSlot gid f.slota.toNat Slot.more).modSlot gid f.slotb.toNat Slot.more) = u.modGroup gid (moreReaders f) := modSlots_eq ..

theorem modGroup_markSeries (u : State) (gid : Nat) (first : Bool) (f : XFmt) :
    (if first then (u.modTile gid f.acc.toNat fun t => { t with state := 1, pred := f.prov.toNat % 64 }).modTile gid (f.acc.toNat + 1)
        fun t => { t with state := 2 } else u) = u.modGroup gid (markSeries first f) := by
  cases first with
  | false => exact (modGroup_id u gid).symm
  | true => simp only [if_true, modTile_eq, modGroup_modGroup]; rfl

/-- The row of a tile product. -/
def productRow (sparse : Bool) (f : XFmt) : Instr := if sparse then .mmas f else .mma f

/-- A product's operation outstanding, its number taken, its group's slots and tiles marked. -/
def productIssued (sparse : Bool) (f : XFmt) (c : Issuer) (s : State) : State :=
  (s.addPend c (productRow sparse f) { id := 0, kind := .engine, ent := 0, lanes := 0 }).newId.2.modGroup c.ref.gid
    (markSeries (startsSeries c.grp f) f ∘ moreReaders f)

theorem mmaEff_ok {sparse : Bool} (hfault : mmaFault c.grp f = none) (hstage : stageRefuses s f sparse = false)
    (htile : tileForeign s c f.acc.toNat = false) : mmaEff (productRow sparse f) f sparse c s =
      .ok ((productIssued sparse f c s).enqueue c.grp.core c.warp.bay (productCmd sparse f c s)) := by
  rw [productIssued, ← modGroup_modGroup, ← modGroup_markSeries, ← modGroup_moreReaders, mmaEff, hfault]
  simp only [hstage, htile, Bool.false_eq_true, if_false]
  rfl

theorem extentOf_eq (v full : Nat) : extentOf v full = if v = 0 ∨ full < v then full else v := by simp [extentOf]

theorem mem_slotFills {core gid k n : Nat} : n ∈ slotFills s core gid k ↔ ∃ e ∈ (s.core core).engine, e.id = n ∧ e.gid = gid ∧ e.dst = 5 ∧
    e.lslot = k := by
  simp [slotFills, and_assoc, and_comm, and_left_comm]

section product
variable {sparse : Bool} (h : MayIssue (productRow sparse f) c s)
include h

theorem profile_product : (c.profile (productRow sparse f)).head.ends = false := by cases sparse <;> rfl

theorem product_trap {cause tval : Nat}
    (he : mmaEff (productRow sparse f) f sparse c (issued (productRow sparse f) c s) = .error (c.precise cause tval)) :
    Traps (productRow sparse f) c s cause tval := by
  cases sparse <;> exact issue_trap h rfl rfl rfl he

/-- A product refused by its slots or its tile. -/
theorem product_refused {tval : Nat} (hfault : mmaFault c.grp f = some tval) : Traps (productRow sparse f) c s 0x11 tval :=
  product_trap h (by rw [mmaEff, hfault])

/-- A product that nothing refuses is queued with what it needs, and its slots and tile are marked. -/
theorem product_queued (hfault : mmaFault c.grp f = none) (hstage : stageRefuses s f sparse = false) (htile : TileFree c s f.acc.toNat) :
    ∃ t, Queues (productRow sparse f) c s t (productCmd sparse f c (issued (productRow sparse f) c s)) ∧
      SlotsTiles c s t
        (fun j => if j = f.slota.toNat ∨ j = f.slotb.toNat then { c.grp.slot j with readers := (c.grp.slot j).readers + 1 } else c.grp.slot j)
        (fun j => if startsSeries c.grp f = true ∧ j = f.acc.toNat then { c.grp.tile j with state := 1, pred := f.prov.toNat % 64 }
          else if startsSeries c.grp f = true ∧ j = f.acc.toNat + 1 then { c.grp.tile j with state := 2 } else c.grp.tile j) := by
  obtain ⟨-, hg, -, -, -⟩ := issuer_some h.issuer
  have hends := profile_product h
  have hserves : stageRefuses (issued (productRow sparse f) c s) f sparse = false := by
    rw [stageRefuses, issued_stage hends]; exact hstage
  have hnext : exec (productRow sparse f) s = .next ((productIssued sparse f c (issued (productRow sparse f) c s)).enqueue c.grp.core
      c.warp.bay (productCmd sparse f c (issued (productRow sparse f) c s))) := by
    have heff := mmaEff_ok (s := issued (productRow sparse f) c s) hfault hserves
      ((tileForeign_issued hends _).2 htile)
    cases sparse <;> exact issue_next h rfl rfl rfl heff
  refine ⟨_, queues_of_enqueue (u := issued (productRow sparse f) c s) (v := productIssued sparse f c (issued (productRow sparse f) c s))
    (q := { id := 0, kind := .engine, ent := 0, lanes := 0 }) h hends hnext rfl rfl (by simp) rfl ?_ ?_ rfl ⟨rfl, rfl, rfl, rfl⟩
    (by simp [productCmd]), ?_⟩
  · simp [productIssued, State.newId]
  · exact congrArg (flook c.warp.bay) (issued_queues hends c.grp.core)
  · refine slotsTiles_of_modGroup (f := markSeries (startsSeries c.grp f) f ∘ moreReaders f) hg ?_ (markSeries_moreReaders _ f c.grp)
      (fun j => ?_) fun j => ?_
    · simp [productIssued, State.newId, State.modGroup]
    · exact (markSeries_slot _ f _ j).trans (withSlots_slot ..)
    · simp only [Function.comp_apply, markSeries_tile, moreReaders, withSlots_tile]

end product

end Sys2Proof.Laws
end

section
/-! THEOREMS. Tile products. -/

namespace Sys2Proof.Laws

open Sys2Proof.Machine

/-- Settles O35: the slots are checked before the tile and the tile before the service stage; what passes is queued with its slots and tile
marked. -/
theorem tileProductsQueue : Obligations.TileProductsQueue := by
  unfold Obligations.TileProductsQueue
  intro sparse f c s i a b k p prov st ts x ext first h
  refine ⟨fun ha => product_refused h (mmaFault_slotA ha), fun ha hb => product_refused h (mmaFault_slotB ha hb),
    fun ha hb => ⟨fun hp h0 => product_refused h (mmaFault_plain ⟨ha, hb⟩ hp h0), fun hp h0 h1 => product_refused h (mmaFault_partner ⟨ha, hb⟩ hp h0 h1),
      fun hp hser => product_refused h (mmaFault_series ⟨ha, hb⟩ hp hser), fun hok hstage htile => ?queued⟩⟩
  case queued =>
    have hserves : stageRefuses s f sparse = false := by
      rcases hstage with hfull | ⟨rfl, hbf16⟩
      · simp [stageRefuses, Nat.not_lt.2 hfull]
      · simp [stageRefuses, hbf16]
    obtain ⟨t, hqueues, hslots⟩ := product_queued h (mmaFault_none ⟨ha, hb⟩ hok) hserves htile
    refine ⟨t, _, hqueues, rfl, rfl, rfl, rfl, rfl, rfl, rfl, extentOf_eq _ _, extentOf_eq _ _, extentOf_eq _ _, rfl, rfl, rfl, fun n => ?_, hslots⟩
    simp only [productCmd, List.mem_append, mem_slotFills, issued_engine (profile_product h), ← exists_or, ← and_or_left, a, b]

end Sys2Proof.Laws
end

section
/-! SUPPORT. MZERO, MACCLD and MACCST (R112, R114): the checks of their addresses, and the commands that enter the queue. -/

namespace Sys2Proof.Laws

open Sys2Proof.Machine

variable {i : Instr} {c : Issuer} {s : State} {f : XFmt}

/-- What a transfer's command holds beside what its instruction gives. -/
def transferCmd (f : XFmt) (m : MCmd) (c : Issuer) (s : State) : MCmd :=
  { m with id := s.fresh + 1, pid := s.fresh, gid := c.ref.gid, wid := c.ref.wid, lanes := c.split.held, tile := f.acc.toNat,
           count := cntOf c.warp c.grp, warn := c.warp.fpctl.getLsbD 4 }

section transfer
variable {ck : Issuer → Ck} {eff : Issuer → State → Except TrapInfo State} {m : MCmd} (h : MayIssue i c s)
  (hx : exec i s = issue i ck eff s) (hp : commitPoint i = pointOf i c s) (hk : ck c = checks i c)
  (heff : eff c (issued i c s) = transferEff i f m c (issued i c s))
include h hx hp hk heff

theorem transfer_refused (hst : (c.grp.tile f.acc.toNat).state ≠ 0) :
    Traps i c s 0x11 (f.acc.toNat + 256 + (c.grp.tile f.acc.toNat).state * 512) :=
  issue_trap h hx hp hk (by rw [heff]; simp [transferEff, hst, slotTval])

theorem transfer_foreign (he : (c.profile i).head.ends = false) (hst : (c.grp.tile f.acc.toNat).state = 0)
    (htile : ¬ TileFree c s f.acc.toNat) : Traps i c s 0x0D 0 := by
  have hforeign : tileForeign (issued i c s) c f.acc.toNat = true := by rwa [← tileForeign_issued he, Bool.not_eq_false] at htile
  exact issue_trap h hx hp hk (by rw [heff]; simp [transferEff, hst, hforeign])

theorem transfer_queued (he : (c.profile i).head.ends = false) (hst : (c.grp.tile f.acc.toNat).state = 0)
    (htile : TileFree c s f.acc.toNat) : ∃ t, Queues i c s t (transferCmd f m c (issued i c s)) ∧ t.groups = s.groups := by
  have hfree := (tileForeign_issued he _).2 htile
  have hnext : exec i s = .next (((issued i c s).addPend c i { id := 0, kind := .engine, ent := 0, lanes := 0 }).newId.2.enqueue c.grp.core
      c.warp.bay (transferCmd f m c (issued i c s))) :=
    issue_next h hx hp hk (by rw [heff]; simp only [transferEff, hst, hfree, bne_self_eq_false, Bool.false_eq_true, if_false]; rfl)
  refine ⟨_, queues_of_enqueue (u := issued i c s) (v := ((issued i c s).addPend c i _).newId.2)
    (q := { id := 0, kind := .engine, ent := 0, lanes := 0 }) h he hnext rfl rfl (by simp) rfl issued_mem ?_ rfl ⟨rfl, rfl, rfl, rfl⟩ (by simp [transferCmd]), issued_groups⟩
  exact congrArg (flook c.warp.bay) (issued_queues he c.grp.core)

/-- A transfer whose addresses pass the checks, by the state of its tile. -/
theorem transfer_cases (he : (c.profile i).head.ends = false) :
    ((c.grp.tile f.acc.toNat).state ≠ 0 → Traps i c s 0x11 (f.acc.toNat + 256 + (c.grp.tile f.acc.toNat).state * 512)) ∧
    ((c.grp.tile f.acc.toNat).state = 0 → ¬ TileFree c s f.acc.toNat → Traps i c s 0x0D 0) ∧
    ((c.grp.tile f.acc.toNat).state = 0 → TileFree c s f.acc.toNat →
      ∃ t, Queues i c s t (transferCmd f m c (issued i c s)) ∧ t.groups = s.groups) :=
  ⟨transfer_refused h hx hp hk heff, transfer_foreign h hx hp hk heff he, transfer_queued h hx hp hk heff he⟩

end transfer

/-! ## The addresses of MACCLD and MACCST -/

theorem rowsFault_misaligned {a p w : Nat} (ha : a % 16 ≠ 0) : rowsFault c a p w = some (c.precise 0x0A a) := by simp [rowsFault, ha]
theorem rowsFault_pitch {a p w : Nat} (ha : a % 16 = 0) (hp : p % 16 ≠ 0) : rowsFault c a p w = some (c.precise 0x0A p) := by
  simp [rowsFault, ha, hp]
theorem rowsFault_outside {a p w : Nat} (ha : a % 16 = 0) (hp : p % 16 = 0) (ho : c.grp.benchSize < a + 127 * p + 128 * w) :
    rowsFault c a p w = some (c.precise 0x09 a) := by simp [rowsFault, ha, hp, ho]
theorem rowsFault_none {a p w : Nat} (ha : a % 16 = 0) (hp : p % 16 = 0) (hi : a + 127 * p + 128 * w ≤ c.grp.benchSize) :
    rowsFault c a p w = none := by simp [rowsFault, ha, hp, hi]

section rows
variable {ck : Issuer → Ck} {eff : Issuer → State → Except TrapInfo State} {w : Nat} {m : MCmd} (h : MayIssue i c s)
  (hx : exec i s = issue i ck eff s) (hp : commitPoint i = pointOf i c s) (hk : ck c = checks i c)
  (heff : eff c (issued i c s) = rowsEff i f w m c (issued i c s))
include h hx hp hk heff

theorem rows_trap {cause tval : Nat}
    (hfault : rowsFault c (c.env.ssrc f.pa).toNat (c.env.ssrc f.pb).toNat w = some (c.precise cause tval)) : Traps i c s cause tval :=
  issue_trap h hx hp hk (by rw [heff]; simp only [rowsEff, hfault])

theorem rows_traps :
    ((c.env.ssrc f.pa).toNat % 16 ≠ 0 → Traps i c s 0x0A (c.env.ssrc f.pa).toNat) ∧
    ((c.env.ssrc f.pa).toNat % 16 = 0 → (c.env.ssrc f.pb).toNat % 16 ≠ 0 → Traps i c s 0x0A (c.env.ssrc f.pb).toNat) ∧
    ((c.env.ssrc f.pa).toNat % 16 = 0 → (c.env.ssrc f.pb).toNat % 16 = 0 →
      c.grp.benchSize < (c.env.ssrc f.pa).toNat + 127 * (c.env.ssrc f.pb).toNat + 128 * w → Traps i c s 0x09 (c.env.ssrc f.pa).toNat) :=
  ⟨fun ha => rows_trap h hx hp hk heff (rowsFault_misaligned ha), fun ha hb => rows_trap h hx hp hk heff (rowsFault_pitch ha hb),
    fun ha hb ho => rows_trap h hx hp hk heff (rowsFault_outside ha hb ho)⟩

end rows

theorem rowsEff_eq {w : Nat} {m : MCmd} (ha : (c.env.ssrc f.pa).toNat % 16 = 0) (hb : (c.env.ssrc f.pb).toNat % 16 = 0)
    (hin : (c.env.ssrc f.pa).toNat + 127 * (c.env.ssrc f.pb).toNat + 128 * w ≤ c.grp.benchSize) (u : State) :
    rowsEff i f w m c u = transferEff i f { m with addr := (c.env.ssrc f.pa).toNat, pitch := (c.env.ssrc f.pb).toNat } c u := by
  simp only [rowsEff, rowsFault_none ha hb hin]

end Sys2Proof.Laws
end

section
/-! SUPPORT. What recording, trapping and completing may touch: never a core's queues and array, and of a group only the deferred traps that
wait for it (R120, R236, R341, R344, R356). Two relations say it, each kept by every such operation. -/

namespace Sys2Proof.Laws

open Sys2Proof.Machine

/-! ## Maps whose entries are related -/

section rel
variable {α : Type} {P : α → α → Prop}

theorem rel_refl (hP : ∀ a, P a a) (o : Option α) : Option.Rel P o o := by
  cases o with
  | none => exact .none
  | some a => exact .some (hP a)

theorem rel_trans (hP : ∀ {a b c}, P a b → P b c → P a c) {x y z : Option α} (h1 : Option.Rel P x y) (h2 : Option.Rel P y z) :
    Option.Rel P x z := by
  cases h1 with
  | none => exact h2
  | some h1 => cases h2 with
    | some h2 => exact .some (hP h1 h2)

theorem rel_mono {Q : α → α → Prop} (hPQ : ∀ {a b}, P a b → Q a b) {x y : Option α} (h : Option.Rel P x y) : Option.Rel Q x y := by
  cases h with
  | none => exact .none
  | some h => exact .some (hPQ h)

theorem rel_flook_fmod (hP : ∀ a, P a a) {f : α → α} (hf : ∀ a, P a (f a)) (j k : Nat) (m : FMap α) :
    Option.Rel P (flook j m) (flook j (fmod k f m)) := by
  by_cases h : j = k
  · subst h
    rw [flook_fmod_self]
    cases flook j m with
    | none => exact .none
    | some a => exact .some (hf a)
  · rw [flook_fmod_ne h]
    exact rel_refl hP _

theorem rel_map_eq {β : Type} {f : α → β} (hf : ∀ {a b}, P a b → f b = f a) {x y : Option α} (h : Option.Rel P x y) : y.map f = x.map f := by
  cases h with
  | none => rfl
  | some h => exact congrArg some (hf h)

theorem rel_some {x y : Option α} (h : Option.Rel P x y) {a : α} (hx : x = some a) : ∃ b, y = some b ∧ P a b := by
  subst hx
  cases h with
  | some h => exact ⟨_, rfl, h⟩

theorem rel_some_right {x y : Option α} (h : Option.Rel P x y) {b : α} (hy : y = some b) : ∃ a, x = some a ∧ P a b := by
  subst hy
  cases h with
  | some h => exact ⟨_, rfl, h⟩

end rel

/-! ## Operations that leave the array and the groups alone -/

/-- The queues, the array and the copy engine of a core stand. -/
structure SameArray (a b : Core) : Prop where
  queues : b.queues = a.queues
  running : b.running = a.running
  arrayFrom : b.arrayFrom = a.arrayFrom
  finishing : b.finishing = a.finishing
  used : b.used = a.used
  engine : b.engine = a.engine

theorem SameArray.refl (a : Core) : SameArray a a := ⟨rfl, rfl, rfl, rfl, rfl, rfl⟩
theorem SameArray.trans {a b c : Core} (h : SameArray a b) (k : SameArray b c) : SameArray a c :=
  ⟨k.1.trans h.1, k.2.trans h.2, k.3.trans h.3, k.4.trans h.4, k.5.trans h.5, k.6.trans h.6⟩

/-- Nothing of a group has changed but the deferred traps that wait for it. -/
def OnlyDeferred (g h : Group) : Prop := h = { g with deferred := h.deferred }

theorem OnlyDeferred.refl (g : Group) : OnlyDeferred g g := rfl
theorem OnlyDeferred.trans {g h k : Group} (a : OnlyDeferred g h) (b : OnlyDeferred h k) : OnlyDeferred g k :=
  (show k = _ from b).trans (by rw [show h = _ from a])

/-- The cores' arrays stand, and of the groups all but their deferred traps. -/
structure Aside (s t : State) : Prop where
  cycle : t.cycle = s.cycle
  core : ∀ k, SameArray (s.core k) (t.core k)
  group : ∀ gid, Option.Rel OnlyDeferred (s.group? gid) (t.group? gid)

namespace Aside
variable {s t u : State}

theorem refl (s : State) : Aside s s := ⟨rfl, fun _ => .refl _, fun _ => rel_refl .refl _⟩
theorem trans (h : Aside s t) (k : Aside t u) : Aside s u :=
  ⟨k.1.trans h.1, fun n => (h.2 n).trans (k.2 n), fun n => rel_trans .trans (h.3 n) (k.3 n)⟩

/-- An operation on other parts of the state. -/
theorem elsewhere (hy : t.cycle = s.cycle) (hc : t.cores = s.cores) (hg : t.groups = s.groups) : Aside s t :=
  ⟨hy, fun n => by rw [State.core, State.core, hc]; exact .refl _, fun n => by rw [State.group?, State.group?, hg]; exact rel_refl .refl _⟩

theorem modCore (k : Nat) {f : Core → Core} (hf : ∀ x, SameArray x (f x)) : Aside s (s.modCore k f) := by
  refine ⟨rfl, fun n => ?_, fun n => rel_refl .refl _⟩
  by_cases h : n = k
  · subst h; rw [modCore_self]; exact hf _
  · rw [modCore_ne s h]; exact .refl _

theorem modGroup (gid : Nat) {f : Group → Group} (hf : ∀ g, OnlyDeferred g (f g)) : Aside s (s.modGroup gid f) :=
  ⟨rfl, fun _ => .refl _, fun n => rel_flook_fmod .refl hf n gid _⟩

theorem foldl {β : Type} {f : State → β → State} (hf : ∀ s b, Aside s (f s b)) (l : List β) (s : State) : Aside s (l.foldl f s) := by
  induction l generalizing s with
  | nil => exact .refl s
  | cons b l ih => exact (hf s b).trans (ih _)

theorem scriv (core : Nat) (r : BitVec 128) : Aside s (s.scriv core r) :=
  .modCore core fun x => by split <;> exact ⟨rfl, rfl, rfl, rfl, rfl, rfl⟩

theorem scrivWarp (gid wid ent kind : Nat) (payload : DWord) : Aside s (s.scrivWarp gid wid ent kind payload) := by
  unfold State.scrivWarp
  split
  · split
    · exact scriv _ _
    · exact refl s
  · exact refl s

theorem ringAppend (key : Nat → Option Nat) (cap : Nat) (r : List Byte) : Aside s (s.ringAppend key cap r) := by
  unfold State.ringAppend
  split
  · extract_lets
    split
    · exact .elsewhere rfl rfl rfl
    · split
      · exact .elsewhere rfl rfl rfl
      · exact refl s
  · exact refl s

theorem logRecord (addr task group detail asid part cause kind : Nat) : Aside s (s.logRecord addr task group detail asid part cause kind) := by
  unfold State.logRecord
  extract_lets
  split
  · exact ringAppend _ _ _
  · exact refl s

theorem errRecord (part asid addr task group detail cause kind : Nat) : Aside s (s.errRecord part asid addr task group detail cause kind) := by
  unfold State.errRecord
  extract_lets
  split
  · exact logRecord ..
  · exact (logRecord ..).trans (ringAppend _ _ _)

theorem noteOf (gid wid ent : Nat) (i : TrapInfo) : Aside s (s.noteOf gid wid ent i) := by
  unfold State.noteOf
  split
  · extract_lets
    split
    · split
      · exact (scrivWarp ..).trans (logRecord ..)
      · exact scrivWarp ..
    · exact scrivWarp ..
  · exact refl s

theorem defer (gid wid pid : Nat) (lanes : Mask) (i : TrapInfo) (tile : Option Nat) : Aside s (s.defer gid wid pid lanes i tile) :=
  (noteOf ..).trans (.modGroup gid fun _ => rfl)

theorem fatal (device : Bool) (origin task part cause : Nat) (others : List Nat) : Aside s (s.fatal device origin task part cause others) := by
  unfold State.fatal
  extract_lets
  split <;> exact .elsewhere rfl rfl rfl

theorem endTaskByError (g : Group) (cause : Nat) : Aside s (endTaskByError s g cause) := by
  unfold Machine.endTaskByError
  split
  · exact refl s
  · split
    · exact refl s
    · extract_lets cause s1 s2 s3
      have hcrews : Aside s s2 := .elsewhere rfl rfl rfl
      exact (hcrews.trans (errRecord ..)).trans (fatal ..)

theorem relaunchOrEnd (g : Group) (cause : Nat) : Aside s (relaunchOrEnd s g cause) := by
  unfold Machine.relaunchOrEnd
  split
  · exact refl s
  · split
    · exact refl s
    · split
      · exact .elsewhere rfl rfl rfl
      · exact endTaskByError ..

theorem consumed (gid wid pid : Nat) (lanes : Mask) (addr : DWord) (offs : Bool) : Aside s (s.consumed gid wid pid lanes addr offs) := by
  unfold State.consumed
  split
  · exact refl s
  · split
    · exact refl s
    · split
      · exact defer ..
      · exact relaunchOrEnd ..

theorem complete (gid wid pid : Nat) : Aside s (s.complete gid wid pid) := by
  unfold State.complete
  split
  · exact refl s
  · split
    · exact refl s
    · extract_lets s1 s2 strict s3
      have htwin : Aside s s2 := by
        unfold s2
        split
        · split
          · split <;> exact .elsewhere rfl rfl rfl
          · exact .elsewhere rfl rfl rfl
        · exact .elsewhere rfl rfl rfl
      have hdead : Aside s s3 := by
        unfold s3
        split
        · split
          · exact htwin.trans (defer ..)
          · exact htwin
        · exact htwin
      split
      · exact hdead.trans (consumed ..)
      · exact hdead

end Aside

end Sys2Proof.Laws
end

section
/-! SUPPORT. What the race check, an acquire and the warning of an unwritten word may touch (R158, R212, R235, R236): beside the groups'
deferred traps, warps' synchronised-with tables and what their operations wait for; no byte of memory, no register, and no operation gains
anything to report. -/

namespace Sys2Proof.Laws

open Sys2Proof.Machine

/-- An operation that has nothing to report still has nothing. -/
structure PendQuiet (q r : Pend) : Prop where
  id : r.id = q.id
  dead : q.dead = none → r.dead = none
  bad : q.bad = none → r.bad = none

theorem PendQuiet.refl (q : Pend) : PendQuiet q q := ⟨rfl, fun h => h, fun h => h⟩
theorem PendQuiet.trans {p q r : Pend} (h : PendQuiet p q) (k : PendQuiet q r) : PendQuiet p r :=
  ⟨k.1.trans h.1, fun e => k.2 (h.2 e), fun e => k.3 (h.3 e)⟩

/-- Nothing of a warp has changed but its synchronised-with table and what its operations wait for. -/
structure WarpQuiet (w v : Warp) : Prop where
  rest : v = { w with pend := v.pend, sync := v.sync }
  pend : List.Forall₂ PendQuiet w.pend v.pend

/-- Operations found by their number in lists of related ones. -/
theorem find_of_forall₂ {l m : List Pend} (h : List.Forall₂ PendQuiet l m) {pid : Nat} {r : Pend}
    (hr : m.find? (fun x => decide (x.id = pid)) = some r) : ∃ q, l.find? (fun x => decide (x.id = pid)) = some q ∧ PendQuiet q r := by
  induction h with
  | nil => cases hr
  | @cons q r' l m hq _ ih =>
    rw [List.find?_cons] at hr ⊢
    by_cases hid : q.id = pid
    · rw [decide_eq_true (hq.id.trans hid)] at hr
      rw [decide_eq_true hid]
      obtain rfl := Option.some.inj hr
      exact ⟨q, rfl, hq⟩
    · rw [decide_eq_false (hq.id.trans_ne hid)] at hr
      rw [decide_eq_false hid]
      exact ih hr

theorem forall₂_quiet_trans {l m n : List Pend} (h : List.Forall₂ PendQuiet l m) (k : List.Forall₂ PendQuiet m n) :
    List.Forall₂ PendQuiet l n := by
  induction h generalizing n with
  | nil => exact k
  | cons hq _ ih => cases k with
    | cons hr k => exact .cons (hq.trans hr) (ih k)

theorem WarpQuiet.refl (w : Warp) : WarpQuiet w w := ⟨rfl, List.forall₂_same.2 fun _ _ => .refl _⟩
theorem WarpQuiet.trans {u v w : Warp} (h : WarpQuiet u v) (k : WarpQuiet v w) : WarpQuiet u w :=
  ⟨k.rest.trans (by rw [h.rest]), forall₂_quiet_trans h.pend k.pend⟩

theorem WarpQuiet.modPend {f : Pend → Pend} (hf : ∀ q, PendQuiet q (f q)) (w : Warp) (pid : Nat) :
    WarpQuiet w { w with pend := w.pend.map fun q => if q.id = pid then f q else q } :=
  ⟨rfl, List.forall₂_map_right_iff.2 (List.forall₂_same.2 fun q _ => by split; exacts [hf q, .refl q])⟩

/-- Nothing has changed but what a deferred trap and a Scrivener record touch. -/
structure Noted (s t : State) : Prop extends Aside s t where
  rest : t = { s with groups := t.groups, cores := t.cores }

namespace Noted
variable {s t u : State}

theorem refl (s : State) : Noted s s := ⟨.refl s, rfl⟩
theorem trans (h : Noted s t) (k : Noted t u) : Noted s u := ⟨h.toAside.trans k.toAside, k.rest.trans (by rw [h.rest])⟩

theorem mem (h : Noted s t) : t.mem = s.mem := by rw [h.rest]
theorem warps (h : Noted s t) : t.warps = s.warps := by rw [h.rest]
theorem fresh (h : Noted s t) : t.fresh = s.fresh := by rw [h.rest]
theorem keys (h : Noted s t) : t.keys = s.keys := by rw [h.rest]
theorem objEntry (h : Noted s t) (asid obj : Nat) : t.objEntry asid obj = s.objEntry asid obj := by rw [h.rest]; rfl

theorem scriv (core : Nat) (r : BitVec 128) : Noted s (s.scriv core r) := ⟨.scriv core r, rfl⟩

theorem scrivWarp (gid wid ent kind : Nat) (payload : DWord) : Noted s (s.scrivWarp gid wid ent kind payload) := by
  unfold State.scrivWarp
  split
  · split
    · exact scriv ..
    · exact refl s
  · exact refl s

/-- A deferred trap that no record goes with. -/
theorem defer (gid wid pid : Nat) (lanes : Mask) {i : TrapInfo} (hnote : i.note = none) (tile : Option Nat) :
    Noted s (s.defer gid wid pid lanes i tile) := by
  have hnone : s.noteOf gid wid (s.entryOf gid wid pid) i = s := by simp [State.noteOf, hnote]
  unfold State.defer
  rw [hnone]
  exact ⟨.modGroup gid fun _ => rfl, rfl⟩

theorem stampTrap_note {c : Issuer} {det race : Bool} {x : Spot} {i : TrapInfo} (h : s.stampTrap c det race x = some i) : i.note = none := by
  unfold State.stampTrap at h
  obtain ⟨a, -, ha⟩ := List.exists_of_findSome?_eq_some h
  split at ha
  · cases ha
  · extract_lets bench own addr at ha
    split at ha
    · cases ha
    · split at ha
      · cases ha; rfl
      · split at ha
        · cases ha; rfl
        · cases ha

theorem raceCheck (gid wid pid : Nat) (lanes : Mask) (l : List Spot) : Noted s (s.raceCheck gid wid pid lanes l) := by
  unfold State.raceCheck
  split
  · split
    · rename_i c _ _ i hi
      refine .defer _ _ _ _ ?_ _
      split at hi
      · obtain ⟨x, -, hx⟩ := List.exists_of_findSome?_eq_some hi
        exact stampTrap_note hx
      · cases hi
    · exact refl s
  · exact refl s

theorem unwrittenRead (gid wid pid : Nat) (lanes : Mask) (warn : Bool) (l : List Nat) :
    Noted s (s.unwrittenRead gid wid pid lanes warn l) := by
  unfold State.unwrittenRead
  split
  · exact refl s
  · extract_lets low
    split
    · split
      · exact .scrivWarp ..
      · exact refl s
    · exact .defer _ _ _ _ rfl _

end Noted

structure Quiet (s t : State) : Prop extends Aside s t where
  rest : t = { s with warps := t.warps, groups := t.groups, cores := t.cores, lastRast := t.lastRast }
  warp : ∀ gid wid, Option.Rel WarpQuiet (s.warp? gid wid) (t.warp? gid wid)

namespace Quiet
variable {s t u : State}

theorem refl (s : State) : Quiet s s := ⟨.refl s, rfl, fun _ _ => rel_refl .refl _⟩
theorem trans (h : Quiet s t) (k : Quiet t u) : Quiet s u :=
  ⟨h.toAside.trans k.toAside, k.rest.trans (by rw [h.rest]), fun g w => rel_trans .trans (h.warp g w) (k.warp g w)⟩

theorem mem (h : Quiet s t) : t.mem = s.mem := by rw [h.rest]
theorem soft (h : Quiet s t) : t.soft = s.soft := by rw [h.rest]
theorem fresh (h : Quiet s t) : t.fresh = s.fresh := by rw [h.rest]

theorem modWarp (gid wid : Nat) {f : Warp → Warp} (hf : ∀ w, WarpQuiet w (f w)) : Quiet s (s.modWarp gid wid f) :=
  ⟨.elsewhere rfl rfl rfl, rfl, fun _ _ => rel_flook_fmod .refl hf _ _ _⟩

theorem modPend (gid wid pid : Nat) {f : Pend → Pend} (hf : ∀ q, PendQuiet q (f q)) : Quiet s (s.modPend gid wid pid f) :=
  .modWarp gid wid fun w => .modPend hf w pid

theorem modGroup (gid : Nat) {f : Group → Group} (hf : ∀ g, OnlyDeferred g (f g)) : Quiet s (s.modGroup gid f) :=
  ⟨.modGroup gid hf, rfl, fun _ _ => rel_refl .refl _⟩

theorem modRasts (gid : Nat) (f : RastNote → RastNote) : Quiet s (s.modRasts gid f) :=
  ⟨.elsewhere rfl rfl rfl, rfl, fun _ _ => rel_refl .refl _⟩

theorem foldl {β : Type} {f : State → β → State} (hf : ∀ s b, Quiet s (f s b)) (l : List β) (s : State) : Quiet s (l.foldl f s) := by
  induction l generalizing s with
  | nil => exact refl s
  | cons b l ih => exact (hf s b).trans (ih _)

theorem ofNoted (h : Noted s t) : Quiet s t :=
  ⟨h.toAside, by rw [h.rest], fun gid wid => by rw [State.warp?, State.warp?, h.warps]; exact rel_refl .refl _⟩

theorem raceCheck (gid wid pid : Nat) (lanes : Mask) (l : List Spot) : Quiet s (s.raceCheck gid wid pid lanes l) := ofNoted (.raceCheck ..)

theorem acquire (gid wid pid : Nat) (lanes : Mask) (es : List SyncEntry) : Quiet s (s.acquire gid wid pid lanes es) := by
  refine .foldl (fun s e => ?_) es s
  split
  · split
    · exact refl s
    · split
      · exact .modWarp gid wid fun w => ⟨rfl, List.forall₂_same.2 fun _ _ => .refl _⟩
      · exact ofNoted (.defer _ _ _ _ rfl _)
  · exact refl s

theorem pbWake (key n : Nat) : Quiet s (s.pbWake key n) := by
  refine .foldl (fun s p => .foldl (fun s q => ?_) _ s) _ s
  split
  · split
    · extract_lets es
      refine Quiet.trans ?_ (acquire ..)
      refine Quiet.trans (modRasts _ _) (modPend _ _ _ fun _ => ⟨rfl, id, id⟩)
    · exact refl s
  · exact refl s

theorem unwrittenRead (gid wid pid : Nat) (lanes : Mask) (warn : Bool) (l : List Nat) :
    Quiet s (s.unwrittenRead gid wid pid lanes warn l) := ofNoted (.unwrittenRead ..)

/-- An operation with nothing to report stays one. -/
theorem sound (h : Quiet s t) {gid wid pid : Nat} (hs : Sound s gid wid pid) : Sound t gid wid pid := by
  intro v r hv hr
  obtain ⟨w, hw, hwarp⟩ := rel_some_right (h.warp gid wid) hv
  obtain ⟨q, hq, hquiet⟩ := find_of_forall₂ hwarp.pend hr
  obtain ⟨hdead, hbad⟩ := hs w q hw hq
  exact ⟨hquiet.dead hdead, hquiet.bad hbad⟩

end Quiet

end Sys2Proof.Laws
end

section
/-! SUPPORT. Stores above HBM, as those of the bench are (R143, R158): the bytes written and the valid bits set, with no other change than
what the PBWAITs that such a store wakes may make. Fields of a structure held as bytes (R7). -/

namespace Sys2Proof.Laws

open Sys2Proof.Machine

variable {s : State} {key core n : Nat} {bs : List Byte} {st : Option Stamp}

/-! ## Stores above HBM -/

theorem gang_le_region : 2 * gangBase ≤ region := by unfold gangBase region; norm_num

theorem region_pos : 0 < region := Nat.two_pow_pos _

/-- Memory after bytes are written above HBM: in a bench the valid bits of their words are set too. -/
def written (m : List Host.Cell) (key : Nat) (bs : List Byte) : List Host.Cell :=
  if keyRegion key = 4 then (benchWords key bs.length).foldl (fun m w => wrByte m (validKey (benchCore key) w) 1) (wrBytes m key bs)
  else wrBytes m key bs

theorem wf_written {m : List Host.Cell} (key : Nat) (bs : List Byte) (h : Memory.wf m = true) : Memory.wf (written m key bs) = true := by
  unfold written
  split
  · exact wf_foldl (fun _ _ hm => wf_wrByte _ _ hm) _ (wf_wrBytes _ _ h)
  · exact wf_wrBytes _ _ h

theorem rdByte_foldl_wrByte {ws : List Nat} {f : Nat → Nat} {v : Byte} {b : Nat} (h : ∀ w ∈ ws, b ≠ f w) (m : List Host.Cell) :
    rdByte (ws.foldl (fun m w => wrByte m (f w) v) m) b = rdByte m b := by
  induction ws generalizing m with
  | nil => rfl
  | cons w ws ih =>
    rw [List.foldl_cons, ih fun x hx => h x (List.mem_cons_of_mem _ hx), rdByte_wrByte_ne (h w List.mem_cons_self)]

/-- A byte that is no valid bit of the words written. -/
theorem rdByte_written {m : List Host.Cell} {b : Nat}
    (h : keyRegion key = 4 → ∀ w ∈ benchWords key bs.length, b ≠ validKey (benchCore key) w) :
    rdByte (written m key bs) b = rdByte (wrBytes m key bs) b := by
  unfold written
  split
  · rename_i h4
    exact rdByte_foldl_wrByte (h h4) _
  · rfl

theorem rdByte_written_below {m : List Host.Cell} {b : Nat} (hb : b < 9 * region) :
    rdByte (written m key bs) b = rdByte (wrBytes m key bs) b :=
  rdByte_written fun _ w _ => by unfold validKey; omega

/-- The written bytes read back. -/
theorem rdBytes_written {m : List Host.Cell} (hwf : Memory.wf m = true) (hkey : region ≤ key) (hlen : bs.length ≤ region) :
    rdBytes (written m key bs) key bs.length = bs := by
  have hgang := gang_le_region
  refine Eq.trans (b := rdBytes (wrBytes m key bs) key bs.length) (List.map_congr_left fun i hi => ?_) (rdBytes_wrBytes hwf (.inr (.inl (by omega))))
  have hi := List.mem_range.1 hi
  rw [cell_plain (by omega)]
  refine rdByte_written fun h4 w _ => ?_
  have : key < 5 * region := (Nat.div_lt_iff_lt_mul region_pos).1 (by unfold keyRegion at h4; omega)
  unfold validKey
  omega

theorem deadAt_upper (hkey : region ≤ key) : s.deadAt key = false := by
  have : 0 < keyRegion key := Nat.div_pos hkey region_pos
  simp [State.deadAt, this.ne']

theorem deadIn_upper (hkey : region ≤ key) : s.deadIn key n = [] := by
  unfold State.deadIn
  split
  · rfl
  · generalize List.range n = l
    induction l with
    | nil => rfl
    | cons i l ih => rw [List.foldl_cons, deadAt_upper (by omega)]; exact ih

/-- The state with bytes put above HBM. -/
def placed (s : State) (key : Nat) (bs : List Byte) (st : Option Stamp) : State := { s.put key bs st with mem := written s.mem key bs }

theorem placed_warps (s : State) (key : Nat) (bs : List Byte) (st : Option Stamp) : (placed s key bs st).warps = s.warps := rfl

/-- A store above HBM puts its bytes, and what it wakes changes no byte. -/
theorem store_quiet (hkey : region ≤ key) (hbs : bs ≠ []) : Quiet (placed s key bs st) (s.store core key bs st) := by
  have h0 : keyRegion key ≠ 0 := (Nat.div_pos hkey region_pos).ne'
  unfold State.store
  rw [if_neg hbs]
  simp only [deadIn_upper hkey, List.foldl_nil]
  split
  · rename_i h4
    have hput : placed s key bs st = (s.put key bs st).setValid key bs.length 1 := by rw [placed, written, if_pos h4]; rfl
    rw [hput]
    exact .pbWake _ _
  · rename_i h4
    have hput : placed s key bs st = s.put key bs st := by rw [placed, written, if_neg h4]; rfl
    have hno : (s.put key bs st).targetsAt key bs.length = [] := by simp [State.targetsAt, h0]
    rw [hput, hno]
    exact .refl _

theorem store_upper_mem (hkey : region ≤ key) (hbs : bs ≠ []) : (s.store core key bs st).mem = written s.mem key bs :=
  (store_quiet hkey hbs).mem

theorem store_upper_aside (hkey : region ≤ key) (hbs : bs ≠ []) : Aside s (s.store core key bs st) :=
  Aside.trans (t := placed s key bs st) (.elsewhere rfl rfl rfl) (store_quiet hkey hbs).toAside

/-! ## Fields of a structure held as bytes -/

theorem rdNat_field {m : List Host.Cell} {a o k n : Nat} (h : o + k ≤ n) : rdNat m (a + o) k = fieldNat (rdBytes m a n) o k := by
  refine congrArg bytesNat (List.ext_getElem (by simp; omega) fun i h1 h2 => ?_)
  simp [rdBytes, Nat.add_assoc]

theorem fieldNat_append_left {xs ys : List Byte} {o n : Nat} (h : o + n ≤ xs.length) : fieldNat (xs ++ ys) o n = fieldNat xs o n := by
  rw [fieldNat, List.drop_append_of_le_length (by omega), List.take_append_of_le_length (by rw [List.length_drop]; omega), fieldNat]

theorem fieldNat_append_right {xs ys : List Byte} {o n : Nat} (h : xs.length ≤ o) : fieldNat (xs ++ ys) o n = fieldNat ys (o - xs.length) n := by
  rw [fieldNat, List.drop_append, List.drop_eq_nil_of_le h, List.nil_append, fieldNat]

/-- A field that lies past a first part. -/
theorem fieldNat_skip {xs ys : List Byte} {k o n : Nat} (h : xs.length = k) : fieldNat (xs ++ ys) (k + o) n = fieldNat ys o n := by
  rw [fieldNat_append_right (by omega), h, Nat.add_sub_cancel_left]

theorem fieldNat_natBytes (n v : Nat) : fieldNat (natBytes n v) 0 n = v % 256 ^ n := by
  rw [fieldNat, List.drop_zero, List.take_of_length_le (length_natBytes n v).le, bytesNat_natBytes]

/-- A number that stands first. -/
theorem fieldNat_head (n v : Nat) (ys : List Byte) : fieldNat (natBytes n v ++ ys) 0 n = v % 2 ^ (8 * n) := by
  rw [fieldNat_append_left (by simp), fieldNat_natBytes, Nat.pow_mul]

/-- A field of one of many equal parts. -/
theorem fieldNat_flatMap {f : Nat → List Byte} {w m j o n : Nat} (hf : ∀ i, (f i).length = w) (hj : j < m) (ho : o + n ≤ w) :
    fieldNat ((List.range m).flatMap f) (w * j + o) n = fieldNat (f j) o n := by
  induction m with
  | zero => omega
  | succ m ih =>
    have hlen : ((List.range m).flatMap f).length = w * m := by simp [List.length_flatMap, hf, Nat.mul_comm]
    rw [List.range_succ, List.flatMap_append, List.flatMap_singleton]
    by_cases h : j = m
    · subst h
      rw [fieldNat_append_right (by omega), hlen, Nat.add_sub_cancel_left]
    · have hle : w * j + w ≤ w * m := by rw [← Nat.mul_succ]; exact Nat.mul_le_mul_left w (by omega)
      rw [fieldNat_append_left (by omega), ih (by omega)]

theorem flook_map_key {α β : Type} (f : Nat → α → β) (k : Nat) (m : FMap α) :
    flook k (m.map fun p => (p.1, f p.1 p.2)) = (flook k m).map (f k) := by
  induction m with
  | nil => rfl
  | cons p t ih =>
    obtain ⟨a, v⟩ := p
    by_cases h : a = k
    · subst h; simp [flook_cons]
    · simp [flook_cons, h, ih]

theorem flook_map {α β : Type} (f : α → β) (k : Nat) (m : FMap α) : flook k (m.map fun p => (p.1, f p.2)) = (flook k m).map f :=
  flook_map_key (fun _ => f) k m

end Sys2Proof.Laws
end

section
/-! SUPPORT. MSTAT (R130): the fields of its record, and what it leaves. -/

namespace Sys2Proof.Laws

open Sys2Proof.Machine

variable {c : Issuer} {s : State} {f : XFmt} {g : Group}

/-! ## The record -/

/-- The counters of the group's tiles, and the estimates of its slots, as they stand in the record. -/
def counterBytes (g : Group) : List Byte :=
  (List.range 8).flatMap fun i => if i < g.tileCount then [BitVec.ofNat 8 (g.tile i).ovf, BitVec.ofNat 8 (g.tile i).nan] else [0, 0]
def estimateBytes (g : Group) : List Byte := (List.range 32).flatMap fun i => natBytes 2 (if i < g.slotCount then (g.slot i).estimate else 0)

/-- The states of the slots, two bits each, and of the tiles, four bits each. -/
def slotStates (g : Group) : Nat := (List.range g.slotCount).foldl (fun a i => a + (g.slot i).state * 4 ^ i) 0
def tileStates (g : Group) : Nat := (List.range 8).foldl (fun a i => a + (if i < g.tileCount then (g.tile i).state else 15) * 16 ^ i) 0

theorem statusRecord_eq (s : State) (g : Group) : statusRecord s g = counterBytes g ++ (natBytes 8 (slotStates g) ++ (natBytes 4 (tileStates g) ++
    (natBytes 4 0 ++ (natBytes 4 (s.budgetOf g.core) ++ (natBytes 4 (s.core g.core).used ++ (natBytes 8 (s.cycle / 1024) ++
      (natBytes 16 0 ++ estimateBytes g))))))) := by
  simp only [statusRecord, counterBytes, slotStates, tileStates, estimateBytes, List.append_assoc]

@[simp] theorem length_counterBytes (g : Group) : (counterBytes g).length = 16 := by
  simp [counterBytes, List.length_flatMap, apply_ite List.length]
@[simp] theorem length_estimateBytes (g : Group) : (estimateBytes g).length = 64 := by simp [estimateBytes, List.length_flatMap]
@[simp] theorem length_statusRecord (s : State) (g : Group) : (statusRecord s g).length = 128 := by simp [statusRecord_eq]

/-- The numbers of the record, each in its place. -/
theorem statusRecord_fields (s : State) (g : Group) :
    fieldNat (statusRecord s g) 16 8 = slotStates g % 2 ^ 64 ∧ fieldNat (statusRecord s g) 24 4 = tileStates g % 2 ^ 32 ∧
    fieldNat (statusRecord s g) 32 4 = s.budgetOf g.core % 2 ^ 32 ∧ fieldNat (statusRecord s g) 36 4 = (s.core g.core).used % 2 ^ 32 ∧
    fieldNat (statusRecord s g) 40 8 = s.cycle / 1024 % 2 ^ 64 := by
  have hcounters : ∀ (ys : List Byte) (o n : Nat), fieldNat (counterBytes g ++ ys) (16 + o) n = fieldNat ys o n := fun ys o n =>
    fieldNat_skip (length_counterBytes g)
  have hnumber : ∀ (k v : Nat) (ys : List Byte) (o n : Nat), fieldNat (natBytes k v ++ ys) (k + o) n = fieldNat ys o n := fun k v ys o n =>
    fieldNat_skip (length_natBytes k v)
  rw [statusRecord_eq]
  refine ⟨?_, ?_, ?_, ?_, ?_⟩
  · rw [hcounters _ 0, fieldNat_head]
  · rw [hcounters _ 8, hnumber 8 _ _ 0, fieldNat_head]
  · rw [hcounters _ 16, hnumber 8 _ _ 8, hnumber 4 _ _ 4, hnumber 4 _ _ 0, fieldNat_head]
  · rw [hcounters _ 20, hnumber 8 _ _ 12, hnumber 4 _ _ 8, hnumber 4 _ _ 4, hnumber 4 _ _ 0, fieldNat_head]
  · rw [hcounters _ 24, hnumber 8 _ _ 16, hnumber 4 _ _ 12, hnumber 4 _ _ 8, hnumber 4 _ _ 4, hnumber 4 _ _ 0, fieldNat_head]

theorem statusRecord_counters (s : State) {j : Nat} (ht : g.tileCount ≤ 8) (hj : j < g.tileCount) :
    fieldNat (statusRecord s g) (2 * j) 1 = (g.tile j).ovf % 256 ∧ fieldNat (statusRecord s g) (2 * j + 1) 1 = (g.tile j).nan % 256 := by
  have hpart : ∀ o < 2, fieldNat (statusRecord s g) (2 * j + o) 1 =
      fieldNat [BitVec.ofNat 8 (g.tile j).ovf, BitVec.ofNat 8 (g.tile j).nan] o 1 := by
    intro o ho
    rw [statusRecord_eq, fieldNat_append_left (by simp; omega), counterBytes,
      fieldNat_flatMap (by intro i; split <;> rfl) (by omega) (by omega), if_pos hj]
  exact ⟨(hpart 0 (by omega)).trans (by simp [fieldNat, bytesNat]), (hpart 1 (by omega)).trans (by simp [fieldNat, bytesNat])⟩

theorem statusRecord_estimates (s : State) (g : Group) {j : Nat} (hj : j < 32) :
    fieldNat (statusRecord s g) (64 + 2 * j) 2 = if j < g.slotCount then (g.slot j).estimate % 65536 else 0 := by
  rw [statusRecord_eq, show 64 + 2 * j = 16 + (8 + (4 + (4 + (4 + (4 + (8 + (16 + (2 * j + 0)))))))) by omega,
    fieldNat_skip (length_counterBytes g), fieldNat_skip (length_natBytes _ _), fieldNat_skip (length_natBytes _ _),
    fieldNat_skip (length_natBytes _ _), fieldNat_skip (length_natBytes _ _), fieldNat_skip (length_natBytes _ _),
    fieldNat_skip (length_natBytes _ _), fieldNat_skip (length_natBytes _ _), estimateBytes, fieldNat_flatMap (by simp) hj (by omega),
    fieldNat_natBytes]
  split <;> simp

/-- A digit of a number that a fold joins from digits of its base. -/
theorem joined_digit {b n m : Nat} {v : Nat → Nat} (hb : 1 < b) (hv : ∀ i, v i < b) (hn : n ≤ m) (j : Nat) :
    (List.range n).foldl (fun a i => a + v i * b ^ i) 0 % b ^ m / b ^ j % b = if j < n then v j else 0 := by
  have hfold : (List.range n).foldl (fun a i => a + v i * b ^ i) 0 = digits b v n := by
    rw [← foldl_digits]
    simp only [Nat.mod_eq_of_lt (hv _)]
  have hlt := digits_lt (Nat.zero_lt_of_lt hb) v n
  rw [hfold, Nat.mod_eq_of_lt (hlt.trans_le (Nat.pow_le_pow_right (Nat.zero_lt_of_lt hb) hn))]
  split
  · rename_i hj
    rw [digits_get (Nat.zero_lt_of_lt hb) v n j hj, Nat.mod_eq_of_lt (hv j)]
  · rename_i hj
    rw [Nat.div_eq_of_lt (hlt.trans_le (Nat.pow_le_pow_right (Nat.zero_lt_of_lt hb) (Nat.le_of_not_lt hj))), Nat.zero_mod]

theorem slotStates_get (hs : g.slotCount ≤ 32) (hst : ∀ j, (g.slot j).state < 4) (j : Nat) :
    slotStates g % 2 ^ 64 / 4 ^ j % 4 = if j < g.slotCount then (g.slot j).state else 0 :=
  joined_digit (b := 4) (m := 32) (by norm_num) hst hs j

theorem tileStates_get (hst : ∀ j, (g.tile j).state < 16) {j : Nat} (hj : j < 8) :
    tileStates g % 2 ^ 32 / 16 ^ j % 16 = if j < g.tileCount then (g.tile j).state else 15 := by
  have h := joined_digit (b := 16) (n := 8) (m := 8) (v := fun i => if i < g.tileCount then (g.tile i).state else 15) (by norm_num)
    (fun i => by split; exacts [hst i, by norm_num]) le_rfl j
  rwa [if_pos hj] at h

/-! ## The instruction -/

/-- The place of the record. -/
def statusKey (f : XFmt) (c : Issuer) : Nat := benchKey c.grp.core (c.grp.benchBase + (c.env.ssrc f.pa).toNat)

theorem region_le_benchKey (core off : Nat) : region ≤ benchKey core off := by unfold benchKey; omega
theorem region_le_statusKey (f : XFmt) (c : Issuer) : region ≤ statusKey f c := region_le_benchKey _ _

/-- The race check of the record's place, the record stored, and the counters cleared where func says so. -/
def statusChecked (f : XFmt) (c : Issuer) (s : State) : State :=
  s.raceCheck c.ref.gid c.ref.wid s.fresh c.split.held [⟨0, 0, (c.env.ssrc f.pa).toNat, statusKey f c, 128, ⟨.bench, c.grp.core⟩⟩]
def statusStored (f : XFmt) (c : Issuer) (s : State) : State :=
  (statusChecked f c s).store c.grp.core (statusKey f c) (statusRecord s c.grp)
    (s.stampFor c.ref.gid c.ref.wid (cntOf c.warp c.grp) (statusKey f c))
def clearCounters (f : XFmt) (g : Group) : Group :=
  if f.func = 1 then { g with tiles := g.tiles.map fun (p : Nat × Tile) => (p.1, { p.2 with ovf := 0, nan := 0 }) } else g
def statusDone (f : XFmt) (c : Issuer) (s : State) : State := (statusStored f c s).modGroup c.ref.gid (clearCounters f)

theorem clearCounters_tile (f : XFmt) (g : Group) (j : Nat) :
    (clearCounters f g).tile j = if f.func = 1 then { g.tile j with ovf := 0, nan := 0 } else g.tile j := by
  have hmap := flook_map (fun x : Tile => { x with ovf := 0, nan := 0 }) j g.tiles
  unfold clearCounters
  split
  · refine (congrArg (Option.getD · {}) hmap).trans ?_
    unfold Group.tile
    cases flook j g.tiles <;> rfl
  · rfl

theorem mstatEff_ok (h : benchFault c (c.env.ssrc f.pa).toNat 128 64 = none) :
    mstatEff f c s = .ok ((statusDone f c s).later c (.mstat f) 8 []) := by
  have hclear : (if f.func = 1 then (statusStored f c s).modGroup c.ref.gid fun g => { g with tiles := g.tiles.map fun (p : Nat × Tile) =>
      (p.1, { p.2 with ovf := 0, nan := 0 }) } else statusStored f c s) = statusDone f c s := by
    unfold statusDone
    by_cases hf : f.func = 1
    · rw [if_pos hf]; exact congrArg _ (funext fun g => (if_pos hf).symm)
    · rw [if_neg hf, show clearCounters f = id from funext fun g => if_neg hf, modGroup_id]
  rw [← hclear]
  simp only [mstatEff, h]
  rfl

theorem statusRecord_ne_nil (s : State) (g : Group) : statusRecord s g ≠ [] := by
  intro h
  have := length_statusRecord s g
  simp [h] at this

theorem statusChecked_quiet (f : XFmt) (c : Issuer) (s : State) : Quiet s (statusChecked f c s) := .raceCheck ..

/-- What the store of the record may touch beside its bytes. -/
theorem statusStored_quiet (f : XFmt) (c : Issuer) (s : State) : Quiet (placed (statusChecked f c s) (statusKey f c) (statusRecord s c.grp)
    (s.stampFor c.ref.gid c.ref.wid (cntOf c.warp c.grp) (statusKey f c))) (statusStored f c s) :=
  store_quiet (region_le_statusKey f c) (statusRecord_ne_nil s c.grp)

theorem statusDone_mem (f : XFmt) (c : Issuer) (s : State) :
    (statusDone f c s).mem = written s.mem (statusKey f c) (statusRecord s c.grp) := by
  have hplaced : ∀ u : State, (placed u (statusKey f c) (statusRecord s c.grp) (s.stampFor c.ref.gid c.ref.wid (cntOf c.warp c.grp)
      (statusKey f c))).mem = written u.mem (statusKey f c) (statusRecord s c.grp) := fun _ => rfl
  rw [statusDone, modGroup_mem, (statusStored_quiet f c s).mem, hplaced, (statusChecked_quiet f c s).mem]

theorem statusStored_aside (f : XFmt) (c : Issuer) (s : State) : Aside s (statusStored f c s) :=
  (statusChecked_quiet f c s).toAside.trans
    (store_upper_aside (region_le_statusKey f c) (statusRecord_ne_nil s c.grp))

theorem statusDone_fresh (f : XFmt) (c : Issuer) (s : State) : (statusDone f c s).fresh = s.fresh := by
  have hplaced : ∀ u key bs st, (placed u key bs st).fresh = u.fresh := fun _ _ _ _ => rfl
  rw [statusDone, modGroup_fresh, (statusStored_quiet f c s).fresh, hplaced, (statusChecked_quiet f c s).fresh]

theorem statusDone_cycle (f : XFmt) (c : Issuer) (s : State) : (statusDone f c s).cycle = s.cycle := by
  rw [statusDone, modGroup_cycle, (statusStored_aside f c s).cycle]

theorem statusDone_warp (f : XFmt) (c : Issuer) (s : State) (gid wid : Nat) :
    Option.Rel WarpQuiet (s.warp? gid wid) ((statusDone f c s).warp? gid wid) := by
  have hplaced : ∀ u key bs st, (placed u key bs st).warp? gid wid = u.warp? gid wid := fun _ _ _ _ => rfl
  have hgroup : ∀ (u : State) k h, (u.modGroup k h).warp? gid wid = u.warp? gid wid := fun _ _ _ => rfl
  have hstored := (statusStored_quiet f c s).warp gid wid
  rw [hplaced] at hstored
  rw [statusDone, hgroup]
  exact rel_trans .trans ((statusChecked_quiet f c s).warp gid wid) hstored

theorem statusDone_group (f : XFmt) {c : Issuer} {s : State} (hg : s.group? c.ref.gid = some c.grp) :
    ∃ g, (statusDone f c s).group? c.ref.gid = some (clearCounters f g) ∧ OnlyDeferred c.grp g := by
  obtain ⟨g, hgroup, honly⟩ := rel_some ((statusStored_aside f c s).group c.ref.gid) hg
  exact ⟨g, by rw [statusDone, modGroup_self, hgroup]; rfl, honly⟩

/-- The operation that an instruction leaves for some cycles. -/
theorem outstanding_later {i : Instr} {u : State} {v : Warp} (hv : u.warp? c.ref.gid c.ref.wid = some v) (n : Nat) (ws : List RegWrite)
    (hvregs : v.vregs = c.warp.vregs) (hsregs : v.sregs = c.warp.sregs) (hpreds : v.preds = c.warp.preds) :
    ∃ q, Outstanding c (u.later c i n ws) q ∧ q.id = u.fresh ∧ q.kind = .long ∧ q.due = u.cycle + n ∧ q.writes = ws := by
  have hself : (u.later c i n ws).warp? c.ref.gid c.ref.wid = some { v with pend := v.pend ++
      [pendOf u c i { id := 0, kind := .long, ent := 0, lanes := 0, due := u.cycle + n, writes := ws }] } := by
    rw [State.later, addPend_eq, modWarp_self]
    exact congrArg (Option.map _) hv
  exact ⟨_, ⟨_, hself, List.mem_append_right _ List.mem_cons_self, hvregs, hsregs, hpreds⟩, rfl, rfl, rfl, rfl⟩

theorem later_mem (i : Instr) (u : State) (n : Nat) (ws : List RegWrite) : (u.later c i n ws).mem = u.mem := rfl
theorem later_group (i : Instr) (u : State) (n : Nat) (ws : List RegWrite) (k : Nat) : (u.later c i n ws).group? k = u.group? k := rfl

section mstat
variable (h : MayIssue (.mstat f) c s)
include h

/-- MSTAT's record, what else it changes of memory, the counters that it clears, and its operation. -/
theorem mstat_records (hin : benchFault c (c.env.ssrc f.pa).toNat 128 64 = none) :
    ∃ t q g, exec (.mstat f) s = .next t ∧ Outstanding c t q ∧ s.fresh ≤ q.id ∧ q.kind = .long ∧ q.due = s.cycle + 8 ∧ q.writes = [] ∧
      t.mem = written s.mem (statusKey f c) (statusRecord (issued (.mstat f) c s) c.grp) ∧ t.group? c.ref.gid = some g ∧
      ∀ j, g.tile j = if f.func = 1 then { c.grp.tile j with ovf := 0, nan := 0 } else c.grp.tile j := by
  obtain ⟨-, hg, -, -, -⟩ := issuer_some h.issuer
  obtain ⟨tags, hw⟩ := issued_warp (i := .mstat f) h.issuer rfl
  obtain ⟨v, hv, hquiet⟩ := rel_some (statusDone_warp f c _ c.ref.gid c.ref.wid) hw
  obtain ⟨g, hgroup, honly⟩ := statusDone_group f (c := c) (s := issued (.mstat f) c s) (by rw [issued_group]; exact hg)
  obtain ⟨-, hvregs, hsregs, hpreds⟩ := post_keeps c.warp (postFlag (c.profile (.mstat f)).head.post)
  obtain ⟨q, hout, hid, hkind, hdue, hwrites⟩ := outstanding_later (i := .mstat f) hv 8 [] (by rw [hquiet.rest]; exact hvregs)
    (by rw [hquiet.rest]; exact hsregs) (by rw [hquiet.rest]; exact hpreds)
  refine ⟨_, q, clearCounters f g, issue_next h rfl rfl rfl (mstatEff_ok hin), hout, ?_, hkind, ?_, hwrites, ?_, ?_, fun j => ?_⟩
  · rw [hid, statusDone_fresh, issued_fresh]
  · rw [hdue, statusDone_cycle, issued_cycle]
  · rw [later_mem, statusDone_mem, issued_mem]
  · rw [later_group, hgroup]
  · rw [clearCounters_tile, show g.tile j = c.grp.tile j by rw [show g = _ from honly]; rfl]

end mstat

end Sys2Proof.Laws
end

section
/-! SUPPORT. MRESOLVE (R125): what a discard takes from the queues, and how the tile and its partner stand when it is queued. -/

namespace Sys2Proof.Laws

open Sys2Proof.Machine

variable {c : Issuer} {s t : State} {f : XFmt}

/-! ## Dropped commands -/

/-- The queues without the commands that a discard drops. -/
def undropped (drop : List MCmd) (x : Core) : Core :=
  { x with queues := x.queues.map fun (p : Nat × List MCmd) => (p.1, p.2.filter fun m => !drop.any (·.id = m.id)) }

theorem undropped_queue (drop : List MCmd) (x : Core) (k : Nat) :
    (flook k (undropped drop x).queues).getD [] = ((flook k x.queues).getD []).filter fun m => !drop.any (·.id = m.id) := by
  have hmap := flook_map (fun l : List MCmd => l.filter fun m => !drop.any (·.id = m.id)) k x.queues
  refine (congrArg (Option.getD · []) hmap).trans ?_
  cases flook k x.queues <;> rfl

theorem undropped_nil (x : Core) (k : Nat) : flook k (undropped [] x).queues = flook k x.queues := by
  refine (flook_map (fun l : List MCmd => l.filter fun m => !([] : List MCmd).any (·.id = m.id)) k x.queues).trans ?_
  cases flook k x.queues <;> simp

/-- Two groups have the same tiles. -/
def SameTiles (g h : Group) : Prop := h.tiles = g.tiles

theorem SameTiles.refl (g : Group) : SameTiles g g := rfl
theorem SameTiles.trans {g h k : Group} (a : SameTiles g h) (b : SameTiles h k) : SameTiles g k := Eq.trans b a

/-- The cores' arrays and the groups' tiles stand. -/
structure TilesStand (s t : State) : Prop where
  core : ∀ k, SameArray (s.core k) (t.core k)
  group : ∀ gid, Option.Rel SameTiles (s.group? gid) (t.group? gid)

namespace TilesStand
variable {u : State}

theorem refl (s : State) : TilesStand s s := ⟨fun _ => .refl _, fun _ => rel_refl SameTiles.refl _⟩
theorem trans (h : TilesStand s t) (k : TilesStand t u) : TilesStand s u :=
  ⟨fun n => (h.core n).trans (k.core n), fun n => rel_trans (P := SameTiles) (fun a b => a.trans b) (h.group n) (k.group n)⟩

theorem ofAside (h : Aside s t) : TilesStand s t :=
  ⟨h.core, fun gid => rel_mono (fun hgk => by unfold SameTiles; rw [show _ = _ from hgk]) (h.group gid)⟩

theorem modSlot (gid k : Nat) (h : Slot → Slot) : TilesStand s (s.modSlot gid k h) :=
  ⟨fun _ => .refl _, fun n => rel_flook_fmod (P := SameTiles) (fun _ => rfl) (f := fun g => withSlot g k (h (g.slot k)))
    (fun _ => rfl) n gid s.groups⟩

/-- A command that is dropped frees its slots and completes its operation. -/
theorem dropCmd (m : MCmd) : TilesStand s (s.dropCmd m) := by
  unfold State.dropCmd
  extract_lets s1 s2
  have h1 : TilesStand s s1 := modSlot ..
  have h2 : TilesStand s s2 := by
    unfold s2
    split
    · exact h1
    · exact h1.trans (modSlot ..)
  exact h2.trans (ofAside (.complete ..))

theorem dropAll (drop : List MCmd) (s : State) : TilesStand s (drop.foldl State.dropCmd s) := by
  induction drop generalizing s with
  | nil => exact refl s
  | cons m drop ih => exact (dropCmd m).trans (ih _)

end TilesStand

/-! ## The instruction -/

/-- The tile and its partner out of the provisional state. -/
def normalTiles (k : Nat) (g : Group) : Group :=
  let h := withTile g k { g.tile k with state := 0 }
  withTile h (k + 1) { h.tile (k + 1) with state := 0 }

theorem normalTiles_tile (k : Nat) (g : Group) (j : Nat) :
    (normalTiles k g).tile j = if j = k ∨ j = k + 1 then { g.tile j with state := 0 } else g.tile j := by
  simp only [normalTiles, withTile_tile]
  by_cases h1 : j = k + 1
  · subst h1; simp
  · by_cases h0 : j = k <;> simp [h0, h1]

theorem normalTiles_slot (k : Nat) (g : Group) (j : Nat) : (normalTiles k g).slot j = g.slot j := rfl
theorem normalTiles_reslotted (k : Nat) (g : Group) : Reslotted g (normalTiles k g) := ((Reslotted.refl g).withTile k _).withTile (k + 1) _

/-- What MRESOLVE drops: nothing on a commit. -/
def resolveDrop (f : XFmt) (c : Issuer) (s : State) : List MCmd :=
  if c.env.sca (c.grp.tile f.acc.toNat).pred != 0 then [] else unstarted (s.core c.grp.core) c.ref.gid f.acc.toNat

/-- The state in which MRESOLVE's operation becomes outstanding: what it drops is gone, and the tiles have left the provisional state. -/
def resolved (f : XFmt) (c : Issuer) (drop : List MCmd) (s : State) : State :=
  (drop.foldl State.dropCmd (s.modCore c.grp.core (undropped drop))).modGroup c.ref.gid (normalTiles f.acc.toNat)

/-- MRESOLVE's command, issued in a state whose next number its operation has taken. -/
def resolveCmd (f : XFmt) (c : Issuer) (drop : List MCmd) (s : State) : MCmd :=
  { bareCmd .mresolve with
    id := s.fresh + 1, pid := s.fresh, gid := c.ref.gid, wid := c.ref.wid, lanes := c.split.held, tile := f.acc.toNat,
    commit := c.env.sca (c.grp.tile f.acc.toNat).pred != 0,
    snap := !(c.env.sca (c.grp.tile f.acc.toNat).pred != 0) && !drop.any (·.first) }

/-- MRESOLVE's operation outstanding, its number taken. -/
def resolveIssued (f : XFmt) (c : Issuer) (drop : List MCmd) (s : State) : State :=
  ((resolved f c drop s).addPend c (.mresolve f) { id := 0, kind := .engine, ent := 0, lanes := 0 }).newId.2

theorem modTile_normalTiles (gid k : Nat) (u : State) :
    (u.modTile gid k fun t => { t with state := 0 }).modTile gid (k + 1) (fun t => { t with state := 0 }) = u.modGroup gid (normalTiles k) := by
  rw [modTile_eq, modTile_eq, modGroup_modGroup]
  rfl

theorem mresolveEff_ok (hst : (c.grp.tile f.acc.toNat).state = 1) (hfree : tileForeign s c f.acc.toNat = false) : mresolveEff f c s =
    .ok ((resolveIssued f c (resolveDrop f c s) s).enqueue c.grp.core c.warp.bay
      (resolveCmd f c (resolveDrop f c s) (resolved f c (resolveDrop f c s) s))) := by
  unfold resolveIssued resolved
  rw [← modTile_normalTiles]
  simp only [mresolveEff, hst, hfree, bne_self_eq_false, Bool.false_eq_true, if_false]
  rfl

theorem resolved_nil_warps (s : State) : (resolved f c [] s).warps = s.warps := rfl
theorem resolved_nil_fresh (s : State) : (resolved f c [] s).fresh = s.fresh := rfl
theorem resolveIssued_warps (drop : List MCmd) (s : State) : (resolveIssued f c drop s).warps =
    ((resolved f c drop s).addPend c (.mresolve f) { id := 0, kind := .engine, ent := 0, lanes := 0 }).warps := rfl
theorem resolveIssued_nil_mem (s : State) : (resolveIssued f c [] s).mem = s.mem := rfl
theorem resolveIssued_nil_groups (s : State) : (resolveIssued f c [] s).groups = fmod c.ref.gid (normalTiles f.acc.toNat) s.groups := rfl
theorem resolveIssued_nil_queues (s : State) (k : Nat) :
    flook k ((resolveIssued f c [] s).core c.grp.core).queues = flook k (s.core c.grp.core).queues := by
  have hcore : (resolveIssued f c [] s).core c.grp.core = undropped [] (s.core c.grp.core) := modCore_self ..
  rw [hcore, undropped_nil]

theorem resolveIssued_queue (drop : List MCmd) (k : Nat) :
    (flook k ((resolveIssued f c drop s).core c.grp.core).queues).getD [] =
      ((flook k (s.core c.grp.core).queues).getD []).filter fun m => !drop.any (·.id = m.id) := by
  have hcore : ∀ u : State, (u.modGroup c.ref.gid (normalTiles f.acc.toNat)).core c.grp.core = u.core c.grp.core := fun _ => rfl
  have hid : ∀ u : State, u.newId.2.core c.grp.core = u.core c.grp.core := fun _ => rfl
  rw [resolveIssued, hid, addPend_core, resolved, hcore, ((TilesStand.dropAll drop _).core _).queues, modCore_self, undropped_queue]

theorem resolveIssued_group (drop : List MCmd) (hg : s.group? c.ref.gid = some c.grp) :
    ∃ g, (resolveIssued f c drop s).group? c.ref.gid = some (normalTiles f.acc.toNat g) ∧ ∀ j, g.tile j = c.grp.tile j := by
  have hid : ∀ u : State, u.newId.2.group? c.ref.gid = u.group? c.ref.gid := fun _ => rfl
  obtain ⟨g, hgroup, htiles⟩ := rel_some ((TilesStand.dropAll drop (s.modCore c.grp.core (undropped drop))).group c.ref.gid) hg
  exact ⟨g, by rw [resolveIssued, hid, addPend_group, resolved, modGroup_self, hgroup]; rfl, fun j => by rw [Group.tile, htiles]; rfl⟩

section resolve
variable (h : MayIssue (.mresolve f) c s)
include h

theorem mresolve_refused (hst : (c.grp.tile f.acc.toNat).state ≠ 1) :
    Traps (.mresolve f) c s 0x11 (f.acc.toNat + 256 + (c.grp.tile f.acc.toNat).state * 512) :=
  issue_trap h rfl rfl rfl (by simp [mresolveEff, hst, slotTval])

omit h in
theorem profile_mresolve : (c.profile (.mresolve f)).head.ends = false := by
  unfold Issuer.profile
  dsimp only
  split <;> rfl

omit h in
theorem resolveDrop_issued : resolveDrop f c (issued (.mresolve f) c s) = resolveDrop f c s := by
  simp only [resolveDrop, unstarted, issued_queues profile_mresolve]

section settled
variable (hst : (c.grp.tile f.acc.toNat).state = 1) (htile : TileFree c s f.acc.toNat)
include hst htile

theorem mresolve_next {drop : List MCmd} (hdrop : resolveDrop f c s = drop) : exec (.mresolve f) s =
    .next ((resolveIssued f c drop (issued (.mresolve f) c s)).enqueue c.grp.core c.warp.bay
      (resolveCmd f c drop (resolved f c drop (issued (.mresolve f) c s)))) := by
  have hfree := (tileForeign_issued (i := .mresolve f) profile_mresolve f.acc.toNat).2 htile
  rw [← hdrop, ← resolveDrop_issued]
  exact issue_next h rfl rfl rfl (mresolveEff_ok hst hfree)

/-- With nothing to drop the command is queued, and beside the two tiles no other state of the group changes. -/
theorem mresolve_queued (hdrop : resolveDrop f c s = []) :
    ∃ t m, Queues (.mresolve f) c s t m ∧ m.kind = .mresolve ∧ m.tile = f.acc.toNat ∧
      m.commit = (c.env.sca (c.grp.tile f.acc.toNat).pred != 0) ∧ m.snap = !m.commit ∧
      SlotsTiles c s t c.grp.slot fun j => if j = f.acc.toNat ∨ j = f.acc.toNat + 1 then { c.grp.tile j with state := 0 } else c.grp.tile j := by
  obtain ⟨-, hg, -, -, -⟩ := issuer_some h.issuer
  have hqueues : Queues (.mresolve f) c s _ (resolveCmd f c [] (resolved f c [] (issued (.mresolve f) c s))) :=
    queues_of_enqueue (q := { id := 0, kind := .engine, ent := 0, lanes := 0 }) h profile_mresolve (mresolve_next h hst htile hdrop) rfl
      (resolved_nil_warps _) (by rw [resolved_nil_fresh, issued_fresh]) (resolveIssued_warps [] _) (by rw [resolveIssued_nil_mem, issued_mem])
      (by rw [resolveIssued_nil_queues, issued_queues profile_mresolve]) rfl ⟨rfl, rfl, rfl, rfl⟩
      (by rw [resolveCmd, resolved_nil_fresh, issued_fresh]; exact Nat.le_succ _)
  refine ⟨_, _, hqueues, rfl, rfl, rfl, ?_, ?_⟩
  · simp [resolveCmd]
  · refine slotsTiles_of_modGroup (f := normalTiles f.acc.toNat) hg ?_ (normalTiles_reslotted _ _) (normalTiles_slot _ _) (normalTiles_tile _ _)
    rw [enqueue_groups, resolveIssued_nil_groups, issued_groups]
    rfl

/-- A discard's commands leave the queues before its own enters; the tiles leave the provisional state. -/
theorem mresolve_dropped :
    ∃ t m g, exec (.mresolve f) s = .next t ∧ m.kind = .mresolve ∧ m.tile = f.acc.toNat ∧
      m.commit = (c.env.sca (c.grp.tile f.acc.toNat).pred != 0) ∧
      flook c.warp.bay (t.core c.grp.core).queues = some (((flook c.warp.bay (s.core c.grp.core).queues).getD []).filter
        (fun m => !(resolveDrop f c s).any (·.id = m.id)) ++ [m]) ∧
      t.group? c.ref.gid = some g ∧ ∀ j, (g.tile j).state = if j = f.acc.toNat ∨ j = f.acc.toNat + 1 then 0 else (c.grp.tile j).state := by
  obtain ⟨-, hg, -, -, -⟩ := issuer_some h.issuer
  obtain ⟨g, hgroup, htiles⟩ := resolveIssued_group (s := issued (.mresolve f) c s) (f := f) (resolveDrop f c s) (by rw [issued_group]; exact hg)
  refine ⟨_, resolveCmd f c (resolveDrop f c s) (resolved f c (resolveDrop f c s) (issued (.mresolve f) c s)), _,
    mresolve_next h hst htile rfl, rfl, rfl, rfl, ?_, hgroup, fun j => ?_⟩
  · rw [enqueue_queue, resolveIssued_queue, issued_queues profile_mresolve]
  · rw [normalTiles_tile, htiles, apply_ite Tile.state]

end settled
end resolve

end Sys2Proof.Laws
end

section
/-! THEOREMS. Tile transfers, MRESOLVE and MSTAT. -/

namespace Sys2Proof.Laws

open Sys2Proof.Machine

theorem maccst_width (f : XFmt) :
    (if Instr.maccst f = .maccst f ∧ f.func.toNat % 4 ≠ 0 then 2 else 4) = if stForm f = 0 then 4 else 2 := by
  by_cases h0 : f.func.toNat % 4 = 0 <;> simp [stForm, h0]

/-- What MZERO, MACCLD and MACCST ask of their tile, and the commands that they queue. -/
theorem transfers_queue (f : XFmt) (c : Issuer) (s : State) (i : Instr) (hi : i = .mzero f ∨ i = .maccld f ∨ i = .maccst f) (h : MayIssue i c s)
    (hin : i = .mzero f ∨ ((c.env.ssrc f.pa).toNat % 16 = 0 ∧ (c.env.ssrc f.pb).toNat % 16 = 0 ∧
      (c.env.ssrc f.pa).toNat + 127 * (c.env.ssrc f.pb).toNat + 128 * (if i = .maccst f ∧ f.func.toNat % 4 ≠ 0 then 2 else 4) ≤ c.grp.benchSize)) :
    ((c.grp.tile f.acc.toNat).state ≠ 0 → Traps i c s 0x11 (f.acc.toNat + 256 + (c.grp.tile f.acc.toNat).state * 512)) ∧
    ((c.grp.tile f.acc.toNat).state = 0 → ¬ TileFree c s f.acc.toNat → Traps i c s 0x0D 0) ∧
    ((c.grp.tile f.acc.toNat).state = 0 → TileFree c s f.acc.toNat → ∃ t m, Queues i c s t m ∧ t.groups = s.groups ∧ m.tile = f.acc.toNat ∧
      m.kind = (if i = .mzero f then MKind.mzero else if i = .maccld f then .maccld else .maccst) ∧
      (i = .mzero f ∨ i = .maccld f → (m.clear = true ↔ f.func = 1)) ∧
      (i ≠ .mzero f → m.addr = (c.env.ssrc f.pa).toNat ∧ m.pitch = (c.env.ssrc f.pb).toNat) ∧
      (i = .maccst f → m.form = f.func.toNat % 4 ∧
        m.rnd = if f.func.toNat / 4 % 8 = 5 then c.warp.fpctl.toNat % 8 else f.func.toNat / 4 % 8)) := by
  rcases hi with rfl | rfl | rfl
  · obtain ⟨h1, h2, h3⟩ := transfer_cases (f := f) (m := { bareCmd .mzero with clear := f.func = 1 }) h rfl rfl rfl rfl rfl
    refine ⟨h1, h2, fun hst htile => ?_⟩
    obtain ⟨t, hq, hgroups⟩ := h3 hst htile
    exact ⟨t, _, hq, hgroups, rfl, by simp; rfl, fun _ => decide_eq_true_iff, by simp, by simp⟩
  · obtain ⟨ha, hb, hsize⟩ := hin.resolve_left (by simp)
    simp only [reduceCtorEq, false_and, if_false] at hsize
    obtain ⟨h1, h2, h3⟩ := transfer_cases h rfl rfl rfl (rowsEff_eq (w := 4) (m := { bareCmd .maccld with clear := f.func = 1 }) ha hb hsize _) rfl
    refine ⟨h1, h2, fun hst htile => ?_⟩
    obtain ⟨t, hq, hgroups⟩ := h3 hst htile
    exact ⟨t, _, hq, hgroups, rfl, by simp; rfl, fun _ => decide_eq_true_iff, fun _ => ⟨rfl, rfl⟩, by simp⟩
  · obtain ⟨ha, hb, hsize⟩ := hin.resolve_left (by simp)
    rw [maccst_width] at hsize
    obtain ⟨h1, h2, h3⟩ := transfer_cases h rfl rfl rfl (rowsEff_eq (w := if stForm f = 0 then 4 else 2)
      (m := { bareCmd .maccst with form := stForm f, rnd := if stRound f = 5 then c.warp.fpctl.toNat % 8 else stRound f }) ha hb hsize _) rfl
    refine ⟨h1, h2, fun hst htile => ?_⟩
    obtain ⟨t, hq, hgroups⟩ := h3 hst htile
    exact ⟨t, _, hq, hgroups, rfl, by simp; rfl, by simp, fun _ => ⟨rfl, rfl⟩, fun _ => ⟨rfl, rfl⟩⟩

/-- The status record as it reads back, field by field, and the bytes that stand. -/
theorem mstat_reads {m m' : List Host.Cell} {key : Nat} {u : State} {g : Group} (hm : m' = written m key (statusRecord u g))
    (hwf : Memory.wf m = true) (hkey : region ≤ key) (hslots : g.slotCount ≤ 32) (htiles : g.tileCount ≤ 8)
    (hst : ∀ j, (g.slot j).state < 4 ∧ (g.tile j).state < 16) :
    (∀ j < g.tileCount, rdNat m' (key + 2 * j) 1 = (g.tile j).ovf % 256 ∧ rdNat m' (key + 2 * j + 1) 1 = (g.tile j).nan % 256) ∧
    (∀ j < 32, rdNat m' (key + 16) 8 / 4 ^ j % 4 = if j < g.slotCount then (g.slot j).state else 0) ∧
    (∀ j < 8, rdNat m' (key + 24) 4 / 16 ^ j % 16 = if j < g.tileCount then (g.tile j).state else 15) ∧
    rdNat m' (key + 32) 4 = u.budgetOf g.core % 2 ^ 32 ∧ rdNat m' (key + 36) 4 = (u.core g.core).used % 2 ^ 32 ∧
    rdNat m' (key + 40) 8 = u.cycle / 1024 % 2 ^ 64 ∧
    (∀ j < 32, rdNat m' (key + 64 + 2 * j) 2 = if j < g.slotCount then (g.slot j).estimate % 65536 else 0) := by
  have hread : ∀ o k, o + k ≤ 128 → rdNat m' (key + o) k = fieldNat (statusRecord u g) o k := by
    intro o k hok
    have hback := rdBytes_written hwf hkey (bs := statusRecord u g) (by rw [length_statusRecord, region]; norm_num)
    rw [length_statusRecord, ← hm] at hback
    rw [rdNat_field hok, hback]
  obtain ⟨hslot, htile, hbudget, hused, hcycle⟩ := statusRecord_fields u g
  refine ⟨fun j hj => ?_, fun j _ => ?_, fun j hj => ?_, ?_, ?_, ?_, fun j hj => ?_⟩
  · rw [hread _ _ (by omega), Nat.add_assoc, hread _ _ (by omega)]
    exact statusRecord_counters u htiles hj
  · rw [hread _ _ (by omega), hslot, slotStates_get hslots fun j => (hst j).1]
  · rw [hread _ _ (by omega), htile, tileStates_get (fun j => (hst j).2) hj]
  · rw [hread _ _ (by omega), hbudget]
  · rw [hread _ _ (by omega), hused]
  · rw [hread _ _ (by omega), hcycle]
  · rw [Nat.add_assoc, hread _ _ (by omega), statusRecord_estimates u g hj]

/-- What a store of bytes above HBM leaves of memory. -/
theorem written_frame {m : List Host.Cell} {x : Spot} {bs : List Byte} {b : Nat} (hn : bs.length = x.n) (hholds : x.holds b = false)
    (hvalid : x.validates b = false) : rdByte (written m x.key bs) b = rdByte m b := by
  rw [rdByte_written fun h4 w hw hb => ?valid, rdByte_wrBytes_out fun k hk hb => ?held]
  case held =>
    simp only [Spot.holds, List.any_eq_false, List.mem_range, decide_eq_true_eq] at hholds
    exact hholds k (hn ▸ hk) hb
  case valid =>
    simp only [Spot.validates, h4, decide_true, Bool.true_and, List.any_eq_false, decide_eq_true_eq] at hvalid
    exact hvalid w (hn ▸ hw) hb

/-- Settles O36: the transfers by the checks they share, MRESOLVE by what it drops, MSTAT by its record. -/
theorem tileTransfersAndStatus : Obligations.TileTransfersAndStatus := by
  unfold Obligations.TileTransfersAndStatus
  refine ⟨fun f c s => ⟨fun i hi h hin => transfers_queue f c s i hi h hin, fun i hi h => ?rows⟩, fun f c s => ⟨fun h => ?resolve, fun h => ?stat⟩⟩
  case rows =>
    rcases hi with rfl | rfl
    · simp only [reduceCtorEq, false_and, if_false]
      exact rows_traps h rfl rfl rfl (f := f) (w := 4) (m := { bareCmd .maccld with clear := f.func = 1 }) rfl
    · beta_reduce
      rw [maccst_width]
      exact rows_traps h rfl rfl rfl (f := f) (w := if stForm f = 0 then 4 else 2)
        (m := { bareCmd .maccst with form := stForm f, rnd := if stRound f = 5 then c.warp.fpctl.toNat % 8 else stRound f }) rfl
  case resolve =>
    have hcommit : (c.env.sca (c.grp.tile f.acc.toNat).pred != 0) = decide (c.env.sca (c.grp.tile f.acc.toNat).pred ≠ 0) :=
      Bool.eq_iff_iff.2 (by simp)
    have hdrop : resolveDrop f c s = if decide (c.env.sca (c.grp.tile f.acc.toNat).pred ≠ 0) = true then []
        else unstarted (s.core c.grp.core) c.ref.gid f.acc.toNat := by rw [resolveDrop, hcommit]
    refine ⟨mresolve_refused h, fun hst htile => ⟨fun hnone => ?_, ?_⟩⟩
    · obtain ⟨t, m, hqueues, hkind, hmt, hm, hsnap, htiles⟩ := mresolve_queued h hst htile (hdrop.trans hnone)
      exact ⟨t, m, hqueues, hkind, hmt, hm.trans hcommit, by rw [hsnap, hm, hcommit], htiles⟩
    · obtain ⟨t, m, g, hnext, hkind, hmt, hm, hqueue, hgroup, htiles⟩ := mresolve_dropped h hst htile
      refine ⟨t, m, g, hnext, hkind, hmt, hm.trans hcommit, hdrop ▸ hqueue, hgroup, fun j => ?_⟩
      rw [htiles, apply_ite Tile.state]
  case stat =>
    refine ⟨fun ha => ?_, fun ha ho => ?_, fun ha hin hslots htiles hwf hst => ?_⟩
    · exact issue_trap h rfl rfl rfl (by simp only [mstatEff, benchFault_misaligned ha])
    · exact issue_trap h rfl rfl rfl (by simp only [mstatEff, benchFault_outside ha ho])
    · obtain ⟨t, q, g, hnext, hout, hid, hkind, hdue, hwrites, hmem, hgroup, hcleared⟩ := mstat_records h (benchFault_none ha hin)
      have hrest := issued_rest (i := .mstat f) (c := c) (s := s) rfl
      have hbudget : (issued (.mstat f) c s).budgetOf c.grp.core = s.budgetOf c.grp.core := by rw [hrest]; rfl
      have hused : ((issued (.mstat f) c s).core c.grp.core).used = (s.core c.grp.core).used := by rw [issued_core rfl]
      obtain ⟨hcounters, hslot, htile, hb, hu, hcycle, hestimates⟩ := mstat_reads hmem hwf (region_le_statusKey f c) hslots htiles hst
      rw [hbudget] at hb
      rw [hused] at hu
      rw [issued_cycle] at hcycle
      exact ⟨t, q, g, hnext, hout, hid, hkind, hdue, hwrites, hcounters, hslot, htile, hb, hu, hcycle, hestimates,
        fun b hholds hvalid => hmem ▸ written_frame (x := ⟨0, 0, _, statusKey f c, 128, ⟨.bench, c.grp.core⟩⟩)
          (length_statusRecord _ _) hholds hvalid, hgroup, hcleared⟩

end Sys2Proof.Laws
end

section
/-! SUPPORT. CPY and GATHER (R177 to R180): the block that they read, the checks they share, and the command that is launched with its
operation and its follow-on's. -/

namespace Sys2Proof.Laws

open Sys2Proof.Machine

variable {i : Instr} {c : Issuer} {s t u : State} {f : XFmt}

/-! ## The block -/

theorem blockAt_noted {n a : Nat} {b : List Byte} {low : Option Nat} {s0 : State} (h : blockAt c f n s = .ok (a, b, low, s0)) :
    Noted s s0 := by
  unfold blockAt at h
  extract_lets addr at h
  have hrace := Noted.raceCheck (s := s) c.ref.gid c.ref.wid s.fresh c.split.held [benchSpot c.grp addr n]
  generalize benchFault c addr n 64 = fault, benchRead s c.grp addr n = found, s.raceCheck _ _ _ _ _ = r,
    c.warp.fpctl.getLsbD 4 = warn at h hrace
  clear_value addr
  cases fault with
  | some t => cases h
  | none =>
    obtain ⟨bs, un⟩ := found
    dsimp only at h
    split at h
    · cases h
    · cases h
      exact hrace

/-- A block that reads well is the same block where it is read with the warning that it may give. -/
theorem readBlock_ok {n a : Nat} {b : List Byte} {s1 : State} (h : readBlock c f n s = .ok (a, b, s1)) :
    ∃ low s0, blockAt c f n s = .ok (a, b, low, s0) ∧ Noted s s0 ∧ Noted s0 s1 := by
  unfold readBlock at h
  split at h
  · cases h
  · rename_i a' b' low s0 hblock
    cases h
    refine ⟨low, s0, hblock, blockAt_noted hblock, ?_⟩
    split
    · exact .scrivWarp ..
    · exact .refl _

/-! ## The checks -/

theorem objFault_none {e : List Byte} {bad : Bool} (hobj : objFault s i c e = none) (hkeys : u.keys = s.keys) (hbad : bad = false) :
    objFault u i c e bad = none := by
  have hholds : u.holdsKey c e = s.holdsKey c e := by rw [State.holdsKey, hkeys]; rfl
  subst hbad
  unfold objFault at *
  rw [hholds]
  split at hobj
  · cases hobj
  · split at hobj
    · cases hobj
    · simp_all

theorem fieldFault_none {a : Nat} {bad : List (Bool × Nat)} (h : ∀ p ∈ bad, p.1 = false) : fieldFault c a bad = none := by
  rw [fieldFault, lowest_none.2 h]; rfl

theorem tailBad_good {b : List Byte} (h : TailGood c b) : ∀ p ∈ tailBad c b, p.1 = false := by
  obtain ⟨hbarrier, hword, hqueue⟩ := h
  simp only [tailBad, List.mem_cons, List.not_mem_nil, or_false, forall_eq_or_imp, forall_eq]
  refine ⟨?_, ?_, ?_⟩
  · rcases hbarrier with h | ⟨h1, h2⟩
    · simp [h]
    · simp [h1, Nat.not_lt.2 h2]
  · simp [hword]
  · rcases hqueue with h | h
    · simp [Nat.not_le.2 h]
    · simp [h]

@[simp] theorem firstFault_nil : firstFault [] = none := rfl
@[simp] theorem firstFault_none (r : List (Option TrapInfo)) : firstFault (none :: r) = firstFault r := rfl
@[simp] theorem firstFault_some (t : TrapInfo) (r : List (Option TrapInfo)) : firstFault (some t :: r) = some t := rfl

/-! ## The launch -/

/-- A group whose store buffer a commit has taken, as entries that drain. -/
def drained (gid cid : Nat) (agent : Option (Nat × Mask)) (g : Group) : Group :=
  { g with sbuf := [], draining := g.draining ++ drainEntries g gid cid agent g.sbuf }

theorem commit_eq {gid : Nat} {g : Group} (hg : u.group? gid = some g) (agent : Option (Nat × Mask)) : u.commit gid agent =
    { u with fresh := u.fresh + 1, groups := fmod gid (drained gid u.fresh agent) u.groups,
             crews := fmod g.crew (fun k => { k with exposed := true }) u.crews } := by
  unfold State.commit
  rw [hg]
  rfl

/-- What a commit leaves alone. -/
theorem commitFor_keeps (mem : Bool) {g : Group} (hg : u.group? c.ref.gid = some g) :
    (commitFor c mem u).1.warps = u.warps ∧ (commitFor c mem u).1.mem = u.mem ∧ (commitFor c mem u).1.cores = u.cores ∧
    u.fresh ≤ (commitFor c mem u).1.fresh := by
  cases mem with
  | false => exact ⟨rfl, rfl, rfl, le_rfl⟩
  | true =>
    rw [commitFor, if_pos rfl, commit_eq hg]
    exact ⟨rfl, rfl, rfl, Nat.le_succ _⟩

/-- A commit takes the store buffer; slots stand. -/
theorem commitFor_group (mem : Bool) {g : Group} (hg : u.group? c.ref.gid = some g) :
    ∃ h, (commitFor c mem u).1.group? c.ref.gid = some h ∧ (∀ j, h.slot j = g.slot j) ∧ (mem = true → h.sbuf = []) := by
  cases mem with
  | false => exact ⟨g, hg, fun _ => rfl, fun h => Bool.noConfusion h⟩
  | true =>
    rw [commitFor, if_pos rfl, commit_eq hg]
    refine ⟨_, (flook_fmod_self ..).trans (congrArg (Option.map _) hg), fun _ => rfl, fun _ => rfl⟩

/-- What a launch leaves: the operation, the command at the end of the engine's list, and of the rest what the commit leaves. -/
theorem launch_commands (hi : s.issuer = some c) (he : (c.profile i).head.ends = false) (mem : Bool) (mk : Nat → ECmd)
    (hwarps : u.warps = (issued i c s).warps) (hmem : u.mem = s.mem) (hfresh : s.fresh ≤ u.fresh)
    {g : Group} (hgroup : u.group? c.ref.gid = some g) (hengine : (u.core c.grp.core).engine = (s.core c.grp.core).engine) :
    ∃ q cid, OwnWarp i c s (launch i c mem mk u) q ∧ OtherWarps c s (launch i c mem mk u) ∧ (launch i c mem mk u).mem = s.mem ∧
      q.kind = .engine ∧ (launch i c mem mk u).fresh = q.id + 1 ∧
      ((launch i c mem mk u).core c.grp.core).engine = (s.core c.grp.core).engine ++ [{ mk q.id with cid := cid }] ∧
      (launch i c mem mk u).groups = (commitFor c mem u).1.groups := by
  obtain ⟨hv, hm, hc, hf⟩ := commitFor_keeps (c := c) (u := u) mem hgroup
  have hlaunch : launch i c mem mk u = ((commitFor c mem u).1.addPend c i
      { id := 0, kind := .engine, ent := 0, lanes := 0, cover := if mem then some (commitFor c mem u).2 else none }).addCmd c.grp.core
      { mk (commitFor c mem u).1.fresh with cid := (commitFor c mem u).2 } := rfl
  obtain ⟨hown, hothers⟩ := ownWarp_addPend (t := launch i c mem mk u) hi he (hv.trans hwarps) (hfresh.trans hf) (by rw [hlaunch]; rfl)
  refine ⟨_, (commitFor c mem u).2, hown, hothers, ?_, rfl, ?_, ?_, ?_⟩
  · rw [hlaunch, addCmd_mem, addPend_mem, hm, hmem]
  · rw [hlaunch]; rfl
  · rw [hlaunch, State.addCmd, modCore_self, addPend_core, State.core, hc, ← State.core, hengine]; rfl
  · rw [hlaunch, addCmd_groups, addPend_groups]

end Sys2Proof.Laws
end

section
/-! SUPPORT. What CPY and GATHER share (R108, R177 to R180): the checks in their order, and the launch with the follow-on announced. -/

namespace Sys2Proof.Laws

open Sys2Proof.Machine

variable {i : Instr} {c : Issuer} {s t u : State} {f : XFmt}

/-- The slot that a copy fills, if it fills one. -/
def copySlot (f : XFmt) (c : Issuer) (u : State) : State := if copyDst f = 1 then u.modGroup c.ref.gid (fillSlot f) else u

/-- A copy's command, before its instruction adds what is its own. -/
def copyCmd (f : XFmt) (c : Issuer) (b e : List Byte) (a : Nat) (u : State) (pid : Nat) : ECmd :=
  { bareEngine c .cpy f e b a pid with
    dst := match copyDst f with
      | 0 => 0 | 1 => 5 | _ => 4,
    lslot := f.slota.toNat, slot := (c.grp.slot f.slota.toNat).phys, fmta := f.fmta.toNat, sp := copySparse f,
    needs := if copyDst f = 1 then slotReaders u c.grp.core c.ref.gid f.slota.toNat else [],
    follow := if copyFollow f then some (fieldNat b 32 12) else none }

/-- The copy launched. -/
def copied (i : Instr) (f : XFmt) (mem : Bool) (mk : ECmd → ECmd) (a : Nat) (b e : List Byte) (c : Issuer) (u : State) : State :=
  launch i c mem (fun pid => mk (copyCmd f c b e a u pid)) (copySlot f c u)

/-- What the copy's slot refuses. -/
def copyRefused (f : XFmt) (c : Issuer) : Option TrapInfo :=
  if copyDst f = 1 then (badSlot c.grp (fun st => st = 0 || st = 2) [f.slota.toNat]).map (c.precise 0x11 ·) else none

theorem copyRefused_none (h : copyDst f = 1 → (c.grp.slot f.slota.toNat).state ≠ 0 ∧ (c.grp.slot f.slota.toNat).state ≠ 2) :
    copyRefused f c = none := by
  unfold copyRefused
  split
  · rename_i hd
    rw [badSlot_one_good (h hd).1 (h hd).2]
    rfl
  · rfl

theorem copyRefused_some (hd : copyDst f = 1) (h : (c.grp.slot f.slota.toNat).state = 0 ∨ (c.grp.slot f.slota.toNat).state = 2) :
    copyRefused f c = some (c.precise 0x11 (f.slota.toNat + (c.grp.slot f.slota.toNat).state * 512)) := by
  rw [copyRefused, if_pos hd, badSlot_one_bad h]
  rfl

section checks
variable {mem : Bool} {bad : List (Bool × Nat)} {mk : ECmd → ECmd} {a : Nat} {b e : List Byte}
  (hobj : objFault u i c e (copyDst f = 2 && objDraft e = 0) = none) (hfields : fieldFault c a (bad ++ tailBad c b) = none)
include hobj hfields

theorem copyEff_follow {op r : Nat} (hf : copyFollow f = true) (hbad : followOf c.grp b = .error (op, r)) :
    copyEff i f mem bad mk a b e c u = .error (c.precise 0x01 (op * 16 + r)) := by
  simp only [copyEff, hobj, hfields, hf, hbad, if_true, firstFault_none, firstFault_some]

theorem copyEff_slot (hf : copyFollow f = true → ∃ j, followOf c.grp b = .ok j) {x : TrapInfo} (hslot : copyRefused f c = some x) :
    copyEff i f mem bad mk a b e c u = .error x := by
  unfold copyRefused at hslot
  cases hfol : copyFollow f with
  | false => simp only [copyEff, hobj, hfields, hfol, hslot, Bool.false_eq_true, if_false, firstFault_none, firstFault_some]
  | true =>
    obtain ⟨j, hj⟩ := hf hfol
    simp only [copyEff, hobj, hfields, hfol, hj, hslot, if_true, firstFault_none, firstFault_some]

theorem copyEff_plain (hf : copyFollow f = false) (hslot : copyRefused f c = none) :
    copyEff i f mem bad mk a b e c u = .ok (copied i f mem mk a b e c u) := by
  unfold copyRefused at hslot
  simp only [copyEff, hobj, hfields, hf, hslot, Bool.false_eq_true, if_false, firstFault_none, firstFault_nil, copied, copyCmd]
  rfl

theorem copyEff_announced {j : Instr} (hf : copyFollow f = true) (hj : followOf c.grp b = .ok j) (hslot : copyRefused f c = none) :
    copyEff i f mem bad mk a b e c u = .ok (announce c j (copied i f mem mk a b e c u)) := by
  unfold copyRefused at hslot
  simp only [copyEff, hobj, hfields, hf, hj, hslot, if_true, firstFault_none, firstFault_nil, copied, copyCmd]
  rfl

end checks

/-! ## The operations -/

theorem copySlot_group {g : Group} (hg : u.group? c.ref.gid = some g) : ∃ h, (copySlot f c u).group? c.ref.gid = some h ∧
    ∀ j, h.slot j = if copyDst f = 1 ∧ j = f.slota.toNat then { g.slot j with state := 2 } else g.slot j := by
  unfold copySlot
  split
  · rename_i hd
    refine ⟨fillSlot f g, by rw [modGroup_self, hg]; rfl, fun j => ?_⟩
    rw [fillSlot, withSlot_slot]
    by_cases hj : j = f.slota.toNat
    · subst hj; simp [hd]
    · simp [hj]
  · rename_i hd
    exact ⟨g, hg, fun j => by simp [hd]⟩

theorem copySlot_keeps (f : XFmt) (c : Issuer) (u : State) : (copySlot f c u).warps = u.warps ∧ (copySlot f c u).mem = u.mem ∧
    (copySlot f c u).fresh = u.fresh ∧ (copySlot f c u).cores = u.cores := by
  unfold copySlot
  split <;> exact ⟨rfl, rfl, rfl, rfl⟩

/-- What a launched copy leaves: its operation, its command, and its group with the slot that it fills marked. -/
theorem copied_leaves (hi : s.issuer = some c) (he : (c.profile i).head.ends = false) (hu : Noted (issued i c s) u) (mem : Bool)
    (mk : ECmd → ECmd) (a : Nat) (b e : List Byte) :
    ∃ q cid g, OwnWarp i c s (copied i f mem mk a b e c u) q ∧ OtherWarps c s (copied i f mem mk a b e c u) ∧
      (copied i f mem mk a b e c u).mem = s.mem ∧ q.kind = .engine ∧ (copied i f mem mk a b e c u).fresh = q.id + 1 ∧
      ((copied i f mem mk a b e c u).core c.grp.core).engine =
        (s.core c.grp.core).engine ++ [{ mk (copyCmd f c b e a u q.id) with cid := cid }] ∧
      (copied i f mem mk a b e c u).group? c.ref.gid = some g ∧ (mem = true → g.sbuf = []) ∧
      ∀ j, g.slot j = if copyDst f = 1 ∧ j = f.slota.toNat then { c.grp.slot j with state := 2 } else c.grp.slot j := by
  obtain ⟨-, hg, -, -, -⟩ := issuer_some hi
  obtain ⟨g0, hg0, honly⟩ := rel_some (hu.group c.ref.gid) (a := c.grp) (by rw [issued_group]; exact hg)
  obtain ⟨g1, hg1, hslot1⟩ := copySlot_group (f := f) hg0
  obtain ⟨g2, hg2, hslot2, hsbuf⟩ := commitFor_group (c := c) mem hg1
  obtain ⟨hwarps, hmem, hfresh, hcores⟩ := copySlot_keeps f c u
  have hengine : ((copySlot f c u).core c.grp.core).engine = (s.core c.grp.core).engine := by
    rw [State.core, hcores, ← State.core, (hu.core _).engine, issued_engine he]
  obtain ⟨q, cid, hown, hothers, hm, hkind, hid, heng, hgroups⟩ := launch_commands (u := copySlot f c u) hi he mem
    (fun pid => mk (copyCmd f c b e a u pid)) (hwarps.trans hu.warps) (by rw [hmem, hu.mem, issued_mem])
    (by rw [hfresh, hu.fresh, issued_fresh]) hg1 hengine
  refine ⟨q, cid, g2, hown, hothers, hm, hkind, hid, heng, ?_, hsbuf, fun j => ?_⟩
  · rw [copied, State.group?, hgroups]; exact hg2
  · rw [hslot2, hslot1, show g0.slot j = c.grp.slot j by rw [show g0 = _ from honly]; rfl]

/-- The state in which a follow-on's operation becomes outstanding: its post flag has risen with the copy's issue. -/
def followPosted (c : Issuer) (j : Instr) (t : State) : State :=
  (t.modWarp c.ref.gid c.ref.wid (·.post (postFlag (c.profile j).head.post))).modSplit c.ref fun x =>
    { x with run := { x.run with posted := x.run.posted ||| flagBit (postFlag (c.profile j).head.post) } }

/-- The follow-on's operation stands beside the copy's. -/
theorem announce_outstanding {j : Instr} {q : Pend} (h : Outstanding c t q) : ∃ r, Outstanding c (announce c j t) q ∧
    Outstanding c (announce c j t) r ∧ r.id = t.fresh ∧ r.kind = .engine ∧ r.flag = postFlag (c.profile j).head.post := by
  obtain ⟨w, hw, hq, hvregs, hsregs, hpreds⟩ := h
  obtain ⟨hp, hv, hs, hpr⟩ := post_keeps w (postFlag (c.profile j).head.post)
  have hposted : ∃ v, (followPosted c j t).warp? c.ref.gid c.ref.wid = some v ∧ v.pend = w.pend ∧ v.vregs = w.vregs ∧
      v.sregs = w.sregs ∧ v.preds = w.preds := by
    refine ⟨_, by rw [followPosted, State.modSplit, modWarp_self, modWarp_self, hw]; rfl, ?_, ?_, ?_, ?_⟩
    exacts [hp, hv, hs, hpr]
  obtain ⟨v, hwarp, hpend, hvv, hsv, hpv⟩ := hposted
  have hself : (announce c j t).warp? c.ref.gid c.ref.wid = some { v with pend := v.pend ++
      [pendOf (followPosted c j t) c j { id := 0, kind := .engine, ent := 0, lanes := 0 }] } :=
    (modWarp_self ..).trans (congrArg (Option.map _) hwarp)
  exact ⟨_, ⟨_, hself, List.mem_append_left _ (hpend ▸ hq), hvv.trans hvregs, hsv.trans hsregs, hpv.trans hpreds⟩,
    ⟨_, hself, List.mem_append_right _ List.mem_cons_self, hvv.trans hvregs, hsv.trans hsregs, hpv.trans hpreds⟩, rfl, rfl, rfl⟩

theorem announce_mem (j : Instr) (t : State) : (announce c j t).mem = t.mem := rfl
theorem announce_core (j : Instr) (t : State) (k : Nat) : (announce c j t).core k = t.core k := rfl
theorem announce_group (j : Instr) (t : State) (k : Nat) : (announce c j t).group? k = t.group? k := rfl

theorem outstanding_ownWarp {q : Pend} (h : OwnWarp i c s t q) : Outstanding c t q := by
  obtain ⟨⟨w, hw, heq, -, -⟩, -⟩ := h
  exact ⟨w, hw, by rw [heq]; exact List.mem_append_right _ List.mem_cons_self, by rw [heq], by rw [heq], by rw [heq]⟩

/-! ## The instructions -/

section copy
variable {ck : Issuer → Ck} {eff : Issuer → State → Except TrapInfo State} {mem : Bool} {bad : List (Bool × Nat)} {mk : ECmd → ECmd} {a : Nat}
  {b e : List Byte} (h : MayIssue i c s) (hx : exec i s = issue i ck eff s) (hp : commitPoint i = pointOf i c s) (hk : ck c = checks i c)
  (heff : eff c (issued i c s) = copyEff i f mem bad mk a b e c u)
  (hobj : objFault u i c e (copyDst f = 2 && objDraft e = 0) = none) (hfields : fieldFault c a (bad ++ tailBad c b) = none)
include h hx hp hk heff hobj hfields

theorem copy_follow_traps (op r : Nat) (hf : copyFollow f = true) (hbad : followOf c.grp b = .error (op, r)) : Traps i c s 0x01 (op * 16 + r) :=
  issue_trap h hx hp hk (heff.trans (copyEff_follow hobj hfields hf hbad))

theorem copy_slot_traps (hf : copyFollow f = true → ∃ j, followOf c.grp b = .ok j) (hd : copyDst f = 1)
    (hst : (c.grp.slot f.slota.toNat).state = 0 ∨ (c.grp.slot f.slota.toNat).state = 2) :
    Traps i c s 0x11 (f.slota.toNat + (c.grp.slot f.slota.toNat).state * 512) :=
  issue_trap h hx hp hk (heff.trans (copyEff_slot hobj hfields hf (copyRefused_some hd hst)))

section launched
variable (he : (c.profile i).head.ends = false) (hu : Noted (issued i c s) u)
  (hst : copyDst f = 1 → (c.grp.slot f.slota.toNat).state ≠ 0 ∧ (c.grp.slot f.slota.toNat).state ≠ 2)
include he hu hst

/-- A copy without a follow-on. -/
theorem copy_launches (hf : copyFollow f = false) : ∃ t q cid, exec i s = .next t ∧ OwnWarp i c s t q ∧ OtherWarps c s t ∧ t.mem = s.mem ∧
    q.kind = .engine ∧
    (t.core c.grp.core).engine = (s.core c.grp.core).engine ++ [{ mk (copyCmd f c b e a u q.id) with cid := cid }] := by
  obtain ⟨q, cid, g, hown, hothers, hmem, hkind, -, hengine, -, -, -⟩ := copied_leaves (f := f) h.issuer he hu mem mk a b e
  exact ⟨_, q, cid, issue_next h hx hp hk (heff.trans (copyEff_plain hobj hfields hf (copyRefused_none hst))), hown, hothers, hmem, hkind, hengine⟩

/-- A copy with its follow-on announced. -/
theorem copy_announces {j : Instr} (hf : copyFollow f = true) (hj : followOf c.grp b = .ok j) : ∃ t q r cid, exec i s = .next t ∧
    Outstanding c t q ∧ Outstanding c t r ∧ t.mem = s.mem ∧ r.id = q.id + 1 ∧ r.kind = .engine ∧ r.flag = postFlag (c.profile j).head.post ∧
    q.kind = .engine ∧ q.flag = postFlag (c.profile i).head.post ∧
    (t.core c.grp.core).engine = (s.core c.grp.core).engine ++ [{ mk (copyCmd f c b e a u q.id) with cid := cid }] := by
  obtain ⟨q, cid, g, hown, -, hmem, hkind, hid, hengine, -, -, -⟩ := copied_leaves (f := f) h.issuer he hu mem mk a b e
  obtain ⟨r, hq, hr, hrid, hrkind, hrflag⟩ := announce_outstanding (j := j) (outstanding_ownWarp hown)
  obtain ⟨-, -, -, hflag⟩ := hown.op
  refine ⟨_, q, r, cid, issue_next h hx hp hk (heff.trans (copyEff_announced hobj hfields hf hj (copyRefused_none hst))), hq, hr, ?_, ?_,
    hrkind, hrflag, hkind, hflag, ?_⟩
  · rw [announce_mem, hmem]
  · rw [hrid, hid]
  · rw [announce_core, hengine]

/-- With or without a follow-on, a commit has taken the store buffer and the slot is LOADING. -/
theorem copy_group (hf : copyFollow f = true → ∃ j, followOf c.grp b = .ok j) : ∃ t g, exec i s = .next t ∧ t.group? c.ref.gid = some g ∧
    (mem = true → g.sbuf = []) ∧
    ∀ j, g.slot j = if copyDst f = 1 ∧ j = f.slota.toNat then { c.grp.slot j with state := 2 } else c.grp.slot j := by
  obtain ⟨q, cid, g, -, -, -, -, -, -, hgroup, hsbuf, hslots⟩ := copied_leaves (f := f) h.issuer he hu mem mk a b e
  cases hfol : copyFollow f with
  | false => exact ⟨_, g, issue_next h hx hp hk (heff.trans (copyEff_plain hobj hfields hfol (copyRefused_none hst))), hgroup, hsbuf, hslots⟩
  | true =>
    obtain ⟨j, hj⟩ := hf hfol
    exact ⟨_, g, issue_next h hx hp hk (heff.trans (copyEff_announced hobj hfields hfol hj (copyRefused_none hst))),
      (announce_group ..).trans hgroup, hsbuf, hslots⟩

end launched

/-- All that a copy does: holds is what its block says of the command, early whether it commits first. -/
theorem copy_claims (he : (c.profile i).head.ends = false) (hpost : (c.profile i).head.post = f.post) (hu : Noted (issued i c s) u)
    {holds : ECmd → Prop} (hholds : ∀ q cid, holds { mk (copyCmd f c b e a u q) with cid := cid }) {early : Prop} (hearly : early → mem = true)
    (hmk : ∀ x : ECmd, x.kind = .cpy → ((mk x).kind = .cpy ∨ (mk x).kind = .gather) ∧
      mk x = { mk x with id := x.id, pid := x.pid, gid := x.gid, wid := x.wid, lanes := x.lanes, fault := x.fault, follow := x.follow }) :
    (∀ op r, copyFollow f = true → followOf c.grp b = .error (op, r) → Traps i c s 0x01 (op * 16 + r)) ∧
    ((copyFollow f = true → ∃ j, followOf c.grp b = .ok j) → copyDst f = 1 →
      (c.grp.slot f.slota.toNat).state = 0 ∨ (c.grp.slot f.slota.toNat).state = 2 →
      Traps i c s 0x11 (f.slota.toNat + (c.grp.slot f.slota.toNat).state * 512)) ∧
    ((copyDst f = 1 → (c.grp.slot f.slota.toNat).state ≠ 0 ∧ (c.grp.slot f.slota.toNat).state ≠ 2) →
      (copyFollow f = false → ∃ x, Commands i c s x ∧ holds x ∧ x.follow = none) ∧
      (∀ j, copyFollow f = true → followOf c.grp b = .ok j → ∃ t q r x, exec i s = .next t ∧ Outstanding c t q ∧ Outstanding c t r ∧
        t.mem = s.mem ∧ r.id = q.id + 1 ∧ r.kind = .engine ∧ r.flag = postFlag (c.profile j).head.post ∧ q.kind = .engine ∧
        q.flag = postFlag f.post ∧ (t.core c.grp.core).engine = (s.core c.grp.core).engine ++ [x] ∧ x.pid = q.id ∧ holds x ∧
        x.follow = some (fieldNat b 32 12)) ∧
      ((copyFollow f = true → ∃ j, followOf c.grp b = .ok j) → ∃ t g, exec i s = .next t ∧ t.group? c.ref.gid = some g ∧
        (early → g.sbuf = []) ∧
        ∀ j, g.slot j = if copyDst f = 1 ∧ j = f.slota.toNat then { c.grp.slot j with state := 2 } else c.grp.slot j)) := by
  refine ⟨copy_follow_traps h hx hp hk heff hobj hfields, copy_slot_traps h hx hp hk heff hobj hfields,
    fun hst => ⟨fun hf => ?plain, fun j hf hj => ?follow, fun hf => ?group⟩⟩
  case plain =>
    obtain ⟨t, q, cid, hnext, hown, hothers, hmem, hkind, hengine⟩ := copy_launches h hx hp hk heff hobj hfields he hu hst hf
    obtain ⟨hkinds, heq⟩ := hmk (copyCmd f c b e a u q.id) rfl
    refine ⟨_, ⟨t, q, hnext, hown, hothers, hmem, hkind, hengine, ?_, ?_, ?_, ?_, ?_, ?_⟩, hholds q.id cid, ?_⟩
    · rw [heq]; rfl
    · rw [heq]; rfl
    · rw [heq]; rfl
    · rw [heq]; rfl
    · rw [heq]; rfl
    · rw [show ({ mk (copyCmd f c b e a u q.id) with cid := cid } : ECmd).fault = none by rw [heq]; rfl]
      rcases hkinds with hk | hk <;> simp [hk]
    · rw [heq]; simp [copyCmd, hf]
  case follow =>
    obtain ⟨t, q, r, cid, hnext, hq, hr, hmem, hid, hrkind, hrflag, hkind, hflag, hengine⟩ :=
      copy_announces h hx hp hk heff hobj hfields he hu hst hf hj
    obtain ⟨-, heq⟩ := hmk (copyCmd f c b e a u q.id) rfl
    refine ⟨t, q, r, _, hnext, hq, hr, hmem, hid, hrkind, hrflag, hkind, hpost ▸ hflag, hengine, ?_, hholds q.id cid, ?_⟩
    · rw [heq]; rfl
    · rw [heq]; simp [copyCmd, hf]
  case group =>
    obtain ⟨t, g, hnext, hgroup, hsbuf, hslots⟩ := copy_group h hx hp hk heff hobj hfields he hu hst hf
    exact ⟨t, g, hnext, hgroup, fun h => hsbuf (hearly h), hslots⟩

end copy

/-- What the block of a CPY, and of a GATHER, gives its command. -/
def cpyFill (f : XFmt) (b : List Byte) (x : ECmd) : ECmd :=
  { x with src := f.func.toNat % 4 + 1, srcA := fieldNat b 0 8, dstA := fieldNat b 8 8, len := fieldNat b 16 4, hdrA := fieldNat b 20 8,
           hdrLen := if copyDst f = 1 then headerBytes f.fmta.toNat else 0 }
def gatherFill (f : XFmt) (c : Issuer) (b : List Byte) (low : Option Nat) (x : ECmd) : ECmd :=
  { x with kind := .gather, src := 4, srcA := fieldNat b 0 8, dstA := fieldNat b 8 8, len := fieldNat b 24 4 * fieldNat b 20 4,
           total := fieldNat b 24 4, unw := low, hdrA := fieldNat b 16 4, pitch := (c.env.ssrc f.pb).toNat }

/-- What they refuse of their blocks, beside the common tail. -/
def cpyBad (f : XFmt) (b : List Byte) : List (Bool × Nat) :=
  [(fieldNat b 8 8 % 16 != 0 || (copyDst f = 1 && fieldNat b 8 8 != 0), 8),
   (fieldNat b 16 4 = 0 || fieldNat b 16 4 % 16 != 0 || (copyDst f = 1 && fieldNat b 16 4 != 12288), 16),
   (fieldNat b 20 8 % 16 != 0 || (copyDst f != 1 && fieldNat b 20 8 != 0), 20)]
def gatherBad (f : XFmt) (b : List Byte) : List (Bool × Nat) :=
  [(fieldNat b 8 8 % 16 != 0 || (copyDst f = 1 && fieldNat b 8 8 != 0), 8), (fieldNat b 16 4 % 4 != 0, 16),
   (fieldNat b 20 4 = 0 || 65536 < fieldNat b 20 4 || (copyDst f = 1 && fieldNat b 24 4 * fieldNat b 20 4 != 12288), 20),
   (fieldNat b 24 4 < 16 || 65536 < fieldNat b 24 4 || fieldNat b 24 4 % 16 != 0, 24)]

theorem cpyBad_good {b : List Byte} (hdst : fieldNat b 8 8 % 16 = 0) (hslot : copyDst f = 1 → fieldNat b 8 8 = 0 ∧ fieldNat b 16 4 = 12288)
    (hlen : 0 < fieldNat b 16 4 ∧ fieldNat b 16 4 % 16 = 0) (hhead : fieldNat b 20 8 % 16 = 0 ∧ (copyDst f ≠ 1 → fieldNat b 20 8 = 0)) :
    ∀ p ∈ cpyBad f b, p.1 = false := by
  obtain ⟨h0, h16⟩ := hlen
  obtain ⟨hh, hnone⟩ := hhead
  simp only [cpyBad, List.mem_cons, List.not_mem_nil, or_false, forall_eq_or_imp, forall_eq, hdst, h16, hh, Nat.pos_iff_ne_zero.1 h0]
  by_cases hd : copyDst f = 1
  · obtain ⟨hz, hl⟩ := hslot hd
    simp [hd, hz, hl]
  · simp [hd, hnone hd]

theorem gatherBad_good {b : List Byte} (hdst : fieldNat b 8 8 % 16 = 0)
    (hslot : copyDst f = 1 → fieldNat b 8 8 = 0 ∧ fieldNat b 24 4 * fieldNat b 20 4 = 12288) (hlist : fieldNat b 16 4 % 4 = 0)
    (hcount : 0 < fieldNat b 20 4 ∧ fieldNat b 20 4 ≤ 65536)
    (hrow : 16 ≤ fieldNat b 24 4 ∧ fieldNat b 24 4 ≤ 65536 ∧ fieldNat b 24 4 % 16 = 0) : ∀ p ∈ gatherBad f b, p.1 = false := by
  obtain ⟨h0, hmax⟩ := hcount
  obtain ⟨hmin, hrmax, h16⟩ := hrow
  simp only [gatherBad, List.mem_cons, List.not_mem_nil, or_false, forall_eq_or_imp, forall_eq, hdst, hlist, h16, Nat.pos_iff_ne_zero.1 h0,
    Nat.not_lt.2 hmax, Nat.not_lt.2 hmin, Nat.not_lt.2 hrmax]
  by_cases hd : copyDst f = 1
  · obtain ⟨hz, hl⟩ := hslot hd
    simp [hd, hz, hl]
  · simp [hd]

theorem copyCmd_dst (f : XFmt) (c : Issuer) (b e : List Byte) (a : Nat) (u : State) (pid : Nat) :
    (copyCmd f c b e a u pid).dst = if copyDst f = 0 then 0 else if copyDst f = 1 then 5 else 4 := by
  unfold copyCmd
  simp only []
  split <;> simp_all

theorem cpyEff_eq {a : Nat} {b : List Byte} {s1 : State} (h : readBlock c f 64 u = .ok (a, b, s1)) : cpyEff f c u =
    copyEff (.cpy f) f (2 ≤ f.func.toNat % 4) (cpyBad f b) (cpyFill f b) a b (u.objEntry c.task.asid f.obj.toNat) c s1 := by
  simp only [cpyEff, h]
  rfl

theorem gatherEff_eq {a : Nat} {b : List Byte} {low : Option Nat} {s0 : State} (h : blockAt c f 64 u = .ok (a, b, low, s0)) : gatherEff f c u =
    copyEff (.gather f) f true (gatherBad f b) (gatherFill f c b low) a b (u.objEntry c.task.asid f.obj.toNat) c s0 := by
  simp only [gatherEff, h]
  rfl

end Sys2Proof.Laws
end

section
/-! THEOREMS. Copies. -/

namespace Sys2Proof.Laws

open Sys2Proof.Machine

/-- Settles O37: CPY and GATHER are one copy with a block of their own. -/
theorem copiesLaunch : Obligations.CopiesLaunch := by
  unfold Obligations.CopiesLaunch
  intro gather f c s b s1 i e dst k row len good holds h hblock hobj hgood hdraft
  obtain ⟨hread, htail⟩ := hblock
  obtain ⟨low, s0, hat, hs0, hs1⟩ := readBlock_ok hread
  have hentry : s1.objEntry c.task.asid f.obj.toNat = (issued i c s).objEntry c.task.asid f.obj.toNat := (hs0.trans hs1).objEntry ..
  have hbad : (copyDst f = 2 && objDraft e = 0) = false := by
    by_cases hd : copyDst f = 2
    · simp [hd, hdraft hd]
    · simp [hd]
  cases gather with
  | false =>
    obtain ⟨-, hdst, hslot, hlen0, hlen, hhead, hnone⟩ := hgood
    have hfields : fieldFault c (c.env.ssrc f.pa).toNat (cpyBad f b ++ tailBad c b) = none := fieldFault_none fun p hp =>
      (List.mem_append.1 hp).elim (cpyBad_good hdst hslot ⟨hlen0, hlen⟩ ⟨hhead, hnone⟩ p) (tailBad_good htail p)
    have hmine := objFault_none (u := s1) hobj rfl hbad
    have heff : cpyEff f c (issued (.cpy f) c s) = _ := (cpyEff_eq hread).trans (by rw [← hentry])
    have hholds : ∀ q cid, holds { cpyFill f b (copyCmd f c b e (c.env.ssrc f.pa).toNat s1 q) with cid := cid } := fun q cid =>
      ⟨rfl, rfl, rfl, rfl, rfl, rfl, rfl, copyCmd_dst f c b e (c.env.ssrc f.pa).toNat s1 q, rfl, rfl, rfl, rfl⟩
    exact copy_claims (ck := fun c => ckCopy c f false ++ ([(f.func.toNat % 4 = 3 && copyDst f = 2, 2)] : Ck)) h rfl rfl rfl heff hmine hfields
      rfl rfl (hs0.trans hs1) hholds (fun hmem => decide_eq_true (hmem.resolve_left Bool.false_ne_true)) fun x hx => ⟨.inl hx, rfl⟩
  | true =>
    obtain ⟨-, hdst, hslot, hlist, hcount0, hcount, hrow0, hrow, hrow16⟩ := hgood
    have hfields : fieldFault c (c.env.ssrc f.pa).toNat (gatherBad f b ++ tailBad c b) = none := fieldFault_none fun p hp =>
      (List.mem_append.1 hp).elim (gatherBad_good hdst hslot hlist ⟨hcount0, hcount⟩ ⟨hrow0, hrow, hrow16⟩ p) (tailBad_good htail p)
    have hmine := objFault_none (u := s0) hobj hs1.keys.symm hbad
    have heff : gatherEff f c (issued (.gather f) c s) = _ := (gatherEff_eq hat).trans (by rw [← hentry])
    have hholds : ∀ q cid, holds { gatherFill f c b low (copyCmd f c b e (c.env.ssrc f.pa).toNat s0 q) with cid := cid } := fun q cid =>
      ⟨rfl, rfl, rfl, rfl, rfl, rfl, rfl, copyCmd_dst f c b e (c.env.ssrc f.pa).toNat s0 q, rfl, rfl, rfl, rfl, rfl⟩
    exact copy_claims (ck := fun c => ckCopy c f true ++ ckS1 c.env f.pb ++ ([(f.func.toNat % 4 != 0, 2)] : Ck)) h rfl rfl rfl heff hmine hfields
      rfl rfl hs0 hholds (fun _ => rfl) fun x _ => ⟨.inr rfl, rfl⟩

end Sys2Proof.Laws
end

section
/-! SUPPORT. How the array takes a command (R113, R124, R126, R128, R129): the only eligible head, what its queue keeps, and what each kind of
command starts. -/

namespace Sys2Proof.Laws

open Sys2Proof.Machine

variable {s : State} {core q n : Nat} {m : MCmd} {g : Group} {rest : List MCmd}

/-! ## Arbitration -/

/-- One of the five queues that alone has a head to offer. -/
theorem filterMap_only {α : Type} {f : Nat → Option α} {x : α} (hq : q < 5) (hf : f q = some x) (hother : ∀ p < 5, p ≠ q → f p = none) :
    (List.range 5).filterMap f = [x] := by
  have hcongr : (List.range 5).filterMap f = (List.range 5).filterMap fun p => if p = q then some x else none :=
    List.filterMap_congr fun p hp => by
      split
      · rename_i h; rw [h, hf]
      · rename_i h; exact hother p (List.mem_range.1 hp) h
  rw [hcongr]
  interval_cases q <;> rfl

theorem heads_only (hq : q < 5) (hqueue : flook q (s.core core).queues = some (m :: rest))
    (hothers : ∀ p < 5, p ≠ q → (flook p (s.core core).queues).getD [] = []) (hg : s.group? m.gid = some g) (he : eligible s core m = true) :
    heads s core = [(q, m, charge g m)] := by
  refine filterMap_only hq (by simp only [hqueue, he, if_true, hg, Option.map_some]) fun p hp hne => ?_
  have hempty := hothers p hp hne
  cases hl : flook p (s.core core).queues with
  | none => rfl
  | some l =>
    rw [hl] at hempty
    obtain rfl : l = [] := hempty
    rfl

theorem nextHead_only (hrun : (s.core core).running = none) (hfrom : (s.core core).arrayFrom ≤ s.cycle) (hq : q < 5)
    (hqueue : flook q (s.core core).queues = some (m :: rest)) (hothers : ∀ p < 5, p ≠ q → (flook p (s.core core).queues).getD [] = [])
    (hg : s.group? m.gid = some g) (he : eligible s core m = true) : nextHead s core = some (q, m, charge g m) := by
  simp [nextHead, hrun, Nat.not_lt.2 hfrom, heads_only hq hqueue hothers hg he, pickHead]

/-- What taking a head changes: its queue, the other heads' counts, and the charge. -/
theorem takeHead_core (s : State) (core q n : Nat) : (s.takeHead core q n).core core =
    { s.core core with used := (s.core core).used + n, queues := ((s.takeHead core q n).core core).queues } := by
  rw [State.takeHead, modCore_self]

theorem takeHead_queue (hqueue : flook q (s.core core).queues = some (m :: rest)) :
    flook q ((s.takeHead core q n).core core).queues = some rest := by
  rw [State.takeHead, modCore_self]
  refine (flook_map_key (fun p l => if p = q then l.drop 1 else if ((heads s core).map (·.1)).contains p then passHead l else l) q _).trans ?_
  rw [hqueue, Option.map_some, if_pos rfl]
  rfl

theorem takeHead_mem (s : State) (core q n : Nat) : (s.takeHead core q n).mem = s.mem := rfl
theorem takeHead_cycle (s : State) (core q n : Nat) : (s.takeHead core q n).cycle = s.cycle := rfl

/-! ## Starting -/

/-- The cycles in which a first provisional product copies its tile. -/
def copyWait (m : MCmd) : Nat := if m.first && m.sub = 0 then 16 else 0

theorem finishing_core (s : State) (core busy n : Nat) (m : MCmd) : (s.finishing core busy n m).core core =
    { s.core core with finishing := (s.core core).finishing ++ [{ m with ends := s.cycle + n }],
                       arrayFrom := max (s.core core).arrayFrom (s.cycle + busy) } := modCore_self ..
theorem finishing_mem (s : State) (core busy n : Nat) (m : MCmd) : (s.finishing core busy n m).mem = s.mem := rfl

/-- A tile's bytes and counters put in another's place, or nothing. -/
def tileCopied (copies : Bool) (copied : List Host.Cell) (gid tile : Nat) (src : Tile) (s : State) : State :=
  if copies then ({ s with mem := copied } : State).modTile gid tile fun x => { x with ovf := src.ovf, nan := src.nan } else s

section copied
variable (copies : Bool) (copied : List Host.Cell) (gid tile : Nat) (src : Tile) (s : State)

theorem tileCopied_core (k : Nat) : (tileCopied copies copied gid tile src s).core k = s.core k := by cases copies <;> rfl
theorem tileCopied_mem : (tileCopied copies copied gid tile src s).mem = if copies then copied else s.mem := by cases copies <;> rfl
theorem tileCopied_cycle : (tileCopied copies copied gid tile src s).cycle = s.cycle := by cases copies <;> rfl

end copied

/-- The tile of a first provisional product copied to its partner. -/
def seriesStarted (s : State) (core : Nat) (g : Group) (m : MCmd) : State :=
  tileCopied (m.first && m.sub = 0) (copyTile s.mem core (g.tileBase + m.tile + 1) (g.tileBase + m.tile)) m.gid (m.tile + 1) (g.tile m.tile) s

/-- A product that runs. -/
theorem startCmd_runs (hk : m.kind = .mma ∨ (m.kind = .mmas ∧ badMaskOf s.mem (m.opA core) = none)) : startCmd s core q g m =
    (seriesStarted s core g m).modCore core fun k =>
      { k with running := some (q, { m with ends := s.cycle + copyWait m - m.cycles s.stage * m.sub }) } := by
  rcases hk with hk | ⟨hk, hbad⟩
  · simp only [startCmd, hk, reduceCtorEq, if_false, seriesStarted, tileCopied, copyWait]
  · simp only [startCmd, hk, hbad, if_true, seriesStarted, tileCopied, copyWait]

/-- One with a bad mask takes the cycles of a subtile and does nothing. -/
theorem startCmd_stops {off : Nat} (hk : m.kind = .mmas) (hbad : badMaskOf s.mem (m.opA core) = some off) : startCmd s core q g m =
    (seriesStarted s core g m).finishing core (copyWait m + m.cycles s.stage) (copyWait m + m.cycles s.stage + 11)
      { m with badMask := some off } := by
  simp only [startCmd, hk, hbad, if_true, seriesStarted, tileCopied, copyWait]

theorem startCmd_keeps (s : State) (core q : Nat) (g : Group) (m : MCmd) : ((startCmd s core q g m).core core).queues = (s.core core).queues ∧
    ((startCmd s core q g m).core core).used = (s.core core).used := by
  have hfinish : ∀ busy n m, ((s.finishing core busy n m).core core).queues = (s.core core).queues ∧
      ((s.finishing core busy n m).core core).used = (s.core core).used := fun busy n m => by rw [finishing_core]; exact ⟨rfl, rfl⟩
  have hruns : m.kind = .mma ∨ (m.kind = .mmas ∧ badMaskOf s.mem (m.opA core) = none) →
      ((startCmd s core q g m).core core).queues = (s.core core).queues ∧ ((startCmd s core q g m).core core).used = (s.core core).used := by
    intro hk
    rw [startCmd_runs hk, modCore_self, seriesStarted, tileCopied_core]
    exact ⟨rfl, rfl⟩
  cases hk : m.kind with
  | mma => exact hruns (.inl hk)
  | mmas =>
    cases hbad : badMaskOf s.mem (m.opA core) with
    | none => exact hruns (.inr ⟨hk, hbad⟩)
    | some off =>
      rw [startCmd_stops hk hbad, finishing_core, seriesStarted, tileCopied_core]
      exact ⟨rfl, rfl⟩
  | mzero => simp only [startCmd, hk]; exact hfinish ..
  | mresolve => simp only [startCmd, hk]; exact hfinish ..
  | maccld => simp only [startCmd, hk]; exact hfinish ..
  | maccst => simp only [startCmd, hk]; exact hfinish ..

/-- The other commands take the array for their cycles and complete after them. -/
theorem startCmd_transfer (hk : (m.kind = .mzero ∧ n = 16) ∨ ((m.kind = .maccld ∨ m.kind = .maccst) ∧ n = 128) ∨ (m.kind = .mresolve ∧ n = 0)) :
    startCmd s core q g m = s.finishing core n n m := by
  rcases hk with ⟨hk, rfl⟩ | ⟨hk | hk, rfl⟩ | ⟨hk, rfl⟩ <;> simp only [startCmd, hk]

/-! ## A tile copied -/

theorem upper_tileKey (core tile i j : Nat) : 2 * gangBase ≤ tileKey core tile i j :=
  gang_le_region.trans (by unfold tileKey; omega)

theorem tileKey_eq (core tile i j : Nat) : tileKey core tile i j = tileKey core tile 0 0 + (i * 128 + j) * 4 := by unfold tileKey; omega

theorem copyTile_word {m : List Host.Cell} (hwf : Memory.wf m = true) (core dst src : Nat) {i j : Nat} (hi : i < 128) (hj : j < 128) :
    rdNat (copyTile m core dst src) (tileKey core dst i j) 4 = rdNat m (tileKey core src i j) 4 := by
  have hbyte : ∀ k < 65536, rdByte (copyTile m core dst src) (tileKey core dst 0 0 + k) = rdByte m (tileKey core src 0 0 + k) := by
    intro k hk
    have hd := upper_tileKey core dst 0 0
    have hs := upper_tileKey core src 0 0
    have hin := rdByte_wrBytes_in (m := m) (a := tileKey core dst 0 0) (k := k) (bs := rdBytes m (tileKey core src 0 0) 65536) hwf
      (.inr (.inl hd)) (by simpa using hk)
    rw [cell_plain (by omega)] at hin
    refine hin.trans ?_
    simp only [rdBytes, List.getElem_map, List.getElem_range]
    rw [cell_plain (by omega)]
  refine congrArg bytesNat (List.map_congr_left fun k hk => ?_)
  have hk := List.mem_range.1 hk
  have hd := upper_tileKey core dst i j
  have hs := upper_tileKey core src i j
  rw [cell_plain (by omega), cell_plain (by omega), tileKey_eq core dst, tileKey_eq core src, Nat.add_assoc, Nat.add_assoc,
    hbyte _ (by omega)]

end Sys2Proof.Laws
end

section
/-! SUPPORT. A subtile's check and its elements (R117, R122, R123, R127). -/

namespace Sys2Proof.Laws

open Sys2Proof.Machine

variable {s : State} {core q : Nat} {m : MCmd} {g : Group}

/-! ## Writes to many places -/

/-- Writes of bytes to places of their own, for the places that S names: what they leave of the bytes that B names, what they read back as, and
that memory stays canonical. -/
structure Writes {α : Type} (W : List Host.Cell → α → List Host.Cell) (key : α → Nat) (bytes : α → List Byte) (S : α → Prop) (B : Nat → Prop) :
    Prop where
  out : ∀ m x b, S x → b < key x ∨ key x + (bytes x).length ≤ b → B b → rdByte (W m x) b = rdByte m b
  back : ∀ m x, S x → Memory.wf m = true → rdBytes (W m x) (key x) (bytes x).length = bytes x
  wf : ∀ m x, Memory.wf m = true → Memory.wf (W m x) = true
  upper : ∀ x, 2 * gangBase ≤ key x
  own : ∀ x, S x → ∀ k < (bytes x).length, B (key x + k)

section writes
variable {α : Type} {W : List Host.Cell → α → List Host.Cell} {key : α → Nat} {bytes : α → List Byte} {S : α → Prop} {B : Nat → Prop}
  (hW : Writes W key bytes S B)
include hW

theorem Writes.frame {l : List α} {b : Nat} (hS : ∀ x ∈ l, S x) (h : ∀ x ∈ l, b < key x ∨ key x + (bytes x).length ≤ b) (hb : B b)
    (m : List Host.Cell) : rdByte (l.foldl W m) b = rdByte m b := by
  induction l generalizing m with
  | nil => rfl
  | cons x l ih =>
    rw [List.foldl_cons, ih (fun y hy => hS y (List.mem_cons_of_mem _ hy)) (fun y hy => h y (List.mem_cons_of_mem _ hy)),
      hW.out _ _ _ (hS x List.mem_cons_self) (h x List.mem_cons_self) hb]

/-- A place that no other write touches holds what was written there. -/
theorem Writes.held {l : List α} {x : α} (hx : x ∈ l) (hS : ∀ y ∈ l, S y)
    (hapart : ∀ y ∈ l, y ≠ x → key x + (bytes x).length ≤ key y ∨ key y + (bytes y).length ≤ key x) {m : List Host.Cell}
    (hwf : Memory.wf m = true) : rdBytes (l.foldl W m) (key x) (bytes x).length = bytes x := by
  induction l generalizing m with
  | nil => cases hx
  | cons y l ih =>
    have hS' : ∀ z ∈ l, S z := fun z hz => hS z (List.mem_cons_of_mem _ hz)
    have hSx := hS x hx
    rw [List.foldl_cons]
    by_cases hl : x ∈ l
    · exact ih hl hS' (fun z hz => hapart z (List.mem_cons_of_mem _ hz)) (hW.wf _ _ hwf)
    · obtain rfl : x = y := (List.mem_cons.1 hx).resolve_right hl
      refine (List.map_congr_left fun k hk => ?_).trans (hW.back m x hSx hwf)
      have hk := List.mem_range.1 hk
      have hupper := hW.upper x
      rw [cell_plain (.inr (by omega))]
      refine hW.frame hS' (fun z hz => ?_) (hW.own x hSx k hk) _
      have := hapart z (List.mem_cons_of_mem _ hz) fun h => hl (h ▸ hz)
      omega

end writes

/-! ## Words of a tile -/

theorem encode_lt {w : Wide} (hmb : 0 < w.mb) (r : Rnd) (v : Val) : (w.encode r v).1 < 2 * w.signBit := by
  have hinf := infCode_add w
  have hpos := Nat.two_pow_pos w.mb
  have hhalf : 2 ^ (w.mb - 1) < 2 ^ w.mb := Nat.pow_lt_pow_right (by norm_num) (by omega)
  have hover : ∀ neg, w.overflow r neg ≤ w.infCode := by
    intro neg
    cases r with
    | rne => exact le_rfl
    | rz => exact Nat.sub_le ..
    | rd => simp only [Wide.overflow]; split <;> omega
    | ru => simp only [Wide.overflow]; split <;> omega
    | sr => exact le_rfl
  cases v with
  | nan => simp only [Wide.encode, Wide.nanCode]; omega
  | inf neg => simp only [Wide.encode]; split <;> omega
  | fin neg m e =>
    have := hover neg
    simp only [Wide.encode]
    split <;> split <;> simp only [] <;> omega

@[simp] theorem length_tileWord (v : Val) : (tileWord v).length = 4 := length_natBytes ..

theorem bytesNat_tileWord (v : Val) : bytesNat (tileWord v) = (f24.encode .rne v).1 * 256 := by
  have hlt : (f24.encode .rne v).1 < 2 * f24.signBit := encode_lt (by decide) _ _
  have hbit : f24.signBit = 2 ^ 23 := by decide
  rw [tileWord, bytesNat_natBytes, Nat.mod_eq_of_lt (by omega)]

theorem tileAt_eq (g : Group) (tile i j : Nat) : tileAt g tile i j = tileAt g tile 0 0 + (i * 128 + j) * 4 := tileKey_eq ..
theorem upper_tileAt (g : Group) (tile i j : Nat) : 2 * gangBase ≤ tileAt g tile i j := upper_tileKey ..

/-- Two elements of a tile lie apart. -/
theorem tileAt_apart (g : Group) (tile : Nat) {i j i' j' : Nat} (hj : j < 128) (hj' : j' < 128) (hne : (i', j') ≠ (i, j)) :
    tileAt g tile i j + 4 ≤ tileAt g tile i' j' ∨ tileAt g tile i' j' + 4 ≤ tileAt g tile i j := by
  have hne : i' ≠ i ∨ j' ≠ j := by
    by_contra hcon
    push Not at hcon
    exact hne (Prod.ext hcon.1 hcon.2)
  rw [tileAt_eq g tile i j, tileAt_eq g tile i' j']
  omega

/-! ## The elements of a subtile -/

theorem mem_subtileCells {sub rows cols i j : Nat} : (i, j) ∈ subtileCells sub rows cols ↔
    32 * (sub / 4) ≤ i ∧ i < 32 * (sub / 4) + 32 ∧ i < rows ∧ 32 * (sub % 4) ≤ j ∧ j < 32 * (sub % 4) + 32 ∧ j < cols := by
  simp only [subtileCells, List.mem_flatMap, mem_upFrom]
  constructor
  · rintro ⟨i', ⟨h1, h2⟩, h⟩
    split at h
    · simp only [List.mem_map, List.mem_filter, mem_upFrom, decide_eq_true_eq, Prod.mk.injEq] at h
      obtain ⟨j', ⟨⟨h3, h4⟩, h5⟩, rfl, rfl⟩ := h
      exact ⟨h1, h2, ‹_›, h3, h4, h5⟩
    · cases h
  · rintro ⟨h1, h2, h3, h4, h5, h6⟩
    exact ⟨i, ⟨h1, h2⟩, by rw [if_pos h3]; simp [h4, h5, h6]⟩

/-- The new value of an element of a running command's tile (R117). -/
def newVal (mem : List Host.Cell) (g : Group) (m : MCmd) (i j : Nat) : Val :=
  (elementOf mem (m.opA g.core) (m.opB g.core) m.kext i j (if m.z then .fin true 0 0 else tileVal mem g m.tile i j)).val

theorem runSubtile_mem (mem : List Host.Cell) (g : Group) (m : MCmd) : (runSubtile mem g m).1 = (subtileCells m.sub m.rows m.cols).foldl
    (fun u x => wrBytes u (tileAt g m.tile x.1 x.2) (tileWord (newVal mem g m x.1 x.2))) mem := by
  simp only [runSubtile, List.foldl_map]
  rfl

/-- Elements of a tile. -/
theorem writes_tile (g : Group) (tile : Nat) (bytes : Nat × Nat → List Byte) :
    Writes (fun m x => wrBytes m (tileAt g tile x.1 x.2) (bytes x)) (fun x => tileAt g tile x.1 x.2) bytes (fun _ => True) fun _ => True where
  out _ _ _ _ h _ := rdByte_wrBytes_apart (.inr (upper_tileAt ..)) h
  back _ _ _ hm := rdBytes_wrBytes hm (.inr (.inl (upper_tileAt ..)))
  wf _ _ hm := wf_wrBytes _ _ hm
  upper _ := upper_tileAt ..
  own _ _ _ _ := trivial

/-- An element written among others of its tile. -/
theorem tile_held {g : Group} {tile : Nat} {bytes : Nat × Nat → List Byte} (hlen : ∀ x, x.2 < 128 → (bytes x).length = 4)
    {l : List (Nat × Nat)} (hl : ∀ x ∈ l, x.2 < 128) {i j : Nat} (h : (i, j) ∈ l) {m : List Host.Cell} (hwf : Memory.wf m = true) :
    rdBytes (l.foldl (fun m x => wrBytes m (tileAt g tile x.1 x.2) (bytes x)) m) (tileAt g tile i j) 4 = bytes (i, j) := by
  have hback := (writes_tile g tile bytes).held h (fun _ _ => trivial) (fun y hy hne => ?_) hwf
  · rwa [hlen _ (hl _ h)] at hback
  · rw [hlen _ (hl _ h), hlen _ (hl _ hy)]
    exact tileAt_apart g tile (hl _ h) (hl _ hy) hne

section elements
variable {mem : List Host.Cell} (hcols : m.cols ≤ 128)
include hcols

/-- Each element of the subtile holds its new value. -/
theorem runSubtile_word {i j : Nat} (h : (i, j) ∈ subtileCells m.sub m.rows m.cols) (hwf : Memory.wf mem = true) :
    rdNat (runSubtile mem g m).1 (tileAt g m.tile i j) 4 = (f24.encode .rne (newVal mem g m i j)).1 * 256 := by
  rw [rdNat, runSubtile_mem, tile_held (fun _ _ => length_tileWord _) (fun x hx => ?_) h hwf, bytesNat_tileWord]
  obtain ⟨-, -, -, -, -, hj⟩ := mem_subtileCells.1 hx
  exact hj.trans_le hcols

omit hcols in
/-- Every other byte stands. -/
theorem runSubtile_frame {a : Nat} (h : ∀ i j, (i, j) ∈ subtileCells m.sub m.rows m.cols →
    ¬ (tileAt g m.tile i j ≤ a ∧ a < tileAt g m.tile i j + 4)) : rdByte (runSubtile mem g m).1 a = rdByte mem a := by
  rw [runSubtile_mem]
  refine (writes_tile g m.tile _).frame (fun _ _ => trivial) (fun x hx => ?_) trivial mem
  have := h x.1 x.2 hx
  rw [length_tileWord]
  omega

end elements

/-! ## The check -/

/-- What a multiplier fault adds shows in the sums, unless it is a multiple of the modulus. -/
theorem subtileAgrees_fault (mem : List Host.Cell) (m : MCmd) (core : Nat) {err : Nat} (h : err % resMod ≠ 0) :
    subtileAgrees mem m core err = false := by
  have hpos : 0 < blocksOf m.fmta := by unfold blocksOf; split <;> norm_num
  refine Bool.eq_false_iff.2 fun hall => h ?_
  have h0 := List.all_eq_true.1 hall 0 (List.mem_range.2 hpos)
  simp only [if_true, decide_eq_true_eq, productSide_eq] at h0
  generalize operandSide _ _ _ = p at h0
  have hmod : (p + err) % resMod = (p + 0) % resMod := by
    have hlt : p < resMod := by rw [← h0]; exact Nat.mod_lt _ (by decide)
    rw [h0, Nat.add_zero, Nat.mod_eq_of_lt hlt]
  exact Nat.ModEq.add_left_cancel' p hmod

/-- A task's saving, as a command sees it, is not changed by records and memory. -/
theorem savingCmd_noted {t : State} (h : Noted s t) (core : Nat) {c d : MCmd} (hid : d.id = c.id) (hgid : d.gid = c.gid) :
    t.savingCmd core d = s.savingCmd core c := by
  have htask : ∀ gid, (t.group? gid).map (·.task) = (s.group? gid).map (·.task) := fun gid =>
    rel_map_eq (fun honly => by rw [show _ = _ from honly]) (h.group gid)
  have hview : (t.group? c.gid).map (fun g => (g.task, t.taskOf g)) = (s.group? c.gid).map fun g => (g.task, s.taskOf g) := by
    have htasks : t.tasks = s.tasks := by rw [h.rest]
    simp only [State.taskOf, htasks]
    exact rel_map_eq (fun honly => by rw [show _ = _ from honly]) (h.group c.gid)
  have hcommands : (t.core core).commands = (s.core core).commands := by
    rw [Core.commands, Core.commands, (h.core core).queues, (h.core core).running, (h.core core).finishing]
  have hsaves : ∀ mine, (t.core core).savesUpTo mine = (s.core core).savesUpTo mine := fun mine => by
    rw [Core.savesUpTo, Core.savesUpTo, (h.core core).engine, (h.core core).queues, hcommands]
  simp only [State.savingCmd, hgid, hid, hview, hsaves, htask]

/-- The record of a mismatch. -/
theorem checkRecord_noted (s : State) (m : MCmd) (fatal : Bool) : Noted s (checkRecord s m fatal) := by
  unfold checkRecord
  split
  · exact .scrivWarp ..
  · exact .refl _

/-- The state in which a passed subtile is written, and the command with what its elements count. -/
def subtileWritten (s : State) (g : Group) (m : MCmd) : State :=
  let s0 := { s with mem := (runSubtile s.mem g m).1 }
  if m.reran then checkRecord s0 m false else s0
def subtileCounted (s : State) (g : Group) (m : MCmd) : MCmd :=
  { m with sub := m.sub + 1, reran := false, ovfs := m.ovfs ++ (runSubtile s.mem g m).2.1, nans := m.nans + (runSubtile s.mem g m).2.2 }

theorem subtileWritten_noted (s : State) (g : Group) (m : MCmd) :
    Noted { s with mem := (runSubtile s.mem g m).1 } (subtileWritten s g m) := by
  unfold subtileWritten
  split
  · exact checkRecord_noted ..
  · exact .refl _

section check
variable (hrun : (s.core core).running = some (q, m)) (hg : s.group? m.gid = some g)
  (htime : m.ends + m.cycles s.stage * (m.sub + 1) ≤ s.cycle + 1)
include hrun hg htime

theorem subtileCheck_passes : exec (.subtileCheck core 0) s = .next (afterSubtile (subtileWritten s g m) core q (subtileCounted s g m)) := by
  show execSubtileCheck core 0 s = _
  simp only [execSubtileCheck, hrun, hg, if_neg (Nat.not_lt.2 htime), subtileAgrees_zero, Bool.not_true, Bool.false_eq_true, if_false]
  rfl

theorem subtileCheck_reruns {err : Nat} (herr : err % resMod ≠ 0) (hfirst : m.reran = false) : exec (.subtileCheck core err) s =
    .next (s.modCore core fun k => { k with running := some (q, { m with reran := true, ends := m.ends + m.cycles s.stage }) }) := by
  show execSubtileCheck core err s = _
  simp only [execSubtileCheck, hrun, hg, if_neg (Nat.not_lt.2 htime), subtileAgrees_fault s.mem m core herr, Bool.not_false, if_true, hfirst,
    Bool.false_eq_true, if_false]

theorem subtileCheck_stops {err : Nat} (herr : err % resMod ≠ 0) (hagain : m.reran = true) : exec (.subtileCheck core err) s =
    .next (((checkRecord s m true).finishing core 1 12 { m with fatal := some m.sub }).modCore core fun k => { k with running := none }) := by
  show execSubtileCheck core err s = _
  simp only [execSubtileCheck, hrun, hg, if_neg (Nat.not_lt.2 htime), subtileAgrees_fault s.mem m core herr, Bool.not_false, if_true, hagain]

end check

/-! ## After a subtile -/

section after
variable {t : State} {d : MCmd}

theorem afterSubtile_mem (t : State) (core q : Nat) (d : MCmd) : (afterSubtile t core q d).mem = t.mem := by
  unfold afterSubtile
  split
  · rfl
  · split <;> rfl

theorem afterSubtile_last (h : d.sub = 16) : (afterSubtile t core q d).core core =
    { t.core core with running := none, finishing := (t.core core).finishing ++ [{ d with ends := t.cycle + 12 }],
                       arrayFrom := max (t.core core).arrayFrom (t.cycle + 1) } := by
  rw [afterSubtile, if_pos h, modCore_self, finishing_core]

theorem afterSubtile_saved (h : d.sub ≠ 16) (hs : t.savingCmd core d = true) : (afterSubtile t core q d).core core =
    { t.core core with running := none, arrayFrom := t.cycle + 1,
                       queues := fput q (d :: (flook q (t.core core).queues).getD []) (t.core core).queues } := by
  rw [afterSubtile, if_neg h, if_pos hs, modCore_self]

theorem afterSubtile_next (h : d.sub ≠ 16) (hs : t.savingCmd core d = false) : (afterSubtile t core q d).core core =
    { t.core core with running := some (q, d) } := by
  rw [afterSubtile, if_neg h, if_neg (by rw [hs]; exact Bool.false_ne_true), modCore_self]

end after

end Sys2Proof.Laws
end

section
/-! THEOREMS. The matrix array runs its commands. -/

namespace Sys2Proof.Laws

open Sys2Proof.Machine

section start
variable {s : State} {core q : Nat} {m : MCmd} {rest : List MCmd} {g : Group}

/-- The array starts its only eligible head. -/
theorem matrixCommandStart_next (hrun : (s.core core).running = none) (hfrom : (s.core core).arrayFrom ≤ s.cycle) (hq : q < 5)
    (hqueue : flook q (s.core core).queues = some (m :: rest)) (hothers : ∀ p < 5, p ≠ q → (flook p (s.core core).queues).getD [] = [])
    (hg : s.group? m.gid = some g) (he : eligible s core m = true) (hres : m.restores = false) :
    exec (.matrixCommandStart core) s = .next (startCmd (s.takeHead core q (charge g m)) core q g m) := by
  show execMatrixCommandStart core s = _
  simp only [execMatrixCommandStart, nextHead_only hrun hfrom hq hqueue hothers hg he, hg, hres, Bool.false_eq_true, if_false]

end start

/-- Settles O41: a start by the kind of its command, a check by whether the residues agree. -/
theorem matrixCommandsRun : Obligations.MatrixCommandsRun := by
  unfold Obligations.MatrixCommandsRun
  refine ⟨?start, fun core s q m g => ?check, fun s => rfl⟩
  case start =>
    intro core s q m rest g k ends hrun hfrom hq hqueue hothers hg he hsub hres
    have hqueues := startCmd_keeps (s.takeHead core q (charge g m)) core q g m
    have hwait : copyWait m = if m.first then 16 else 0 := by simp [copyWait, hsub]
    refine ⟨_, matrixCommandStart_next hrun hfrom hq hqueue hothers hg he hres, ?_, ?_, fun hk => ?_, fun n hk => ?_⟩
    · rw [hqueues.1, takeHead_queue hqueue]
    · rw [hqueues.2, takeHead_core]
    · have hstart := startCmd_runs (s := s.takeHead core q (charge g m)) (core := core) (q := q) (g := g) hk
      rw [hstart, modCore_self, seriesStarted, tileCopied_core, takeHead_core, modCore_mem, tileCopied_mem, takeHead_mem]
      refine ⟨?_, rfl, fun hfirst => ?_, fun hfirst hwf i hi j hj => ?_⟩
      · simp only [hwait, hsub, Nat.mul_zero, Nat.sub_zero, takeHead_cycle, ends]
      · rw [hfirst, Bool.false_and, if_neg Bool.false_ne_true]
      · rw [hfirst, hsub, Bool.true_and, decide_eq_true rfl, if_pos rfl]
        exact copyTile_word hwf core (g.tileBase + m.tile + 1) (g.tileBase + m.tile) hi hj
    · rw [startCmd_transfer hk, finishing_core, finishing_mem, takeHead_core, takeHead_mem, takeHead_cycle]
      exact ⟨hrun, rfl, rfl, rfl⟩
  case check =>
    intro k hrun hg htime cell val
    refine ⟨?passes, ?fails⟩
    case passes =>
      intro _ hcols hsub hwf
      have hnoted := subtileWritten_noted s g m
      have hsame : SameArray k ((subtileWritten s g m).core core) := hnoted.core core
      have hcycle : (subtileWritten s g m).cycle = s.cycle := hnoted.cycle
      have hsaving : (subtileWritten s g m).savingCmd core (subtileCounted s g m) = s.savingCmd core m := savingCmd_noted hnoted core rfl rfl
      refine ⟨_, subtileCheck_passes hrun hg htime, fun i j hcell => ?_, fun a hout => ?_, fun hlt hs => ?_, fun hlt hs => ?_, fun hlast => ?_⟩
      · rw [afterSubtile_mem, hnoted.mem]
        exact runSubtile_word hcols (mem_subtileCells.2 hcell) hwf
      · rw [afterSubtile_mem, hnoted.mem]
        exact runSubtile_frame fun i j h => hout i j (mem_subtileCells.1 h)
      · rw [afterSubtile_next (by show m.sub + 1 ≠ 16; omega) (hsaving.trans hs)]
        exact ⟨_, rfl, rfl, rfl, hsame.finishing⟩
      · rw [afterSubtile_saved (by show m.sub + 1 ≠ 16; omega) (hsaving.trans hs), hsame.queues]
        exact ⟨rfl, _, flook_fput_self .., rfl, rfl⟩
      · rw [afterSubtile_last (by show m.sub + 1 = 16; omega), hcycle, hsame.finishing]
        exact ⟨rfl, lt_of_lt_of_le (Nat.lt_succ_self _) (le_max_right ..), _, rfl, rfl, rfl⟩
    case fails =>
      intro err herr
      have hnoted := checkRecord_noted s m true
      have hsame : SameArray k ((checkRecord s m true).core core) := hnoted.core core
      have hcycle : (checkRecord s m true).cycle = s.cycle := hnoted.cycle
      rcases Bool.eq_false_or_eq_true m.reran with hre | hre
      · refine ⟨_, subtileCheck_stops hrun hg htime herr hre, ?_, fun h => absurd (h.symm.trans hre) Bool.false_ne_true, fun _ => ?_⟩
        · rw [modCore_mem, finishing_mem, hnoted.mem]
        · rw [modCore_self, finishing_core, hsame.finishing, hcycle]
          exact ⟨rfl, rfl⟩
      · refine ⟨_, subtileCheck_reruns hrun hg htime herr hre, rfl, fun _ => ?_, fun h => absurd (hre.symm.trans h) Bool.false_ne_true⟩
        rw [modCore_self]

end Sys2Proof.Laws
end

section
/-! SUPPORT. Completions of operations with nothing to report (R21, R110, R114, R212, R344): what reading the bench, completing and the
warning of an unwritten word leave. -/

namespace Sys2Proof.Laws

open Sys2Proof.Machine

variable {s t : State} {gid wid pid : Nat} {g : Group}

/-! ## Operations with nothing to report -/

theorem sound_of_warps (hs : Sound s gid wid pid) (h : t.warps = s.warps) : Sound t gid wid pid := by
  intro w q hw hq
  rw [State.warp?, h] at hw
  exact hs w q hw hq

/-- One that completes changes warps alone. -/
theorem complete_sound (hs : Sound s gid wid pid) : s.complete gid wid pid = { s with warps := (s.complete gid wid pid).warps } := by
  unfold State.complete
  split
  · rfl
  · rename_i w hw
    split
    · rfl
    · rename_i q hq
      obtain ⟨hdead, hbad⟩ := hs w q hw hq
      simp only [hdead, hbad]
      split
      · split
        · split <;> rfl
        · rfl
      · rfl

theorem complete_mem (hs : Sound s gid wid pid) : (s.complete gid wid pid).mem = s.mem := by rw [complete_sound hs]
theorem complete_core (hs : Sound s gid wid pid) (k : Nat) : (s.complete gid wid pid).core k = s.core k := by rw [complete_sound hs]; rfl
theorem complete_group (hs : Sound s gid wid pid) (k : Nat) : (s.complete gid wid pid).group? k = s.group? k := by
  rw [complete_sound hs]; rfl

/-! ## What a command reads of the bench -/

theorem found_bad (hp : s.poison = []) (key va n : Nat) : (s.found key va n).bad = none := by
  simp [State.found, hp]

theorem scratchBytes_bad (hp : s.poison = []) (g : Group) (x : Spot) : (s.scratchBytes g x).bad = none := found_bad hp ..

theorem scratchBytes_quiet (h : Quiet s t) (g : Group) (x : Spot) : t.scratchBytes g x = s.scratchBytes g x := by rw [h.rest]; rfl

@[simp] theorem length_scratchBytes (s : State) (g : Group) (x : Spot) : (s.scratchBytes g x).bytes.length = x.n := by
  simp [State.scratchBytes]

theorem least_bad {l : List Spot} (hp : s.poison = []) (g : Group) : l.foldl (fun a x => least a (s.scratchBytes g x).bad) none = none := by
  induction l with
  | nil => rfl
  | cons x l ih => rw [List.foldl_cons, scratchBytes_bad hp]; exact ih

theorem correct_clean (hsoft : s.soft = []) (l : List Spot) : l.foldl (fun s x => s.correct x.key x.n) s = s := by
  induction l with
  | nil => rfl
  | cons x l ih => rw [List.foldl_cons, State.correct, if_pos hsoft]; exact ih

/-- Where nothing is poisoned and no error waits, reading leaves nothing to report. -/
theorem consumes_quiet (hp : s.poison = []) (hsoft : s.soft = []) (g : Group) (gid wid pid : Nat) (lanes : Mask) (l : List Spot) :
    Quiet s (s.consumes g gid wid pid lanes l) := by
  have hrace : Quiet s (s.raceCheck gid wid pid lanes l) := .raceCheck ..
  unfold State.consumes
  rw [least_bad hp, correct_clean (hrace.soft.trans hsoft)]
  exact hrace.trans (.modPend _ _ _ fun q => ⟨rfl, id, fun _ => rfl⟩)

/-! ## Completion with the warning of an unwritten word -/

/-- A command that has read the bench completes: its warning comes before, its deferred trap after. -/
def readerDone (warn : Bool) (gid wid pid : Nat) (lanes : Mask) (bad : List Nat) (s : State) : State :=
  if warn then (s.unwrittenRead gid wid pid lanes true bad).complete gid wid pid
  else (s.complete gid wid pid).unwrittenRead gid wid pid lanes false bad

section reader
variable (warn : Bool) (lanes : Mask) (bad : List Nat)

theorem readerDone_aside : Aside s (readerDone warn gid wid pid lanes bad s) := by
  cases warn with
  | true => exact (Noted.unwrittenRead ..).toAside.trans (.complete ..)
  | false => exact (Aside.complete ..).trans (Noted.unwrittenRead ..).toAside

theorem readerDone_mem (hs : Sound s gid wid pid) : (readerDone warn gid wid pid lanes bad s).mem = s.mem := by
  cases warn with
  | true =>
    have hnoted : Noted s (s.unwrittenRead gid wid pid lanes true bad) := .unwrittenRead ..
    exact (complete_mem (sound_of_warps hs hnoted.warps)).trans hnoted.mem
  | false =>
    have hnoted : Noted (s.complete gid wid pid) ((s.complete gid wid pid).unwrittenRead gid wid pid lanes false bad) := .unwrittenRead ..
    exact hnoted.mem.trans (complete_mem hs)

end reader

/-! ## Bytes of memory cleared -/

theorem rdByte_filter_out {m : List Host.Cell} {f : Host.Cell → Bool} {a : Nat} (h : ∀ v, f (a, v) = false) : rdByte (m.filter f) a = 0 := by
  unfold rdByte
  induction m with
  | nil => rfl
  | cons p t ih =>
    obtain ⟨b, v⟩ := p
    rw [List.filter_cons]
    split
    · rename_i hb
      have hne : b ≠ a := fun hba => by subst hba; rw [h v] at hb; cases hb
      simp [fget, hne, ih]
    · exact ih

end Sys2Proof.Laws
end

section
/-! SUPPORT. What each matrix command does when it completes (R114, R119, R120, R125). -/

namespace Sys2Proof.Laws

open Sys2Proof.Machine

variable {s : State} {m : MCmd} {g : Group}

/-! ## Tile products -/

/-- A product's slots with one reader less, and its tile with what its elements counted. -/
def productDone (m : MCmd) (g : Group) : Group :=
  let h := withSlots g m.lslotA m.lslotB Slot.less
  withTile h m.tile { h.tile m.tile with ovf := min 255 ((h.tile m.tile).ovf + m.ovfs.length), nan := min 255 ((h.tile m.tile).nan + m.nans) }

theorem productDone_slot (m : MCmd) (g : Group) (j : Nat) : (productDone m g).slot j =
    if j = m.lslotA ∨ j = m.lslotB then { g.slot j with readers := (g.slot j).readers - 1 } else g.slot j := withSlots_slot ..

theorem productDone_tile (m : MCmd) (g : Group) : (productDone m g).tile m.tile =
    { g.tile m.tile with ovf := min 255 ((g.tile m.tile).ovf + m.ovfs.length), nan := min 255 ((g.tile m.tile).nan + m.nans) } := by
  simp only [productDone, withTile_tile, withSlots_tile, if_true]

theorem productDone_rest (m : MCmd) (g : Group) : (productDone m g).deferred = g.deferred ∧ (productDone m g).core = g.core := by
  have hslots := withSlots_rest g m.lslotA m.lslotB Slot.less
  have hdeferred := congrArg Group.deferred hslots
  have hcore := congrArg Group.core hslots
  exact ⟨hdeferred, hcore⟩

theorem modGroup_productDone (s : State) (m : MCmd) : (if m.lslotA = m.lslotB then s.modSlot m.gid m.lslotA Slot.less
      else (s.modSlot m.gid m.lslotA Slot.less).modSlot m.gid m.lslotB Slot.less).modTile m.gid m.tile (fun t =>
        { t with ovf := min 255 (t.ovf + m.ovfs.length), nan := min 255 (t.nan + m.nans) }) = s.modGroup m.gid (productDone m) := by
  rw [modSlots_eq, modTile_eq, modGroup_modGroup]
  rfl

theorem mmaTrap_note {i : TrapInfo} (h : mmaTrap m = some i) : i.note = none := by
  unfold mmaTrap at h
  split at h
  · cases h; rfl
  · cases h; rfl
  · split at h
    · cases h; rfl
    · cases h

/-- The deferred trap that a completed product delivers, or holds for its provisional tile. -/
def productTraps (m : MCmd) (core : Nat) : List Deferred :=
  match mmaTrap m with
  | some t => [⟨m.wid, m.pid, m.lanes, { t with deferred := true, core := core }, if m.prov then some m.tile else none⟩]
  | none => []

theorem defer_eq {gid wid pid : Nat} {lanes : Mask} {i : TrapInfo} {tile : Option Nat} (hnote : i.note = none) (s : State) :
    s.defer gid wid pid lanes i tile = s.modGroup gid fun g =>
      { g with deferred := g.deferred ++ [⟨wid, pid, lanes, { i with deferred := true, core := g.core }, tile⟩] } := by
  have hnone : s.noteOf gid wid (s.entryOf gid wid pid) i = s := by simp [State.noteOf, hnote]
  rw [State.defer, hnone]
  simp only [hnote]

/-- A completed product's group. -/
theorem finishCmd_product (hk : m.kind = .mma ∨ m.kind = .mmas) (hg : s.group? m.gid = some g) (hs : Sound s m.gid m.wid m.pid) :
    (finishCmd s g m).mem = s.mem ∧ (∀ k, (finishCmd s g m).core k = s.core k) ∧ ∃ v, (finishCmd s g m).group? m.gid = some v ∧
      (∀ j, v.slot j = (productDone m g).slot j) ∧ (∀ j, v.tile j = (productDone m g).tile j) ∧
      v.deferred = g.deferred ++ productTraps m g.core := by
  obtain ⟨hdeferred, hcore⟩ := productDone_rest m g
  have hsound : Sound (s.modGroup m.gid (productDone m)) m.gid m.wid m.pid := sound_of_warps hs rfl
  have hgroup : ((s.modGroup m.gid (productDone m)).complete m.gid m.wid m.pid).group? m.gid = some (productDone m g) := by
    rw [complete_group hsound, modGroup_self, hg]; rfl
  have hfinish : finishCmd s g m = match mmaTrap m with
      | some t => ((s.modGroup m.gid (productDone m)).complete m.gid m.wid m.pid).defer m.gid m.wid m.pid m.lanes t
          (if m.prov then some m.tile else none)
      | none => (s.modGroup m.gid (productDone m)).complete m.gid m.wid m.pid := by
    rw [← modGroup_productDone]
    rcases hk with hk | hk <;> simp only [finishCmd, hk] <;> rfl
  rw [hfinish, productTraps]
  cases htrap : mmaTrap m with
  | none =>
    exact ⟨complete_mem hsound, complete_core hsound, _, hgroup, fun _ => rfl, fun _ => rfl, by simp [hdeferred]⟩
  | some t =>
    simp only [defer_eq (mmaTrap_note htrap)]
    refine ⟨complete_mem hsound, complete_core hsound, _, (modGroup_self ..).trans (congrArg (Option.map _) hgroup), fun _ => rfl, fun _ => rfl, ?_⟩
    simp only [hdeferred, hcore]

/-! ## MZERO -/

/-- A tile's counters cleared where the command says so. -/
def clearTile (m : MCmd) (g : Group) : Group :=
  withTile g m.tile (if m.clear then { g.tile m.tile with ovf := 0, nan := 0 } else g.tile m.tile)

theorem clearTile_tile (h : m.clear = true) (g : Group) : ((clearTile m g).tile m.tile).ovf = 0 ∧ ((clearTile m g).tile m.tile).nan = 0 := by
  simp [clearTile, h]

/-- Memory without the bytes of a tile. -/
def tileZeroed (mem : List Host.Cell) (g : Group) (tile : Nat) : List Host.Cell :=
  mem.filter fun p => !(tileAt g tile 0 0 ≤ p.1 && p.1 < tileAt g tile 0 0 + 65536)

theorem tileZeroed_frame {mem : List Host.Cell} {tile a : Nat} (h : ¬ (tileAt g tile 0 0 ≤ a ∧ a < tileAt g tile 0 0 + 65536)) :
    rdByte (tileZeroed mem g tile) a = rdByte mem a := by
  refine rdByte_filter fun _ => ?_
  simp only [Bool.not_eq_true', Bool.and_eq_false_iff, decide_eq_false_iff_not]
  omega

theorem tileZeroed_word (mem : List Host.Cell) (g : Group) (tile : Nat) {i j : Nat} (hi : i < 128) (hj : j < 128) :
    rdNat (tileZeroed mem g tile) (tileAt g tile i j) 4 = 0 := by
  have hup := upper_tileAt g tile i j
  have heq := tileAt_eq g tile i j
  have hbyte : ∀ k ∈ List.range 4, rdByte (tileZeroed mem g tile) (cell (tileAt g tile i j + k)) = 0 := by
    intro k hk
    have hk := List.mem_range.1 hk
    rw [cell_plain (.inr (by omega))]
    refine rdByte_filter_out fun _ => ?_
    simp only [Bool.not_eq_false', Bool.and_eq_true, decide_eq_true_eq]
    omega
  rw [rdNat, rdBytes, List.map_congr_left hbyte]
  rfl

theorem finishCmd_mzero (hk : m.kind = .mzero) (hg : s.group? m.gid = some g) (hs : Sound s m.gid m.wid m.pid) :
    (finishCmd s g m).mem = tileZeroed s.mem g m.tile ∧ (∀ k, (finishCmd s g m).core k = s.core k) ∧
      (finishCmd s g m).group? m.gid = some (clearTile m g) := by
  have hfinish : finishCmd s g m = (({ s with mem := tileZeroed s.mem g m.tile } : State).modGroup m.gid (clearTile m)).complete m.gid m.wid m.pid := by
    simp only [finishCmd, hk]
    rfl
  have hsound : Sound (({ s with mem := tileZeroed s.mem g m.tile } : State).modGroup m.gid (clearTile m)) m.gid m.wid m.pid :=
    sound_of_warps hs rfl
  rw [hfinish]
  refine ⟨complete_mem hsound, complete_core hsound, ?_⟩
  rw [complete_group hsound, modGroup_self]
  exact congrArg (Option.map _) hg

/-! ## MACCLD -/

/-- The elements of a tile, rows first. -/
def tileCells : List (Nat × Nat) := (List.range 128).flatMap fun i => (List.range 128).map fun j => (i, j)

theorem mem_tileCells {i j : Nat} : (i, j) ∈ tileCells ↔ i < 128 ∧ j < 128 := by
  simp [tileCells]

/-- The word of an element as MACCLD takes it from the bench. -/
def loadedBytes (s : State) (g : Group) (m : MCmd) (x : Nat × Nat) : List Byte :=
  0 :: ((s.scratchBytes g (benchSpot g (m.addr + x.1 * m.pitch) 512)).bytes.drop (4 * x.2 + 1)).take 3

theorem length_loadedBytes (s : State) (g : Group) (m : MCmd) (x : Nat × Nat) (hx : x.2 < 128) : (loadedBytes s g m x).length = 4 := by
  have hrow : (s.scratchBytes g (benchSpot g (m.addr + x.1 * m.pitch) 512)).bytes.length = 512 := length_scratchBytes ..
  rw [loadedBytes, List.length_cons, List.length_take, List.length_drop, hrow]
  omega

/-- The first of two things that a fold carries. -/
theorem foldl_fst {α β γ : Type} (F : α → β → α) (G : α × γ → β → γ) (l : List β) (x : α) (y : γ) :
    (l.foldl (fun a b => (F a.1 b, G a b)) (x, y)).1 = l.foldl F x := by
  induction l generalizing x y with
  | nil => rfl
  | cons b l ih => exact ih ..

theorem loadTile_mem (s : State) (g : Group) (m : MCmd) : (loadTile s g m).1 =
    tileCells.foldl (fun u x => wrBytes u (tileAt g m.tile x.1 x.2) (loadedBytes s g m x)) s.mem := by
  rw [tileCells, List.foldl_flatMap]
  simp only [List.foldl_map]
  exact foldl_fst (fun u i => (List.range 128).foldl (fun u j => wrBytes u (tileAt g m.tile i j) (loadedBytes s g m (i, j))) u) _ _ _ _

theorem loaded_word {mem : List Host.Cell} (hwf : Memory.wf mem = true) {i j : Nat} (hi : i < 128) (hj : j < 128) :
    rdBytes (tileCells.foldl (fun u x => wrBytes u (tileAt g m.tile x.1 x.2) (loadedBytes s g m x)) mem) (tileAt g m.tile i j) 4 =
      loadedBytes s g m (i, j) :=
  tile_held (length_loadedBytes s g m) (fun x hx => (mem_tileCells.1 (show (x.1, x.2) ∈ tileCells from hx)).2) (mem_tileCells.2 ⟨hi, hj⟩) hwf

theorem loaded_frame {mem : List Host.Cell} {a : Nat} (h : ¬ (tileAt g m.tile 0 0 ≤ a ∧ a < tileAt g m.tile 0 0 + 65536)) :
    rdByte (tileCells.foldl (fun u x => wrBytes u (tileAt g m.tile x.1 x.2) (loadedBytes s g m x)) mem) a = rdByte mem a := by
  refine (writes_tile g m.tile _).frame (fun _ _ => trivial) (fun x hx => ?_) trivial mem
  obtain ⟨hi, hj⟩ := mem_tileCells.1 (show (x.1, x.2) ∈ tileCells from hx)
  rw [length_loadedBytes s g m x hj, tileAt_eq]
  omega

/-- The bench words in the tile, and what else completing a read of the bench touches. -/
theorem finishCmd_maccld (hk : m.kind = .maccld) (hg : s.group? m.gid = some g) (hs : Sound s m.gid m.wid m.pid) (hp : s.poison = [])
    (hsoft : s.soft = []) :
    (finishCmd s g m).mem = tileCells.foldl (fun u x => wrBytes u (tileAt g m.tile x.1 x.2) (loadedBytes s g m x)) s.mem ∧
      (∀ k, SameArray (s.core k) ((finishCmd s g m).core k)) ∧ ∃ v, (finishCmd s g m).group? m.gid = some v := by
  have hquiet : Quiet s (s.consumes g m.gid m.wid m.pid m.lanes ((List.range 128).map fun i => benchSpot g (m.addr + i * m.pitch) 512)) :=
    consumes_quiet hp hsoft ..
  generalize hread : s.consumes g m.gid m.wid m.pid m.lanes ((List.range 128).map fun i => benchSpot g (m.addr + i * m.pitch) 512) = u at hquiet
  obtain ⟨mem, bad, hload⟩ : ∃ mem bad, loadTile u g m = (mem, bad) := ⟨_, _, rfl⟩
  have hfinish : finishCmd s g m = readerDone m.warn m.gid m.wid m.pid m.lanes bad (({ u with mem := mem } : State).modGroup m.gid (clearTile m)) := by
    simp only [finishCmd, hk, hread, hload]
    rfl
  have hmem : mem = tileCells.foldl (fun w x => wrBytes w (tileAt g m.tile x.1 x.2) (loadedBytes s g m x)) s.mem := by
    have hbytes : loadedBytes u g m = loadedBytes s g m := funext fun x => by rw [loadedBytes, scratchBytes_quiet hquiet, loadedBytes]
    rw [← hquiet.mem, ← hbytes, ← loadTile_mem, hload]
  have hsound : Sound (({ u with mem := mem } : State).modGroup m.gid (clearTile m)) m.gid m.wid m.pid := sound_of_warps (hquiet.sound hs) rfl
  have haside := readerDone_aside (gid := m.gid) (wid := m.wid) (pid := m.pid) (s := ({ u with mem := mem } : State).modGroup m.gid (clearTile m))
    m.warn m.lanes bad
  obtain ⟨g0, hg0, -⟩ := rel_some (hquiet.group m.gid) hg
  rw [hfinish]
  refine ⟨(readerDone_mem _ _ _ hsound).trans hmem, fun k => (hquiet.core k).trans (haside.core k), ?_⟩
  obtain ⟨v, hv, -⟩ := rel_some (haside.group m.gid) ((modGroup_self ..).trans (congrArg (Option.map _) hg0))
  exact ⟨v, hv⟩

/-! ## MACCST -/

/-- The place of a row in the bench, and the bytes of its elements. -/
def rowKey (g : Group) (m : MCmd) (i : Nat) : Nat := benchKey g.core (g.benchBase + m.addr + i * m.pitch)
def rowWidth (m : MCmd) : Nat := if m.form = 0 then 4 else 2

theorem length_storedElem (form rnd : Nat) (v : Val) : (storedElem form rnd v).1.length = if form = 0 then 4 else 2 := by
  unfold storedElem
  simp only []
  split
  · rfl
  · simp
  · rename_i h0 _
    rw [if_neg h0, length_natBytes]

theorem length_storedRow (mem : List Host.Cell) (g : Group) (m : MCmd) (i : Nat) : (storedRow mem g m i).1.length = 128 * rowWidth m := by
  have hlen : ∀ n, ((List.range n).foldl (fun (a : List Byte × Word) j => (a.1 ++ (storedElem m.form m.rnd (tileVal mem g m.tile i j)).1,
      a.2 ||| (storedElem m.form m.rnd (tileVal mem g m.tile i j)).2)) ([], 0)).1.length = n * rowWidth m := by
    intro n
    induction n with
    | zero => simp
    | succ n ih =>
      rw [List.range_succ, List.foldl_append]
      simp only [List.foldl_cons, List.foldl_nil, List.length_append, ih, length_storedElem, rowWidth]
      ring
  exact hlen 128

/-- Rows stored one after another. -/
theorem stores_leave {l : List Nat} {row : Nat → List Byte} {st : Nat → Option Stamp} (hrow : ∀ i ∈ l, row i ≠ []) (u : State) :
    (l.foldl (fun u i => u.store g.core (rowKey g m i) (row i) (st i)) u).mem = l.foldl (fun w i => written w (rowKey g m i) (row i)) u.mem ∧
    Aside u (l.foldl (fun u i => u.store g.core (rowKey g m i) (row i) (st i)) u) ∧
    ∀ gid wid pid, Sound u gid wid pid → Sound (l.foldl (fun u i => u.store g.core (rowKey g m i) (row i) (st i)) u) gid wid pid := by
  induction l generalizing u with
  | nil => exact ⟨rfl, .refl u, fun _ _ _ h => h⟩
  | cons i l ih =>
    have hkey : region ≤ rowKey g m i := region_le_benchKey _ _
    have hne := hrow i List.mem_cons_self
    have hquiet : Quiet (placed u (rowKey g m i) (row i) (st i)) (u.store g.core (rowKey g m i) (row i) (st i)) := store_quiet hkey hne
    have haside : Aside u (u.store g.core (rowKey g m i) (row i) (st i)) := store_upper_aside hkey hne
    obtain ⟨hmem, hrest, hsound⟩ := ih (fun j hj => hrow j (List.mem_cons_of_mem _ hj)) (u.store g.core (rowKey g m i) (row i) (st i))
    rw [store_upper_mem hkey hne] at hmem
    rw [List.foldl_cons, List.foldl_cons]
    exact ⟨hmem, haside.trans hrest, fun gid wid pid h => hsound gid wid pid (hquiet.sound (sound_of_warps h (placed_warps ..)))⟩

/-- The rows lie apart and below the valid bits of the bench. -/
theorem writes_rows {row : Nat → List Byte} (hcore : g.core < 384) (hlen : ∀ i, (row i).length ≤ 512)
    (hsize : g.benchBase + m.addr + 127 * m.pitch + 512 ≤ 2 ^ 19) :
    Writes (fun w i => written w (rowKey g m i) (row i)) (rowKey g m) row (· < 128) (· < 9 * region) where
  out w i b _ h hb := by
    have hkey : region ≤ rowKey g m i := region_le_benchKey _ _
    rw [rdByte_written_below hb, rdByte_wrBytes_apart (.inr (gang_le_region.trans hkey)) h]
  back w i _ hw := rdBytes_written hw (region_le_benchKey _ _) ((hlen i).trans (by unfold region; norm_num))
  wf w i hw := wf_written _ _ hw
  upper i := gang_le_region.trans (region_le_benchKey _ _)
  own i hi k hk := by
    have hpitch : i * m.pitch ≤ 127 * m.pitch := Nat.mul_le_mul_right _ (Nat.le_of_lt_succ hi)
    have := hlen i
    unfold rowKey benchKey region
    omega

theorem rows_apart {w i j : Nat} (hpitch : w ≤ m.pitch) (hne : j ≠ i) : rowKey g m i + w ≤ rowKey g m j ∨ rowKey g m j + w ≤ rowKey g m i := by
  have hstep : ∀ a b, a < b → a * m.pitch + m.pitch ≤ b * m.pitch := fun a b h => by
    rw [← Nat.succ_mul]; exact Nat.mul_le_mul_right _ h
  unfold rowKey benchKey
  rcases Nat.lt_or_gt_of_ne hne with h | h
  · have := hstep j i h; omega
  · have := hstep i j h; omega

/-- The rows in the bench, and what else storing them touches. -/
theorem finishCmd_maccst (hk : m.kind = .maccst) (hg : s.group? m.gid = some g) (hs : Sound s m.gid m.wid m.pid) :
    (finishCmd s g m).mem = (List.range 128).foldl (fun w i => written w (rowKey g m i) (storedRow s.mem g m i).1) s.mem ∧
      (∀ k, SameArray (s.core k) ((finishCmd s g m).core k)) ∧ ∃ v, (finishCmd s g m).group? m.gid = some v := by
  have hne : ∀ i ∈ List.range 128, (storedRow s.mem g m i).1 ≠ [] := fun i _ h => by
    have hlen := length_storedRow s.mem g m i
    have hpos : 0 < rowWidth m := by unfold rowWidth; split <;> norm_num
    rw [h, List.length_nil] at hlen
    omega
  obtain ⟨u, hrace, hu⟩ : ∃ u, s.raceCheck m.gid m.wid m.pid m.lanes ((List.range 128).map fun i =>
      benchSpot g (m.addr + i * m.pitch) (if m.form = 0 then 512 else 256)) = u ∧ Quiet s u := ⟨_, rfl, .raceCheck ..⟩
  obtain ⟨row, hrow⟩ : ∃ row : Nat → List Byte × Word, ∀ i, storedRow s.mem g m i = ((row i).1, (row i).2) := ⟨storedRow s.mem g m, fun _ => rfl⟩
  obtain ⟨t, st, hfold⟩ : ∃ t st, (List.range 128).foldl (fun (a : State × Word) i => (a.1.store g.core
      (benchKey g.core (g.benchBase + m.addr + i * m.pitch)) (row i).1
      (s.stampFor m.gid m.wid m.count (benchKey g.core (g.benchBase + m.addr + i * m.pitch))), a.2 ||| (row i).2)) (u, 0) = (t, st) := ⟨_, _, rfl⟩
  have hfinish : finishCmd s g m = (t.modPend m.gid m.wid m.pid fun q => { q with sticky := st }).complete m.gid m.wid m.pid := by
    simp only [finishCmd, hk, hrace, hrow, hfold]
  have hbytes : ∀ i, (storedRow s.mem g m i).1 = (row i).1 := fun i => by rw [hrow]
  have ht : t = (List.range 128).foldl (fun u i => u.store g.core (rowKey g m i) (row i).1 (s.stampFor m.gid m.wid m.count (rowKey g m i))) u :=
    (congrArg Prod.fst hfold).symm.trans (foldl_fst (fun (u : State) i => u.store g.core (rowKey g m i) (row i).1
      (s.stampFor m.gid m.wid m.count (rowKey g m i))) (fun a i => a.2 ||| (row i).2) _ _ _)
  obtain ⟨hmem, haside, hsound⟩ := stores_leave (g := g) (m := m) (row := fun i => (row i).1)
    (st := fun i => s.stampFor m.gid m.wid m.count (rowKey g m i)) (fun i hi => hbytes i ▸ hne i hi) u
  rw [← ht] at hmem haside hsound
  have hquiet : Quiet t (t.modPend m.gid m.wid m.pid fun q => { q with sticky := st }) := .modPend _ _ _ fun _ => ⟨rfl, id, id⟩
  have hfinal := hquiet.sound (hsound _ _ _ (hu.sound hs))
  have hall : Aside s (t.modPend m.gid m.wid m.pid fun q => { q with sticky := st }) := (hu.toAside.trans haside).trans hquiet.toAside
  rw [hfinish]
  refine ⟨?_, fun k => ?_, ?_⟩
  · rw [complete_mem hfinal, hquiet.mem, hmem, hu.mem]
    simp only [hbytes]
  · rw [complete_core hfinal]
    exact hall.core k
  · obtain ⟨v, hv, -⟩ := rel_some (hall.group m.gid) hg
    exact ⟨v, (complete_group hfinal _).trans hv⟩

/-! ## MRESOLVE -/

theorem finishCmd_mresolve (hk : m.kind = .mresolve) (hg : s.group? m.gid = some g) (hs : Sound s m.gid m.wid m.pid) :
    (∀ k, (finishCmd s g m).core k = s.core k) ∧ ∃ v, (finishCmd s g m).group? m.gid = some v ∧ ∀ d ∈ v.deferred, d.tile ≠ some m.tile := by
  have hfinish : finishCmd s g m = (s.complete m.gid m.wid m.pid).settleHeld m.gid m.tile m.commit := by simp only [finishCmd, hk]
  rw [hfinish]
  refine ⟨complete_core hs, _, (modGroup_self ..).trans (congrArg (Option.map _) ((complete_group hs _).trans hg)), fun d hd => ?_⟩
  obtain ⟨a, -, ha⟩ := List.mem_filterMap.1 hd
  unfold Deferred.settle at ha
  split at ha
  · split at ha
    · cases ha; exact nofun
    · cases ha
  · cases ha; assumption

end Sys2Proof.Laws
end

section
/-! SUPPORT. Completions of the array's commands, a discard's restore and a fill (R108, R110, R111, R125, R129). -/

namespace Sys2Proof.Laws

open Sys2Proof.Machine

variable {s : State} {core q n : Nat} {m : MCmd} {g : Group} {rest : List MCmd}

/-! ## A command's completion -/

/-- A core without a command that has completed. -/
def finished (s : State) (core : Nat) (m : MCmd) : State :=
  s.modCore core fun k => { k with finishing := k.finishing.filter fun x => x.id != m.id }

theorem finished_core (s : State) (core : Nat) (m : MCmd) : (finished s core m).core core =
    { s.core core with finishing := (s.core core).finishing.filter fun x => x.id != m.id } := modCore_self ..
theorem finished_warps (s : State) (core : Nat) (m : MCmd) : (finished s core m).warps = s.warps := rfl
theorem finished_loadedBytes (s : State) (core : Nat) (m : MCmd) (g : Group) : loadedBytes (finished s core m) g m = loadedBytes s g m := rfl

theorem matrixCommandCompletion_next (hfind : (s.core core).finishing.find? (fun c => decide (c.ends ≤ s.cycle)) = some m)
    (hg : s.group? m.gid = some g) : exec (.matrixCommandCompletion core) s = .next (finishCmd (finished s core m) g m) := by
  show execMatrixCommandCompletion core s = _
  simp only [execMatrixCommandCompletion, hfind, hg, finished]

/-- Whatever its kind, a command's completion leaves the arrays and finds its group. -/
theorem finishCmd_leaves (hg : s.group? m.gid = some g) (hs : Sound s m.gid m.wid m.pid) (hp : s.poison = []) (hsoft : s.soft = []) :
    (∀ k, SameArray (s.core k) ((finishCmd s g m).core k)) ∧ ∃ v, (finishCmd s g m).group? m.gid = some v := by
  have hsame : (∀ k, (finishCmd s g m).core k = s.core k) → ∀ k, SameArray (s.core k) ((finishCmd s g m).core k) := fun h k => by
    rw [h k]; exact .refl _
  cases hk : m.kind with
  | mma =>
    obtain ⟨-, hc, v, hv, -⟩ := finishCmd_product (.inl hk) hg hs
    exact ⟨hsame hc, v, hv⟩
  | mmas =>
    obtain ⟨-, hc, v, hv, -⟩ := finishCmd_product (.inr hk) hg hs
    exact ⟨hsame hc, v, hv⟩
  | mzero =>
    obtain ⟨-, hc, hv⟩ := finishCmd_mzero hk hg hs
    exact ⟨hsame hc, _, hv⟩
  | maccld =>
    obtain ⟨-, hc, hv⟩ := finishCmd_maccld hk hg hs hp hsoft
    exact ⟨hc, hv⟩
  | maccst =>
    obtain ⟨-, hc, hv⟩ := finishCmd_maccst hk hg hs
    exact ⟨hc, hv⟩
  | mresolve =>
    obtain ⟨hc, v, hv, -⟩ := finishCmd_mresolve hk hg hs
    exact ⟨hsame hc, v, hv⟩

/-! ## A discard's restore -/

theorem pickHead_mem {l : List (Nat × MCmd × Nat)} {x : Nat × MCmd × Nat} (h : pickHead l = some x) : x ∈ l := by
  induction l generalizing x with
  | nil => cases h
  | cons a l ih =>
    unfold pickHead at h
    split at h
    · cases h; exact List.mem_cons_self
    · rename_i y hy
      have hmem : y ∈ a :: l := List.mem_cons_of_mem _ (ih hy)
      simp only [] at h
      split at h
      · split at h <;> cases h
        exacts [List.mem_cons_self, hmem]
      · split at h <;> cases h
        exacts [hmem, List.mem_cons_self]

/-- The array's next head carries its own charge. -/
theorem nextHead_charge (h : nextHead s core = some (q, m, n)) : ∃ g, n = charge g m := by
  unfold nextHead at h
  split at h
  · cases h
  · obtain ⟨p, -, hp⟩ := List.mem_filterMap.1 (pickHead_mem h)
    split at hp
    · split at hp
      · obtain ⟨g, -, heq⟩ := Option.map_eq_some_iff.1 hp
        obtain ⟨-, rfl, rfl⟩ : p = q ∧ _ = m ∧ _ = n := by simpa using heq
        exact ⟨g, rfl⟩
      · cases hp
    · cases hp

theorem charge_restores (h : m.restores = true) (g : Group) : charge g m = 0 := by
  have hk : m.kind = .mresolve := by
    unfold MCmd.restores at h
    simp only [Bool.and_eq_true, decide_eq_true_eq] at h
    exact h.1
  simp only [charge, hk, h, if_true]

theorem mresolveRestore_next (h : nextHead s core = some (q, m, n)) (hres : m.restores = true) (hg : s.group? m.gid = some g) :
    exec (.mresolveRestore core q) s = .next ((tileCopied m.snap
      (copyTile (s.takeHead core q n).mem core (g.tileBase + m.tile) (g.tileBase + m.tile + 1)) m.gid m.tile (g.tile (m.tile + 1))
      (s.takeHead core q n)).finishing core 16 16 m) := by
  show execMresolveRestore core q s = _
  simp only [execMresolveRestore, h, hg, hres, Bool.true_and, decide_true, Bool.not_true, Bool.false_eq_true, if_false, tileCopied]

/-! ## Fills -/

section fill
variable {id : Nat} {e : ECmd}

/-- A slot's data and headers written. -/
def slotFilled (mem : List Host.Cell) (core slot : Nat) (data hdr : List Byte) : List Host.Cell :=
  wrBytes (wrBytes mem (slotKey core slot 0) data) (slotKey core slot 12288) hdr

theorem upper_slotKey (core slot off : Nat) : 2 * gangBase ≤ slotKey core slot off := gang_le_region.trans (by unfold slotKey; omega)

theorem slotFilled_headers {mem : List Host.Cell} (hwf : Memory.wf mem = true) (core slot : Nat) (data hdr : List Byte) :
    rdBytes (slotFilled mem core slot data hdr) (slotKey core slot 12288) hdr.length = hdr :=
  rdBytes_wrBytes (wf_wrBytes _ _ hwf) (.inr (.inl (upper_slotKey ..)))

theorem slotFilled_data {mem : List Host.Cell} (hwf : Memory.wf mem = true) (core slot : Nat) {data : List Byte} (hlen : data.length ≤ 12288)
    (hdr : List Byte) : rdBytes (slotFilled mem core slot data hdr) (slotKey core slot 0) data.length = data := by
  have hup := upper_slotKey core slot 0
  refine (List.map_congr_left fun k hk => ?_).trans (rdBytes_wrBytes (bs := data) (a := slotKey core slot 0) hwf (.inr (.inl hup)))
  have hlt : slotKey core slot 0 + k < slotKey core slot 12288 := by
    have hk := List.mem_range.1 hk
    unfold slotKey
    omega
  rw [cell_plain (.inr (hup.trans (Nat.le_add_right ..))), slotFilled, rdByte_wrBytes_apart (.inr (upper_slotKey ..)) (.inl hlt)]

/-- A group with a slot READY. -/
def slotReadied (e : ECmd) (estimate : Nat) (g : Group) : Group :=
  withSlot g e.lslot { g.slot e.lslot with state := 3, estimate := estimate }

/-- The state in which a fill has written its slot. -/
def fillLanded (core id : Nat) (e : ECmd) (mem : List Host.Cell) (s : State) : State :=
  (({ s with mem := mem } : State).modGroup e.gid (slotReadied e (toggleEstimate mem core e.slot))).modCore core fun k =>
    { k with engine := k.engine.filter fun x => x.id != id }

theorem fillLanded_mem (mem : List Host.Cell) (s : State) : (fillLanded core id e mem s).mem = mem := rfl
theorem fillLanded_warps (mem : List Host.Cell) (s : State) : (fillLanded core id e mem s).warps = s.warps := rfl
theorem fillLanded_group (mem : List Host.Cell) {s : State} {g : Group} (hg : s.group? e.gid = some g) :
    (fillLanded core id e mem s).group? e.gid = some (slotReadied e (toggleEstimate mem core e.slot) g) :=
  (modGroup_self ..).trans (congrArg (Option.map _) hg)
theorem fillLanded_engine (mem : List Host.Cell) (s : State) : ∀ x ∈ ((fillLanded core id e mem s).core core).engine, x.id ≠ id := by
  rw [fillLanded, modCore_self]
  intro x hx
  simpa using (List.mem_filter.1 hx).2

section landing
variable (hfind : (s.core core).engine.find? (fun x => decide (x.id = id) && decide (x.kind = .mfill)) = some e) (hg : s.group? e.gid = some g)
include hfind hg

theorem mfillCompletion_waits (hdone : readersDone (s.core core) e = false) :
    exec (.mfillCompletion core id) s = .next (s.setCmd core { e with due := s.cycle + 96 + e.hdrLen / 128 }) := by
  show execMfillCompletion core id s = _
  simp only [execMfillCompletion, hfind, hg, hdone, Bool.not_false, if_true]

theorem mfillCompletion_lands (hdone : readersDone (s.core core) e = true) (hdue : e.due ≤ s.cycle) : ∃ bad,
    exec (.mfillCompletion core id) s = .next (readerDone e.warn e.gid e.wid e.pid e.lanes bad
      (fillLanded core id e (slotFilled
        (s.consumes g e.gid e.wid e.pid e.lanes [benchSpot g e.srcA e.len, benchSpot g e.hdrA e.hdrLen]).mem core e.slot
        (s.scratchBytes g (benchSpot g e.srcA e.len)).bytes (s.scratchBytes g (benchSpot g e.hdrA e.hdrLen)).bytes)
        (s.consumes g e.gid e.wid e.pid e.lanes [benchSpot g e.srcA e.len, benchSpot g e.hdrA e.hdrLen]))) := by
  refine ⟨s.unwritten [benchSpot g e.srcA e.len] ++ s.unwritten [benchSpot g e.hdrA e.hdrLen], ?_⟩
  show execMfillCompletion core id s = _
  simp only [execMfillCompletion, hfind, hg, hdone, Bool.not_true, Bool.false_eq_true, if_false, Nat.not_lt.2 hdue, benchRead]
  rfl

/-- A fill that lands leaves the bench's bytes in a READY slot. -/
theorem mfillCompletion_ready (hdone : readersDone (s.core core) e = true) (hdue : e.due ≤ s.cycle) (hp : s.poison = []) (hsoft : s.soft = [])
    (hs : Sound s e.gid e.wid e.pid) : ∃ t v, exec (.mfillCompletion core id) s = .next t ∧ (∀ x ∈ (t.core core).engine, x.id ≠ id) ∧
      t.mem = slotFilled s.mem core e.slot (s.scratchBytes g (benchSpot g e.srcA e.len)).bytes
        (s.scratchBytes g (benchSpot g e.hdrA e.hdrLen)).bytes ∧
      t.group? e.gid = some v ∧ (v.slot e.lslot).state = 3 ∧ (v.slot e.lslot).estimate = toggleEstimate t.mem core e.slot := by
  obtain ⟨bad, hnext⟩ := mfillCompletion_lands hfind hg hdone hdue
  have hquiet : Quiet s (s.consumes g e.gid e.wid e.pid e.lanes [benchSpot g e.srcA e.len, benchSpot g e.hdrA e.hdrLen]) :=
    consumes_quiet hp hsoft ..
  generalize s.consumes g e.gid e.wid e.pid e.lanes [benchSpot g e.srcA e.len, benchSpot g e.hdrA e.hdrLen] = u at hnext hquiet
  rw [hquiet.mem] at hnext
  generalize slotFilled s.mem core e.slot _ _ = mem at hnext ⊢
  obtain ⟨g0, hg0, -⟩ := rel_some (hquiet.group e.gid) hg
  have haside : Aside (fillLanded core id e mem u) _ := readerDone_aside (gid := e.gid) (wid := e.wid) (pid := e.pid) e.warn e.lanes bad
  have hmem := readerDone_mem e.warn e.lanes bad (sound_of_warps (hquiet.sound hs) (fillLanded_warps (core := core) (id := id) (e := e) mem u))
  rw [fillLanded_mem] at hmem
  obtain ⟨v, hv, honly⟩ := rel_some (haside.group e.gid) (fillLanded_group mem hg0)
  have hslot : v.slot e.lslot = { g0.slot e.lslot with state := 3, estimate := toggleEstimate mem core e.slot } := by
    rw [show v = _ from honly]
    exact (withSlot_slot ..).trans (if_pos rfl)
  refine ⟨_, v, hnext, ?_, hmem, hv, ?_, ?_⟩
  · rw [(haside.core core).engine]
    exact fillLanded_engine mem u
  · rw [hslot]
  · rw [hslot, hmem]

end landing
end fill

end Sys2Proof.Laws
end

section
/-! THEOREMS. Completed matrix commands. -/

namespace Sys2Proof.Laws

open Sys2Proof.Machine

/-- Settles O42: a completion by the kind of its command, a restore and a fill by what they write. -/
theorem matrixCommandsComplete : Obligations.MatrixCommandsComplete := by
  unfold Obligations.MatrixCommandsComplete
  refine ⟨fun core s m g hfind hg hs hp hsoft hwf hcore hlt => ?completion, fun core queue s m n rest g hnext hqueue hres hg hwf => ?restore,
    fun core id s e g hfind hg => ⟨mfillCompletion_waits hfind hg, fun hdue hdone hp hsoft hs hwf hlen hhdr => ?fill⟩⟩
  case completion =>
    have hs' : Sound (finished s core m) m.gid m.wid m.pid := sound_of_warps hs (finished_warps ..)
    have hg' : (finished s core m).group? m.gid = some g := hg
    obtain ⟨hsame, v, hv⟩ := finishCmd_leaves hg' hs' hp hsoft
    have huniq : ∀ {v'}, (finishCmd (finished s core m) g m).group? m.gid = some v' → v' = v := fun h => Option.some.inj (h.symm.trans hv)
    refine ⟨_, v, matrixCommandCompletion_next hfind hg, fun c => ?_, hv, fun hk => ?product, fun hk => ?mzero, fun hk => ?maccld,
      fun hk hpitch hsize i hi => ?maccst, fun hk => ?mresolve⟩
    · rw [(hsame core).finishing, finished_core]
      simp
    case product =>
      obtain ⟨hmem, -, v', hv', hslots, htiles, hdeferred⟩ := finishCmd_product hk hg' hs'
      obtain rfl := huniq hv'
      refine ⟨hmem, ?_, ?_, fun j => ?_, hdeferred⟩
      · rw [htiles, productDone_tile]
      · rw [htiles, productDone_tile]
      · rw [hslots, productDone_slot]
    case mzero =>
      obtain ⟨hmem, -, hv'⟩ := finishCmd_mzero hk hg' hs'
      obtain rfl := huniq hv'
      rw [hmem]
      exact ⟨fun i hi j hj => tileZeroed_word _ g m.tile hi hj, fun a ha => tileZeroed_frame ha, fun hclear => clearTile_tile hclear g⟩
    case maccld =>
      obtain ⟨hmem, -, -⟩ := finishCmd_maccld hk hg' hs' hp hsoft
      rw [hmem, finished_loadedBytes]
      exact ⟨fun i hi j hj => loaded_word hwf hi hj, fun a ha => loaded_frame ha⟩
    case maccst =>
      obtain ⟨hmem, -, -⟩ := finishCmd_maccst hk hg' hs'
      have hlen := length_storedRow s.mem g m
      have hwidth : 128 * rowWidth m ≤ 512 := by unfold rowWidth; split <;> norm_num
      have hwrites := writes_rows (m := m) (row := fun i => (storedRow s.mem g m i).1) (hcore.symm ▸ hlt)
        (fun j => (hlen j).trans_le hwidth) hsize
      have hrow := hwrites.held
        (List.mem_range.2 hi) (fun j hj => List.mem_range.1 hj) (fun j _ hne => by rw [hlen, hlen]; exact rows_apart hpitch hne) hwf
      rw [hlen] at hrow
      rw [hmem]
      exact hrow
    case mresolve =>
      obtain ⟨-, v', hv', hheld⟩ := finishCmd_mresolve hk hg' hs'
      obtain rfl := huniq hv'
      exact hheld
  case restore =>
    obtain ⟨g', rfl⟩ := nextHead_charge hnext
    refine ⟨_, mresolveRestore_next hnext hres hg, ?_, ?_, ?_, ?_, fun hsnap => ?_, fun hsnap i hi j hj => ?_⟩
    · rw [finishing_core, tileCopied_core, takeHead_queue hqueue]
    · rw [finishing_core, tileCopied_core, takeHead_core, charge_restores hres]
      rfl
    · rw [finishing_core, tileCopied_cycle, takeHead_cycle]
      exact le_max_right ..
    · rw [finishing_core, tileCopied_core, tileCopied_cycle, takeHead_core, takeHead_cycle]
    · rw [finishing_mem, tileCopied_mem, hsnap, if_neg Bool.false_ne_true, takeHead_mem]
    · rw [finishing_mem, tileCopied_mem, hsnap, if_pos rfl, takeHead_mem]
      exact copyTile_word hwf core (g.tileBase + m.tile) (g.tileBase + m.tile + 1) hi hj
  case fill =>
    obtain ⟨t, v, hnext, hengine, hmem, hv, hstate, hestimate⟩ := mfillCompletion_ready hfind hg hdone hdue hp hsoft hs
    have hdata : (s.scratchBytes g (benchSpot g e.srcA e.len)).bytes.length = 12288 := (length_scratchBytes ..).trans hlen
    have hheaders := slotFilled_headers hwf core e.slot (s.scratchBytes g (benchSpot g e.srcA e.len)).bytes
      (s.scratchBytes g (benchSpot g e.hdrA e.hdrLen)).bytes
    rw [show (s.scratchBytes g (benchSpot g e.hdrA e.hdrLen)).bytes.length = e.hdrLen from length_scratchBytes ..] at hheaders
    have hbytes := slotFilled_data hwf core e.slot hdata.le (s.scratchBytes g (benchSpot g e.hdrA e.hdrLen)).bytes
    rw [hdata] at hbytes
    exact ⟨t, v, hnext, hengine, by rw [hmem, hbytes, hlen], hmem ▸ hheaders, hv, hstate, hestimate⟩

end Sys2Proof.Laws
end

section
/-! SUPPORT. LD, ST and the atomics where a lane's access fails a check (R139, R335): the effect ends in the trap of the checks, and nothing
of the instruction is done. -/

namespace Sys2Proof.Laws

open Sys2Proof.Machine

variable {c : Issuer} {s u : State}

/-! ## Rows of memory -/

theorem exec_ld (f : MFmt) (s : State) : exec (.ld f) s = issue (.ld f) (fun c => ckLd c.env f) (ldEff f) s := rfl
theorem exec_st (f : MFmt) (s : State) : exec (.st f) s = issueAt (.st f) (stPoint f) (fun c => ckSt c.env f) (stEff f) s := rfl
theorem exec_atomRow (op : AtomOp) (f : AFmt) (s : State) : exec (atomRow op f) s = runAtomic (atomRow op f) op f s := by cases op <;> rfl

theorem ld_effect {f : MFmt} (h : MayIssue (.ld f) c s) : exec (.ld f) s = match ldEff f c (issued (.ld f) c s) with
    | .ok t => .next t
    | .error e => .next (raise s c.ref e) := (exec_ld f s).trans (issue_effect h rfl rfl)

theorem st_effect {f : MFmt} (h : MayIssue (.st f) c s) : exec (.st f) s = match stEff f c (issued (.st f) c s) with
    | .ok t => .next t
    | .error e => .next (raise s c.ref e) := (exec_st f s).trans (issueAt_effect h rfl rfl)

theorem atomRow_effect {op : AtomOp} {f : AFmt} (h : MayIssue (atomRow op f) c s) :
    exec (atomRow op f) s = match atomEff (atomRow op f) op f c (issued (atomRow op f) c s) with
      | .ok t => .next t
      | .error e => .next (raise s c.ref e) := by
  refine (exec_atomRow op f s).trans (issueAt_effect h ?_ ?_)
  · cases op <;> rfl
  · cases op <;> rfl

/-! ## A failed check -/

theorem ldEff_error {f : MFmt} {e : TrapInfo} (h : u.access c (mAcc f .read) (mAddrs c.env f) = .error e) : ldEff f c u = .error e := by
  simp [ldEff, h]

theorem stEff_error {f : MFmt} {e : TrapInfo} (h : u.access c (mAcc f .write) (mAddrs c.env f) = .error e) : stEff f c u = .error e := by
  simp [stEff, h]

/-- The access of an atomic (R146, R147). -/
def atomAcc (op : AtomOp) (f : AFmt) : Acc :=
  { space := f.space.toNat, obj := f.ident.toNat, n := aBytes f, step := aBytes f, align := aBytes f, need := .both, atomic := true,
    op := some (op, aRets f) }
def atomAddrs (f : AFmt) (c : Issuer) : List (Nat × Nat) := (bitsSet (c.env.active f.guard)).map fun l => (l, aAddr c.env f l)

theorem atomPieces_eq (op : AtomOp) (f : AFmt) (c : Issuer) (s : State) :
    atomPieces op f c s = (issued (atomRow op f) c s).access c (atomAcc op f) (atomAddrs f c) := rfl

theorem access_nil (a : Acc) : u.access c a [] = .ok [] := rfl

theorem bitsSet_zero : bitsSet 0 = [] := by simp [bitsSet]

/-- An atomic whose access fails a check has an active lane. -/
theorem atomEff_error {i : Instr} {op : AtomOp} {f : AFmt} {e : TrapInfo} (hr : atomRefused f c = false)
    (h : u.access c (atomAcc op f) (atomAddrs f c) = .error e) : atomEff i op f c u = .error e := by
  have hactive : c.env.active f.guard ≠ 0 := by
    intro h0
    rw [atomAddrs, h0, bitsSet_zero] at h
    cases h
  unfold atomEff
  rw [if_neg (by simpa [atomRefused] using hr), if_neg hactive]
  unfold atomAcc atomAddrs at h
  simp only [h]

theorem access_misaligned {a : Acc} {lane ea : Nat} (hspace : a.space < 4) (h : ea % a.align ≠ 0) (rest : List (Nat × Nat)) :
    u.access c a ((lane, ea) :: rest) = .error (c.precise 0x0A ea) := by
  have hlane : u.laneSpots c a lane ea = .error (c.precise 0x0A ea) := by
    simp [State.laneSpots, hspace.ne, h]
  simp [State.access, State.allSpots, hlane]

theorem mAddrs_cons {f : MFmt} {lane : Nat} {rest : List Nat} (h : mLanes c.env f = lane :: rest) :
    mAddrs c.env f = (lane, mAddr c.env f lane) :: rest.map fun l => (l, mAddr c.env f l) := by rw [mAddrs, h]; rfl

end Sys2Proof.Laws
end

section
namespace Sys2Proof.Laws

open Sys2Proof.Machine

/-- Settles O12: the checks of all lanes come before any effect, and those of the lowest lane first. -/
theorem accessTrapsArePrecise : Obligations.AccessTrapsArePrecise := by
  refine ⟨⟨?load, ?store, ?atomic⟩, ?loadMisaligned, ?storeMisaligned⟩
  case load => exact fun f c s e h he => by rw [ld_effect h, ldEff_error he]
  case store => exact fun f c s e h he => by rw [st_effect h, stEff_error he]
  case atomic => exact fun op f c s e h hr he => by rw [atomRow_effect h, atomEff_error hr he]
  case loadMisaligned =>
    intro f c s lane rest h hspace hlanes halign
    rw [ld_effect h, ldEff_error (e := c.precise 0x0A (mAddr c.env f lane))]
    · rfl
    · rw [mAddrs_cons hlanes, access_misaligned hspace halign]
  case storeMisaligned =>
    intro f c s lane rest h hspace hlanes halign
    rw [st_effect h, stEff_error (e := c.precise 0x0A (mAddr c.env f lane))]
    · rfl
    · rw [mAddrs_cons hlanes, access_misaligned hspace halign]

end Sys2Proof.Laws
end

section
/-! SUPPORT. Two lanes of an atomic at one word of the shop, the first with an operand of more than 32 bits. -/

namespace Sys2Proof.Laws

open Sys2Proof.Machine

/-- The word at which both lanes act. -/
def sharedWord : Nat := 5 * region

/-- A group for which the place performs the atomic. -/
def atomGroup : Group := { task := 0, index := 0, core := 0, crew := 0 }

/-- A minimum of 4 bytes whose first operand is wider than that: the lane stores its low bytes, which order above the second operand, and
the operand itself orders below every value. -/
def wideMinimum : AtomSpec :=
  { op := .fmin, size := 4, rets := true, acq := false, rel := false, count := 0,
    lanes := [{ lane := 0, addr := sharedWord, va := 0, b := 2 ^ 32 + 5, c := 0 }, { lane := 1, addr := sharedWord, va := 0, b := 3, c := 0 }] }

/-- The second lane's minimum is of what the first has left in memory. -/
theorem wideMinimum_stored : rdBytes (atomAt State.reset atomGroup (fun _ => none) wideMinimum).st.mem sharedWord 4 = natBytes 4 3 := by decide +kernel

/-- Computed with the whole operand, the second minimum would be that operand still. -/
theorem wideMinimum_folded : (wideMinimum.lanes.foldl (fun v l => (atomNew .fmin 4 v l.b l.c).getD v) 0) = 2 ^ 32 + 5 := by decide +kernel

/-- Refutes O14: its third clause allows operands wider than the atomic and folds them uncut, where memory between two lanes holds only the
low bytes. With a float minimum of 2^32 + 5 and then 3 on a word that holds 0, memory ends with 3 and the fold with 2^32 + 5. -/
theorem not_atomicResultValues : ¬ Obligations.AtomicResultValues := by
  rintro ⟨-, -, h⟩
  have hregion : keyRegion sharedWord = 5 ∧ keyRegion (sharedWord + 4) = 5 := by decide +kernel
  have haddr : ∀ x ∈ wideMinimum.lanes, x.addr = sharedWord := by decide +kernel
  obtain ⟨-, hstored, -⟩ := h State.reset atomGroup (fun _ => none) wideMinimum rfl rfl rfl (.inl rfl) (by decide)
    (fun x hx => by rw [haddr x hx]; exact ⟨hregion.1 ▸ by decide, hregion.2.le.trans (by decide)⟩)
    (fun x hx y hy => .inl ((haddr x hx).trans (haddr y hy).symm))
  have hclaim : natBytes 4 3 = natBytes 4 (2 ^ 32 + 5) := by
    have hall : wideMinimum.lanes.filter (fun y => decide (y.addr = sharedWord)) = wideMinimum.lanes := by decide +kernel
    have hold : bytesNat (rdBytes ([] : List Host.Cell) sharedWord 4) = 0 := by decide +kernel
    rw [← wideMinimum_stored, ← wideMinimum_folded, ← hall, ← hold]
    exact hstored ⟨0, sharedWord, 0, 2 ^ 32 + 5, 0⟩ List.mem_cons_self
  exact absurd hclaim (by decide)

end Sys2Proof.Laws
end

section
/-! SUPPORT. What orders accesses (R223 to R235): releases, acquires, commits and the stores that go ahead of an operation change only
counts, tables and buffers: of the issuing warp its release count, its synchronised-with table, what it has noted for acquire fences and the
release fence of the issuing split; of other warps, of memory and of the places nothing. -/

namespace Sys2Proof.Laws

open Sys2Proof.Machine

variable {i : Instr} {c : Issuer} {s t u : State}

/-! ## The two relations -/

/-- A warp after releases and acquires of the split at an entry of its table. -/
structure OnlyCounts (e : Nat) (w v : Warp) : Prop where
  rest : v = { w with table := v.table, relCount := v.relCount, sync := v.sync, noted := v.noted }
  split : ∀ x, w.split? e = some x → ∃ y, v.split? e = some y ∧ y = { x with fenceRel := y.fenceRel }

namespace OnlyCounts

theorem refl (e : Nat) (w : Warp) : OnlyCounts e w w := ⟨rfl, fun x hx => ⟨x, hx, rfl⟩⟩

theorem trans {e : Nat} {u v w : Warp} (h : OnlyCounts e u v) (k : OnlyCounts e v w) : OnlyCounts e u w := by
  refine ⟨k.rest.trans (by rw [h.rest]), fun x hx => ?_⟩
  obtain ⟨y, hy, hyx⟩ := h.split x hx
  obtain ⟨z, hz, hzy⟩ := k.split y hy
  exact ⟨z, hz, hzy.trans (by rw [hyx])⟩

/-- The table stands. -/
theorem ofTable (e : Nat) {w v : Warp} (hv : v = { w with relCount := v.relCount, sync := v.sync, noted := v.noted }) : OnlyCounts e w v := by
  have ht : v.table = w.table := by rw [hv]
  refine ⟨hv.trans (by rw [ht]), fun x hx => ⟨x, ?_, rfl⟩⟩
  unfold Warp.split? at hx ⊢
  rwa [ht]

end OnlyCounts

/-- The state after operations that order the accesses of the issuing split. -/
structure Ordered (c : Issuer) (s t : State) : Prop where
  own : Option.Rel (OnlyCounts c.ref.ent) (s.warp? c.ref.gid c.ref.wid) (t.warp? c.ref.gid c.ref.wid)
  others : OtherWarps c s t
  fresh : s.fresh ≤ t.fresh
  mem : t.mem = s.mem
  cycle : t.cycle = s.cycle
  places : t.places = s.places

namespace Ordered

theorem refl (c : Issuer) (s : State) : Ordered c s s := ⟨rel_refl (OnlyCounts.refl _) _, fun _ _ _ => rfl, le_rfl, rfl, rfl, rfl⟩

theorem trans (h : Ordered c s t) (k : Ordered c t u) : Ordered c s u :=
  ⟨rel_trans .trans h.own k.own, fun g w hne => (k.others g w hne).trans (h.others g w hne), h.fresh.trans k.fresh, k.mem.trans h.mem,
    k.cycle.trans h.cycle, k.places.trans h.places⟩

theorem ofWarps (hw : t.warps = s.warps) (hf : s.fresh ≤ t.fresh) (hm : t.mem = s.mem) (hc : t.cycle = s.cycle) (hp : t.places = s.places) :
    Ordered c s t := by
  have h : ∀ g w, t.warp? g w = s.warp? g w := fun g w => by rw [State.warp?, hw]; rfl
  exact ⟨by rw [h]; exact rel_refl (OnlyCounts.refl _) _, fun g w _ => h g w, hf, hm, hc, hp⟩

theorem place (h : Ordered c s t) (u : UnitRef) : t.place u = s.place u := by rw [State.place, h.places]; rfl

theorem modWarp {f : Warp → Warp} (hf : ∀ w, OnlyCounts c.ref.ent w (f w)) : Ordered c s (s.modWarp c.ref.gid c.ref.wid f) :=
  ⟨rel_flook_fmod (OnlyCounts.refl _) hf _ _ _, fun _ _ h => modWarp_ne _ h _, le_rfl, rfl, rfl, rfl⟩

theorem modSplit {f : Split → Split} (hf : ∀ x, f x = { x with fenceRel := (f x).fenceRel }) : Ordered c s (s.modSplit c.ref f) :=
  .modWarp fun w => ⟨rfl, fun x hx => ⟨f x, by rw [split?_modEntry, hx]; rfl, hf x⟩⟩

theorem modGroup (gid : Nat) (f : Group → Group) : Ordered c s (s.modGroup gid f) := ofWarps rfl le_rfl rfl rfl rfl

theorem expose (g : Group) : Ordered c s (s.expose g) := ofWarps rfl le_rfl rfl rfl rfl

theorem release (n : Nat) : Ordered c s (s.release c.ref.gid c.ref.wid n) := by
  have hwarp : Ordered c s (s.modWarp c.ref.gid c.ref.wid fun w => { w with relCount := (w.relCount + 1) % 256 }) :=
    .modWarp fun w => .ofTable _ rfl
  unfold State.release
  split
  · extract_lets s1
    split
    exacts [hwarp.trans (.modGroup _ _), hwarp]
  · extract_lets s1
    split
    exacts [.modGroup _ _, .refl c s]

theorem releaseBy (n : Option Nat) : Ordered c s (releaseBy c n s) := by
  unfold Machine.releaseBy
  split
  · exact .refl c s
  · exact (release _).trans (.modSplit fun _ => rfl)

theorem noteReads (pid : Nat) (lanes : Mask) (es : List SyncEntry) : Ordered c s (s.noteReads c.ref.gid c.ref.wid pid lanes es) :=
  .modWarp fun _ => .ofTable _ rfl

theorem foldl {β : Type} {f : State → β → State} (hf : ∀ s b, Ordered c s (f s b)) (l : List β) (s : State) : Ordered c s (l.foldl f s) := by
  induction l generalizing s with
  | nil => exact .refl c s
  | cons b l ih => exact (hf s b).trans (ih _)

theorem ofNoted (h : Noted s t) : Ordered c s t := ofWarps h.warps h.fresh.ge h.mem (by rw [h.rest]) (by rw [h.rest])

theorem acquire (pid : Nat) (lanes : Mask) (es : List SyncEntry) : Ordered c s (s.acquire c.ref.gid c.ref.wid pid lanes es) := by
  refine .foldl (fun s e => ?_) es s
  split
  · split
    · exact .refl c s
    · split
      · exact .modWarp fun _ => .ofTable _ rfl
      · exact .ofNoted (.defer _ _ _ _ rfl _)
  · exact .refl c s

theorem atomAcquire (pid : Nat) (lanes : Mask) (acq : Bool) (es : List SyncEntry) :
    Ordered c s (s.atomAcquire c.ref.gid c.ref.wid pid lanes acq es) := by
  unfold State.atomAcquire
  split
  · exact (noteReads _ _ _).trans (.acquire _ _ _)
  · exact noteReads _ _ _

theorem commit (gid : Nat) (agent : Option (Nat × Mask)) : Ordered c s (s.commit gid agent) := by
  cases hg : s.group? gid with
  | none =>
    rw [State.commit, hg]
    exact .refl c s
  | some g =>
    rw [commit_eq hg]
    exact ofWarps rfl (Nat.le_succ _) rfl rfl rfl

theorem commitFor (mem : Bool) : Ordered c s (commitFor c mem s).1 := by
  cases mem with
  | false => exact .refl c s
  | true => exact .commit _ _

theorem drainFirst (cid : Nat) (meet : Nat × SbByte → Bool) : Ordered c s (s.drainFirst c cid meet) := by
  unfold State.drainFirst
  split
  · exact (expose _).trans (.modGroup _ _)
  · exact .modGroup _ _

end Ordered

/-! ## An operation after them -/

/-- The issuing warp where an instruction has issued. -/
theorem issued_own (hi : s.issuer = some c) (he : (c.profile i).head.ends = false) :
    ∃ w, (issued i c s).warp? c.ref.gid c.ref.wid = some w ∧
      w = { c.warp with flags := w.flags, table := w.table, tags := w.tags, issued := c.warp.issued + 1 } ∧
      (∀ k, w.flag k = c.warp.flag k + (if postFlag (c.profile i).head.post = some k then 1 else 0)) ∧
      ∃ x, w.split? c.ref.ent = some x ∧
        x = { c.split with pc := nextPc c.split.pc, dix := c.split.dix + 1, line := x.line, text := x.text, via := x.via,
                           second := x.second, run := x.run, lastIssue := s.cycle + 16, nextIssue := x.nextIssue, noWatch := false,
                           prio := false, fenceRel := x.fenceRel } := by
  obtain ⟨tags, hw⟩ := issued_warp hi he
  obtain ⟨⟨⟨v, hv, hrest, hflags, hsplit⟩, -⟩, -⟩ := ownWarp_addPend (q := { id := 0, kind := .long, ent := 0, lanes := 0 }) hi he rfl issued_fresh.ge rfl
  rw [addPend_eq, modWarp_self] at hv
  obtain ⟨w, hw', rfl⟩ := Option.map_eq_some_iff.1 hv
  obtain rfl := Option.some.inj (hw.symm.trans hw')
  exact ⟨_, hw, by rw [post_eq], hflags, hsplit⟩

/-- The issuing warp where an operation is left outstanding after accesses have been ordered, and the other warps. -/
theorem ordered_addPend (hi : s.issuer = some c) (he : (c.profile i).head.ends = false) (hu : Ordered c (issued i c s) u) {q : Pend}
    (ht : t.warps = (u.addPend c i q).warps) : OwnWarp i c s t (pendOf u c i q) ∧ OtherWarps c s t := by
  obtain ⟨w, hw, hrest, hflags, x, hx, hsplit⟩ := issued_own hi he
  obtain ⟨v, hv, honly⟩ := rel_some hu.own hw
  have hwarp : ∀ g w, t.warp? g w = (u.addPend c i q).warp? g w := fun g w => by rw [State.warp?, ht]; rfl
  have hwarpRest : v = { c.warp with flags := v.flags, table := v.table, tags := v.tags, issued := c.warp.issued + 1, relCount := v.relCount,
                                     sync := v.sync, noted := v.noted } := by
    have hv := congrArg (fun x : Warp => { x with table := v.table, relCount := v.relCount, sync := v.sync, noted := v.noted }) hrest
    rw [← honly.rest] at hv
    rw [show v.flags = w.flags by rw [honly.rest], show v.tags = w.tags by rw [honly.rest]]
    exact hv
  refine ⟨⟨⟨{ v with pend := v.pend ++ [pendOf u c i q] }, ?_, ?_, fun k => ?_, ?_⟩, issued_fresh (i := i) (c := c) (s := s) ▸ hu.fresh, rfl, rfl, rfl⟩,
    fun g w hne => ?_⟩
  · rw [hwarp, addPend_eq, modWarp_self]
    exact (congrArg (Option.map _) hv).trans rfl
  · rw [show v.pend = c.warp.pend by rw [hwarpRest]]
    exact congrArg (fun x : Warp => { x with pend := c.warp.pend ++ [pendOf u c i q] }) hwarpRest
  · rw [← hflags k, Warp.flag, Warp.flag, show v.flags = w.flags by rw [honly.rest]]
  · obtain ⟨y, hy, hyx⟩ := honly.split x hx
    obtain ⟨n, rfl⟩ : ∃ n, y = { x with fenceRel := n } := ⟨_, hyx⟩
    exact ⟨_, hy, congrArg (fun z : Split => { z with fenceRel := n }) hsplit⟩
  · rw [hwarp, addPend_eq, modWarp_ne _ hne]
    exact (hu.others g w hne).trans (issued_others he hne)

end Sys2Proof.Laws
end

section
/-! SUPPORT. FENCE and the instructions that it holds (R154), the arrivals of BARSYNC and BARARV and the release that each is (R155, R226,
R234). -/

namespace Sys2Proof.Laws

open Sys2Proof.Machine

variable {i : Instr} {c : Issuer} {s t u : State} {f : AFmt}

/-! ## The issuing split -/

theorem relCount_addPend (u : State) (q : Pend) :
    ((u.addPend c i q).warp? c.ref.gid c.ref.wid).map (·.relCount) = (u.warp? c.ref.gid c.ref.wid).map (·.relCount) := by
  rw [addPend_eq, modWarp_self]
  show ((u.warp? c.ref.gid c.ref.wid).map fun w => { w with pend := w.pend ++ [pendOf u c i q] }).map (·.relCount) = _
  cases u.warp? c.ref.gid c.ref.wid <;> rfl

theorem profile_head (c : Issuer) (i : Instr) : (c.profile i).head = (Machine.profile c.warp.width i).head := by
  unfold Issuer.profile
  split
  · extract_lets t
    split <;> rfl
  · rfl

/-! ## FENCE -/

theorem exec_fence (f : AFmt) (s : State) : exec (.fence f) s = issue (.fence f) (fun _ => ckFence f) (fenceEff f) s := rfl

/-- The commit of a release fence at .die or wider, and the mark that the split's next releasing instruction carries. -/
def fenced (f : AFmt) (c : Issuer) (u : State) : State :=
  let s1 := (commitFor c (wideRelease f.order f.scope) u).1
  if 2 ≤ f.order.toNat then s1.modSplit c.ref fun x => { x with fenceRel := some (max (x.fenceRel.getD 0) f.scope.toNat) } else s1

theorem fenced_ordered (f : AFmt) (c : Issuer) (u : State) : Ordered c u (fenced f c u) := by
  unfold fenced
  extract_lets s1
  split
  · exact (Ordered.commitFor _).trans (.modSplit fun _ => rfl)
  · exact .commitFor _

theorem fenced_splitAt (h : 2 ≤ f.order.toNat) {x : Split} (hx : (fenced f c u).splitAt c.ref = some x) :
    ∃ n, x.fenceRel = some n ∧ f.scope.toNat ≤ n := by
  rw [fenced, if_pos h, splitAt_modSplit] at hx
  obtain ⟨y, -, rfl⟩ := Option.map_eq_some_iff.1 hx
  exact ⟨_, rfl, le_max_right ..⟩

/-- The fence as an outstanding operation; it waits for its own commit where it makes one. -/
def fencePend (f : AFmt) (c : Issuer) (u : State) : Pend :=
  let cid := (commitFor c (wideRelease f.order f.scope) u).2
  { id := 0, kind := .fence f.order.toNat f.scope.toNat (if wideRelease f.order f.scope then cid + 1 else 0), ent := 0, lanes := 0,
    cover := if wideRelease f.order f.scope then some cid else none }

theorem fence_next (h : MayIssue (.fence f) c s) : exec (.fence f) s =
    .next ((fenced f c (issued (.fence f) c s)).addPend c (.fence f) (fencePend f c (issued (.fence f) c s))) :=
  issue_next h (exec_fence f s) rfl rfl rfl

/-! ## What a fence holds -/

/-- What a fence may hold is issued with a check of its own. -/
theorem fenceHolds_issues (n : Nat) (hf : fenceHolds (Machine.profile n i).head.op = true) :
    ∃ point ck eff, ∀ s, exec i s = issueAt i point ck eff s := by
  cases i
  case ld | st | tmov | bvclr | bvset | bvtst | atomAdd | atomUmin | atomUmax | atomSmin | atomSmax | atomAnd | atomOr | atomXor | atomExch
    | atomCas | atomFadd | atomFmin | atomFmax | atomLd | atomSt | pbinit | pbarv | pbtx | pbwait | wake
    | qpush | qpop | qpopw | cpy | gather | coll | rwinOpen | rwinClose | rstream | publish | rast | fpost | fnull | sample | mfill | maccld
    | maccst | mstat => exact ⟨_, _, _, fun _ => rfl⟩
  case fence f => exact ⟨_, fun _ => ckFence f, fenceEff f, fun _ => rfl⟩
  case barsync f => exact ⟨_, fun c => ckBar c.env c.grp.barCount f true, barsyncEff f, fun _ => rfl⟩
  case bararv f =>
    exact ⟨_, fun c => ckBar c.env c.grp.barCount f false, fun c t => .ok ((arrive c f t).later c (.bararv f) 1 []), fun _ => rfl⟩
  case waitq f =>
    exact ⟨_, fun c => ckWait c.env f true true 1, fun c t => waitEff (.waitq f) f (.waitq (2 ^ f.size.toNat)
      (if f.size = 3 then c.env.src64 f.opb true 0 else (c.env.ssrc f.opb).toNat)) (2 ^ f.size.toNat) (2 ^ f.size.toNat) false c t, fun _ => rfl⟩
  case unassignedOpcode f => exact ⟨_, fun _ => ([(true, 1)] : Ck), fun _ t => .ok t, fun _ => rfl⟩
  all_goals cases hf

/-- What a fence may hold waits where it may not issue. -/
theorem fenceHolds_waits (hf : fenceHolds (c.profile i).head.op = true) (hi : s.issuer = some c) (hc : canIssue i c s = false) :
    exec i s = .next s := by
  rw [profile_head] at hf
  obtain ⟨point, ck, eff, h⟩ := fenceHolds_issues _ hf
  exact (h s).trans (issueAt_waits hi hc)

/-- The lanes of a split are among those whose operations precede what it issues (R224). -/
theorem le_kinOf (w : Warp) (m : Mask) : ∃ b, w.kinOf m = m ||| b := by
  have h : ∀ (l : FMap SerialRec) (a : Mask), (∃ b, a = m ||| b) →
      ∃ b, l.foldl (fun a p => if p.2.held &&& m != 0 then a ||| p.2.held else a) a = m ||| b := by
    intro l
    induction l with
    | nil => exact fun a h => h
    | cons p l ih =>
      rintro a ⟨b, rfl⟩
      rw [List.foldl_cons]
      refine ih _ ?_
      split
      · exact ⟨b ||| p.2.held, BitVec.or_assoc ..⟩
      · exact ⟨b, rfl⟩
  exact h w.records m ⟨0, by simp⟩

theorem and_kinOf_ne_zero {w : Warp} {a m : Mask} (h : a &&& m ≠ 0) : a &&& w.kinOf m ≠ 0 := by
  obtain ⟨b, hb⟩ := le_kinOf w m
  intro h0
  rw [hb, BitVec.and_or_distrib_left] at h0
  exact h (BitVec.or_eq_zero_iff.1 h0).1

/-- A fence of the split's lanes keeps such an instruction from issuing. -/
theorem fence_holds {q : Pend} (hf : fenceHolds (c.profile i).head.op = true) (hsecond : c.split.second = false) (hq : q ∈ c.warp.pend)
    (hlanes : q.lanes &&& c.split.held ≠ 0) (hfence : isFence q.kind = true) : canIssue i c s = false := by
  have hkin : (q.lanes &&& c.warp.kinOf c.split.held != 0) = true := bne_iff_ne.2 (and_kinOf_ne_zero hlanes)
  have hholds : holdsIssue (c.profile i).head i q = true := by simp [holdsIssue, hf, hfence]
  have hpends : c.pends (holdsIssue (c.profile i).head i) = true :=
    List.any_eq_true.2 ⟨q, hq, (Bool.and_eq_true ..).mpr ⟨hkin, hholds⟩⟩
  have hgo : ∀ latches beside, canGo i c latches beside s = false := by
    intro latches beside
    simp [canGo, unitHolds, hpends]
  simp [canIssue, hsecond, hgo]

/-! ## Arrivals -/

theorem exec_barsync (f : AFmt) (s : State) : exec (.barsync f) s = issue (.barsync f) (fun c => ckBar c.env c.grp.barCount f true) (barsyncEff f) s := rfl
theorem exec_bararv (f : AFmt) (s : State) : exec (.bararv f) s = issue (.bararv f) (fun c => ckBar c.env c.grp.barCount f false)
    (fun c t => .ok ((arrive c f t).later c (.bararv f) 1 [])) s := rfl

/-- The counts that a release raises (R234). -/
theorem release_warp {gid wid : Nat} {w : Warp} (hw : s.warp? gid wid = some w) (n : Nat) :
    ((s.release gid wid n).warp? gid wid).map (·.relCount) = some (if 1 ≤ n then (w.relCount + 1) % 256 else w.relCount) := by
  have h : ∀ u : State, ((if 2 ≤ n then u.modGroup gid fun g => { g with relCount := (g.relCount + 1) % 256 } else u).warp? gid wid) = u.warp? gid wid := by
    intro u; split <;> rfl
  rw [State.release, h]
  split
  · rw [modWarp_self, hw]; rfl
  · rw [hw]; rfl

theorem release_group {gid : Nat} {g : Group} (hg : s.group? gid = some g) (wid n : Nat) :
    (s.release gid wid n).group? gid = some (if 2 ≤ n then { g with relCount := (g.relCount + 1) % 256 } else g) := by
  have h : (if 1 ≤ n then s.modWarp gid wid fun w => { w with relCount := (w.relCount + 1) % 256 } else s).group? gid = some g := by
    split <;> exact hg
  rw [State.release]
  split
  · rw [modGroup_self, h]; rfl
  · exact h

theorem release_mem (s : State) (gid wid n : Nat) : (s.release gid wid n).mem = s.mem := by
  unfold State.release
  extract_lets s1
  have h : s1.mem = s.mem := by simp only [s1]; split <;> rfl
  split <;> exact h

theorem release_crews (s : State) (gid wid n : Nat) : (s.release gid wid n).crews = s.crews := by
  unfold State.release
  extract_lets s1
  have h : s1.crews = s.crews := by simp only [s1]; split <;> rfl
  split <;> exact h

/-- A releasing instruction carries the release fence before it (R226). -/
theorem releaseBy_some (n : Nat) (s : State) : releaseBy c (some n) s =
    (s.release c.ref.gid c.ref.wid (max n (c.split.fenceRel.getD 0))).modSplit c.ref fun x => { x with fenceRel := none } := by
  unfold releaseBy
  cases c.split.fenceRel with
  | none => simp [most]
  | some m => rfl

/-! Barriers. -/

/-- The members of a barrier are there. -/
def BarrierFor (s : State) (crew : Bool) (uid : Nat) : Prop := if crew then flook uid s.crews ≠ none else s.group? uid ≠ none

theorem barrier_setBarrier {crew : Bool} {uid : Nat} (h : BarrierFor s crew uid) (bar : Nat) (b : Barrier) :
    (s.setBarrier crew uid bar b).barrier crew uid bar = b := by
  cases crew with
  | true =>
    obtain ⟨k, hk⟩ := Option.ne_none_iff_exists'.1 h
    simp [State.barrier, State.setBarrier, State.modCrew, hk]
  | false =>
    obtain ⟨g, hg⟩ := Option.ne_none_iff_exists'.1 h
    simp [State.barrier, State.setBarrier, hg]

theorem setBarrier_rest (s : State) (crew : Bool) (uid bar : Nat) (b : Barrier) :
    s.setBarrier crew uid bar b = { s with groups := (s.setBarrier crew uid bar b).groups, crews := (s.setBarrier crew uid bar b).crews } := by
  unfold State.setBarrier; split <;> rfl

theorem setBarrier_relCount (s : State) (crew : Bool) (uid bar gid : Nat) (b : Barrier) :
    ((s.setBarrier crew uid bar b).group? gid).map (·.relCount) = (s.group? gid).map (·.relCount) := by
  unfold State.setBarrier
  split
  · rfl
  · exact rel_map_eq (P := fun g h : Group => h.relCount = g.relCount) (fun h => h) (rel_flook_fmod (P := fun g h => h.relCount = g.relCount)
      (f := fun g => { g with bars := fput bar b g.bars }) (fun _ => rfl) (fun _ => rfl) gid uid s.groups)

/-- Taking note of the members changes of the barrier only who has arrived. -/
theorem settle_cases (s : State) (crew : Bool) (uid bar : Nat) : s.settle crew uid bar = s ∨
    ∃ l, s.settle crew uid bar = s.setBarrier crew uid bar { s.barrier crew uid bar with arrived := l } := by
  unfold State.settle
  extract_lets b
  split
  · exact .inl rfl
  · exact .inr ⟨_, rfl⟩

theorem settle_barrier {crew : Bool} {uid : Nat} (h : BarrierFor s crew uid) (bar : Nat) :
    ∃ l, (s.settle crew uid bar).barrier crew uid bar = { s.barrier crew uid bar with arrived := l } := by
  obtain hs | ⟨l, hl⟩ := settle_cases s crew uid bar
  · exact ⟨_, congrArg (State.barrier · crew uid bar) hs⟩
  · exact ⟨l, by rw [hl, barrier_setBarrier h]⟩

theorem settle_rest (s : State) (crew : Bool) (uid bar : Nat) :
    s.settle crew uid bar = { s with groups := (s.settle crew uid bar).groups, crews := (s.settle crew uid bar).crews } := by
  obtain hs | ⟨l, hl⟩ := settle_cases s crew uid bar
  · rw [hs]
  · rw [hl]; exact setBarrier_rest ..

theorem settle_relCount (s : State) (crew : Bool) (uid bar gid : Nat) :
    ((s.settle crew uid bar).group? gid).map (·.relCount) = (s.group? gid).map (·.relCount) := by
  obtain hs | ⟨l, hl⟩ := settle_cases s crew uid bar
  · rw [hs]
  · rw [hl, setBarrier_relCount]

/-! The arrival of a split. -/

def arrivalCrew (f : AFmt) : Bool := decide (f.scope = 2)
def arrivalAt (c : Issuer) (f : AFmt) : Nat := if f.scope = 2 then c.grp.crew else c.ref.gid
def arrivalCount (c : Issuer) (f : AFmt) : Nat := if f.size = 1 then (c.env.ssrc f.opb).toNat else 0

/-- A barrier that the split's lanes have reached. -/
def arrivedAt (c : Issuer) (f : AFmt) (b : Barrier) : Barrier :=
  { b with govern := some (b.govern.getD (arrivalCount c f)), splits := b.splits ++ [⟨c.ref.gid, c.ref.wid, c.split.held, 0⟩] }

/-- The state after the release, before the barrier takes note of the arrival. -/
def arriving (c : Issuer) (f : AFmt) (s : State) : State :=
  let s1 := releaseBy c (some f.scope.toNat) s
  if f.scope = 2 then s1 else s1.noteArrival c (false, f.ident.toNat, (s1.barrier (arrivalCrew f) (arrivalAt c f) f.ident.toNat).phase)

theorem arrive_eq (c : Issuer) (f : AFmt) (s : State) : arrive c f s =
    ((arriving c f s).setBarrier (arrivalCrew f) (arrivalAt c f) f.ident.toNat
      (arrivedAt c f ((releaseBy c (some f.scope.toNat) s).barrier (arrivalCrew f) (arrivalAt c f) f.ident.toNat))).settle
        (arrivalCrew f) (arrivalAt c f) f.ident.toNat := by
  unfold arrive arriving arrivedAt arrivalCrew arrivalAt arrivalCount
  by_cases h : f.scope = 2 <;> simp [h]

/-! What an arrival leaves as it was. -/

theorem arriving_ordered (f : AFmt) (c : Issuer) (s : State) : Ordered c s (arriving c f s) := by
  unfold arriving
  extract_lets s1
  split
  · exact .releaseBy _
  · exact (Ordered.releaseBy _).trans (.ofWarps rfl le_rfl rfl rfl rfl)

theorem arrive_ordered (f : AFmt) (c : Issuer) (s : State) : Ordered c s (arrive c f s) := by
  rw [arrive_eq, settle_rest, setBarrier_rest]
  exact (arriving_ordered f c s).trans (.ofWarps rfl le_rfl rfl rfl rfl)

/-! The barrier and the counts after an arrival. -/

theorem release_barrier (s : State) (gid wid n : Nat) (crew : Bool) (uid bar : Nat) : (s.release gid wid n).barrier crew uid bar = s.barrier crew uid bar := by
  cases crew with
  | true => simp only [State.barrier, if_true, release_crews]
  | false =>
    have h : ((s.release gid wid n).group? uid).map (·.bars) = (s.group? uid).map (·.bars) := by
      have hmod : ∀ t : State, t.groups = s.groups →
          ((t.modGroup gid fun g => { g with relCount := (g.relCount + 1) % 256 }).group? uid).map (·.bars) = (s.group? uid).map (·.bars) := by
        intro t ht
        have hgroup : s.group? uid = t.group? uid := congrArg (flook uid) ht.symm
        rw [hgroup]
        exact rel_map_eq (P := fun g h : Group => h.bars = g.bars) (fun h => h) (rel_flook_fmod (P := fun g h => h.bars = g.bars)
          (f := fun g => { g with relCount := (g.relCount + 1) % 256 }) (fun _ => rfl) (fun _ => rfl) uid gid t.groups)
      unfold State.release
      split <;> split
      · exact hmod _ rfl
      · rfl
      · exact hmod _ rfl
      · rfl
    have hbind : ∀ o : Option Group, (o.bind fun g => flook bar g.bars) = (o.map (·.bars)).bind fun b => flook bar b := by
      intro o; cases o <;> rfl
    simp only [State.barrier, Bool.false_eq_true, if_false, hbind, h]

theorem releaseBy_barrier (n : Nat) (s : State) (crew : Bool) (uid bar : Nat) :
    (releaseBy c (some n) s).barrier crew uid bar = s.barrier crew uid bar := by
  rw [releaseBy_some]
  exact release_barrier ..

theorem releaseBy_group {g : Group} (hg : s.group? c.ref.gid = some g) (n : Nat) :
    (releaseBy c (some n) s).group? c.ref.gid =
      some (if 2 ≤ max n (c.split.fenceRel.getD 0) then { g with relCount := (g.relCount + 1) % 256 } else g) := by
  rw [releaseBy_some]
  exact release_group hg ..

theorem releaseBy_relCount {w : Warp} (hw : s.warp? c.ref.gid c.ref.wid = some w) {n : Nat} (hn : 1 ≤ n) :
    ((releaseBy c (some n) s).warp? c.ref.gid c.ref.wid).map (·.relCount) = some ((w.relCount + 1) % 256) := by
  rw [releaseBy_some, State.modSplit, modWarp_self, Option.map_map]
  refine (congrArg (fun o : Option Warp => o.map (·.relCount)) rfl).trans ((release_warp hw _).trans ?_)
  rw [if_pos (hn.trans (le_max_left ..))]

theorem arriving_groups (f : AFmt) (c : Issuer) (s : State) : (arriving c f s).groups = (releaseBy c (some f.scope.toNat) s).groups := by
  unfold arriving; split <;> rfl
theorem arriving_crews (f : AFmt) (c : Issuer) (s : State) : (arriving c f s).crews = (releaseBy c (some f.scope.toNat) s).crews := by
  unfold arriving; split <;> rfl
theorem arriving_warps (f : AFmt) (c : Issuer) (s : State) : (arriving c f s).warps = (releaseBy c (some f.scope.toNat) s).warps := by
  unfold arriving; split <;> rfl

/-- The members of the barrier are there where the issuing group and, at .crew, its crew are. -/
theorem arriving_barrierFor (hg : s.group? c.ref.gid ≠ none) (hcrew : f.scope = 2 → flook c.grp.crew s.crews ≠ none) :
    BarrierFor (arriving c f s) (arrivalCrew f) (arrivalAt c f) := by
  obtain ⟨g, hg⟩ := Option.ne_none_iff_exists'.1 hg
  by_cases h : f.scope = 2
  · simp only [BarrierFor, arrivalCrew, arrivalAt, h, decide_true, if_true, arriving_crews, releaseBy_some]
    exact (release_crews ..).symm ▸ hcrew h
  · simp only [BarrierFor, arrivalCrew, arrivalAt, h, decide_false, Bool.false_eq_true, if_false]
    rw [State.group?, arriving_groups]
    exact Option.ne_none_iff_exists'.2 ⟨_, releaseBy_group hg _⟩

theorem arrive_barrier (hg : s.group? c.ref.gid ≠ none) (hcrew : f.scope = 2 → flook c.grp.crew s.crews ≠ none) :
    ∃ l, (arrive c f s).barrier (arrivalCrew f) (arrivalAt c f) f.ident.toNat =
      { arrivedAt c f (s.barrier (arrivalCrew f) (arrivalAt c f) f.ident.toNat) with arrived := l } := by
  have hfor := arriving_barrierFor hg hcrew
  have hset : BarrierFor ((arriving c f s).setBarrier (arrivalCrew f) (arrivalAt c f) f.ident.toNat
      (arrivedAt c f (s.barrier (arrivalCrew f) (arrivalAt c f) f.ident.toNat))) (arrivalCrew f) (arrivalAt c f) := by
    unfold BarrierFor State.setBarrier at *
    split at hfor <;> rename_i hc <;> simp only [hc, if_true, Bool.false_eq_true, if_false]
    · obtain ⟨k, hk⟩ := Option.ne_none_iff_exists'.1 hfor
      simp [State.modCrew, hk]
    · obtain ⟨g, hg⟩ := Option.ne_none_iff_exists'.1 hfor
      simp [hg]
  obtain ⟨l, hl⟩ := settle_barrier hset f.ident.toNat
  refine ⟨l, ?_⟩
  rw [arrive_eq, releaseBy_barrier, hl, barrier_setBarrier hfor]

theorem arrive_warp (hscope : 1 ≤ f.scope.toNat) {w : Warp} (hw : s.warp? c.ref.gid c.ref.wid = some w) :
    ((arrive c f s).warp? c.ref.gid c.ref.wid).map (·.relCount) = some ((w.relCount + 1) % 256) := by
  rw [arrive_eq, settle_rest, setBarrier_rest]
  simp only [State.warp?, arriving_warps]
  exact releaseBy_relCount hw hscope

theorem arrive_group {g : Group} (hg : s.group? c.ref.gid = some g) : ((arrive c f s).group? c.ref.gid).map (·.relCount) =
    some (if 2 ≤ max f.scope.toNat (c.split.fenceRel.getD 0) then (g.relCount + 1) % 256 else g.relCount) := by
  rw [arrive_eq, settle_relCount, setBarrier_relCount, State.group?, arriving_groups]
  refine (congrArg _ (releaseBy_group hg _)).trans ?_
  split <;> rfl

/-- Where an operation follows an arrival, the barrier, the counts, the warps and memory are as R155 and R234 have them. -/
theorem arrive_addPend (hi : s.issuer = some c) (he : (c.profile i).head.ends = false) (hscope : 1 ≤ f.scope.toNat)
    (hcrew : f.scope = 2 → flook c.grp.crew s.crews ≠ none) (q : Pend) :
    let t := (arrive c f (issued i c s)).addPend c i q
    let b := s.barrier (arrivalCrew f) (arrivalAt c f) f.ident.toNat
    let b' := t.barrier (arrivalCrew f) (arrivalAt c f) f.ident.toNat
    (OwnWarp i c s t (pendOf (arrive c f (issued i c s)) c i q) ∧ OtherWarps c s t) ∧ t.mem = s.mem ∧
    b'.splits = b.splits ++ [⟨c.ref.gid, c.ref.wid, c.split.held, 0⟩] ∧ b'.govern = some (b.govern.getD (arrivalCount c f)) ∧ b'.phase = b.phase ∧
    (t.warp? c.ref.gid c.ref.wid).map (·.relCount) = some ((c.warp.relCount + 1) % 256) ∧
    (t.group? c.ref.gid).map (·.relCount) =
      some (if 2 ≤ max f.scope.toNat (c.split.fenceRel.getD 0) then (c.grp.relCount + 1) % 256 else c.grp.relCount) := by
  extract_lets t b b'
  obtain ⟨-, hg, hw, -, -⟩ := issuer_some hi
  have hord := arrive_ordered f c (issued i c s)
  obtain ⟨w, hw, hrest, -, -⟩ := issued_own hi he
  have hg' : (issued i c s).group? c.ref.gid = some c.grp := by rw [issued_group]; exact hg
  have hcrews : (issued i c s).crews = s.crews := by rw [issued_rest he]
  have hbar : (issued i c s).barrier (arrivalCrew f) (arrivalAt c f) f.ident.toNat = b := by
    simp only [b, State.barrier, hcrews, issued_group]
  obtain ⟨l, hl⟩ := arrive_barrier (s := issued i c s) (hg'.symm ▸ Option.some_ne_none _) (hcrews.symm ▸ hcrew)
  have hb' : b' = { arrivedAt c f b with arrived := l } := (hbar ▸ hl : _)
  refine ⟨ordered_addPend hi he hord rfl, by rw [addPend_mem, hord.mem, issued_mem], by rw [hb']; rfl, by rw [hb']; rfl, by rw [hb']; rfl, ?_, ?_⟩
  · have h := arrive_warp hscope hw
    rw [show w.relCount = c.warp.relCount by rw [hrest]] at h
    exact (relCount_addPend _ q).trans h
  · exact arrive_group hg'

end Sys2Proof.Laws
end

section
namespace Sys2Proof.Laws

open Sys2Proof.Machine

/-- Settles O16: a fence only orders what its split has done, and among the outstanding operations it holds what R154 names. -/
theorem fencesIssueAndHold : Obligations.FencesIssueAndHold := by
  refine ⟨fun f c s h => ?_, fun i c s hi _ hf hsecond ⟨q, hq, hlanes, hfence⟩ =>
    fenceHolds_waits hf hi (fence_holds hf hsecond hq hlanes hfence)⟩
  have hord := fenced_ordered f c (issued (.fence f) c s)
  obtain ⟨hown, hothers⟩ := ordered_addPend (q := fencePend f c (issued (.fence f) c s)) h.issuer (by rw [profile_head]; rfl) hord rfl
  refine ⟨_, _, _, fence_next h, hown, hothers, ?_, rfl, ?_, fun x hx hrel => ?_⟩
  · rw [addPend_mem, hord.mem, issued_mem]
  · simp [wideRelease]
  · rw [splitAt_addPend] at hx
    exact fenced_splitAt hrel hx

/-- Settles O17: an arrival is a release and one more entry of the barrier; what the members' arrival adds is not of the phase. -/
theorem barrierArrivals : Obligations.BarrierArrivals := by
  refine ⟨fun f c s => ?_, fun s gid wid scope w g hw hg => ⟨release_warp hw scope, ?_, release_mem ..⟩⟩
  · intro crew uid count there hcrew
    have hscope : (f.scope != 1 && f.scope != 2) = false → 1 ≤ f.scope.toNat := by
      intro h
      by_contra h0
      have : f.scope = 0 := BitVec.eq_of_toNat_eq (by simpa using h0)
      simp [this] at h
    refine ⟨fun h => ?sync, fun h => ?arrive⟩
    case sync =>
      have hck : (f.scope != 1 && f.scope != 2, 2) ∈ checks (.barsync f) c := by simp [checks, ckBar]
      obtain ⟨⟨hown, hothers⟩, hmem, hthere⟩ := arrive_addPend (i := .barsync f) h.issuer (by rw [profile_head]; rfl) (hscope (h.check hck)) hcrew
        { id := 0, kind := .barrier (f.scope = 2) f.ident.toNat, ent := 0, lanes := 0 }
      exact ⟨_, _, issue_next h (exec_barsync f s) rfl rfl rfl, hown, hothers, hmem, rfl, hthere⟩
    case arrive =>
      have hck : (f.scope != 1 && f.scope != 2, 2) ∈ checks (.bararv f) c := by simp [checks, ckBar]
      obtain ⟨⟨hown, hothers⟩, hmem, hthere⟩ := arrive_addPend (i := .bararv f) h.issuer (by rw [profile_head]; rfl) (hscope (h.check hck)) hcrew
        { id := 0, kind := .long, ent := 0, lanes := 0, due := (arrive c f (issued (.bararv f) c s)).cycle + 1, writes := [] }
      exact ⟨_, _, issue_next h (exec_bararv f s) rfl rfl rfl, hown, hothers, hmem, rfl, rfl, hthere⟩
  · rw [release_group hg]
    split <;> rfl

end Sys2Proof.Laws
end

section
/-! SUPPORT. Bytes put among an operation's bytes (R137), requests to places (R140), and what the correction of an error leaves (R344). -/

namespace Sys2Proof.Laws

open Sys2Proof.Machine

variable {i : Instr} {c : Issuer} {s t u : State}

/-! ## Bytes of an operation -/

/-- One byte of n at a key is put, or left out, at each step. -/
structure PutsAt (key : Nat) (f : FMap Byte → Nat → FMap Byte) : Prop where
  cases : ∀ m k, f m k = m ∨ ∃ b, f m k = fset 0 (key + k) b m

namespace PutsAt
variable {key : Nat} {f : FMap Byte → Nat → FMap Byte}

theorem canon (h : PutsAt key f) (n : Nat) {m : FMap Byte} (hm : Canon 0 m) : Canon 0 ((List.range n).foldl f m) := by
  induction n with
  | zero => exact hm
  | succ n ih =>
    rw [List.range_succ, List.foldl_append]
    obtain h | ⟨b, h⟩ := h.cases ((List.range n).foldl f m) n
    · exact (show Canon 0 (f _ n) from h.symm ▸ ih)
    · exact (show Canon 0 (f _ n) from h.symm ▸ fset_canon ih)

theorem outside (h : PutsAt key f) (n : Nat) (m : FMap Byte) {a : Nat} (ha : a < key ∨ key + n ≤ a) :
    fget 0 a ((List.range n).foldl f m) = fget 0 a m := by
  induction n with
  | zero => rfl
  | succ n ih =>
    rw [List.range_succ, List.foldl_append]
    obtain h | ⟨b, h⟩ := h.cases ((List.range n).foldl f m) n
    · exact (congrArg (fget 0 a) h).trans (ih (by omega))
    · exact (congrArg (fget 0 a) h).trans ((fget_fset_ne (by omega)).trans (ih (by omega)))

theorem inside (h : PutsAt key f) {n k : Nat} (hk : k < n) {m : FMap Byte} (hm : Canon 0 m) {b : Byte}
    (hb : ∀ m, f m k = fset 0 (key + k) b m) : fget 0 (key + k) ((List.range n).foldl f m) = b := by
  induction n with
  | zero => omega
  | succ n ih =>
    rw [List.range_succ, List.foldl_append]
    rcases Nat.lt_succ_iff_lt_or_eq.1 hk with hlt | rfl
    · obtain h | ⟨v, h⟩ := h.cases ((List.range n).foldl f m) n
      · exact (congrArg (fget 0 _) h).trans (ih hlt)
      · exact (congrArg (fget 0 _) h).trans ((fget_fset_ne (by omega)).trans (ih hlt))
    · exact (congrArg (fget 0 _) (hb _)).trans (fget_fset_self (h.canon k hm))

end PutsAt

theorem putBytes_puts (key : Nat) (bs : List Byte) : PutsAt key fun m k => fset 0 (key + k) (bs.getD k 0) m := ⟨fun _ _ => .inr ⟨_, rfl⟩⟩

theorem spotBuffered_puts (g : Group) (x : Spot) : PutsAt (256 * x.lane + x.off) fun m k => match flook (x.key + k) g.sbuf with
    | some b => fset 0 (256 * x.lane + x.off + k) b.val m
    | none => m := by
  refine ⟨fun m k => ?_⟩
  cases flook (x.key + k) g.sbuf with
  | none => exact .inl rfl
  | some b => exact .inr ⟨_, rfl⟩

/-- The bytes of pieces put one after another: f puts those of one piece, among an operation's bytes at its place. -/
structure PutsSpots (f : FMap Byte → Spot → FMap Byte) : Prop where
  canon : ∀ {m x}, Canon 0 m → Canon 0 (f m x)
  outside : ∀ m x {a}, a < 256 * x.lane + x.off ∨ 256 * x.lane + x.off + x.n ≤ a → fget 0 a (f m x) = fget 0 a m

namespace PutsSpots
variable {f : FMap Byte → Spot → FMap Byte}

theorem foldl_canon (h : PutsSpots f) {m : FMap Byte} (hm : Canon 0 m) (l : List Spot) : Canon 0 (l.foldl f m) := by
  induction l generalizing m with
  | nil => exact hm
  | cons x l ih => exact ih (h.canon hm)

theorem foldl_outside (h : PutsSpots f) (m : FMap Byte) {l : List Spot} {a : Nat}
    (ha : ∀ x ∈ l, a < 256 * x.lane + x.off ∨ 256 * x.lane + x.off + x.n ≤ a) : fget 0 a (l.foldl f m) = fget 0 a m := by
  induction l generalizing m with
  | nil => rfl
  | cons x l ih => exact (ih _ fun y hy => ha y (List.mem_cons_of_mem _ hy)).trans (h.outside m x (ha x List.mem_cons_self))

/-- A byte is that of the last piece that has it. -/
theorem foldl_last (h : PutsSpots f) {pre post : List Spot} {x : Spot} {k : Nat} {b : Byte}
    (hpost : ∀ y ∈ post, 256 * x.lane + x.off + k < 256 * y.lane + y.off ∨ 256 * y.lane + y.off + y.n ≤ 256 * x.lane + x.off + k)
    (hb : ∀ m, Canon 0 m → fget 0 (256 * x.lane + x.off + k) (f m x) = b) :
    fget 0 (256 * x.lane + x.off + k) ((pre ++ x :: post).foldl f []) = b := by
  rw [List.foldl_append, List.foldl_cons, h.foldl_outside _ hpost]
  exact hb _ (h.foldl_canon (by simp [Canon]) pre)

end PutsSpots

theorem scratch_puts (s : State) (g : Group) : PutsSpots fun m x => putBytes m (256 * x.lane + x.off) (s.scratchBytes g x).bytes :=
  ⟨fun hm => (putBytes_puts _ _).canon _ hm, fun m x _ ha => (putBytes_puts _ _).outside _ m ((length_scratchBytes s g x).symm ▸ ha)⟩

theorem buffered_puts (g : Group) : PutsSpots fun m x => spotBuffered g x m :=
  ⟨fun hm => (spotBuffered_puts g _).canon _ hm, fun m x _ ha => (spotBuffered_puts g x).outside _ m ha⟩

theorem scratchGot_fst (s : State) (g : Group) (l : List Spot) :
    (scratchGot s g l).1 = l.foldl (fun m x => putBytes m (256 * x.lane + x.off) (s.scratchBytes g x).bytes) [] := by
  have h : ∀ a : FMap Byte × Option Nat, (l.foldl (fun a x =>
      let f := s.scratchBytes g x
      (putBytes a.1 (256 * x.lane + x.off) f.bytes, least a.2 f.bad)) a).1 =
      l.foldl (fun m x => putBytes m (256 * x.lane + x.off) (s.scratchBytes g x).bytes) a.1 := by
    induction l with
    | nil => exact fun _ => rfl
    | cons x l ih => exact fun a => ih _
  exact h ([], none)

section split
variable {l pre post : List Spot} {x : Spot} {k : Nat} (hl : l = pre ++ x :: post) (hk : k < x.n)
  (hpost : ∀ y ∈ post, 256 * x.lane + x.off + k < 256 * y.lane + y.off ∨ 256 * y.lane + y.off + y.n ≤ 256 * x.lane + x.off + k)
include hl hk hpost

theorem scratchGot_byte (s : State) (g : Group) :
    fget 0 (256 * x.lane + x.off + k) (scratchGot s g l).1 = (s.scratchBytes g x).bytes.getD k 0 := by
  rw [scratchGot_fst, hl]
  exact (scratch_puts s g).foldl_last hpost fun m hm => (putBytes_puts _ _).inside (by rwa [length_scratchBytes]) hm fun _ => rfl

theorem spotBuffered_byte {g : Group} {b : SbByte} (hb : flook (x.key + k) g.sbuf = some b) :
    fget 0 (256 * x.lane + x.off + k) (l.foldl (fun m x => spotBuffered g x m) []) = b.val := by
  rw [hl]
  exact (buffered_puts g).foldl_last hpost fun m hm => (spotBuffered_puts g x).inside hk hm fun m => by simp only [hb]

end split

/-! ## Requests -/

/-- A request waits at its place, and nothing else of the state changes but the number of its arrival. -/
theorem request_queue (s : State) (u v : UnitRef) (r : Req) : ((s.request u r).place v).queue =
    if unitIndex v = unitIndex u then (s.place u).queue ++ [{ r with arrived := if s.sendable u r then some s.fresh else none }]
    else (s.place v).queue := by
  have h : ∀ (t : State) (f : Glazier → Glazier), (t.modPlace u f).place v = if unitIndex v = unitIndex u then f (t.place u) else t.place v := by
    intro t f
    unfold State.modPlace State.setPlace State.place
    split
    case isTrue hv => rw [hv, flook_fput_self]; rfl
    case isFalse hv => rw [flook_fput_ne hv]
  unfold State.request
  extract_lets go
  rw [h]
  split <;> rfl

theorem request_keeps {v u' : UnitRef} {x : Req} (r : Req) (hx : x ∈ (s.place v).queue) : x ∈ ((s.request u' r).place v).queue := by
  rw [request_queue]
  split
  case isTrue hv => exact List.mem_append_left _ (by rwa [State.place, ← hv])
  case isFalse => exact hx

theorem request_mem_queue (s : State) (u' : UnitRef) (r : Req) : ∃ a, { r with arrived := a } ∈ ((s.request u' r).place u').queue := by
  rw [request_queue, if_pos rfl]
  exact ⟨_, List.mem_append_right _ List.mem_cons_self⟩

theorem request_only {u' v : UnitRef} {r x : Req} (hx : x ∈ ((s.request u' r).place v).queue) :
    x ∈ (s.place v).queue ∨ ∃ a, x = { r with arrived := a } := by
  rw [request_queue] at hx
  split at hx
  case isTrue hv =>
    rcases List.mem_append.1 hx with hx | hx
    · exact .inl (by rwa [State.place, hv])
    · exact .inr ⟨_, List.mem_singleton.1 hx⟩
  case isFalse => exact .inl hx


theorem request_mem (s : State) (u' : UnitRef) (r : Req) : (s.request u' r).mem = s.mem := rfl

/-- Requests to several places. -/
def requests (s : State) (l : List (UnitRef × Req)) : State := l.foldl (fun s x => s.request x.1 x.2) s

theorem requests_keeps {v : UnitRef} {x : Req} (l : List (UnitRef × Req)) (hx : x ∈ (s.place v).queue) :
    x ∈ ((requests s l).place v).queue := by
  induction l generalizing s with
  | nil => exact hx
  | cons y l ih => exact ih (request_keeps _ hx)

theorem requests_mem_queue {l : List (UnitRef × Req)} {y : UnitRef × Req} (hy : y ∈ l) (s : State) :
    ∃ a, { y.2 with arrived := a } ∈ ((requests s l).place y.1).queue := by
  induction l generalizing s with
  | nil => cases hy
  | cons z l ih =>
    rcases List.mem_cons.1 hy with rfl | hy
    · obtain ⟨a, ha⟩ := request_mem_queue s y.1 y.2
      exact ⟨a, requests_keeps l ha⟩
    · exact ih hy _

theorem requests_only {v : UnitRef} {x : Req} {l : List (UnitRef × Req)} (hx : x ∈ ((requests s l).place v).queue) :
    x ∈ (s.place v).queue ∨ ∃ y ∈ l, ∃ a, x = { y.2 with arrived := a } := by
  induction l generalizing s with
  | nil => exact .inl hx
  | cons z l ih =>
    rcases ih hx with hx | ⟨y, hy, h⟩
    · exact (request_only hx).imp_right fun h => ⟨z, List.mem_cons_self, h⟩
    · exact .inr ⟨y, List.mem_cons_of_mem _ hy, h⟩

theorem requests_warps (s : State) (l : List (UnitRef × Req)) : (requests s l).warps = s.warps := by
  induction l generalizing s with
  | nil => rfl
  | cons y l ih => exact ih _
theorem requests_groups (s : State) (l : List (UnitRef × Req)) : (requests s l).groups = s.groups := by
  induction l generalizing s with
  | nil => rfl
  | cons y l ih => exact ih _
theorem requests_mem (s : State) (l : List (UnitRef × Req)) : (requests s l).mem = s.mem := by
  induction l generalizing s with
  | nil => rfl
  | cons y l ih => exact ih _

/-! ## Corrections and warnings -/

/-- Warps, groups, places, the numbers given out and the cycle are as they were. -/
structure Bystander (s t : State) : Prop where
  warps : t.warps = s.warps
  groups : t.groups = s.groups
  places : t.places = s.places
  fresh : t.fresh = s.fresh
  cycle : t.cycle = s.cycle

namespace Bystander

theorem refl (s : State) : Bystander s s := ⟨rfl, rfl, rfl, rfl, rfl⟩
theorem trans (h : Bystander s t) (k : Bystander t u) : Bystander s u :=
  ⟨k.1.trans h.1, k.2.trans h.2, k.3.trans h.3, k.4.trans h.4, k.5.trans h.5⟩

theorem foldl {β : Type} {f : State → β → State} (hf : ∀ s b, Bystander s (f s b)) (l : List β) (s : State) : Bystander s (l.foldl f s) := by
  induction l generalizing s with
  | nil => exact refl s
  | cons b l ih => exact (hf s b).trans (ih _)

theorem put (key : Nat) (bs : List Byte) (st : Option Stamp) : Bystander s (s.put key bs st) := ⟨rfl, rfl, rfl, rfl, rfl⟩

theorem ringAppend (key : Nat → Option Nat) (cap : Nat) (r : List Byte) : Bystander s (s.ringAppend key cap r) := by
  unfold State.ringAppend
  split
  · extract_lets
    split
    · exact put ..
    · split
      · exact (put ..).trans (put ..)
      · exact refl s
  · exact refl s

theorem logRecord (addr task group detail asid part cause kind : Nat) :
    Bystander s (s.logRecord addr task group detail asid part cause kind) := by
  unfold State.logRecord
  extract_lets
  split
  · exact ringAppend ..
  · exact refl s

theorem correct (key n : Nat) : Bystander s (s.correct key n) := by
  unfold State.correct
  split
  · exact refl s
  · extract_lets hit
    refine Bystander.trans (t := { s with soft := s.soft.filter fun a => !hit.contains a }) ⟨rfl, rfl, rfl, rfl, rfl⟩ ?_
    exact foldl (fun _ _ => logRecord ..) hit _

theorem scrivWarp (gid wid ent kind : Nat) (payload : DWord) : Bystander s (s.scrivWarp gid wid ent kind payload) := by
  unfold State.scrivWarp
  split
  · split
    · exact ⟨rfl, rfl, rfl, rfl, rfl⟩
    · exact refl s
  · exact refl s

theorem warn (c : Issuer) (l : List Spot) : Bystander s (s.warn c l) := by
  unfold State.warn
  split
  · exact refl s
  · exact scrivWarp ..

/-- Nothing of an operation that is left outstanding depends on the rest. -/
theorem addPend_warps (h : Bystander s t) (q : Pend) : (t.addPend c i q).warps = (s.addPend c i q).warps := by
  have hq : pendOf t c i q = pendOf s c i q := by rw [pendOf, pendOf, h.fresh]
  rw [addPend_eq, addPend_eq, hq]
  simp only [State.modWarp, h.warps]

end Bystander

theorem warn_rest (s : State) (c : Issuer) (l : List Spot) : (s.warn c l).mem = s.mem ∧ (s.warn c l).soft = s.soft := by
  unfold State.warn
  split
  · exact ⟨rfl, rfl⟩
  · unfold State.scrivWarp
    split
    · split <;> exact ⟨rfl, rfl⟩
    · exact ⟨rfl, rfl⟩

/-! ## LD -/

theorem mem_ldItems (e : Env) (f : MFmt) (y : LoadItem) : y ∈ ldItems e f ↔ ∃ lane ∈ mLanes e f,
    if mBlock f then ∃ i < extent f.height, ∃ j < extent f.width,
      y = { key := 256 * lane + 4 * (extent f.width * i + j), n := 4, reg := e.phys (dIdx f.data + 16 * i + j), lane := lane }
    else ∃ k < sizeRegs f.size.toNat,
      y = { key := 256 * lane + 4 * k, n := min 4 (mSize f), sx := f.mode.getLsbD 0, scalar := mSca f,
            reg := if mSca f then dIdx f.data + k else e.phys (dIdx f.data + k), lane := lane } := by
  simp only [ldItems, List.mem_flatMap]
  refine exists_congr fun lane => and_congr_right fun _ => ?_
  split <;> simp only [List.mem_flatMap, List.mem_map, List.mem_range, @eq_comm _ y]

/-- A loaded register's value: its bytes, sign-extended where the load says so (R137). -/
theorem ldItems_value {e : Env} {f : MFmt} {y : LoadItem} (hy : y ∈ ldItems e f) (got : FMap Byte) :
    let n := bytesNat ((List.range y.n).map fun i => fget 0 (y.key + i) got)
    y.value got = if f.mode.getLsbD 0 = true ∧ mBlock f = false then (BitVec.ofNat (8 * y.n) n).signExtend 32 else BitVec.ofNat 32 n := by
  extract_lets n
  have hsx : y.sx = decide (f.mode.getLsbD 0 = true ∧ mBlock f = false) ∧ 0 < y.n := by
    obtain ⟨lane, -, h⟩ := (mem_ldItems e f y).1 hy
    split at h
    case isTrue hb =>
      obtain ⟨_, _, _, _, rfl⟩ := h
      simp [hb]
    case isFalse hb =>
      obtain ⟨_, _, rfl⟩ := h
      simp [hb, mSize]
  rw [LoadItem.value, hsx.1]
  by_cases h : f.mode.getLsbD 0 = true ∧ mBlock f = false
  · simp only [h, and_self, decide_true, if_true]
    rw [wrapTo_eq, signedOf_eq _ _ (by omega), BitVec.ofNat_toNat, BitVec.setWidth_eq]
    rfl
  · simp only [h, decide_false, Bool.false_eq_true, if_false]
    rfl

/-! A load of a scratchpad. -/

def scratchPend (c : Issuer) (f : MFmt) (l : List Spot) (s : State) : Pend :=
  { id := 0, kind := .long, ent := 0, lanes := 0, due := s.cycle + delayOf f.space.toNat l, items := ldItems c.env f,
    got := (scratchGot s ((s.group? c.ref.gid).getD c.grp) l).1,
    bad := (scratchGot s ((s.group? c.ref.gid).getD c.grp) l).2.map (BitVec.ofNat 64), offs := true, reads := true }

def corrected (c : Issuer) (l : List Spot) (s : State) : State := l.foldl (fun s x => s.correct x.key x.n) (s.warn c l)

theorem corrected_bystander (c : Issuer) (l : List Spot) (s : State) : Bystander s (corrected c l s) :=
  (Bystander.warn c l).trans (.foldl (fun _ _ => .correct ..) _ _)

theorem corrected_mem (hsoft : s.soft = []) (l : List Spot) : (corrected c l s).mem = s.mem := by
  obtain ⟨hmem, hs⟩ := warn_rest s c l
  rw [corrected, correct_clean (hs.trans hsoft), hmem]

theorem ldEff_scratch {f : MFmt} {l : List Spot} (hl : s.access c (mAcc f .read) (mAddrs c.env f) = .ok l) (hsp : f.space.toNat < 3) :
    ldEff f c s = .ok ((corrected c l s).addPend c (.ld f) (scratchPend c f l s)) := by
  simp only [ldEff, hl, hsp, if_true]
  rfl

/-! A load of memory. -/

def loadReqs (g : Group) (l : List Spot) : List (UnitRef × List Piece) :=
  (unitsIn l).filterMap fun u =>
    match (l.filter (·.unit = u)).flatMap (spotPieces g) with
    | [] => none
    | ps => some (u, ps)

def loadReq (c : Issuer) (pid : Nat) (ps : List Piece) : Req :=
  { gid := c.ref.gid, wid := c.ref.wid, pid := pid, pieces := ps, part := c.task.part, sectors := sectorsOf ps }

def loadPend (c : Issuer) (f : MFmt) (g : Group) (view : Option (Nat × Nat × Nat)) (l : List Spot) (s : State) : Pend :=
  { id := 0, kind := .load, ent := 0, lanes := 0, left := (loadReqs g l).length, items := ldItems c.env f,
    got := l.foldl (fun m x => spotBuffered g x m) [], view := view, due := if ldItems c.env f = [] then s.cycle + 6 else 0 }

theorem ldEff_mem {f : MFmt} {l : List Spot} {g : Group} (hl : s.access c (mAcc f .read) (mAddrs c.env f) = .ok l) (hsp : ¬ f.space.toNat < 3)
    (hg : s.group? c.ref.gid = some g) :
    ∃ view, ldEff f c s = .ok (requests (s.addPend c (.ld f) (loadPend c f g view l s))
      ((loadReqs g l).map fun x => (x.1, loadReq c s.fresh x.2))) := by
  refine ⟨if f.space = 4 then objView (s.objEntry c.task.asid f.obj.toNat) f.obj.toNat else none, ?_⟩
  simp only [ldEff, hl, hsp, if_false, readMem, hg, Option.getD_some, requests, List.foldl_map]
  rfl

theorem mem_loadReqs {g : Group} {l : List Spot} {y : UnitRef × List Piece} :
    y ∈ loadReqs g l ↔ y.1 ∈ unitsIn l ∧ y.2 = (l.filter (·.unit = y.1)).flatMap (spotPieces g) ∧ y.2 ≠ [] := by
  obtain ⟨v, ps⟩ := y
  simp only [loadReqs, List.mem_filterMap]
  constructor
  · rintro ⟨w, hw, h⟩
    split at h
    · cases h
    · rename_i hne
      obtain ⟨rfl, rfl⟩ := Prod.mk.inj (Option.some.inj h)
      exact ⟨hw, rfl, fun h => hne h⟩
  · rintro ⟨hv, hps, hne⟩
    refine ⟨v, hv, ?_⟩
    split
    · rename_i h; exact absurd (hps.trans h) hne
    · rw [← hps]

theorem length_loadReqs (g : Group) (l : List Spot) : (loadReqs g l).length =
    ((unitsIn l).filter fun u => (l.filter (·.unit = u)).any fun x => spotPieces g x ≠ []).length := by
  have h : ∀ us : List UnitRef, (us.filterMap fun u => match (l.filter (·.unit = u)).flatMap (spotPieces g) with
      | [] => none
      | ps => some (u, ps)).length = (us.filter fun u => (l.filter (·.unit = u)).any fun x => spotPieces g x ≠ []).length := by
    intro us
    induction us with
    | nil => rfl
    | cons u us ih =>
      have hiff : ((l.filter (·.unit = u)).any fun x => decide (spotPieces g x ≠ [])) = false ↔ (l.filter (·.unit = u)).flatMap (spotPieces g) = [] := by
        simp [List.flatMap_eq_nil_iff]
      rw [List.filterMap_cons, List.filter_cons]
      split
      · rename_i hnone
        split at hnone
        · rename_i hnil
          rw [hiff.2 hnil]
          exact ih
        · cases hnone
      · rename_i y hsome
        split at hsome
        · cases hsome
        · rename_i hne
          rw [if_pos (by rw [← Bool.not_eq_false, hiff]; exact hne), List.length_cons, List.length_cons, ih]
  exact h _

end Sys2Proof.Laws
end

section
namespace Sys2Proof.Laws

open Sys2Proof.Machine

/-- What O10 says of the bytes and the loaded registers of any load. -/
theorem ld_bytes (f : MFmt) (c : Issuer) (s : State) (l : List Spot) (got : FMap Byte)
    (hscratch : f.space.toNat < 3 → got = (scratchGot s c.grp l).1)
    (hmem : 3 ≤ f.space.toNat → got = l.foldl (fun m x => spotBuffered c.grp x m) []) :
    ∀ pre x post, l = pre ++ x :: post → ∀ k < x.n, let at_ := 256 * x.lane + x.off + k
      (∀ y ∈ post, at_ < 256 * y.lane + y.off ∨ 256 * y.lane + y.off + y.n ≤ at_) →
      (f.space.toNat < 3 → fget 0 at_ got = (s.scratchBytes c.grp x).bytes.getD k 0) ∧
      (3 ≤ f.space.toNat → ∀ b, flook (x.key + k) c.grp.sbuf = some b → fget 0 at_ got = b.val) := by
  intro pre x post hl k hk at_ hpost
  refine ⟨fun hsp => ?_, fun hsp b hb => ?_⟩
  · rw [hscratch hsp]; exact scratchGot_byte hl hk hpost s c.grp
  · rw [hmem hsp]; exact spotBuffered_byte hl hk hpost hb

theorem scratchGot_issued (i : Instr) (c : Issuer) (s : State) (he : (c.profile i).head.ends = false) (g : Group) (l : List Spot) :
    scratchGot (issued i c s) g l = scratchGot s g l := by
  rw [issued_rest he]; rfl

/-- Settles O10: a load of a scratchpad has its bytes at issue, and one of memory asks each place once for what the group has not buffered. -/
theorem loadsIssue : Obligations.LoadsIssue := by
  intro f c s l h hl
  have he : (c.profile (.ld f)).head.ends = false := by rw [profile_head]; rfl
  obtain ⟨-, hg, -, -, -⟩ := issuer_some h.issuer
  have hg' : (issued (.ld f) c s).group? c.ref.gid = some c.grp := by rw [issued_group]; exact hg
  by_cases hsp : f.space.toNat < 3
  · have hnot : ¬ 3 ≤ f.space.toNat := by omega
    have hby := corrected_bystander c l (issued (.ld f) c s)
    have hgot : (scratchGot (issued (.ld f) c s) (((issued (.ld f) c s).group? c.ref.gid).getD c.grp) l).1 = (scratchGot s c.grp l).1 := by
      rw [hg', scratchGot_issued _ _ _ he]; rfl
    obtain ⟨hown, hothers⟩ := ordered_addPend (q := scratchPend c f l (issued (.ld f) c s)) h.issuer he (.refl c _)
      (hby.addPend_warps (i := .ld f) _)
    refine ⟨_, _, issue_next h (exec_ld f s) rfl rfl (ldEff_scratch hl hsp), hown, hothers, fun hm => ?_, ?_, rfl, rfl,
      fun _ => ⟨rfl, ?_, hgot⟩, fun h3 => absurd h3 hnot, ld_bytes f c s l _ (fun _ => hgot) (fun h3 => absurd h3 hnot),
      mem_ldItems c.env f, fun y hy got => ldItems_value hy got⟩
    · have hsoft : (issued (.ld f) c s).soft = [] := by rw [issued_rest he]; exact hm.resolve_right hnot
      rw [addPend_mem, corrected_mem hsoft, issued_mem]
    · rw [addPend_groups, hby.groups, issued_groups]
    · exact congrArg (· + _) issued_cycle
  · have h3 : 3 ≤ f.space.toNat := by omega
    obtain ⟨view, heff⟩ := ldEff_mem hl hsp hg'
    obtain ⟨hown, hothers⟩ := ordered_addPend (q := loadPend c f c.grp view l (issued (.ld f) c s)) h.issuer he (.refl c _)
      (requests_warps ..)
    have hplace : ∀ u, ((issued (.ld f) c s).addPend c (.ld f) (loadPend c f c.grp view l (issued (.ld f) c s))).place u = s.place u := by
      intro u
      rw [addPend_eq, State.place, State.place, issued_rest he]; rfl
    refine ⟨_, _, issue_next h (exec_ld f s) rfl rfl heff, hown, hothers, fun _ => ?_, ?_, rfl, rfl, fun h => absurd h hsp,
      fun _ => ⟨rfl, length_loadReqs .., fun u hu => ?_, fun u => ⟨fun r hr => ?_, fun r hr => ?_⟩⟩,
      ld_bytes f c s l _ (fun h => absurd h hsp) (fun _ => rfl), mem_ldItems c.env f, fun y hy got => ldItems_value hy got⟩
    · rw [requests_mem, addPend_mem, issued_mem]
    · rw [requests_groups, addPend_groups, issued_groups]
    · intro ps hps
      have hreq : (u, ps) ∈ loadReqs c.grp l := mem_loadReqs.2 ⟨hu, rfl, hps⟩
      obtain ⟨a, ha⟩ := requests_mem_queue (List.mem_map_of_mem (f := fun x => (x.1, loadReq c (issued (.ld f) c s).fresh x.2)) hreq) _
      exact ⟨_, ha, rfl, rfl, rfl, rfl⟩
    · exact requests_keeps _ ((hplace u).symm ▸ hr)
    · obtain hr | ⟨y, hy, a, rfl⟩ := requests_only hr
      · exact .inl (by rwa [hplace] at hr)
      · obtain ⟨z, hz, rfl⟩ := List.mem_map.1 hy
        exact .inr ⟨rfl, rfl, (mem_loadReqs.1 hz).2.2⟩

end Sys2Proof.Laws
end

section
/-! SUPPORT. The pieces of an access to a scratchpad (R132, R139), stores of pieces one after another in their bank (R138, R143), and what a
store buffer holds (R347). -/

namespace Sys2Proof.Laws

open Sys2Proof.Machine

variable {i : Instr} {c : Issuer} {s t u : State} {f : MFmt}

/-! ## Pieces -/

/-- The pieces of n bytes lie within them. -/
theorem mem_cut {va n step o k : Nat} (hstep : 0 < step) (h : (o, k) ∈ cut va n step) : 0 < k ∧ o + k ≤ n := by
  obtain ⟨b, hb, h⟩ := List.mem_flatMap.1 h
  obtain ⟨j, hj, rfl⟩ := List.mem_map.1 hb
  have hj : (j + 1) * step ≤ n := (Nat.le_div_iff_mul_le hstep).1 (List.mem_range.1 hj)
  rw [Nat.succ_mul] at hj
  split at h
  · obtain ⟨rfl, rfl⟩ := Prod.mk.inj (List.mem_singleton.1 h)
    exact ⟨hstep, hj⟩
  · obtain ⟨b, hb, h⟩ := List.mem_map.1 h
    obtain ⟨rfl, rfl⟩ := Prod.mk.inj h
    have := List.mem_range.1 hb
    exact ⟨Nat.one_pos, by omega⟩

/-- A piece of a lane's access: its bytes are some of the lane's. -/
structure PieceOf (a : Acc) (lane : Nat) (x : Spot) : Prop where
  lane : x.lane = lane
  pos : 0 < x.n
  within : x.off + x.n ≤ a.n

/-- A piece in a scratchpad lies in the allocation (R132). -/
structure InAlloc (s : State) (c : Issuer) (a : Acc) (ea : Nat) (x : Spot) : Prop where
  va : x.va = ea + x.off
  key : x.key = (s.alloc c a.space).1 + x.va
  unit : x.unit = (s.alloc c a.space).2.2
  fits : ea + a.n ≤ (s.alloc c a.space).2.1

section spots
variable {a : Acc} {lane ea : Nat} {l : List Spot} {x : Spot}

theorem mem_spotsOf {va : Nat} {tr : List (Nat × Nat × Xres)} (hx : x ∈ spotsOf lane va tr) :
    ∃ p ∈ tr, x.lane = lane ∧ x.off = p.1 ∧ x.n = p.2.1 := by
  obtain ⟨p, hp, h⟩ := List.mem_filterMap.1 hx
  split at h
  · obtain rfl := Option.some.inj h
    exact ⟨p, hp, rfl, rfl, rfl⟩
  · cases h

/-- What the pieces of a lane that passes every check are. -/
theorem mem_laneSpots (hstep : 0 < a.step) (h : s.laneSpots c a lane ea = .ok l) (hx : x ∈ l) :
    PieceOf a lane x ∧ (a.space < 3 → InAlloc s c a ea x) := by
  unfold State.laneSpots at h
  extract_lets e va tr m at h
  split at h
  · cases h
  split at h
  · cases h
  split at h
  case isTrue hsp =>
    simp only at h
    split at h
    · cases h
    rename_i hfits
    split at h
    · cases h
    cases h
    obtain ⟨p, hp, rfl⟩ := List.mem_map.1 hx
    obtain ⟨hpos, hin⟩ := mem_cut hstep hp
    exact ⟨⟨rfl, hpos, hin⟩, fun _ => ⟨rfl, Nat.add_assoc .., rfl, not_lt.1 hfits⟩⟩
  case isFalse hsp =>
    refine ⟨?_, fun h => absurd h hsp⟩
    split at h
    · cases h
    split at h
    · cases h
    split at h
    · cases h; cases hx
    split at h
    · cases h
    split at h
    · cases h
    split at h
    · cases h
    split at h
    · cases h
    rw [← Except.ok.inj h] at hx
    obtain ⟨p, hp, hlane, hoff, hn⟩ := mem_spotsOf hx
    obtain ⟨r, hr, rfl⟩ := List.mem_map.1 hp
    obtain ⟨hpos, hin⟩ := mem_cut hstep hr
    exact ⟨hlane, hn ▸ hpos, by rw [hoff, hn]; exact hin⟩

theorem mem_allSpots {addrs : List (Nat × Nat)} (hstep : 0 < a.step) (h : s.allSpots c a addrs = .ok l) (hx : x ∈ l) :
    ∃ p ∈ addrs, PieceOf a p.1 x ∧ (a.space < 3 → InAlloc s c a p.2 x) := by
  induction addrs generalizing l with
  | nil => cases h; cases hx
  | cons p addrs ih =>
    obtain ⟨lane, ea⟩ := p
    unfold State.allSpots at h
    split at h
    · cases h
    rename_i l1 h1
    split at h
    · cases h
    rename_i l2 h2
    cases h
    rcases List.mem_append.1 hx with hx | hx
    · exact ⟨_, List.mem_cons_self, mem_laneSpots hstep h1 hx⟩
    · obtain ⟨p, hp, h⟩ := ih h2 hx
      exact ⟨p, List.mem_cons_of_mem _ hp, h⟩

theorem access_allSpots {addrs : List (Nat × Nat)} (h : s.access c a addrs = .ok l) : s.allSpots c a addrs = .ok l := by
  unfold State.access at h
  split at h
  · cases h
  split at h
  · cases h
  cases h
  assumption

theorem mem_access {addrs : List (Nat × Nat)} (hstep : 0 < a.step) (h : s.access c a addrs = .ok l) (hx : x ∈ l) :
    ∃ p ∈ addrs, PieceOf a p.1 x ∧ (a.space < 3 → InAlloc s c a p.2 x) := mem_allSpots hstep (access_allSpots h) hx

/-- The allocation of a scratchpad lies above HBM, the capacity tier, host memory and the peers. -/
theorem alloc_upper (s : State) (c : Issuer) (space : Nat) : 4 * region ≤ (s.alloc c space).1 := by
  unfold State.alloc
  split
  · unfold benchKey; omega
  · simp only [shopKey]; omega
  · simp only [yardKey]; omega

end spots

/-! ## Stores of pieces in their bank -/

/-- A list of pieces above memory, each with its bytes; where one lies in a bench, none reaches the valid bits. -/
structure Banked (data : Spot → List Byte) (l : List Spot) : Prop where
  upper : ∀ x ∈ l, 4 * region ≤ x.key
  length : ∀ x ∈ l, (data x).length = x.n
  pos : ∀ x ∈ l, 0 < x.n
  below : ∀ x ∈ l, ∀ y ∈ l, keyRegion y.key = 4 → x.key + x.n ≤ 9 * region

namespace Banked
variable {data : Spot → List Byte} {l pre post : List Spot} {x y : Spot} {a k : Nat} {m : List Host.Cell}

theorem of_subset (h : Banked data l) {l' : List Spot} (hl : ∀ x ∈ l', x ∈ l) : Banked data l' :=
  ⟨fun x hx => h.1 x (hl x hx), fun x hx => h.2 x (hl x hx), fun x hx => h.3 x (hl x hx), fun x hx y hy => h.4 x (hl x hx) y (hl y hy)⟩

theorem cell_eq (h : Banked data l) (hx : x ∈ l) (k : Nat) : cell (x.key + k) = x.key + k := by
  have := h.upper x hx
  have := gang_le_region
  exact cell_plain (by omega)

/-- The byte that a piece puts at a key of its own. -/
theorem written_own (h : Banked data l) (hx : x ∈ l) (hk : k < x.n) (hwf : Memory.wf m = true) :
    rdByte (written m x.key (data x)) (x.key + k) = (data x).getD k 0 := by
  have hup := h.upper x hx
  have hlen := h.length x hx
  have hgang := gang_le_region
  rw [rdByte_written, ← h.cell_eq hx, rdByte_wrBytes_in hwf (.inr (.inl (by omega))) (hlen.symm ▸ hk)]
  · simp [hlen, hk]
  · intro h4 w _
    have := h.below x hx x hx h4
    unfold validKey
    omega

/-- A byte that a piece neither holds nor validates. -/
theorem written_other (h : Banked data l) (hx : x ∈ l) (hholds : x.holds a = false) (hvalid : x.validates a = false) (m : List Host.Cell) :
    rdByte (written m x.key (data x)) a = rdByte m a := by
  rw [rdByte_written]
  · refine rdByte_wrBytes_out fun k hk e => ?_
    rw [h.length x hx] at hk
    simp only [Spot.holds, List.any_eq_false, List.mem_range] at hholds
    simpa [e] using hholds k hk
  · intro h4 w hw e
    rw [h.length x hx] at hw
    have : x.validates a = true := by
      simp only [Spot.validates, h4, decide_true, Bool.true_and, List.any_eq_true]
      exact ⟨w, hw, by simpa using e⟩
    exact absurd hvalid (by simp [this])

/-- A byte below the valid bits that a piece does not hold. -/
theorem written_below (h : Banked data l) (hx : x ∈ l) (hholds : x.holds a = false) (ha : keyRegion x.key = 4 → a < 9 * region)
    (m : List Host.Cell) : rdByte (written m x.key (data x)) a = rdByte m a := by
  refine h.written_other hx hholds ?_ m
  by_contra hv
  rw [Bool.not_eq_false] at hv
  simp only [Spot.validates, Bool.and_eq_true, decide_eq_true_eq, List.any_eq_true] at hv
  obtain ⟨h4, w, -, e⟩ := hv
  have := ha h4
  unfold validKey at e
  omega

theorem foldl_other (h : Banked data l) (ha : ∀ x ∈ l, x.holds a = false ∧ x.validates a = false) (m : List Host.Cell) :
    rdByte (l.foldl (fun m x => written m x.key (data x)) m) a = rdByte m a := by
  induction l generalizing m with
  | nil => rfl
  | cons x l ih =>
    obtain ⟨hholds, hvalid⟩ := ha x List.mem_cons_self
    rw [List.foldl_cons, ih (h.of_subset fun _ => List.mem_cons_of_mem _) fun y hy => ha y (List.mem_cons_of_mem _ hy),
      h.written_other List.mem_cons_self hholds hvalid]

theorem foldl_below (h : Banked data l) (ha : ∀ x ∈ l, x.holds a = false ∧ (keyRegion x.key = 4 → a < 9 * region)) (m : List Host.Cell) :
    rdByte (l.foldl (fun m x => written m x.key (data x)) m) a = rdByte m a := by
  induction l generalizing m with
  | nil => rfl
  | cons x l ih =>
    obtain ⟨hholds, hbelow⟩ := ha x List.mem_cons_self
    rw [List.foldl_cons, ih (h.of_subset fun _ => List.mem_cons_of_mem _) fun y hy => ha y (List.mem_cons_of_mem _ hy),
      h.written_below List.mem_cons_self hholds hbelow]

theorem wf_foldl_written (data : Spot → List Byte) (l : List Spot) (h : Memory.wf m = true) :
    Memory.wf (l.foldl (fun m x => written m x.key (data x)) m) = true := wf_foldl (fun _ _ h => wf_written _ _ h) l h

/-- The bytes of a later piece lie over those of an earlier one. -/
theorem foldl_last (h : Banked data (pre ++ x :: post)) (hk : k < x.n) (hpost : ∀ y ∈ post, y.holds (x.key + k) = false)
    (hwf : Memory.wf m = true) :
    rdByte ((pre ++ x :: post).foldl (fun m x => written m x.key (data x)) m) (x.key + k) = (data x).getD k 0 := by
  have hx : x ∈ pre ++ x :: post := by simp
  have hsub : ∀ y ∈ post, y ∈ pre ++ x :: post := fun y hy => by simp [hy]
  rw [List.foldl_append, List.foldl_cons, (h.of_subset hsub).foldl_below, h.written_own hx hk (wf_foldl_written data pre hwf)]
  intro y hy
  refine ⟨hpost y hy, fun h4 => ?_⟩
  have := h.below x hx y (hsub y hy) h4
  omega

theorem rdByte_foldl_hit {ws : List Nat} {f : Nat → Nat} {v : Byte} {b : Nat} (hwf : Memory.wf m = true) (h : b ∈ ws.map f ∨ rdByte m b = v) :
    rdByte (ws.foldl (fun m w => wrByte m (f w) v) m) b = v := by
  induction ws generalizing m with
  | nil => exact h.resolve_left (by simp)
  | cons w ws ih =>
    refine ih (wf_wrByte _ _ hwf) ?_
    by_cases hb : b = f w
    · exact .inr (hb ▸ rdByte_wrByte_self hwf)
    · refine h.imp (fun h => ?_) fun h => (rdByte_wrByte_ne hb).trans h
      exact (List.mem_cons.1 (List.map_cons ▸ h)).resolve_left hb

theorem written_valid (h4 : keyRegion x.key = 4) {w : Nat} (hw : w ∈ benchWords x.key (data x).length) (hwf : Memory.wf m = true) :
    rdByte (written m x.key (data x)) (validKey (benchCore x.key) w) = 1 := by
  rw [written, if_pos h4]
  exact rdByte_foldl_hit (wf_wrBytes _ _ hwf) (.inl (List.mem_map_of_mem hw))

/-- A valid bit that is set stays so under what does not hold it. -/
theorem written_stays (h : Banked data l) (hx : x ∈ l) (hholds : x.holds a = false) (hwf : Memory.wf m = true) (ha : rdByte m a = 1) :
    rdByte (written m x.key (data x)) a = 1 := by
  have hout : rdByte (wrBytes m x.key (data x)) a = rdByte m a := by
    refine rdByte_wrBytes_out fun k hk e => ?_
    rw [h.length x hx] at hk
    simp only [Spot.holds, List.any_eq_false, List.mem_range] at hholds
    simpa [e] using hholds k hk
  unfold written
  split
  · exact rdByte_foldl_hit (wf_wrBytes _ _ hwf) (.inr (hout.trans ha))
  · exact hout.trans ha

theorem foldl_stays (h : Banked data l) (hholds : ∀ y ∈ l, y.holds a = false) (hwf : Memory.wf m = true) (ha : rdByte m a = 1) :
    rdByte (l.foldl (fun m x => written m x.key (data x)) m) a = 1 := by
  induction l generalizing m with
  | nil => exact ha
  | cons x l ih =>
    exact ih (h.of_subset fun _ => List.mem_cons_of_mem _) (fun y hy => hholds y (List.mem_cons_of_mem _ hy)) (wf_written _ _ hwf)
      (h.written_stays List.mem_cons_self (hholds x List.mem_cons_self) hwf ha)

/-- The words in which a piece lies are valid. -/
theorem foldl_valid (h : Banked data l) (hx : x ∈ l) (h4 : keyRegion x.key = 4) {w : Nat} (hw : w ∈ benchWords x.key x.n)
    (hholds : ∀ y ∈ l, y.holds (validKey (benchCore x.key) w) = false) (hwf : Memory.wf m = true) :
    rdByte (l.foldl (fun m x => written m x.key (data x)) m) (validKey (benchCore x.key) w) = 1 := by
  obtain ⟨pre, post, rfl⟩ := List.append_of_mem hx
  have hsub : ∀ y ∈ post, y ∈ pre ++ x :: post := fun y hy => by simp [hy]
  rw [List.foldl_append, List.foldl_cons]
  refine (h.of_subset hsub).foldl_stays (fun y hy => hholds y (hsub y hy)) (wf_written _ _ (wf_foldl_written data pre hwf)) ?_
  exact written_valid h4 (by rw [h.length x hx]; exact hw) (wf_foldl_written data pre hwf)

end Banked

/-! ## The state after such stores -/

/-- The stores of pieces, one after another. -/
def banked (c : Issuer) (cnt : Nat) (data : Spot → List Byte) (l : List Spot) (s : State) : State :=
  l.foldl (fun s x => (s.exposeBy c.grp x.key).store c.grp.core x.key (data x) (s.stampFor c.ref.gid c.ref.wid cnt x.key)) s

theorem exposeBy_rest (s : State) (g : Group) (key : Nat) :
    (s.exposeBy g key).mem = s.mem ∧ (s.exposeBy g key).warps = s.warps ∧ (s.exposeBy g key).cycle = s.cycle := by
  unfold State.exposeBy; split <;> exact ⟨rfl, rfl, rfl⟩

theorem banked_rest {data : Spot → List Byte} {l : List Spot} (h : Banked data l) (cnt : Nat) (s : State) :
    (banked c cnt data l s).mem = l.foldl (fun m x => written m x.key (data x)) s.mem ∧ (banked c cnt data l s).cycle = s.cycle ∧
    ∀ gid wid, Option.Rel WarpQuiet (s.warp? gid wid) ((banked c cnt data l s).warp? gid wid) := by
  induction l generalizing s with
  | nil => exact ⟨rfl, rfl, fun _ _ => rel_refl .refl _⟩
  | cons x l ih =>
    have hx : x ∈ x :: l := List.mem_cons_self
    have hup : region ≤ x.key := by have := h.upper x hx; omega
    have hne : data x ≠ [] := by
      rw [← List.length_pos_iff, h.length x hx]
      exact h.pos x hx
    obtain ⟨hm, hw, hc⟩ := exposeBy_rest s c.grp x.key
    have hq := store_quiet (core := c.grp.core) (st := s.stampFor c.ref.gid c.ref.wid cnt x.key) (s := s.exposeBy c.grp x.key) hup hne
    obtain ⟨ihm, ihc, ihw⟩ := ih (h.of_subset fun _ => List.mem_cons_of_mem _)
      ((s.exposeBy c.grp x.key).store c.grp.core x.key (data x) (s.stampFor c.ref.gid c.ref.wid cnt x.key))
    refine ⟨ihm.trans ?_, ihc.trans (hq.cycle.trans hc), fun gid wid => ?_⟩
    · rw [hq.mem, List.foldl_cons, ← hm]; rfl
    · refine rel_trans .trans ?_ (ihw gid wid)
      have := hq.warp gid wid
      rwa [State.warp?, placed_warps, hw] at this

/-! ## The bytes of a store -/

theorem length_natBytes_flatMap {α : Type} (l : List α) (f : α → Nat) : (l.flatMap fun x => natBytes 4 (f x)).length = 4 * l.length := by
  simp [List.length_flatMap, Nat.mul_comm]

/-- A lane stores as many bytes as R136 gives it. -/
theorem length_stBytes (h : MayIssue (.st f) c s) (lane : Nat) : (stBytes c.env f lane).length = mLane f := by
  have hsize : f.size.toNat < 5 := by
    have := h.check (i := .st f) (b := decide (5 ≤ f.size.toNat)) (r := 5) (by simp [checks, ckSt, ckM])
    simpa using this
  unfold stBytes
  extract_lets word b
  split
  case isTrue hlatch =>
    have hblock : mBlock f = false := by
      by_contra hb
      rw [Bool.not_eq_false] at hb
      have := h.check (i := .st f) (b := true) (r := 4) (by simp [checks, ckSt, hlatch, hb, ckNoLatch])
      cases this
    simp [mLane, hblock]
  case isFalse =>
    split
    case isTrue hb =>
      simp only [mLane, hb, if_true, List.length_flatMap, length_natBytes, List.map_const', List.length_range, List.sum_replicate, smul_eq_mul]
      ring
    case isFalse hb =>
      rw [List.length_take, length_natBytes_flatMap, List.length_range, mLane, if_neg hb, mSize, sizeRegs]
      generalize f.size.toNat = n at hsize
      interval_cases n <;> rfl

theorem length_stData (h : MayIssue (.st f) c s) {lane : Nat} {x : Spot} {need : Need} (hx : PieceOf (mAcc f need) lane x) :
    (stData c.env f x).length = x.n := by
  have hin : x.off + x.n ≤ mLane f := hx.within
  rw [stData, List.length_take, List.length_drop, length_stBytes h]
  omega

theorem getD_stData (e : Env) (f : MFmt) {x : Spot} {k : Nat} (hk : k < x.n) :
    (stData e f x).getD k 0 = (stBytes e f x.lane).getD (x.off + k) 0 := by
  simp [stData, List.getD_eq_getElem?_getD, hk]

theorem mAcc_step (f : MFmt) (need : Need) : 0 < (mAcc f need).step := by
  simp only [mAcc]; split
  · norm_num
  · exact Nat.two_pow_pos _

theorem mAddr_lt (e : Env) (f : MFmt) (hsp : f.space.toNat < 3) (lane : Nat) : mAddr e f lane < 2 ^ 32 := by
  have h3 : f.space ≠ 3 := fun h => by rw [h] at hsp; exact absurd hsp (by decide)
  rw [mAddr, if_neg h3]
  exact Nat.mod_lt _ (by norm_num)

theorem extent_le (x : BitVec 2) : extent x ≤ 8 := Nat.pow_le_pow_right (by norm_num) (by have := x.isLt; omega : x.toNat ≤ 3)

theorem mLane_le (f : MFmt) : mLane f ≤ 256 := by
  unfold mLane
  split
  · calc 4 * extent f.height * extent f.width ≤ 4 * 8 * 8 := Nat.mul_le_mul (Nat.mul_le_mul_left 4 (extent_le _)) (extent_le _)
      _ = 256 := rfl
  · calc mSize f ≤ 2 ^ 7 := Nat.pow_le_pow_right (by norm_num) (by have := f.size.isLt; omega : f.size.toNat ≤ 7)
      _ ≤ 256 := by norm_num

/-- The pieces of a store to a scratchpad, with their bytes. -/
theorem st_banked (h : MayIssue (.st f) c s) (hsp : f.space.toNat < 3) {l : List Spot} (hl : pieces (.st f) f .write c s = .ok l) :
    Banked (stData c.env f) l := by
  have hspace : (mAcc f .write).space < 3 := hsp
  have hpiece : ∀ x ∈ l, ∃ ea, ea < 2 ^ 32 ∧ (stData c.env f x).length = x.n ∧ 0 < x.n ∧ x.off + x.n ≤ 256 ∧
      InAlloc (issued (.st f) c s) c (mAcc f .write) ea x := by
    intro x hx
    obtain ⟨p, hp, hof, hin⟩ := mem_access (mAcc_step f .write) hl hx
    obtain ⟨lane, -, rfl⟩ := List.mem_map.1 hp
    exact ⟨_, mAddr_lt c.env f hsp lane, length_stData h hof, hof.pos, hof.within.trans (mLane_le f), hin hspace⟩
  have hup := alloc_upper (issued (.st f) c s) c (mAcc f .write).space
  refine ⟨fun x hx => ?_, fun x hx => ?_, fun x hx => ?_, fun x hx y hy h4 => ?_⟩
  · obtain ⟨ea, -, -, -, -, hin⟩ := hpiece x hx
    rw [hin.key]; omega
  · obtain ⟨ea, -, hlen, -⟩ := hpiece x hx; exact hlen
  · obtain ⟨ea, -, -, hpos, -⟩ := hpiece x hx; exact hpos
  · obtain ⟨ea, hea, -, -, hle, hin⟩ := hpiece x hx
    obtain ⟨ea', -, -, -, -, hin'⟩ := hpiece y hy
    have hy5 : y.key < 5 * region := (Nat.div_lt_iff_lt_mul region_pos).1 (by unfold keyRegion at h4; omega)
    have hregion : 2 ^ 33 ≤ region := by unfold region; norm_num
    rw [hin.key, hin.va]
    rw [hin'.key] at hy5
    omega

/-! ## Store buffers -/

/-- Bytes put into a store buffer, the later over the older ones. -/
def putAll (bytes : List (Nat × SbByte)) (m : FMap SbByte) : FMap SbByte := bytes.foldl (fun m p => fput p.1 p.2 m) m

/-- The last of some bytes at a key. -/
def LastAt (bytes : List (Nat × SbByte)) (k : Nat) (b : SbByte) : Prop := ∃ pre post, bytes = pre ++ (k, b) :: post ∧ ∀ p ∈ post, p.1 ≠ k

theorem flook_putAll_ne {bytes : List (Nat × SbByte)} {k : Nat} (h : ∀ p ∈ bytes, p.1 ≠ k) (m : FMap SbByte) :
    flook k (putAll bytes m) = flook k m := by
  induction bytes generalizing m with
  | nil => rfl
  | cons p bytes ih =>
    exact (ih (fun q hq => h q (List.mem_cons_of_mem _ hq)) _).trans (flook_fput_ne (h p List.mem_cons_self).symm ..)

theorem flook_putAll_last {bytes : List (Nat × SbByte)} {k : Nat} {b : SbByte} (h : LastAt bytes k b) (m : FMap SbByte) :
    flook k (putAll bytes m) = some b := by
  obtain ⟨pre, post, rfl, hpost⟩ := h
  rw [putAll, List.foldl_append, List.foldl_cons]
  exact (flook_putAll_ne hpost _).trans (flook_fput_self ..)

theorem LastAt.filter {bytes : List (Nat × SbByte)} {k : Nat} {b : SbByte} (h : LastAt bytes k b) {P : Nat × SbByte → Bool} (hP : P (k, b) = true) :
    LastAt (bytes.filter P) k b := by
  obtain ⟨pre, post, rfl, hpost⟩ := h
  exact ⟨pre.filter P, post.filter P, by rw [List.filter_append, List.filter_cons, if_pos hP], fun p hp => hpost p (List.mem_of_mem_filter hp)⟩

theorem mem_sins {k a : Nat} {l : List Nat} : a ∈ sins k l ↔ a = k ∨ a ∈ l := by
  induction l with
  | nil => simp [sins]
  | cons b l ih =>
    unfold sins
    split
    · rw [List.mem_cons, ih, List.mem_cons]; tauto
    · split
      · rename_i h; subst h; simp
      · exact List.mem_cons

theorem mem_foldl_sins {α : Type} (f : α → Nat) (l : List α) (acc : List Nat) {a : Nat} :
    a ∈ l.foldl (fun acc x => sins (f x) acc) acc ↔ a ∈ acc ∨ ∃ x ∈ l, f x = a := by
  induction l generalizing acc with
  | nil => simp
  | cons x l ih =>
    rw [List.foldl_cons, ih, mem_sins, List.exists_mem_cons_iff]
    constructor
    · rintro ((rfl | h) | h) <;> tauto
    · rintro (h | rfl | h) <;> tauto

theorem flook_filter {α : Type} {P : Nat → Bool} {k : Nat} (hP : P k = true) (m : FMap α) : flook k (m.filter fun p => P p.1) = flook k m := by
  induction m with
  | nil => rfl
  | cons p m ih =>
    obtain ⟨a, v⟩ := p
    rw [List.filter_cons, flook_cons]
    by_cases ha : a = k
    · subst ha
      rw [if_pos hP, flook_cons]
      simp
    · rw [if_neg ha]
      split
      · rw [flook_cons, if_neg ha, ih]
      · exact ih

theorem mem_of_flook {α : Type} {k : Nat} {v : α} {m : FMap α} (h : flook k m = some v) : (k, v) ∈ m := by
  induction m with
  | nil => cases h
  | cons p m ih =>
    obtain ⟨a, w⟩ := p
    rw [flook_cons] at h
    split at h
    · rename_i ha
      obtain rfl := ha
      obtain rfl := Option.some.inj h
      exact List.mem_cons_self
    · exact List.mem_cons_of_mem _ (ih h)

/-- A commit's entries hold every byte of the buffer (R244, R347). -/
theorem flook_drainEntries (g : Group) (gid cid : Nat) (agent : Option (Nat × Mask)) {bytes : FMap SbByte} {k : Nat} {b : SbByte}
    (h : flook k bytes = some b) : ∃ e ∈ drainEntries g gid cid agent bytes, flook k e.bytes = some b := by
  have hmem := mem_of_flook h
  have hfilter : flook k (bytes.filter fun p => decide (sectorOf p.1 = sectorOf k)) = some b :=
    (flook_filter (P := fun j => decide (sectorOf j = sectorOf k)) (by simp) bytes).trans h
  cases hbs : bytes.filter fun p => decide (sectorOf p.1 = sectorOf k) with
  | nil =>
    rw [hbs] at hfilter
    cases hfilter
  | cons p bs =>
    obtain ⟨a, v⟩ := p
    rw [hbs] at hfilter
    refine ⟨{ u := v.unit, bank := a / 64 % 16, bytes := (a, v) :: bs, gid := gid, cid := cid, task := g.task, group := g.index, agent := agent },
      List.mem_filterMap.2 ⟨sectorOf k, (mem_foldl_sins (fun p : Nat × SbByte => sectorOf p.1) bytes []).2 (.inr ⟨_, hmem, rfl⟩), ?_⟩, hfilter⟩
    simp only [hbs]

/-- Bytes of at most 2,048 atoms have entered a group's buffer: what it held stands, or is taken by a commit. -/
structure Buffered (bytes : List (Nat × SbByte)) (g h : Group) : Prop where
  member : h.member = g.member
  sbuf : h.sbuf = putAll bytes g.sbuf ∨ h.sbuf = putAll bytes []
  kept : ∀ k b, g.member ≠ 2 → flook k g.sbuf = some b → (∀ p ∈ bytes, p.1 ≠ k) →
    flook k h.sbuf = some b ∨ ∃ e ∈ h.draining, flook k e.bytes = some b
  draining : ∀ e ∈ g.draining, e ∈ h.draining

theorem bufferPart_group {gid : Nat} {g : Group} (hg : s.group? gid = some g) (agent : Option (Nat × Mask)) (bytes : List (Nat × SbByte)) :
    ∃ h, (s.bufferPart gid agent bytes).group? gid = some h ∧ Buffered bytes g h := by
  unfold State.bufferPart
  simp only [hg]
  split
  · refine ⟨{ g with sbuf := putAll bytes g.sbuf }, by rw [modGroup_self, hg]; rfl, rfl, .inl rfl, fun k b _ hk hne => .inl ?_, fun _ he => he⟩
    exact (flook_putAll_ne hne _).trans hk
  · split
    · rename_i h2
      refine ⟨{ g with sbuf := putAll bytes [] }, by rw [modGroup_self, modGroup_self, hg]; rfl, rfl, .inr rfl, fun k b hne => absurd h2 hne,
        fun _ he => he⟩
    · rw [commit_eq hg]
      refine ⟨{ drained gid s.fresh agent g with sbuf := putAll bytes [] }, ?_, rfl, .inr rfl, fun k b _ hk hne => .inr ?_,
        fun e he => List.mem_append_left _ he⟩
      · rw [modGroup_self]
        exact congrArg (Option.map _) ((flook_fmod_self ..).trans (congrArg _ hg))
      · obtain ⟨e, he, hb⟩ := flook_drainEntries g gid s.fresh agent hk
        exact ⟨e, List.mem_append_right _ he, hb⟩

namespace Buffered
variable {bytes : List (Nat × SbByte)} {g h : Group} {k : Nat} {b : SbByte}

theorem last (hb : Buffered bytes g h) (hl : LastAt bytes k b) : flook k h.sbuf = some b := by
  rcases hb.sbuf with hs | hs <;> rw [hs] <;> exact flook_putAll_last hl _

theorem other (hb : Buffered bytes g h) (hne : ∀ p ∈ bytes, p.1 ≠ k) : flook k h.sbuf = flook k g.sbuf ∨ flook k h.sbuf = none := by
  rcases hb.sbuf with hs | hs <;> rw [hs, flook_putAll_ne hne]
  · exact .inl rfl
  · exact .inr rfl

end Buffered

/-- The atoms of some bytes. -/
def atomsIn (bytes : List (Nat × SbByte)) : List Nat := bytes.foldl (fun a p => sins (p.1 / 32) a) []

/-- What a write leaves in the store buffer and with the commits. -/
theorem buffer_group {gid : Nat} {g : Group} (hg : s.group? gid = some g) (agent : Option (Nat × Mask)) (bytes : List (Nat × SbByte)) :
    ∃ h, (s.buffer gid agent bytes).group? gid = some h ∧
      (∀ k b, LastAt bytes k b → ((atomsIn bytes).length ≤ 2048 → flook k h.sbuf = some b) ∧
        (g.member ≠ 2 → flook k h.sbuf = some b ∨ ∃ e ∈ h.draining, flook k e.bytes = some b)) ∧
      ∀ k, (∀ p ∈ bytes, p.1 ≠ k) → flook k h.sbuf = flook k g.sbuf ∨ flook k h.sbuf = none := by
  unfold State.buffer
  extract_lets atoms first
  split
  case isTrue =>
    obtain ⟨h, hh, hb⟩ := bufferPart_group hg agent bytes
    exact ⟨h, hh, fun k b hl => ⟨fun _ => hb.last hl, fun _ => .inl (hb.last hl)⟩, fun k hne => hb.other hne⟩
  case isFalse hmany =>
    obtain ⟨g1, hg1, h1⟩ := bufferPart_group hg agent (bytes.filter fun p => first.contains (p.1 / 32))
    obtain ⟨h, hh, h2⟩ := bufferPart_group hg1 agent (bytes.filter fun p => !first.contains (p.1 / 32))
    refine ⟨h, hh, fun k b hl => ⟨fun hfew => absurd hfew hmany, fun hmember => ?_⟩, fun k hne => ?_⟩
    · by_cases hk : first.contains (k / 32) = true
      · refine h2.kept k b (h1.member.symm ▸ hmember) (h1.last (hl.filter (P := fun p => first.contains (p.1 / 32)) hk)) ?_
        rintro p hp rfl
        exact absurd hk (by simpa using (List.mem_filter.1 hp).2)
      · exact .inl (h2.last (hl.filter (P := fun p => !first.contains (p.1 / 32)) (by simpa using hk)))
    · have hother := h2.other (k := k) fun p hp => hne p (List.mem_of_mem_filter hp)
      rcases h1.other (k := k) fun p hp => hne p (List.mem_of_mem_filter hp) with h | h
      · rwa [h] at hother
      · rw [h, or_self] at hother
        exact .inr hother

theorem Ordered.bufferPart (agent : Option (Nat × Mask)) (bytes : List (Nat × SbByte)) : Ordered c s (s.bufferPart c.ref.gid agent bytes) := by
  unfold State.bufferPart
  split
  · exact .refl c s
  · extract_lets s1
    have h1 : Ordered c s s1 := by
      unfold s1
      split
      · exact .refl c s
      · split
        · exact .modGroup _ _
        · exact .commit _ _
    exact h1.trans (.modGroup _ _)

theorem Ordered.buffer (agent : Option (Nat × Mask)) (bytes : List (Nat × SbByte)) : Ordered c s (s.buffer c.ref.gid agent bytes) := by
  unfold State.buffer
  extract_lets atoms first
  split
  · exact .bufferPart ..
  · exact (bufferPart ..).trans (.bufferPart ..)

/-! ## The effect of ST -/

/-- The bytes of pieces as store-buffer bytes. -/
def spotBytes (data : Spot → List Byte) (count : Nat) (l : List Spot) : List (Nat × SbByte) := l.flatMap fun x => sbBytes x (data x) count

theorem lastAt_spotBytes (data : Spot → List Byte) (count : Nat) {pre post : List Spot} {x : Spot} {k : Nat} (hk : k < x.n)
    (hpost : ∀ y ∈ post, y.names (x.key + k) = false) :
    LastAt (spotBytes data count (pre ++ x :: post)) (x.key + k)
      { val := (data x).getD k 0, va := x.va + k, unit := x.unit, count := count } := by
  obtain ⟨d, hd⟩ : ∃ d, x.n = k + (d + 1) := ⟨x.n - k - 1, by omega⟩
  refine ⟨spotBytes data count pre ++ (List.range k).map fun i => (x.key + i, { val := (data x).getD i 0, va := x.va + i, unit := x.unit, count := count }),
    ((List.range' (k + 1) d).map fun i => (x.key + i, { val := (data x).getD i 0, va := x.va + i, unit := x.unit, count := count })) ++
      spotBytes data count post, ?_, fun p hp => ?_⟩
  · have hrange : List.range x.n = List.range k ++ k :: List.range' (k + 1) d := by
      rw [hd, List.range_eq_range', ← List.range'_append_1, List.range_eq_range', Nat.zero_add, List.range'_succ]
    simp [spotBytes, sbBytes, hrange]
  · rcases List.mem_append.1 hp with hp | hp
    · obtain ⟨i, hi, rfl⟩ := List.mem_map.1 hp
      have := (List.mem_range'_1.1 hi).1
      show x.key + i ≠ x.key + k
      omega
    · obtain ⟨y, hy, hp⟩ := List.mem_flatMap.1 hp
      obtain ⟨i, hi, rfl⟩ := List.mem_map.1 hp
      have hi := List.mem_range.1 hi
      have hno := hpost y hy
      intro (e : y.key + i = x.key + k)
      simp only [Spot.names, Bool.and_eq_false_iff, decide_eq_false_iff_not] at hno
      omega

theorem spotBytes_other {data : Spot → List Byte} {count : Nat} {l : List Spot} {a : Nat} (h : ∀ x ∈ l, x.names a = false) :
    ∀ p ∈ spotBytes data count l, p.1 ≠ a := by
  intro p hp
  obtain ⟨y, hy, hp⟩ := List.mem_flatMap.1 hp
  obtain ⟨i, hi, rfl⟩ := List.mem_map.1 hp
  have hi := List.mem_range.1 hi
  have hno := h y hy
  intro (e : y.key + i = a)
  simp only [Spot.names, Bool.and_eq_false_iff, decide_eq_false_iff_not] at hno
  omega

theorem atomsIn_spotBytes (data : Spot → List Byte) (count : Nat) (l : List Spot) :
    atomsIn (spotBytes data count l) = (l.flatMap fun x => (List.range x.n).map fun k => (x.key + k) / 32).foldl (fun a b => sins b a) [] := by
  have h : (l.flatMap fun x => (List.range x.n).map fun k => (x.key + k) / 32) = (spotBytes data count l).map fun p => p.1 / 32 := by
    simp [spotBytes, sbBytes, List.map_flatMap, Function.comp_def]
  rw [h, List.foldl_map]
  rfl

theorem writeSpots_bank {data : Spot → List Byte} {l : List Spot} (cnt : Nat) (h : ∀ x ∈ l, buffered c.task x.key = false) :
    writeSpots c cnt data l s = banked c cnt data l s := by
  have h1 : l.filter (fun x => buffered c.task x.key) = [] := List.filter_eq_nil_iff.2 fun x hx => by simp [h x hx]
  have h2 : l.filter (fun x => !buffered c.task x.key) = l := List.filter_eq_self.2 fun x hx => by simp [h x hx]
  simp only [writeSpots, h1, h2, if_true]
  rfl

theorem writeSpots_buffer {data : Spot → List Byte} {l : List Spot} (cnt : Nat) (h : ∀ x ∈ l, buffered c.task x.key = true) :
    writeSpots c cnt data l s = if l = [] then s
      else s.buffer c.ref.gid (some (c.ref.wid, c.warp.kinOf c.split.held)) (spotBytes data (cnt % 256) l) := by
  have h1 : l.filter (fun x => buffered c.task x.key) = l := List.filter_eq_self.2 h
  have h2 : l.filter (fun x => !buffered c.task x.key) = [] := List.filter_eq_nil_iff.2 fun x hx => by simp [h x hx]
  simp only [writeSpots, h1, h2]
  rfl

/-- The store as an outstanding operation. -/
def storePend (c : Issuer) (f : MFmt) (l : List Spot) (s : State) : Pend :=
  { id := 0, kind := .store f.space.toNat, ent := 0, lanes := 0,
    due := s.cycle + (if mLanes c.env f = [] then 6 else if f.space.toNat < 3 then delayOf f.space.toNat l else 1) }

theorem st_next {l : List Spot} (h : MayIssue (.st f) c s) (hl : pieces (.st f) f .write c s = .ok l) : exec (.st f) s =
    .next ((writeSpots c (cntOf c.warp c.grp) (stData c.env f) l (issued (.st f) c s)).addPend c (.st f)
      (storePend c f l (issued (.st f) c s))) := by
  have heff : stEff f c (issued (.st f) c s) = .ok ((writeSpots c (cntOf c.warp c.grp) (stData c.env f) l (issued (.st f) c s)).addPend c (.st f)
      (storePend c f l (issued (.st f) c s))) := by
    unfold stEff
    rw [show (issued (.st f) c s).access c (mAcc f .write) (mAddrs c.env f) = .ok l from hl]
    rfl
  rw [st_effect h, heff]

end Sys2Proof.Laws
end

section
namespace Sys2Proof.Laws

open Sys2Proof.Machine

/-- Settles O11: stores of pieces one after another, in their bank or into the store buffer. -/
theorem storesBufferOrWrite : Obligations.StoresBufferOrWrite := by
  refine ⟨fun f c s l h hwf hsp hred hl => ?scratch, fun f c s l h hsp hred hl hkeys => ?memory⟩
  case scratch =>
    have he : (c.profile (.st f)).head.ends = false := by rw [profile_head]; rfl
    have hbank := st_banked h hsp hl
    have hbuf : ∀ x ∈ l, buffered c.task x.key = false := by
      intro x hx
      have : 4 ≤ keyRegion x.key := (Nat.le_div_iff_mul_le region_pos).2 (hbank.upper x hx)
      simp [buffered, hred]
      omega
    obtain ⟨w, hw, hrest, -, -⟩ := issued_own h.issuer he
    obtain ⟨hmem, hcycle, hwarp⟩ := banked_rest (c := c) hbank (cntOf c.warp c.grp) (issued (.st f) c s)
    obtain ⟨v, hv, hquiet⟩ := rel_some (hwarp _ _) hw
    have hnext := st_next h hl
    rw [writeSpots_bank _ hbuf] at hnext
    set t := banked c (cntOf c.warp c.grp) (stData c.env f) l (issued (.st f) c s)
    rw [issued_mem] at hmem
    refine ⟨_, _, hnext, ⟨{ v with pend := v.pend ++ [pendOf t c (.st f) (storePend c f l (issued (.st f) c s))] }, ?_,
      List.mem_append_right _ List.mem_cons_self, ?_, ?_, ?_⟩, rfl, ?_, ?_, fun a ha => ?_, fun x hx h4 w hw hholds => ?_, fun pre x post hpost k hk hholds => ?_⟩
    · rw [addPend_eq, modWarp_self]
      exact congrArg (Option.map _) hv
    · show v.vregs = _; rw [hquiet.rest, hrest]
    · show v.sregs = _; rw [hquiet.rest, hrest]
    · show v.preds = _; rw [hquiet.rest, hrest]
    · show (issued (.st f) c s).cycle + _ = _
      rw [issued_cycle]
      congr 1
      split
      · rename_i hno
        have hnil : l = [] := by
          have haddrs : mAddrs c.env f = [] := by rw [mAddrs, hno]; rfl
          rw [pieces, haddrs, access_nil] at hl
          exact (Except.ok.inj hl).symm
        rw [hnil]; rfl
      · rfl
    · show postFlag (c.profile (.st f)).head.post = _
      rw [profile_head]; rfl
    · rw [addPend_mem, hmem]
      exact hbank.foldl_other ha _
    · rw [State.isValid, addPend_mem, hmem, hbank.foldl_valid hx h4 hw hholds hwf]
      rfl
    · rw [addPend_mem, hmem, hpost]
      rw [hpost] at hbank
      rw [hbank.foldl_last hk hholds hwf, getD_stData _ _ hk]
  case memory =>
    have he : (c.profile (.st f)).head.ends = false := by rw [profile_head]; rfl
    have hbuf : ∀ x ∈ l, buffered c.task x.key = true := fun x hx => by simp [buffered, hkeys x hx]
    obtain ⟨-, hg, -, -, -⟩ := issuer_some h.issuer
    have hg : (issued (.st f) c s).group? c.ref.gid = some c.grp := by rw [issued_group]; exact hg
    have hnext := st_next h hl
    rw [writeSpots_buffer _ hbuf] at hnext
    have hord : Ordered c (issued (.st f) c s) (if l = [] then issued (.st f) c s else (issued (.st f) c s).buffer c.ref.gid
        (some (c.ref.wid, c.warp.kinOf c.split.held)) (spotBytes (stData c.env f) (cntOf c.warp c.grp % 256) l)) := by
      split
      · exact .refl _ _
      · exact .buffer ..
    obtain ⟨hown, hothers⟩ := ordered_addPend (q := storePend c f l (issued (.st f) c s)) h.issuer he hord rfl
    obtain ⟨g, hg', hlast, hother⟩ := buffer_group hg (some (c.ref.wid, c.warp.kinOf c.split.held))
      (spotBytes (stData c.env f) (cntOf c.warp c.grp % 256) l)
    obtain ⟨g', hgroup, hgg⟩ : ∃ g', (if l = [] then issued (.st f) c s else (issued (.st f) c s).buffer c.ref.gid
        (some (c.ref.wid, c.warp.kinOf c.split.held)) (spotBytes (stData c.env f) (cntOf c.warp c.grp % 256) l)).group? c.ref.gid = some g' ∧
        ((l = [] ∧ g' = c.grp) ∨ g' = g) := by
      split
      · rename_i hnil; exact ⟨_, hg, .inl ⟨hnil, rfl⟩⟩
      · exact ⟨_, hg', .inr rfl⟩
    refine ⟨_, _, g', hnext, hown, hothers, ?_, rfl, ?_, by rw [addPend_group]; exact hgroup, fun pre x post hpost k hk hnames => ?_, fun a ha => ?_⟩
    · rw [addPend_mem, hord.mem, issued_mem]
    · show (issued (.st f) c s).cycle + _ = _
      rw [issued_cycle, if_neg (show ¬ f.space.toNat < 3 by omega)]
    · obtain ⟨hnil, -⟩ | rfl := hgg
      · rw [hnil] at hpost
        simp at hpost
      · intro v
        obtain ⟨hfew, hmany⟩ := hlast _ _ (hpost ▸ lastAt_spotBytes (stData c.env f) (cntOf c.warp c.grp % 256) hk hnames)
        have hval : (stData c.env f x).getD k 0 = v := getD_stData _ _ hk
        refine ⟨fun hle => ?_, fun hmember => ?_⟩
        · rw [hfew (by rwa [atomsIn_spotBytes])]
          exact congrArg some hval
        · rcases hmany hmember with hb | ⟨e, he, hb⟩
          · exact .inl (by rw [hb]; exact congrArg some hval)
          · exact .inr ⟨e, he, by rw [hb]; exact congrArg some hval⟩
    · obtain ⟨-, rfl⟩ | rfl := hgg
      · exact .inl rfl
      · exact hother a (spotBytes_other ha)

end Sys2Proof.Laws
end

section
/-! SUPPORT. WAITQ, WAKE, QPUSH, QPOP and QPOPW (R160 to R163): their effect by the mode of the task and the space, and what those on memory
ask of their place. -/

namespace Sys2Proof.Laws

open Sys2Proof.Machine

variable {i : Instr} {c : Issuer} {s t u : State} {f : AFmt} {k : Fin 5} {x : Spot} {l : List Spot}

/-! ## The five rows -/

/-- WAKE and QPUSH are releases. -/
def waitRel (k : Fin 5) : Bool := k = 1 || k = 2

theorem wait_effect (h : MayIssue (waitRow k f) c s) : exec (waitRow k f) s =
    match waitEff (waitRow k f) f (waitOp k f c) (waitBytes k f) (waitBytes k f) (waitRel k) c (issued (waitRow k f) c s) with
    | .ok t => .next t
    | .error e => .next (raise s c.ref e) := by
  match k with
  | 0 => exact issue_effect (ck := fun c => ckWait c.env f true true 1) (eff := fun c t => waitEff (.waitq f) f (waitOp 0 f c) (waitBytes 0 f)
      (waitBytes 0 f) false c t) h rfl rfl
  | 1 => exact issue_effect (ck := fun c => ckWait c.env f true false 1) (eff := fun c t => waitEff (.wake f) f (waitOp 1 f c) 4 4 true c t) h rfl rfl
  | 2 => exact issue_effect (ck := fun c => ckWait c.env f true false 1) (eff := fun c t => waitEff (.qpush f) f (waitOp 2 f c) 16 16 true c t) h rfl rfl
  | 3 => exact issue_effect (ck := fun c => ckWait c.env f false false 2) (eff := fun c t => waitEff (.qpop f) f .qpop 16 16 false c t) h rfl rfl
  | 4 => exact issue_effect (ck := fun c => ckWait c.env f false false 2) (eff := fun c t => waitEff (.qpopw f) f .qpopw 16 16 false c t) h rfl rfl

theorem wait_profile (k : Fin 5) (f : AFmt) (c : Issuer) : (c.profile (waitRow k f)).head.ends = false ∧
    (c.profile (waitRow k f)).head.post = f.post := by
  rw [profile_head]
  match k with
  | 0 | 1 | 2 | 3 | 4 => exact ⟨rfl, rfl⟩

/-! ## The modes that refuse -/

section modes
variable {op : SyncOp} {n align : Nat} {rel : Bool}

theorem waitEff_determ (h : c.task.determ = true) : waitEff i f op n align rel c u = .error (c.precise 0x0D 0) := by
  simp [waitEff, h]

theorem waitEff_redundant (h : c.task.determ = false) (hr : c.task.redundant = true) :
    waitEff i f op n align rel c u = .error (c.precise 0x09 (scaAddr c.env f.addr f.space.toNat)) := by
  simp [waitEff, h, hr]

end modes

/-! ## What the instruction asks of its place -/

/-- The state where the release has been made, if the instruction is one. -/
def waitReleased (k : Fin 5) (f : AFmt) (c : Issuer) (s : State) : State := if waitRel k then releaseBy c (some (widest f.space.toNat)) s else s

def waitReq (k : Fin 5) (f : AFmt) (c : Issuer) (x : Spot) (s : State) : SyncReq :=
  { op := waitOp k f c, addr := x.key, va := scaAddr c.env f.addr f.space.toNat, reg := dIdx f.dst,
    count := cntOf (((waitReleased k f c s).warp? c.ref.gid c.ref.wid).getD c.warp) (((waitReleased k f c s).group? c.ref.gid).getD c.grp),
    ring := waitReads (waitOp k f c) (waitBytes k f) x c s }

theorem waitReleased_ordered (k : Fin 5) (f : AFmt) (c : Issuer) (s : State) : Ordered c s (waitReleased k f c s) := by
  unfold waitReleased
  split
  · exact .releaseBy _
  · exact .refl c s

theorem waitReleased_group {g : Group} (hg : s.group? c.ref.gid = some g) (k : Fin 5) (f : AFmt) :
    ∃ h, (waitReleased k f c s).group? c.ref.gid = some h := by
  unfold waitReleased
  split
  · exact ⟨_, releaseBy_group hg _⟩
  · exact ⟨g, hg⟩

/-- The waiting operation. -/
def waitPend (x : Spot) : Pend := { id := 0, kind := .waiter x.unit x.key, ent := 0, lanes := 0 }

/-- The bytes that go ahead are no longer buffered. -/
theorem drainFirst_group {g : Group} (hg : s.group? c.ref.gid = some g) (cid : Nat) (meet : Nat × SbByte → Bool) :
    (s.drainFirst c cid meet).group? c.ref.gid = some { g with
      sbuf := g.sbuf.filter fun b => !meet b,
      draining := g.draining ++ drainEntries g c.ref.gid cid (some (c.ref.wid, c.warp.kinOf c.split.held)) (g.sbuf.filter meet) } := by
  have hsame : ∀ b : Bool, (if b then s.expose c.grp else s).group? c.ref.gid = some g := by
    intro b; cases b <;> exact hg
  unfold State.drainFirst
  rw [modGroup_self, hsame]
  rfl

/-! ## On memory -/

/-- The state in which what must go ahead has gone (R225), and the commit's number. -/
def waitAhead (k : Fin 5) (f : AFmt) (c : Issuer) (x : Spot) (s : State) : State × Nat :=
  waitCommit (waitRel k) (waitReq k f c x s).ring x c (waitReleased k f c s)

/-- The request, as it is made. -/
def waitSent (k : Fin 5) (f : AFmt) (c : Issuer) (x : Spot) (s : State) : Req :=
  { gid := c.ref.gid, wid := c.ref.wid, pid := (waitAhead k f c x s).1.fresh, sync := some (waitReq k f c x s),
    after := some (waitAhead k f c x s).2, part := c.task.part }

/-- The state in which it has been made. -/
def waitAsked (k : Fin 5) (f : AFmt) (c : Issuer) (x : Spot) (s : State) : State :=
  ((waitAhead k f c x s).1.addPend c (waitRow k f) (waitPend x)).request x.unit (waitSent k f c x s)

theorem waitEff_mem (hd : c.task.determ = false) (hr : c.task.redundant = false) (hsp : f.space = 3)
    (hx : waitPiece k f c s = .ok (x :: l)) (hu : x.unit.kind = .glazier ∨ x.unit.kind = .peer) :
    waitEff (waitRow k f) f (waitOp k f c) (waitBytes k f) (waitBytes k f) (waitRel k) c (issued (waitRow k f) c s) =
      .ok (waitAsked k f c x (issued (waitRow k f) c s)) := by
  have hkind : (x.unit.kind != .glazier && x.unit.kind != .peer) = false := by
    rcases hu with h | h <;> rw [h] <;> rfl
  unfold waitPiece at hx
  have h3 : f.space.toNat = 3 := by rw [hsp]; rfl
  rw [h3] at hx
  unfold waitEff
  simp only [hd, hr, h3, hx, hkind, Bool.false_eq_true, if_false, if_true, decide_true, Bool.true_and]
  unfold waitAsked waitSent waitAhead waitReq waitReleased
  simp only [h3]
  rfl

theorem waitAhead_ordered (k : Fin 5) (f : AFmt) (c : Issuer) (x : Spot) (s : State) : Ordered c s (waitAhead k f c x s).1 := by
  refine (waitReleased_ordered k f c s).trans ?_
  unfold waitAhead waitCommit
  split
  · exact .commitFor _
  · exact Ordered.trans (t := (waitReleased k f c s).newId.2) (.ofWarps rfl (Nat.le_succ _) rfl rfl rfl)
      (.drainFirst _ fun b => decide (x.va ≤ b.2.va) && decide (b.2.va < x.va + (waitReq k f c x s).ring))

/-- What the group still buffers when the request is made. -/
theorem waitAhead_group {g : Group} (hg : s.group? c.ref.gid = some g) : ∃ h, (waitAhead k f c x s).1.group? c.ref.gid = some h ∧
    (k = 1 ∨ k = 2 → h.sbuf = []) ∧ ∀ b ∈ h.sbuf, b.2.va < x.va ∨ x.va + (waitReq k f c x s).ring ≤ b.2.va := by
  obtain ⟨g1, hg1⟩ := waitReleased_group hg k f
  unfold waitAhead waitCommit
  cases hrel : waitRel k with
  | true =>
    obtain ⟨h, hh, -, hsbuf⟩ := commitFor_group true hg1
    exact ⟨h, hh, fun _ => hsbuf rfl, fun b hb => by rw [hsbuf rfl] at hb; cases hb⟩
  | false =>
    have hno : ¬ (k = 1 ∨ k = 2) := by simpa [waitRel] using hrel
    refine ⟨_, drainFirst_group (s := (waitReleased k f c s).newId.2) hg1 _ _, fun h => absurd h hno, fun b hb => ?_⟩
    have hb := (List.mem_filter.1 hb).2
    simp only [Bool.not_and, Bool.or_eq_true, Bool.not_eq_true', decide_eq_false_iff_not] at hb
    omega

theorem waitBytes_le_ring (k : Fin 5) (f : AFmt) (c : Issuer) (x : Spot) (s : State) : waitBytes k f ≤ (waitReq k f c x s).ring := by
  match k with
  | 0 | 1 | 2 => exact le_rfl
  | 3 | 4 => exact Nat.le_add_right ..

theorem request_group (s : State) (v : UnitRef) (r : Req) (k : Nat) : (s.request v r).group? k = s.group? k := rfl

end Sys2Proof.Laws
end

section
namespace Sys2Proof.Laws

open Sys2Proof.Machine

/-- Settles O19: the modes of the task refuse first; then the request follows what must go ahead of it. -/
theorem waitsAndQueuesOnMemory : Obligations.WaitsAndQueuesOnMemory := by
  intro k f c s h ea
  refine ⟨fun hd => ?determ, fun hd hr => ?redundant, fun hd hr hsp x l hx hu => ?memory⟩
  case determ =>
    rw [wait_effect h, waitEff_determ hd]
    rfl
  case redundant =>
    rw [wait_effect h, waitEff_redundant hd hr]
    rfl
  case memory =>
    obtain ⟨he, -⟩ := wait_profile k f c
    have hg : (issued (waitRow k f) c s).group? c.ref.gid = some c.grp := by rw [issued_group]; exact (issuer_some h.issuer).2.1
    have hord := waitAhead_ordered k f c x (issued (waitRow k f) c s)
    obtain ⟨hown, hothers⟩ := ordered_addPend (q := waitPend x) (t := waitAsked k f c x (issued (waitRow k f) c s)) h.issuer he hord rfl
    obtain ⟨g, hgroup, hempty, hapart⟩ := waitAhead_group (k := k) (f := f) (x := x) hg
    have hplace : ∀ v, (issued (waitRow k f) c s).place v = s.place v := fun v => by rw [State.place, State.place, issued_rest he]
    have hnext := wait_effect h
    rw [waitEff_mem hd hr hsp hx hu] at hnext
    obtain ⟨a, hqueue⟩ : ∃ a, ((waitAsked k f c x (issued (waitRow k f) c s)).place x.unit).queue =
        (s.place x.unit).queue ++ [{ waitSent k f c x (issued (waitRow k f) c s) with arrived := a }] := by
      rw [← hplace, ← hord.place]
      exact ⟨_, (request_queue ..).trans (if_pos rfl)⟩
    refine ⟨_, _, _, hnext, hown, hothers, ?_, rfl, hqueue, rfl, rfl, rfl,
      Option.some_ne_none _, _, rfl, rfl, rfl, rfl, rfl, waitBytes_le_ring .., fun hk => ?_, g, ?_, hempty, hapart⟩
    · rw [waitAsked, request_mem, addPend_mem, hord.mem, issued_mem]
    · have hread : (waitReq k f c x (issued (waitRow k f) c s)).ring =
          16 + 4 * fieldNat ((issued (waitRow k f) c s).scratchBytes (((issued (waitRow k f) c s).group? c.ref.gid).getD c.grp) x).bytes 8 4 := by
        rcases hk with rfl | rfl <;> rfl
      rw [hread, hg, Option.getD_some, issued_rest he]
      rfl
    · rw [waitAsked, request_group, addPend_group, hgroup]

end Sys2Proof.Laws
end

section
/-! SUPPORT. Waits and queues in a shop or yard (R160 to R163): the state in which the place acts, what completes an operation, and each of the
five operations at its place. -/

namespace Sys2Proof.Laws

open Sys2Proof.Machine

variable {c : Issuer} {s t u : State} {f : AFmt} {k : Fin 5} {x : Spot} {l : List Spot}

/-! ## Operations of warps -/

/-- The first operation of a warp with a number. -/
def Shows (s : State) (gid wid pid : Nat) (p : Pend) : Prop := ∃ v, s.warp? gid wid = some v ∧ v.pend? pid = some p

/-- An operation whose instruction has acted. -/
def answered (due : Nat) (ws : List RegWrite) (q : Pend) : Pend := { q with kind := .long, due := due, writes := ws, hold := none }

/-- The operations with a number are changed. -/
def changed (pid : Nat) (g : Pend → Pend) (w : Warp) : Warp := { w with pend := w.pend.map fun q => if q.id = pid then g q else q }

theorem modPend_eq (s : State) (gid wid pid : Nat) (g : Pend → Pend) : s.modPend gid wid pid g = s.modWarp gid wid (changed pid g) := rfl

theorem pend?_changed (pid : Nat) {g : Pend → Pend} (hg : ∀ q, (g q).id = q.id) (w : Warp) (pid' : Nat) :
    (changed pid g w).pend? pid' = (w.pend? pid').map fun q => if pid' = pid then g q else q := by
  unfold Warp.pend? changed
  induction w.pend with
  | nil => rfl
  | cons q l ih =>
    have hid : (if q.id = pid then g q else q).id = q.id := by split <;> simp [hg]
    rw [List.map_cons, List.find?_cons, List.find?_cons, hid]
    by_cases h : q.id = pid'
    · subst h; simp
    · simp only [h, decide_false]
      exact ih

section shows
variable {gid wid gid' wid' pid pid' due : Nat} {ws : List RegWrite} {p q : Pend}

theorem Shows.of_warps (h : Shows s gid wid pid p) (hw : t.warps = s.warps) : Shows t gid wid pid p := by
  unfold Shows State.warp? at h ⊢
  rwa [hw]

theorem Shows.modPend (h : Shows s gid wid pid p) (gid' wid' pid' : Nat) {g : Pend → Pend} (hg : ∀ q, (g q).id = q.id) :
    Shows (s.modPend gid' wid' pid' g) gid wid pid (if gid * 32 + wid = gid' * 32 + wid' ∧ pid = pid' then g p else p) := by
  obtain ⟨v, hv, hp⟩ := h
  rw [modPend_eq]
  by_cases hkey : gid * 32 + wid = gid' * 32 + wid'
  · refine ⟨changed pid' g v, ?_, ?_⟩
    · unfold State.warp? State.modWarp at *
      rw [hkey, flook_fmod_self, ← hkey, hv]
      rfl
    · rw [pend?_changed pid' hg, hp, Option.map_some]
      simp only [hkey, true_and]
  · exact ⟨v, (modWarp_ne _ hkey _).trans hv, by simp only [hkey, false_and, if_false]; exact hp⟩

theorem outstanding_of_warps (h : Outstanding c s q) (hw : t.warps = s.warps) : Outstanding c t q := by
  unfold Outstanding State.warp? at h ⊢
  rwa [hw]

theorem outstanding_modPend (h : Outstanding c s q) (gid' wid' pid' : Nat) (g : Pend → Pend) :
    Outstanding c (s.modPend gid' wid' pid' g) (if c.ref.gid * 32 + c.ref.wid = gid' * 32 + wid' ∧ q.id = pid' then g q else q) := by
  obtain ⟨w, hw, hq, hv, hs, hp⟩ := h
  rw [modPend_eq]
  by_cases hkey : c.ref.gid * 32 + c.ref.wid = gid' * 32 + wid'
  · refine ⟨changed pid' g w, ?_, ?_, hv, hs, hp⟩
    · unfold State.warp? State.modWarp at *
      rw [hkey, flook_fmod_self, ← hkey, hw]
      rfl
    · simp only [hkey, true_and]
      exact List.mem_map.2 ⟨q, hq, rfl⟩
  · exact ⟨w, (modWarp_ne _ hkey _).trans hw, by simpa only [hkey, false_and, if_false] using hq, hv, hs, hp⟩

/-- The issuing split's own operation is answered. -/
theorem outstanding_answer (h : Outstanding c s q) (due : Nat) (ws : List RegWrite) :
    Outstanding c (s.answer c.ref.gid c.ref.wid q.id due ws) (answered due ws q) := by
  have h' := outstanding_modPend h c.ref.gid c.ref.wid q.id (answered due ws)
  rwa [if_pos ⟨rfl, rfl⟩] at h'

/-- An acquire changes of warps only their synchronised-with tables. -/
theorem acquire_warp (s : State) (gid wid pid : Nat) (lanes : Mask) (es : List SyncEntry) (gid' wid' : Nat) :
    Option.Rel (fun w v : Warp => v = { w with sync := v.sync }) (s.warp? gid' wid') ((s.acquire gid wid pid lanes es).warp? gid' wid') := by
  have hrefl : ∀ o : Option Warp, Option.Rel (fun w v : Warp => v = { w with sync := v.sync }) o o := rel_refl fun _ => rfl
  unfold State.acquire
  induction es generalizing s with
  | nil => exact hrefl _
  | cons e es ih =>
    rw [List.foldl_cons]
    refine rel_trans (fun h k => k.trans (by rw [h])) ?_ (ih _)
    split
    · split
      · exact hrefl _
      · split
        · rename_i v _
          exact rel_flook_fmod (P := fun w v : Warp => v = { w with sync := v.sync }) (f := fun w => { w with sync := v }) (fun _ => rfl) (fun _ => rfl) _ _ _
        · have hw := (Noted.defer (s := s) gid wid pid lanes
            (i := { cause := 0x0E, tval := BitVec.ofNat 64 (e.writer + if e.bench then 65536 else 0) }) rfl none).warps
          rw [State.warp?, State.warp?, hw]
          exact hrefl _
    · exact hrefl _

theorem Shows.acquire (h : Shows s gid wid pid p) (gid' wid' pid' : Nat) (lanes : Mask) (es : List SyncEntry) :
    Shows (s.acquire gid' wid' pid' lanes es) gid wid pid p := by
  obtain ⟨v, hv, hp⟩ := h
  obtain ⟨v', hv', hs⟩ := rel_some (acquire_warp s gid' wid' pid' lanes es gid wid) hv
  exact ⟨v', hv', by rw [hs]; exact hp⟩

theorem outstanding_acquire (h : Outstanding c s q) (gid' wid' pid' : Nat) (lanes : Mask) (es : List SyncEntry) :
    Outstanding c (s.acquire gid' wid' pid' lanes es) q := by
  obtain ⟨w, hw, hq, hv, hs, hp⟩ := h
  obtain ⟨w', hw', hsync⟩ := rel_some (acquire_warp s gid' wid' pid' lanes es c.ref.gid c.ref.wid) hw
  exact ⟨w', hw', by rw [hsync]; exact ⟨hq, hv, hs, hp⟩⟩

end shows

/-! ## What waits and answers leave alone -/

/-- Of the state only warps, deferred traps, records and what the release, the number and the exposure of a waiting instruction touch have
changed. -/
structure Awaiting (s t : State) : Prop where
  rest : t = { s with warps := t.warps, groups := t.groups, crews := t.crews, cores := t.cores, fresh := t.fresh, lastRast := t.lastRast }

namespace Awaiting

theorem refl (s : State) : Awaiting s s := ⟨rfl⟩
theorem trans (h : Awaiting s t) (k : Awaiting t u) : Awaiting s u := ⟨k.rest.trans (by rw [h.rest])⟩

theorem mem (h : Awaiting s t) : t.mem = s.mem := by rw [h.rest]
theorem cycle (h : Awaiting s t) : t.cycle = s.cycle := by rw [h.rest]
theorem soft (h : Awaiting s t) : t.soft = s.soft := by rw [h.rest]
theorem poison (h : Awaiting s t) : t.poison = s.poison := by rw [h.rest]
theorem place (h : Awaiting s t) (v : UnitRef) : t.place v = s.place v := by rw [h.rest]; rfl
theorem found (h : Awaiting s t) (key va n : Nat) : t.found key va n = s.found key va n := by rw [h.rest]; rfl

theorem modWarp (gid wid : Nat) (g : Warp → Warp) : Awaiting s (s.modWarp gid wid g) := ⟨rfl⟩
theorem modPend (gid wid pid : Nat) (g : Pend → Pend) : Awaiting s (s.modPend gid wid pid g) := ⟨rfl⟩
theorem answer (gid wid pid due : Nat) (ws : List RegWrite) : Awaiting s (s.answer gid wid pid due ws) := ⟨rfl⟩
theorem expose (g : Group) : Awaiting s (s.expose g) := ⟨rfl⟩
theorem acquire (gid wid pid : Nat) (lanes : Mask) (es : List SyncEntry) : Awaiting s (s.acquire gid wid pid lanes es) :=
  by
  have h := (Quiet.acquire (s := s) gid wid pid lanes es).rest
  exact ⟨by rw [h]⟩

theorem release (gid wid n : Nat) : Awaiting s (s.release gid wid n) := by
  unfold State.release
  split
  · split <;> exact ⟨rfl⟩
  · split <;> exact ⟨rfl⟩

theorem releaseBy (n : Option Nat) : Awaiting s (releaseBy c n s) := by
  unfold Machine.releaseBy
  split
  · exact refl s
  · exact (release ..).trans ⟨rfl⟩

end Awaiting

/-! ## The place acts -/

/-- The state in which the place acts: the operation is outstanding, and all but WAITQ expose the crew (R343). -/
def waitStart (k : Fin 5) (f : AFmt) (c : Issuer) (x : Spot) (s : State) : State :=
  if waitOp k f c matches .waitq _ _ then (waitReleased k f c s).addPend c (waitRow k f) (waitPend x)
  else ((waitReleased k f c s).addPend c (waitRow k f) (waitPend x)).expose c.grp

/-- When what touches some bytes of the scratchpad completes (R210, R211). -/
def waitDue (f : AFmt) (s : State) (l : List (Nat × Nat)) : Nat := s.cycle + latencyOf f.space.toNat + conflicts f.space.toNat l - 1

/-- The bytes from the word on that the allocation holds. -/
def waitRoom (f : AFmt) (c : Issuer) (x : Spot) (s : State) : Nat := (s.alloc c f.space.toNat).1 + (s.alloc c f.space.toNat).2.1 - x.key

/-- The instruction performed at its place. -/
def waitAct (k : Fin 5) (f : AFmt) (c : Issuer) (x : Spot) (s : State) : Except (Nat × Nat) State :=
  syncAt c.ref.gid c.ref.wid (waitReleased k f c s).fresh (waitDue f s) x.unit (waitReq k f c x s) (ringKey x.key (waitRoom f c x s)) (waitStart k f c x s)

theorem waitEff_scratch (hd : c.task.determ = false) (hr : c.task.redundant = false) (hsp : f.space = 1 ∨ f.space = 2)
    (hx : waitPiece k f c s = .ok (x :: l)) :
    waitEff (waitRow k f) f (waitOp k f c) (waitBytes k f) (waitBytes k f) (waitRel k) c (issued (waitRow k f) c s) =
      match waitAct k f c x (issued (waitRow k f) c s) with
      | .ok t => .ok t
      | .error (cause, a) => .error (c.precise cause a) := by
  unfold waitPiece at hx
  have h3 : ¬ f.space.toNat = 3 := by rcases hsp with h | h <;> rw [h] <;> decide
  unfold waitEff
  simp only [hd, hr, hx, h3, Bool.false_eq_true, if_false, decide_false, Bool.false_and]
  rfl

theorem wait_acts (h : MayIssue (waitRow k f) c s) (hd : c.task.determ = false) (hr : c.task.redundant = false)
    (hsp : f.space = 1 ∨ f.space = 2) (hx : waitPiece k f c s = .ok (x :: l)) {t : State}
    (ht : waitAct k f c x (issued (waitRow k f) c s) = .ok t) : exec (waitRow k f) s = .next t := by
  rw [wait_effect h, waitEff_scratch hd hr hsp hx, ht]

theorem wait_refuses (h : MayIssue (waitRow k f) c s) (hd : c.task.determ = false) (hr : c.task.redundant = false)
    (hsp : f.space = 1 ∨ f.space = 2) (hx : waitPiece k f c s = .ok (x :: l)) {cause a : Nat}
    (ht : waitAct k f c x (issued (waitRow k f) c s) = .error (cause, a)) : exec (waitRow k f) s = .next (raise s c.ref (c.precise cause a)) := by
  rw [wait_effect h, waitEff_scratch hd hr hsp hx, ht]

/-- The state before the place acts, as the instruction found it. -/
structure Ready (k : Fin 5) (f : AFmt) (c : Issuer) (x : Spot) (s u : State) : Prop extends Awaiting s u where
  op : ∃ q, Outstanding c u q ∧ q.id = (waitReleased k f c (issued (waitRow k f) c s)).fresh ∧ q.kind = .waiter x.unit x.key
  seen : ∃ q w, u.warp? c.ref.gid c.ref.wid = some w ∧ w.pend? (waitReleased k f c (issued (waitRow k f) c s)).fresh = some q
  group : ∃ g, u.group? c.ref.gid = some g
  fresh : s.fresh ≤ (waitReleased k f c (issued (waitRow k f) c s)).fresh
  shows : ∀ gid wid pid p, Shows s gid wid pid p → Shows u gid wid pid p

theorem shows_issued {i : Instr} (hi : s.issuer = some c) (he : (c.profile i).head.ends = false) {gid wid pid : Nat} {p : Pend}
    (h : Shows s gid wid pid p) : Shows (issued i c s) gid wid pid p := by
  obtain ⟨v, hv, hp⟩ := h
  by_cases hkey : gid * 32 + wid = c.ref.gid * 32 + c.ref.wid
  · obtain ⟨-, -, hw, -, -⟩ := issuer_some hi
    obtain ⟨w, hw', hrest, -, -⟩ := issued_own hi he
    unfold State.warp? at hv hw hw'
    rw [← hkey, hv] at hw
    obtain rfl := Option.some.inj hw
    refine ⟨w, by rw [State.warp?, hkey]; exact hw', ?_⟩
    rw [hrest]
    exact hp
  · exact ⟨v, (issued_others he hkey).trans hv, hp⟩

theorem Shows.ordered {gid wid pid : Nat} {p : Pend} (h : Shows s gid wid pid p) (ho : Ordered c s t) : Shows t gid wid pid p := by
  obtain ⟨v, hv, hp⟩ := h
  by_cases hkey : gid * 32 + wid = c.ref.gid * 32 + c.ref.wid
  · have hown : s.warp? c.ref.gid c.ref.wid = some v := by rw [State.warp?, ← hkey]; exact hv
    obtain ⟨v', hv', hc⟩ := rel_some ho.own hown
    refine ⟨v', by rw [State.warp?, hkey]; exact hv', ?_⟩
    rw [hc.rest]
    exact hp
  · exact ⟨v, (ho.others gid wid hkey).trans hv, hp⟩

theorem Shows.addPend {i : Instr} {gid wid pid : Nat} {p : Pend} (h : Shows s gid wid pid p) (q : Pend) :
    Shows (s.addPend c i q) gid wid pid p := by
  obtain ⟨v, hv, hp⟩ := h
  by_cases hkey : gid * 32 + wid = c.ref.gid * 32 + c.ref.wid
  · refine ⟨{ v with pend := v.pend ++ [pendOf s c i q] }, ?_, ?_⟩
    · rw [addPend_eq]
      unfold State.warp? State.modWarp at *
      rw [hkey, flook_fmod_self, ← hkey]
      exact congrArg (Option.map _) hv
    · unfold Warp.pend? at hp ⊢
      rw [List.find?_append, hp]
      rfl
  · exact ⟨v, by rw [addPend_eq, modWarp_ne _ hkey]; exact hv, hp⟩

theorem waitStart_ready (h : MayIssue (waitRow k f) c s) (x : Spot) : Ready k f c x s (waitStart k f c x (issued (waitRow k f) c s)) := by
  obtain ⟨he, -⟩ := wait_profile k f c
  have hg : (issued (waitRow k f) c s).group? c.ref.gid = some c.grp := by rw [issued_group]; exact (issuer_some h.issuer).2.1
  have hord := waitReleased_ordered k f c (issued (waitRow k f) c s)
  have hreleased : Awaiting s (waitReleased k f c (issued (waitRow k f) c s)) := by
    have hissued : Awaiting s (issued (waitRow k f) c s) := ⟨by rw [issued_rest he]⟩
    refine hissued.trans ?_
    unfold waitReleased
    split
    · exact .releaseBy _
    · exact .refl _
  obtain ⟨⟨⟨w, hw, hrest, -, -⟩, hid, -⟩, -⟩ := ordered_addPend (q := waitPend x) h.issuer he hord rfl
  obtain ⟨g, hgroup⟩ := waitReleased_group hg k f
  have hstart : ∀ P : State → Prop, P ((waitReleased k f c (issued (waitRow k f) c s)).addPend c (waitRow k f) (waitPend x)) →
      P (((waitReleased k f c (issued (waitRow k f) c s)).addPend c (waitRow k f) (waitPend x)).expose c.grp) →
      P (waitStart k f c x (issued (waitRow k f) c s)) := by
    intro P h1 h2
    unfold waitStart
    split
    exacts [h1, h2]
  have hpend : w.pend = c.warp.pend ++ [pendOf (waitReleased k f c (issued (waitRow k f) c s)) c (waitRow k f) (waitPend x)] := by rw [hrest]
  have hq : pendOf (waitReleased k f c (issued (waitRow k f) c s)) c (waitRow k f) (waitPend x) ∈ w.pend := by rw [hpend]; simp
  have hout : Outstanding c ((waitReleased k f c (issued (waitRow k f) c s)).addPend c (waitRow k f) (waitPend x))
      (pendOf (waitReleased k f c (issued (waitRow k f) c s)) c (waitRow k f) (waitPend x)) :=
    ⟨w, hw, hq, by rw [hrest], by rw [hrest], by rw [hrest]⟩
  obtain ⟨q0, hq0⟩ : ∃ q0, w.pend? (waitReleased k f c (issued (waitRow k f) c s)).fresh = some q0 := by
    rw [← Option.isSome_iff_exists, Warp.pend?, List.find?_isSome]
    exact ⟨_, hq, by simp [pendOf]⟩
  refine ⟨hstart (Awaiting s) (hreleased.trans ⟨rfl⟩) (hreleased.trans ⟨rfl⟩),
    ⟨_, hstart (fun t => Outstanding c t _) hout (outstanding_of_warps hout rfl), rfl, rfl⟩,
    ⟨q0, w, hstart (fun t => t.warp? c.ref.gid c.ref.wid = some w) hw hw, hq0⟩,
    ⟨g, hstart (fun t => t.group? c.ref.gid = some g) (by rw [addPend_group]; exact hgroup) (by rw [State.expose]; exact hgroup)⟩, hid,
    fun gid wid pid p hp => ?_⟩
  have hs := ((shows_issued h.issuer he hp).ordered hord).addPend (c := c) (i := waitRow k f) (waitPend x)
  exact hstart (fun t => Shows t gid wid pid p) hs (hs.of_warps rfl)

end Sys2Proof.Laws
end

section
/-! SUPPORT. What each waiting or queue instruction does at its place in a shop or yard (R160 to R163). -/

namespace Sys2Proof.Laws

open Sys2Proof.Machine

variable {c : Issuer} {s t u : State} {f : AFmt} {k : Fin 5} {x : Spot} {l : List Spot}

/-! ## Conflicts (R211) -/

/-- The word and the header of a queue lie in at most two beats, of different banks. -/
theorem conflicts_header {space : Nat} (h : space = 1 ∨ space = 2) (va : Nat) : conflicts space [(va, 16)] = 1 := by
  have hbeats : ∀ B N : Nat, 16 ≤ B → 2 ≤ N →
      (let beats := (upFrom (va / B) ((va + 16 - 1) / B - va / B + 1)).foldl (fun a b => sins b a) []
       max 1 ((beats.map fun b => (beats.filter fun q => q % N = b % N).length).foldl max 0)) = 1 := by
    intro B N hB hN
    have hspan : (va + 16 - 1) / B - va / B = 0 ∨ (va + 16 - 1) / B - va / B = 1 := by
      have hle : (va + 16 - 1) / B ≤ (va + B) / B := Nat.div_le_div_right (by omega)
      rw [Nat.add_div_right _ (by omega)] at hle
      omega
    have hne : (va / B + 1) % N ≠ va / B % N := by
      intro e
      have h := Nat.ModEq.add_left_cancel' (va / B) (show va / B + 1 ≡ va / B + 0 [MOD N] from e)
      have h1 : 1 % N = 0 % N := h
      rw [Nat.mod_eq_of_lt hN, Nat.zero_mod] at h1
      cases h1
    rcases hspan with h | h <;> rw [h] <;> simp [upFrom, List.range_succ, sins, hne, hne.symm]
  rcases h with rfl | rfl
  · exact hbeats 32 128 (by norm_num) (by norm_num)
  · exact hbeats 64 512 (by norm_num) (by norm_num)

theorem waitDue_header (hsp : f.space = 1 ∨ f.space = 2) (s : State) (va : Nat) :
    waitDue f s [(va, 16)] = s.cycle + latencyOf f.space.toNat := by
  have h : f.space.toNat = 1 ∨ f.space.toNat = 2 := by rcases hsp with h | h <;> rw [h] <;> decide
  rw [waitDue, conflicts_header h, Nat.add_sub_cancel]

/-! ## Waiters -/

theorem place_modPlace (s : State) (v : UnitRef) (g : Glazier → Glazier) : (s.modPlace v g).place v = g (s.place v) := by
  unfold State.modPlace State.setPlace State.place
  rw [flook_fput_self]; rfl

theorem correct_soft (h : s.soft = []) (key n : Nat) : s.correct key n = s := if_pos h

/-- What a woken split finds in its registers. -/
def wokenWrites (w : Waiter) (value status : Nat) : List RegWrite :=
  if w.queue then [.sca w.reg (BitVec.ofNat 32 value), .sca (w.reg + 1) (BitVec.ofNat 32 status)] else [.sca w.reg (BitVec.ofNat 32 status)]

section wake
variable (w : Waiter) (value status : Nat) (es : Group → List SyncEntry)

theorem wakeOne_awaiting (s : State) : Awaiting s (s.wakeOne w value status es) := (Awaiting.answer ..).trans (.acquire ..)

theorem wakeOne_outstanding {q : Pend} (h : Outstanding c s q) : ∃ r, Outstanding c (s.wakeOne w value status es) r ∧ r.id = q.id := by
  have h' := outstanding_modPend h w.gid w.wid w.pid (answered s.cycle (wokenWrites w value status))
  exact ⟨_, outstanding_acquire h' .., by split <;> rfl⟩

theorem wakeOne_shows {gid wid pid : Nat} {p : Pend} (h : Shows s gid wid pid p) : Shows (s.wakeOne w value status es) gid wid pid
    (if gid * 32 + wid = w.gid * 32 + w.wid ∧ pid = w.pid then answered s.cycle (wokenWrites w value status) p else p) :=
  (h.modPend w.gid w.wid w.pid (g := answered s.cycle (wokenWrites w value status)) fun _ => rfl).acquire ..

end wake

/-- The sleepers of a list, woken one after another. -/
def wakeAll (es : State → Group → List SyncEntry) (out : List Waiter) (s : State) : State := out.foldl (fun s w => s.wakeOne w 0 0 (es s)) s

section wakeAll
variable (es : State → Group → List SyncEntry) (out : List Waiter)

theorem wakeAll_awaiting (s : State) : Awaiting s (wakeAll es out s) := by
  induction out generalizing s with
  | nil => exact .refl s
  | cons w out ih => exact (wakeOne_awaiting ..).trans (ih _)

theorem wakeAll_outstanding {q : Pend} (h : Outstanding c s q) : ∃ r, Outstanding c (wakeAll es out s) r ∧ r.id = q.id := by
  induction out generalizing s q with
  | nil => exact ⟨q, h, rfl⟩
  | cons w out ih =>
    obtain ⟨r, hr, hid⟩ := wakeOne_outstanding w 0 0 (es s) h
    obtain ⟨r', hr', hid'⟩ := ih hr
    exact ⟨r', hr', hid'.trans hid⟩

/-- Its operation has been answered by the wake. -/
def WokenUp (s : State) (w : Waiter) : Prop :=
  ∃ p, Shows s w.gid w.wid w.pid p ∧ p.kind = .long ∧ p.due = s.cycle ∧ p.writes = wokenWrites w 0 0

/-- A sleeper whose operation no other one of the list names is answered. -/
theorem wakeAll_woken {w : Waiter} (huniq : ∀ y ∈ out, y.gid * 32 + y.wid = w.gid * 32 + w.wid → y.pid = w.pid → y = w)
    (h : WokenUp s w ∨ (w ∈ out ∧ ∃ p, Shows s w.gid w.wid w.pid p)) : WokenUp (wakeAll es out s) w := by
  induction out generalizing s with
  | nil => exact h.resolve_right (by simp)
  | cons y out ih =>
    refine ih (s := s.wakeOne y 0 0 (es s)) (fun z hz => huniq z (List.mem_cons_of_mem _ hz)) ?_
    have hcycle := (wakeOne_awaiting y 0 0 (es s) s).cycle
    by_cases hy : w.gid * 32 + w.wid = y.gid * 32 + y.wid ∧ w.pid = y.pid
    · obtain rfl := huniq y List.mem_cons_self hy.1.symm hy.2.symm
      obtain ⟨p, hp⟩ : ∃ p, Shows s y.gid y.wid y.pid p := by
        rcases h with ⟨p, hp, -⟩ | ⟨-, h⟩
        exacts [⟨p, hp⟩, h]
      have hs := wakeOne_shows y 0 0 (es s) hp
      rw [if_pos ⟨rfl, rfl⟩] at hs
      exact .inl ⟨_, hs, rfl, hcycle.symm, rfl⟩
    · rcases h with ⟨p, hp, hkind, hdue, hwrites⟩ | ⟨hw, p, hp⟩
      · have hs := wakeOne_shows y 0 0 (es s) hp
        rw [if_neg hy] at hs
        exact .inl ⟨p, hs, hkind, hdue.trans hcycle.symm, hwrites⟩
      · have hs := wakeOne_shows y 0 0 (es s) hp
        rw [if_neg hy] at hs
        refine .inr ⟨(List.mem_cons.1 hw).resolve_left fun e => hy (by rw [e]; exact ⟨rfl, rfl⟩), p, hs⟩

end wakeAll

/-! ## The operations at a place -/

/-- A poisoned byte that the operation read is delivered with it (R344). -/
def blamed (gid wid pid key : Nat) (bad : Option Nat) (s : State) : State :=
  match bad with
  | some a => s.modPend gid wid pid fun q => { q with bad := some (BitVec.ofNat 64 a), offs := decide (4 ≤ keyRegion key) }
  | none => s

/-- A split joins the list of the place. -/
def joined (v : UnitRef) (y : SyncReq) (gid wid pid : Nat) (queue : Bool) (s : State) : State :=
  s.modPlace v fun p => { p with waiters := p.waiters ++ [{ addr := y.addr, gid := gid, wid := wid, pid := pid, reg := y.reg, queue := queue }] }

section ops
variable {gid wid pid : Nat} {due : List (Nat × Nat) → Nat} {v : UnitRef} {y : SyncReq} {entry : Nat → Except Nat Nat} {g : Group} {q : Pend}
  (hg : s.group? gid = some g) (hq : (s.warp? gid wid).bind (·.pend? pid) = some q) (hsoft : s.soft = [])
include hg hq

theorem syncAt_waitq {size val : Nat} (hop : y.op = .waitq size val) (hsoft : s.soft = []) : syncAt gid wid pid due v y entry s =
    let f := s.found y.addr y.va size
    let s1 := blamed gid wid pid y.addr f.bad s
    if bytesNat f.bytes != val then
      .ok ((s1.answer gid wid pid (due [(y.va, 16)]) [.sca y.reg 1]).acquire gid wid pid q.lanes (s.stampEntry g y.addr))
    else if waitersFull v y.addr (s.place v).waiters then .ok (s1.answer gid wid pid (due [(y.va, 16)]) [.sca y.reg 2])
    else .ok (joined v y gid wid pid false s1) := by
  simp only [syncAt, hg, hq, hop, correct_soft hsoft]
  rfl

/-- The sleepers that a wake takes. -/
def wakeOut (n : Nat) (v : UnitRef) (addr : Nat) (s : State) : List Waiter :=
  let mine := (s.place v).waiters.filter fun w => w.addr = addr && !w.queue
  if n = 0 then mine else mine.take n

theorem syncAt_wake {n : Nat} (hop : y.op = .wake n) : syncAt gid wid pid due v y entry s =
    let out := wakeOut n v y.addr s
    .ok ((wakeAll (fun s h => s.stampEntry h y.addr) out
      (s.modPlace v fun p => { p with waiters := p.waiters.filter fun w => !out.contains w })).answer gid wid pid (due [(y.va, 16)])
        [.sca y.reg (BitVec.ofNat 32 out.length)]) := by
  simp only [syncAt, hg, hq, hop]
  rfl

end ops

/-! ## WAITQ and WAKE -/

theorem blamed_awaiting (gid wid pid key : Nat) (bad : Option Nat) (s : State) : Awaiting s (blamed gid wid pid key bad s) := by
  unfold blamed
  split
  · exact .modPend ..
  · exact .refl s

theorem blamed_outstanding {q : Pend} (h : Outstanding c s q) (gid wid pid key : Nat) (bad : Option Nat) :
    ∃ r, Outstanding c (blamed gid wid pid key bad s) r ∧ r.id = q.id ∧ r.kind = q.kind := by
  unfold blamed
  split
  · exact ⟨_, outstanding_modPend h .., by split <;> rfl, by split <;> rfl⟩
  · exact ⟨q, h, rfl, rfl⟩

section act
variable (h : MayIssue (waitRow k f) c s) (hd : c.task.determ = false) (hr : c.task.redundant = false)
  (hsp : f.space = 1 ∨ f.space = 2) (hx : waitPiece k f c s = .ok (x :: l))
include h hd hr hsp hx

/-- The state before the place acts; the instruction goes on with what the place does there. -/
theorem wait_ready : ∃ u pid g q p, Ready k f c x s u ∧ pid = (waitReleased k f c (issued (waitRow k f) c s)).fresh ∧
    u.group? c.ref.gid = some g ∧ (u.warp? c.ref.gid c.ref.wid).bind (·.pend? pid) = some q ∧
    Outstanding c u p ∧ p.id = pid ∧ p.kind = .waiter x.unit x.key ∧
    (∀ t, syncAt c.ref.gid c.ref.wid pid (waitDue f s) x.unit (waitReq k f c x (issued (waitRow k f) c s))
        (ringKey x.key (waitRoom f c x s)) u = .ok t → exec (waitRow k f) s = .next t) ∧
    ∀ cause a, syncAt c.ref.gid c.ref.wid pid (waitDue f s) x.unit (waitReq k f c x (issued (waitRow k f) c s))
        (ringKey x.key (waitRoom f c x s)) u = .error (cause, a) → exec (waitRow k f) s = .next (raise s c.ref (c.precise cause a)) := by
  have hready := waitStart_ready h x
  obtain ⟨p, hp, hid, hkind⟩ := hready.op
  obtain ⟨q, w, hw, hq⟩ := hready.seen
  obtain ⟨g, hg⟩ := hready.group
  have hdue : waitDue f (issued (waitRow k f) c s) = waitDue f s := by unfold waitDue; rw [issued_cycle]
  have hroom : waitRoom f c x (issued (waitRow k f) c s) = waitRoom f c x s := by
    rw [issued_rest (wait_profile k f c).1]; rfl
  refine ⟨_, _, g, q, p, hready, rfl, hg, by rw [hw]; exact hq, hp, hid, hkind, fun t ht => ?_, fun cause a ht => ?_⟩
  · exact wait_acts h hd hr hsp hx (by rw [waitAct, hdue, hroom]; exact ht)
  · exact wait_refuses h hd hr hsp hx (by rw [waitAct, hdue, hroom]; exact ht)

end act

end Sys2Proof.Laws
end

section
namespace Sys2Proof.Laws

open Sys2Proof.Machine

/-- Settles O20: the place compares, counts and wakes in the state where the instruction has issued and, for WAKE, released. -/
theorem waitAndWakeInScratchpads : Obligations.WaitAndWakeInScratchpads := by
  intro f c s x l hd hr hsp hsoft
  refine ⟨fun h hx => ?waitq, fun h hx => ?wake⟩
  case waitq =>
    intro val cur room
    obtain ⟨u, pid, g, q, p, hready, hpid, hg, hq, hp, hid, hkind, hnext, -⟩ := wait_ready (k := 0) h hd hr hsp hx
    have hfresh : s.fresh ≤ pid := hpid ▸ hready.fresh
    have hact := syncAt_waitq (due := waitDue f s) (v := x.unit) (entry := ringKey x.key (waitRoom f c x s)) hg hq
      (y := waitReq 0 f c x (issued (waitRow 0 f) c s)) rfl (hready.soft.trans hsoft)
    have hcur : bytesNat (u.found x.key (scaAddr c.env f.addr f.space.toNat) (2 ^ f.size.toNat)).bytes = cur := by rw [hready.toAwaiting.found]
    simp only [waitReq, waitDue_header hsp, hcur, hready.place] at hact
    set bad := (u.found x.key (scaAddr c.env f.addr f.space.toNat) (2 ^ f.size.toNat)).bad
    obtain ⟨r, hr1, hrid, hrkind⟩ := blamed_outstanding hp c.ref.gid c.ref.wid pid x.key bad
    have hblamed := hready.trans (blamed_awaiting c.ref.gid c.ref.wid pid x.key bad u)
    have hrpid : r.id = pid := hrid.trans hid
    by_cases hval : cur = val
    · have hne : (cur != (if f.size = 3 then c.env.src64 f.opb true 0 else (c.env.ssrc f.opb).toNat)) = false := by
        rw [bne_eq_false_iff_eq]; exact hval
      cases hroom : waitersFull x.unit x.key (s.place x.unit).waiters with
      | true =>
        rw [hne, if_neg Bool.false_ne_true, hroom, if_pos rfl] at hact
        refine ⟨_, _, hnext _ hact, hrpid ▸ outstanding_answer hr1 _ _, hrid ▸ hid ▸ hfresh, ?_, fun h => absurd hval h, fun _ h => ?_,
          fun _ _ => ⟨rfl, rfl⟩⟩
        · exact (Awaiting.answer ..).mem.trans hblamed.mem
        · exact absurd h (by simp [room, hroom])
      | false =>
        rw [hne, if_neg Bool.false_ne_true, hroom, if_neg Bool.false_ne_true] at hact
        refine ⟨_, r, hnext _ hact, outstanding_of_warps hr1 rfl, hrpid ▸ hfresh, hblamed.mem, fun h => absurd hval h,
          fun _ _ => ⟨hrkind.trans hkind, ?_⟩, fun _ h => absurd hroom h⟩
        rw [joined, place_modPlace, hblamed.place, hrpid]
    · have hne : (cur != (if f.size = 3 then c.env.src64 f.opb true 0 else (c.env.ssrc f.opb).toNat)) = true := by
        rw [bne_iff_ne]; exact hval
      rw [hne, if_pos rfl] at hact
      refine ⟨_, _, hnext _ hact, outstanding_acquire (hrpid ▸ outstanding_answer hr1 _ _) .., hrid ▸ hid ▸ hfresh, ?_, fun _ => ⟨rfl, rfl, rfl⟩,
        fun h => absurd h hval, fun h => absurd h hval⟩
      exact (Awaiting.acquire ..).mem.trans ((Awaiting.answer ..).mem.trans hblamed.mem)
  case wake =>
    intro n mine out
    obtain ⟨u, pid, g, q, p, hready, hpid, hg, hq, hp, hid, hkind, hnext, -⟩ := wait_ready (k := 1) h hd hr hsp hx
    have hfresh : s.fresh ≤ pid := hpid ▸ hready.fresh
    have hact := syncAt_wake (due := waitDue f s) (v := x.unit) (entry := ringKey x.key (waitRoom f c x s)) hg hq
      (y := waitReq 1 f c x (issued (waitRow 1 f) c s)) rfl
    have hout : wakeOut n x.unit x.key u = out := by simp only [wakeOut, hready.place]; rfl
    simp only [waitReq, waitDue_header hsp] at hact
    rw [show wakeOut (c.env.ssrc f.opb).toNat x.unit x.key u = out from hout] at hact
    set es : State → Group → List SyncEntry := fun s h => s.stampEntry h x.key
    set u1 := u.modPlace x.unit fun p => { p with waiters := p.waiters.filter fun w => !out.contains w }
    have hp1 : Outstanding c u1 p := outstanding_of_warps hp rfl
    obtain ⟨r, hr1, hrid⟩ := wakeAll_outstanding es out hp1
    have hwoken := wakeAll_awaiting es out u1
    have hrpid : r.id = pid := hrid.trans hid
    refine ⟨_, _, hnext _ hact, hrpid ▸ outstanding_answer hr1 _ _, hrid ▸ hid ▸ hfresh, ?_, rfl, rfl, rfl, ?_, fun w hw hold huniq v p' hv hp' => ?_⟩
    · exact (Awaiting.answer ..).mem.trans (hwoken.mem.trans hready.mem)
    · rw [(Awaiting.answer ..).place, hwoken.place, place_modPlace, hready.place]
    · have hs : Shows u1 w.gid w.wid w.pid p' := (hready.shows _ _ _ _ ⟨v, hv, hp'⟩).of_warps rfl
      obtain ⟨p2, hs2, hkind2, hdue2, hwrites2⟩ := wakeAll_woken es out huniq (.inr ⟨hw, p', hs⟩)
      have hs3 := hs2.modPend c.ref.gid c.ref.wid pid (g := answered (s.cycle + latencyOf f.space.toNat) [.sca (dIdx f.dst) (BitVec.ofNat 32 out.length)])
        fun _ => rfl
      rw [if_neg (by rintro ⟨-, e⟩; omega)] at hs3
      obtain ⟨v', hv', hp3⟩ := hs3
      refine ⟨v', p2, hv', hp3, hkind2, ?_, ?_⟩
      · rw [hdue2, hwoken.cycle]; exact hready.cycle
      · have hqueue : w.queue = false := by
          have hmine : w ∈ mine := by
            simp only [out] at hw
            split at hw
            · exact hw
            · exact List.mem_of_mem_take hw
          have := (List.mem_filter.1 hmine).2
          simp only [Bool.and_eq_true, Bool.not_eq_true'] at this
          exact this.2
        rw [hwrites2, wokenWrites, hqueue]
        rfl

end Sys2Proof.Laws
end

section
/-! SUPPORT. Queues in a shop or yard (R162, R163): the header as it stands in memory, a push and a pop at their place, and the words that they
write. -/

namespace Sys2Proof.Laws

open Sys2Proof.Machine

variable {c : Issuer} {s t u : State} {f : AFmt} {k : Fin 5} {x : Spot} {l : List Spot}

/-! ## Numbers in memory -/

theorem bytesNat_lt (bs : List Byte) : bytesNat bs < 256 ^ bs.length := by
  have h := bytesNat_natBytes bs.length (bytesNat bs)
  rw [natBytes_bytesNat] at h
  rw [h]
  exact Nat.mod_lt _ (by positivity)

theorem rdNat_lt (m : List Host.Cell) (a n : Nat) : rdNat m a n < 256 ^ n := by
  have h := bytesNat_lt (rdBytes m a n)
  rwa [length_rdBytes] at h

theorem rdNat_wrBytes_self {m : List Host.Cell} {a : Nat} (hwf : Memory.wf m = true) (ha : 2 * gangBase ≤ a) (n v : Nat) :
    rdNat (wrBytes m a (natBytes n v)) a n = v % 256 ^ n := by
  have h := rdBytes_wrBytes (bs := natBytes n v) hwf (.inr (.inl ha))
  rw [length_natBytes] at h
  rw [rdNat, h, bytesNat_natBytes]

theorem rdNat_wrBytes_apart {m : List Host.Cell} {a b n : Nat} {bs : List Byte} (ha : 2 * gangBase ≤ a) (hb : 2 * gangBase ≤ b)
    (h : a + n ≤ b ∨ b + bs.length ≤ a) : rdNat (wrBytes m b bs) a n = rdNat m a n := by
  refine congrArg bytesNat (List.map_congr_left fun i hi => ?_)
  have := List.mem_range.1 hi
  rw [cell_plain (by omega)]
  exact rdByte_wrBytes_apart (.inr hb) (by omega)

/-- What stands above HBM is found as memory holds it. -/
theorem found_upper (hp : s.poison = []) {key : Nat} (hkey : region ≤ key) (va n : Nat) : (s.found key va n).bytes = rdBytes s.mem key n := by
  refine List.map_congr_left fun i _ => ?_
  simp [deadAt_upper (s := s) (show region ≤ key + i by omega), hp]

/-- A store to a shop, a yard or above only puts its bytes. -/
theorem store_plain {core key : Nat} {bs : List Byte} {st : Option Stamp} (hkey : 5 * region ≤ key) (hbs : bs ≠ []) :
    s.store core key bs st = s.put key bs st := by
  have h5 : 5 ≤ keyRegion key := (Nat.le_div_iff_mul_le region_pos).2 hkey
  have hno : (s.put key bs st).targetsAt key bs.length = [] := by simp [State.targetsAt]; omega
  unfold State.store
  rw [if_neg hbs]
  simp only [deadIn_upper (s := s) (show region ≤ key by omega), List.foldl_nil, if_neg (show ¬ keyRegion key = 4 by omega), hno]

theorem natBytes_ne_nil (n v : Nat) : natBytes (n + 1) v ≠ [] := List.cons_ne_nil _ _

/-! ## The header -/

/-- The header of a queue is sound where its reserved field is zero and its capacity a power of two that R162 allows. -/
theorem headerOk_iff (bs : List Byte) : headerOk bs = true ↔ fieldNat bs 12 4 = 0 ∧ ∃ k ≤ 24, fieldNat bs 8 4 = 2 ^ k := by
  unfold headerOk
  extract_lets cap
  simp only [Bool.and_eq_true, decide_eq_true_eq, and_assoc]
  refine and_congr_right fun _ => ⟨fun ⟨hpos, hle, hpow⟩ => ⟨Nat.log2 cap, ?_, hpow.symm⟩, fun ⟨k, hk, e⟩ => ?_⟩
  · exact (Nat.pow_le_pow_iff_right (by norm_num)).1 (hpow.le.trans hle)
  · refine ⟨?_, ?_, ?_⟩ <;> rw [show cap = 2 ^ k from e]
    · exact Nat.one_le_two_pow
    · exact Nat.pow_le_pow_right (by norm_num) hk
    · rw [Nat.log2_two_pow]

/-- The entries of a queue, modulo 2^32 (R162). -/
theorem queue_count {head tail : Nat} (hh : head < 2 ^ 32) (ht : tail < 2 ^ 32) :
    (BitVec.ofNat 32 tail - BitVec.ofNat 32 head).toNat = (tail + 2 ^ 32 - head) % 2 ^ 32 := by
  rw [BitVec.toNat_sub, BitVec.toNat_ofNat, BitVec.toNat_ofNat, Nat.mod_eq_of_lt hh, Nat.mod_eq_of_lt ht]
  congr 1
  omega

/-! ## Push and pop -/

/-- The queue that a push or a pop finds. -/
def queueHead (s : State) (y : SyncReq) : Nat := fieldNat (s.found y.addr y.va 16).bytes 0 4
def queueTail (s : State) (y : SyncReq) : Nat := fieldNat (s.found y.addr y.va 16).bytes 4 4
def queueCap (s : State) (y : SyncReq) : Nat := fieldNat (s.found y.addr y.va 16).bytes 8 4
def queueCount (s : State) (y : SyncReq) : Nat := (queueTail s y + 2 ^ 32 - queueHead s y) % 2 ^ 32
def queueGood (s : State) (y : SyncReq) : Bool := headerOk (s.found y.addr y.va 16).bytes
def popWaiting (s : State) (v : UnitRef) (y : SyncReq) : Option Waiter := (s.place v).waiters.find? fun w => w.addr = y.addr && w.queue

section ops
variable {gid wid pid : Nat} {due : List (Nat × Nat) → Nat} {v : UnitRef} {y : SyncReq} {entry : Nat → Except Nat Nat} {g : Group} {q : Pend}
  (hg : s.group? gid = some g) (hq : (s.warp? gid wid).bind (·.pend? pid) = some q) (hsoft : s.soft = [])
include hg hq hsoft

section push
variable {val : Nat} (hop : y.op = .qpush val)
include hop

omit hsoft in
theorem push_bad (hgood : queueGood s y = false) : syncAt gid wid pid due v y entry s = .error (0x13, y.va) := by
  simp only [queueGood] at hgood
  simp only [syncAt, hg, hq, hop, hgood]
  rfl

theorem push_hands (hgood : queueGood s y = true) {w : Waiter} (hw : popWaiting s v y = some w) : ∃ es,
    syncAt gid wid pid due v y entry s = .ok (((s.modPlace v fun p => { p with waiters := p.waiters.filter (· != w) }).wakeOne w val 1 es).answer
      gid wid pid (due [(y.va, 16)]) [.sca y.reg 1]) := by
  simp only [queueGood] at hgood
  simp only [popWaiting] at hw
  simp only [syncAt, hg, hq, hop, hgood, hw, correct_soft hsoft]
  exact ⟨_, rfl⟩

theorem push_full (hgood : queueGood s y = true) (hw : popWaiting s v y = none) (hfull : queueCap s y ≤ queueCount s y) :
    syncAt gid wid pid due v y entry s = .ok (s.answer gid wid pid (due [(y.va, 16)]) [.sca y.reg 2]) := by
  simp only [queueGood] at hgood
  simp only [popWaiting] at hw
  simp only [queueCap, queueCount, queueHead, queueTail] at hfull
  simp only [syncAt, hg, hq, hop, hgood, hw, hfull, correct_soft hsoft]
  rfl

theorem push_enters (hgood : queueGood s y = true) (hw : popWaiting s v y = none) (hroom : queueCount s y < queueCap s y) {k : Nat}
    (hk : entry (16 + 4 * (queueTail s y % queueCap s y)) = .ok k) : ∃ d st1 st2, syncAt gid wid pid due v y entry s =
      .ok (((s.store g.core k (natBytes 4 val) st1).store g.core (y.addr + 4) (natBytes 4 ((queueTail s y + 1) % 2 ^ 32)) st2).answer
        gid wid pid d [.sca y.reg 0]) := by
  simp only [queueGood] at hgood
  simp only [popWaiting] at hw
  simp only [queueCap, queueTail] at hk
  simp only [queueCap, queueCount, queueHead, queueTail] at hroom
  simp only [syncAt, hg, hq, hop, hgood, hw, if_neg (not_le.2 hroom), hk, correct_soft hsoft]
  exact ⟨_, _, _, rfl⟩

end push

section pop
variable (hop : y.op = .qpop ∨ y.op = .qpopw)
include hop

omit hsoft in
theorem pop_bad (hgood : queueGood s y = false) : syncAt gid wid pid due v y entry s = .error (0x13, y.va) := by
  simp only [queueGood] at hgood
  rcases hop with hop | hop <;> simp only [syncAt, hg, hq, hop, hgood] <;> rfl

theorem pop_takes (hpoison : s.poison = []) (hgood : queueGood s y = true) (hsome : queueCount s y ≠ 0) {k : Nat}
    (hk : entry (16 + 4 * (queueHead s y % queueCap s y)) = .ok k) : ∃ d st es, syncAt gid wid pid due v y entry s =
      .ok (((s.store g.core y.addr (natBytes 4 ((queueHead s y + 1) % 2 ^ 32)) st).answer gid wid pid d
        [.sca y.reg (BitVec.ofNat 32 (bytesNat (s.found k (y.va + 16 + 4 * (queueHead s y % queueCap s y)) 4).bytes)),
          .sca (y.reg + 1) 0]).acquire gid wid pid q.lanes es) := by
  simp only [queueGood] at hgood
  simp only [queueCap, queueHead] at hk
  simp only [queueCount, queueHead, queueTail] at hsome
  rcases hop with hop | hop <;>
    simp only [syncAt, hg, hq, hop, hgood, if_neg hsome, hk, correct_soft hsoft, found_bad hpoison] <;>
    exact ⟨_, _, _, rfl⟩

theorem pop_empty (hgood : queueGood s y = true) (hnone : queueCount s y = 0) : syncAt gid wid pid due v y entry s =
    if y.op = .qpop then .ok ((s.answer gid wid pid (due [(y.va, 16)]) [.sca y.reg 0, .sca (y.reg + 1) 1]).acquire gid wid pid q.lanes [])
    else if waitersFull v y.addr (s.place v).waiters then .ok (s.answer gid wid pid (due [(y.va, 16)]) [.sca y.reg 0, .sca (y.reg + 1) 2])
    else .ok (joined v y gid wid pid true s) := by
  simp only [queueGood] at hgood
  simp only [queueCount, queueHead, queueTail] at hnone
  rcases hop with hop | hop <;> simp only [syncAt, hg, hq, hop, hgood, hnone, correct_soft hsoft] <;> rfl

end pop

end ops

/-! ## The header in memory -/

section header
variable {y : SyncReq} (hpoison : s.poison = []) (hkey : region ≤ y.addr)
include hpoison hkey

theorem header_field {o : Nat} (ho : o + 4 ≤ 16) : fieldNat (s.found y.addr y.va 16).bytes o 4 = rdNat s.mem (y.addr + o) 4 := by
  rw [found_upper hpoison hkey, rdNat_field ho]

theorem queueHead_eq : queueHead s y = rdNat s.mem y.addr 4 := header_field hpoison hkey (by norm_num)
theorem queueTail_eq : queueTail s y = rdNat s.mem (y.addr + 4) 4 := header_field hpoison hkey (by norm_num)
theorem queueCap_eq : queueCap s y = rdNat s.mem (y.addr + 8) 4 := header_field hpoison hkey (by norm_num)

theorem queueCount_eq : queueCount s y = (BitVec.ofNat 32 (rdNat s.mem (y.addr + 4) 4) - BitVec.ofNat 32 (rdNat s.mem y.addr 4)).toNat := by
  rw [queue_count (rdNat_lt _ _ 4) (rdNat_lt _ _ 4), queueCount, queueHead_eq hpoison hkey, queueTail_eq hpoison hkey]

theorem queueGood_iff : queueGood s y = true ↔
    rdNat s.mem (y.addr + 12) 4 = 0 ∧ ∃ k ≤ 24, rdNat s.mem (y.addr + 8) 4 = 2 ^ k := by
  rw [queueGood, headerOk_iff, header_field hpoison hkey (by norm_num), header_field hpoison hkey (by norm_num)]

end header

/-! ## The words that a push and a pop write -/

section words
variable {core a k v w : Nat} {st1 st2 : Option Stamp} (ha : 5 * region ≤ a)
include ha

/-- One word stored. -/
theorem store_word (s : State) (core v : Nat) (st : Option Stamp) : (s.store core a (natBytes 4 v) st).warps = s.warps ∧
    (s.store core a (natBytes 4 v) st).mem = wrBytes s.mem a (natBytes 4 v) ∧ (s.store core a (natBytes 4 v) st).places = s.places := by
  rw [store_plain ha (natBytes_ne_nil 3 v)]
  exact ⟨rfl, rfl, rfl⟩

theorem word_gang : 2 * gangBase ≤ a := by
  have := gang_le_region
  omega

theorem rdByte_word (m : List Host.Cell) (v : Nat) {b : Nat} (hb : ¬ (a ≤ b ∧ b < a + 4)) : rdByte (wrBytes m a (natBytes 4 v)) b = rdByte m b :=
  rdByte_wrBytes_apart (.inr (word_gang ha)) (by rw [length_natBytes]; omega)

end words

end Sys2Proof.Laws
end

section
namespace Sys2Proof.Laws

open Sys2Proof.Machine

variable {c : Issuer} {s : State} {f : AFmt} {x : Spot} {l : List Spot}

/-- What O21 says of QPUSH. -/
theorem qpush_scratch (h : MayIssue (.qpush f) c s) (hx : waitPiece 2 f c s = .ok (x :: l)) (hd : c.task.determ = false)
    (hr : c.task.redundant = false) (hsp : f.space = 1 ∨ f.space = 2) (hwf : Memory.wf s.mem = true) (hsoft : s.soft = [])
    (hpoison : s.poison = []) (hkey : 5 ≤ keyRegion x.key) :
    let ea := scaAddr c.env f.addr f.space.toNat
    let u := x.unit
    let d := dIdx f.dst
    let head := rdNat s.mem x.key 4
    let tail := rdNat s.mem (x.key + 4) 4
    let cap := rdNat s.mem (x.key + 8) 4
    let count := (BitVec.ofNat 32 tail - BitVec.ofNat 32 head).toNat
    let good := rdNat s.mem (x.key + 12) 4 = 0 ∧ ∃ k ≤ 24, cap = 2 ^ k
    let waits := (s.place u).waiters.find? fun w => w.addr = x.key && w.queue
    (¬ good → exec (.qpush f) s = .next (raise s c.ref { cause := 0x13, tval := BitVec.ofNat 64 ea, epc := c.split.pc })) ∧
    (good → (∀ w, waits = some w → ∃ t q, exec (.qpush f) s = .next t ∧ Outstanding c t q ∧ s.fresh ≤ q.id ∧ t.mem = s.mem ∧
        q.writes = [.sca d 1] ∧ (t.place u).waiters = ((s.place u).waiters.filter fun y => decide (y ≠ w)) ∧
        (w.pid < s.fresh → ∀ v p, s.warp? w.gid w.wid = some v → v.pend? w.pid = some p → ∃ v' p', t.warp? w.gid w.wid = some v' ∧
          v'.pend? w.pid = some p' ∧ p'.kind = .long ∧ p'.due = s.cycle ∧
          p'.writes = [.sca w.reg (c.env.ssrc f.opb), .sca (w.reg + 1) 1])) ∧
      (waits = none → cap ≤ count → ∃ t q, exec (.qpush f) s = .next t ∧ Outstanding c t q ∧ s.fresh ≤ q.id ∧ t.mem = s.mem ∧
        q.writes = [.sca d 2]) ∧
      (waits = none → count < cap → ringKey x.key (waitRoom f c x s) (16 + 4 * (tail % cap)) = .ok (x.key + (16 + 4 * (tail % cap))) →
        ∃ t q, exec (.qpush f) s = .next t ∧ Outstanding c t q ∧ s.fresh ≤ q.id ∧ q.writes = [.sca d 0] ∧
          rdNat t.mem (x.key + 16 + 4 * (tail % cap)) 4 = (c.env.ssrc f.opb).toNat ∧
          rdNat t.mem (x.key + 4) 4 = (tail + 1) % 2 ^ 32 ∧
          ∀ a, ¬ (x.key + 4 ≤ a ∧ a < x.key + 8) → ¬ (x.key + 16 + 4 * (tail % cap) ≤ a ∧ a < x.key + 20 + 4 * (tail % cap)) →
            rdByte t.mem a = rdByte s.mem a)) := by
  intro ea v d head tail cap count good waits
  obtain ⟨u, pid, g, q, p, hready, hpid, hg, hq, hp, hid, -, hnext, hrefuse⟩ := wait_ready (k := 2) h hd hr hsp hx
  set y := waitReq 2 f c x (issued (waitRow 2 f) c s)
  have hfresh : s.fresh ≤ pid := hpid ▸ hready.fresh
  have hsoft' := hready.soft.trans hsoft
  have hpoison' := hready.poison.trans hpoison
  have hkey5 : 5 * region ≤ x.key := (Nat.le_div_iff_mul_le region_pos).1 hkey
  have hregion : region ≤ y.addr := show region ≤ x.key by omega
  have hop : y.op = .qpush (c.env.ssrc f.opb).toNat := rfl
  have hgood : queueGood u y = true ↔ good := by rw [queueGood_iff hpoison' hregion, hready.mem]; rfl
  have htail : queueTail u y = tail := by rw [queueTail_eq hpoison' hregion, hready.mem]; rfl
  have hcap : queueCap u y = cap := by rw [queueCap_eq hpoison' hregion, hready.mem]; rfl
  have hcount : queueCount u y = count := by rw [queueCount_eq hpoison' hregion, hready.mem]; rfl
  have hwaits : popWaiting u v y = waits := by rw [popWaiting, hready.toAwaiting.place]; rfl
  refine ⟨fun hbad => ?bad, fun hg' => ⟨fun w hw => ?hands, fun hw hfull => ?full, fun hw hroom hk => ?enters⟩⟩
  case bad => exact hrefuse _ _ (push_bad hg hq hop (by rw [← Bool.not_eq_true, hgood]; exact hbad))
  case hands =>
    obtain ⟨es, hact⟩ := push_hands (due := waitDue f s) (v := v) (entry := ringKey x.key (waitRoom f c x s)) hg hq hsoft' hop (hgood.2 hg') (hwaits.trans hw)
    set u1 := u.modPlace v fun p => { p with waiters := p.waiters.filter (· != w) }
    obtain ⟨r, hr1, hrid⟩ := wakeOne_outstanding w (c.env.ssrc f.opb).toNat 1 es (outstanding_of_warps (t := u1) hp rfl)
    have hwoken := wakeOne_awaiting w (c.env.ssrc f.opb).toNat 1 es u1
    have hrpid : r.id = pid := hrid.trans hid
    refine ⟨_, _, hnext _ hact, hrpid ▸ outstanding_answer hr1 _ _, hrid ▸ hid ▸ hfresh, ?_, rfl, ?_, fun hold v' p' hv hp' => ?_⟩
    · exact (Awaiting.answer ..).mem.trans (hwoken.mem.trans hready.mem)
    · rw [(Awaiting.answer ..).place, hwoken.place, place_modPlace, hready.place]
      exact List.filter_congr fun _ _ => by rw [bne, decide_not]; rfl
    · have hs : Shows u1 w.gid w.wid w.pid p' := (hready.shows _ _ _ _ ⟨v', hv, hp'⟩).of_warps rfl
      have hs2 := wakeOne_shows w (c.env.ssrc f.opb).toNat 1 es hs
      rw [if_pos ⟨rfl, rfl⟩] at hs2
      have hs3 := hs2.modPend c.ref.gid c.ref.wid pid (g := answered (waitDue f s [(y.va, 16)]) [.sca d 1]) fun _ => rfl
      rw [if_neg (by rintro ⟨-, e⟩; omega)] at hs3
      obtain ⟨v2, hv2, hp2⟩ := hs3
      have hqueue : w.queue = true := by
        have := List.find?_some hw
        simp only [Bool.and_eq_true] at this
        exact this.2
      refine ⟨v2, _, hv2, hp2, rfl, hready.cycle, ?_⟩
      show wokenWrites w _ 1 = _
      rw [wokenWrites, if_pos hqueue, BitVec.ofNat_toNat, BitVec.setWidth_eq]
      rfl
  case full =>
    have hact := push_full (due := waitDue f s) (v := v) (entry := ringKey x.key (waitRoom f c x s)) hg hq hsoft' hop (hgood.2 hg') (hwaits.trans hw)
      (by rw [hcap, hcount]; exact hfull)
    exact ⟨_, _, hnext _ hact, hid ▸ outstanding_answer hp _ _, hid ▸ hfresh, (Awaiting.answer ..).mem.trans hready.mem, rfl⟩
  case enters =>
    obtain ⟨due, st1, st2, hact⟩ := push_enters (due := waitDue f s) (v := v) (entry := ringKey x.key (waitRoom f c x s)) hg hq hsoft' hop (hgood.2 hg')
      (hwaits.trans hw) (by rw [hcap, hcount]; exact hroom) (by rw [hcap, htail]; exact hk)
    rw [htail, show y.addr = x.key from rfl] at hact
    have hring : 5 * region ≤ x.key + (16 + 4 * (tail % cap)) := by omega
    have hword : 5 * region ≤ x.key + 4 := by omega
    obtain ⟨hw1, hm1, -⟩ := store_word hring u g.core (c.env.ssrc f.opb).toNat st1
    obtain ⟨hw2, hm2, -⟩ := store_word hword (u.store g.core (x.key + (16 + 4 * (tail % cap))) (natBytes 4 (c.env.ssrc f.opb).toNat) st1) g.core
      ((tail + 1) % 2 ^ 32) st2
    have hout : Outstanding c ((u.store g.core (x.key + (16 + 4 * (tail % cap))) (natBytes 4 (c.env.ssrc f.opb).toNat) st1).store g.core (x.key + 4)
        (natBytes 4 ((tail + 1) % 2 ^ 32)) st2) p := outstanding_of_warps hp (hw2.trans hw1)
    rw [hm1, hready.mem] at hm2
    refine ⟨_, _, hnext _ hact, hid ▸ outstanding_answer hout _ _, hid ▸ hfresh, rfl, ?_, ?_, fun a h1 h2 => ?_⟩
    · rw [(Awaiting.answer ..).mem, hm2, Nat.add_assoc, rdNat_wrBytes_apart (word_gang hring) (word_gang hword) (.inr (by rw [length_natBytes]; omega)),
        rdNat_wrBytes_self hwf (word_gang hring)]
      exact Nat.mod_eq_of_lt (c.env.ssrc f.opb).isLt
    · rw [(Awaiting.answer ..).mem, hm2, rdNat_wrBytes_self (wf_wrBytes _ _ hwf) (word_gang hword)]
      exact Nat.mod_mod _ _
    · rw [(Awaiting.answer ..).mem, hm2, rdByte_word hword _ _ (by omega), rdByte_word hring _ _ (by omega)]

/-- What O21 says of QPOP and QPOPW. -/
theorem qpop_scratch {k : Fin 5} (hk34 : k = 3 ∨ k = 4) (h : MayIssue (waitRow k f) c s) (hx : waitPiece k f c s = .ok (x :: l)) (hd : c.task.determ = false)
    (hr : c.task.redundant = false) (hsp : f.space = 1 ∨ f.space = 2) (hwf : Memory.wf s.mem = true) (hsoft : s.soft = [])
    (hpoison : s.poison = []) (hkey : 5 ≤ keyRegion x.key) :
    let ea := scaAddr c.env f.addr f.space.toNat
    let u := x.unit
    let d := dIdx f.dst
    let head := rdNat s.mem x.key 4
    let tail := rdNat s.mem (x.key + 4) 4
    let cap := rdNat s.mem (x.key + 8) 4
    let count := (BitVec.ofNat 32 tail - BitVec.ofNat 32 head).toNat
    let good := rdNat s.mem (x.key + 12) 4 = 0 ∧ ∃ k ≤ 24, cap = 2 ^ k
    (¬ good → exec (waitRow k f) s = .next (raise s c.ref { cause := 0x13, tval := BitVec.ofNat 64 ea, epc := c.split.pc })) ∧
    (good → 0 < count → ringKey x.key (waitRoom f c x s) (16 + 4 * (head % cap)) = .ok (x.key + (16 + 4 * (head % cap))) →
      ∃ t q, exec (waitRow k f) s = .next t ∧ Outstanding c t q ∧ s.fresh ≤ q.id ∧
        q.writes = [.sca d (BitVec.ofNat 32 (rdNat s.mem (x.key + 16 + 4 * (head % cap)) 4)), .sca (d + 1) 0] ∧
        rdNat t.mem x.key 4 = (head + 1) % 2 ^ 32 ∧
        ∀ a, ¬ (x.key ≤ a ∧ a < x.key + 4) → rdByte t.mem a = rdByte s.mem a) ∧
    (good → count = 0 → ∃ t q, exec (waitRow k f) s = .next t ∧ Outstanding c t q ∧ s.fresh ≤ q.id ∧ t.mem = s.mem ∧
      (k = 3 → q.writes = [.sca d 0, .sca (d + 1) 1]) ∧
      (k = 4 → waitersFull u x.key (s.place u).waiters = true → q.writes = [.sca d 0, .sca (d + 1) 2]) ∧
      (k = 4 → waitersFull u x.key (s.place u).waiters = false → q.kind = .waiter u x.key ∧
        (t.place u).waiters = (s.place u).waiters ++ [⟨x.key, c.ref.gid, c.ref.wid, q.id, d, true⟩])) := by
  intro ea v d head tail cap count good
  obtain ⟨u, pid, g, q, p, hready, hpid, hg, hq, hp, hid, hkind, hnext, hrefuse⟩ := wait_ready h hd hr hsp hx
  set y := waitReq k f c x (issued (waitRow k f) c s) with hy
  have hfresh : s.fresh ≤ pid := hpid ▸ hready.fresh
  have hsoft' := hready.soft.trans hsoft
  have hpoison' := hready.poison.trans hpoison
  have hkey5 : 5 * region ≤ x.key := (Nat.le_div_iff_mul_le region_pos).1 hkey
  have hregion : region ≤ y.addr := show region ≤ x.key by omega
  have hop3 : k = 3 → y.op = .qpop := by rintro rfl; rfl
  have hop4 : k = 4 → y.op = .qpopw := by rintro rfl; rfl
  have hop : y.op = .qpop ∨ y.op = .qpopw := hk34.imp hop3 hop4
  have hgood : queueGood u y = true ↔ good := by rw [queueGood_iff hpoison' hregion, hready.mem]; rfl
  have hhead : queueHead u y = head := by rw [queueHead_eq hpoison' hregion, hready.mem]; rfl
  have hcap : queueCap u y = cap := by rw [queueCap_eq hpoison' hregion, hready.mem]; rfl
  have hcount : queueCount u y = count := by rw [queueCount_eq hpoison' hregion, hready.mem]; rfl
  refine ⟨fun hbad => ?bad, fun hg' hsome hk => ?takes, fun hg' hnone => ?empty⟩
  case bad => exact hrefuse _ _ (pop_bad hg hq hop (by rw [← Bool.not_eq_true, hgood]; exact hbad))
  case takes =>
    obtain ⟨due, st, es, hact⟩ := pop_takes (due := waitDue f s) (v := v) (entry := ringKey x.key (waitRoom f c x s)) hg hq hsoft' hop hpoison' (hgood.2 hg')
      (by rw [hcount]; omega) (by rw [hcap, hhead]; exact hk)
    rw [hhead, hcap, found_upper hpoison' (show region ≤ x.key + (16 + 4 * (head % cap)) by omega), hready.mem] at hact
    obtain ⟨hw1, hm1, -⟩ := store_word (show 5 * region ≤ y.addr from hkey5) u g.core ((head + 1) % 2 ^ 32) st
    have hout := outstanding_of_warps hp hw1
    rw [hready.mem] at hm1
    refine ⟨_, _, hnext _ hact, outstanding_acquire (hid ▸ outstanding_answer hout _ _) .., hid ▸ hfresh, ?_, ?_, fun a ha => ?_⟩
    · rw [Nat.add_assoc]; rfl
    · rw [(Awaiting.acquire ..).mem, (Awaiting.answer ..).mem, hm1]
      exact (rdNat_wrBytes_self hwf (word_gang hkey5) 4 _).trans (Nat.mod_mod _ _)
    · rw [(Awaiting.acquire ..).mem, (Awaiting.answer ..).mem, hm1]
      exact rdByte_word hkey5 _ _ ha
  case empty =>
    have hact := pop_empty (due := waitDue f s) (v := v) (entry := ringKey x.key (waitRoom f c x s)) hg hq hsoft' hop (hgood.2 hg') (hcount.trans hnone)
    rcases hk34 with h3 | h4
    · have hne : k ≠ 4 := by rw [h3]; decide
      rw [if_pos (hop3 h3)] at hact
      exact ⟨_, _, hnext _ hact, outstanding_acquire (hid ▸ outstanding_answer hp _ _) .., hid ▸ hfresh,
        (Awaiting.acquire ..).mem.trans ((Awaiting.answer ..).mem.trans hready.mem), fun _ => rfl, fun h => absurd h hne, fun h => absurd h hne⟩
    · have hne : k ≠ 3 := by rw [h4]; decide
      rw [if_neg (by rw [hop4 h4]; exact SyncOp.noConfusion), hready.place, show y.addr = x.key from rfl] at hact
      cases hroom : waitersFull v x.key (s.place v).waiters with
      | true =>
        rw [if_pos hroom] at hact
        exact ⟨_, _, hnext _ hact, hid ▸ outstanding_answer hp _ _, hid ▸ hfresh, (Awaiting.answer ..).mem.trans hready.mem, fun h => absurd h hne,
          fun _ _ => rfl, fun _ h => absurd h.symm Bool.false_ne_true⟩
      | false =>
        rw [if_neg (by rw [← Bool.not_eq_true] at hroom; exact hroom)] at hact
        refine ⟨_, p, hnext _ hact, outstanding_of_warps hp rfl, hid ▸ hfresh, hready.mem, fun h => absurd h hne,
          fun _ h => absurd h Bool.false_ne_true, fun _ _ => ⟨hkind, ?_⟩⟩
        rw [joined, place_modPlace, hready.place, hid]
        rfl

/-- Settles O21: the header, the waiting pops and the words that a push or a pop writes. -/
theorem queuesInScratchpads : Obligations.QueuesInScratchpads := by
  intro f c s x l hd hr hsp hwf hsoft hpoison hkey _ _
  exact ⟨fun h hx => qpush_scratch h hx hd hr hsp hwf hsoft hpoison hkey,
    fun k hk h hx => qpop_scratch hk h hx hd hr hsp hwf hsoft hpoison hkey⟩

end Sys2Proof.Laws
end

section
/-! SUPPORT. An atomic performed at a scratchpad (R148, R149): what it does depends on memory and its errors alone, and what it leaves of warps. -/

namespace Sys2Proof.Laws

open Sys2Proof.Machine

variable {c : Issuer} {s s' t t' u : State}

/-! ## What the lanes of an atomic depend on -/

/-- Memory, its errors and what a record of an error needs are the same. -/
structure SameData (s t : State) : Prop where
  mem : t.mem = s.mem
  poison : t.poison = s.poison
  soft : t.soft = s.soft
  deadFr : t.deadFr = s.deadFr
  errq : t.errq = s.errq
  cycle : t.cycle = s.cycle

namespace SameData

theorem refl (s : State) : SameData s s := ⟨rfl, rfl, rfl, rfl, rfl, rfl⟩
theorem symm (h : SameData s t) : SameData t s := ⟨h.1.symm, h.2.symm, h.3.symm, h.4.symm, h.5.symm, h.6.symm⟩
theorem trans (h : SameData s t) (k : SameData t u) : SameData s u :=
  ⟨k.1.trans h.1, k.2.trans h.2, k.3.trans h.3, k.4.trans h.4, k.5.trans h.5, k.6.trans h.6⟩

theorem ofQuiet (h : Quiet s t) : SameData s t := by
  have h := h.rest
  exact ⟨by rw [h], by rw [h], by rw [h], by rw [h], by rw [h], by rw [h]⟩

theorem found (h : SameData s t) (key va n : Nat) : t.found key va n = s.found key va n := by
  unfold State.found State.deadAt State.deadCell
  rw [h.mem, h.poison, h.deadFr]

theorem put (h : SameData s t) (key : Nat) (bs : List Byte) (st st' : Option Stamp) : SameData (s.put key bs st) (t.put key bs st') :=
  ⟨congrArg (wrBytes · key bs) h.mem, congrArg (List.filter _) h.poison, congrArg (List.filter _) h.soft, h.deadFr, h.errq, h.cycle⟩

theorem ringAppend (h : SameData s t) (key : Nat → Option Nat) (cap : Nat) (r : List Byte) :
    SameData (s.ringAppend key cap r) (t.ringAppend key cap r) := by
  unfold State.ringAppend
  simp only [h.mem]
  split
  · split
    · exact h.put ..
    · split
      · exact (h.put _ _ none none).put ..
      · exact h
  · exact h

theorem logRecord (h : SameData s t) (addr task group detail asid part cause kind : Nat) :
    SameData (s.logRecord addr task group detail asid part cause kind) (t.logRecord addr task group detail asid part cause kind) := by
  unfold State.logRecord
  simp only [h.errq, h.cycle]
  split
  · exact h.ringAppend ..
  · exact h

theorem correct (h : SameData s t) (key n : Nat) : SameData (s.correct key n) (t.correct key n) := by
  have hfold : ∀ (l : List Nat) {s t : State}, SameData s t →
      SameData (l.foldl (fun s a => s.logRecord (if a * 32 < gangBase then a * 32 else 0) 0 0xFFFFFFFF 0 0 0 0 8) s)
        (l.foldl (fun s a => s.logRecord (if a * 32 < gangBase then a * 32 else 0) 0 0xFFFFFFFF 0 0 0 0 8) t) := by
    intro l
    induction l with
    | nil => exact fun h => h
    | cons a l ih => exact fun h => ih (h.logRecord ..)
  unfold State.correct State.deadCell
  simp only [h.soft, h.deadFr]
  split
  · exact h
  · exact hfold _ ⟨h.mem, h.poison, rfl, rfl, h.errq, h.cycle⟩

theorem setValid (h : SameData s t) (key n : Nat) (v : Byte) : SameData (s.setValid key n v) (t.setValid key n v) := by
  refine ⟨?_, h.poison, h.soft, h.deadFr, h.errq, h.cycle⟩
  simp only [State.setValid, h.mem]

theorem store (h : SameData s t) {key : Nat} {bs : List Byte} (hkey : region ≤ key) (hbs : bs ≠ []) (core core' : Nat) (st st' : Option Stamp) :
    SameData (s.store core key bs st) (t.store core' key bs st') := by
  refine (ofQuiet (store_quiet hkey hbs)).symm.trans (.trans ?_ (ofQuiet (store_quiet hkey hbs)))
  exact ⟨congrArg (written · key bs) h.mem, congrArg (List.filter _) h.poison, congrArg (List.filter _) h.soft, h.deadFr, h.errq, h.cycle⟩

end SameData

/-- Two runs of an atomic have done the same to memory and have got the same. -/
structure SameRun (r r' : AtomRun) : Prop where
  st : SameData r.st r'.st
  seen : r'.seen = r.seen
  got : r'.got = r.got

/-- The lanes of an atomic lie above HBM. -/
def Upper (a : AtomSpec) : Prop := 0 < a.size ∧ ∀ x ∈ a.lanes, region ≤ x.addr

theorem natBytes_ne {n : Nat} (h : 0 < n) (v : Nat) : natBytes n v ≠ [] := by
  rw [← List.length_pos_iff, length_natBytes]
  exact h

theorem SameRun.lane {r r' : AtomRun} (h : SameRun r r') {a : AtomSpec} (hsize : 0 < a.size) {x : AtomLane} (hx : region ≤ x.addr)
    (g g' : Group) (stamp stamp' : Nat → Option Stamp) : SameRun (atomLane g stamp a r x) (atomLane g' stamp' a r' x) := by
  have hfound := h.st.found x.addr x.va a.size
  have hcorrect := h.st.correct x.addr a.size
  refine ⟨?_, congrArg (x.addr :: ·) h.seen, ?_⟩
  · unfold atomLane
    simp only [hfound, h.seen]
    split
    · exact hcorrect
    · split
      · exact hcorrect.store hx (natBytes_ne hsize _) ..
      · split
        · exact hcorrect.setValid ..
        · exact hcorrect
  · unfold atomLane
    simp only [hfound, h.got]

theorem SameRun.foldl {r r' : AtomRun} (h : SameRun r r') {a : AtomSpec} (hsize : 0 < a.size) {l : List AtomLane} (hl : ∀ x ∈ l, region ≤ x.addr)
    (g g' : Group) (stamp stamp' : Nat → Option Stamp) : SameRun (l.foldl (atomLane g stamp a) r) (l.foldl (atomLane g' stamp' a) r') := by
  induction l generalizing r r' with
  | nil => exact h
  | cons x l ih => exact ih (h.lane hsize (hl x List.mem_cons_self) ..) fun y hy => hl y (List.mem_cons_of_mem _ hy)

theorem atomAt_same (h : SameData s t) {a : AtomSpec} (ha : Upper a) (g g' : Group) (stamp stamp' : Nat → Option Stamp) :
    SameRun (atomAt s g stamp a) (atomAt t g' stamp' a) := SameRun.foldl (r := { st := s }) (r' := { st := t }) ⟨h, rfl, rfl⟩ ha.1 ha.2 g g' stamp stamp'

/-! ## What the lanes leave of warps -/

/-- Of warps only what they wait for and their synchronised-with tables have changed, and no number has been given out. -/
structure WarpsQuiet (s t : State) : Prop where
  warp : ∀ gid wid, Option.Rel WarpQuiet (s.warp? gid wid) (t.warp? gid wid)
  fresh : t.fresh = s.fresh
  cycle : t.cycle = s.cycle

namespace WarpsQuiet

theorem refl (s : State) : WarpsQuiet s s := ⟨fun _ _ => rel_refl .refl _, rfl, rfl⟩
theorem trans (h : WarpsQuiet s t) (k : WarpsQuiet t u) : WarpsQuiet s u :=
  ⟨fun g w => rel_trans .trans (h.warp g w) (k.warp g w), k.fresh.trans h.fresh, k.cycle.trans h.cycle⟩

theorem ofWarps (hw : t.warps = s.warps) (hf : t.fresh = s.fresh) (hc : t.cycle = s.cycle) : WarpsQuiet s t :=
  ⟨fun g w => by rw [State.warp?, State.warp?, hw]; exact rel_refl .refl _, hf, hc⟩
theorem ofBystander (h : Bystander s t) : WarpsQuiet s t := ofWarps h.warps h.fresh h.cycle
theorem ofQuiet (h : Quiet s t) : WarpsQuiet s t := ⟨h.warp, h.fresh, h.cycle⟩

theorem store {key : Nat} {bs : List Byte} (hkey : region ≤ key) (hbs : bs ≠ []) (core : Nat) (st : Option Stamp) :
    WarpsQuiet s (s.store core key bs st) :=
  trans (t := placed s key bs st) (ofWarps rfl rfl rfl) (ofQuiet (store_quiet hkey hbs))

theorem lane {a : AtomSpec} (hsize : 0 < a.size) {x : AtomLane} (hx : region ≤ x.addr) (g : Group) (stamp : Nat → Option Stamp) (r : AtomRun) :
    WarpsQuiet r.st (atomLane g stamp a r x).st := by
  have hcorrect : WarpsQuiet r.st (r.st.correct x.addr a.size) := ofBystander (.correct ..)
  unfold atomLane
  extract_lets f old skip s1 st
  show WarpsQuiet r.st st
  unfold st
  split
  · exact hcorrect
  · split
    · exact hcorrect.trans (store hx (natBytes_ne hsize _) ..)
    · split
      · exact hcorrect.trans (ofWarps rfl rfl rfl)
      · exact hcorrect

theorem foldl {a : AtomSpec} (hsize : 0 < a.size) {l : List AtomLane} (hl : ∀ x ∈ l, region ≤ x.addr) (g : Group) (stamp : Nat → Option Stamp)
    (r : AtomRun) : WarpsQuiet r.st (l.foldl (atomLane g stamp a) r).st := by
  induction l generalizing r with
  | nil => exact refl _
  | cons x l ih => exact (lane hsize (hl x List.mem_cons_self) ..).trans (ih (fun y hy => hl y (List.mem_cons_of_mem _ hy)) _)

theorem atomAt {a : AtomSpec} (ha : Upper a) (s : State) (g : Group) (stamp : Nat → Option Stamp) : WarpsQuiet s (atomAt s g stamp a).st :=
  foldl ha.1 ha.2 g stamp { st := s }

end WarpsQuiet

/-! ## What the lanes have got -/

theorem atomLane_canon {g : Group} {stamp : Nat → Option Stamp} {a : AtomSpec} {r : AtomRun} (h : Canon 0 r.got) (x : AtomLane) :
    Canon 0 (atomLane g stamp a r x).got := (putBytes_puts _ _).canon _ h

theorem atomAt_canon (s : State) (g : Group) (stamp : Nat → Option Stamp) (a : AtomSpec) : Canon 0 (atomAt s g stamp a).got := by
  have h : ∀ (l : List AtomLane) (r : AtomRun), Canon 0 r.got → Canon 0 (l.foldl (atomLane g stamp a) r).got := by
    intro l
    induction l with
    | nil => exact fun r h => h
    | cons x l ih => exact fun r h => ih _ (atomLane_canon h x)
  exact h a.lanes { st := s } (by simp [Canon])

/-- Bytes put over others, one after another. -/
theorem fget_foldl_fset {m : FMap Byte} (hm : Canon 0 m) (acc : FMap Byte) (k : Nat) :
    fget 0 k (m.foldl (fun m p => fset 0 p.1 p.2 m) acc) = if fget 0 k m = 0 then fget 0 k acc else fget 0 k m := by
  induction m generalizing acc with
  | nil => simp [fget]
  | cons p m ih =>
    obtain ⟨a, v⟩ := p
    obtain ⟨hv, hlt, hm⟩ := hm
    rw [List.foldl_cons, ih hm]
    by_cases hk : a = k
    · subst hk
      have hself : fget 0 a ((a, v) :: m) = v := by simp [fget]
      rw [if_pos (fget_none hlt), fget_fset_pos hv, hself, if_neg hv]
    · rw [fget_fset_ne (Ne.symm hk)]
      simp [fget, hk]

/-! ## One lane -/

section lane
variable {g : Group} {stamp : Nat → Option Stamp} {a : AtomSpec} {x : AtomLane} (hlanes : a.lanes = [x])
include hlanes

theorem atomAt_one (s : State) : atomAt s g stamp a = atomLane g stamp a { st := s } x := by rw [atomAt, hlanes]; rfl

end lane

/-- What a lane leaves in memory, where no error touches its bytes. -/
theorem atomLane_mem {g : Group} {stamp : Nat → Option Stamp} {a : AtomSpec} {x : AtomLane} (hsize : 0 < a.size) (hx : region ≤ x.addr)
    (hpoison : s.poison = []) (hsoft : s.soft = []) :
    (atomLane g stamp a { st := s } x).st.mem = match atomNew a.op a.size (bytesNat (rdBytes s.mem x.addr a.size)) x.b x.c with
      | some v => written s.mem x.addr (natBytes a.size v)
      | none => if keyRegion x.addr = 4 then (s.setValid x.addr a.size 1).mem else s.mem := by
  have hskip : ((s.found x.addr x.va a.size).bad.isSome || (decide (a.op = .cas) && ([] : List Nat).contains x.addr)) = false := by
    simp [found_bad hpoison]
  unfold atomLane
  simp only [hskip, found_upper hpoison hx, correct_soft hsoft, Bool.false_eq_true, if_false]
  cases atomNew a.op a.size (bytesNat (rdBytes s.mem x.addr a.size)) x.b x.c with
  | some v => exact store_upper_mem hx (natBytes_ne hsize v)
  | none => dsimp only; split <;> rfl

theorem atomLane_got {g : Group} {stamp : Nat → Option Stamp} {a : AtomSpec} {x : AtomLane} (hx : region ≤ x.addr) (hpoison : s.poison = []) :
    (atomLane g stamp a { st := s } x).got = putBytes [] (256 * x.lane) (rdBytes s.mem x.addr a.size) := by
  unfold atomLane
  simp only [found_upper hpoison hx, natBytes_rdBytes]

/-- Bytes put among none. -/
theorem putBytes_bytes (key : Nat) (bs : List Byte) : (List.range bs.length).map (fun k => fget 0 (key + k) (putBytes [] key bs)) = bs := by
  refine List.ext_getElem (by simp) fun k h1 h2 => ?_
  rw [List.getElem_map, List.getElem_range, putBytes,
    (putBytes_puts key bs).inside h2 (by simp [Canon]) (b := bs.getD k 0) fun _ => rfl]
  simp [h2]

end Sys2Proof.Laws
end

section
/-! SUPPORT. The effect of an atomic (R146 to R151), a form for each way that it goes: nothing to do, held, into the write buffer, performed
where it issues, or requested of its places. -/

namespace Sys2Proof.Laws

open Sys2Proof.Machine

variable {i : Instr} {c : Issuer} {s t u : State} {op : AtomOp} {f : AFmt} {l : List Spot}

/-! ## The parts of the effect -/

/-- The state where the release has been made, if the atomic is one (R226). -/
def atomReleased (op : AtomOp) (f : AFmt) (c : Issuer) (s : State) : State :=
  if op = .ld then s else releaseBy c (if aRel f then some f.scope.toNat else none) s

def atomCnt (op : AtomOp) (f : AFmt) (c : Issuer) (s : State) : Nat :=
  cntOf (((atomReleased op f c s).warp? c.ref.gid c.ref.wid).getD c.warp) (((atomReleased op f c s).group? c.ref.gid).getD c.grp)

/-- The parts of the atomic, one for each place. -/
def atomPlaces (op : AtomOp) (f : AFmt) (c : Issuer) (l : List Spot) (s : State) : List (UnitRef × AtomSpec) :=
  atomParts (atomReleased op f c s) c op f (atomCnt op f c s) l

/-- The state in which the atomic goes on, with the free values of lanes without an access taken. -/
def atomBase (op : AtomOp) (f : AFmt) (c : Issuer) (s : State) : State :=
  { atomReleased op f c s with free := (atomReleased op f c s).free + 64 }

/-- The atomic as an outstanding operation. -/
def atomPend (f : AFmt) (c : Issuer) (l : List Spot) (s : State) : Pend :=
  { id := 0, kind := .atomic (aRets f), ent := 0, lanes := 0, items := atomItems c.env f, got := atomFree s c.env f l, acq := aAcq f }

/-- The atomic held until the task's retirement or the pair's next commit (R304, R347). -/
def atomHeld (op : AtomOp) (f : AFmt) (c : Issuer) (l : List Spot) (s : State) : State :=
  (atomBase op f c s).modGroup c.ref.gid fun g => { g with held := g.held ++ [.atomic (atomPlaces op f c l s)] }

/-- The operations that the places perform for it. -/
def atomDrains (op : AtomOp) (f : AFmt) (c : Issuer) (l : List Spot) (s : State) : Nat :=
  (atomPlaces op f c l s).foldl (fun a p => a + (effective p.2).length) 0

/-- The atomic in the die's write buffer. -/
def atomDrained (op : AtomOp) (f : AFmt) (c : Issuer) (l : List Spot) (s : State) : State :=
  drainAtomic c (atomBase op f c s).fresh (atomPlaces op f c l s)
    ((atomBase op f c s).addPend c (atomRow op f) { atomPend f c l s with left := atomDrains op f c l s })

/-- The atomic commits: where it is a release of .die or wider, and where it returns from memory. -/
def atomNeedsCommit (f : AFmt) : Bool := wideRelease f.order f.scope || (3 ≤ f.space.toNat && aRets f)
def atomCommitted (op : AtomOp) (f : AFmt) (c : Issuer) (s : State) : State × Nat := commitFor c (atomNeedsCommit f) (atomBase op f c s)
def atomCover (op : AtomOp) (f : AFmt) (c : Issuer) (s : State) : Option Nat :=
  if wideRelease f.order f.scope then some (atomCommitted op f c s).2 else none

/-- It needs no wait. -/
def atomReady (f : AFmt) (c : Issuer) (s : State) : Bool :=
  !wideRelease f.order f.scope && (!aRel f || c.warp.earlierDone c.split.held s.fresh)

/-- What the parts of an atomic do where it issues, one after another. -/
def atomRunStep (c : Issuer) (stamp : Nat → Option Stamp) (r : AtomRun) (p : UnitRef × AtomSpec) : AtomRun :=
  { atomAt r.st c.grp stamp p.2 with
    got := (atomAt r.st c.grp stamp p.2).got.foldl (fun m p => fset 0 p.1 p.2 m) r.got, bad := least r.bad (atomAt r.st c.grp stamp p.2).bad,
    reads := r.reads ++ (atomAt r.st c.grp stamp p.2).reads }

def atomRun (op : AtomOp) (f : AFmt) (c : Issuer) (l : List Spot) (s : State) : AtomRun :=
  (atomPlaces op f c l s).foldl (atomRunStep c fun k => (atomCommitted op f c s).1.stampFor c.ref.gid c.ref.wid (atomCnt op f c s) k)
    { st := if f.space = 0 || op = .ld then (atomCommitted op f c s).1 else (atomCommitted op f c s).1.expose c.grp }

/-- The atomic performed where it issues. -/
def atomPerformed (op : AtomOp) (f : AFmt) (c : Issuer) (l : List Spot) (s : State) : State :=
  let r := atomRun op f c l s
  (r.st.atomAcquire c.ref.gid c.ref.wid r.st.fresh c.split.held (aAcq f) r.reads).addPend c (atomRow op f)
    { atomPend f c l s with
      cover := atomCover op f c s, kind := .long, due := s.cycle + delayOf f.space.toNat l, got := r.got, bad := r.bad.map (BitVec.ofNat 64),
      offs := true, reads := aRets f }

/-- The atomic requested of its places. -/
def atomQueuePend (op : AtomOp) (f : AFmt) (c : Issuer) (l : List Spot) (s : State) : Pend :=
  { atomPend f c l s with
    cover := atomCover op f c s, left := (atomPlaces op f c l s).length, hold := if 3 ≤ f.space.toNat then none else some f.space.toNat }
def atomSent (op : AtomOp) (f : AFmt) (c : Issuer) (s : State) (a : AtomSpec) : Req :=
  { gid := c.ref.gid, wid := c.ref.wid, pid := (atomCommitted op f c s).1.fresh, atom := some a,
    after := if wideRelease f.order f.scope || decide (3 ≤ f.space.toNat) then some (atomCommitted op f c s).2 else none, part := c.task.part }
def atomAsked (op : AtomOp) (f : AFmt) (c : Issuer) (l : List Spot) (s : State) : State :=
  let s4 := (atomCommitted op f c s).1.addPend c (atomRow op f) (atomQueuePend op f c l s)
  requests (if op = .ld || f.space = 0 then s4 else s4.expose c.grp) ((atomPlaces op f c l s).map fun p => (p.1, atomSent op f c s p.2))

/-! ## The effect, way by way -/

section effect
variable (hr : atomRefused f c = false)
include hr

theorem atomEff_idle (h0 : c.env.active f.guard = 0) : atomEff (atomRow op f) op f c s = .ok (s.later c (atomRow op f) 6 []) := by
  unfold atomEff
  rw [if_neg (by simpa [atomRefused] using hr), if_pos h0]

variable (hactive : c.env.active f.guard ≠ 0) (hl : s.access c (atomAcc op f) (atomAddrs f c) = .ok l)
include hactive hl

theorem atomEff_held (hdet : (decide (3 ≤ f.space.toNat) && !aRets f && c.task.determ) = true) (hfull : c.grp.full [2 ^ 80] = false) :
    atomEff (atomRow op f) op f c s = .ok ((atomHeld op f c l s).later c (atomRow op f) 1 []) := by
  unfold atomEff
  rw [if_neg (by simpa [atomRefused] using hr), if_neg hactive]
  unfold atomAcc atomAddrs at hl
  simp only [hl, hdet, hfull, if_true]
  rfl

theorem atomEff_heldPair (hdet : (decide (3 ≤ f.space.toNat) && !aRets f && c.task.determ) = false)
    (hpair : (c.task.redundant && decide (2 ≤ f.space.toNat) && !aRets f && !wideRelease f.order f.scope) = true) :
    atomEff (atomRow op f) op f c s = .ok ((atomHeld op f c l s).later c (atomRow op f) 1 []) := by
  unfold atomEff
  rw [if_neg (by simpa [atomRefused] using hr), if_neg hactive]
  unfold atomAcc atomAddrs at hl
  simp only [hl, hdet, hpair, Bool.false_eq_true, if_false, if_true]
  rfl

variable (hdet : (decide (3 ≤ f.space.toNat) && !aRets f && c.task.determ) = false)
  (hpair : (c.task.redundant && decide (2 ≤ f.space.toNat) && !aRets f && !wideRelease f.order f.scope) = false)
include hdet hpair

theorem atomEff_drained (hdrain : (decide (3 ≤ f.space.toNat) && !aRets f && !wideRelease f.order f.scope) = true) :
    atomEff (atomRow op f) op f c s = .ok (atomDrained op f c l s) := by
  unfold atomEff
  rw [if_neg (by simpa [atomRefused] using hr), if_neg hactive]
  unfold atomAcc atomAddrs at hl
  simp only [hl, hdet, hpair, hdrain, Bool.false_eq_true, if_false, if_true]
  rfl

variable (hdrain : (decide (3 ≤ f.space.toNat) && !aRets f && !wideRelease f.order f.scope) = false)
include hdrain

theorem atomEff_performed (hready : (!decide (3 ≤ f.space.toNat) && atomReady f c s) = true) :
    atomEff (atomRow op f) op f c s = .ok (atomPerformed op f c l s) := by
  unfold atomReady at hready
  unfold atomEff
  rw [if_neg (by simpa [atomRefused] using hr), if_neg hactive]
  unfold atomAcc atomAddrs at hl
  simp only [hl, hdet, hpair, hdrain, hready, Bool.false_eq_true, if_false, if_true]
  rfl

theorem atomEff_asked (hready : (!decide (3 ≤ f.space.toNat) && atomReady f c s) = false) :
    atomEff (atomRow op f) op f c s = .ok (atomAsked op f c l s) := by
  have hqueue : ∀ (pid : Nat) (after : Option Nat) (parts : List (UnitRef × AtomSpec)) (s : State), queueAtomic c pid after parts s =
      requests s (parts.map fun p => (p.1, { gid := c.ref.gid, wid := c.ref.wid, pid := pid, atom := some p.2, after := after, part := c.task.part })) :=
    fun pid after parts s => by rw [requests, List.foldl_map]; rfl
  unfold atomReady at hready
  unfold atomEff
  rw [if_neg (by simpa [atomRefused] using hr), if_neg hactive]
  unfold atomAcc atomAddrs at hl
  simp only [hl, hdet, hpair, hdrain, hready, Bool.false_eq_true, if_false, hqueue]
  rfl

end effect

end Sys2Proof.Laws
end

section
/-! SUPPORT. What each way of an atomic leaves: the issuing warp, the group, the places and memory (R147 to R151). -/

namespace Sys2Proof.Laws

open Sys2Proof.Machine

variable {i : Instr} {c : Issuer} {s t u : State} {op : AtomOp} {f : AFmt} {l : List Spot} {x : Spot}

/-! ## What orders accesses -/

theorem atomRow_profile (op : AtomOp) (f : AFmt) (c : Issuer) : (c.profile (atomRow op f)).head.ends = false ∧
    (c.profile (atomRow op f)).head.post = f.post := by
  rw [profile_head]
  cases op <;> exact ⟨rfl, rfl⟩

theorem atomReleased_ordered (op : AtomOp) (f : AFmt) (c : Issuer) (s : State) : Ordered c s (atomReleased op f c s) := by
  unfold atomReleased
  split
  · exact .refl c s
  · exact .releaseBy _

theorem atomReleased_awaiting (op : AtomOp) (f : AFmt) (c : Issuer) (s : State) : Awaiting s (atomReleased op f c s) := by
  unfold atomReleased
  split
  · exact .refl s
  · exact .releaseBy _

theorem atomBase_ordered (op : AtomOp) (f : AFmt) (c : Issuer) (s : State) : Ordered c s (atomBase op f c s) :=
  (atomReleased_ordered op f c s).trans (.ofWarps rfl le_rfl rfl rfl rfl)

theorem atomHeld_ordered (op : AtomOp) (f : AFmt) (c : Issuer) (l : List Spot) (s : State) : Ordered c s (atomHeld op f c l s) :=
  (atomBase_ordered op f c s).trans (.modGroup _ _)

theorem atomCommitted_ordered (op : AtomOp) (f : AFmt) (c : Issuer) (s : State) : Ordered c s (atomCommitted op f c s).1 :=
  (atomBase_ordered op f c s).trans (.commitFor _)

theorem drainAtomic_ordered (pid : Nat) (parts : List (UnitRef × AtomSpec)) (s : State) : Ordered c s (drainAtomic c pid parts s) := by
  unfold drainAtomic
  split
  · exact .refl c s
  · exact ((Ordered.expose _).trans (.drainFirst _ _)).trans (.modGroup _ _)

/-! ## The group -/

theorem releaseBy_group_rest {g : Group} (hg : s.group? c.ref.gid = some g) (n : Option Nat) :
    ∃ h, (releaseBy c n s).group? c.ref.gid = some h ∧ h = { g with relCount := h.relCount } := by
  unfold releaseBy
  split
  · exact ⟨g, hg, rfl⟩
  · exact ⟨_, (release_group hg _ _), by split <;> rfl⟩

theorem atomBase_group {g : Group} (hg : s.group? c.ref.gid = some g) (op : AtomOp) (f : AFmt) :
    ∃ h, (atomBase op f c s).group? c.ref.gid = some h ∧ h = { g with relCount := h.relCount } := by
  show ∃ h, (atomReleased op f c s).group? c.ref.gid = some h ∧ _
  unfold atomReleased
  split
  · exact ⟨g, hg, rfl⟩
  · exact releaseBy_group_rest hg _

theorem atomHeld_group {g : Group} (hg : s.group? c.ref.gid = some g) (op : AtomOp) (f : AFmt) (l : List Spot) :
    ∃ h, (atomHeld op f c l s).group? c.ref.gid = some h ∧ h.held = g.held ++ [.atomic (atomPlaces op f c l s)] := by
  obtain ⟨h, hh, hrest⟩ := atomBase_group hg op f
  refine ⟨_, (modGroup_self ..).trans (congrArg _ hh), ?_⟩
  show h.held ++ _ = _
  rw [hrest]

/-! ## Parts -/

theorem atomParts_awaiting (h : Awaiting s t) (cnt : Nat) (l : List Spot) : atomParts t c op f cnt l = atomParts s c op f cnt l := by
  rw [h.rest]; rfl

theorem atomPlaces_eq (op : AtomOp) (f : AFmt) (c : Issuer) (l : List Spot) (s : State) :
    atomPlaces op f c l s = atomParts s c op f (atomCnt op f c s) l := atomParts_awaiting (atomReleased_awaiting op f c s) _ l

/-- The counts are all that the parts of one atomic differ in. -/
theorem atomParts_count (s : State) (m n : Nat) : atomParts s c op f n l = (atomParts s c op f m l).map fun p => (p.1, { p.2 with count := n }) := by
  unfold atomParts
  rw [List.map_map]
  rfl

theorem mem_foldl_units {a : List UnitRef} {v : UnitRef} : v ∈ l.foldl (fun a x => if a.contains x.unit then a else a ++ [x.unit]) a ↔
    v ∈ a ∨ ∃ x ∈ l, x.unit = v := by
  induction l generalizing a with
  | nil => simp
  | cons x l ih =>
    rw [List.foldl_cons, ih, List.exists_mem_cons_iff]
    split
    · rename_i h
      rw [List.contains_iff_mem] at h
      constructor
      · tauto
      · rintro (h' | rfl | h') <;> tauto
    · rw [List.mem_append, List.mem_singleton]
      constructor
      · rintro ((h | rfl) | h) <;> tauto
      · rintro (h | rfl | h) <;> tauto

theorem mem_unitsIn {v : UnitRef} : v ∈ unitsIn l ↔ ∃ x ∈ l, x.unit = v := by
  rw [unitsIn, mem_foldl_units]
  simp

theorem nodup_unitsIn (l : List Spot) : (unitsIn l).Nodup := by
  have h : ∀ a : List UnitRef, a.Nodup → (l.foldl (fun a x => if a.contains x.unit then a else a ++ [x.unit]) a).Nodup := by
    induction l with
    | nil => exact fun a h => h
    | cons x l ih =>
      intro a ha
      refine ih _ ?_
      dsimp only
      split
      · exact ha
      · rename_i hx
        rw [List.contains_iff_mem] at hx
        exact List.nodup_append.2 ⟨ha, by simp, fun a ha b hb => by rintro rfl; exact hx (List.mem_singleton.1 hb ▸ ha)⟩
  exact h [] List.nodup_nil

/-- The pieces of an atomic with the places that perform them. -/
def atUnits (s : State) (c : Issuer) (l : List Spot) : List Spot := l.map fun x => { x with unit := atomUnit s c x }

/-- A lane's operation, as its place gets it. -/
def laneOf (op : AtomOp) (f : AFmt) (c : Issuer) (x : Spot) : AtomLane :=
  { lane := x.lane, addr := x.key, va := x.va, b := if op = .ld then 0 else aVal c.env f f.opb x.lane,
    c := if op = .cas then aVal c.env f f.opc x.lane else 0 }

/-- What a place gets of an atomic. -/
def specAt (op : AtomOp) (f : AFmt) (c : Issuer) (cnt : Nat) (L : List Spot) (v : UnitRef) : AtomSpec :=
  { op := op, size := aBytes f, rets := aRets f, acq := aAcq f, rel := aRel f, count := cnt,
    lanes := (L.filter (·.unit = v)).map (laneOf op f c) }

theorem atomParts_eq (s : State) (cnt : Nat) (l : List Spot) : atomParts s c op f cnt l =
    (unitsIn (atUnits s c l)).map fun v => (v, specAt op f c cnt (atUnits s c l) v) := rfl

theorem mem_atomParts {cnt : Nat} {p : UnitRef × AtomSpec} (hp : p ∈ atomParts s c op f cnt l) :
    p.2.size = aBytes f ∧ ∀ y ∈ p.2.lanes, ∃ x ∈ l, y.addr = x.key := by
  rw [atomParts_eq] at hp
  obtain ⟨v, -, rfl⟩ := List.mem_map.1 hp
  refine ⟨rfl, fun y hy => ?_⟩
  obtain ⟨z, hz, rfl⟩ := List.mem_map.1 hy
  obtain ⟨x, hx, rfl⟩ := List.mem_map.1 (List.mem_of_mem_filter hz)
  exact ⟨x, hx, rfl⟩

theorem aBytes_pos (f : AFmt) : 0 < aBytes f := Nat.two_pow_pos _

/-- Pieces in a scratchpad lie above HBM. -/
theorem atom_upper (hl : s.access c (atomAcc op f) (atomAddrs f c) = .ok l) (hsp : f.space.toNat < 3) (hx : x ∈ l) : 4 * region ≤ x.key := by
  have hspace : (atomAcc op f).space < 3 := hsp
  obtain ⟨p, -, -, hin⟩ := mem_access (show 0 < (atomAcc op f).step from aBytes_pos f) hl hx
  have := alloc_upper s c (atomAcc op f).space
  rw [(hin hspace).key]
  omega

theorem upper_atomParts (hl : s.access c (atomAcc op f) (atomAddrs f c) = .ok l) (hsp : f.space.toNat < 3) {s' : State} {cnt : Nat}
    {p : UnitRef × AtomSpec} (hp : p ∈ atomParts s' c op f cnt l) : Upper p.2 := by
  obtain ⟨hsize, hlanes⟩ := mem_atomParts hp
  refine ⟨hsize ▸ aBytes_pos f, fun y hy => ?_⟩
  obtain ⟨x, hx, e⟩ := hlanes y hy
  have := atom_upper hl hsp hx
  rw [e]
  omega

/-! ## How many operations the places perform -/

theorem sum_over_units {U : List UnitRef} (hU : U.Nodup) {L : List Spot} (hL : ∀ x ∈ L, x.unit ∈ U) (P : Spot → Bool) :
    (U.map fun v => ((L.filter (·.unit = v)).filter P).length).sum = (L.filter P).length := by
  induction L with
  | nil => simp
  | cons x L ih =>
    have hone : ∀ V : List UnitRef, V.Nodup →
        (V.map fun v => (((x :: L).filter (·.unit = v)).filter P).length).sum =
          (if x.unit ∈ V ∧ P x then 1 else 0) + (V.map fun v => ((L.filter (·.unit = v)).filter P).length).sum := by
      intro V hV
      induction V with
      | nil => simp
      | cons v V ihV =>
        obtain ⟨hv, hV⟩ := List.nodup_cons.1 hV
        rw [List.map_cons, List.sum_cons, List.map_cons, List.sum_cons, ihV hV]
        by_cases hx : x.unit = v
        · subst hx
          cases hP : P x <;> simp [hP, hv]
          omega
        · simp [hx]
          omega
    rw [hone U hU, ih fun y hy => hL y (List.mem_cons_of_mem _ hy), List.filter_cons]
    cases hP : P x <;> simp [hL x List.mem_cons_self]
    omega

/-- Of a CAS the lowest lane at an address of a place is its first. -/
def firstAt (op : AtomOp) (L : List Spot) (x : Spot) : Bool :=
  decide (op ≠ .cas ∨ (L.find? fun y => y.key = x.key && y.unit = x.unit).map (·.lane) = some x.lane)

theorem length_effective (L : List Spot) (cnt : Nat) (v : UnitRef) :
    (effective (specAt op f c cnt L v)).length = ((L.filter (·.unit = v)).filter (firstAt op L)).length := by
  unfold effective
  by_cases hop : op = .cas
  · rw [if_pos (show (specAt op f c cnt L v).op = .cas from hop)]
    show (((L.filter (·.unit = v)).map (laneOf op f c)).filter _).length = _
    rw [List.filter_map, List.length_map]
    congr 1
    refine List.filter_congr fun x hx => ?_
    have hxv : x.unit = v := by simpa using (List.mem_filter.1 hx).2
    have hfind : ((specAt op f c cnt L v).lanes.find? fun y => y.addr = (laneOf op f c x).addr) =
        (L.find? fun y => y.key = x.key && y.unit = x.unit).map (laneOf op f c) := by
      show ((L.filter (·.unit = v)).map (laneOf op f c)).find? _ = _
      rw [List.find?_map, List.find?_filter, hxv]
      congr 2
      funext y
      rw [Bool.eq_iff_iff]
      simp only [laneOf, Function.comp_apply, decide_eq_true_eq, Bool.and_eq_true]
      exact ⟨fun h => ⟨of_decide_eq_true h.2, h.1⟩, fun h => ⟨h.2, decide_eq_true h.1⟩⟩
    simp only [Function.comp_apply]
    rw [hfind, Option.map_map, firstAt]
    simp [hop, laneOf, Function.comp_def]
  · rw [if_neg (show ¬ (specAt op f c cnt L v).op = .cas from hop)]
    show ((L.filter (·.unit = v)).map (laneOf op f c)).length = _
    have hall : ∀ x, firstAt op L x = true := fun x => by simp [firstAt, hop]
    rw [List.length_map, List.filter_eq_self.2 fun x _ => hall x]

theorem foldl_add_eq {α : Type} (g : α → Nat) (l : List α) (n : Nat) : l.foldl (fun a p => a + g p) n = n + (l.map g).sum := by
  induction l generalizing n with
  | nil => rfl
  | cons p l ih => rw [List.foldl_cons, ih, List.map_cons, List.sum_cons, Nat.add_assoc]

/-- Each lane that performs an operation is counted once (R149). -/
theorem atomDrains_eq (op : AtomOp) (f : AFmt) (c : Issuer) (l : List Spot) (s : State) : atomDrains op f c l s =
    (l.filter fun x => decide (op ≠ .cas ∨
      (l.find? fun y => y.key = x.key && atomUnit s c y = atomUnit s c x).map (·.lane) = some x.lane)).length := by
  have hcover : ∀ x ∈ atUnits s c l, x.unit ∈ unitsIn (atUnits s c l) := fun x hx => mem_unitsIn.2 ⟨x, hx, rfl⟩
  rw [atomDrains, atomPlaces_eq, foldl_add_eq, Nat.zero_add, atomParts_eq, List.map_map]
  simp only [Function.comp_def, length_effective]
  rw [sum_over_units (nodup_unitsIn _) hcover, atUnits, List.filter_map, List.length_map]
  congr 1
  refine List.filter_congr fun x _ => ?_
  simp only [Function.comp_apply, firstAt, List.find?_map, Option.map_map, Function.comp_def]

/-! ## The write buffer's entries -/

theorem drainEntries_atom {g : Group} {gid cid : Nat} {agent : Option (Nat × Mask)} {bytes : FMap SbByte} {e : WbEntry}
    (he : e ∈ drainEntries g gid cid agent bytes) : e.atom = none := by
  obtain ⟨k, -, h⟩ := List.mem_filterMap.1 he
  dsimp only at h
  split at h
  · cases h
  · cases h; rfl

/-- The entries of an atomic are the last of its group's. -/
theorem drainAtomic_group {g : Group} (hg : s.group? c.ref.gid = some g) (pid : Nat) (parts : List (UnitRef × AtomSpec)) :
    ∃ h es, (drainAtomic c pid parts s).group? c.ref.gid = some h ∧ h.draining = g.draining ++ es ∧
      (es.filter fun e => e.atom.isSome && e.pid = some (c.ref.wid, pid)).length = (parts.map fun p => (effective p.2).length).sum := by
  unfold drainAtomic
  simp only [hg, modGroup_self]
  rw [drainFirst_group (s := s.expose g) hg]
  refine ⟨_, _, rfl, List.append_assoc .., ?_⟩
  rw [List.filter_append, List.filter_eq_nil_iff.2 fun e he => by simp [drainEntries_atom he], List.nil_append,
    List.filter_eq_self.2 fun e he => ?_, List.length_flatMap]
  · simp
  · obtain ⟨p, -, he⟩ := List.mem_flatMap.1 he
    obtain ⟨y, -, rfl⟩ := List.mem_map.1 he
    simp

end Sys2Proof.Laws
end

section
/-! SUPPORT. The ways of an atomic (R146 to R151), each with what it leaves. -/

namespace Sys2Proof.Laws

open Sys2Proof.Machine

variable {i : Instr} {c : Issuer} {s t u : State} {op : AtomOp} {f : AFmt} {l : List Spot} {x : Spot}

/-! ## The ways -/

/-- It is held until the task retires or the pair commits (R304, R347). -/
def atomIsHeld (f : AFmt) (c : Issuer) : Prop := aRets f = false ∧
  ((3 ≤ f.space.toNat ∧ c.task.determ = true) ∨ (c.task.redundant = true ∧ 2 ≤ f.space.toNat))

/-- The state after an atomic whose accesses pass the checks. -/
inductive AtomWay (op : AtomOp) (f : AFmt) (c : Issuer) (l : List Spot) (s : State) : State → Prop
  | idle (h0 : c.env.active f.guard = 0) : AtomWay op f c l s (s.later c (atomRow op f) 6 [])
  | held (ha : c.env.active f.guard ≠ 0) (hheld : atomIsHeld f c) : AtomWay op f c l s ((atomHeld op f c l s).later c (atomRow op f) 1 [])
  | drained (ha : c.env.active f.guard ≠ 0) (hsp : 3 ≤ f.space.toNat) (hrets : aRets f = false) (hwide : wideRelease f.order f.scope = false)
      (hdet : c.task.determ = false) : AtomWay op f c l s (atomDrained op f c l s)
  | performed (ha : c.env.active f.guard ≠ 0) (hsp : f.space.toNat < 3) : AtomWay op f c l s (atomPerformed op f c l s)
  | asked (ha : c.env.active f.guard ≠ 0) (hwait : f.space.toNat < 3 → atomReady f c s = false)
      (hdet : 3 ≤ f.space.toNat → aRets f = false → c.task.determ = false ∧ wideRelease f.order f.scope = true) : AtomWay op f c l s (atomAsked op f c l s)

theorem atomEff_way (hr : atomRefused f c = false) (hl : s.access c (atomAcc op f) (atomAddrs f c) = .ok l)
    (hfull : 3 ≤ f.space.toNat → aRets f = false → c.task.determ = true → c.grp.full [2 ^ 80] = false) :
    ∃ t, atomEff (atomRow op f) op f c s = .ok t ∧ AtomWay op f c l s t := by
  by_cases ha : c.env.active f.guard = 0
  · exact ⟨_, atomEff_idle hr ha, .idle ha⟩
  cases hdet : decide (3 ≤ f.space.toNat) && !aRets f && c.task.determ with
  | true =>
    simp only [Bool.and_eq_true, decide_eq_true_eq, Bool.not_eq_true'] at hdet
    obtain ⟨⟨hsp, hrets⟩, hd⟩ := hdet
    exact ⟨_, atomEff_held hr ha hl (by simp [hsp, hrets, hd]) (hfull hsp hrets hd), .held ha ⟨hrets, .inl ⟨hsp, hd⟩⟩⟩
  | false =>
  cases hpair : c.task.redundant && decide (2 ≤ f.space.toNat) && !aRets f && !wideRelease f.order f.scope with
  | true =>
    refine ⟨_, atomEff_heldPair hr ha hl hdet hpair, .held ha ?_⟩
    simp only [Bool.and_eq_true, decide_eq_true_eq, Bool.not_eq_true'] at hpair
    exact ⟨hpair.1.2, .inr hpair.1.1⟩
  | false =>
  cases hdrain : decide (3 ≤ f.space.toNat) && !aRets f && !wideRelease f.order f.scope with
  | true =>
    refine ⟨_, atomEff_drained hr ha hl hdet hpair hdrain, ?_⟩
    simp only [Bool.and_eq_true, decide_eq_true_eq, Bool.not_eq_true'] at hdrain
    obtain ⟨⟨hsp, hrets⟩, hwide⟩ := hdrain
    exact .drained ha hsp hrets hwide (by simpa [hsp, hrets] using hdet)
  | false =>
  cases hready : !decide (3 ≤ f.space.toNat) && atomReady f c s with
  | true =>
    refine ⟨_, atomEff_performed hr ha hl hdet hpair hdrain hready, .performed ha ?_⟩
    simp only [Bool.and_eq_true, Bool.not_eq_true', decide_eq_false_iff_not] at hready
    omega
  | false =>
    refine ⟨_, atomEff_asked hr ha hl hdet hpair hdrain hready, .asked ha (fun hsp => ?_) fun hsp hrets => ⟨?_, ?_⟩⟩
    · simpa [not_le.2 hsp] using hready
    · simpa [hsp, hrets] using hdet
    · simpa [hsp, hrets] using hdrain

theorem atom_way (h : MayIssue (atomRow op f) c s) (hr : atomRefused f c = false) (hl : atomPieces op f c s = .ok l)
    (hfull : 3 ≤ f.space.toNat → aRets f = false → c.task.determ = true → c.grp.full [2 ^ 80] = false) :
    ∃ t, exec (atomRow op f) s = .next t ∧ AtomWay op f c l (issued (atomRow op f) c s) t := by
  rw [atomPieces_eq] at hl
  obtain ⟨t, he, hw⟩ := atomEff_way hr hl hfull
  exact ⟨t, by rw [atomRow_effect h, he], hw⟩

/-! ## Where one operation is left after accesses have been ordered -/

theorem drainAtomic_warps (pid : Nat) (parts : List (UnitRef × AtomSpec)) (s : State) : (drainAtomic c pid parts s).warps = s.warps := by
  unfold drainAtomic State.drainFirst
  split
  · rfl
  · dsimp only
    split <;> rfl

section ordered
variable (hi : s.issuer = some c)
include hi

theorem held_own (op : AtomOp) (f : AFmt) (l : List Spot) : ∃ q, OwnWarp (atomRow op f) c s
    ((atomHeld op f c l (issued (atomRow op f) c s)).later c (atomRow op f) 1 []) q ∧
    OtherWarps c s ((atomHeld op f c l (issued (atomRow op f) c s)).later c (atomRow op f) 1 []) ∧ q.kind = .long ∧ q.writes = [] ∧ q.items = [] := by
  obtain ⟨hown, hothers⟩ := ordered_addPend hi (atomRow_profile op f c).1 (atomHeld_ordered op f c l _) rfl
  exact ⟨_, hown, hothers, rfl, rfl, rfl⟩

theorem drained_own (op : AtomOp) (f : AFmt) (l : List Spot) : ∃ q, OwnWarp (atomRow op f) c s (atomDrained op f c l (issued (atomRow op f) c s)) q ∧
    OtherWarps c s (atomDrained op f c l (issued (atomRow op f) c s)) ∧ q.kind = .atomic (aRets f) ∧
    q.left = atomDrains op f c l (issued (atomRow op f) c s) ∧ q.id = (atomBase op f c (issued (atomRow op f) c s)).fresh := by
  obtain ⟨hown, hothers⟩ := ordered_addPend (t := atomDrained op f c l (issued (atomRow op f) c s)) hi (atomRow_profile op f c).1
    (atomBase_ordered op f c _) (drainAtomic_warps ..)
  exact ⟨_, hown, hothers, rfl, rfl, rfl⟩

omit hi in
theorem asked_warps (op : AtomOp) (f : AFmt) (l : List Spot) (s : State) : (atomAsked op f c l s).warps =
    ((atomCommitted op f c s).1.addPend c (atomRow op f) (atomQueuePend op f c l s)).warps := by
  unfold atomAsked
  rw [requests_warps]
  split <;> rfl

theorem asked_own (op : AtomOp) (f : AFmt) (l : List Spot) : ∃ q, OwnWarp (atomRow op f) c s (atomAsked op f c l (issued (atomRow op f) c s)) q ∧
    OtherWarps c s (atomAsked op f c l (issued (atomRow op f) c s)) ∧ q.kind = .atomic (aRets f) ∧ q.items = atomItems c.env f ∧
    q.id = (atomCommitted op f c (issued (atomRow op f) c s)).1.fresh := by
  obtain ⟨hown, hothers⟩ := ordered_addPend hi (atomRow_profile op f c).1 (atomCommitted_ordered op f c _) (asked_warps op f l _)
  exact ⟨_, hown, hothers, rfl, rfl, rfl⟩

end ordered

theorem atomHeld_mem (op : AtomOp) (f : AFmt) (c : Issuer) (l : List Spot) (s : State) : (atomHeld op f c l s).mem = s.mem :=
  (atomHeld_ordered op f c l s).mem

theorem atomDrained_mem (op : AtomOp) (f : AFmt) (c : Issuer) (l : List Spot) (s : State) : (atomDrained op f c l s).mem = s.mem :=
  (drainAtomic_ordered ..).mem.trans (atomBase_ordered op f c s).mem

theorem atomAsked_mem (op : AtomOp) (f : AFmt) (c : Issuer) (l : List Spot) (s : State) : (atomAsked op f c l s).mem = s.mem := by
  have h := (atomCommitted_ordered op f c s).mem
  unfold atomAsked
  rw [requests_mem]
  split <;> exact h

/-- A place that performs part of the atomic has its request (R148, R151). -/
theorem atomAsked_request (hx : x ∈ l) (hsp : 3 ≤ f.space.toNat) (op : AtomOp) (c : Issuer) (s : State) :
    ∃ r ∈ ((atomAsked op f c l s).place (atomUnit s c x)).queue, r.gid = c.ref.gid ∧ r.pid = (atomCommitted op f c s).1.fresh ∧ r.after ≠ none := by
  have hunit : atomUnit s c x ∈ unitsIn (atUnits s c l) := mem_unitsIn.2 ⟨_, List.mem_map_of_mem hx, rfl⟩
  have hpart : (atomUnit s c x, specAt op f c (atomCnt op f c s) (atUnits s c l) (atomUnit s c x)) ∈ atomPlaces op f c l s := by
    rw [atomPlaces_eq, atomParts_eq]
    exact List.mem_map_of_mem (f := fun v => (v, specAt op f c (atomCnt op f c s) (atUnits s c l) v)) hunit
  obtain ⟨a, ha⟩ := requests_mem_queue (List.mem_map_of_mem (f := fun p : UnitRef × AtomSpec => (p.1, atomSent op f c s p.2)) hpart)
    (if op = .ld || f.space = 0 then (atomCommitted op f c s).1.addPend c (atomRow op f) (atomQueuePend op f c l s)
      else ((atomCommitted op f c s).1.addPend c (atomRow op f) (atomQueuePend op f c l s)).expose c.grp)
  exact ⟨_, ha, rfl, rfl, by simp [atomSent, hsp]⟩

/-! ## Where it is performed -/

/-- The registers of the issuing warp stand. -/
structure SameRegs (c : Issuer) (s t : State) : Prop where
  own : Option.Rel (fun w v : Warp => v.vregs = w.vregs ∧ v.sregs = w.sregs ∧ v.preds = w.preds) (s.warp? c.ref.gid c.ref.wid)
    (t.warp? c.ref.gid c.ref.wid)
  fresh : s.fresh ≤ t.fresh

namespace SameRegs

theorem trans (h : SameRegs c s t) (k : SameRegs c t u) : SameRegs c s u :=
  ⟨rel_trans (fun ⟨a, b, d⟩ ⟨a', b', d'⟩ => ⟨a'.trans a, b'.trans b, d'.trans d⟩) h.own k.own, h.fresh.trans k.fresh⟩

theorem ofOrdered (h : Ordered c s t) : SameRegs c s t := by
  exact ⟨rel_mono (fun h => ⟨by rw [h.rest], by rw [h.rest], by rw [h.rest]⟩) h.own, h.fresh⟩

theorem ofWarpsQuiet (h : WarpsQuiet s t) : SameRegs c s t := by
  exact ⟨rel_mono (fun h => ⟨by rw [h.rest], by rw [h.rest], by rw [h.rest]⟩) (h.warp _ _), h.fresh.ge⟩

/-- An operation is left outstanding where the registers stand. -/
theorem addPend (h : SameRegs c (issued i c s) u) (hi : s.issuer = some c) (he : (c.profile i).head.ends = false) (q : Pend) :
    Outstanding c (u.addPend c i q) (pendOf u c i q) ∧ s.fresh ≤ (pendOf u c i q).id := by
  obtain ⟨w, hw, hrest, -, -⟩ := issued_own hi he
  obtain ⟨v, hv, hvregs, hsregs, hpreds⟩ := rel_some h.own hw
  refine ⟨⟨{ v with pend := v.pend ++ [pendOf u c i q] }, ?_, List.mem_append_right _ List.mem_cons_self, ?_, ?_, ?_⟩,
    issued_fresh (i := i) (c := c) (s := s) ▸ h.fresh⟩
  · rw [addPend_eq, modWarp_self]
    exact congrArg (Option.map _) hv
  · show v.vregs = _; rw [hvregs, hrest]
  · show v.sregs = _; rw [hsregs, hrest]
  · show v.preds = _; rw [hpreds, hrest]

end SameRegs

/-- The state in which the first lane is performed. -/
def atomStart (op : AtomOp) (f : AFmt) (c : Issuer) (s : State) : State :=
  if f.space = 0 || op = .ld then (atomCommitted op f c s).1 else (atomCommitted op f c s).1.expose c.grp

theorem atomStart_ordered (op : AtomOp) (f : AFmt) (c : Issuer) (s : State) : Ordered c s (atomStart op f c s) := by
  unfold atomStart
  split
  · exact atomCommitted_ordered op f c s
  · exact (atomCommitted_ordered op f c s).trans (.expose _)

theorem atomRun_warps (hl : s.access c (atomAcc op f) (atomAddrs f c) = .ok l) (hsp : f.space.toNat < 3) :
    WarpsQuiet (atomStart op f c s) (atomRun op f c l s).st := by
  have hup : ∀ p ∈ atomPlaces op f c l s, Upper p.2 := fun p hp => upper_atomParts hl hsp (atomPlaces_eq op f c l s ▸ hp)
  have hfold : ∀ (parts : List (UnitRef × AtomSpec)) (stamp : Nat → Option Stamp) (r : AtomRun), (∀ p ∈ parts, Upper p.2) →
      WarpsQuiet r.st (parts.foldl (atomRunStep c stamp) r).st := by
    intro parts stamp
    induction parts with
    | nil => exact fun _ _ => .refl _
    | cons p parts ih =>
      intro r h
      exact (WarpsQuiet.atomAt (h p List.mem_cons_self) ..).trans (ih (atomRunStep c stamp r p) fun q hq => h q (List.mem_cons_of_mem _ hq))
  exact hfold _ _ { st := atomStart op f c s } hup

/-- What it leaves outstanding, with the registers as they were. -/
theorem performed_own (hi : s.issuer = some c) (hl : atomPieces op f c s = .ok l) (hsp : f.space.toNat < 3) :
    ∃ q, Outstanding c (atomPerformed op f c l (issued (atomRow op f) c s)) q ∧ s.fresh ≤ q.id ∧ q.kind = .long ∧
      q.due = s.cycle + delayOf f.space.toNat l ∧ q.items = atomItems c.env f ∧ q.flag = postFlag f.post ∧
      q.got = (atomRun op f c l (issued (atomRow op f) c s)).got := by
  rw [atomPieces_eq] at hl
  have hregs : SameRegs c (issued (atomRow op f) c s) _ :=
    ((SameRegs.ofOrdered (atomStart_ordered op f c _)).trans (.ofWarpsQuiet (atomRun_warps hl hsp))).trans
      (.ofOrdered (.atomAcquire (atomRun op f c l (issued (atomRow op f) c s)).st.fresh c.split.held (aAcq f)
        (atomRun op f c l (issued (atomRow op f) c s)).reads))
  obtain ⟨hout, hid⟩ := hregs.addPend hi (atomRow_profile op f c).1 _
  refine ⟨_, hout, hid, rfl, ?_, rfl, ?_, rfl⟩
  · show (issued (atomRow op f) c s).cycle + _ = _
    rw [issued_cycle]
  · show postFlag (c.profile (atomRow op f)).head.post = _
    rw [(atomRow_profile op f c).2]

theorem atomPerformed_mem (op : AtomOp) (f : AFmt) (c : Issuer) (l : List Spot) (s : State) :
    (atomPerformed op f c l s).mem = (atomRun op f c l s).st.mem :=
  (Ordered.atomAcquire (c := c) (s := (atomRun op f c l s).st) (atomRun op f c l s).st.fresh c.split.held (aAcq f) (atomRun op f c l s).reads).mem

/-- Where one place performs it, it is performed as the lanes at one place (R149). -/
theorem atomRun_one {p : UnitRef × AtomSpec} (hp : atomPlaces op f c l s = [p]) : ∃ stamp,
    (atomRun op f c l s).st = (atomAt (atomStart op f c s) c.grp stamp p.2).st ∧
    ∀ k, fget 0 k (atomRun op f c l s).got = fget 0 k (atomAt (atomStart op f c s) c.grp stamp p.2).got := by
  unfold atomRun
  rw [hp]
  refine ⟨_, rfl, fun k => ?_⟩
  show fget 0 k (List.foldl _ [] (atomAt (atomStart op f c s) c.grp _ p.2).got) = _
  rw [fget_foldl_fset (atomAt_canon ..)]
  split
  · rename_i h; rw [h]; rfl
  · rfl

/-- Without a wide release nothing commits in a scratchpad, and the first lane finds memory as it was. -/
theorem atomStart_same (hsp : f.space.toNat < 3) (hwide : wideRelease f.order f.scope = false) (op : AtomOp) (c : Issuer) (s : State) :
    SameData s (atomStart op f c s) := by
  have hcommit : (atomCommitted op f c s).1 = atomBase op f c s := by
    simp [atomCommitted, atomNeedsCommit, commitFor, hwide, not_le.2 hsp]
  have hbase : SameData s (atomBase op f c s) := by
    have h := (atomReleased_awaiting op f c s).rest
    unfold atomBase
    exact ⟨by rw [h], by rw [h], by rw [h], by rw [h], by rw [h], by rw [h]⟩
  unfold atomStart
  rw [hcommit]
  split
  · exact hbase
  · exact hbase.trans ⟨rfl, rfl, rfl, rfl, rfl, rfl⟩

theorem issued_sameData (he : (c.profile i).head.ends = false) : SameData s (issued i c s) := by
  have h := issued_rest (c := c) (i := i) (s := s) he
  exact ⟨by rw [h], by rw [h], by rw [h], by rw [h], by rw [h], by rw [h]⟩

end Sys2Proof.Laws
end

section
/-! SUPPORT. An atomic of a single lane in a scratchpad (R145, R148): its bytes, the bytes beside them and the value that comes back. -/

namespace Sys2Proof.Laws

open Sys2Proof.Machine

variable {c : Issuer} {s : State} {op : AtomOp} {f : AFmt} {l : List Spot} {x : Spot}

/-- The bytes after an operation that stores a value, or none and validates the bench words that it has read (R143). -/
def laneStored (s : State) (x : Spot) (o : Option Nat) : List Host.Cell :=
  match o with
  | some v => written s.mem x.key (natBytes x.n v)
  | none => if keyRegion x.key = 4 then (s.setValid x.key x.n 1).mem else s.mem

section stored
variable (hup : 4 * region ≤ x.key) (hend : x.key + x.n ≤ 9 * region) (hpos : 0 < x.n)
include hup hend hpos

theorem banked_one (v : Nat) : Banked (fun x => natBytes x.n v) [x] := by
  refine ⟨fun y hy => ?_, fun y _ => length_natBytes .., fun y hy => ?_, fun y hy _ _ _ => ?_⟩
  all_goals obtain rfl := List.mem_singleton.1 hy
  exacts [hup, hpos, hend]

theorem laneStored_other (o : Option Nat) {a : Nat} (hholds : x.holds a = false) (hvalid : x.validates a = false) :
    rdByte (laneStored s x o) a = rdByte s.mem a := by
  cases o with
  | some v => exact (banked_one hup hend hpos v).written_other List.mem_cons_self hholds hvalid s.mem
  | none =>
    unfold laneStored
    dsimp only
    split
    · rename_i h4
      refine rdByte_foldl_wrByte (fun w hw e => ?_) s.mem
      have : x.validates a = true := by
        simp only [Spot.validates, h4, decide_true, Bool.true_and, List.any_eq_true]
        exact ⟨w, hw, by simpa using e⟩
      simp [this] at hvalid
    · rfl

theorem laneStored_own (hwf : Memory.wf s.mem = true) (hn : x.n ≤ region) (o : Option Nat) :
    rdBytes (laneStored s x o) x.key x.n = natBytes x.n (o.getD (bytesNat (rdBytes s.mem x.key x.n))) := by
  cases o with
  | some v =>
    have h := rdBytes_written (m := s.mem) (key := x.key) (bs := natBytes x.n v) hwf (by omega) (by rwa [length_natBytes])
    rwa [length_natBytes] at h
  | none =>
    rw [Option.getD_none, natBytes_rdBytes]
    unfold laneStored
    dsimp only
    split
    · refine List.map_congr_left fun k hk => rdByte_foldl_wrByte (fun w _ e => ?_) s.mem
      have hk := List.mem_range.1 hk
      rw [(banked_one hup hend hpos 0).cell_eq List.mem_cons_self] at e
      unfold validKey at e
      omega
    · rfl

end stored

theorem specAt_one (op : AtomOp) (f : AFmt) (c : Issuer) (cnt : Nat) (s : State) :
    (specAt op f c cnt (atUnits s c [x]) (atomUnit s c x)).lanes = [laneOf op f c x] := by
  simp [specAt, atUnits, laneOf]

/-- Where one place performs the atomic, the result is that of the lanes at one place, whatever count they carry. -/
theorem performed_parts (hl : s.access c (atomAcc op f) (atomAddrs f c) = .ok l) (hsp : f.space.toNat < 3)
    (hwide : wideRelease f.order f.scope = false) {t : State} (ht : SameData t s) {cnt : Nat} {p : UnitRef × AtomSpec} (hp : atomParts s c op f cnt l = [p])
    (stamp : Nat → Option Stamp) : (atomPerformed op f c l s).mem = (atomAt t c.grp stamp p.2).st.mem ∧
      ∀ k, fget 0 k (atomRun op f c l s).got = fget 0 k (atomAt t c.grp stamp p.2).got := by
  have hplaces : atomPlaces op f c l s = [(p.1, { p.2 with count := atomCnt op f c s })] := by
    rw [atomPlaces_eq, atomParts_count s cnt, hp]; rfl
  obtain ⟨stamp', hst, hgot⟩ := atomRun_one hplaces
  have hup : Upper p.2 := upper_atomParts hl hsp (hp ▸ List.mem_singleton.2 rfl)
  have hsame : SameRun (atomAt t c.grp stamp p.2) (atomAt (atomStart op f c s) c.grp stamp' p.2) :=
    atomAt_same (ht.trans (atomStart_same hsp hwide op c s)) hup ..
  refine ⟨?_, fun k => ?_⟩
  · rw [atomPerformed_mem, hst]
    exact hsame.st.mem
  · rw [hgot]
    exact congrArg (fget 0 k) hsame.got

theorem performed_one (hl : s.access c (atomAcc op f) (atomAddrs f c) = .ok [x]) (hsp : f.space.toNat < 3)
    (hwide : wideRelease f.order f.scope = false) {t : State} (ht : SameData t s) (hn : x.n = aBytes f) (hpoison : t.poison = []) (hsoft : t.soft = []) :
    (atomPerformed op f c [x] s).mem = laneStored t x (atomNew op x.n (bytesNat (rdBytes t.mem x.key x.n)) (laneOf op f c x).b (laneOf op f c x).c) ∧
    ∀ k, fget 0 k (atomRun op f c [x] s).got = fget 0 k (putBytes [] (256 * x.lane) (rdBytes t.mem x.key x.n)) := by
  have hparts : atomParts s c op f 0 [x] = [(atomUnit s c x, specAt op f c 0 (atUnits s c [x]) (atomUnit s c x))] := by rw [atomParts_eq]; rfl
  obtain ⟨hmem, hgot⟩ := performed_parts hl hsp hwide ht hparts fun _ => none
  have hup : region ≤ x.key := by have := atom_upper hl hsp List.mem_cons_self; omega
  rw [atomAt_one (specAt_one op f c 0 s)] at hmem hgot
  rw [hmem, hn]
  refine ⟨(atomLane_mem (aBytes_pos f) hup hpoison hsoft).trans ?_, fun k => ?_⟩
  · unfold laneStored
    rw [hn]; rfl
  · rw [hgot, atomLane_got hup hpoison]
    rfl

end Sys2Proof.Laws
end

section
namespace Sys2Proof.Laws

open Sys2Proof.Machine

/-- Settles O15, by the ways that an atomic goes. -/
theorem atomicsPerformAndComplete : Obligations.AtomicsPerformAndComplete := by
  refine ⟨fun op f c s l h hr hsp hrel hfence hacq hred hl => ?scratch, fun op f c s l h hr hsp hred hl hfull => ?memory,
    fun op f c s l h hr hl hfull => ?complete⟩
  case scratch =>
    have hwide : wideRelease f.order f.scope = false := by simp_all [wideRelease, aRel]
    have he := (atomRow_profile op f c).1
    obtain ⟨t, ht, hway⟩ := atom_way h hr hl fun h3 => absurd hsp (by omega)
    have hsame : SameData s (issued (atomRow op f) c s) := issued_sameData he
    have hpieces : (issued (atomRow op f) c s).access c (atomAcc op f) (atomAddrs f c) = .ok l := hl
    cases hway with
    | held _ hheld =>
      obtain ⟨-, ⟨h3, -⟩ | ⟨hr1, h2⟩⟩ := hheld
      · omega
      · rcases hred with hr0 | h1
        · rw [hr0] at hr1; cases hr1
        · omega
    | drained _ h3 => omega
    | asked _ hwait => simp [atomReady, hwide, hrel] at hwait; omega
    | idle h0 =>
      have hnil : l = [] := by
        rw [atomAddrs, h0, bitsSet_zero, List.map_nil, access_nil] at hpieces
        exact (Except.ok.inj hpieces).symm
      subst hnil
      obtain ⟨⟨⟨w, hw, hrest, -⟩, hop⟩, -⟩ := ordered_addPend h.issuer he (.refl c _) rfl
      refine ⟨_, _, ht, ⟨w, hw, by rw [hrest]; exact List.mem_append_right _ List.mem_cons_self, by rw [hrest], by rw [hrest], by rw [hrest]⟩,
        rfl, ?_, ?_, ?_, fun cnt p st hp => ?_, fun x hx => by cases hx⟩
      · show (issued (atomRow op f) c s).cycle + 6 = _
        rw [issued_cycle]; rfl
      · show [] = atomItems c.env f
        rw [atomItems, h0, bitsSet_zero]
        split <;> rfl
      · exact hop.2.2.2.trans (by rw [(atomRow_profile op f c).2])
      · cases hp
    | performed _ _ =>
      obtain ⟨q, hout, -, hkind, hdue, hitems, hflag, hgot⟩ := performed_own h.issuer hl hsp
      refine ⟨_, q, ht, hout, hkind, hdue, hitems, hflag, fun cnt p st hp => ?_, fun x hx hwf hpoison hsoft hkey hn => ?_⟩
      · rw [hgot]
        exact performed_parts hpieces hsp hwide hsame hp st
      · subst hx
        obtain ⟨hmem, hbytes⟩ := performed_one hpieces hsp hwide hsame hn hpoison hsoft
        have hup := atom_upper hpieces hsp List.mem_cons_self
        have hpos : 0 < x.n := hn ▸ aBytes_pos f
        have hn' : x.n ≤ 2 ^ 8 := hn ▸ Nat.pow_le_pow_right (by norm_num) (by have := f.size.isLt; omega)
        have hregion : 2 ^ 33 ≤ region := by unfold region; norm_num
        have hend : x.key + x.n ≤ 9 * region := by
          have : x.key < 7 * region := by
            refine (Nat.div_lt_iff_lt_mul region_pos).1 ?_
            unfold keyRegion at hkey
            simp only [List.mem_cons, List.not_mem_nil, or_false] at hkey
            omega
          omega
        refine ⟨?_, fun a hholds hvalid => ?_, ?_⟩
        · rw [hmem]
          exact laneStored_own hup hend hpos hwf (by omega) _
        · rw [hmem]
          exact laneStored_other hup hend hpos _ hholds hvalid
        · rw [hgot]
          simp only [hbytes]
          have := putBytes_bytes (256 * x.lane) (rdBytes s.mem x.key x.n)
          rwa [length_rdBytes] at this
  case memory =>
    have he := (atomRow_profile op f c).1
    have hg : (issued (atomRow op f) c s).group? c.ref.gid = some c.grp := by
      obtain ⟨-, hg, -⟩ := issuer_some h.issuer
      rw [issued_group]; exact hg
    obtain ⟨t, ht, hway⟩ := atom_way h hr hl fun _ hrets hdet => hfull hdet hrets
    cases hway with
    | performed _ h3 => omega
    | idle h0 =>
      obtain ⟨hown, hothers⟩ := ordered_addPend h.issuer he (.refl c _) rfl
      refine ⟨_, _, ht, hown, hothers, ?_, fun _ => ⟨rfl, ?_, rfl, rfl⟩, fun ha => absurd h0 ha, fun ha => absurd h0 ha, fun ha => absurd h0 ha⟩
      · rw [later_mem, issued_mem]
      · show (issued (atomRow op f) c s).cycle + 6 = _
        rw [issued_cycle]
    | held ha hheld =>
      obtain ⟨hrets, ⟨-, hdet⟩ | ⟨hr1, -⟩⟩ := hheld
      · obtain ⟨q, hown, hothers, hkind, hwrites, hitems⟩ := held_own h.issuer op f l
        obtain ⟨g, hg', hgheld⟩ := atomHeld_group hg op f l
        refine ⟨_, q, ht, hown, hothers, ?_, fun h0 => absurd h0 ha, fun _ hd => ?_, fun _ _ _ => ⟨g, _, hg', hgheld, hkind, hwrites, hitems⟩,
          fun _ hr1 => ?_⟩
        · rw [later_mem, atomHeld_mem, issued_mem]
        · rw [hd] at hdet; cases hdet
        · rw [hr1] at hrets; cases hrets
      · rw [hred] at hr1; cases hr1
    | drained ha _ hrets hwide hdet =>
      obtain ⟨q, hown, hothers, hkind, hleft, hid⟩ := drained_own h.issuer op f l
      obtain ⟨g0, hg0, hrest⟩ := atomBase_group hg op f
      obtain ⟨g, es, hg', hdrain, hcount⟩ := drainAtomic_group (c := c) (s := (atomBase op f c (issued (atomRow op f) c s)).addPend c (atomRow op f)
          { atomPend f c l (issued (atomRow op f) c s) with left := atomDrains op f c l (issued (atomRow op f) c s) }) hg0
        (atomBase op f c (issued (atomRow op f) c s)).fresh (atomPlaces op f c l (issued (atomRow op f) c s))
      refine ⟨_, q, ht, hown, hothers, ?_, fun h0 => absurd h0 ha, fun _ _ _ _ => ⟨by rw [hkind, hrets], by rw [hleft, atomDrains_eq], g, es, hg', ?_, ?_⟩,
        fun _ hd => ?_, fun _ hr1 => ?_⟩
      · rw [atomDrained_mem, issued_mem]
      · rw [hdrain, hrest]
      · rw [hid, hcount, hleft, atomDrains, foldl_add_eq, Nat.zero_add]
      · rw [hd] at hdet; cases hdet
      · rw [hr1] at hrets; cases hrets
    | asked ha _ hdet =>
      obtain ⟨q, hown, hothers, hkind, hitems, hid⟩ := asked_own h.issuer op f l
      refine ⟨_, q, ht, hown, hothers, ?_, fun h0 => absurd h0 ha, fun _ _ hrets hwide => ?_, fun _ hd hrets => ?_, fun _ hrets => ⟨by rw [hkind, hrets], hitems,
        fun x hx => hid ▸ atomAsked_request hx hsp op c _⟩⟩
      · rw [atomAsked_mem, issued_mem]
      · have := (hdet hsp hrets).2
        rw [hwide] at this; cases this
      · have := (hdet hsp hrets).1
        rw [hd] at this; cases this
  case complete =>
    obtain ⟨t, ht, hway⟩ := atom_way h hr hl hfull
    have hpost := (atomRow_profile op f c).2
    have hdone : ∀ {q}, OwnWarp (atomRow op f) c s t q → ∃ t w q, exec (atomRow op f) s = .next t ∧ t.warp? c.ref.gid c.ref.wid = some w ∧
        q ∈ w.pend ∧ s.fresh ≤ q.id ∧ q.flag = postFlag f.post ∧ w.vregs = c.warp.vregs ∧ w.sregs = c.warp.sregs ∧ w.preds = c.warp.preds := by
      rintro q ⟨⟨w, hw, hrest, -⟩, hid, -, -, hflag⟩
      exact ⟨t, w, q, ht, hw, by rw [hrest]; simp, hid, by rw [hflag, hpost], by rw [hrest], by rw [hrest], by rw [hrest]⟩
    cases hway with
    | idle => exact hdone (ordered_addPend h.issuer (atomRow_profile op f c).1 (.refl c _) rfl).1
    | held =>
      obtain ⟨q, hown, -⟩ := held_own h.issuer op f l
      exact hdone hown
    | drained =>
      obtain ⟨q, hown, -⟩ := drained_own h.issuer op f l
      exact hdone hown
    | asked =>
      obtain ⟨q, hown, -⟩ := asked_own h.issuer op f l
      exact hdone hown
    | performed _ hsp =>
      obtain ⟨q, ⟨w, hw, hq, hvregs, hsregs, hpreds⟩, hid, -, -, -, hflag, -⟩ := performed_own h.issuer hl hsp
      exact ⟨_, w, q, ht, hw, hq, hid, hflag, hvregs, hsregs, hpreds⟩

end Sys2Proof.Laws
end

section
/-! SUPPORT. The places of memory (R140, R216, R217, R244 to R246): what starting a request, a store at its place and an answer leave alone,
and the bytes of a write performed as runs. -/

namespace Sys2Proof.Laws

open Sys2Proof.Machine

variable {s t : State} {u v : UnitRef} {r : Req}

/-! ## Places -/

theorem place_modPlace_ne (s : State) (h : unitIndex v ≠ unitIndex u) (f : Glazier → Glazier) : (s.modPlace u f).place v = s.place v := by
  unfold State.modPlace State.setPlace State.place
  rw [flook_fput_ne h]

/-- As many requests wait at a place when older ones are counted as passed. -/
theorem length_queue_started (s : State) (u : UnitRef) (n : Nat) (spans : List (Nat × Nat)) (v : UnitRef) :
    ((s.started u n spans).place v).queue.length = (s.place v).queue.length := by
  unfold State.started
  split
  · rfl
  · by_cases h : unitIndex v = unitIndex u
    · have hplace : ∀ x : State, x.place v = x.place u := fun x => by rw [State.place, h]; rfl
      rw [hplace, hplace, place_modPlace]
      exact List.length_map _
    · rw [place_modPlace_ne s h]

theorem takeReq_places (s : State) (u : UnitRef) (idx : Nat) (r : Req) : ∃ p, s.takeReq u idx r = { s with places := p } := by
  obtain ⟨p, hp⟩ := started_places (s.modPlace u fun p => { p with queue := p.queue.eraseIdx idx }) u (r.arrived.getD 0) r.spans
  exact ⟨p, hp⟩

theorem length_queue_takeReq {idx : Nat} (h : (s.place u).queue[idx]? = some r) (r' : Req) :
    ((s.takeReq u idx r').place u).queue.length + 1 = (s.place u).queue.length := by
  obtain ⟨hlt, -⟩ := List.getElem?_eq_some_iff.1 h
  unfold State.takeReq
  rw [length_queue_started, place_modPlace, List.length_eraseIdx_of_lt hlt]
  omega

/-- A request that may leaves its core's send queue (R217, R245). -/
theorem sendReq_sendable (h : s.sendable u r = true) (idx : Nat) : (s.sendReq u idx r).mem = s.mem ∧
    ((s.sendReq u idx r).place u).queue = (s.place u).queue.set idx { r with arrived := some s.fresh } := by
  unfold State.sendReq
  rw [if_pos h]
  refine ⟨rfl, ?_⟩
  rw [place_modPlace]
  rfl

theorem sendReq_waits (h : s.sendable u r = false) (idx : Nat) : s.sendReq u idx r = s := by
  unfold State.sendReq
  rw [if_neg (by simp [h])]

theorem arrived_of_servable (h : s.servable u r = true) : r.arrived.isNone = false := by
  unfold State.servable at h
  cases ha : r.arrived with
  | none => simp [ha] at h
  | some n => rfl

/-! ## Bytes where no frame is dead and no error stands -/

theorem found_alive (hdead : s.deadFr = []) (hpoison : s.poison = []) (key va n : Nat) :
    s.found key va n = { bytes := rdBytes s.mem key n, bad := none, dead := none } := by
  have hd : ∀ k, s.deadAt k = false := fun k => by simp [State.deadAt, State.deadCell, hdead, fget]
  simp [State.found, hd, hpoison, rdBytes]

/-! ## A store at a place where no frame is dead -/

/-- What a place has read of an object's methods is dropped. -/
def forgets (asid obj : Nat) (g : Glazier) : Glazier := { g with methods := g.methods.filter fun m => m.asid != asid || m.obj != obj }

theorem place_readTable (s : State) (asid obj : Nat) (v : UnitRef) :
    (s.readTable asid obj).place v = ((flook (unitIndex v) s.places).map (forgets asid obj)).getD {} :=
  congrArg (·.getD {}) (flook_map (forgets asid obj) (unitIndex v) s.places)

/-- A place as method tables are read again: its requests stand. -/
theorem queue_readTables (l : List (Nat × Nat)) (s : State) (v : UnitRef) :
    ((l.foldl (fun s p => s.readTable p.1 p.2) s).place v).queue = (s.place v).queue := by
  induction l generalizing s with
  | nil => rfl
  | cons p l ih =>
    rw [List.foldl_cons, ih]
    rw [place_readTable, State.place]
    cases flook (unitIndex v) s.places <;> rfl

theorem readTables_rest (l : List (Nat × Nat)) (s : State) :
    (l.foldl (fun s p => s.readTable p.1 p.2) s).deadFr = s.deadFr ∧ (l.foldl (fun s p => s.readTable p.1 p.2) s).wbanks = s.wbanks := by
  induction l generalizing s with
  | nil => exact ⟨rfl, rfl⟩
  | cons p l ih => exact ih _

section store
variable (hdead : s.deadFr = []) {key : Nat} (hkey : keyRegion key ≠ 4) (core : Nat) (bs : List Byte) (st : Option Stamp)
include hdead hkey

theorem store_rest : (s.store core key bs st).deadFr = [] ∧ (s.store core key bs st).wbanks = s.wbanks ∧
    ∀ v, ((s.store core key bs st).place v).queue = (s.place v).queue := by
  by_cases hbs : bs = []
  · subst hbs; exact ⟨hdead, rfl, fun _ => rfl⟩
  · rw [store_eq_readTables hdead hkey hbs]
    obtain ⟨h1, h2⟩ := readTables_rest ((s.put key bs st).targetsAt key bs.length) (s.put key bs st)
    exact ⟨h1.trans hdead, h2, fun v => queue_readTables ..⟩

end store

/-! ## Answers -/

theorem Awaiting.atomAcquire (gid wid pid : Nat) (lanes : Mask) (acq : Bool) (es : List SyncEntry) :
    Awaiting s (s.atomAcquire gid wid pid lanes acq es) := by
  unfold State.atomAcquire
  split
  · exact (Awaiting.modWarp ..).trans (.acquire ..)
  · exact .modWarp ..

/-- An operation that has got bytes, none of them dead. -/
def arrivedPend (got : FMap Byte) (bad : Option Nat) (q : Pend) : Pend :=
  { q with got := got.foldl (fun m p => fset 0 p.1 p.2 m) q.got, left := q.left - 1,
           bad := (least (q.bad.map (·.toNat)) bad).map (BitVec.ofNat 64), dead := (least (q.dead.map (·.toNat)) none).map (BitVec.ofNat 64) }

theorem arrive_alive (s : State) (gid wid pid : Nat) (got : FMap Byte) (bad : Option Nat) :
    s.arrive gid wid pid got bad none = s.modPend gid wid pid (arrivedPend got bad) := by
  unfold State.arrive
  dsimp only
  split <;> rfl

theorem Awaiting.arrive (gid wid pid : Nat) (got : FMap Byte) (bad : Option Nat) : Awaiting s (s.arrive gid wid pid got bad none) := by
  rw [arrive_alive]
  exact .modPend ..

/-! ## An atomic of one lane at its place -/

/-- Memory after the operation of a lane below the benches: what it stores (R145), or nothing. -/
def laneWrites (a : AtomSpec) (x : AtomLane) (m : List Host.Cell) : List Host.Cell :=
  match atomNew a.op a.size (bytesNat (rdBytes m x.addr a.size)) x.b x.c with
  | some v => wrBytes m x.addr (natBytes a.size v)
  | none => m

/-- Where no frame is dead and no error stands: what it stores, and the requests that wait. -/
theorem atomLane_low {g : Group} {stamp : Nat → Option Stamp} {a : AtomSpec} {x : AtomLane} (hx : keyRegion x.addr ≠ 4)
    (hdead : s.deadFr = []) (hpoison : s.poison = []) (hsoft : s.soft = []) :
    (atomLane g stamp a { st := s } x).st.mem = laneWrites a x s.mem ∧ (atomLane g stamp a { st := s } x).dead = none ∧
    ∀ v, ((atomLane g stamp a { st := s } x).st.place v).queue = (s.place v).queue := by
  have hskip : ((none : Option Nat).isSome || (decide (a.op = .cas) && ([] : List Nat).contains x.addr)) = false := by simp
  unfold atomLane laneWrites
  simp only [hskip, found_alive hdead hpoison, correct_soft hsoft, hx, Bool.false_eq_true, if_false]
  refine ⟨?_, by simp [least], ?_⟩
  · cases atomNew a.op a.size (bytesNat (rdBytes s.mem x.addr a.size)) x.b x.c with
    | some v => exact store_mem hdead hx
    | none => rfl
  · cases atomNew a.op a.size (bytesNat (rdBytes s.mem x.addr a.size)) x.b x.c with
    | some v => exact (store_rest hdead hx ..).2.2
    | none => exact fun _ => rfl

theorem performAtomic_glazier {g : Group} {gid wid pid : Nat} {stamp : Nat → Option Stamp} {a : AtomSpec} {x : AtomLane} (hu : u.kind = .glazier)
    (hlanes : a.lanes = [x]) (hx : keyRegion x.addr ≠ 4) (hdead : s.deadFr = []) (hpoison : s.poison = []) (hsoft : s.soft = []) :
    Awaiting (atomLane g stamp a { st := s } x).st (s.performAtomic g gid wid pid u a stamp) := by
  obtain ⟨-, hnone, -⟩ := atomLane_low (g := g) (stamp := stamp) (a := a) hx hdead hpoison hsoft
  unfold State.performAtomic
  rw [if_neg (by rw [hu]; decide)]
  simp only [peerRefusal, hu, reduceCtorEq, if_false, atomAt_one hlanes, hnone]
  exact ((Awaiting.atomAcquire ..).trans (.arrive ..)).trans (.modPend ..)

/-! ## Runs of bytes -/

/-- Bytes put at their cells, one after another. -/
def putCells (l : FMap SbByte) (m : List Host.Cell) : List Host.Cell := l.foldl (fun m p => wrByte m (cell p.1) p.2.val) m

theorem wrBytes_runs (l : FMap SbByte) (m : List Host.Cell) : (runsOf l).foldl (fun m r => wrBytes m r.1 r.2.1) m = putCells l m := by
  induction l generalizing m with
  | nil => rfl
  | cons p l ih =>
    obtain ⟨a, b⟩ := p
    rw [putCells, List.foldl_cons, ← putCells, ← ih]
    cases heq : runsOf l with
    | nil => simp only [runsOf, heq]; rfl
    | cons r more =>
      obtain ⟨k, bs, n⟩ := r
      simp only [runsOf, heq]
      split
      · rename_i hk
        subst hk
        rfl
      · rfl

theorem runsOf_starts {l : FMap SbByte} {x : Nat × List Byte × Nat} (hx : x ∈ runsOf l) : ∃ p ∈ l, p.1 = x.1 := by
  induction l generalizing x with
  | nil => simp [runsOf] at hx
  | cons p l ih =>
    obtain ⟨a, b⟩ := p
    unfold runsOf at hx
    split at hx
    · rename_i k bs c more heq
      rw [heq] at ih
      split at hx
      · rcases List.mem_cons.1 hx with rfl | hx
        · exact ⟨_, List.mem_cons_self, rfl⟩
        · obtain ⟨p, hp, h⟩ := ih (List.mem_cons_of_mem _ hx)
          exact ⟨p, List.mem_cons_of_mem _ hp, h⟩
      · rcases List.mem_cons.1 hx with rfl | hx
        · exact ⟨_, List.mem_cons_self, rfl⟩
        · obtain ⟨p, hp, h⟩ := ih hx
          exact ⟨p, List.mem_cons_of_mem _ hp, h⟩
    · obtain rfl := List.mem_singleton.1 hx
      exact ⟨_, List.mem_cons_self, rfl⟩

theorem rdByte_putCells_out {l : FMap SbByte} {a : Nat} (h : ∀ p ∈ l, cell p.1 ≠ a) (m : List Host.Cell) : rdByte (putCells l m) a = rdByte m a := by
  induction l generalizing m with
  | nil => rfl
  | cons p l ih =>
    exact (ih (fun q hq => h q (List.mem_cons_of_mem _ hq)) _).trans (rdByte_wrByte_ne (Ne.symm (h p List.mem_cons_self)))

theorem rdByte_putCells_in {l : FMap SbByte} {m : List Host.Cell} (hwf : Memory.wf m = true) (hcells : (l.map fun p => cell p.1).Nodup) {p : Nat × SbByte}
    (hp : p ∈ l) : rdByte (putCells l m) (cell p.1) = p.2.val := by
  induction l generalizing m with
  | nil => cases hp
  | cons q l ih =>
    obtain ⟨hq, hcells⟩ := List.nodup_cons.1 hcells
    rcases List.mem_cons.1 hp with rfl | hp
    · exact (rdByte_putCells_out (fun x hx e => hq (List.mem_map.2 ⟨x, hx, e⟩)) _).trans (rdByte_wrByte_self hwf)
    · exact ih (wf_wrByte _ _ hwf) hcells hp

/-- Runs stored one after another, where no frame is dead and no bench is written. -/
theorem stores_rest (core : Nat) (st : Nat × List Byte × Nat → Option Stamp) {l : List (Nat × List Byte × Nat)} (hl : ∀ x ∈ l, keyRegion x.1 ≠ 4) (hdead : s.deadFr = []) :
    (l.foldl (fun s r => s.store core r.1 r.2.1 (st r)) s).mem = l.foldl (fun m r => wrBytes m r.1 r.2.1) s.mem ∧
    (l.foldl (fun s r => s.store core r.1 r.2.1 (st r)) s).wbanks = s.wbanks := by
  induction l generalizing s with
  | nil => exact ⟨rfl, rfl⟩
  | cons x l ih =>
    have hx := hl x List.mem_cons_self
    obtain ⟨hd, hw, -⟩ := store_rest hdead hx core x.2.1 (st x)
    obtain ⟨hmem, hbanks⟩ := ih (fun y hy => hl y (List.mem_cons_of_mem _ hy)) hd
    exact ⟨hmem.trans (by rw [store_mem hdead hx]; rfl), hbanks.trans hw⟩

/-- A write of bytes of HBM performed. -/
theorem performWrite_bytes {e : WbEntry} (die : Nat) (hatom : e.atom = none) (hkeys : ∀ p ∈ e.bytes, keyRegion p.1 = 0) (hu : e.u.kind ≠ .peer)
    (hdead : s.deadFr = []) : (s.performWrite die e).mem = putCells e.bytes s.mem ∧ (s.performWrite die e).wbanks = s.wbanks := by
  unfold State.performWrite
  simp only [hatom, peerRefusal, hu, if_false]
  rw [← wrBytes_runs]
  refine stores_rest (l := runsOf e.bytes) _ (fun r => some ⟨e.group % 65536, r.2.2 % 256, e.task, 0⟩) (fun x hx => ?_) hdead
  obtain ⟨p, hp, h⟩ := runsOf_starts hx
  rw [← h, hkeys p hp]
  decide

end Sys2Proof.Laws
end

section
/-! SUPPORT. Requests, writes and commits at the places of memory, each event by what it finds (R140, R216, R217, R244 to R246, R347). -/

namespace Sys2Proof.Laws

open Sys2Proof.Machine

variable {s t : State} {u v : UnitRef} {r : Req} {idx : Nat}

/-- The event of the request at a place in the queue. -/
def requestEvent (u : UnitRef) (idx : Nat) (r : Req) : Instr := if r.pieces = [] then .atomicExecution u idx else .glazierRequestService u idx

theorem exec_requestService (u : UnitRef) (idx : Nat) (s : State) : exec (.glazierRequestService u idx) s = execGlazierRequestService u idx s := rfl
theorem exec_atomicExecution (u : UnitRef) (idx : Nat) (s : State) : exec (.atomicExecution u idx) s = execAtomicExecution u idx s := rfl
theorem exec_writeBufferDrain (die bank : Nat) (s : State) : exec (.writeBufferDrain die bank) s = execWriteBufferDrain die bank s := rfl
theorem exec_storeBufferCommit (gid : Nat) (s : State) : exec (.storeBufferCommit gid) s = execStoreBufferCommit gid s := rfl

section request
variable (hr : (s.place u).queue[idx]? = some r)
include hr

theorem requestEvent_sends (harrived : r.arrived = none) : exec (requestEvent u idx r) s = .next (s.sendReq u idx r) := by
  unfold requestEvent
  split
  · rename_i hp
    rw [exec_atomicExecution, execAtomicExecution, hr]
    simp [hp, harrived]
  · rename_i hp
    rw [exec_requestService, execGlazierRequestService, hr]
    simp [hp, harrived]

theorem requestEvent_waits (harrived : r.arrived ≠ none) (hserve : s.servable u r = false) : exec (requestEvent u idx r) s = .next s := by
  unfold requestEvent
  split
  · rename_i hp
    rw [exec_atomicExecution, execAtomicExecution, hr]
    simp [hp, harrived, hserve]
  · rename_i hp
    rw [exec_requestService, execGlazierRequestService, hr]
    simp [hp, harrived, hserve]

variable (hserve : s.servable u r = true)
include hserve

/-- A read of one piece, where no frame is dead and no error stands (R140). -/
theorem requestService_serves {p : Piece} (hp : r.pieces = [p]) (hu : u.kind ≠ .peer) (hdead : s.deadFr = []) (hpoison : s.poison = [])
    (hsoft : s.soft = []) : exec (.glazierRequestService u idx) s =
      .next ((s.takeReq u idx r).modPend r.gid r.wid r.pid (arrivedPend (putBytes [] p.key (rdBytes s.mem p.addr p.n)) none)) := by
  obtain ⟨places, htake⟩ := takeReq_places s u idx r
  rw [exec_requestService, execGlazierRequestService, hr]
  have hfound : s.found p.addr p.va p.n = _ := found_alive hdead hpoison p.addr p.va p.n
  simp only [hp, arrived_of_servable hserve, hserve, peerRefusal, hu, State.findPieces, List.foldl_cons, List.foldl_nil, hfound]
  simp only [List.cons_ne_nil, Bool.not_true, Bool.false_eq_true, if_false, least]
  rw [correct_soft (s := s.takeReq u idx r) (by rw [htake]; exact hsoft), arrive_alive]

theorem atomicExecution_performs {a : AtomSpec} {g : Group} (hp : r.pieces = []) (ha : r.atom = some a) (hg : s.group? r.gid = some g) :
    exec (.atomicExecution u idx) s = .next ((s.takeReq u idx r).performAtomic g r.gid r.wid r.pid u a
      fun k => (s.takeReq u idx r).stampFor r.gid r.wid a.count k) := by
  rw [exec_atomicExecution, execAtomicExecution, hr]
  simp only [hp, arrived_of_servable hserve, hserve, ha, hg]
  simp

end request

/-- An operation that a warp awaits, where bytes have come for it. -/
theorem awaits_modPend {gid wid pid : Nat} {w : Warp} {q : Pend} (h : Awaits s gid wid pid w q) {g : Pend → Pend} (hg : ∀ q, (g q).id = q.id) :
    ∃ v, (s.modPend gid wid pid g).warp? gid wid = some v ∧ v.pend? pid = some (g q) := by
  obtain ⟨hw, hq, -, -, -⟩ := h
  have h := Shows.modPend (s := s) (gid := gid) (wid := wid) ⟨w, hw, hq⟩ gid wid pid hg
  rwa [if_pos ⟨rfl, rfl⟩] at h

theorem putBytes_at (key : Nat) (bs : List Byte) {k : Nat} (hk : k < bs.length) : fget 0 (key + k) (putBytes [] key bs) = bs[k] := by
  rw [putBytes, (putBytes_puts key bs).inside hk (by simp [Canon]) (b := bs.getD k 0) fun _ => rfl]
  simp [hk]

theorem arrivedPend_byte {got : FMap Byte} (hc : Canon 0 got) {q : Pend} (hq : q.got = []) (bad : Option Nat) (a : Nat) :
    fget 0 a (arrivedPend got bad q).got = fget 0 a got := by
  unfold arrivedPend
  rw [fget_foldl_fset hc, hq]
  split
  · rename_i h; rw [h]; rfl
  · rfl

/-- What an atomic of one lane at a glazier leaves of memory and of the requests there (R145, R246). -/
theorem atomicExecution_one {a : AtomSpec} {l : AtomLane} {g : Group} (hr : (s.place u).queue[idx]? = some r) (hserve : s.servable u r = true)
    (hp : r.pieces = []) (ha : r.atom = some a) (hlanes : a.lanes = [l]) (hg : s.group? r.gid = some g) (hu : u.kind = .glazier)
    (hl : keyRegion l.addr ≠ 4) (hpoison : s.poison = []) (hsoft : s.soft = []) (hdead : s.deadFr = []) :
    ∃ t, exec (.atomicExecution u idx) s = .next t ∧ (t.place u).queue.length + 1 = (s.place u).queue.length ∧
      t.mem = laneWrites a l s.mem := by
  obtain ⟨places, htake⟩ := takeReq_places s u idx r
  refine ⟨_, atomicExecution_performs hr hserve hp ha hg, ?_⟩
  have hqueue := length_queue_takeReq hr r
  have hmem : (s.takeReq u idx r).mem = s.mem := by rw [htake]
  have hdead' : (s.takeReq u idx r).deadFr = [] := by rw [htake]; exact hdead
  have hpoison' : (s.takeReq u idx r).poison = [] := by rw [htake]; exact hpoison
  have hsoft' : (s.takeReq u idx r).soft = [] := by rw [htake]; exact hsoft
  generalize s.takeReq u idx r = s1 at *
  have h := performAtomic_glazier (gid := r.gid) (wid := r.wid) (pid := r.pid) (g := g)
    (stamp := fun k => s1.stampFor r.gid r.wid a.count k) hu hlanes hl hdead' hpoison' hsoft'
  obtain ⟨hm, -, hq⟩ := atomLane_low (g := g) (stamp := fun k => s1.stampFor r.gid r.wid a.count k) (a := a) hl hdead' hpoison' hsoft'
  exact ⟨by rw [h.place, hq]; exact hqueue, by rw [h.mem, hm, hmem]⟩

/-! ## Writes -/

theorem writeBufferDrain_performs {die bank : Nat} {e : WbEntry} {rest : List WbEntry} (hbank : flook (die * 16 + bank) s.wbanks = some (e :: rest))
    (hheld : s.drainHeld e = false) : exec (.writeBufferDrain die bank) s =
      .next (({ s with wbanks := fput (die * 16 + bank) rest s.wbanks }.started e.u s.fresh e.spans).performWrite die e) := by
  rw [exec_writeBufferDrain, execWriteBufferDrain, hbank]
  simp [hheld]

theorem storeBufferCommit_one {gid : Nat} {g : Group} {e : WbEntry} (hg : s.group? gid = some g) (hdrain : g.draining = [e]) :
    exec (.storeBufferCommit gid) s =
      let k := coreDie g.core * 16 + e.bank
      let b := (flook k s.wbanks).getD []
      let room := b.length < 64 ∧ s.mayEnter e = true
      .next ({ s with wbanks := if room then fput k (b ++ [e]) s.wbanks else s.wbanks }.modGroup gid fun g =>
        { g with draining := if room then [] else [e] }) := by
  rw [exec_storeBufferCommit, execStoreBufferCommit, hg]
  simp only [hdrain, enterBanks]
  by_cases hroom : ((flook (coreDie g.core * 16 + e.bank) s.wbanks).getD []).length < 64 ∧ s.mayEnter e = true
  · simp [hroom]
  · simp [hroom]

end Sys2Proof.Laws
end

section
namespace Sys2Proof.Laws

open Sys2Proof.Machine

/-- Settles O47, event by event. -/
theorem placesPerform : Obligations.PlacesPerform := by
  refine ⟨fun u idx s r hr => ⟨fun harrived => ⟨fun hsend => ?_, fun hsend => ?_⟩, ?_, ?read, ?atomic⟩, fun die bank s e rest hbank => ⟨fun hheld => ?_, ?write⟩,
    fun gid s g e hg hdrain => ⟨fun hmay hroom => ?_, fun hno => ?_⟩⟩
  · exact (requestEvent_sends hr harrived).trans (by rw [sendReq_waits hsend])
  · obtain ⟨hmem, hqueue⟩ := sendReq_sendable hsend idx
    exact ⟨_, requestEvent_sends hr harrived, hmem, hqueue⟩
  · exact fun harrived hserve => requestEvent_waits hr harrived hserve
  case read =>
    intro hserve p w q hp hawaits hgot hu hpoison hsoft hdead
    obtain ⟨places, htake⟩ := takeReq_places s u idx r
    have hawaits' : Awaits (s.takeReq u idx r) r.gid r.wid r.pid w q := by rw [htake]; exact hawaits
    obtain ⟨v, hv, hq⟩ := awaits_modPend hawaits' (g := arrivedPend (putBytes [] p.key (rdBytes s.mem p.addr p.n)) none) fun _ => rfl
    have hcanon : Canon 0 (putBytes [] p.key (rdBytes s.mem p.addr p.n)) := (putBytes_puts _ _).canon _ (by simp [Canon])
    refine ⟨_, v, _, requestService_serves hr hserve hp hu hdead hpoison hsoft, ?_, length_queue_takeReq hr r, hv, hq, rfl, ?_, fun k hk => ?_⟩
    · rw [htake]; rfl
    · show (least (q.bad.map _) none).map _ = none
      rw [hawaits.2.2.2.2]; rfl
    · rw [arrivedPend_byte hcanon hgot, putBytes_at _ _ (by rwa [length_rdBytes])]
      simp [rdBytes]
  case atomic =>
    intro hserve a l g hp ha hlanes hg hu hrange hpoison hsoft hdead hwf hsize
    have hgang := gang_le_region
    have hlow : keyRegion l.addr = 0 := Nat.div_eq_of_lt (by omega)
    obtain ⟨t, ht, hqueue, hmem⟩ := atomicExecution_one hr hserve hp ha hlanes hg hu (by rw [hlow]; decide) hpoison hsoft hdead
    refine ⟨t, ht, hqueue, ?_, fun x hx => ?_⟩
    · rw [hmem, laneWrites]
      cases atomNew a.op a.size (bytesNat (rdBytes s.mem l.addr a.size)) l.b l.c with
      | none => rw [Option.getD_none, natBytes_rdBytes]
      | some v =>
        have h := rdBytes_wrBytes (a := l.addr) (bs := natBytes a.size v) hwf (by rw [length_natBytes]; unfold OneLayout; omega)
        rwa [length_natBytes] at h
    · rw [hmem, laneWrites]
      cases atomNew a.op a.size (bytesNat (rdBytes s.mem l.addr a.size)) l.b l.c with
      | none => rfl
      | some v => exact rdByte_wrBytes_out fun k hk => hx k (by rwa [length_natBytes] at hk)
  · rw [exec_writeBufferDrain, execWriteBufferDrain, hbank]
    simp [hheld]
  case write =>
    intro hheld hatom _ hcells hkeys hu hdead hwf
    obtain ⟨places, hstart⟩ := started_places { s with wbanks := fput (die * 16 + bank) rest s.wbanks } e.u s.fresh e.spans
    obtain ⟨hmem, hbanks⟩ := performWrite_bytes (s := { s with wbanks := fput (die * 16 + bank) rest s.wbanks, places := places }) die hatom hkeys hu hdead
    refine ⟨_, writeBufferDrain_performs hbank hheld, ?_⟩
    rw [hstart, hmem, hbanks]
    exact ⟨flook_fput_self .., fun p hp => rdByte_putCells_in hwf hcells hp, fun a ha => rdByte_putCells_out ha _⟩
  · refine ⟨_, { g with draining := [] }, storeBufferCommit_one hg hdrain, rfl, ?_, ?_, rfl⟩
    · simp only [hroom, hmay, and_self, if_true]
      exact flook_fput_self ..
    · simp only [hroom, hmay, and_self, if_true, modGroup_self]
      exact congrArg (Option.map _) hg
  · have hno' : ¬ (((flook (coreDie g.core * 16 + e.bank) s.wbanks).getD []).length < 64 ∧ s.mayEnter e = true) := by
      rintro ⟨h1, h2⟩
      rcases hno with h | h
      · rw [h] at h2; cases h2
      · omega
    refine ⟨_, { g with draining := [e] }, storeBufferCommit_one hg hdrain, ?_, ?_, rfl⟩
    · simp only [hno', if_false]; rfl
    · simp only [hno', if_false, modGroup_self]
      exact congrArg (Option.map _) hg

end Sys2Proof.Laws
end

section
namespace Sys2Proof.Laws

open Sys2Proof.Machine

/-! ## A beat of TMOV that a barrier counts -/

/-- A TMOV from the bench into memory that names a barrier word. -/
def countedMove : ECmd := { id := 1, kind := .tmov, gid := 0, wid := 0, lanes := 0, pid := 1, block := [0], dst := 3, len := 16, warn := true }

def movingGroup : Group := { task := 0, index := 0, core := 0, crew := 0, benchSize := 64 }
def movingTask : Task := { tid := 0, part := 0, asid := 0, tcb := 0, image := [] }

/-- It is the only command of its core, and the page that it writes grants the write. -/
def movingState : State :=
  { tlb := [{ cluster := 0, asid := 0, page := 0, level := 0, leaf := 0x0020000000000009#64 }], warps := [(0, {})], groups := [(0, movingGroup)],
    tasks := [(0, movingTask)], cores := [(0, { engine := [countedMove] })] }

def movingAgent : Issuer := ⟨⟨0, 0, movingState.entryOf 0 0 1⟩, movingGroup, {}, { held := 0 }, movingTask⟩

/-- The bench word that it reads: unwritten, and so zero. -/
def movedBeat : Found := { bytes := List.replicate 16 0, from_ := [(⟨.bench, 0⟩, benchKey 0 0, 16)] }

theorem movedBeat_fetched : fetchBeat movingState movingAgent { countedMove with view := some 0 } = .ok (movedBeat, some 0) := by decide +kernel

/-- After the beat a byte of the barrier word is not as it was. -/
theorem countedMove_counts {t : State} (h : exec (.engineBytesLand 0 1 1) movingState = .next t) : t.mem ≠ movingState.mem := by
  have hmem : (match execEngineBytesLand 0 1 1 movingState with
    | .next t => t.mem
    | _ => []) ≠ [] := by decide
  rw [show exec (.engineBytesLand 0 1 1) movingState = execEngineBytesLand 0 1 1 movingState from rfl] at h
  rw [h] at hmem
  exact hmem

/-- Refutes O45: a beat that a TMOV puts into the store buffer is counted on the barrier word that its command names, so memory does not stand.
No TMOV that issues names one (tmovEff), but the clause of the store buffer holds for every command of the state and, unlike that of the
scratchpads, does not ask that it names none. -/
theorem not_copiesViewsAndReductions : ¬ Obligations.CopiesViewsAndReductions := by
  rintro ⟨⟨-, hmoves, -⟩, -⟩
  obtain ⟨-, hbuffers, -⟩ := hmoves 0 1 movingState countedMove movingAgent movedBeat (some 0) rfl rfl rfl (by decide) (by decide) (by decide) rfl rfl rfl
    movedBeat_fetched rfl rfl
  obtain ⟨t, v, ht, hmem, -⟩ := hbuffers rfl rfl (by decide) (by decide) (by decide) rfl
  exact countedMove_counts ht hmem

end Sys2Proof.Laws
end
